-- ==== Sys2Proof/Word.lean ====
section
/-! DEFINITION. The word types of the Sahlar Llyn and their plainest arithmetic (R13, R14). -/

namespace Sys2Proof

/-- A byte (R14). -/
abbrev Byte := BitVec 8
/-- A word is 32 bits (R13). -/
abbrev Word := BitVec 32
/-- A 64-bit value: an even register pair, an address, a page-table entry. -/
abbrev DWord := BitVec 64
/-- A mask holds one bit per lane slot, 1,024 bits in all (R108). -/
abbrev Mask := BitVec 1024
/-- The 128 bytes of a line, byte 0 in bits 7:0 (R8, R14). -/
abbrev LineData := BitVec 1024

/-- The lane slots of a team are numbered 0 to 1,023 at most (R100). -/
def slotCount : Nat := 1024

end Sys2Proof
end

