-- ==== Sys2Proof/Syntax.lean ====
section
/-! DEFINITION. The instructions of the Llyn: the 187 instruction words of the opcode map (R228) with their operand fields, and the 90 steps of
the part that have no instruction word (spec/95 and spec/opcode_table.json). -/

namespace Sys2Proof

/-- A register or value selector (R218): what an 8-bit operand field names. -/
inductive Sel where
  /-- 0x00 to 0xBF: vector register v0 to v191. -/
  | v (n : Nat)
  /-- 0xC0 to 0xDF: scalar register s0 to s31. -/
  | s (n : Nat)
  /-- 0xE0 to 0xE3: clause temporary w0 to w3. -/
  | w (n : Nat)
  /-- 0xE4. -/
  | zero
  /-- 0xE5: the lane's slot number. -/
  | laneid
  /-- 0xE6: laneid mod S. -/
  | spanlane
  /-- 0xE7 (R105). -/
  | subidx
  /-- 0xE8 (R105). -/
  | nwide
  /-- 0xE9: the team's number in its launch. -/
  | teamid
  /-- 0xEA: the core's number (R3). -/
  | coreid
  /-- 0xF0: the clause word after the instruction. -/
  | lit
  /-- 0xEB to 0xEF and 0xF1 to 0xFF: reserved, ILLEGAL_OP at issue. -/
  | rsvd (n : Nat)
  deriving DecidableEq, Repr

/-- An Urfel message as it reaches the Llyn (R390): the header's fields, the sender, the stream it came on, and the payload. -/
structure UrfelMsg where
  /-- the endpoint that sent it -/
  sender : Nat
  /-- true on a ROD stream (R389) -/
  rod : Bool
  /-- bits 7:0 of the header -/
  op : Nat
  /-- bits 39:32 -/
  sub : Nat
  /-- bits 47:40 -/
  ctx : Nat
  /-- bits 31:16 -/
  tag : Nat
  /-- bits 15:8, zero in a request -/
  status : Nat
  /-- bits 63:48 -/
  length : Nat
  /-- bits 127:64 -/
  addr : Nat
  payload : List Byte
  deriving DecidableEq, Repr

/-- The operations a peer device asks of this device's memory (R397). -/
inductive PeerOp where
  /-- read n bytes -/
  | read (n : Nat)
  /-- write the bytes -/
  | write (bytes : List Byte)
  /-- an atomic: opcode 0xA0 to 0xAB of the returning form, width in bytes, TYPE, operand and compare values -/
  | atomic (op bytes ty : Nat) (y cmp : BitVec 128)
  deriving DecidableEq, Repr

/-- An incoming peer access (R397): the physical address and the operation. -/
structure PeerReq where
  pa : Nat
  op : PeerOp
  deriving DecidableEq, Repr

/-- What arrives of a late operation (R176): all that is left of it, with which it completes, or the values of some lanes. -/
inductive LatePart where
  | all (op : Nat)
  | lanes (op : Nat) (mask : Mask)
  deriving DecidableEq, Repr

/-- A request for a slot of a buffer (R402): the oldest that waits there, or one of a peer's engine, by its own number, which joins those first. -/
inductive SlotAsk where
  | waiting (buf : Nat)
  | peer (buf tag : Nat)
  deriving DecidableEq, Repr

/-- A payload on its way to a granted slot of this device (R402): of a job of its own, or from a peer's engine, with its buffer, token, weight and inputs. -/
inductive PayloadSite where
  | own (job : Nat)
  | peer (buf token : Nat) (weight : Word) (inputs : List Byte)
  deriving DecidableEq, Repr

/-- A byte place at home, in a DRAM channel (R22) or in a slice's window (R23). -/
inductive HomePlace where
  | dram (die channel at_ : Nat)
  | window (slice at_ : Nat)
  deriving DecidableEq, Repr

/-- Where a soft error lies and what it is (R19, R385, R410). -/
inductive SoftSite where
  /-- a clean word of a first level, fetch or instruction cache line -/
  | cleanWord (core : Nat)
  /-- a dirty or owned word: physical word number -/
  | dirtyWord (core word : Nat)
  /-- a v register of a team's slot -/
  | vreg (team slot reg : Nat)
  /-- a scratchpad word: word index -/
  | scratch (core word : Nat)
  /-- an s register, mask, MODE, flag or stack entry of a team -/
  | teamState (team : Nat)
  /-- an error of a core's word that is corrected -/
  | corrected (core : Nat)
  /-- an error of a granule at home that is corrected, one that cannot be, and one that the code takes for something else: the granule's bits that flip -/
  | homeCorrected (place : HomePlace)
  | homeError (place : HomePlace)
  | homeFlip (place : HomePlace) (flips : BitVec 64)
  deriving DecidableEq, Repr

/-- A request the transport abandons (R389, R395, R397). -/
inductive LostRequest where
  /-- a HOST_READ piece of a layer load -/
  | hostRead (mslot layer : Nat)
  /-- a peer layer source -/
  | peerLayer (mslot layer : Nat)
  /-- one lane's read of a peer by a load or a FETCH waiting as a team's late operation: the lane's slot -/
  | peerLoad (team op slot : Nat)
  /-- a peer store or no-return atomic in a core's outbound queue -/
  | peerStore (core ix : Nat)
  deriving DecidableEq, Repr

/-- One copy of a firmware image in the flash (R404). -/
structure BootImage where
  pubKey : List Byte
  signature : List Byte
  /-- the header fields the signature covers, the security version among them -/
  fields : List Byte
  body : List Byte
  deriving DecidableEq, Repr

/-- What the boot ROM reads (R404, R405): the fuses, copies A and B of the images of M1 to M4, the provisioning record. -/
structure BootFlash where
  fuses : List Byte
  images : List (BootImage × BootImage)
  provisioning : List Byte
  deriving DecidableEq, Repr

/-- The instructions and steps of the Llyn, one constructor for each row of the opcode table. A step that a message of the fabric brings takes
its message from the head of the state's inbox. -/
inductive Instr where
  /-- MOV (R239). -/
  | mov (d : Sel) (a : Sel)
  /-- MOV2 (R239). -/
  | mov2 (d : Sel) (a : Sel)
  /-- MOV4 (R239). -/
  | mov4 (d : Sel) (a : Sel)
  /-- SEL (R240). -/
  | sel (d : Sel) (a : Sel) (b : Sel)
  /-- SETMODE (R241). -/
  | setmode (a : Sel)
  /-- GETMODE (R239). -/
  | getmode (d : Sel)
  /-- RDSR (R242). -/
  | rdsr (d : Sel) (a : Sel)
  /-- UNIF (R243). -/
  | unif (d : Sel) (a : Sel)
  /-- WRSR (R242). -/
  | wrsr (a : Sel) (b : Sel)
  /-- ADD (R244). -/
  | add (d : Sel) (a : Sel) (b : Sel)
  /-- SUB (R244). -/
  | sub (d : Sel) (a : Sel) (b : Sel)
  /-- MUL (R244). -/
  | mul (d : Sel) (a : Sel) (b : Sel)
  /-- MULHI (R244). -/
  | mulhi (d : Sel) (a : Sel) (b : Sel)
  /-- MAD (R244). -/
  | mad (d : Sel) (a : Sel) (b : Sel)
  /-- ABS (R245). -/
  | abs (d : Sel) (a : Sel)
  /-- NEG (R245). -/
  | neg (d : Sel) (a : Sel)
  /-- MIN (R244). -/
  | min (d : Sel) (a : Sel) (b : Sel)
  /-- MAX (R244). -/
  | max (d : Sel) (a : Sel) (b : Sel)
  /-- DIV (R245). -/
  | div (d : Sel) (a : Sel) (b : Sel)
  /-- REM (R245). -/
  | rem (d : Sel) (a : Sel) (b : Sel)
  /-- SHL (R244). -/
  | shl (d : Sel) (a : Sel) (b : Sel)
  /-- SHR (R244). -/
  | shr (d : Sel) (a : Sel) (b : Sel)
  /-- ROT (R244). -/
  | rot (d : Sel) (a : Sel) (b : Sel)
  /-- AND (R244). -/
  | and (d : Sel) (a : Sel) (b : Sel)
  /-- OR (R244). -/
  | or (d : Sel) (a : Sel) (b : Sel)
  /-- XOR (R244). -/
  | xor (d : Sel) (a : Sel) (b : Sel)
  /-- NOT (R244). -/
  | not (d : Sel) (a : Sel)
  /-- ANDN (R244). -/
  | andn (d : Sel) (a : Sel) (b : Sel)
  /-- POPC (R244). -/
  | popc (d : Sel) (a : Sel)
  /-- CLZ (R244). -/
  | clz (d : Sel) (a : Sel)
  /-- CTZ (R244). -/
  | ctz (d : Sel) (a : Sel)
  /-- BREV (R244). -/
  | brev (d : Sel) (a : Sel)
  /-- BFE (R246). -/
  | bfe (d : Sel) (a : Sel) (b : Sel)
  /-- BFI (R246). -/
  | bfi (d : Sel) (a : Sel) (b : Sel)
  /-- CMP (R247). -/
  | cmp (c : Nat) (m : Nat) (a : Sel) (b : Sel)
  /-- LEA0 (R248). -/
  | lea0 (d : Sel) (a : Sel) (b : Sel)
  /-- LEA2 (R248). -/
  | lea2 (d : Sel) (a : Sel) (b : Sel)
  /-- LEA3 (R248). -/
  | lea3 (d : Sel) (a : Sel) (b : Sel)
  /-- FADD (R253). -/
  | fadd (d : Sel) (a : Sel) (b : Sel)
  /-- FSUB (R253). -/
  | fsub (d : Sel) (a : Sel) (b : Sel)
  /-- FMUL (R253). -/
  | fmul (d : Sel) (a : Sel) (b : Sel)
  /-- FMA (R253). -/
  | fma (d : Sel) (a : Sel) (b : Sel)
  /-- FNMA (R253). -/
  | fnma (d : Sel) (a : Sel) (b : Sel)
  /-- FMIN (R253). -/
  | fmin (d : Sel) (a : Sel) (b : Sel)
  /-- FMAX (R253). -/
  | fmax (d : Sel) (a : Sel) (b : Sel)
  /-- FABS (R253). -/
  | fabs (d : Sel) (a : Sel)
  /-- FNEG (R253). -/
  | fneg (d : Sel) (a : Sel)
  /-- FRINT (R253). -/
  | frint (d : Sel) (a : Sel)
  /-- FLDEXP (R253). -/
  | fldexp (d : Sel) (a : Sel) (b : Sel)
  /-- FCLASS (R254). -/
  | fclass (d : Sel) (a : Sel)
  /-- FDIV (R255). -/
  | fdiv (d : Sel) (a : Sel) (b : Sel)
  /-- FSQRT (R255). -/
  | fsqrt (d : Sel) (a : Sel)
  /-- FRCP (R255). -/
  | frcp (d : Sel) (a : Sel)
  /-- FRSQ (R255). -/
  | frsq (d : Sel) (a : Sel)
  /-- FEXP2 (R255). -/
  | fexp2 (d : Sel) (a : Sel)
  /-- FLOG2 (R255). -/
  | flog2 (d : Sel) (a : Sel)
  /-- FSIN (R255). -/
  | fsin (d : Sel) (a : Sel)
  /-- FCOS (R255). -/
  | fcos (d : Sel) (a : Sel)
  /-- FTANH (R255). -/
  | ftanh (d : Sel) (a : Sel)
  /-- FDOT2 (R256). -/
  | fdot2 (d : Sel) (a : Sel) (b : Sel)
  /-- CVTI (R258). -/
  | cvti (d : Sel) (a : Sel)
  /-- CVTN (R258). -/
  | cvtn (d : Sel) (a : Sel)
  /-- CVTL (R258). -/
  | cvtl (d : Sel) (a : Sel)
  /-- CVTF (R258). -/
  | cvtf (d : Sel) (a : Sel)
  /-- CVTD (R258). -/
  | cvtd (d : Sel) (a : Sel)
  /-- CVTB (R258). -/
  | cvtb (d : Sel) (a : Sel)
  /-- CVTH (R258). -/
  | cvth (d : Sel) (a : Sel)
  /-- PACK2 (R259). -/
  | pack2 (d : Sel) (a : Sel) (b : Sel)
  /-- RSADD (R261). -/
  | rsadd (d : Sel) (a : Sel) (b : Sel)
  /-- RSSUB (R261). -/
  | rssub (d : Sel) (a : Sel) (b : Sel)
  /-- RSMUL (R261). -/
  | rsmul (d : Sel) (a : Sel) (b : Sel)
  /-- RSDIV (R261). -/
  | rsdiv (d : Sel) (a : Sel) (b : Sel)
  /-- RSNEG (R261). -/
  | rsneg (d : Sel) (a : Sel)
  /-- RSRCP (R261). -/
  | rsrcp (d : Sel) (a : Sel)
  /-- RSSQR (R261). -/
  | rssqr (d : Sel) (a : Sel)
  /-- RSUNION (R261). -/
  | rsunion (d : Sel) (a : Sel) (b : Sel)
  /-- RSISECT (R261). -/
  | rsisect (d : Sel) (a : Sel) (b : Sel)
  /-- RSHULL (R261). -/
  | rshull (d : Sel) (a : Sel)
  /-- RSLO (R149). -/
  | rslo (d : Sel) (a : Sel)
  /-- RSHI (R149). -/
  | rshi (d : Sel) (a : Sel)
  /-- RSCONV (R262). -/
  | rsconv (d : Sel) (a : Sel) (b : Sel)
  /-- RINGLD (R263). -/
  | ringld (a : Sel) (b : Sel)
  /-- RINGQ (R264). -/
  | ringq (d : Sel) (a : Sel)
  /-- SHFL (R267). -/
  | shfl (d : Sel) (a : Sel) (b : Sel)
  /-- SHFLX (R267). -/
  | shflx (d : Sel) (a : Sel) (b : Sel)
  /-- SHFLUP (R267). -/
  | shflup (d : Sel) (a : Sel) (b : Sel)
  /-- SHFLDN (R267). -/
  | shfldn (d : Sel) (a : Sel) (b : Sel)
  /-- VOTEANY (R268). -/
  | voteany (d : Sel) (a : Sel)
  /-- VOTEALL (R268). -/
  | voteall (d : Sel) (a : Sel)
  /-- BALLOT (R268). -/
  | ballot (d : Sel) (a : Sel)
  /-- REDADD (R269). -/
  | redadd (d : Sel) (a : Sel)
  /-- REDMIN (R269). -/
  | redmin (d : Sel) (a : Sel)
  /-- REDMAX (R269). -/
  | redmax (d : Sel) (a : Sel)
  /-- REDOR (R269). -/
  | redor (d : Sel) (a : Sel)
  /-- REDUN (R269). -/
  | redun (d : Sel) (a : Sel)
  /-- SCANADD (R269). -/
  | scanadd (d : Sel) (a : Sel)
  /-- CONFD (R270). -/
  | confd (d : Sel) (a : Sel)
  /-- KEYADD (R270). -/
  | keyadd (d : Sel) (a : Sel) (b : Sel)
  /-- MAND (R249). -/
  | mand (d : Nat) (a : Nat) (b : Nat)
  /-- MOR (R249). -/
  | mor (d : Nat) (a : Nat) (b : Nat)
  /-- MXOR (R249). -/
  | mxor (d : Nat) (a : Nat) (b : Nat)
  /-- MNOT (R249). -/
  | mnot (d : Nat) (a : Nat)
  /-- MANDN (R249). -/
  | mandn (d : Nat) (a : Nat) (b : Nat)
  /-- MMOV (R249). -/
  | mmov (d : Nat) (a : Nat)
  /-- MPOPC (R249). -/
  | mpopc (d : Sel) (a : Nat)
  /-- MFIRST (R249). -/
  | mfirst (d : Sel) (a : Nat)
  /-- MGET (R249). -/
  | mget (d : Sel) (a : Nat) (b : Sel)
  /-- MSET (R249). -/
  | mset (d : Nat) (a : Sel) (b : Sel)
  /-- MSAVE (R250). -/
  | msave (d : Nat) (a : Sel)
  /-- MLOAD (R250). -/
  | mload (d : Nat) (a : Sel)
  /-- MALL (R249). -/
  | mall (d : Nat)
  /-- LD (R279). -/
  | ld (d : Sel) (a : Sel) (b : Sel)
  /-- LDB (R279). -/
  | ldb (d : Sel) (a : Sel) (b : Sel)
  /-- LDH (R279). -/
  | ldh (d : Sel) (a : Sel) (b : Sel)
  /-- ST (R279). -/
  | st (d : Sel) (a : Sel) (b : Sel)
  /-- STB (R279). -/
  | stb (d : Sel) (a : Sel) (b : Sel)
  /-- STH (R279). -/
  | sth (d : Sel) (a : Sel) (b : Sel)
  /-- LDW (R279). -/
  | ldw (d : Sel) (a : Sel) (b : Sel)
  /-- STW (R279). -/
  | stw (d : Sel) (a : Sel) (b : Sel)
  /-- SLD (R281). -/
  | sld (d : Sel) (a : Sel) (b : Sel)
  /-- SST (R281). -/
  | sst (d : Sel) (a : Sel) (b : Sel)
  /-- PREF (R282). -/
  | pref (a : Sel) (b : Sel)
  /-- RESHINT (R282). -/
  | reshint (a : Sel) (b : Sel)
  /-- AADD (R284). -/
  | aadd (d : Sel) (a : Sel) (b : Sel)
  /-- AMIN (R284). -/
  | amin (d : Sel) (a : Sel) (b : Sel)
  /-- AMAX (R284). -/
  | amax (d : Sel) (a : Sel) (b : Sel)
  /-- AAND (R284). -/
  | aand (d : Sel) (a : Sel) (b : Sel)
  /-- AOR (R284). -/
  | aor (d : Sel) (a : Sel) (b : Sel)
  /-- AXOR (R284). -/
  | axor (d : Sel) (a : Sel) (b : Sel)
  /-- AXCHG (R284). -/
  | axchg (d : Sel) (a : Sel) (b : Sel)
  /-- ACAS (R286). -/
  | acas (d : Sel) (a : Sel) (b : Sel)
  /-- ACASW (R286). -/
  | acasw (d : Sel) (a : Sel) (b : Sel)
  /-- AFADD (R284). -/
  | afadd (d : Sel) (a : Sel) (b : Sel)
  /-- AFMIN (R284). -/
  | afmin (d : Sel) (a : Sel) (b : Sel)
  /-- AFMAX (R284). -/
  | afmax (d : Sel) (a : Sel) (b : Sel)
  /-- STADD (R287). -/
  | stadd (d : Sel) (a : Sel) (b : Sel)
  /-- STMIN (R287). -/
  | stmin (d : Sel) (a : Sel) (b : Sel)
  /-- STMAX (R287). -/
  | stmax (d : Sel) (a : Sel) (b : Sel)
  /-- STAND (R287). -/
  | stand (d : Sel) (a : Sel) (b : Sel)
  /-- STOR (R287). -/
  | stor (d : Sel) (a : Sel) (b : Sel)
  /-- STXOR (R287). -/
  | stxor (d : Sel) (a : Sel) (b : Sel)
  /-- STFADD (R287). -/
  | stfadd (d : Sel) (a : Sel) (b : Sel)
  /-- STFMIN (R287). -/
  | stfmin (d : Sel) (a : Sel) (b : Sel)
  /-- STFMAX (R287). -/
  | stfmax (d : Sel) (a : Sel) (b : Sel)
  /-- QLOCK (R289). -/
  | qlock (d : Sel) (a : Sel)
  /-- QUNLOCK (R290). -/
  | qunlock (a : Sel)
  /-- FETCH (R292). -/
  | fetch (d : Sel) (a : Sel) (b : Sel)
  /-- FETCH2 (R292). -/
  | fetch2 (d : Sel) (a : Sel) (b : Sel)
  /-- HBIND (R291). -/
  | hbind (a : Sel) (b : Sel)
  /-- CARD (R293). -/
  | card (d : Sel) (a : Sel)
  /-- CWAIT (R294). -/
  | cwait (a : Sel)
  /-- CPOLL (R294). -/
  | cpoll (d : Sel) (a : Sel)
  /-- ISECT (R296). -/
  | isect (d : Sel) (a : Sel) (b : Sel)
  /-- MERGE (R297). -/
  | merge (d : Sel) (a : Sel) (b : Sel)
  /-- MPSPLIT (R298). -/
  | mpsplit (d : Sel) (a : Sel) (b : Sel)
  /-- MLOOP (R302). -/
  | mloop (a : Sel)
  /-- MBATCH (R303). -/
  | mbatch (d : Sel)
  /-- MWAIT (R304). -/
  | mwait (a : Sel)
  /-- MDRAIN (R308). -/
  | mdrain (a : Sel)
  /-- MQUANT (R311). -/
  | mquant (a : Sel)
  /-- MZERO (R312). -/
  | mzero (a : Sel) (b : Sel)
  /-- BRC (R177). -/
  | brc (a : Nat)
  /-- BRU (R316). -/
  | bru (a : Sel)
  /-- CALL (R317). -/
  | call (d : Sel) (a : Sel)
  /-- CALLI (R318). -/
  | calli (d : Sel) (a : Sel) (b : Sel)
  /-- ARG (R320). -/
  | arg (d : Sel) (a : Sel) (b : Sel)
  /-- GRET (R321). -/
  | gret (d : Sel) (a : Sel) (b : Sel)
  /-- JOIN (R323). -/
  | join (a : Sel)
  /-- LEAVE (R323). -/
  | leave (a : Sel)
  /-- BAR (R324). -/
  | bar (a : Sel)
  /-- QPOP (R325). -/
  | qpop (d : Sel) (a : Sel)
  /-- QPUSH (R326). -/
  | qpush (d : Sel) (a : Sel) (b : Sel)
  /-- LWAIT (R328). -/
  | lwait (a : Sel)
  /-- LDONE (R329). -/
  | ldone (a : Sel)
  /-- LSTAT (R330). -/
  | lstat (d : Sel) (a : Sel)
  /-- TRAP (R331). -/
  | trap (a : Sel)
  /-- ERET (R334). -/
  | eret (a : Sel)
  /-- BKPT (R331). -/
  | bkpt (a : Sel)
  /-- CLAUSE_START (R172): A clause starts once its WAIT flags are zero and the team holds the issue slot. -/
  | clauseStart (team : Nat)
  /-- SCORE_HALVING (R357): Every 4,096 cycles each victim-tag score is halved. -/
  | scoreHalving (core : Nat)
  /-- LATE_RESULT (R114): A long-latency operation completes, writes its late result and decrements its flag. -/
  | lateResult (team : Nat) (op : LatePart)
  /-- RING_TABLE_BUILT (R146): A ring table build completes and clears the OTHERS flag. -/
  | ringTableBuilt (team slot : Nat)
  /-- REGISTRATION (R32): A store's ownership registration is served at the home slice. -/
  | registration (core ix : Nat)
  /-- REGISTRATION_ACK (R49): An acknowledgment arrives at the storing core and sets the owned bit. -/
  | registrationAck (core ix : Nat)
  /-- RECALL (R33): The owner core answers a recall or pull of an owned word. -/
  | recallWord (word : Nat)
  /-- L1_EVICTION (R35): A first-level line is evicted and its owned dirty words written back. -/
  | l1Eviction (core ix : Nat)
  /-- ATOMIC_BATCH (R40): The atomic unit applies one batch of operations on one line. -/
  | atomicBatch (core ix : Nat)
  /-- UNIT_RECORD_FREED (R42): An operation waiting for a unit-table record is served once one becomes spillable. -/
  | unitRecordFreed (slice : Nat)
  /-- FAULT_RESOLUTION (R394): The Sconce resolves the pages of an open fault record. -/
  | faultResolution (cluster rec : Nat)
  /-- FAULT_RECORD_CONSUME (R70): A CONSUMED write to a fault record replays the parked teams and frees it. -/
  | faultRecordConsume (cluster rec : Nat)
  /-- TINVAL_WRITE (R67): A GO write to TINVAL removes TLB entries and invalidates matching first-level lines. -/
  | tinvalWrite (v : DWord)
  /-- INVALIDATION_COMPLETE (R67): In-flight translated accesses reach home and BUSY clears. -/
  | invalidationComplete (cluster : Nat)
  /-- WAYPART_RAISE (R28): A write raising WAYS recalls, writes back and begins zeroing the new window. -/
  | waypartRaise (slice ways : Nat)
  /-- WAYPART_LOWER (R29): A write lowering WAYS removes the top of the window. -/
  | waypartLower (slice ways : Nat)
  /-- WAYPART_CHANGE_COMPLETE (R28): Zeroing or draining ends, BUSY clears and GEN increments. -/
  | waypartChangeComplete (slice : Nat)
  /-- CARD_START (R89): A card starts once cards and MLOOPs it is ordered after are done. -/
  | cardStart (card : Nat)
  /-- CARD_COMPLETE (R86): A card's last write is performed and COMPADDR is stored with release. -/
  | cardComplete (card : Nat)
  /-- MLOOP_START (R159): The sequencer starts the next queued MLOOP and runs its K-steps. -/
  | mloopStart (core : Nat)
  /-- MLOOP_FLUSH (R162): A flush reaches the home slice and is merged or refused as mismatched. -/
  | mloopFlush (core : Nat)
  /-- LAYER_LOAD_START (R370): The loader serves a queued layer request, evicting victims if needed. -/
  | layerLoadStart (kind : Nat)
  /-- LAYER_ARRIVED (R369): A layer's bytes arrive with matching CRC and it turns RESIDENT. -/
  | layerArrived (mslot layer : Nat)
  /-- LAYER_LOAD_FAILED (R372): A swap-in fails and the layer turns FAILED. -/
  | layerLoadFailed (mslot layer why : Nat)
  /-- LAYER_EVICTED (R370): The eviction's invalidation completes and the layer turns ABSENT. -/
  | layerEvicted (mslot layer : Nat)
  /-- TEAM_RETIRE (R118): A team with no live lane retires once its flags and registrations are done. -/
  | teamRetire (team : Nat)
  /-- TEAM_HALT (R384): A team halts on an unhandled or double trap. -/
  | teamHalt (team : Nat)
  /-- TEAM_SAVE (R358): A team is saved out of its core into its save area. -/
  | teamSave (team : Nat)
  /-- TEAM_RESTORE (R359): A saved team is reloaded on its core. -/
  | teamRestore (team : Nat)
  /-- TRAP_ENTRY (R332): A delivered trap waits for flags, writes the trap record and enters the handler. -/
  | trapEntry (team : Nat)
  /-- SOFT_ERROR (R385): An uncorrectable core-storage soft error is handled by where it lies. -/
  | softError (site : SoftSite)
  /-- NOTIFY_RECORD (R340): The Sconce pops a notify record and reads the ring's WPTR. -/
  | notifyRecord (ring : Nat)
  /-- LAUNCH (R347): A LAUNCH packet is validated and handed to the work distributor. -/
  | launch (ring : Nat)
  /-- FEED (R353): A FEED packet appends records to a feed queue. -/
  | feed (ring : Nat)
  /-- CARD_PACKET (R344): A CARD packet submits a job card in the ring's context. -/
  | cardPacket (ring : Nat)
  /-- SIGNAL (R344): After earlier packets complete, stores a value with release. -/
  | signal (ring : Nat)
  /-- WAIT (R344): A WAIT packet holds the ring while it polls a word. -/
  | wait (ring : Nat)
  /-- WAIT_SATISFIED (R209): The polled word meets COND and the WAIT completes with acquire. -/
  | waitSatisfied (ring : Nat)
  /-- MODEL_LOAD (R365): Binds a model-context slot to a descriptor and resets its flags. -/
  | modelLoad (ring : Nat)
  /-- MODEL_UNLOAD (R366): Tears down a context and frees its slot once its layers are absent. -/
  | modelUnload (ring : Nat)
  /-- MODEL_PRIO (R367): Replaces a context's PRIO, ECLASS and LOOKAHEAD. -/
  | modelPrio (ring : Nat)
  /-- LAYER_PREFETCH (R367): Requests a range of layers at lookahead rank. -/
  | layerPrefetch (ring : Nat)
  /-- FENCE_PACKET (R343): Completes once every earlier packet has completed. -/
  | fencePacket (ring : Nat)
  /-- PEER_ACCESS (R397): An incoming peer access is served within the export table or refused. -/
  | peerAccess (p : PeerReq)
  /-- PORT_DOWN (R389): A port fails and its sprayed packets are retransmitted on others. -/
  | portDown (port : Nat)
  /-- DISPATCH_JOB (R400): A dispatch engine takes a job record from the dispatch queue. -/
  | dispatchJob (mslot : Nat)
  /-- SLOT_REQUEST (R402): A receiver grants a free slot of an expert buffer in arrival order. -/
  | slotRequest (ctx : Nat) (ask : SlotAsk)
  /-- SLOT_GRANT (R402): A grant arrives and the token's payload is sent. -/
  | slotGrant (job ix : Nat)
  /-- EXPERT_PAYLOAD (R402): A payload is written into its slot and a dispatch record appended; ix is the job's copy, or the slot of a peer's payload. -/
  | expertPayload (site : PayloadSite) (ix : Nat)
  /-- RETURN_RECORD (R402): The receiver pops a return record, sends outputs back and frees the slot. -/
  | returnRecord (ctx buf : Nat)
  /-- COMBINE (R403): When all K outputs arrive the token is combined in ascending expert order. -/
  | combine (job token : Nat)
  /-- RESET (R404): The boot ROM verifies and measures firmware images. -/
  | reset (flash : BootFlash)
  /-- RESERVED_OPCODE (R230): A team issues a word whose OP is reserved, or 0xFC to 0xFF in an instruction position, and takes ILLEGAL_OP. -/
  | reservedOpcode (word : Word)
  /-- PORT_TRAINED (R389): A port finishes training and joins the set of ports over which RUD messages are sprayed. -/
  | portTrained (port : Nat)
  /-- TRANSPORT_GIVES_UP (R397): The transport abandons a request after its retries, so a peer access completes as a poisoned line or a HOST_READ piece fails the load with SOURCE_ERROR. -/
  | transportGivesUp (site : LostRequest)
  /-- COMPLETION_RPTR_REREAD (R345): While its completion ring is full, the Sconce rereads RPTR and either resumes writing entries or halts the command ring with PACKET_OVERRUN. -/
  | completionRptrReread (ring : Nat)
  /-- HOME_WRITE_ACKNOWLEDGMENT (R201): A DIRECT, STREAM or peer store's bytes are written at the home slice and the acknowledgment returns to the storing core. -/
  | homeWriteAcknowledgment (core ix : Nat)
  /-- GRANT_CANCEL (R388): A receiver takes a cancel sent at context teardown and frees the expert-buffer slots held for it. -/
  | grantCancel (ctx buf slot : Nat)
  /-- NOP (R239). -/
  | nop
  /-- XFENCE (R210). -/
  | xfence
  /-- RELEASE (R201). -/
  | release
  /-- ACQUIRE (R202). -/
  | acquire
  /-- FENCE (R203). -/
  | fence
  /-- BRA (R316). -/
  | bra
  /-- RET (R319). -/
  | ret
  /-- EXIT (R322). -/
  | exit
  /-- YIELD (R335). -/
  | yield
  /-- TEAM_PLACE (R349): The work distributor places the next team of a launch on a core. -/
  | teamPlace
  /-- COMMAND_APPEND (R392): Appends bytes to a command ring and advances WPTR. -/
  | commandAppend
  /-- MEM_WRITE (R392): Host memory write performed at home before acknowledgment. -/
  | memWrite
  /-- MEM_READ (R392): Host memory read served at home. -/
  | memRead
  /-- ATTEST_CERTIFICATE (R406): ATTEST with LENGTH 0 returns the identity certificate. -/
  | attestCertificate
  /-- ATTEST_REPORT (R407): ATTEST with a nonce returns a signed report. -/
  | attestReport
  /-- HOST_READ (R395): A host's response supplies a piece of a HOST layer. -/
  | hostRead
  /-- RING_CREATE (R393): Creates a command ring with its capabilities. -/
  | ringCreate
  /-- RING_RESUME (R346): Resumes a halted ring at RPTR. -/
  | ringResume
  /-- RING_HALT (R346): Halts a ring with HOST_HALT. -/
  | ringHalt
  /-- POOL_GIVE (R393): Adds frames to the weight or demand pool. -/
  | poolGive
  /-- CTX_BIND (R393): Binds or unbinds a context id and page-table root. -/
  | ctxBind
  /-- PEER_SET (R396): Writes a peer table entry. -/
  | peerSet
  /-- EXPORT_SET (R397): Writes an export range. -/
  | exportSet
  /-- GATE_LOAD (R398): Copies a gate matrix into a gate slot. -/
  | gateLoad
  /-- EXPERT_BUF (R401): Defines a receiver expert buffer. -/
  | expertBuf
  /-- SAVE_TEAM (R360): Requests a save of a named team, optionally held. -/
  | saveTeam
  /-- SLICE_WINDOW (R393): Sets the window size of a run of slices. -/
  | sliceWindow
  /-- RESTORE_TEAM (R360): Lifts the hold of a team saved with HOLD. -/
  | restoreTeam
  /-- INVALIDATE (R393): Broadcasts a translation invalidation. -/
  | invalidate
  /-- DEMAND_SET (R394): Sets or removes a demand range of a context. -/
  | demandSet
  /-- FAULT_REPLY (R394): Answers a FAULT_NOTICE with REPLAY or a fault class. -/
  | faultReply
  /-- VOLTAGE_OUT_OF_WINDOW (R413): Supply voltage leaves its window; default HALT. -/
  | voltageOutOfWindow
  /-- CLOCK_OUT_OF_RANGE (R413): Clock out of range or glitched; default HALT. -/
  | clockOutOfRange
  /-- JUNCTION_105C (R413): Junction reaches 105 °C; default LOG. -/
  | junction105c
  /-- JUNCTION_115C (R413): Junction reaches 115 °C; default HALT. -/
  | junction115c
  /-- TAMPER (R413): Tamper mesh broken or lid opened; default ERASE. -/
  | tamper
  /-- INTEGRITY_FAULT_BURST (R413): More than 16 INTEGRITY faults in one second; default LOG. -/
  | integrityFaultBurst
  /-- KEY_MISUSE (R413): A key-storage read or improper signing request; default ERASE. -/
  | keyMisuse
  /-- POWER_THROTTLE (R415): Over-power or 100 °C lowers the core clock by 250 MHz. -/
  | powerThrottle
  /-- POWER_UNTHROTTLE (R415): Power and temperature below limits raise the core clock by 250 MHz. -/
  | powerUnthrottle
  /-- RESERVED_URFEL_MESSAGE (R391): An Urfel message with a reserved OP or SUB, or a FAULT_NOTICE sent to the Llyn, is answered BAD_MESSAGE with no effect. -/
  | reservedUrfelMessage
  deriving DecidableEq, Repr

end Sys2Proof
end

