-- ==== Sys2Proof/WellFormed.lean ====
section
/-! DEFINITION. Well-formed instructions: every operand field holds a value its kind accepts (R219). This is check 2 of R231 (and check 1 for the
row of the reserved opcodes). The steps of the part that have no instruction word have no operand fields and are well formed. -/

namespace Sys2Proof

/-- DST (R219): a register that can be written, v0 to v191, s0 to s31 or w0 to w3. -/
def Sel.isDst : Sel → Bool
  | .v n => decide (n < 192)
  | .s n => decide (n < 32)
  | .w n => decide (n < 4)
  | .zero => false
  | .laneid => false
  | .spanlane => false
  | .subidx => false
  | .nwide => false
  | .teamid => false
  | .coreid => false
  | .lit => false
  | .rsvd _ => false

/-- SRC (R219): a value that can be read, a register, a special operand or the literal. -/
def Sel.isSrc : Sel → Bool
  | .v n => decide (n < 192)
  | .s n => decide (n < 32)
  | .w n => decide (n < 4)
  | .zero => true
  | .laneid => true
  | .spanlane => true
  | .subidx => true
  | .nwide => true
  | .teamid => true
  | .coreid => true
  | .lit => true
  | .rsvd _ => false

/-- USRC (R219): a uniform value that can be read. -/
def Sel.isUsrc : Sel → Bool
  | .v _ => false
  | .s n => decide (n < 32)
  | .w _ => false
  | .zero => true
  | .laneid => false
  | .spanlane => false
  | .subidx => false
  | .nwide => true
  | .teamid => true
  | .coreid => true
  | .lit => true
  | .rsvd _ => false

/-- USRC without the literal (R314). -/
def Sel.isUsrcNoLit (x : Sel) : Bool := x.isUsrc && decide (x ≠ .lit)

/-- VREG (R219): a vector register named as a place. -/
def Sel.isVreg : Sel → Bool
  | .v n => decide (n < 192)
  | .s _ => false
  | .w _ => false
  | .zero => false
  | .laneid => false
  | .spanlane => false
  | .subidx => false
  | .nwide => false
  | .teamid => false
  | .coreid => false
  | .lit => false
  | .rsvd _ => false

/-- MASK (R219): m0 to m7. -/
def maskField (m : Nat) : Bool := decide (m < 8)

/-- COND (R219): a condition 0 to 12 and a mask. -/
def condField (c m : Nat) : Bool := decide (c ≤ 12) && decide (m < 8)

/-- The opcodes that name no instruction: the 66 reserved cells of the map (R228, R230) and the header values 0xFC to 0xFF (R224). -/
def reservedOp (op : Nat) : Bool :=
  (decide (0x0A ≤ op) && decide (op ≤ 0x0F)) || (decide (0x2D ≤ op) && decide (op ≤ 0x2F)) ||
  (decide (0x46 ≤ op) && decide (op ≤ 0x4F)) || (decide (0x67 ≤ op) && decide (op ≤ 0x6F)) ||
  (decide (0x8D ≤ op) && decide (op ≤ 0x8F)) || (decide (0x9C ≤ op) && decide (op ≤ 0x9F)) ||
  (decide (0xAC ≤ op) && decide (op ≤ 0xAF)) || (decide (0xBE ≤ op) && decide (op ≤ 0xBF)) ||
  (decide (0xC9 ≤ op) && decide (op ≤ 0xCF)) || (decide (0xD6 ≤ op) && decide (op ≤ 0xDF)) ||
  (decide (0xEC ≤ op) && decide (op ≤ 0xEF)) || (decide (0xF9 ≤ op) && decide (op ≤ 0xFF))

/-- Every field of the instruction is of the kind its entry gives it. -/
def Instr.wellFormed : Instr → Bool
  | .nop => true
  | .mov d a => d.isDst && a.isSrc
  | .mov2 d a => d.isDst && a.isSrc
  | .mov4 d a => d.isDst && a.isSrc
  | .sel d a b => d.isDst && a.isSrc && b.isSrc
  | .setmode a => a.isUsrc
  | .getmode d => d.isDst
  | .rdsr d a => d.isDst && a.isUsrc
  | .unif d a => d.isDst && a.isSrc
  | .wrsr a b => a.isUsrc && b.isUsrc
  | .add d a b => d.isDst && a.isSrc && b.isSrc
  | .sub d a b => d.isDst && a.isSrc && b.isSrc
  | .mul d a b => d.isDst && a.isSrc && b.isSrc
  | .mulhi d a b => d.isDst && a.isSrc && b.isSrc
  | .mad d a b => d.isDst && a.isSrc && b.isSrc
  | .abs d a => d.isDst && a.isSrc
  | .neg d a => d.isDst && a.isSrc
  | .min d a b => d.isDst && a.isSrc && b.isSrc
  | .max d a b => d.isDst && a.isSrc && b.isSrc
  | .div d a b => d.isDst && a.isSrc && b.isSrc
  | .rem d a b => d.isDst && a.isSrc && b.isSrc
  | .shl d a b => d.isDst && a.isSrc && b.isSrc
  | .shr d a b => d.isDst && a.isSrc && b.isSrc
  | .rot d a b => d.isDst && a.isSrc && b.isSrc
  | .and d a b => d.isDst && a.isSrc && b.isSrc
  | .or d a b => d.isDst && a.isSrc && b.isSrc
  | .xor d a b => d.isDst && a.isSrc && b.isSrc
  | .not d a => d.isDst && a.isSrc
  | .andn d a b => d.isDst && a.isSrc && b.isSrc
  | .popc d a => d.isDst && a.isSrc
  | .clz d a => d.isDst && a.isSrc
  | .ctz d a => d.isDst && a.isSrc
  | .brev d a => d.isDst && a.isSrc
  | .bfe d a b => d.isDst && a.isSrc && b.isSrc
  | .bfi d a b => d.isDst && a.isSrc && b.isSrc
  | .cmp c m a b => condField c m && a.isSrc && b.isSrc
  | .lea0 d a b => d.isDst && a.isSrc && b.isSrc
  | .lea2 d a b => d.isDst && a.isSrc && b.isSrc
  | .lea3 d a b => d.isDst && a.isSrc && b.isSrc
  | .fadd d a b => d.isDst && a.isSrc && b.isSrc
  | .fsub d a b => d.isDst && a.isSrc && b.isSrc
  | .fmul d a b => d.isDst && a.isSrc && b.isSrc
  | .fma d a b => d.isDst && a.isSrc && b.isSrc
  | .fnma d a b => d.isDst && a.isSrc && b.isSrc
  | .fmin d a b => d.isDst && a.isSrc && b.isSrc
  | .fmax d a b => d.isDst && a.isSrc && b.isSrc
  | .fabs d a => d.isDst && a.isSrc
  | .fneg d a => d.isDst && a.isSrc
  | .frint d a => d.isDst && a.isSrc
  | .fldexp d a b => d.isDst && a.isSrc && b.isSrc
  | .fclass d a => d.isDst && a.isSrc
  | .fdiv d a b => d.isDst && a.isSrc && b.isSrc
  | .fsqrt d a => d.isDst && a.isSrc
  | .frcp d a => d.isDst && a.isSrc
  | .frsq d a => d.isDst && a.isSrc
  | .fexp2 d a => d.isDst && a.isSrc
  | .flog2 d a => d.isDst && a.isSrc
  | .fsin d a => d.isDst && a.isSrc
  | .fcos d a => d.isDst && a.isSrc
  | .ftanh d a => d.isDst && a.isSrc
  | .fdot2 d a b => d.isDst && a.isSrc && b.isSrc
  | .cvti d a => d.isDst && a.isSrc
  | .cvtn d a => d.isDst && a.isSrc
  | .cvtl d a => d.isDst && a.isSrc
  | .cvtf d a => d.isDst && a.isSrc
  | .cvtd d a => d.isDst && a.isSrc
  | .cvtb d a => d.isDst && a.isSrc
  | .cvth d a => d.isDst && a.isSrc
  | .pack2 d a b => d.isDst && a.isSrc && b.isSrc
  | .rsadd d a b => d.isDst && a.isSrc && b.isSrc
  | .rssub d a b => d.isDst && a.isSrc && b.isSrc
  | .rsmul d a b => d.isDst && a.isSrc && b.isSrc
  | .rsdiv d a b => d.isDst && a.isSrc && b.isSrc
  | .rsneg d a => d.isDst && a.isSrc
  | .rsrcp d a => d.isDst && a.isSrc
  | .rssqr d a => d.isDst && a.isSrc
  | .rsunion d a b => d.isDst && a.isSrc && b.isSrc
  | .rsisect d a b => d.isDst && a.isSrc && b.isSrc
  | .rshull d a => d.isDst && a.isSrc
  | .rslo d a => d.isDst && a.isSrc
  | .rshi d a => d.isDst && a.isSrc
  | .rsconv d a b => d.isDst && a.isSrc && b.isUsrc
  | .ringld a b => a.isUsrc && b.isUsrc
  | .ringq d a => d.isDst && a.isSrc
  | .shfl d a b => d.isDst && a.isSrc && b.isSrc
  | .shflx d a b => d.isDst && a.isSrc && b.isSrc
  | .shflup d a b => d.isDst && a.isSrc && b.isSrc
  | .shfldn d a b => d.isDst && a.isSrc && b.isSrc
  | .voteany d a => d.isDst && a.isSrc
  | .voteall d a => d.isDst && a.isSrc
  | .ballot d a => d.isDst && a.isSrc
  | .redadd d a => d.isDst && a.isSrc
  | .redmin d a => d.isDst && a.isSrc
  | .redmax d a => d.isDst && a.isSrc
  | .redor d a => d.isDst && a.isSrc
  | .redun d a => d.isDst && a.isSrc
  | .scanadd d a => d.isDst && a.isSrc
  | .confd d a => d.isDst && a.isSrc
  | .xfence => true
  | .keyadd d a b => d.isDst && a.isSrc && b.isSrc
  | .mand d a b => maskField d && maskField a && maskField b
  | .mor d a b => maskField d && maskField a && maskField b
  | .mxor d a b => maskField d && maskField a && maskField b
  | .mnot d a => maskField d && maskField a
  | .mandn d a b => maskField d && maskField a && maskField b
  | .mmov d a => maskField d && maskField a
  | .mpopc d a => d.isDst && maskField a
  | .mfirst d a => d.isDst && maskField a
  | .mget d a b => d.isDst && maskField a && b.isUsrc
  | .mset d a b => maskField d && a.isUsrc && b.isUsrc
  | .msave d a => maskField d && a.isUsrc
  | .mload d a => maskField d && a.isUsrc
  | .mall d => maskField d
  | .ld d a b => d.isDst && a.isSrc && b.isSrc
  | .ldb d a b => d.isDst && a.isSrc && b.isSrc
  | .ldh d a b => d.isDst && a.isSrc && b.isSrc
  | .st d a b => d.isSrc && a.isSrc && b.isSrc
  | .stb d a b => d.isSrc && a.isSrc && b.isSrc
  | .sth d a b => d.isSrc && a.isSrc && b.isSrc
  | .ldw d a b => d.isDst && a.isSrc && b.isSrc
  | .stw d a b => d.isSrc && a.isSrc && b.isSrc
  | .sld d a b => d.isDst && a.isSrc && b.isSrc
  | .sst d a b => d.isSrc && a.isSrc && b.isSrc
  | .pref a b => a.isSrc && b.isSrc
  | .reshint a b => a.isSrc && b.isSrc
  | .aadd d a b => d.isDst && a.isSrc && b.isSrc
  | .amin d a b => d.isDst && a.isSrc && b.isSrc
  | .amax d a b => d.isDst && a.isSrc && b.isSrc
  | .aand d a b => d.isDst && a.isSrc && b.isSrc
  | .aor d a b => d.isDst && a.isSrc && b.isSrc
  | .axor d a b => d.isDst && a.isSrc && b.isSrc
  | .axchg d a b => d.isDst && a.isSrc && b.isSrc
  | .acas d a b => d.isDst && a.isSrc && b.isSrc
  | .acasw d a b => d.isDst && a.isSrc && b.isSrc
  | .afadd d a b => d.isDst && a.isSrc && b.isSrc
  | .afmin d a b => d.isDst && a.isSrc && b.isSrc
  | .afmax d a b => d.isDst && a.isSrc && b.isSrc
  | .stadd d a b => d.isSrc && a.isSrc && b.isSrc
  | .stmin d a b => d.isSrc && a.isSrc && b.isSrc
  | .stmax d a b => d.isSrc && a.isSrc && b.isSrc
  | .stand d a b => d.isSrc && a.isSrc && b.isSrc
  | .stor d a b => d.isSrc && a.isSrc && b.isSrc
  | .stxor d a b => d.isSrc && a.isSrc && b.isSrc
  | .stfadd d a b => d.isSrc && a.isSrc && b.isSrc
  | .stfmin d a b => d.isSrc && a.isSrc && b.isSrc
  | .stfmax d a b => d.isSrc && a.isSrc && b.isSrc
  | .qlock d a => d.isDst && a.isUsrc
  | .qunlock a => a.isUsrc
  | .release => true
  | .acquire => true
  | .fence => true
  | .fetch d a b => d.isDst && a.isUsrc && b.isSrc
  | .fetch2 d a b => d.isDst && a.isUsrc && b.isSrc
  | .hbind a b => a.isUsrc && b.isUsrc
  | .card d a => d.isDst && a.isUsrc
  | .cwait a => a.isUsrc
  | .cpoll d a => d.isDst && a.isUsrc
  | .isect d a b => d.isDst && a.isSrc && b.isSrc
  | .merge d a b => d.isDst && a.isSrc && b.isSrc
  | .mpsplit d a b => d.isDst && a.isSrc && b.isSrc
  | .mloop a => a.isUsrc
  | .mbatch d => d.isDst
  | .mwait a => a.isUsrc
  | .mdrain a => a.isUsrc
  | .mquant a => a.isUsrc
  | .mzero a b => a.isUsrc && b.isUsrc
  | .bra => true
  | .brc a => maskField a
  | .bru a => a.isUsrcNoLit
  | .call d a => d.isVreg && a.isVreg
  | .calli d a b => d.isVreg && a.isVreg && b.isVreg
  | .ret => true
  | .arg d a b => d.isDst && a.isSrc && b.isSrc
  | .gret d a b => d.isSrc && a.isSrc && b.isSrc
  | .exit => true
  | .join a => a.isUsrc
  | .leave a => a.isUsrc
  | .bar a => a.isUsrc
  | .qpop d a => d.isDst && a.isUsrc
  | .qpush d a b => d.isDst && a.isUsrc && b.isUsrc
  | .lwait a => a.isUsrc
  | .ldone a => a.isUsrc
  | .lstat d a => d.isDst && a.isUsrc
  | .trap a => a.isUsrcNoLit
  | .eret a => a.isUsrcNoLit
  | .bkpt a => a.isUsrcNoLit
  | .yield => true
  | .clauseStart _ => true
  | .scoreHalving _ => true
  | .lateResult _ _ => true
  | .ringTableBuilt _ _ => true
  | .registration _ _ => true
  | .registrationAck _ _ => true
  | .recallWord _ => true
  | .l1Eviction _ _ => true
  | .atomicBatch _ _ => true
  | .unitRecordFreed _ => true
  | .faultResolution _ _ => true
  | .faultRecordConsume _ _ => true
  | .tinvalWrite _ => true
  | .invalidationComplete _ => true
  | .waypartRaise _ _ => true
  | .waypartLower _ _ => true
  | .waypartChangeComplete _ => true
  | .cardStart _ => true
  | .cardComplete _ => true
  | .mloopStart _ => true
  | .mloopFlush _ => true
  | .layerLoadStart _ => true
  | .layerArrived _ _ => true
  | .layerLoadFailed _ _ _ => true
  | .layerEvicted _ _ => true
  | .teamPlace => true
  | .teamRetire _ => true
  | .teamHalt _ => true
  | .teamSave _ => true
  | .teamRestore _ => true
  | .trapEntry _ => true
  | .softError _ => true
  | .notifyRecord _ => true
  | .launch _ => true
  | .feed _ => true
  | .cardPacket _ => true
  | .signal _ => true
  | .wait _ => true
  | .waitSatisfied _ => true
  | .modelLoad _ => true
  | .modelUnload _ => true
  | .modelPrio _ => true
  | .layerPrefetch _ => true
  | .fencePacket _ => true
  | .commandAppend => true
  | .memWrite => true
  | .memRead => true
  | .attestCertificate => true
  | .attestReport => true
  | .hostRead => true
  | .ringCreate => true
  | .ringResume => true
  | .ringHalt => true
  | .poolGive => true
  | .ctxBind => true
  | .peerSet => true
  | .exportSet => true
  | .gateLoad => true
  | .expertBuf => true
  | .saveTeam => true
  | .sliceWindow => true
  | .restoreTeam => true
  | .invalidate => true
  | .demandSet => true
  | .faultReply => true
  | .peerAccess _ => true
  | .portDown _ => true
  | .dispatchJob _ => true
  | .slotRequest _ _ => true
  | .slotGrant _ _ => true
  | .expertPayload _ _ => true
  | .returnRecord _ _ => true
  | .combine _ _ => true
  | .reset _ => true
  | .voltageOutOfWindow => true
  | .clockOutOfRange => true
  | .junction105c => true
  | .junction115c => true
  | .tamper => true
  | .integrityFaultBurst => true
  | .keyMisuse => true
  | .powerThrottle => true
  | .powerUnthrottle => true
  | .reservedOpcode word => reservedOp (word.toNat / 2 ^ 24)
  | .reservedUrfelMessage => true
  | .portTrained _ => true
  | .transportGivesUp _ => true
  | .completionRptrReread _ => true
  | .homeWriteAcknowledgment _ _ => true
  | .grantCancel _ _ _ => true

/-- True of the 187 instructions that have a word of their own, and of the words of the reserved opcodes, which a team can issue (R230). -/
def Instr.isWord : Instr → Bool
  | .nop => true
  | .mov _ _ => true
  | .mov2 _ _ => true
  | .mov4 _ _ => true
  | .sel _ _ _ => true
  | .setmode _ => true
  | .getmode _ => true
  | .rdsr _ _ => true
  | .unif _ _ => true
  | .wrsr _ _ => true
  | .add _ _ _ => true
  | .sub _ _ _ => true
  | .mul _ _ _ => true
  | .mulhi _ _ _ => true
  | .mad _ _ _ => true
  | .abs _ _ => true
  | .neg _ _ => true
  | .min _ _ _ => true
  | .max _ _ _ => true
  | .div _ _ _ => true
  | .rem _ _ _ => true
  | .shl _ _ _ => true
  | .shr _ _ _ => true
  | .rot _ _ _ => true
  | .and _ _ _ => true
  | .or _ _ _ => true
  | .xor _ _ _ => true
  | .not _ _ => true
  | .andn _ _ _ => true
  | .popc _ _ => true
  | .clz _ _ => true
  | .ctz _ _ => true
  | .brev _ _ => true
  | .bfe _ _ _ => true
  | .bfi _ _ _ => true
  | .cmp _ _ _ _ => true
  | .lea0 _ _ _ => true
  | .lea2 _ _ _ => true
  | .lea3 _ _ _ => true
  | .fadd _ _ _ => true
  | .fsub _ _ _ => true
  | .fmul _ _ _ => true
  | .fma _ _ _ => true
  | .fnma _ _ _ => true
  | .fmin _ _ _ => true
  | .fmax _ _ _ => true
  | .fabs _ _ => true
  | .fneg _ _ => true
  | .frint _ _ => true
  | .fldexp _ _ _ => true
  | .fclass _ _ => true
  | .fdiv _ _ _ => true
  | .fsqrt _ _ => true
  | .frcp _ _ => true
  | .frsq _ _ => true
  | .fexp2 _ _ => true
  | .flog2 _ _ => true
  | .fsin _ _ => true
  | .fcos _ _ => true
  | .ftanh _ _ => true
  | .fdot2 _ _ _ => true
  | .cvti _ _ => true
  | .cvtn _ _ => true
  | .cvtl _ _ => true
  | .cvtf _ _ => true
  | .cvtd _ _ => true
  | .cvtb _ _ => true
  | .cvth _ _ => true
  | .pack2 _ _ _ => true
  | .rsadd _ _ _ => true
  | .rssub _ _ _ => true
  | .rsmul _ _ _ => true
  | .rsdiv _ _ _ => true
  | .rsneg _ _ => true
  | .rsrcp _ _ => true
  | .rssqr _ _ => true
  | .rsunion _ _ _ => true
  | .rsisect _ _ _ => true
  | .rshull _ _ => true
  | .rslo _ _ => true
  | .rshi _ _ => true
  | .rsconv _ _ _ => true
  | .ringld _ _ => true
  | .ringq _ _ => true
  | .shfl _ _ _ => true
  | .shflx _ _ _ => true
  | .shflup _ _ _ => true
  | .shfldn _ _ _ => true
  | .voteany _ _ => true
  | .voteall _ _ => true
  | .ballot _ _ => true
  | .redadd _ _ => true
  | .redmin _ _ => true
  | .redmax _ _ => true
  | .redor _ _ => true
  | .redun _ _ => true
  | .scanadd _ _ => true
  | .confd _ _ => true
  | .xfence => true
  | .keyadd _ _ _ => true
  | .mand _ _ _ => true
  | .mor _ _ _ => true
  | .mxor _ _ _ => true
  | .mnot _ _ => true
  | .mandn _ _ _ => true
  | .mmov _ _ => true
  | .mpopc _ _ => true
  | .mfirst _ _ => true
  | .mget _ _ _ => true
  | .mset _ _ _ => true
  | .msave _ _ => true
  | .mload _ _ => true
  | .mall _ => true
  | .ld _ _ _ => true
  | .ldb _ _ _ => true
  | .ldh _ _ _ => true
  | .st _ _ _ => true
  | .stb _ _ _ => true
  | .sth _ _ _ => true
  | .ldw _ _ _ => true
  | .stw _ _ _ => true
  | .sld _ _ _ => true
  | .sst _ _ _ => true
  | .pref _ _ => true
  | .reshint _ _ => true
  | .aadd _ _ _ => true
  | .amin _ _ _ => true
  | .amax _ _ _ => true
  | .aand _ _ _ => true
  | .aor _ _ _ => true
  | .axor _ _ _ => true
  | .axchg _ _ _ => true
  | .acas _ _ _ => true
  | .acasw _ _ _ => true
  | .afadd _ _ _ => true
  | .afmin _ _ _ => true
  | .afmax _ _ _ => true
  | .stadd _ _ _ => true
  | .stmin _ _ _ => true
  | .stmax _ _ _ => true
  | .stand _ _ _ => true
  | .stor _ _ _ => true
  | .stxor _ _ _ => true
  | .stfadd _ _ _ => true
  | .stfmin _ _ _ => true
  | .stfmax _ _ _ => true
  | .qlock _ _ => true
  | .qunlock _ => true
  | .release => true
  | .acquire => true
  | .fence => true
  | .fetch _ _ _ => true
  | .fetch2 _ _ _ => true
  | .hbind _ _ => true
  | .card _ _ => true
  | .cwait _ => true
  | .cpoll _ _ => true
  | .isect _ _ _ => true
  | .merge _ _ _ => true
  | .mpsplit _ _ _ => true
  | .mloop _ => true
  | .mbatch _ => true
  | .mwait _ => true
  | .mdrain _ => true
  | .mquant _ => true
  | .mzero _ _ => true
  | .bra => true
  | .brc _ => true
  | .bru _ => true
  | .call _ _ => true
  | .calli _ _ _ => true
  | .ret => true
  | .arg _ _ _ => true
  | .gret _ _ _ => true
  | .exit => true
  | .join _ => true
  | .leave _ => true
  | .bar _ => true
  | .qpop _ _ => true
  | .qpush _ _ _ => true
  | .lwait _ => true
  | .ldone _ => true
  | .lstat _ _ => true
  | .trap _ => true
  | .eret _ => true
  | .bkpt _ => true
  | .yield => true
  | .clauseStart _ => false
  | .scoreHalving _ => false
  | .lateResult _ _ => false
  | .ringTableBuilt _ _ => false
  | .registration _ _ => false
  | .registrationAck _ _ => false
  | .recallWord _ => false
  | .l1Eviction _ _ => false
  | .atomicBatch _ _ => false
  | .unitRecordFreed _ => false
  | .faultResolution _ _ => false
  | .faultRecordConsume _ _ => false
  | .tinvalWrite _ => false
  | .invalidationComplete _ => false
  | .waypartRaise _ _ => false
  | .waypartLower _ _ => false
  | .waypartChangeComplete _ => false
  | .cardStart _ => false
  | .cardComplete _ => false
  | .mloopStart _ => false
  | .mloopFlush _ => false
  | .layerLoadStart _ => false
  | .layerArrived _ _ => false
  | .layerLoadFailed _ _ _ => false
  | .layerEvicted _ _ => false
  | .teamPlace => false
  | .teamRetire _ => false
  | .teamHalt _ => false
  | .teamSave _ => false
  | .teamRestore _ => false
  | .trapEntry _ => false
  | .softError _ => false
  | .notifyRecord _ => false
  | .launch _ => false
  | .feed _ => false
  | .cardPacket _ => false
  | .signal _ => false
  | .wait _ => false
  | .waitSatisfied _ => false
  | .modelLoad _ => false
  | .modelUnload _ => false
  | .modelPrio _ => false
  | .layerPrefetch _ => false
  | .fencePacket _ => false
  | .commandAppend => false
  | .memWrite => false
  | .memRead => false
  | .attestCertificate => false
  | .attestReport => false
  | .hostRead => false
  | .ringCreate => false
  | .ringResume => false
  | .ringHalt => false
  | .poolGive => false
  | .ctxBind => false
  | .peerSet => false
  | .exportSet => false
  | .gateLoad => false
  | .expertBuf => false
  | .saveTeam => false
  | .sliceWindow => false
  | .restoreTeam => false
  | .invalidate => false
  | .demandSet => false
  | .faultReply => false
  | .peerAccess _ => false
  | .portDown _ => false
  | .dispatchJob _ => false
  | .slotRequest _ _ => false
  | .slotGrant _ _ => false
  | .expertPayload _ _ => false
  | .returnRecord _ _ => false
  | .combine _ _ => false
  | .reset _ => false
  | .voltageOutOfWindow => false
  | .clockOutOfRange => false
  | .junction105c => false
  | .junction115c => false
  | .tamper => false
  | .integrityFaultBurst => false
  | .keyMisuse => false
  | .powerThrottle => false
  | .powerUnthrottle => false
  | .reservedOpcode _ => true
  | .reservedUrfelMessage => false
  | .portTrained _ => false
  | .transportGivesUp _ => false
  | .completionRptrReread _ => false
  | .homeWriteAcknowledgment _ _ => false
  | .grantCancel _ _ _ => false

end Sys2Proof
end

