-- ==== Sys2Proof/Decode.lean ====
section
/-! DEFINITION. The decoder of instruction words (R217 to R221, R228) and the encoder, both read from the encoding tables of the spec. The decoder is
total: a word of a reserved opcode decodes to reservedOpcode, and a word whose unused field is nonzero or whose LIT field is not 0xF0 is rejected
by name. A word takes its literal from the clause (R221), so an instruction is one word. -/

namespace Sys2Proof

/-- Why a word is no instruction (check 2 of R231). -/
inductive DecodeError where
  /-- a field that the entry leaves unused is not 0x00 (R219) -/
  | unusedFieldNonzero
  /-- a LIT field is not 0xF0 (R219) -/
  | litFieldMissing
  deriving DecidableEq, Repr

/-- A register or value selector (R218). -/
def Sel.ofField (x : Nat) : Sel :=
  if x < 0xC0 then .v x else if x < 0xE0 then .s (x - 0xC0) else if x < 0xE4 then .w (x - 0xE0)
  else if x = 0xE4 then .zero else if x = 0xE5 then .laneid else if x = 0xE6 then .spanlane
  else if x = 0xE7 then .subidx else if x = 0xE8 then .nwide else if x = 0xE9 then .teamid
  else if x = 0xEA then .coreid else if x = 0xF0 then .lit else .rsvd x

/-- The field value of a selector (R218). -/
def Sel.toField : Sel → Nat
  | .v n => n
  | .s n => 0xC0 + n
  | .w n => 0xE0 + n
  | .zero => 0xE4
  | .laneid => 0xE5
  | .spanlane => 0xE6
  | .subidx => 0xE7
  | .nwide => 0xE8
  | .teamid => 0xE9
  | .coreid => 0xEA
  | .lit => 0xF0
  | .rsvd x => x

/-- The OP field, bits 31:24 (R217). -/
def opField (w : Word) : Nat := w.toNat / 2 ^ 24
/-- The D field, bits 23:16. -/
def dField (w : Word) : Nat := w.toNat / 2 ^ 16 % 256
/-- The A field, bits 15:8. -/
def aField (w : Word) : Nat := w.toNat / 2 ^ 8 % 256
/-- The B field, bits 7:0. -/
def bField (w : Word) : Nat := w.toNat % 256

/-- An instruction whose entry leaves the field x unused. -/
def unused1 (x : Nat) (i : Instr) : Except DecodeError Instr := if x = 0 then .ok i else .error .unusedFieldNonzero
/-- An instruction that leaves two fields unused. -/
def unused2 (x y : Nat) (i : Instr) : Except DecodeError Instr := if x = 0 ∧ y = 0 then .ok i else .error .unusedFieldNonzero
/-- An instruction that leaves all three fields unused. -/
def unused3 (x y z : Nat) (i : Instr) : Except DecodeError Instr :=
  if x = 0 ∧ y = 0 ∧ z = 0 then .ok i else .error .unusedFieldNonzero
/-- An instruction that carries a literal of its own in the field x. -/
def litIn (x : Nat) (r : Except DecodeError Instr) : Except DecodeError Instr := if x = 0xF0 then r else .error .litFieldMissing

/-- Opcodes 0x00 to 0x0F (R228). -/
def decodeRow0 (lo d a b : Nat) (w : Word) : Except DecodeError Instr :=
  match lo with
  | 0 => unused3 d a b .nop
  | 1 => unused1 b (.mov (.ofField d) (.ofField a))
  | 2 => unused1 b (.mov2 (.ofField d) (.ofField a))
  | 3 => unused1 b (.mov4 (.ofField d) (.ofField a))
  | 4 => .ok (.sel (.ofField d) (.ofField a) (.ofField b))
  | 5 => unused2 d b (.setmode (.ofField a))
  | 6 => unused2 a b (.getmode (.ofField d))
  | 7 => unused1 b (.rdsr (.ofField d) (.ofField a))
  | 8 => unused1 b (.unif (.ofField d) (.ofField a))
  | 9 => unused1 d (.wrsr (.ofField a) (.ofField b))
  | _ => .ok (.reservedOpcode w)

/-- Opcodes 0x10 to 0x1F (R228). -/
def decodeRow1 (lo d a b : Nat) (_w : Word) : Except DecodeError Instr :=
  match lo with
  | 0 => .ok (.add (.ofField d) (.ofField a) (.ofField b))
  | 1 => .ok (.sub (.ofField d) (.ofField a) (.ofField b))
  | 2 => .ok (.mul (.ofField d) (.ofField a) (.ofField b))
  | 3 => .ok (.mulhi (.ofField d) (.ofField a) (.ofField b))
  | 4 => .ok (.mad (.ofField d) (.ofField a) (.ofField b))
  | 5 => unused1 b (.abs (.ofField d) (.ofField a))
  | 6 => unused1 b (.neg (.ofField d) (.ofField a))
  | 7 => .ok (.min (.ofField d) (.ofField a) (.ofField b))
  | 8 => .ok (.max (.ofField d) (.ofField a) (.ofField b))
  | 9 => .ok (.div (.ofField d) (.ofField a) (.ofField b))
  | 10 => .ok (.rem (.ofField d) (.ofField a) (.ofField b))
  | 11 => .ok (.shl (.ofField d) (.ofField a) (.ofField b))
  | 12 => .ok (.shr (.ofField d) (.ofField a) (.ofField b))
  | 13 => .ok (.rot (.ofField d) (.ofField a) (.ofField b))
  | 14 => .ok (.and (.ofField d) (.ofField a) (.ofField b))
  | _ => .ok (.or (.ofField d) (.ofField a) (.ofField b))

/-- Opcodes 0x20 to 0x2F (R228). -/
def decodeRow2 (lo d a b : Nat) (w : Word) : Except DecodeError Instr :=
  match lo with
  | 0 => .ok (.xor (.ofField d) (.ofField a) (.ofField b))
  | 1 => unused1 b (.not (.ofField d) (.ofField a))
  | 2 => .ok (.andn (.ofField d) (.ofField a) (.ofField b))
  | 3 => unused1 b (.popc (.ofField d) (.ofField a))
  | 4 => unused1 b (.clz (.ofField d) (.ofField a))
  | 5 => unused1 b (.ctz (.ofField d) (.ofField a))
  | 6 => unused1 b (.brev (.ofField d) (.ofField a))
  | 7 => .ok (.bfe (.ofField d) (.ofField a) (.ofField b))
  | 8 => .ok (.bfi (.ofField d) (.ofField a) (.ofField b))
  | 9 => .ok (.cmp (d / 8) (d % 8) (.ofField a) (.ofField b))
  | 10 => .ok (.lea0 (.ofField d) (.ofField a) (.ofField b))
  | 11 => .ok (.lea2 (.ofField d) (.ofField a) (.ofField b))
  | 12 => .ok (.lea3 (.ofField d) (.ofField a) (.ofField b))
  | _ => .ok (.reservedOpcode w)

/-- Opcodes 0x30 to 0x3F (R228). -/
def decodeRow3 (lo d a b : Nat) (_w : Word) : Except DecodeError Instr :=
  match lo with
  | 0 => .ok (.fadd (.ofField d) (.ofField a) (.ofField b))
  | 1 => .ok (.fsub (.ofField d) (.ofField a) (.ofField b))
  | 2 => .ok (.fmul (.ofField d) (.ofField a) (.ofField b))
  | 3 => .ok (.fma (.ofField d) (.ofField a) (.ofField b))
  | 4 => .ok (.fnma (.ofField d) (.ofField a) (.ofField b))
  | 5 => .ok (.fmin (.ofField d) (.ofField a) (.ofField b))
  | 6 => .ok (.fmax (.ofField d) (.ofField a) (.ofField b))
  | 7 => unused1 b (.fabs (.ofField d) (.ofField a))
  | 8 => unused1 b (.fneg (.ofField d) (.ofField a))
  | 9 => unused1 b (.frint (.ofField d) (.ofField a))
  | 10 => .ok (.fldexp (.ofField d) (.ofField a) (.ofField b))
  | 11 => unused1 b (.fclass (.ofField d) (.ofField a))
  | 12 => .ok (.fdiv (.ofField d) (.ofField a) (.ofField b))
  | 13 => unused1 b (.fsqrt (.ofField d) (.ofField a))
  | 14 => unused1 b (.frcp (.ofField d) (.ofField a))
  | _ => unused1 b (.frsq (.ofField d) (.ofField a))

/-- Opcodes 0x40 to 0x4F (R228). -/
def decodeRow4 (lo d a b : Nat) (w : Word) : Except DecodeError Instr :=
  match lo with
  | 0 => unused1 b (.fexp2 (.ofField d) (.ofField a))
  | 1 => unused1 b (.flog2 (.ofField d) (.ofField a))
  | 2 => unused1 b (.fsin (.ofField d) (.ofField a))
  | 3 => unused1 b (.fcos (.ofField d) (.ofField a))
  | 4 => unused1 b (.ftanh (.ofField d) (.ofField a))
  | 5 => .ok (.fdot2 (.ofField d) (.ofField a) (.ofField b))
  | _ => .ok (.reservedOpcode w)

/-- Opcodes 0x50 to 0x5F (R228). -/
def decodeRow5 (lo d a b : Nat) (_w : Word) : Except DecodeError Instr :=
  match lo with
  | 0 => unused1 b (.cvti (.ofField d) (.ofField a))
  | 1 => unused1 b (.cvtn (.ofField d) (.ofField a))
  | 2 => unused1 b (.cvtl (.ofField d) (.ofField a))
  | 3 => unused1 b (.cvtf (.ofField d) (.ofField a))
  | 4 => unused1 b (.cvtd (.ofField d) (.ofField a))
  | 5 => unused1 b (.cvtb (.ofField d) (.ofField a))
  | 6 => unused1 b (.cvth (.ofField d) (.ofField a))
  | 7 => .ok (.pack2 (.ofField d) (.ofField a) (.ofField b))
  | 8 => .ok (.rsadd (.ofField d) (.ofField a) (.ofField b))
  | 9 => .ok (.rssub (.ofField d) (.ofField a) (.ofField b))
  | 10 => .ok (.rsmul (.ofField d) (.ofField a) (.ofField b))
  | 11 => .ok (.rsdiv (.ofField d) (.ofField a) (.ofField b))
  | 12 => unused1 b (.rsneg (.ofField d) (.ofField a))
  | 13 => unused1 b (.rsrcp (.ofField d) (.ofField a))
  | 14 => unused1 b (.rssqr (.ofField d) (.ofField a))
  | _ => .ok (.rsunion (.ofField d) (.ofField a) (.ofField b))

/-- Opcodes 0x60 to 0x6F (R228). -/
def decodeRow6 (lo d a b : Nat) (w : Word) : Except DecodeError Instr :=
  match lo with
  | 0 => .ok (.rsisect (.ofField d) (.ofField a) (.ofField b))
  | 1 => unused1 b (.rshull (.ofField d) (.ofField a))
  | 2 => unused1 b (.rslo (.ofField d) (.ofField a))
  | 3 => unused1 b (.rshi (.ofField d) (.ofField a))
  | 4 => .ok (.rsconv (.ofField d) (.ofField a) (.ofField b))
  | 5 => unused1 d (.ringld (.ofField a) (.ofField b))
  | 6 => unused1 b (.ringq (.ofField d) (.ofField a))
  | _ => .ok (.reservedOpcode w)

/-- Opcodes 0x70 to 0x7F (R228). -/
def decodeRow7 (lo d a b : Nat) (_w : Word) : Except DecodeError Instr :=
  match lo with
  | 0 => .ok (.shfl (.ofField d) (.ofField a) (.ofField b))
  | 1 => .ok (.shflx (.ofField d) (.ofField a) (.ofField b))
  | 2 => .ok (.shflup (.ofField d) (.ofField a) (.ofField b))
  | 3 => .ok (.shfldn (.ofField d) (.ofField a) (.ofField b))
  | 4 => unused1 b (.voteany (.ofField d) (.ofField a))
  | 5 => unused1 b (.voteall (.ofField d) (.ofField a))
  | 6 => unused1 b (.ballot (.ofField d) (.ofField a))
  | 7 => unused1 b (.redadd (.ofField d) (.ofField a))
  | 8 => unused1 b (.redmin (.ofField d) (.ofField a))
  | 9 => unused1 b (.redmax (.ofField d) (.ofField a))
  | 10 => unused1 b (.redor (.ofField d) (.ofField a))
  | 11 => unused1 b (.redun (.ofField d) (.ofField a))
  | 12 => unused1 b (.scanadd (.ofField d) (.ofField a))
  | 13 => unused1 b (.confd (.ofField d) (.ofField a))
  | 14 => unused3 d a b .xfence
  | _ => .ok (.keyadd (.ofField d) (.ofField a) (.ofField b))

/-- Opcodes 0x80 to 0x8F (R228). -/
def decodeRow8 (lo d a b : Nat) (w : Word) : Except DecodeError Instr :=
  match lo with
  | 0 => .ok (.mand d a b)
  | 1 => .ok (.mor d a b)
  | 2 => .ok (.mxor d a b)
  | 3 => unused1 b (.mnot d a)
  | 4 => .ok (.mandn d a b)
  | 5 => unused1 b (.mmov d a)
  | 6 => unused1 b (.mpopc (.ofField d) a)
  | 7 => unused1 b (.mfirst (.ofField d) a)
  | 8 => .ok (.mget (.ofField d) a (.ofField b))
  | 9 => .ok (.mset d (.ofField a) (.ofField b))
  | 10 => unused1 b (.msave d (.ofField a))
  | 11 => unused1 b (.mload d (.ofField a))
  | 12 => unused2 a b (.mall d)
  | _ => .ok (.reservedOpcode w)

/-- Opcodes 0x90 to 0x9F (R228). -/
def decodeRow9 (lo d a b : Nat) (w : Word) : Except DecodeError Instr :=
  match lo with
  | 0 => .ok (.ld (.ofField d) (.ofField a) (.ofField b))
  | 1 => .ok (.ldb (.ofField d) (.ofField a) (.ofField b))
  | 2 => .ok (.ldh (.ofField d) (.ofField a) (.ofField b))
  | 3 => .ok (.st (.ofField d) (.ofField a) (.ofField b))
  | 4 => .ok (.stb (.ofField d) (.ofField a) (.ofField b))
  | 5 => .ok (.sth (.ofField d) (.ofField a) (.ofField b))
  | 6 => .ok (.ldw (.ofField d) (.ofField a) (.ofField b))
  | 7 => .ok (.stw (.ofField d) (.ofField a) (.ofField b))
  | 8 => .ok (.sld (.ofField d) (.ofField a) (.ofField b))
  | 9 => .ok (.sst (.ofField d) (.ofField a) (.ofField b))
  | 10 => unused1 d (.pref (.ofField a) (.ofField b))
  | 11 => unused1 d (.reshint (.ofField a) (.ofField b))
  | _ => .ok (.reservedOpcode w)

/-- Opcodes 0xA0 to 0xAF (R228). -/
def decodeRowA (lo d a b : Nat) (w : Word) : Except DecodeError Instr :=
  match lo with
  | 0 => .ok (.aadd (.ofField d) (.ofField a) (.ofField b))
  | 1 => .ok (.amin (.ofField d) (.ofField a) (.ofField b))
  | 2 => .ok (.amax (.ofField d) (.ofField a) (.ofField b))
  | 3 => .ok (.aand (.ofField d) (.ofField a) (.ofField b))
  | 4 => .ok (.aor (.ofField d) (.ofField a) (.ofField b))
  | 5 => .ok (.axor (.ofField d) (.ofField a) (.ofField b))
  | 6 => .ok (.axchg (.ofField d) (.ofField a) (.ofField b))
  | 7 => .ok (.acas (.ofField d) (.ofField a) (.ofField b))
  | 8 => .ok (.acasw (.ofField d) (.ofField a) (.ofField b))
  | 9 => .ok (.afadd (.ofField d) (.ofField a) (.ofField b))
  | 10 => .ok (.afmin (.ofField d) (.ofField a) (.ofField b))
  | 11 => .ok (.afmax (.ofField d) (.ofField a) (.ofField b))
  | _ => .ok (.reservedOpcode w)

/-- Opcodes 0xB0 to 0xBF (R228). -/
def decodeRowB (lo d a b : Nat) (w : Word) : Except DecodeError Instr :=
  match lo with
  | 0 => .ok (.stadd (.ofField d) (.ofField a) (.ofField b))
  | 1 => .ok (.stmin (.ofField d) (.ofField a) (.ofField b))
  | 2 => .ok (.stmax (.ofField d) (.ofField a) (.ofField b))
  | 3 => .ok (.stand (.ofField d) (.ofField a) (.ofField b))
  | 4 => .ok (.stor (.ofField d) (.ofField a) (.ofField b))
  | 5 => .ok (.stxor (.ofField d) (.ofField a) (.ofField b))
  | 6 => .ok (.stfadd (.ofField d) (.ofField a) (.ofField b))
  | 7 => .ok (.stfmin (.ofField d) (.ofField a) (.ofField b))
  | 8 => .ok (.stfmax (.ofField d) (.ofField a) (.ofField b))
  | 9 => unused1 b (.qlock (.ofField d) (.ofField a))
  | 10 => unused2 d b (.qunlock (.ofField a))
  | 11 => unused3 d a b .release
  | 12 => unused3 d a b .acquire
  | 13 => unused3 d a b .fence
  | _ => .ok (.reservedOpcode w)

/-- Opcodes 0xC0 to 0xCF (R228). -/
def decodeRowC (lo d a b : Nat) (w : Word) : Except DecodeError Instr :=
  match lo with
  | 0 => .ok (.fetch (.ofField d) (.ofField a) (.ofField b))
  | 1 => .ok (.fetch2 (.ofField d) (.ofField a) (.ofField b))
  | 2 => unused1 d (.hbind (.ofField a) (.ofField b))
  | 3 => unused1 b (.card (.ofField d) (.ofField a))
  | 4 => unused2 d b (.cwait (.ofField a))
  | 5 => unused1 b (.cpoll (.ofField d) (.ofField a))
  | 6 => .ok (.isect (.ofField d) (.ofField a) (.ofField b))
  | 7 => .ok (.merge (.ofField d) (.ofField a) (.ofField b))
  | 8 => .ok (.mpsplit (.ofField d) (.ofField a) (.ofField b))
  | _ => .ok (.reservedOpcode w)

/-- Opcodes 0xD0 to 0xDF (R228). -/
def decodeRowD (lo d a b : Nat) (w : Word) : Except DecodeError Instr :=
  match lo with
  | 0 => unused2 d b (.mloop (.ofField a))
  | 1 => unused2 a b (.mbatch (.ofField d))
  | 2 => unused2 d b (.mwait (.ofField a))
  | 3 => unused2 d b (.mdrain (.ofField a))
  | 4 => unused2 d b (.mquant (.ofField a))
  | 5 => unused1 d (.mzero (.ofField a) (.ofField b))
  | _ => .ok (.reservedOpcode w)

/-- Opcodes 0xE0 to 0xEF (R228). -/
def decodeRowE (lo d a b : Nat) (w : Word) : Except DecodeError Instr :=
  match lo with
  | 0 => litIn b (unused2 d a .bra)
  | 1 => litIn b (unused1 d (.brc a))
  | 2 => litIn b (unused1 d (.bru (.ofField a)))
  | 3 => litIn b (.ok (.call (.ofField d) (.ofField a)))
  | 4 => .ok (.calli (.ofField d) (.ofField a) (.ofField b))
  | 5 => unused3 d a b .ret
  | 6 => .ok (.arg (.ofField d) (.ofField a) (.ofField b))
  | 7 => .ok (.gret (.ofField d) (.ofField a) (.ofField b))
  | 8 => unused3 d a b .exit
  | 9 => unused2 d b (.join (.ofField a))
  | 10 => unused2 d b (.leave (.ofField a))
  | 11 => unused2 d b (.bar (.ofField a))
  | _ => .ok (.reservedOpcode w)

/-- Opcodes 0xF0 to 0xFF (R228). -/
def decodeRowF (lo d a b : Nat) (w : Word) : Except DecodeError Instr :=
  match lo with
  | 0 => unused1 b (.qpop (.ofField d) (.ofField a))
  | 1 => .ok (.qpush (.ofField d) (.ofField a) (.ofField b))
  | 2 => unused2 d b (.lwait (.ofField a))
  | 3 => unused2 d b (.ldone (.ofField a))
  | 4 => unused1 b (.lstat (.ofField d) (.ofField a))
  | 5 => unused2 d b (.trap (.ofField a))
  | 6 => unused2 d b (.eret (.ofField a))
  | 7 => unused2 d b (.bkpt (.ofField a))
  | 8 => unused3 d a b .yield
  | _ => .ok (.reservedOpcode w)

/-- The decoder of an instruction word: total, and right for every word of the opcode map (R228). -/
def decode (w : Word) : Except DecodeError Instr :=
  let lo := opField w % 16
  let d := dField w
  let a := aField w
  let b := bField w
  match opField w / 16 with
  | 0 => decodeRow0 lo d a b w
  | 1 => decodeRow1 lo d a b w
  | 2 => decodeRow2 lo d a b w
  | 3 => decodeRow3 lo d a b w
  | 4 => decodeRow4 lo d a b w
  | 5 => decodeRow5 lo d a b w
  | 6 => decodeRow6 lo d a b w
  | 7 => decodeRow7 lo d a b w
  | 8 => decodeRow8 lo d a b w
  | 9 => decodeRow9 lo d a b w
  | 10 => decodeRowA lo d a b w
  | 11 => decodeRowB lo d a b w
  | 12 => decodeRowC lo d a b w
  | 13 => decodeRowD lo d a b w
  | 14 => decodeRowE lo d a b w
  | _ => decodeRowF lo d a b w

/-- A word from its four fields (R217). -/
def assemble (op d a b : Nat) : Word := BitVec.ofNat 32 (op * 2 ^ 24 + d * 2 ^ 16 + a * 2 ^ 8 + b)

/-- The word of an instruction, from the encoding tables of the reference chapters; a step of the part that has no word encodes to none. -/
def encode : Instr → Option Word
  | .nop => some (assemble 0x00 0 0 0)
  | .mov d a => some (assemble 0x01 d.toField a.toField 0)
  | .mov2 d a => some (assemble 0x02 d.toField a.toField 0)
  | .mov4 d a => some (assemble 0x03 d.toField a.toField 0)
  | .sel d a b => some (assemble 0x04 d.toField a.toField b.toField)
  | .setmode a => some (assemble 0x05 0 a.toField 0)
  | .getmode d => some (assemble 0x06 d.toField 0 0)
  | .rdsr d a => some (assemble 0x07 d.toField a.toField 0)
  | .unif d a => some (assemble 0x08 d.toField a.toField 0)
  | .wrsr a b => some (assemble 0x09 0 a.toField b.toField)
  | .add d a b => some (assemble 0x10 d.toField a.toField b.toField)
  | .sub d a b => some (assemble 0x11 d.toField a.toField b.toField)
  | .mul d a b => some (assemble 0x12 d.toField a.toField b.toField)
  | .mulhi d a b => some (assemble 0x13 d.toField a.toField b.toField)
  | .mad d a b => some (assemble 0x14 d.toField a.toField b.toField)
  | .abs d a => some (assemble 0x15 d.toField a.toField 0)
  | .neg d a => some (assemble 0x16 d.toField a.toField 0)
  | .min d a b => some (assemble 0x17 d.toField a.toField b.toField)
  | .max d a b => some (assemble 0x18 d.toField a.toField b.toField)
  | .div d a b => some (assemble 0x19 d.toField a.toField b.toField)
  | .rem d a b => some (assemble 0x1A d.toField a.toField b.toField)
  | .shl d a b => some (assemble 0x1B d.toField a.toField b.toField)
  | .shr d a b => some (assemble 0x1C d.toField a.toField b.toField)
  | .rot d a b => some (assemble 0x1D d.toField a.toField b.toField)
  | .and d a b => some (assemble 0x1E d.toField a.toField b.toField)
  | .or d a b => some (assemble 0x1F d.toField a.toField b.toField)
  | .xor d a b => some (assemble 0x20 d.toField a.toField b.toField)
  | .not d a => some (assemble 0x21 d.toField a.toField 0)
  | .andn d a b => some (assemble 0x22 d.toField a.toField b.toField)
  | .popc d a => some (assemble 0x23 d.toField a.toField 0)
  | .clz d a => some (assemble 0x24 d.toField a.toField 0)
  | .ctz d a => some (assemble 0x25 d.toField a.toField 0)
  | .brev d a => some (assemble 0x26 d.toField a.toField 0)
  | .bfe d a b => some (assemble 0x27 d.toField a.toField b.toField)
  | .bfi d a b => some (assemble 0x28 d.toField a.toField b.toField)
  | .cmp c m a b => some (assemble 0x29 (c * 8 + m) a.toField b.toField)
  | .lea0 d a b => some (assemble 0x2A d.toField a.toField b.toField)
  | .lea2 d a b => some (assemble 0x2B d.toField a.toField b.toField)
  | .lea3 d a b => some (assemble 0x2C d.toField a.toField b.toField)
  | .fadd d a b => some (assemble 0x30 d.toField a.toField b.toField)
  | .fsub d a b => some (assemble 0x31 d.toField a.toField b.toField)
  | .fmul d a b => some (assemble 0x32 d.toField a.toField b.toField)
  | .fma d a b => some (assemble 0x33 d.toField a.toField b.toField)
  | .fnma d a b => some (assemble 0x34 d.toField a.toField b.toField)
  | .fmin d a b => some (assemble 0x35 d.toField a.toField b.toField)
  | .fmax d a b => some (assemble 0x36 d.toField a.toField b.toField)
  | .fabs d a => some (assemble 0x37 d.toField a.toField 0)
  | .fneg d a => some (assemble 0x38 d.toField a.toField 0)
  | .frint d a => some (assemble 0x39 d.toField a.toField 0)
  | .fldexp d a b => some (assemble 0x3A d.toField a.toField b.toField)
  | .fclass d a => some (assemble 0x3B d.toField a.toField 0)
  | .fdiv d a b => some (assemble 0x3C d.toField a.toField b.toField)
  | .fsqrt d a => some (assemble 0x3D d.toField a.toField 0)
  | .frcp d a => some (assemble 0x3E d.toField a.toField 0)
  | .frsq d a => some (assemble 0x3F d.toField a.toField 0)
  | .fexp2 d a => some (assemble 0x40 d.toField a.toField 0)
  | .flog2 d a => some (assemble 0x41 d.toField a.toField 0)
  | .fsin d a => some (assemble 0x42 d.toField a.toField 0)
  | .fcos d a => some (assemble 0x43 d.toField a.toField 0)
  | .ftanh d a => some (assemble 0x44 d.toField a.toField 0)
  | .fdot2 d a b => some (assemble 0x45 d.toField a.toField b.toField)
  | .cvti d a => some (assemble 0x50 d.toField a.toField 0)
  | .cvtn d a => some (assemble 0x51 d.toField a.toField 0)
  | .cvtl d a => some (assemble 0x52 d.toField a.toField 0)
  | .cvtf d a => some (assemble 0x53 d.toField a.toField 0)
  | .cvtd d a => some (assemble 0x54 d.toField a.toField 0)
  | .cvtb d a => some (assemble 0x55 d.toField a.toField 0)
  | .cvth d a => some (assemble 0x56 d.toField a.toField 0)
  | .pack2 d a b => some (assemble 0x57 d.toField a.toField b.toField)
  | .rsadd d a b => some (assemble 0x58 d.toField a.toField b.toField)
  | .rssub d a b => some (assemble 0x59 d.toField a.toField b.toField)
  | .rsmul d a b => some (assemble 0x5A d.toField a.toField b.toField)
  | .rsdiv d a b => some (assemble 0x5B d.toField a.toField b.toField)
  | .rsneg d a => some (assemble 0x5C d.toField a.toField 0)
  | .rsrcp d a => some (assemble 0x5D d.toField a.toField 0)
  | .rssqr d a => some (assemble 0x5E d.toField a.toField 0)
  | .rsunion d a b => some (assemble 0x5F d.toField a.toField b.toField)
  | .rsisect d a b => some (assemble 0x60 d.toField a.toField b.toField)
  | .rshull d a => some (assemble 0x61 d.toField a.toField 0)
  | .rslo d a => some (assemble 0x62 d.toField a.toField 0)
  | .rshi d a => some (assemble 0x63 d.toField a.toField 0)
  | .rsconv d a b => some (assemble 0x64 d.toField a.toField b.toField)
  | .ringld a b => some (assemble 0x65 0 a.toField b.toField)
  | .ringq d a => some (assemble 0x66 d.toField a.toField 0)
  | .shfl d a b => some (assemble 0x70 d.toField a.toField b.toField)
  | .shflx d a b => some (assemble 0x71 d.toField a.toField b.toField)
  | .shflup d a b => some (assemble 0x72 d.toField a.toField b.toField)
  | .shfldn d a b => some (assemble 0x73 d.toField a.toField b.toField)
  | .voteany d a => some (assemble 0x74 d.toField a.toField 0)
  | .voteall d a => some (assemble 0x75 d.toField a.toField 0)
  | .ballot d a => some (assemble 0x76 d.toField a.toField 0)
  | .redadd d a => some (assemble 0x77 d.toField a.toField 0)
  | .redmin d a => some (assemble 0x78 d.toField a.toField 0)
  | .redmax d a => some (assemble 0x79 d.toField a.toField 0)
  | .redor d a => some (assemble 0x7A d.toField a.toField 0)
  | .redun d a => some (assemble 0x7B d.toField a.toField 0)
  | .scanadd d a => some (assemble 0x7C d.toField a.toField 0)
  | .confd d a => some (assemble 0x7D d.toField a.toField 0)
  | .xfence => some (assemble 0x7E 0 0 0)
  | .keyadd d a b => some (assemble 0x7F d.toField a.toField b.toField)
  | .mand d a b => some (assemble 0x80 d a b)
  | .mor d a b => some (assemble 0x81 d a b)
  | .mxor d a b => some (assemble 0x82 d a b)
  | .mnot d a => some (assemble 0x83 d a 0)
  | .mandn d a b => some (assemble 0x84 d a b)
  | .mmov d a => some (assemble 0x85 d a 0)
  | .mpopc d a => some (assemble 0x86 d.toField a 0)
  | .mfirst d a => some (assemble 0x87 d.toField a 0)
  | .mget d a b => some (assemble 0x88 d.toField a b.toField)
  | .mset d a b => some (assemble 0x89 d a.toField b.toField)
  | .msave d a => some (assemble 0x8A d a.toField 0)
  | .mload d a => some (assemble 0x8B d a.toField 0)
  | .mall d => some (assemble 0x8C d 0 0)
  | .ld d a b => some (assemble 0x90 d.toField a.toField b.toField)
  | .ldb d a b => some (assemble 0x91 d.toField a.toField b.toField)
  | .ldh d a b => some (assemble 0x92 d.toField a.toField b.toField)
  | .st d a b => some (assemble 0x93 d.toField a.toField b.toField)
  | .stb d a b => some (assemble 0x94 d.toField a.toField b.toField)
  | .sth d a b => some (assemble 0x95 d.toField a.toField b.toField)
  | .ldw d a b => some (assemble 0x96 d.toField a.toField b.toField)
  | .stw d a b => some (assemble 0x97 d.toField a.toField b.toField)
  | .sld d a b => some (assemble 0x98 d.toField a.toField b.toField)
  | .sst d a b => some (assemble 0x99 d.toField a.toField b.toField)
  | .pref a b => some (assemble 0x9A 0 a.toField b.toField)
  | .reshint a b => some (assemble 0x9B 0 a.toField b.toField)
  | .aadd d a b => some (assemble 0xA0 d.toField a.toField b.toField)
  | .amin d a b => some (assemble 0xA1 d.toField a.toField b.toField)
  | .amax d a b => some (assemble 0xA2 d.toField a.toField b.toField)
  | .aand d a b => some (assemble 0xA3 d.toField a.toField b.toField)
  | .aor d a b => some (assemble 0xA4 d.toField a.toField b.toField)
  | .axor d a b => some (assemble 0xA5 d.toField a.toField b.toField)
  | .axchg d a b => some (assemble 0xA6 d.toField a.toField b.toField)
  | .acas d a b => some (assemble 0xA7 d.toField a.toField b.toField)
  | .acasw d a b => some (assemble 0xA8 d.toField a.toField b.toField)
  | .afadd d a b => some (assemble 0xA9 d.toField a.toField b.toField)
  | .afmin d a b => some (assemble 0xAA d.toField a.toField b.toField)
  | .afmax d a b => some (assemble 0xAB d.toField a.toField b.toField)
  | .stadd d a b => some (assemble 0xB0 d.toField a.toField b.toField)
  | .stmin d a b => some (assemble 0xB1 d.toField a.toField b.toField)
  | .stmax d a b => some (assemble 0xB2 d.toField a.toField b.toField)
  | .stand d a b => some (assemble 0xB3 d.toField a.toField b.toField)
  | .stor d a b => some (assemble 0xB4 d.toField a.toField b.toField)
  | .stxor d a b => some (assemble 0xB5 d.toField a.toField b.toField)
  | .stfadd d a b => some (assemble 0xB6 d.toField a.toField b.toField)
  | .stfmin d a b => some (assemble 0xB7 d.toField a.toField b.toField)
  | .stfmax d a b => some (assemble 0xB8 d.toField a.toField b.toField)
  | .qlock d a => some (assemble 0xB9 d.toField a.toField 0)
  | .qunlock a => some (assemble 0xBA 0 a.toField 0)
  | .release => some (assemble 0xBB 0 0 0)
  | .acquire => some (assemble 0xBC 0 0 0)
  | .fence => some (assemble 0xBD 0 0 0)
  | .fetch d a b => some (assemble 0xC0 d.toField a.toField b.toField)
  | .fetch2 d a b => some (assemble 0xC1 d.toField a.toField b.toField)
  | .hbind a b => some (assemble 0xC2 0 a.toField b.toField)
  | .card d a => some (assemble 0xC3 d.toField a.toField 0)
  | .cwait a => some (assemble 0xC4 0 a.toField 0)
  | .cpoll d a => some (assemble 0xC5 d.toField a.toField 0)
  | .isect d a b => some (assemble 0xC6 d.toField a.toField b.toField)
  | .merge d a b => some (assemble 0xC7 d.toField a.toField b.toField)
  | .mpsplit d a b => some (assemble 0xC8 d.toField a.toField b.toField)
  | .mloop a => some (assemble 0xD0 0 a.toField 0)
  | .mbatch d => some (assemble 0xD1 d.toField 0 0)
  | .mwait a => some (assemble 0xD2 0 a.toField 0)
  | .mdrain a => some (assemble 0xD3 0 a.toField 0)
  | .mquant a => some (assemble 0xD4 0 a.toField 0)
  | .mzero a b => some (assemble 0xD5 0 a.toField b.toField)
  | .bra => some (assemble 0xE0 0 0 0xF0)
  | .brc a => some (assemble 0xE1 0 a 0xF0)
  | .bru a => some (assemble 0xE2 0 a.toField 0xF0)
  | .call d a => some (assemble 0xE3 d.toField a.toField 0xF0)
  | .calli d a b => some (assemble 0xE4 d.toField a.toField b.toField)
  | .ret => some (assemble 0xE5 0 0 0)
  | .arg d a b => some (assemble 0xE6 d.toField a.toField b.toField)
  | .gret d a b => some (assemble 0xE7 d.toField a.toField b.toField)
  | .exit => some (assemble 0xE8 0 0 0)
  | .join a => some (assemble 0xE9 0 a.toField 0)
  | .leave a => some (assemble 0xEA 0 a.toField 0)
  | .bar a => some (assemble 0xEB 0 a.toField 0)
  | .qpop d a => some (assemble 0xF0 d.toField a.toField 0)
  | .qpush d a b => some (assemble 0xF1 d.toField a.toField b.toField)
  | .lwait a => some (assemble 0xF2 0 a.toField 0)
  | .ldone a => some (assemble 0xF3 0 a.toField 0)
  | .lstat d a => some (assemble 0xF4 d.toField a.toField 0)
  | .trap a => some (assemble 0xF5 0 a.toField 0)
  | .eret a => some (assemble 0xF6 0 a.toField 0)
  | .bkpt a => some (assemble 0xF7 0 a.toField 0)
  | .yield => some (assemble 0xF8 0 0 0)
  | .clauseStart _ => none
  | .scoreHalving _ => none
  | .lateResult _ _ => none
  | .ringTableBuilt _ _ => none
  | .registration _ _ => none
  | .registrationAck _ _ => none
  | .recallWord _ => none
  | .l1Eviction _ _ => none
  | .atomicBatch _ _ => none
  | .unitRecordFreed _ => none
  | .faultResolution _ _ => none
  | .faultRecordConsume _ _ => none
  | .tinvalWrite _ => none
  | .invalidationComplete _ => none
  | .waypartRaise _ _ => none
  | .waypartLower _ _ => none
  | .waypartChangeComplete _ => none
  | .cardStart _ => none
  | .cardComplete _ => none
  | .mloopStart _ => none
  | .mloopFlush _ => none
  | .layerLoadStart _ => none
  | .layerArrived _ _ => none
  | .layerLoadFailed _ _ _ => none
  | .layerEvicted _ _ => none
  | .teamPlace => none
  | .teamRetire _ => none
  | .teamHalt _ => none
  | .teamSave _ => none
  | .teamRestore _ => none
  | .trapEntry _ => none
  | .softError _ => none
  | .notifyRecord _ => none
  | .launch _ => none
  | .feed _ => none
  | .cardPacket _ => none
  | .signal _ => none
  | .wait _ => none
  | .waitSatisfied _ => none
  | .modelLoad _ => none
  | .modelUnload _ => none
  | .modelPrio _ => none
  | .layerPrefetch _ => none
  | .fencePacket _ => none
  | .commandAppend => none
  | .memWrite => none
  | .memRead => none
  | .attestCertificate => none
  | .attestReport => none
  | .hostRead => none
  | .ringCreate => none
  | .ringResume => none
  | .ringHalt => none
  | .poolGive => none
  | .ctxBind => none
  | .peerSet => none
  | .exportSet => none
  | .gateLoad => none
  | .expertBuf => none
  | .saveTeam => none
  | .sliceWindow => none
  | .restoreTeam => none
  | .invalidate => none
  | .demandSet => none
  | .faultReply => none
  | .peerAccess _ => none
  | .portDown _ => none
  | .dispatchJob _ => none
  | .slotRequest _ _ => none
  | .slotGrant _ _ => none
  | .expertPayload _ _ => none
  | .returnRecord _ _ => none
  | .combine _ _ => none
  | .reset _ => none
  | .voltageOutOfWindow => none
  | .clockOutOfRange => none
  | .junction105c => none
  | .junction115c => none
  | .tamper => none
  | .integrityFaultBurst => none
  | .keyMisuse => none
  | .powerThrottle => none
  | .powerUnthrottle => none
  | .reservedOpcode word => some word
  | .reservedUrfelMessage => none
  | .portTrained _ => none
  | .transportGivesUp _ => none
  | .completionRptrReread _ => none
  | .homeWriteAcknowledgment _ _ => none
  | .grantCancel _ _ _ => none

/-- True when one of the three operand fields of the word holds 0xF0, so that it owns the next word of the clause as its literal (R221). -/
def ownsLiteral (w : Word) : Bool := decide (dField w = 0xF0) || decide (aField w = 0xF0) || decide (bField w = 0xF0)

/-- The little-endian word at the head of a run of bytes (R214). -/
def wordOfBytes (b0 b1 b2 b3 : Byte) : Word := b3 ++ b2 ++ b1 ++ b0

/-- The decoder over bytes: the instruction in the first word and the bytes after it; fewer than four bytes hold none. -/
def decodeBytes : List Byte → Option (Except DecodeError Instr × List Byte)
  | b0 :: b1 :: b2 :: b3 :: rest => some (decode (wordOfBytes b0 b1 b2 b3), rest)
  | _ => none

/-- Byte k of a number. -/
def natByte (w k : Nat) : Byte := BitVec.ofNat 8 (w / 2 ^ (8 * k))

/-- What the decoder reads from the bits w, numbered as the opcode table numbers them: the word is laid out little-endian and read back. -/
def decodeTableWord (nbits w : Nat) : Option Instr :=
  match decodeBytes [natByte (w % 2 ^ nbits) 0, natByte (w % 2 ^ nbits) 1, natByte (w % 2 ^ nbits) 2, natByte (w % 2 ^ nbits) 3] with
  | some (.ok i, _) => some i
  | _ => none

end Sys2Proof
end

