-- ==== Sys2Proof/Config.lean ====
section
/-! DEFINITION. What the spec leaves to the implementation or to the world outside the part: free values, constants with no body, so that nothing
proved about the machine can depend on one (guide: free values). Each is applied to a counter of the state or to the operands it depends on. -/

namespace Sys2Proof.Config

/-- A word that nothing constrains: what a peer device's memory holds (log 9) and the other values the spec leaves open (log 6), by draw number. -/
opaque freeWord : Nat → BitVec 32

/-- Whether a peer refuses a read or a write of a run of bytes, or the transport gives it up (R397; log 9), by draw number. -/
opaque peerRefuses : Nat → Bool

/-- How many 4 GHz cycles pass in a step (R242: CYCLE counts time, which the model does not fix; log 7), by draw number. -/
opaque freeCycles : Nat → Nat

/-- A special function's correctly rounded result where the model's enclosure of the exact value does not decide the rounding (log 8): by function
number, format width and source bits. -/
opaque specialRounded : Nat → Nat → Nat → Nat

/-- The vendor key hash, the security version that an image's signed header fields hold (the spec does not give their layout), the fused minimum (R404), and
the bytes that name the ROM's version (R405). -/
opaque vendorKeyHash : BitVec 512
opaque imageVersion : List (BitVec 8) → Nat
opaque fusedMinVersion : Nat
opaque romVersion : List (BitVec 8)

/-- The device's identity certificate and, byte by byte, its ML-DSA-87 signature over a report body (R406, R407; log 11), and its serial number. -/
opaque certificate : List (BitVec 8)
opaque reportSignature : List (BitVec 8) → Nat → BitVec 8
opaque serial : BitVec 128

/-- What a provisioning record says (R391, R413; the spec does not give its layout): the endpoints it admits, and the level to which it raises an
event: 0 LOG, 1 HALT, 2 ERASE. -/
opaque admittedEndpoints : List (BitVec 8) → List Nat
opaque raisedLevel : List (BitVec 8) → Nat → Nat

/-- The output width DO of an expert buffer of a peer device (R401), by peer entry and BUFID. -/
opaque peerWidth : Nat → Nat → Nat

end Sys2Proof.Config
end

