-- ==== Sys2Proof/Machine/State.lean ====
section
/-! DEFINITION. The state of the Llyn as plain data: the teams, the cores, the slices, the translation units, the engines, the Sconce complex, the
fabric and the trust logic, and the machine right after reset. INVENTORY.md lists every field with the rule of spec/ that names it. -/

namespace Sys2Proof.Machine

/-- A sparse table: keys with their entries, keys ascending. -/
abbrev Tbl (α : Type) := List (Nat × α)

/-- Why the machine stops. -/
inductive Fault where
  /-- raised by exec of an instruction word when no team with a clause in progress holds the issue slot: a team issues its instructions in clauses
  (R99, R171), so outside one the spec gives an instruction word no effect. Safe: the machine stops where the part does nothing. -/
  | noClause
  deriving DecidableEq, Repr

/-- Why an instruction has no meaning in the model. -/
inductive Refusal where
  /-- raised by an arm of exec whose instruction has no meaning yet. Safe: the machine stops. -/
  | notModelled (mnemonic : String)
  deriving DecidableEq, Repr

/-- The class codes of R375. -/
inductive TrapClass where
  | illegalOp | illegalClause | illegalMode | align | page | invalidAddr | permission | policy | window | budget | width | frame | ring
  | scale | swap | layerAbsent | software | brk | integrity | card | queue | illegalType
  deriving DecidableEq, Repr

/-- The page policies (R57, R63). -/
inductive Policy where
  | coherent | stream | direct | accum
  deriving DecidableEq, Repr

/-- A call's rule (R179). -/
inductive Rule where
  | same | widen | gather
  deriving DecidableEq, Repr

/-- The clause in progress (R171, R172): the header's address, the fetched words after it, the 1-based index of the next word to issue, the READS
and OTHERS flags, and the two header words at a CALL's target, fetched with the clause (R214). A clause-level trap keeps its clause with index 0. -/
structure Clause where
  header : Nat
  words : List Word
  idx : Nat
  reads : Nat
  others : Nat
  target : List Word
  deriving DecidableEq, Repr

/-- A reconvergence-stack entry (R177): PEND, or JOIN when pend is false. -/
structure Reconv where
  pend : Bool
  mask : Mask
  pc : Nat
  rejoin : Nat
  mode : Word
  deriving DecidableEq, Repr

/-- A spilled lane frame (R192): the slot, its bits of m0 to m7, its B registers, and which of them are poisoned (R385). -/
structure LaneFrame where
  slot : Nat
  bits : BitVec 8
  regs : List Word
  poison : List Nat
  deriving DecidableEq, Repr

/-- A gather frame (R187, R192): the callers' slots in ascending order, NARG, the arguments caller-major, NRET, the results set by GRET. -/
structure GatherFrame where
  callers : List Nat
  narg : Nat
  args : List Word
  nret : Nat
  results : Tbl Word
  deriving DecidableEq, Repr

/-- A CALLI group still to run (R189): its target, its function header's two words and its lanes. -/
structure CalliGroup where
  target : Nat
  header : Word × Word
  lanes : Mask
  deriving DecidableEq, Repr

/-- A call record (R181, R184, R192): what the return restores and the state of the rounds. -/
structure CallRec where
  rule : Rule
  /-- the caller's EXEC at the call -/
  exec : Mask
  /-- the slots LIVE in the calling frame at the call -/
  frame : Mask
  retPc : Nat
  mode : Word
  nwide : Nat
  /-- subidx of the calling frame's lanes -/
  subidx : Tbl Nat
  /-- the reconvergence depth below the callee's own entries -/
  rbase : Nat
  narg : Nat
  nret : Nat
  vd : Nat
  va : Nat
  redop : Nat
  width : Nat
  /-- the callee's first clause header -/
  entry : Nat
  /-- the callers in ascending slot order, and the index of the first caller of the next round -/
  callers : List Nat
  next : Nat
  /-- first slots of the groups of the call, fixed for the whole call -/
  groups : List Nat
  /-- the callers and slots of the round that runs -/
  roundCallers : List Nat
  round : Mask
  spilled : List LaneFrame
  gather : Option GatherFrame
  /-- the CALLI groups that follow this one -/
  calli : List CalliGroup
  deriving DecidableEq, Repr

/-- The trap record (R380), with the per-slot ADDR and WREGS arrays sparse. -/
structure TrapRec where
  cls : Nat
  detail : Word
  pc : Nat
  word : Nat
  mode : Word
  rdepth : Nat
  cdepth : Nat
  frame : Nat
  sregs : List Word
  faulted : Mask
  exec : Mask
  pending : Mask
  addr : Tbl Nat
  wregs : Tbl Word
  deriving DecidableEq, Repr

/-- A team's trap record area (R379): the record as last written; an area never written reads as zero. It lives until the launch completes. -/
structure Area where
  launch : Nat
  ctx : Nat
  record : Option TrapRec
  deriving DecidableEq, Repr

/-- A trap raised by an instruction or a clause: what R332 needs to enter the handler. -/
structure TrapInfo where
  cls : TrapClass
  detail : Word
  faulted : Mask
  pending : Mask
  addr : Tbl Nat
  /-- true for a clause-level trap (WORD 0, R380) -/
  clauseLevel : Bool
  deriving DecidableEq, Repr

/-- What a memory instruction does for a lane. -/
inductive MemKind where
  /-- a load of size bytes into n registers from dst; Zext to the registers -/
  | load
  /-- a store of size bytes -/
  | store
  /-- an atomic: opcode 0xA0 to 0xAB of the returning form, the TYPE, and whether the old value returns -/
  | atomic (op ty : Nat) (returns : Bool)
  /-- a fetch through a handle slot (the descriptor's 512 bits) -/
  | fetch (desc : BitVec 512)
  deriving DecidableEq, Repr

/-- One lane's access, with the operands captured at issue (R377). -/
structure LaneAcc where
  slot : Nat
  ea : Nat
  data : Nat
  cmp : Nat
  deriving DecidableEq, Repr

/-- A memory instruction with its captured form: the destination selector base (uniform for an s register), register count, access size. -/
structure MemOp where
  kind : MemKind
  size : Nat
  dst : Sel
  regs : Nat
  /-- the late operation it counts on, by number -/
  late : Option Nat
  /-- performed once per issue (R278) -/
  uniform : Bool
  deriving DecidableEq, Repr

/-- A lane held with a delivered class (R274). -/
structure HeldLane where
  acc : LaneAcc
  cls : TrapClass
  detail : Word
  deriving DecidableEq, Repr

/-- What an access needs (R60), and its kind bit in a fault record (R68). -/
structure Need where
  r : Bool
  w : Bool
  x : Bool
  kind : Nat
  deriving DecidableEq, Repr

/-- An access that a walk found a fault for (R69): its 32 KiB of virtual addresses, which lie within one page and within one trap record area (R379),
and its need. -/
structure Access where
  half : Nat
  need : Need
  deriving DecidableEq, Repr

/-- The 64 KiB page of an access. -/
def Access.page (a : Access) : Nat := a.half / 2

/-- What a parked team or a waiting message waits for (R378, R324, R328, R392). -/
inductive ParkCause where
  /-- the service of the access's page fault, or any record freed -/
  | page (a : Access)
  /-- a layer of a model slot -/
  | layer (mslot layer : Nat)
  /-- the translation units, whose invalidation the message has begun (R393) -/
  | units
  deriving DecidableEq, Repr

/-- What step 1 of R189 has decided for a lane of a CALLI that parked (R377): its header's two words, no well-formed header, or a held class. -/
inductive CalliKept where
  | header (w0 w1 : Word)
  | malformed
  | held (c : TrapClass) (detail : Word)
  deriving DecidableEq, Repr

/-- A parked instruction: its unfinished lanes with what each waits for, and the held lanes. A uniform instruction has no lane list and is performed
again whole, with the registers captured at first issue. -/
structure Parked where
  op : Option MemOp
  lanes : List (LaneAcc × ParkCause)
  held : List HeldLane
  cause : List ParkCause
  mode : Word
  active : Mask
  /-- accesses the Sconce marked for delivery of a class (R70) -/
  marks : List (Access × TrapClass)
  /-- the faulted mask of a uniform instruction whose page is so marked: EXEC, or its lowest lane (R278), and that lane's address -/
  mask : Mask
  addr : Tbl Nat
  deriving DecidableEq, Repr

/-- What a team waits for. -/
inductive Wait where
  | none
  /-- parked with an instruction that cannot finish -/
  | fault
  /-- parked at BAR on the cohort at this physical address, in this generation; released when woken -/
  | bar (pa gen : Nat) (woken : Bool)
  /-- parked at LWAIT -/
  | lwait (mslot layer : Nat)
  /-- a trap entry that waits for the flags (R332) -/
  | trapEntry
  /-- halting: TEAM_HALT finishes it (R384) -/
  | halting
  /-- retiring: TEAM_RETIRE finishes it (R118) -/
  | retiring
  /-- held at the issue of an instruction of its clause, which is tried again when CLAUSE_START gives it the slot (R172, R301) -/
  | held
  deriving DecidableEq, Repr

/-- What a late operation still waits for. -/
inductive LateWait where
  | none
  | batches (n : Nat)
  | qpop (pa : Nat)
  | qlock (pa : Nat)
  /-- an LSTAT that waits at its slice for a unit record (R42) -/
  | unit
  deriving DecidableEq, Repr

/-- An operation counted on a flag (R114, R175): its register writes are bound and written when it completes; lane is the lowest lane of EXEC at issue, as
which an access made once is made (R278, R315); atomic for a returning atomic, whose INTEGRITY a release side takes too (R276); near for one that met
neither a miss beyond the first level nor a fetch-cache miss (R355). -/
structure LateOp where
  id : Nat
  flag : Nat
  lane : Nat
  atomic : Bool
  near : Bool
  wait : LateWait
  vwrites : List (Nat × Nat × Word)
  swrites : List (Nat × Word)
  mask : Option (Nat × Mask)
  fpst : BitVec 5
  /-- lanes whose values have arrived before the rest (R176) -/
  came : Mask
  /-- lanes that read a poisoned line, with the address (R276) -/
  poisoned : Tbl Nat
  /-- lanes that read through a peer's page, with the address (R397) -/
  peers : Tbl Nat
  /-- the ring slot whose table is being built -/
  build : Option Nat
  /-- the handle slot whose binding it completes -/
  hbind : Option Nat
  /-- QPOP: destination (s base, or 32 + v register) and the lanes to write -/
  pop : Option (Nat × Mask)
  deriving DecidableEq, Repr

/-- An INTEGRITY fault held for a waiting point (R276): the flag it counts on, whether a release side and whether an acquire side takes it, the lane
and the address; deferred when a handler was entered with it held: it is delivered after ERET (R383). -/
structure HeldIntegrity where
  flag : Option Nat
  rel : Bool
  acq : Bool
  slot : Nat
  va : Nat
  deferred : Bool
  deriving DecidableEq, Repr

/-- A ring slot's ring (R143): form 0 RS16, 1 RS32, 2 RC16, the finite points, and whether its table is being built (R146). -/
structure Ring where
  form : Nat
  points : List Word
  building : Bool
  deriving DecidableEq, Repr

/-- An MLOOP that no MBATCH has closed (R165): whether its last flush is served, the fault that met (0 none, 1 SCALE, 2 INTEGRITY), and the pins it
keeps until its batch is accepted (R158). -/
structure OpenLoop where
  id : Nat
  served : Bool
  fault : Nat
  pins : List (Nat × Nat)
  deriving DecidableEq, Repr

/-- A batch (R165, R166): the MLOOPs whose flushes are not yet served (accepted when none), its fault as of an MLOOP, whether it has been reported,
the pins of the MLOOPs served. -/
structure MBatch where
  num : Nat
  loops : List Nat
  fault : Nat
  reported : Bool
  pins : List (Nat × Nat)
  deriving DecidableEq, Repr

/-- A team's card (R88): 0 COMPLETE, 1 PENDING, 2 FAULTED. -/
structure CardStatus where
  ticket : Nat
  status : Nat
  deriving DecidableEq, Repr

/-- An MLOOP in the sequencer (R156, R302): copied parameters, the TILE in force, the K-steps left, and the frames of its memory runs' pages by page
number, held against invalidation (R67, R158); a peer's frame counts from 2^48. -/
structure MLoop where
  id : Nat
  team : Nat
  ctx : Nat
  core : Nat
  abase : Nat
  bbase : Nat
  acc : Nat
  hdr : Nat
  accPa : Nat
  hdrPa : Nat
  ksteps : Nat
  astep : Int
  bstep : Int
  srcw : Word
  tile : Bool
  /-- scratchpad base of a local run -/
  spbase : Nat
  frames : Tbl Nat
  pins : List (Nat × Nat)
  /-- cards accepted before it that its footprint conflicts with (R89) -/
  after : List Nat
  deriving DecidableEq, Repr

/-- What a launch fixes for its teams (R100, R347). -/
structure TeamCfg where
  launch : Nat
  teamid : Nat
  core : Nat
  ctx : Nat
  capacity : Nat
  span : Nat
  budget : Nat
  lanes : Nat
  prio : Nat
  /-- the handler's first clause header; none when the launch names none -/
  handler : Option Nat
  fsbase : Nat
  fssize : Nat
  savebase : Nat
  rings : Nat
  fuse : Bool
  model : Option Nat
  spbase : Nat
  spsize : Nat
  deriving DecidableEq, Repr

/-- The operand registers as they stood when an instruction that is performed again whole was first issued (R377): a late value that arrives while it is
parked or held changes none of them. -/
structure Captured where
  sregs : Vector Word 32
  vregs : Tbl Word
  masks : Vector Mask 8
  poisonV : List Nat
  deriving DecidableEq, Repr

/-- A team (R99). -/
structure Team where
  cfg : TeamCfg
  pc : Nat
  clause : Option Clause
  /-- v registers, keyed 192 × slot + register, unlisted 0 (R104) -/
  vregs : Tbl Word
  sregs : Vector Word 32
  /-- w0 to w3, keyed 4 × slot + register, unlisted 0 -/
  wregs : Tbl Word
  exec : Mask
  masks : Vector Mask 8
  /-- slots LIVE in the running frame, HELD, SPENT; every other slot is FREE (R101) -/
  frame : Mask
  held : Mask
  spent : Mask
  mode : Word
  flags : Vector (BitVec 6) 12
  fpst : BitVec 5
  reconv : List Reconv
  calls : List CallRec
  /-- how many of the oldest entries and call records are in the frame stack (R192) -/
  spilledEntries : Nat
  spilledCalls : Nat
  subidx : Tbl Nat
  nwide : Nat
  handles : Vector (Option (BitVec 512)) 16
  rings : List (Option Ring)
  late : List LateOp
  integrity : List HeldIntegrity
  poisonV : List Nat
  wait : Wait
  parked : Option Parked
  /-- what an instruction performed again whole reads while it is parked or held (log 14) -/
  captured : Option Captured
  /-- the lanes a RETRY performs (R334) -/
  retry : Option Mask
  /-- accesses of a parked CALLI that are marked for delivery of a class (R70, R318), and its lanes' targets with what has been decided for them (R377) -/
  marked : List (Access × TrapClass)
  kept : Tbl (Nat × Option CalliKept)
  /-- while the handler runs (R333): the reconvergence and call-record depths at the trap -/
  handler : Option (Nat × Nat)
  /-- the trapping clause, kept for ERET -/
  trapClause : Option Clause
  pendTrap : Option TrapInfo
  /-- halting: class, second class, detail, PC of the halt (R345) -/
  halt : Option (Nat × Nat × Word × Nat)
  tickets : Nat
  cards : List CardStatus
  batchNum : Nat
  openLoops : List OpenLoop
  batches : List MBatch
  pins : Tbl Nat
  cohorts : List Nat
  active : Bool
  order : Nat
  score : Nat
  permit : Bool
  /-- MLOOPs stopped by a save (R358), to be enqueued again at the restore -/
  stopped : List MLoop
  /-- saved out of its core (R358), with HOLD (R360), and the bytes of its scratchpad allocation while it is saved, by offset, with its poisoned words,
  by word of the allocation -/
  saved : Bool
  hold : Bool
  savedScratch : List Host.Cell
  savedPoison : List Nat
  deriving DecidableEq, Repr

/-- A first-level line (R47). -/
structure L1Line where
  /-- virtual address bits 51:7 -/
  vline : Nat
  ctx : Nat
  /-- physical address bits 47:7 -/
  pline : Nat
  r : Bool
  w : Bool
  policy : Policy
  valid : BitVec 128
  dirty : BitVec 128
  owned : BitVec 32
  data : LineData
  /-- the layer of a layer-tagged page's line: model slot and layer -/
  layer : Option (Nat × Nat)
  /-- words hit by an uncorrectable soft error, sent home as poisoned (R385) -/
  bad : BitVec 32
  /-- the team whose access allocated it (R357) -/
  team : Nat
  deriving DecidableEq, Repr

/-- A raw line of a fetch cache or an instruction cache, tagged by virtual address and context id (R92, R214), with the line it was read from, by which
a slice drops it with the contents of its window (R29). -/
structure RawLine where
  vline : Nat
  ctx : Nat
  pline : Nat
  data : LineData
  deriving DecidableEq, Repr

/-- One lane's operation of an atomic batch (R40). -/
structure AtomLane where
  slot : Nat
  pa : Nat
  va : Nat
  y : Nat
  cmp : Nat
  deriving DecidableEq, Repr

/-- A batch of one atomic instruction at one line (R40): opcode of the returning form, TYPE, width in bytes; for a returning form the late operation,
the first destination register and the register count; a peer batch runs at the remote home (R62). -/
structure Batch where
  op : Nat
  ty : Nat
  size : Nat
  dst : Sel
  regs : Nat
  late : Option Nat
  peer : Bool
  lanes : List AtomLane
  deriving DecidableEq, Repr

/-- Work that has left the lanes and not yet reached its home (R32, R41, R63). -/
inductive OutWork where
  /-- a registration of the physical word, for the bytes of it that the store writes -/
  | registration (word : Nat) (bytes : BitVec 4)
  /-- bytes of a DIRECT or STREAM store -/
  | homeWrite (pa : Nat) (bytes : List Byte)
  /-- bytes of a peer store -/
  | peerWrite (pa : Nat) (bytes : List Byte)
  | batch (b : Batch)
  deriving DecidableEq, Repr

/-- An entry of a core's outbound queue: whose it is, the instruction it came from, the lane and its address for R276; counted once a byte of its
write has been discarded and counted (R43). -/
structure OutEntry where
  team : Nat
  instr : Nat
  slot : Nat
  va : Nat
  work : OutWork
  counted : Bool
  deriving DecidableEq, Repr

/-- A registration's acknowledgment on its way to the core (R32). -/
structure Ack where
  team : Nat
  word : Nat
  deriving DecidableEq, Repr

/-- A victim tag array entry (R357). -/
structure Victim where
  vline : Nat
  ctx : Nat
  team : Nat
  deriving DecidableEq, Repr

/-- A flush on its way to the home slice (R162): the partial sums, the exponents of the first K-step, whether the sequencer marked it mismatched,
whether a poisoned operand line was read, and whether this is the MLOOP's last part (R164). -/
structure Flush where
  loop : MLoop
  sums : List Int
  ea0 : Nat
  ea1 : Nat
  eb0 : Nat
  eb1 : Nat
  mismatch : Bool
  poisoned : Bool
  last : Bool
  deriving DecidableEq, Repr

/-- A core (R3). -/
structure Core where
  cycle : BitVec 64
  hintdrop : Word
  l1 : List L1Line
  fetchLines : List RawLine
  icache : List RawLine
  /-- scratchpad bytes, unlisted 0 (R71) -/
  scratch : List Host.Cell
  out : List OutEntry
  acks : List Ack
  sequencer : List MLoop
  flushes : List Flush
  victims : List Victim
  errors : Nat
  poisonScratch : List Nat
  deriving DecidableEq, Repr

/-- A queue lock's record (R42, R289): the holder and the waiters, oldest first, as teams with their late operations. -/
structure Lock where
  holder : Option Nat
  waiters : List (Nat × Nat)
  deriving DecidableEq, Repr

/-- A cohort's record (R194, R195). -/
structure Cohort where
  members : Word
  arrived : Word
  gen : Word
  teams : List Nat
  parkedTeams : List Nat
  deriving DecidableEq, Repr

/-- A feed queue's record (R352): the waiting requests are teams with their late operations, in order of arrival. -/
structure FeedQueue where
  ctx : Nat
  cap : Nat
  /-- physical pages are found through this context and core's translation -/
  base : Nat
  head : Word
  tail : Word
  requests : List (Nat × Nat)
  /-- for each record from head on, the launch of the team that appended it, if a team did (R388) -/
  origins : List (Option Nat)
  deriving DecidableEq, Repr

/-- The tables of unit records of a slice (R42). -/
inductive UnitTable where
  | cohort | queue | flag
  deriving DecidableEq, Repr

/-- The operations that may wait at a slice for a unit record (R42); replay is that of the accesses parked on a layer. -/
inductive UnitOp where
  | join | leave | bar | qpop | qpush | feed | lwait | ldone | lstat | replay
  deriving DecidableEq, Repr

/-- An operation waiting at the home slice of an object for a unit record (R42): whose it is, a team or, for a FEED packet, a ring; its own number, for an
LSTAT that of its late operation, and 0 where its team or ring holds it and tries it again. -/
structure UnitWait where
  table : UnitTable
  op : UnitOp
  who : Nat
  pa : Nat
  id : Nat
  deriving DecidableEq, Repr

/-- A slice (R26): its WAYPART register (R27), the ways before the change in progress, its discard counter (R43) and error counters (R19). -/
structure Slice where
  ways : Nat
  busy : Bool
  gen : BitVec 8
  old : Nat
  discards : Nat
  errors : Nat
  deriving DecidableEq, Repr

/-- A TLB entry (R53): one leaf of 2^bits bytes. -/
structure TlbEntry where
  ctx : Nat
  vbase : Nat
  bits : Nat
  pbase : Nat
  r : Bool
  w : Bool
  x : Bool
  policy : Policy
  peer : Option Nat
  layer : Option (Nat × Nat)
  dirty : Bool
  deriving DecidableEq, Repr

/-- A fault record (R68): state 0 FREE, 1 OPEN, 2 CONSUMED; with it the accesses that found its faults, and what the Sconce has done about it (R394): the
PAGES value handled, the accesses marked for delivery, and whether a FAULT_NOTICE waits for its reply. -/
structure FaultRec where
  pages : BitVec 64
  block : Nat
  ctx : Nat
  kinds : BitVec 6
  cause : BitVec 2
  state : Nat
  accs : List Access
  handled : Option (BitVec 64)
  marks : List (Access × TrapClass)
  notice : Bool
  deriving DecidableEq, Repr

/-- A cluster's translation unit (R53, R67, R68); gone: what the entries removed by the invalidation in progress covered, as context id, first and last
page. -/
structure Cluster where
  tlb : List TlbEntry
  recs : List FaultRec
  tinval : DWord
  gone : List (Nat × Nat × Nat)
  deriving DecidableEq, Repr

/-- A context id's binding (R50, R393). -/
structure CtxBinding where
  root : Nat
  endpoint : Nat
  hostFault : Bool
  deriving DecidableEq, Repr

/-- A demand range (R394). -/
structure DemandRange where
  base : Nat
  len : Nat
  policy : Nat
  r : Bool
  w : Bool
  deriving DecidableEq, Repr

/-- A job card accepted by the scheduler (R83, R87): the 2,048 bits, whose it is, its place in the order of acceptance (id), its state 0 COMPLETE,
1 PENDING, 2 FAULTED, whether it has started, and the layers it pins; where it resumes after a fault (R91): the rows finished, the bytes of the next
row that have been read, and how many of its bytes have been written. -/
structure Card where
  id : Nat
  bits : BitVec 2048
  ctx : Nat
  core : Nat
  team : Option Nat
  ring : Option (Nat × Nat)
  ticket : Nat
  status : Nat
  started : Bool
  pins : List (Nat × Nat)
  /-- cards and MLOOPs it is ordered after (R89) -/
  after : List Nat
  afterLoops : List Nat
  /-- scratchpad allocation of the submitter -/
  spbase : Nat
  spsize : Nat
  row : Nat
  got : List Byte
  put : Nat
  deriving DecidableEq, Repr

/-- A capability (R337): OTYPE, PERM, LENGTH, BASE. -/
structure Capability where
  otype : Nat
  perm : Nat
  length : Nat
  base : Nat
  deriving DecidableEq, Repr

/-- A packet that has started and not completed (R343): kind is its TYPE; done once it has completed. -/
structure InFlight where
  seq : Nat
  kind : Nat
  notify : Bool
  launch : Option Nat
  card : Option Nat
  mslot : Option Nat
  deriving DecidableEq, Repr

/-- Where a WAIT packet polls, by the translation it holds (R344): a word at home, a peer's word, or a word of a trap record area (team, offset). -/
inductive PollAt where
  | home (pa : Nat)
  | peer
  | record (team off : Nat)
  deriving DecidableEq, Repr

/-- What a ring does before it reads its next packet: a FEED in progress (the packet, its queue, the records left) or a WAIT (the packet, its virtual
address and its word, VALUE, COND). -/
inductive RingBusy where
  | none
  | feed (f : InFlight) (queuePa : Nat) (records : List (List Byte))
  | wait (f : InFlight) (va : Nat) (at_ : PollAt) (value : DWord) (cond : Nat)
  deriving DecidableEq, Repr

/-- A command ring (R339 to R346): rcb is the virtual address of its RCB. -/
structure CmdRing where
  ctx : Nat
  rcb : Nat
  base : Nat
  size : Nat
  maxprio : Nat
  comp : Nat
  notifyq : Nat
  caps : List Capability
  endpoint : Nat
  wptr : Nat
  rptr : Nat
  seq : Nat
  status : Nat
  detail : Nat
  flight : List InFlight
  busy : RingBusy
  /-- completion entries not yet written because the completion ring was full -/
  entries : List (List Byte)
  compRptr : Nat
  compWptr : Nat
  compBase : Nat
  compSize : Nat
  deriving DecidableEq, Repr

/-- A launch accepted by the distributor (R347, R349). -/
structure Launch where
  ring : Nat
  seq : Nat
  ctx : Nat
  /-- the entry function's first clause header -/
  entry : Nat
  args : Nat
  handler : Option Nat
  fsbase : Nat
  fssize : Nat
  savebase : Nat
  teams : Nat
  lanes : Nat
  capacity : Nat
  span : Nat
  budget : Nat
  scratch : Nat
  rings : Nat
  prio : Nat
  fuse : Bool
  model : Option Nat
  placed : Nat
  ended : Nat
  clusters : List Nat
  deriving DecidableEq, Repr

/-- A layer of a model context (R362, R368, R369): state 0 ABSENT, 1 ARRIVING, 2 RESIDENT, 3 EVICTING, 4 FAILED. -/
structure Layer where
  vbase : Nat
  size : Nat
  srckind : Nat
  peerix : Nat
  srcaddr : Nat
  check : Word
  loads : Word
  pins : Nat
  state : Nat
  /-- the moment it was last unpinned, or arrived (R370), as an order number -/
  unpinned : Nat
  frames : List Nat
  deriving DecidableEq, Repr

/-- A model-context slot's context (R361, R363). -/
structure ModelCtx where
  ring : Nat
  ctx : Nat
  desc : Nat
  prio : Nat
  eclass : Nat
  lookahead : Nat
  flags : Nat
  flagsPa : List Nat
  dispq : Nat
  failcount : Word
  firstfail : Nat
  failwhy : Nat
  layers : List Layer
  unload : Bool
  deriving DecidableEq, Repr

/-- A layer request (R370), in order of request. -/
structure LayerReq where
  mslot : Nat
  layer : Nat
  demand : Bool
  deriving DecidableEq, Repr

/-- A load under way (R370, R395): the frames taken, the pieces that have arrived and the tags outstanding. -/
structure LayerLoad where
  mslot : Nat
  layer : Nat
  frames : List Nat
  pieces : List Nat
  tags : Tbl Nat
  deriving DecidableEq, Repr

/-- A FAULT_NOTICE waiting for its FAULT_REPLY (R394). -/
structure Notice where
  cluster : Nat
  ix : Nat
  ctx : Nat
  block : Nat
  pages : BitVec 64
  deriving DecidableEq, Repr

/-- A gate slot (R398). -/
structure Gate where
  ctx : Nat
  mslot : Nat
  experts : Nat
  d : Nat
  weights : List (BitVec 16)
  deriving DecidableEq, Repr

/-- Whom a slot of an expert buffer serves (R402): a copy of a job of this device, as job and place, or a peer's engine by its own number, and whether the
peer's payload has been delivered. -/
inductive SlotFor where
  | job (j ix : Nat)
  | peer (tag : Nat) (delivered : Bool)
  deriving DecidableEq, Repr

/-- An expert buffer (R401, R402): the slots in use, the requests waiting in order of arrival. -/
structure ExpertBuf where
  ctx : Nat
  mslot : Nat
  ofmt : Nat
  slots : Nat
  d : Nat
  dout : Nat
  base : Nat
  recordq : Nat
  returnq : Nat
  used : List Nat
  requests : List SlotFor
  /-- whom a slot in use serves -/
  routes : Tbl SlotFor
  deriving DecidableEq, Repr

/-- One token's copy for one expert (R402): state 0 to request, 1 requested, 2 granted, 3 sent, 4 in its slot, 5 output returned, 6 cancelled. -/
structure Copy where
  token : Nat
  expert : Nat
  weight : Word
  peer : Option Nat
  buf : Nat
  slot : Nat
  state : Nat
  output : List Word
  deriving DecidableEq, Repr

/-- A dispatch job (R400): the record's fields, its context, the next token to score, its copies, the tokens combined. -/
structure Job where
  ctx : Nat
  mslot : Nat
  tokens : Nat
  route : Nat
  xtable : Nat
  out : Nat
  compaddr : Nat
  compval : DWord
  ntok : Nat
  gate : Nat
  k : Nat
  ofmt : Nat
  /-- the launch of the team that appended its record, if a team did (R388) -/
  launch : Option Nat
  next : Nat
  copies : List Copy
  combined : List Nat
  done : Bool
  deriving DecidableEq, Repr

/-- What a peer that asked is told (R397, R402): a read's bytes, done, a refusal, the grant of a slot, a slot's outputs. -/
inductive PeerAnswer where
  | data (bytes : List Byte)
  | ok
  | refused
  | granted (tag buf slot : Nat)
  | outputs (tag : Nat) (words : List Word)
  deriving DecidableEq, Repr

/-- A message the Llyn sends (R390): to an endpoint, with the header's fields; length is LENGTH, the bytes wanted in a HOST_READ request (R395). -/
structure OutMsg where
  dest : Nat
  op : Nat
  sub : Nat
  ctx : Nat
  tag : Nat
  status : Nat
  length : Nat
  addr : Nat
  payload : List Byte
  deriving DecidableEq, Repr

/-- An Urfel message that waits for a page or a layer (R392, R394), or a save for its request (R360): the message. -/
structure Waiting where
  msg : UrfelMsg
  cause : Option ParkCause
  deriving DecidableEq, Repr

/-- Whose access of the Sconce or of a Plinth engine waits for a page (R392, R394): a message, a ring's packet or pointer, the writes held for a context, the
dispatch queue of a model slot, a job, the return queue of an expert buffer, a peer's payload for a slot of one, the load of a layer. -/
inductive Asker where
  | msg (m : UrfelMsg)
  | ring (k : Nat)
  | put (ctx : Nat)
  | dispatch (mslot : Nat)
  | job (j : Nat)
  | returns (buf : Nat)
  | payload (buf slot : Nat)
  | load (mslot layer : Nat)
  deriving DecidableEq, Repr

/-- An access of the Sconce's own unit that waits for the service of its fault; lost once the Sconce has marked it as one that cannot be resolved (R70,
R394), which its next try delivers. -/
structure Ask where
  who : Asker
  ctx : Nat
  acc : Access
  lost : Bool
  deriving DecidableEq, Repr

/-- The trust logic (R404 to R413) and the clock step of R415 (core clock in units of 250 MHz). -/
structure Trust where
  meas : Vector (BitVec 512) 8
  bootFail : Bool
  erased : Bool
  halted : Bool
  alarms : Word
  lastAlarm : Nat
  log : List Nat
  identityKey : Bool
  booted : Bool
  /-- the endpoints admitted at provisioning (R391), and the levels to which the provisioning record raises the events 0 to 8 (R413) -/
  admitted : List Nat
  levels : List Nat
  clock : Nat
  deriving DecidableEq, Repr

/-- The machine. -/
structure State where
  teams : Tbl Team
  /-- trap record areas, by team (R379) -/
  areas : Tbl Area
  cores : Tbl Core
  /-- bytes at home: DRAM and slice windows, by physical address (R20 to R23) -/
  mem : List Host.Cell
  /-- physical word number to owning core (R31) -/
  own : Tbl Nat
  /-- poisoned physical lines (R19) -/
  poison : List Nat
  /-- check values of lines that differ from the CRC-32C of the line's bytes; a line not listed carries the CRC-32C of its bytes (R408, R409) -/
  checks : Tbl Word
  locks : Tbl Lock
  cohorts : Tbl Cohort
  queues : Tbl FeedQueue
  /-- operations that wait for a unit record, in the order they reached their slices, and the objects whose records the unit tables hold, least recently
  used first (R42) -/
  unitWait : List UnitWait
  unitRecs : List (UnitTable × Nat)
  /-- writes of the Sconce that wait for a page or a layer (R394), in order: context, address, bytes -/
  puts : List (Nat × Nat × List Byte)
  /-- rings whose WPTR the Sconce has been told to read (R340) and whose page or layer it waits for -/
  wptrReads : List Nat
  /-- accesses of the Sconce's own unit that wait for the service of their faults (R394) -/
  asks : List Ask
  slices : Tbl Slice
  clusters : Tbl Cluster
  ctxs : Tbl CtxBinding
  demand : Tbl DemandRange
  cards : List Card
  /-- batches accepted of teams that are gone, with the pins they keep until they end (R384) -/
  orphans : List MBatch
  rings : Tbl CmdRing
  launches : Tbl Launch
  lastCore : Option Nat
  models : Tbl ModelCtx
  requests : List LayerReq
  loads : List LayerLoad
  /-- 64 KiB frames given to each pool and those free, as ranges of frame number and count (R370, R394) -/
  weightGiven : List (Nat × Nat)
  weightFree : List (Nat × Nat)
  demandGiven : List (Nat × Nat)
  demandFree : List (Nat × Nat)
  notices : List Notice
  ports : BitVec 16
  refusals : Nat
  peers : Tbl (BitVec 256)
  exports : Tbl (BitVec 128)
  gates : Tbl Gate
  buffers : Tbl ExpertBuf
  jobs : Tbl Job
  trust : Trust
  /-- messages received and not yet acted on, oldest first; messages that wait; messages sent; answers to peers -/
  inbox : List UrfelMsg
  waiting : List Waiting
  sent : List OutMsg
  peerAnswers : List PeerAnswer
  /-- the steps that the environment and time take next (log 3) -/
  agenda : List Instr
  /-- the team that holds the issue slot (log 3) -/
  cur : Option Nat
  /-- free values drawn so far (log 6) -/
  fresh : Nat
  /-- the next number for a team, a launch, a card, an MLOOP, a late operation, a moment -/
  nextId : Nat
  deriving DecidableEq, Repr

/-- A core right after reset (log 2). -/
def Core.reset : Core :=
  { cycle := 0, hintdrop := 0, l1 := [], fetchLines := [], icache := [], scratch := [], out := [], acks := [], sequencer := [], flushes := [],
    victims := [], errors := 0, poisonScratch := [] }

/-- A slice right after reset (R27). -/
def Slice.reset : Slice := { ways := 0, busy := false, gen := 0, old := 0, discards := 0, errors := 0 }

/-- A free fault record. -/
def FaultRec.reset : FaultRec :=
  { pages := 0, block := 0, ctx := 0, kinds := 0, cause := 0, state := 0, accs := [], handled := none, marks := [], notice := false }

/-- A translation unit right after reset: an empty TLB and 32 FREE records. -/
def Cluster.reset : Cluster := { tlb := [], recs := List.replicate 32 FaultRec.reset, tinval := 0, gone := [] }

/-- The trust logic right after reset: M0 to M7 zero (R405), no alarm since reset (R407), 4 GHz (R5). -/
def Trust.reset : Trust :=
  { meas := Vector.replicate 8 0, bootFail := false, erased := false, halted := false, alarms := 0, lastAlarm := 0, log := [],
    identityKey := false, booted := false, admitted := [], levels := [], clock := 16 }

/-- The machine right after reset: no team placed, no ring, no context, WAYS 0 in every slice (R27), measurement registers zero (R405). A core, slice
or translation unit that a table does not list holds its reset value. -/
def State.reset : State :=
  { teams := [], areas := [], cores := [], mem := [], own := [], poison := [], checks := [], locks := [], cohorts := [], queues := [], unitWait := [], unitRecs := [], puts := [], wptrReads := [], asks := [],
    slices := [], clusters := [], ctxs := [], demand := [], cards := [], orphans := [], rings := [], launches := [], lastCore := none, models := [], requests := [],
    loads := [], weightGiven := [], weightFree := [], demandGiven := [], demandFree := [], notices := [], ports := 0, refusals := 0,
    peers := [], exports := [], gates := [], buffers := [], jobs := [], trust := Trust.reset, inbox := [], waiting := [], sent := [], peerAnswers := [],
    agenda := [], cur := none, fresh := 0, nextId := 0 }

end Sys2Proof.Machine
end

