-- ==== Sys2Proof/Machine/Data.lean ====
section
/-! DEFINITION. The plain operations on the state's data: sparse tables, masks as sets of slots (R108), bytes and numbers (R14), memories in their
canonical form. -/

namespace Sys2Proof.Machine

/-- The entry of a key. -/
def tblGet {α : Type} : Tbl α → Nat → Option α
  | [], _ => none
  | (k, x) :: rest, a => if k = a then some x else tblGet rest a

/-- The table with the key's entry set, keys kept ascending. -/
def tblSet {α : Type} : Tbl α → Nat → α → Tbl α
  | [], a, y => [(a, y)]
  | (k, x) :: rest, a, y => if a < k then (a, y) :: (k, x) :: rest else if a = k then (a, y) :: rest else (k, x) :: tblSet rest a y

/-- The table without the key's entry. -/
def tblErase {α : Type} (t : Tbl α) (a : Nat) : Tbl α := t.filter (fun e => decide (e.1 ≠ a))

/-- The entry with a default. -/
def tblGetD {α : Type} (t : Tbl α) (a : Nat) (d : α) : α := (tblGet t a).getD d

/-- A word table in which an unlisted key reads 0: writing 0 removes the entry. -/
def wordSet (t : Tbl Word) (a : Nat) (w : Word) : Tbl Word := if w = 0 then tblErase t a else tblSet t a w

/-- The word of a key, 0 when unlisted. -/
def wordGet (t : Tbl Word) (a : Nat) : Word := tblGetD t a 0

/-- The last write to each key wins. -/
def wordSets (t : Tbl Word) (ws : List (Nat × Word)) : Tbl Word := ws.foldl (fun u kw => wordSet u kw.1 kw.2) t

/-- The first n slots. -/
def lowMask (n : Nat) : Mask := BitVec.ofNat 1024 (2 ^ n - 1)

/-- The mask of one slot. -/
def slotMask (k : Nat) : Mask := BitVec.ofNat 1024 (2 ^ k)

/-- The mask of a list of slots. -/
def maskOf (l : List Nat) : Mask := l.foldl (fun m k => m ||| slotMask k) 0

/-- The slots of a mask among the first c, ascending. -/
def slotsOf (c : Nat) (m : Mask) : List Nat := (List.range c).filter (fun k => m.getLsbD k)

/-- The lowest slot of a mask. -/
def lowestSlot (c : Nat) (m : Mask) : Option Nat := (slotsOf c m).head?

/-- The mask with slot k set to b. -/
def setSlot (m : Mask) (k : Nat) (b : Bool) : Mask := if b then m ||| slotMask k else m &&& ~~~ slotMask k

/-- A summary word: bit i is set exactly when word i of the mask is nonzero (R108). -/
def summary (m : Mask) : Word :=
  (List.range 32).foldl (fun w i => if (m >>> (32 * i)).setWidth 32 = (0 : Word) then w else w ||| BitVec.ofNat 32 (2 ^ i)) 0

/-- Word i of a mask. -/
def maskWord (m : Mask) (i : Nat) : Word := (m >>> (32 * i)).setWidth 32

/-- Bits hi to lo of a number (R14). -/
def bits (x hi lo : Nat) : Nat := x / 2 ^ lo % 2 ^ (hi + 1 - lo)

/-- Sext (R16): an n-bit pattern as a signed number. -/
def sextInt (n x : Nat) : Int := if x % 2 ^ n < 2 ^ (n - 1) then ((x % 2 ^ n : Nat) : Int) else ((x % 2 ^ n : Nat) : Int) - (2 ^ n : Nat)

/-- An integer modulo 2^n. -/
def wrapNat (n : Nat) (x : Int) : Nat := (x % (2 ^ n : Nat)).toNat

/-- The little-endian bytes of a number (R14). -/
def bytesOf (n x : Nat) : List Byte := (List.range n).map (fun k => BitVec.ofNat 8 (x / 2 ^ (8 * k)))

/-- The number little-endian bytes stand for. -/
def natOfBytes : List Byte → Nat
  | [] => 0
  | b :: rest => b.toNat + 256 * natOfBytes rest

/-- CRC-32C (R362, R408): the Castagnoli polynomial in reflected form, initial value and final XOR all ones. -/
def crcBit (c : Word) : Word := if c.getLsbD 0 then (c >>> 1) ^^^ 0x82F63B78 else c >>> 1
def crcByte (c : Word) (b : Byte) : Word := (List.range 8).foldl (fun c _ => crcBit c) (c ^^^ b.setWidth 32)
def crc32c (bs : List Byte) : Word := (bs.foldl crcByte 0xFFFFFFFF) ^^^ 0xFFFFFFFF

/-- A value of a list of values, by place. -/
def nthD {α : Type} (l : List α) (k : Nat) (d : α) : α := (l[k]?).getD d

/-- The list with place k replaced. -/
def setNth {α : Type} : List α → Nat → α → List α
  | [], _, _ => []
  | _ :: rest, 0, y => y :: rest
  | x :: rest, k + 1, y => x :: setNth rest k y

/-- The list without place k. -/
def dropNth {α : Type} : List α → Nat → List α
  | [], _ => []
  | _ :: rest, 0 => rest
  | x :: rest, k + 1 => x :: dropNth rest k

/-- A memory: bytes by address. An address it does not list reads 0 (log 1). -/
abbrev Memory := List Host.Cell

/-- What an unlisted address reads as (log 1, DESIGN CHOICE: the spec gives memory no contents at reset). -/
def Memory.unlisted : Byte := 0

/-- Every address is at least a, addresses rise strictly, and no entry equals what an unlisted address reads as. -/
def Memory.wfFrom (a : Nat) : Memory → Bool
  | [] => true
  | (k, b) :: rest => decide (a ≤ k) && decide (b ≠ Memory.unlisted) && Memory.wfFrom (k + 1) rest

/-- The canonical form. -/
def Memory.wf (m : Memory) : Bool := Memory.wfFrom 0 m

/-- The byte at an address. -/
def Memory.read : Memory → Nat → Byte
  | [], _ => Memory.unlisted
  | (k, b) :: rest, a => if k = a then b else Memory.read rest a

/-- The memory with one cell listed, addresses kept rising. -/
def Memory.put : Memory → Nat → Byte → Memory
  | [], a, b => [(a, b)]
  | (k, c) :: rest, a, b => if a < k then (a, b) :: (k, c) :: rest else if a = k then (a, b) :: rest else (k, c) :: Memory.put rest a b

/-- The memory with one byte written: a value that an unlisted address reads as leaves no cell. -/
def Memory.write (m : Memory) (a : Nat) (b : Byte) : Memory :=
  if b = Memory.unlisted then m.filter (fun c => decide (c.1 ≠ a)) else Memory.put m a b

/-- The memory with bytes written upward from an address. -/
def Memory.writes (m : Memory) (a : Nat) : List Byte → Memory
  | [] => m
  | b :: rest => Memory.writes (Memory.write m a b) (a + 1) rest

/-- n bytes upward from an address. -/
def Memory.reads (m : Memory) (a n : Nat) : List Byte := (List.range n).map (fun k => Memory.read m (a + k))

/-- The memory with n bytes of value 0 upward from an address. -/
def Memory.zero (m : Memory) (a n : Nat) : Memory := m.filter (fun c => decide (c.1 < a) || decide (a + n ≤ c.1))

/-- The next number the model gives out, and the state that has given it. -/
def takeId (s : State) : Nat × State := (s.nextId, { s with nextId := s.nextId + 1 })

/-- A free word (log 6), and the state that has drawn it. -/
def drawWord (s : State) : Word × State := (Config.freeWord s.fresh, { s with fresh := s.fresh + 1 })

/-- n free words. -/
def drawWords : Nat → State → List Word × State
  | 0, s => ([], s)
  | n + 1, s =>
    let r := drawWord s
    let q := drawWords n r.2
    (r.1 :: q.1, q.2)

/-- A core, at its reset value when the table does not list it. -/
def State.core (s : State) (c : Nat) : Core := tblGetD s.cores c Core.reset
/-- A slice. -/
def State.slice (s : State) (g : Nat) : Slice := tblGetD s.slices g Slice.reset
/-- A translation unit. -/
def State.cluster (s : State) (c : Nat) : Cluster := tblGetD s.clusters c Cluster.reset

def State.setCore (s : State) (c : Nat) (x : Core) : State := { s with cores := tblSet s.cores c x }
def State.setSlice (s : State) (g : Nat) (x : Slice) : State := { s with slices := tblSet s.slices g x }
def State.setCluster (s : State) (c : Nat) (x : Cluster) : State := { s with clusters := tblSet s.clusters c x }
/-- The state with a team replaced. -/
def State.setTeam (s : State) (u : Nat) (t : Team) : State := { s with teams := tblSet s.teams u t }
/-- A team changed where it exists. -/
def State.updTeam (s : State) (u : Nat) (f : Team → Team) : State :=
  match tblGet s.teams u with
  | some t => s.setTeam u (f t)
  | none => s
/-- A core changed. -/
def State.updCore (s : State) (c : Nat) (f : Core → Core) : State := s.setCore c (f (s.core c))

end Sys2Proof.Machine
end

