-- ==== Sys2Proof/Machine/Flags.lean ====
section
/-! DEFINITION. The flag computations: the fields of MODE (R111), the sticky bits of FPST (R128), the completion flags (R114), and the class codes
(R375). -/

namespace Sys2Proof.Machine

/-- MODE.TYPE (R111). -/
def modeType (m : Word) : Nat := bits m.toNat 3 0
def modeRnd (m : Word) : Nat := bits m.toNat 6 4
def modeFtz (m : Word) : Bool := m.getLsbD 7
def modeSat (m : Word) : Bool := m.getLsbD 8
def modeGuard (m : Word) : Nat := bits m.toNat 11 9
def modeGneg (m : Word) : Bool := m.getLsbD 12
def modeBfpw (m : Word) : Nat := bits m.toNat 15 13
def modeTile (m : Word) : Bool := m.getLsbD 16
def modeRing (m : Word) : Nat := bits m.toNat 18 17

/-- The MODE of a placed team (R117): I32, RNE, no guard, BFPW 8, TILE 32 × 32, ring slot 0. -/
def launchMode : Word := 0xE000

/-- A value SETMODE accepts (R112). -/
def modeLegal (m : Word) : Bool :=
  decide (modeType m ≤ 13) && decide (modeRnd m ≤ 4) && decide (modeBfpw m ≠ 0) && decide (bits m.toNat 31 19 = 0) &&
  !(modeGneg m && decide (modeGuard m = 0))

/-- TYPE numbers (R111). -/
def tI32 : Nat := 0
def tN32 : Nat := 1
def tI64 : Nat := 2
def tN64 : Nat := 3
def tI16x2 : Nat := 4
def tN8x4 : Nat := 5
def tBf16 : Nat := 6
def tBf16x2 : Nat := 7
def tFp16x2 : Nat := 8
def tFp32 : Nat := 9
def tFp64 : Nat := 10
def tRs16 : Nat := 11
def tRs32 : Nat := 12
def tRc16 : Nat := 13

def isIntType (t : Nat) : Bool := decide (t ≤ 5)
def isFpType (t : Nat) : Bool := decide (6 ≤ t) && decide (t ≤ 10)
def isRingType (t : Nat) : Bool := decide (11 ≤ t) && decide (t ≤ 13)
/-- Signed integer types (R234). -/
def isSigned (t : Nat) : Bool := decide (t = 0) || decide (t = 2) || decide (t = 4)
/-- Registers of a TYPE's footprint (R119). -/
def typeRegs (t : Nat) : Nat := if t = 2 ∨ t = 3 ∨ t = 10 then 2 else 1
/-- Element width in bits (R119, R234). -/
def elemWidth (t : Nat) : Nat :=
  if t = 2 ∨ t = 3 ∨ t = 10 then 64 else if t = 4 ∨ t = 7 ∨ t = 8 then 16 else if t = 5 then 8
  else if t = 6 ∨ t = 11 ∨ t = 13 then 16 else 32
/-- Number of elements (R119). -/
def elemCount (t : Nat) : Nat := if t = 4 ∨ t = 7 ∨ t = 8 then 2 else if t = 5 then 4 else 1

/-- FPST bits (R128). -/
def fpNV : BitVec 5 := 1
def fpDZ : BitVec 5 := 2
def fpOF : BitVec 5 := 4
def fpUF : BitVec 5 := 8
def fpNX : BitVec 5 := 16

/-- The code of a class (R375). -/
def classCode : TrapClass → Nat
  | .illegalOp => 0x01
  | .illegalClause => 0x02
  | .illegalMode => 0x03
  | .align => 0x04
  | .page => 0x05
  | .invalidAddr => 0x06
  | .permission => 0x07
  | .policy => 0x08
  | .window => 0x09
  | .budget => 0x0A
  | .width => 0x0B
  | .frame => 0x0C
  | .ring => 0x0D
  | .scale => 0x0E
  | .swap => 0x0F
  | .layerAbsent => 0x10
  | .software => 0x11
  | .brk => 0x12
  | .integrity => 0x13
  | .card => 0x14
  | .queue => 0x15
  | .illegalType => 0x16

/-- The count of flag k; READS or OTHERS 15 names none. -/
def flagCount (t : Team) (k : Nat) : Nat := if h : k < 12 then (t.flags[k]).toNat else 0

/-- All twelve flags read zero. -/
def flagsClear (t : Team) : Bool := t.flags.toList.all (fun f => decide (f = 0))

/-- The WAIT field (R171): every flag it names reads zero. -/
def waitClear (t : Team) (w : Nat) : Bool := (List.range 12).all (fun k => decide (w / 2 ^ k % 2 = 0) || decide (flagCount t k = 0))

/-- One more operation counted on the flag (R114). -/
def raiseFlag (t : Team) (k : Nat) : Team := if h : k < 12 then { t with flags := t.flags.set k (t.flags[k] + 1) } else t

/-- One operation fewer. -/
def lowerFlag (t : Team) (k : Nat) : Team := if h : k < 12 then { t with flags := t.flags.set k (t.flags[k] - 1) } else t

/-- Exceptions ORed into FPST (R128). -/
def orFpst (t : Team) (e : BitVec 5) : Team := { t with fpst := t.fpst ||| e }

/-- The masks an instruction reads: those captured when it parked (R377; log 14), else the team's. -/
def masksOf (t : Team) : Vector Mask 8 := (t.captured.map Captured.masks).getD t.masks

/-- The guard of R107 in the first c slots. -/
def guardMask (t : Team) : Mask :=
  let g := modeGuard t.mode
  if h : g < 8 then
    if g = 0 then lowMask t.cfg.capacity
    else if modeGneg t.mode then ~~~ (masksOf t)[g] &&& lowMask t.cfg.capacity else (masksOf t)[g]
  else 0

/-- ACTIVE = EXEC ∧ guard (R107). -/
def activeMask (t : Team) : Mask := t.exec &&& guardMask t

/-- Mask m as the mask instructions and CMP read it: zero at every slot that is not LIVE in the running frame (R191). -/
def readMask (t : Team) (m : Nat) : Mask := if h : m < 8 then (masksOf t)[m] &&& t.frame else 0

/-- Mask m with its LIVE slots written (R191). -/
def writeMask (t : Team) (m : Nat) (x : Mask) : Team :=
  if h : m < 8 then { t with masks := t.masks.set m ((t.masks[m] &&& ~~~ t.frame) ||| (x &&& t.frame)) } else t

end Sys2Proof.Machine
end

