-- ==== Sys2Proof/Machine/Fp.lean ====
section
/-! DEFINITION. Floating point on exact values (R122 to R130): a finite value is a sign, a natural number and a power of two; a result is the exact
value rounded once (R123). Every function works on one element; packed types are split by the callers. -/

namespace Sys2Proof.Machine

/-- A format (R122): exponent bits and fraction bits. -/
structure FpFmt where
  eb : Nat
  fb : Nat
  deriving DecidableEq, Repr

def fmtBf16 : FpFmt := { eb := 8, fb := 7 }
def fmtFp16 : FpFmt := { eb := 5, fb := 10 }
def fmtFp32 : FpFmt := { eb := 8, fb := 23 }
def fmtFp64 : FpFmt := { eb := 11, fb := 52 }

/-- The format of a floating-point TYPE's elements (R119). -/
def fmtOfType (ty : Nat) : FpFmt :=
  if ty = 6 ∨ ty = 7 then fmtBf16 else if ty = 8 then fmtFp16 else if ty = 10 then fmtFp64 else fmtFp32

def FpFmt.bias (f : FpFmt) : Nat := 2 ^ (f.eb - 1) - 1
def FpFmt.width (f : FpFmt) : Nat := 1 + f.eb + f.fb
/-- The exponent of the least subnormal. -/
def FpFmt.qmin (f : FpFmt) : Int := 1 - (f.bias : Int) - (f.fb : Int)
def FpFmt.signBit (f : FpFmt) : Nat := 2 ^ (f.eb + f.fb)
def FpFmt.infBits (f : FpFmt) : Nat := (2 ^ f.eb - 1) * 2 ^ f.fb
/-- The canonical NaN (R122). -/
def FpFmt.nan (f : FpFmt) : Nat := f.infBits + 2 ^ (f.fb - 1)

/-- What an encoding stands for: m × 2^e with a sign when finite. -/
inductive FpVal where
  | nan (signalling : Bool)
  | inf (neg : Bool)
  | fin (neg : Bool) (m : Nat) (e : Int)
  deriving DecidableEq, Repr

/-- The value of an encoding (R122). -/
def fpDecode (f : FpFmt) (x : Nat) : FpVal :=
  let neg := decide (x / f.signBit % 2 = 1)
  let ex := x / 2 ^ f.fb % 2 ^ f.eb
  let fr := x % 2 ^ f.fb
  if ex = 2 ^ f.eb - 1 then
    if fr = 0 then .inf neg else .nan (decide (fr < 2 ^ (f.fb - 1)))
  else if ex = 0 then .fin neg fr f.qmin
  else .fin neg (fr + 2 ^ f.fb) (f.qmin + (ex : Int) - 1)

/-- True of a subnormal encoding. -/
def fpIsSub (f : FpFmt) (x : Nat) : Bool := decide (x / 2 ^ f.fb % 2 ^ f.eb = 0) && decide (x % 2 ^ f.fb ≠ 0)

/-- The encoding with its magnitude dropped. -/
def fpZeroOf (f : FpFmt) (x : Nat) : Nat := if x / f.signBit % 2 = 1 then f.signBit else 0

/-- FTZ on a source element (R124). -/
def fpFlush (ftz : Bool) (f : FpFmt) (x : Nat) : Nat := if ftz && fpIsSub f x then fpZeroOf f x else x

def fpSign (f : FpFmt) (neg : Bool) : Nat := if neg then f.signBit else 0

/-- Whether a magnitude rounds up (R123): where the remainder lies against half a unit (0 exact, 1 below, 2 at, 3 above). -/
def roundsUp (rnd : Nat) (neg odd : Bool) (pos : Nat) : Bool :=
  if rnd = 0 then decide (pos = 3) || (decide (pos = 2) && odd)
  else if rnd = 1 then false
  else if rnd = 2 then decide (pos ≠ 0) && !neg
  else if rnd = 3 then decide (pos ≠ 0) && neg
  else decide (2 ≤ pos)

/-- m × 2^e and a remainder below it (sticky) as a multiple of 2^q: the quotient before rounding and where the remainder lies. -/
def splitAt (m : Nat) (e : Int) (sticky : Bool) (q : Int) : Nat × Nat :=
  if q ≤ e then (m * 2 ^ (e - q).toNat, if sticky then 1 else 0)
  else
    let k := (q - e).toNat
    if Nat.log2 m + 1 < k then (0, if m = 0 && !sticky then 0 else 1)
    else
      let r := m % 2 ^ k
      let half := 2 ^ (k - 1)
      (m / 2 ^ k, if r = 0 then (if sticky then 1 else 0) else if r < half then 1 else if r = half then (if sticky then 3 else 2) else 3)

/-- RoundTo (R16, R123) of a nonzero magnitude: (m × 2^e plus a remainder below the last bit when sticky), m nonzero. The encoding and the FPST bits;
tininess is judged after rounding (R128). -/
def fpRound (f : FpFmt) (rnd : Nat) (neg : Bool) (m : Nat) (e : Int) (sticky : Bool) : Nat × BitVec 5 :=
  let top : Int := e + (Nat.log2 m : Int)
  let emax : Int := (f.bias : Int)
  let big := fpSign f neg + (f.infBits - 1)
  let inf := fpSign f neg + f.infBits
  let ovf := if rnd = 1 ∨ (rnd = 2 ∧ neg) ∨ (rnd = 3 ∧ !neg) then big else inf
  if emax + 1 < top then (ovf, fpOF ||| fpNX)
  else
    let qu : Int := top - (f.fb : Int)
    let q : Int := if qu < f.qmin then f.qmin else qu
    let s := splitAt m e sticky q
    let n := s.1 + (if roundsUp rnd neg (decide (s.1 % 2 = 1)) s.2 then 1 else 0)
    let code := ((q - f.qmin).toNat) * 2 ^ f.fb + n
    if f.infBits ≤ code then (ovf, fpOF ||| fpNX)
    else
      let nx : BitVec 5 := if s.2 = 0 then 0 else fpNX
      let su := splitAt m e sticky qu
      let nu := su.1 + (if roundsUp rnd neg (decide (su.1 % 2 = 1)) su.2 then 1 else 0)
      let tiny := decide (qu < f.qmin) && !(decide (qu + 1 = f.qmin) && decide (nu = 2 ^ (f.fb + 1)))
      let uf : BitVec 5 := if s.2 ≠ 0 ∧ tiny then fpUF else 0
      (fpSign f neg + code, nx ||| uf)

/-- FTZ on a result element (R124, R252). -/
def fpFlushOut (ftz : Bool) (f : FpFmt) (r : Nat × BitVec 5) : Nat × BitVec 5 :=
  if ftz && fpIsSub f r.1 then (fpZeroOf f r.1, r.2 ||| fpUF ||| fpNX) else r

/-- The sign of an exact zero sum of operands of opposite signs (R123). -/
def zeroSumNeg (rnd : Nat) : Bool := decide (rnd = 3)

/-- An exact value rounded to the format; an exact zero takes the sign given. -/
def fpRoundZ (f : FpFmt) (rnd : Nat) (zneg neg : Bool) (m : Nat) (e : Int) (sticky : Bool) : Nat × BitVec 5 :=
  if m = 0 then (fpSign f zneg, 0) else fpRound f rnd neg m e sticky

/-- A finite value as a signed integer at exponent e0, at most its own. -/
def scaled (neg : Bool) (m : Nat) (e e0 : Int) : Int :=
  let v : Int := ((m * 2 ^ (e - e0).toNat : Nat) : Int)
  if neg then -v else v

/-- The exact sum of two finite values as a signed integer and an exponent. -/
def sumExact (n1 : Bool) (m1 : Nat) (e1 : Int) (n2 : Bool) (m2 : Nat) (e2 : Int) : Int × Int :=
  let e0 := if e1 ≤ e2 then e1 else e2
  (scaled n1 m1 e1 e0 + scaled n2 m2 e2 e0, e0)

/-- RoundTo of a signed integer times a power of two; zneg is the sign of an exact zero. -/
def fpRoundInt (f : FpFmt) (rnd : Nat) (zneg : Bool) (v e : Int) : Nat × BitVec 5 :=
  fpRoundZ f rnd zneg (decide (v < 0)) v.natAbs e false

/-- NV when a source is a signalling NaN (R125). -/
def sigNV : FpVal → BitVec 5
  | .nan true => fpNV
  | .nan false => 0
  | .inf _ => 0
  | .fin _ _ _ => 0

def isNan : FpVal → Bool
  | .nan _ => true
  | .inf _ => false
  | .fin _ _ _ => false

/-- FADD on decoded values (R253). -/
def fpAddV (f : FpFmt) (rnd : Nat) (x y : FpVal) : Nat × BitVec 5 :=
  let sv := sigNV x ||| sigNV y
  match x, y with
  | .nan _, _ => (f.nan, sv)
  | _, .nan _ => (f.nan, sv)
  | .inf a, .inf b => if a = b then (fpSign f a + f.infBits, 0) else (f.nan, fpNV)
  | .inf a, .fin _ _ _ => (fpSign f a + f.infBits, 0)
  | .fin _ _ _, .inf b => (fpSign f b + f.infBits, 0)
  | .fin n1 m1 e1, .fin n2 m2 e2 =>
    let s := sumExact n1 m1 e1 n2 m2 e2
    fpRoundInt f rnd (if m1 = 0 ∧ m2 = 0 ∧ n1 = n2 then n1 else zeroSumNeg rnd) s.1 s.2

def fpNegV : FpVal → FpVal
  | .nan s => .nan s
  | .inf n => .inf (!n)
  | .fin n m e => .fin (!n) m e

/-- FMUL on decoded values. -/
def fpMulV (f : FpFmt) (rnd : Nat) (x y : FpVal) : Nat × BitVec 5 :=
  let sv := sigNV x ||| sigNV y
  match x, y with
  | .nan _, _ => (f.nan, sv)
  | _, .nan _ => (f.nan, sv)
  | .inf a, .inf b => (fpSign f (a != b) + f.infBits, 0)
  | .inf a, .fin n m _ => if m = 0 then (f.nan, fpNV) else (fpSign f (a != n) + f.infBits, 0)
  | .fin n m _, .inf b => if m = 0 then (f.nan, fpNV) else (fpSign f (n != b) + f.infBits, 0)
  | .fin n1 m1 e1, .fin n2 m2 e2 => fpRoundZ f rnd (n1 != n2) (n1 != n2) (m1 * m2) (e1 + e2) false

/-- a × b + d rounded once (R253): 0 × ∞ sets NV whatever d holds. -/
def fpFmaV (f : FpFmt) (rnd : Nat) (x y d : FpVal) : Nat × BitVec 5 :=
  let sv := sigNV x ||| sigNV y ||| sigNV d
  let zeroInf := match x, y with
    | .inf _, .fin _ m _ => decide (m = 0)
    | .fin _ m _, .inf _ => decide (m = 0)
    | _, _ => false
  if zeroInf then (f.nan, fpNV ||| sv)
  else
    match x, y, d with
    | .nan _, _, _ => (f.nan, sv)
    | _, .nan _, _ => (f.nan, sv)
    | .fin n1 m1 e1, .fin n2 m2 e2, dv =>
      match dv with
      | .nan _ => (f.nan, sv)
      | .inf n => (fpSign f n + f.infBits, 0)
      | .fin n3 m3 e3 =>
        let s := sumExact (n1 != n2) (m1 * m2) (e1 + e2) n3 m3 e3
        fpRoundInt f rnd (if m1 * m2 = 0 ∧ m3 = 0 ∧ (n1 != n2) = n3 then n3 else zeroSumNeg rnd) s.1 s.2
    | xv, yv, dv =>
      -- an infinite product
      let sx := match xv with
        | .inf n => n
        | .fin n _ _ => n
        | .nan _ => false
      let sy := match yv with
        | .inf n => n
        | .fin n _ _ => n
        | .nan _ => false
      match dv with
      | .nan _ => (f.nan, sv)
      | .inf n => if n = (sx != sy) then (fpSign f n + f.infBits, 0) else (f.nan, fpNV)
      | .fin _ _ _ => (fpSign f (sx != sy) + f.infBits, 0)

/-- The order of two non-NaN values, −0 equal to +0: negative, zero or positive as x is below, equal to or above y. -/
def fpCmpV (x y : FpVal) : Int :=
  match x, y with
  | .inf a, .inf b => if a = b then 0 else if a then -1 else 1
  | .inf a, _ => if a then -1 else 1
  | _, .inf b => if b then 1 else -1
  | .fin n1 m1 e1, .fin n2 m2 e2 =>
    let s := sumExact n1 m1 e1 (!n2) m2 e2
    if s.1 < 0 then -1 else if s.1 = 0 then 0 else 1
  | _, _ => 0

/-- minimumNumber, or maximumNumber when max, of two encodings (R126): the selected encoding, −0 below +0. -/
def fpMinMax (f : FpFmt) (max : Bool) (x y : Nat) : Nat × BitVec 5 :=
  let vx := fpDecode f x
  let vy := fpDecode f y
  let sv := sigNV vx ||| sigNV vy
  match vx, vy with
  | .nan _, .nan _ => (f.nan, sv)
  | .nan _, _ => (y, sv)
  | _, .nan _ => (x, sv)
  | _, _ =>
    let c := fpCmpV vx vy
    let xneg := decide (x / f.signBit % 2 = 1)
    let xbelow := if c = 0 then xneg else decide (c < 0)
    (if xbelow != max then x else y, sv)

/-- The exponent above which FRINT leaves a value alone; a value rounded to an integer under rnd: the integer's magnitude and where the remainder lay. -/
def roundIntegral (rnd : Nat) (neg : Bool) (m : Nat) (e : Int) : Nat × Nat :=
  let s := splitAt m e false 0
  (s.1 + (if roundsUp rnd neg (decide (s.1 % 2 = 1)) s.2 then 1 else 0), s.2)

/-- FRINT (R253). -/
def fpRint (f : FpFmt) (rnd : Nat) (x : Nat) : Nat × BitVec 5 :=
  match fpDecode f x with
  | .nan s => (f.nan, if s then fpNV else 0)
  | .inf _ => (x, 0)
  | .fin neg m e =>
    if 0 ≤ e then (x, 0)
    else
      let r := roundIntegral rnd neg m e
      if r.2 = 0 then (x, 0)
      else if r.1 = 0 then (fpSign f neg, fpNX)
      else ((fpRound f 1 neg r.1 0 false).1, fpNX)

/-- FLDEXP (R253): a × 2^k. -/
def fpLdexp (f : FpFmt) (rnd : Nat) (x : Nat) (k : Int) : Nat × BitVec 5 :=
  match fpDecode f x with
  | .nan s => (f.nan, if s then fpNV else 0)
  | .inf _ => (x, 0)
  | .fin neg m e => fpRoundZ f rnd neg neg m (e + k) false

/-- FCLASS (R254): the one-hot code. -/
def fpClass (f : FpFmt) (x : Nat) : Nat :=
  let neg := decide (x / f.signBit % 2 = 1)
  match fpDecode f x with
  | .nan s => if s then 2 ^ 8 else 2 ^ 9
  | .inf n => if n then 1 else 2 ^ 7
  | .fin _ m _ =>
    if m = 0 then (if neg then 2 ^ 3 else 2 ^ 4)
    else if fpIsSub f x then (if neg then 2 ^ 2 else 2 ^ 5)
    else if neg then 2 ^ 1 else 2 ^ 6

/-- FDIV on decoded values (R255). -/
def fpDivV (f : FpFmt) (rnd : Nat) (x y : FpVal) : Nat × BitVec 5 :=
  let sv := sigNV x ||| sigNV y
  match x, y with
  | .nan _, _ => (f.nan, sv)
  | _, .nan _ => (f.nan, sv)
  | .inf _, .inf _ => (f.nan, fpNV)
  | .inf a, .fin n _ _ => (fpSign f (a != n) + f.infBits, 0)
  | .fin n _ _, .inf b => (fpSign f (n != b), 0)
  | .fin n1 m1 e1, .fin n2 m2 e2 =>
    if m2 = 0 then (if m1 = 0 then (f.nan, fpNV) else (fpSign f (n1 != n2) + f.infBits, fpDZ))
    else if m1 = 0 then (fpSign f (n1 != n2), 0)
    else
      let num := m1 * 2 ^ 120
      fpRound f rnd (n1 != n2) (num / m2) (e1 - e2 - 120) (decide (num % m2 ≠ 0))

/-- The integer square root by bits: the largest r with r × r ≤ n, r below 2^k. -/
def isqrtBits (n : Nat) : Nat → Nat → Nat
  | 0, r => r
  | k + 1, r =>
    let t := r + 2 ^ k
    isqrtBits n k (if t * t ≤ n then t else r)

def isqrt (n : Nat) : Nat := isqrtBits n (Nat.log2 n / 2 + 1) 0

/-- FSQRT (R255). -/
def fpSqrtV (f : FpFmt) (rnd : Nat) (x : FpVal) : Nat × BitVec 5 :=
  match x with
  | .nan s => (f.nan, if s then fpNV else 0)
  | .inf n => if n then (f.nan, fpNV) else (f.infBits, 0)
  | .fin neg m e =>
    if m = 0 then (fpSign f neg, 0)
    else if neg then (f.nan, fpNV)
    else
      let odd := decide (e % 2 ≠ 0)
      let m' := (if odd then m * 2 else m) * 2 ^ 128
      let e' := (if odd then e - 1 else e) - 128
      let r := isqrt m'
      fpRound f rnd false r (e' / 2) (decide (r * r ≠ m'))

/-- FRSQ (R255): 1/√a. -/
def fpRsqV (f : FpFmt) (rnd : Nat) (x : FpVal) : Nat × BitVec 5 :=
  match x with
  | .nan s => (f.nan, if s then fpNV else 0)
  | .inf n => if n then (f.nan, fpNV) else (0, 0)
  | .fin neg m e =>
    if m = 0 then (fpSign f neg + f.infBits, fpDZ)
    else if neg then (f.nan, fpNV)
    else
      let odd := decide (e % 2 ≠ 0)
      let m' := if odd then m * 2 else m
      let e' := if odd then e - 1 else e
      -- 1/√(m' × 2^e') = √(2^240 / m') × 2^(-120 - e'/2)
      let q := 2 ^ 240 / m'
      let r := isqrt q
      fpRound f rnd false r (-120 - e' / 2) (decide (r * r * m' ≠ 2 ^ 240))

/-- A conversion from a finite or special value to an integer range (R127): rounded under rnd, saturated, a NaN giving 0. -/
def fpToInt (rnd : Nat) (lo hi : Int) (x : FpVal) : Int × BitVec 5 :=
  match x with
  | .nan _ => (0, fpNV)
  | .inf n => (if n then lo else hi, fpNV)
  | .fin neg m e =>
    if 80 < e + (Nat.log2 m : Int) ∧ m ≠ 0 then (if neg then lo else hi, fpNV)
    else
      let r := roundIntegral rnd neg m e
      let v : Int := if neg then -(r.1 : Int) else (r.1 : Int)
      if v < lo then (lo, fpNV) else if hi < v then (hi, fpNV) else (v, if r.2 = 0 then 0 else fpNX)

/-- A conversion between formats (R258) of a decoded value. -/
def fpConvV (f : FpFmt) (rnd : Nat) (x : FpVal) : Nat × BitVec 5 :=
  match x with
  | .nan s => (f.nan, if s then fpNV else 0)
  | .inf n => (fpSign f n + f.infBits, 0)
  | .fin n m e => fpRoundZ f rnd n n m e false

/-- A binary operation on two elements under MODE (R252): FTZ on sources and result. -/
def fpBin (op : FpFmt → Nat → FpVal → FpVal → Nat × BitVec 5) (f : FpFmt) (mode : Word) (x y : Nat) : Nat × BitVec 5 :=
  fpFlushOut (modeFtz mode) f
    (op f (modeRnd mode) (fpDecode f (fpFlush (modeFtz mode) f x)) (fpDecode f (fpFlush (modeFtz mode) f y)))

/-- A unary operation on one element under MODE. -/
def fpUn (op : FpFmt → Nat → FpVal → Nat × BitVec 5) (f : FpFmt) (mode : Word) (x : Nat) : Nat × BitVec 5 :=
  fpFlushOut (modeFtz mode) f (op f (modeRnd mode) (fpDecode f (fpFlush (modeFtz mode) f x)))

def fpSubV (f : FpFmt) (rnd : Nat) (x y : FpVal) : Nat × BitVec 5 := fpAddV f rnd x (fpNegV y)

/-- FMA and FNMA on elements under MODE. -/
def fpFmaE (negate : Bool) (f : FpFmt) (mode : Word) (x y d : Nat) : Nat × BitVec 5 :=
  let fl := fpFlush (modeFtz mode) f
  let vx := fpDecode f (fl x)
  fpFlushOut (modeFtz mode) f (fpFmaV f (modeRnd mode) (if negate then fpNegV vx else vx) (fpDecode f (fl y)) (fpDecode f (fl d)))

/-- CMP on floating-point elements after FTZ (R247): the condition's truth and the FPST bits. -/
def fpCompare (code : Nat) (f : FpFmt) (ftz : Bool) (x y : Nat) : Bool × BitVec 5 :=
  let vx := fpDecode f (fpFlush ftz f x)
  let vy := fpDecode f (fpFlush ftz f y)
  let sv := sigNV vx ||| sigNV vy
  if isNan vx || isNan vy then
    (decide (code = 1) || decide (code = 7), if 2 ≤ code ∧ code ≤ 5 then fpNV else sv)
  else
    let c := fpCmpV vx vy
    ((if code = 0 then decide (c = 0) else if code = 1 then decide (c ≠ 0) else if code = 2 then decide (c < 0)
      else if code = 3 then decide (c ≤ 0) else if code = 4 then decide (0 < c) else if code = 5 then decide (0 ≤ c)
      else decide (code = 6)), 0)

/-- The elements of a value under a TYPE (R119): element k. -/
def elemOf (ty k x : Nat) : Nat := x / 2 ^ (elemWidth ty * k) % 2 ^ elemWidth ty

/-- A value from its elements. -/
def joinElems (ty : Nat) (es : List Nat) : Nat :=
  match es with
  | [] => 0
  | e :: rest => e % 2 ^ elemWidth ty + 2 ^ elemWidth ty * joinElems ty rest

/-- A function of elements over a packed value, its FPST bits ORed (R128). -/
def mapElems (ty : Nat) (g : Nat → Nat × BitVec 5) : Nat × BitVec 5 :=
  let rs := (List.range (elemCount ty)).map g
  (joinElems ty (rs.map Prod.fst), rs.foldl (fun acc r => acc ||| r.2) 0)

end Sys2Proof.Machine
end

