-- ==== Sys2Proof/Machine/Operands.lean ====
section
/-! DEFINITION. Operands (R104 to R106, R218 to R220): what a selector reads in a lane, what it writes, and check 3 of R231. A value of n registers is
the number their words make, the lowest register least significant. -/

namespace Sys2Proof.Machine

/-- An operand of an issue: the selector, the registers it covers, whether it is read lane by lane, read across lanes, or written. -/
structure Opnd where
  sel : Sel
  n : Nat
  reads : Bool
  crosses : Bool
  writes : Bool
  deriving DecidableEq, Repr

def src (x : Sel) (n : Nat) : Opnd := { sel := x, n := n, reads := true, crosses := false, writes := false }
def dst (x : Sel) (n : Nat) : Opnd := { sel := x, n := n, reads := false, crosses := false, writes := true }
def srcdst (x : Sel) (n : Nat) : Opnd := { sel := x, n := n, reads := true, crosses := false, writes := true }

/-- A per-lane value (R106): a vector register, a clause temporary, laneid, spanlane or subidx. -/
def isPerLane : Sel → Bool
  | .v _ => true
  | .s _ => false
  | .w _ => true
  | .zero => false
  | .laneid => true
  | .spanlane => true
  | .subidx => true
  | .nwide => false
  | .teamid => false
  | .coreid => false
  | .lit => false
  | .rsvd _ => false

def isSreg : Sel → Bool
  | .s _ => true
  | _ => false

def isVorW : Sel → Bool
  | .v _ => true
  | .w _ => true
  | _ => false

def isW : Sel → Bool
  | .w _ => true
  | _ => false

/-- The registers of an operand are below B and aligned (R104), and a position of four or more registers holds a v or s register (R220). -/
def opndOk (budget : Nat) (o : Opnd) : Bool :=
  match o.sel with
  | .v k => decide (k + o.n ≤ budget) && decide (k % o.n = 0)
  | .s k => decide (k + o.n ≤ 32) && decide (k % o.n = 0)
  | .w k => decide (k % o.n = 0) && decide (k + o.n ≤ 4) && decide (o.n ≤ 2)
  | _ => decide (o.n ≤ 2)

/-- Check 3 of R231 for the operands of an issue: registers, alignment, an s destination with a per-lane source (R106), a w destination of a
long-latency instruction (R104). -/
def opndsOk (budget : Nat) (longLatency : Bool) (os : List Opnd) : Bool :=
  os.all (opndOk budget) &&
  !(longLatency && os.any (fun o => o.writes && isW o.sel)) &&
  !(os.any (fun o => o.writes && isSreg o.sel) && os.any (fun o => (o.reads || o.crosses) && isPerLane o.sel))

/-- The registers an instruction reads, and the poison of its v registers: those captured when it parked (R377; log 14), else the team's. -/
def sregsOf (t : Team) : Vector Word 32 := (t.captured.map Captured.sregs).getD t.sregs
def vregsOf (t : Team) : Tbl Word := (t.captured.map Captured.vregs).getD t.vregs
def poisonOf (t : Team) : List Nat := (t.captured.map Captured.poisonV).getD t.poisonV

/-- What the team keeps for an instruction that is performed again whole: what is kept already, else its registers now. -/
def capture (t : Team) : Captured := { sregs := sregsOf t, vregs := vregsOf t, masks := masksOf t, poisonV := poisonOf t }

/-- The word of a register or special operand in a lane (R105, R218). -/
def readWord (t : Team) (lit : Word) (slot : Nat) : Sel → Word
  | .v k => wordGet (vregsOf t) (192 * slot + k)
  | .s k => if h : k < 32 then (sregsOf t)[k] else 0
  | .w k => wordGet t.wregs (4 * slot + k)
  | .zero => 0
  | .laneid => BitVec.ofNat 32 slot
  | .spanlane => BitVec.ofNat 32 (slot % t.cfg.span)
  | .subidx => BitVec.ofNat 32 (tblGetD t.subidx slot 0)
  | .nwide => BitVec.ofNat 32 t.nwide
  | .teamid => BitVec.ofNat 32 t.cfg.teamid
  | .coreid => BitVec.ofNat 32 t.cfg.core
  | .lit => lit
  | .rsvd _ => 0

/-- The selector k registers on. -/
def Sel.plus (x : Sel) (k : Nat) : Sel :=
  match x with
  | .v n => .v (n + k)
  | .s n => .s (n + k)
  | .w n => .w (n + k)
  | y => y

/-- True of a general register. -/
def isReg (x : Sel) : Bool := isVorW x || isSreg x

/-- n registers upward as one number. -/
def readRegs (t : Team) (lit : Word) (slot : Nat) (x : Sel) : Nat → Nat
  | 0 => 0
  | n + 1 => (readWord t lit slot x).toNat + 2 ^ 32 * readRegs t lit slot (Sel.plus x 1) n

/-- The value of an operand of n registers in a lane: a special operand in a 64-bit position is zero-extended, the literal sign-extended (R220). -/
def readVal (t : Team) (lit : Word) (slot : Nat) (x : Sel) (n : Nat) : Nat :=
  if isReg x then readRegs t lit slot x n
  else if x = .lit ∧ n = 2 then wrapNat 64 (sextInt 32 lit.toNat)
  else (readWord t lit slot x).toNat

/-- One register of a lane written: a v register's poison is cleared (R385). -/
def writeWord (t : Team) (slot : Nat) (x : Sel) (w : Word) : Team :=
  match x with
  | .v k => { t with vregs := wordSet t.vregs (192 * slot + k) w, poisonV := t.poisonV.filter (fun p => decide (p ≠ 192 * slot + k)) }
  | .s k => if h : k < 32 then { t with sregs := t.sregs.set k w } else t
  | .w k => { t with wregs := wordSet t.wregs (4 * slot + k) w }
  | _ => t

/-- n registers upward written with a number's words. -/
def writeVal (t : Team) (slot : Nat) (x : Sel) : Nat → Nat → Team
  | 0, _ => t
  | n + 1, v => writeVal (writeWord t slot x (BitVec.ofNat 32 v)) slot (Sel.plus x 1) n (v / 2 ^ 32)

/-- The lanes an issue writes: the slots of a mask, or one act for an s destination (R106), taken at slot 0. -/
def lanesFor (t : Team) (d : Sel) (m : Mask) : List Nat := if isSreg d then [0] else slotsOf t.cfg.capacity m

/-- Every lane's result written, each computed from the team before any is written (R233), and the exceptions ORed into FPST (R128). -/
def writeLanes (t : Team) (d : Sel) (n : Nat) (lanes : List Nat) (f : Nat → Nat × BitVec 5) : Team :=
  lanes.foldl (fun u k => orFpst (writeVal u k d n (f k).1) (f k).2) t

/-- The slots of a mask whose source registers hold a poisoned word (R385). -/
def poisonedLanes (t : Team) (os : List Opnd) (m : Mask) : Mask :=
  if poisonOf t = [] then 0
  else
    maskOf ((slotsOf t.cfg.capacity m).filter (fun k => os.any (fun o =>
      match o.sel with
      | .v r => o.reads && (List.range o.n).any (fun i => (poisonOf t).contains (192 * k + r + i))
      | _ => false)))

end Sys2Proof.Machine
end

