-- ==== Sys2Proof/Machine/Home.lean ====
section
/-! DEFINITION. The home slice (R18 to R44): where an address lives, word ownership and recalls, the unit objects' records as memory, atomic batches,
and the outbound queues of the cores. Physical words are numbered by address / 4 and lines by address / 128. -/

namespace Sys2Proof.Machine

/-- A populated DRAM address (R20, R21). -/
def isDram (pa : Nat) : Bool := decide (pa < 0x8000000000) && decide (pa % 0x2000000000 < 0x1800000000)

/-- A slice-window address (R20, R23). -/
def isWindowPa (pa : Nat) : Bool := decide (0x10000000000 ≤ pa) && decide (pa < 0x10100000000)

/-- The channel of a DRAM address within its die (R22). -/
def channelOf (pa : Nat) : Nat := (bits pa 19 13).xor (bits pa 26 20)

/-- The byte address of a DRAM address within its channel (R22). -/
def localOf (pa : Nat) : Nat := bits pa 36 20 * 8192 + bits pa 12 0

/-- The DRAM address at a place of a channel: die, channel, byte address in the channel (R22). -/
def dramAddress (die chan loc : Nat) : Nat := 2 ^ 37 * die + 2 ^ 20 * (loc / 8192) + 8192 * chan.xor (loc / 8192 % 128) + loc % 8192

/-- The home slice of an address, by its package number (R22, R23). -/
def homeSlice (pa : Nat) : Nat :=
  if isWindowPa pa then (pa - 0x10000000000) / 0x1000000
  else bits pa 38 37 * 64 + channelOf pa / 2

/-- Bytes of a slice's window (R27). -/
def windowSize (ways : Nat) : Nat := ways * 0x400000

/-- A slice-window address outside its window (R30). -/
def beyondWindow (s : State) (pa : Nat) : Bool :=
  isWindowPa pa && decide (windowSize (s.slice (homeSlice pa)).ways ≤ pa % 0x1000000)

/-- Waiting messages that satisfy p come back to the head of the inbox, to be judged again. -/
def requeue (s : State) (p : Waiting → Bool) : State :=
  { s with inbox := (s.waiting.filter p).map Waiting.msg ++ s.inbox, waiting := s.waiting.filter (fun w => !p w) }

/-- A change of a slice's window ends (R27 to R29): BUSY clears and GEN counts; SLICE_WINDOW messages are judged again. -/
def endChange (s : State) (g : Nat) : State :=
  let x := s.slice g
  requeue (s.setSlice g { x with busy := false, gen := x.gen + 1 }) (fun w => decide (w.msg.op = 5) && decide (w.msg.sub = 11))

/-- An address of the bytes that a raise in progress adds to a window: an access to it waits until BUSY clears (R28). -/
def windowWaits (s : State) (pa : Nat) : Bool :=
  let x := s.slice (homeSlice pa)
  isWindowPa pa && x.busy && decide (windowSize x.old ≤ pa % 0x1000000) && decide (pa % 0x1000000 < windowSize x.ways)

/-- An access that waits for a raise: the raise ends first (R28; log 5). -/
def settleWindow (s : State) (pa : Nat) : State := if windowWaits s pa then endChange s (homeSlice pa) else s

/-- Byte k of a line's data. -/
def lineByte (d : LineData) (k : Nat) : Byte := (d >>> (8 * k)).setWidth 8

/-- The data with byte k replaced. -/
def setLineByte (d : LineData) (k : Nat) (b : Byte) : LineData :=
  (d &&& ~~~ ((BitVec.ofNat 1024 255) <<< (8 * k))) ||| ((b.setWidth 1024) <<< (8 * k))

/-- A run of n ones from bit k. -/
def runMask (w k n : Nat) : BitVec w := (BitVec.ofNat w (2 ^ n - 1)) <<< k

/-- The first entry that satisfies p, with its place. -/
def findIx {α : Type} (p : α → Bool) : List α → Option (Nat × α)
  | [] => none
  | x :: rest =>
    if p x then some (0, x)
    else match findIx p rest with
      | some (k, y) => some (k + 1, y)
      | none => none

/-- The first-level line that holds a physical line (at most one, R54). -/
def l1ByPline (c : Core) (p : Nat) : Option (Nat × L1Line) := findIx (fun l => decide (l.pline = p)) c.l1

/-- The first-level line with a tag. -/
def l1ByTag (c : Core) (v ctx : Nat) : Option (Nat × L1Line) := findIx (fun l => decide (l.vline = v) && decide (l.ctx = ctx)) c.l1

def setL1 (s : State) (c k : Nat) (l : L1Line) : State := s.updCore c (fun x => { x with l1 := setNth x.l1 k l })

/-- The bytes of a line's dirty word merged over a memory (R33). -/
def mergeDirty (m : Memory) (l : L1Line) (wi : Nat) : Memory :=
  (List.range 4).foldl (fun m k =>
    if l.dirty.getLsbD (4 * wi + k) then Memory.write m (128 * l.pline + 4 * wi + k) (lineByte l.data (4 * wi + k)) else m) m

/-! ## Check values (R408 to R410) -/

/-- The CRC-32C of a line's bytes at home, in ascending order. -/
def lineCrc (s : State) (p : Nat) : Word := crc32c (Memory.reads s.mem (128 * p) 128)

/-- Some word of a line is owned (R31). -/
def lineOwned (s : State) (p : Nat) : Bool := (List.range 32).any (fun i => (tblGet s.own (32 * p + i)).isSome)

/-- The check value that a line carries (R408): none while any word of it is owned (R409). -/
def lineCheck (s : State) (p : Nat) : Option Word := if lineOwned s p then none else some ((tblGet s.checks p).getD (lineCrc s p))

/-- A line's value does not match its bytes (R410). -/
def mismatched (s : State) (p : Nat) : Bool :=
  match tblGet s.checks p with
  | none => false
  | some v => !lineOwned s p && decide (v ≠ lineCrc s p)

/-- A line poisoned (R19), or one whose value does not match its bytes, which the crossing to any reader turns into poison (R410). -/
def linePoisoned (s : State) (p : Nat) : Bool := s.poison.contains p || mismatched s p

/-- The lines that n bytes from an address touch. -/
def linesOf (pa n : Nat) : List Nat := if n = 0 then [] else (List.range ((pa + n - 1) / 128 - pa / 128 + 1)).map (fun k => pa / 128 + k)

/-- The values of a range's lines formed afresh from their bytes, in the step that wrote them (R409). -/
def renewChecks (s : State) (pa n : Nat) : State := { s with checks := s.checks.filter (fun c => !(linesOf pa n).contains c.1) }

/-- A value that came with a line's data (R409). -/
def carryCheck (s : State) (p : Nat) (v : Word) : State :=
  { s with checks := if v = lineCrc s p then tblErase s.checks p else tblSet s.checks p v }

/-- The crossing of a range's lines: a mismatch poisons its line (R410). -/
def crossLines (s : State) (pa n : Nat) : State :=
  if (linesOf pa n).any (mismatched s) then
    { s with poison := s.poison ++ (linesOf pa n).filter (fun p => mismatched s p && !s.poison.contains p) }
  else s

/-! ## Recalls (R31 to R34) -/

/-- A recall of a word (R33), or a pull, in which the owner keeps a clean valid copy (R34). The line's value is formed in the step that writes the word
back, and from the time its last owned word returns it has one (R409). -/
def recallWord (s : State) (pull : Bool) (w : Nat) : State :=
  match tblGet s.own w with
  | none => s
  | some c =>
    let s1 := { s with own := tblErase s.own w }
    match l1ByPline (s.core c) (w / 32) with
    | none => s1
    | some (k, l) =>
      let wi := w % 32
      let b := runMask 128 (4 * wi) 4
      let s2 := { s1 with
        mem := mergeDirty s1.mem l wi,
        checks := tblErase s1.checks (w / 32),
        poison := if l.bad.getLsbD wi && !(s1.poison.contains l.pline) then l.pline :: s1.poison else s1.poison }
      setL1 s2 c k { l with
        dirty := l.dirty &&& ~~~ b, valid := if pull then l.valid else l.valid &&& ~~~ b,
        owned := l.owned &&& ~~~ runMask 32 wi 1, bad := l.bad &&& ~~~ runMask 32 wi 1 }

/-- The words that n bytes from an address touch. -/
def wordsOf (pa n : Nat) : List Nat := if n = 0 then [] else (List.range ((pa + n - 1) / 4 - pa / 4 + 1)).map (fun k => pa / 4 + k)

/-- An access to a range at home: every owned word of it recalled (R34), then its lines' values checked (R410). -/
def recallRange (s : State) (pull : Bool) (pa n : Nat) : State := crossLines ((wordsOf pa n).foldl (fun s w => recallWord s pull w) s) pa n

/-- Some line of the range is poisoned (R19, R410). -/
def poisonedRange (s : State) (pa n : Nat) : Bool := (linesOf pa n).any (linePoisoned s)

/-- A range at home made ready for an access: its owned words recalled, or pulled, and whether a line of it is poisoned then, be it by a bad word that
this recall brought home (R19, R34, R385). -/
def recallJudged (s : State) (pull : Bool) (pa n : Nat) : Bool × State :=
  let s1 := recallRange s pull pa n
  (poisonedRange s1 pa n, s1)

/-! ## Unit objects as memory (R42, R43) -/

/-- The 8 bytes of a layer flag (R368). -/
def flagBytes (l : Layer) : List Byte := bytesOf 8 (l.state + 2 ^ 16 * (if 65535 < l.pins then 65535 else l.pins) + 2 ^ 32 * l.loads.toNat)

/-- The layer whose flag lies at a physical address: model slot and layer. -/
def flagAt (s : State) (pa : Nat) : Option (Nat × Nat × Layer) :=
  s.models.findSome? (fun km => match findIx (fun p => decide (p = pa)) km.2.flagsPa with
    | some (k, _) => (km.2.layers[k]?).map (fun l => (km.1, k, l))
    | none => none)

/-- A unit object that covers an address and has a record: its base, its bytes, and whether it is idle (R43). -/
def unitObject (s : State) (a : Nat) : Option (Nat × List Byte × Bool) :=
  match tblGet s.locks (a - a % 8) with
  | some l => some (a - a % 8, bytesOf 8 ((if l.holder.isSome then 1 else 0) + l.waiters.length), l.holder.isNone && l.waiters.isEmpty)
  | none =>
    match tblGet s.cohorts (a - a % 64) with
    | some c => some (a - a % 64, bytesOf 64 (c.members.toNat + 2 ^ 32 * c.arrived.toNat + 2 ^ 64 * c.gen.toNat), decide (c.members = 0))
    | none =>
      match tblGet s.queues (a - a % 64) with
      | some q =>
        some (a - a % 64,
          bytesOf 64 (0xFEED0001 + 2 ^ 32 * q.cap + 2 ^ 64 * q.base + 2 ^ 128 * q.head.toNat + 2 ^ 160 * q.tail.toNat
            + 2 ^ 192 * q.requests.length),
          decide (q.head = q.tail) && q.requests.isEmpty)
      | none =>
        match flagAt s (a - a % 8) with
        | some (_, _, l) => some (a - a % 8, flagBytes l, false)
        | none => none

/-- A byte as a load at home returns it: the unit's record where the byte lies in a unit object (R43). -/
def homeByte (s : State) (a : Nat) : Byte :=
  match unitObject s a with
  | some (b, bs, _) => nthD bs (a - b) 0
  | none => Memory.read s.mem a

/-- n bytes at home, the owned words already recalled. -/
def homeBytes (s : State) (pa n : Nat) : List Byte := (List.range n).map (fun k => homeByte s (pa + k))

/-- A read at home by an atomic, a walk or an engine (R34, R59): owned words recalled, then the bytes as a number. -/
def homeRead (s : State) (pa n : Nat) : Nat × State :=
  let s1 := recallRange s false pa n
  (natOfBytes (homeBytes s1 pa n), s1)

/-- A load served at home (R34, R65): owned words pulled, their owners keeping clean copies, then the bytes as a number. -/
def homeLoad (s : State) (pa n : Nat) : Nat × State :=
  let s1 := recallRange s true pa n
  (natOfBytes (homeBytes s1 pa n), s1)

/-- n bytes taken at home by an access to which a poisoned line gives nothing (R19, R276): none there. -/
def homeTake (s : State) (pull : Bool) (pa n : Nat) : Option (List Byte) × State :=
  let r := recallJudged s pull pa n
  (if r.1 then none else some (homeBytes r.2 pa n), r.2)

/-- The record of an idle object written to its memory and dropped (R43). -/
def dropIdle (s : State) (a : Nat) : State :=
  match unitObject s a with
  | some (b, bs, true) =>
    renewChecks { s with
      mem := Memory.writes s.mem b bs, locks := tblErase s.locks b, cohorts := tblErase s.cohorts b, queues := tblErase s.queues b,
      unitRecs := s.unitRecs.filter (fun r => decide (r.2 ≠ b)) } b bs.length
  | _ => s

/-- True of a byte whose write is discarded (R43). -/
def discarded (s : State) (a : Nat) : Bool :=
  match unitObject s a with
  | some (_, _, idle) => !idle
  | none => false

/-- Bytes written at home, the owned words already recalled: bytes in words of objects in use are discarded and the write counted, records of idle
objects are dropped, poison goes when a whole line is written, and the lines' values are formed in the same step (R19, R43, R409). -/
def homeWriteBytes (s : State) (pa : Nat) (bs : List Byte) : State :=
  let n := bs.length
  let s1 := (List.range n).foldl (fun s k => dropIdle s (pa + k)) s
  let drop := (List.range n).any (fun k => discarded s1 (pa + k))
  let mem := (List.range n).foldl (fun m k => if discarded s1 (pa + k) then m else Memory.write m (pa + k) (nthD bs k 0)) s1.mem
  let s2 := renewChecks { s1 with
    mem := mem,
    poison := s1.poison.filter (fun l => !(decide (pa ≤ 128 * l) && decide (128 * l + 128 ≤ pa + n))) } pa n
  if drop then
    let g := homeSlice pa
    s2.setSlice g { s2.slice g with discards := (s2.slice g).discards + 1 }
  else s2

/-- A write at home (R34, R90): owned words recalled, then the bytes written. -/
def homeWrite (s : State) (pa : Nat) (bs : List Byte) : State := homeWriteBytes (recallRange s false pa bs.length) pa bs

/-! ## Atomics (R39 to R41, R283 to R287) -/

/-- An element of an integer atomic's minimum or maximum. -/
def atomPick (signed : Bool) (w : Nat) (max : Bool) (x y : Nat) : Nat :=
  let le := if signed then decide (sextInt w x ≤ sextInt w y) else decide (x ≤ y)
  if le != max then x else y

/-- The new memory element (R284, R286): op is the opcode of the returning form, x the old element, y the operand, cmp the compare value. Integer
results wrap; FP results round to nearest even and keep subnormals (R41). -/
def atomOp (op ty size x y cmp : Nat) : Nat :=
  let w := 8 * size
  let f := fmtOfType ty
  if op = 0xA0 then (x + y) % 2 ^ w
  else if op = 0xA1 then atomPick (isSigned ty) w false x y
  else if op = 0xA2 then atomPick (isSigned ty) w true x y
  else if op = 0xA3 then x &&& y
  else if op = 0xA4 then x ||| y
  else if op = 0xA5 then x ^^^ y
  else if op = 0xA6 then y
  else if op = 0xA7 ∨ op = 0xA8 then (if x = cmp then y else x)
  else if op = 0xA9 then (mapElems ty (fun k => fpAddV f 0 (fpDecode f (elemOf ty k x)) (fpDecode f (elemOf ty k y)))).1
  else if op = 0xAA then (mapElems ty (fun k => fpMinMax f false (elemOf ty k x) (elemOf ty k y))).1
  else (mapElems ty (fun k => fpMinMax f true (elemOf ty k x) (elemOf ty k y))).1

/-- The register writes a value makes in a lane. -/
def regWrites (slot : Nat) (d : Sel) : Nat → Nat → List (Nat × Nat × Word) × List (Nat × Word)
  | 0, _ => ([], [])
  | n + 1, v =>
    let r := regWrites slot (Sel.plus d 1) n (v / 2 ^ 32)
    match d with
    | .v k => ((slot, k, BitVec.ofNat 32 v) :: r.1, r.2)
    | .s k => (r.1, (k, BitVec.ofNat 32 v) :: r.2)
    | _ => r

/-- A late operation changed. -/
def updLate (t : Team) (id : Nat) (f : LateOp → LateOp) : Team :=
  { t with late := t.late.map (fun o => if o.id = id then f o else o) }

/-- A lane's late value bound (R275): written when the operation completes. -/
def bindLate (t : Team) (id slot : Nat) (d : Sel) (n v : Nat) : Team :=
  let w := regWrites slot d n v
  updLate t id (fun o => { o with vwrites := o.vwrites ++ w.1, swrites := o.swrites ++ w.2 })

/-- A lane of a late operation that read a poisoned line (R276). -/
def poisonLate (t : Team) (id slot va : Nat) : Team := updLate t id (fun o => { o with poisoned := o.poisoned ++ [(slot, va)] })

/-- One of a late operation's batches served. -/
def batchServed (t : Team) (id : Nat) : Team :=
  updLate t id (fun o => { o with wait := match o.wait with
    | .batches n => if n ≤ 1 then .none else .batches (n - 1)
    | w => w })

/-- The issuing core's own copy of the words of an access is invalidated, its dirty bytes written back first (R64). -/
def invalidateOwn (s : State) (c pa n : Nat) : State :=
  let s1 := (wordsOf pa n).foldl (fun s w => if tblGet s.own w = some c then recallWord s false w else s) s
  match l1ByPline (s1.core c) (pa / 128) with
  | none => s1
  | some (k, l) =>
    let b := (wordsOf pa n).foldl (fun m w => if w / 32 = l.pline then m ||| runMask 128 (4 * (w % 32)) 4 else m) (0 : BitVec 128)
    setL1 s1 c k { l with valid := l.valid &&& ~~~ (b &&& ~~~ l.dirty) }

/-- A team's INTEGRITY fault held for the waiting point of R276. -/
def holdIntegrity (s : State) (u : Nat) (flag : Option Nat) (store : Bool) (slot va : Nat) : State :=
  s.updTeam u (fun t => { t with
    integrity := t.integrity ++ [{ flag := flag, rel := store, acq := !store, slot := slot, va := va, deferred := false }] })

/-- One lane of a batch applied at home (R39): the old value returns, or a poisoned line leaves everything unchanged (R276). A peer's lane runs at the
remote home, whose old value is free (log 9). DESIGN CHOICE (log 79): an ACAS or ACASW whose comparison fails writes the old value back, so that in a
unit object in use it counts as a write that R43 discards, where the spec does not say whether it does. -/
def serveAtomLane (u c : Nat) (b : Batch) (s : State) (a : AtomLane) : State :=
  if b.peer then
    let q := drawWords b.regs s
    match b.late with
    | some id => q.2.updTeam u (fun t => bindLate t id a.slot b.dst b.regs (natOfBytes (q.1.flatMap (fun w => bytesOf 4 w.toNat)) % 2 ^ (8 * b.size)))
    | none => q.2
  else
    let r := homeTake (invalidateOwn s c a.pa b.size) false a.pa b.size
    match r.1, b.late with
    | none, some id => r.2.updTeam u (fun t => poisonLate t id a.slot a.va)
    | none, none => holdIntegrity r.2 u none true a.slot a.va
    | some bs, late =>
      let x := natOfBytes bs
      let s2 := homeWrite r.2 a.pa (bytesOf b.size (atomOp b.op b.ty b.size x a.y a.cmp))
      match late with
      | some id => s2.updTeam u (fun t => bindLate t id a.slot b.dst b.regs x)
      | none => s2

/-- A batch applied in ascending lane order (R40). -/
def serveBatch (s : State) (u c : Nat) (b : Batch) : State :=
  let s1 := b.lanes.foldl (serveAtomLane u c b) s
  match b.late with
  | some id => s1.updTeam u (fun t => batchServed t id)
  | none => s1

/-! ## Registrations (R32) -/

/-- Bytes of a word of a first-level line taken from home: those that keep does not hold. -/
def takeHome (s : State) (c w : Nat) (keep : L1Line → BitVec 128) : State :=
  match l1ByPline (s.core c) (w / 32) with
  | none => s
  | some (k, l) =>
    let wi := w % 32
    let l2 := (List.range 4).foldl (fun (l : L1Line) i =>
      if (keep l).getLsbD (4 * wi + i) then l
      else { l with data := setLineByte l.data (4 * wi + i) (homeByte s (4 * w + i)), valid := l.valid ||| runMask 128 (4 * wi + i) 1 }) l
    setL1 s c k l2

/-- A fill of a word's missing bytes, never over a valid byte (R48). -/
def fillWord (s : State) (c w : Nat) : State := takeHome s c w L1Line.valid

/-- The word of a first-level line made whole with the value the acknowledgment carries (R32): every byte the core has not written itself, a clean
byte it held included, so that no byte of a word it owns stays stale (R199; log 62). -/
def mergeAck (s : State) (c w : Nat) : State := takeHome s c w L1Line.dirty

/-- The dirty bytes of a word dropped: a store that has no effect (R43, R276). -/
def dropStore (s : State) (c w : Nat) : State :=
  match l1ByPline (s.core c) (w / 32) with
  | none => s
  | some (k, l) =>
    let b := runMask 128 (4 * (w % 32)) 4
    setL1 s c k { l with dirty := l.dirty &&& ~~~ b, valid := l.valid &&& ~~~ b }

/-- The bytes of a line that an entry's store writes. -/
def storedBytes (e : OutEntry) (p : Nat) : BitVec 128 :=
  match e.work with
  | .homeWrite pa bs => if pa / 128 = p then runMask 128 (pa % 128) bs.length else 0
  | .registration w m => if w / 32 = p then (m.setWidth 128) <<< (4 * (w % 32)) else 0
  | _ => 0

/-- One store covers a line: the union of its entries in the queue is all 128 bytes (R19, R276). -/
def storeCovers (es : List OutEntry) (instr p : Nat) : Bool :=
  decide (es.foldl (fun m e => if e.instr = instr then m ||| storedBytes e p else m) (0 : BitVec 128) = BitVec.allOnes 128)

def addAck (s : State) (c u w : Nat) : State := s.updCore c (fun x => { x with acks := x.acks ++ [{ team := u, word := w }] })

/-- A write of which a byte has been discarded counts once in the slice's discard counter (R43): the rest of its entries are marked. -/
def discardStore (s : State) (c : Nat) (e : OutEntry) (w : Nat) : State :=
  if e.counted then s
  else
    let g := homeSlice (4 * w)
    (s.setSlice g { s.slice g with discards := (s.slice g).discards + 1 }).updCore c (fun x => { x with
      out := x.out.map (fun o => if o.instr = e.instr ∧ o.slot = e.slot ∧ (storedBytes o (w / 32) ≠ 0) then { o with counted := true } else o) })

/-- The words of a line that other cores own come home before a store of the core is served there: the word it writes, or, for a store that covers the
line, all of them (R32). -/
def recallOthers (s : State) (c : Nat) (ws : List Nat) : State :=
  ws.foldl (fun s w => if tblGet s.own w = some c then s else recallWord s false w) s

/-- The words of a line. -/
def lineWords (p : Nat) : List Nat := (List.range 32).map (fun i => 32 * p + i)

/-- A registration served at home (R32), es being the queue it came from: a word owned elsewhere is recalled first; a line poisoned then that the store
does not cover leaves the store without effect (R276); a word of a unit object in use discards it (R43). While a word is owned the line has no check
value (R409). The acknowledgment goes back to the core. -/
def serveRegistration (s : State) (c : Nat) (es : List OutEntry) (e : OutEntry) (w : Nat) : State :=
  let p := w / 32
  let covers := storeCovers es e.instr p
  let s0 := crossLines (recallOthers s c (if covers then lineWords p else [w])) (128 * p) 128
  if linePoisoned s0 p && !covers then addAck (holdIntegrity (dropStore s0 c w) e.team none true e.slot e.va) c e.team w
  else
    let s1 := dropIdle { s0 with poison := s0.poison.filter (fun l => decide (l ≠ p)) } (4 * w)
    if discarded s1 (4 * w) then addAck (dropStore (discardStore s1 c e w) c w) c e.team w
    else
      let s2 := mergeAck s1 c w
      addAck { s2 with own := tblSet s2.own w c, checks := tblErase s2.checks p } c e.team w

/-- An acknowledgment reaches its core (R49): the owned bit is set if the word is still the core's. -/
def serveAck (s : State) (c : Nat) (a : Ack) : State :=
  if tblGet s.own a.word = some c then
    match l1ByPline (s.core c) (a.word / 32) with
    | some (k, l) => setL1 s c k { l with owned := l.owned ||| runMask 32 (a.word % 32) 1 }
    | none => s
  else s

/-! ## The outbound queue -/

/-- The physical line an entry goes to. -/
def entryLine (e : OutEntry) : Nat :=
  match e.work with
  | .registration w _ => w / 32
  | .homeWrite pa _ => pa / 128
  | .peerWrite pa _ => 2 ^ 48 + pa / 128
  | .batch b => (if b.peer then 2 ^ 48 else 0) + (match b.lanes with
    | a :: _ => a.pa / 128
    | [] => 0)

/-- An entry's work done at its home. A DIRECT or STREAM store that covers its line brings all of it home first, and the poison goes (R19, R276). -/
def serveWork (s : State) (c : Nat) (es : List OutEntry) (e : OutEntry) : State :=
  match e.work with
  | .registration w _ => serveRegistration s c es e w
  | .homeWrite pa bs =>
    let covers := storeCovers es e.instr (pa / 128)
    let r := recallJudged (invalidateOwn s c pa bs.length) false (if covers then pa / 128 * 128 else pa) (if covers then 128 else bs.length)
    if r.1 && !covers then holdIntegrity r.2 e.team none true e.slot e.va
    else homeWriteBytes { r.2 with poison := r.2.poison.filter (fun l => decide (l ≠ pa / 128)) } pa bs
  | .peerWrite _ _ => s
  | .batch b => serveBatch s e.team c b

/-- The entries of one store at one line served, es being the queue as the first of them found it. -/
def serveStore (c instr p : Nat) (es : List OutEntry) : Nat → State → State
  | 0, s => s
  | fuel + 1, s =>
    match findIx (fun x => decide (x.instr = instr) && decide (entryLine x = p)) (s.core c).out with
    | none => s
    | some (j, x) => serveStore c instr p es fuel (serveWork (s.updCore c (fun y => { y with out := dropNth y.out j })) c es x)

/-- Entry j of a core's queue, the first of its line, served; a store that covers its line is served whole, so that the line loses its poison only as
all of it is written (R19). -/
def serveFirst (s : State) (c j : Nat) (x : OutEntry) : State :=
  let es := (s.core c).out
  if storeCovers es x.instr (entryLine x) then serveStore c x.instr (entryLine x) es es.length s
  else serveWork (s.updCore c (fun y => { y with out := dropNth y.out j })) c es x

/-- Entry k of a core's outbound queue served, with every earlier entry of its line before it: work from one core to one address reaches home in the
order the core issued it (R35, R212). -/
def serveEntries (c : Nat) : Nat → Nat → State → State
  | 0, _, s => s
  | fuel + 1, k, s =>
    let es := (s.core c).out
    match es[k]? with
    | none => s
    | some e =>
      match findIx (fun x => decide (entryLine x = entryLine e)) es with
      | none => s
      | some (j, x) =>
        let s1 := serveFirst s c j x
        if j = k ∨ (x.instr = e.instr ∧ storeCovers es x.instr (entryLine x) = true) then s1
        else serveEntries c fuel (k - (es.length - (s1.core c).out.length)) s1

def serveEntry (s : State) (c k : Nat) : State := serveEntries c ((s.core c).out.length) k s

/-- Every entry that satisfies p served, oldest first. -/
def drainWhere (c : Nat) (p : OutEntry → Bool) : Nat → State → State
  | 0, s => s
  | fuel + 1, s =>
    match findIx p (s.core c).out with
    | none => s
    | some (k, _) => drainWhere c p fuel (serveEntry s c k)

/-- The acknowledgments that satisfy p taken. -/
def drainAcks (s : State) (c : Nat) (p : Ack → Bool) : State :=
  let as := (s.core c).acks.filter p
  as.foldl (fun s a => serveAck s c a) (s.updCore c (fun x => { x with acks := x.acks.filter (fun a => !p a) }))

/-- Everything a core has under way for a physical line reaches home. -/
def drainLine (s : State) (c p : Nat) : State :=
  drainAcks (drainWhere c (fun e => decide (entryLine e = p)) (s.core c).out.length s) c (fun a => decide (a.word / 32 = p))

/-- The cores whose queues can hold a team's work: its own, or its cluster's under fusion (R52). -/
def teamCores (cfg : TeamCfg) : List Nat := if cfg.fuse then (List.range 8).map (fun k => cfg.core / 8 * 8 + k) else [cfg.core]

/-- Everything a team has sent reaches home and is acknowledged: what RELEASE waits for (R201). -/
def drainTeam (s : State) (u : Nat) (cfg : TeamCfg) : State :=
  (teamCores cfg).foldl (fun s c =>
    drainAcks (drainWhere c (fun e => decide (e.team = u)) (s.core c).out.length s) c (fun a => decide (a.team = u))) s

/-- A team has nothing outbound and no acknowledgment outstanding. -/
def teamDrained (s : State) (u : Nat) (cfg : TeamCfg) : Bool :=
  (teamCores cfg).all (fun c => (s.core c).out.all (fun e => decide (e.team ≠ u)) && (s.core c).acks.all (fun a => decide (a.team ≠ u)))

/-! ## The first level -/

/-- A line's tag recorded in the victim tag array, whose oldest entry of 512 it replaces (R357). -/
def noteVictim (vs : List Victim) (l : L1Line) : List Victim :=
  (if vs.length < 512 then vs else vs.drop 1) ++ [{ vline := l.vline, ctx := l.ctx, team := l.team }]

/-- A line leaves the first level (R35, R357): its work drained, its owned dirty words written back, its tag recorded in the victim tag array. -/
def evictLine (s : State) (c k : Nat) : State :=
  match (s.core c).l1[k]? with
  | none => s
  | some l =>
    let s1 := drainLine s c l.pline
    let s2 := (List.range 32).foldl (fun s i =>
      if tblGet s.own (32 * l.pline + i) = some c then recallWord s false (32 * l.pline + i) else s) s1
    s2.updCore c (fun x => { x with l1 := dropNth x.l1 k, victims := noteVictim x.victims l })

/-- The set of a line (R47), or of a fused cluster's (R52). -/
def l1Set (fuse : Bool) (vline : Nat) : Nat := if fuse then vline / 8 % 128 else vline % 128

/-- The core whose first level holds an address for a team (R52). -/
def l1Core (cfg : TeamCfg) (va : Nat) : Nat := if cfg.fuse then cfg.core / 8 * 8 + va / 128 % 8 else cfg.core

/-- Lines of one set beyond 15 evicted, the oldest first (log 13), so that one more fits 16 ways (R47). -/
def makeRoom (c : Nat) (fuse : Bool) (set : Nat) : Nat → State → State
  | 0, s => s
  | fuel + 1, s =>
    if ((s.core c).l1.filter (fun l => decide (l1Set fuse l.vline = set))).length < 16 then s
    else match findIx (fun l => decide (l1Set fuse l.vline = set)) (s.core c).l1 with
      | some (k, _) => makeRoom c fuse set fuel (evictLine s c k)
      | none => s

/-- A missed line that the victim tag array still names raises its team's score (R357). -/
def scoreMiss (s : State) (c vline ctx : Nat) : State :=
  match findIx (fun (v : Victim) => decide (v.vline = vline) && decide (v.ctx = ctx)) (s.core c).victims with
  | none => s
  | some (k, v) =>
    (s.updCore c (fun x => { x with victims := dropNth x.victims k })).updTeam v.team
      (fun t => { t with score := if t.score < 65535 then t.score + 1 else 65535 })

end Sys2Proof.Machine
end

