-- ==== Sys2Proof/Machine/Translate.lean ====
section
/-! DEFINITION. Translation (R45, R46, R53 to R62, R66 to R69): the windows, the walk of the page tables, the TLB, the fault records, and the layer
of a tagged page. -/

namespace Sys2Proof.Machine

/-- A mapping an access may use: the physical address, the policy (a peer page is DIRECT, R62), the peer entry, the layer of a tagged page, or the place
in a trap record area (R379). -/
structure Mapping where
  pa : Nat
  r : Bool
  w : Bool
  policy : Policy
  peer : Option Nat
  layer : Option (Nat × Nat)
  record : Option (Nat × Nat)
  deriving DecidableEq, Repr

/-- What a translation gives (R273, checks 4 and 5). -/
inductive Tr where
  | ok (m : Mapping)
  /-- an invalid entry: parked -/
  | page
  | bad (c : TrapClass)
  deriving DecidableEq, Repr

/-- An access of a need at an address. -/
def accessOf (va : Nat) (n : Need) : Access := { half := va / 32768, need := n }

def needR : Need := { r := true, w := false, x := false, kind := 0 }
def needW : Need := { r := false, w := true, x := false, kind := 1 }
def needX : Need := { r := false, w := false, x := true, kind := 2 }
def needAtomic : Need := { r := true, w := true, x := false, kind := 3 }
def needFetch : Need := { r := true, w := false, x := false, kind := 4 }
def needMatrix : Need := { r := true, w := false, x := false, kind := 5 }
/-- An accumulator merge (R60). -/
def needAccum : Need := { r := true, w := true, x := false, kind := 5 }

/-- Bits 51:44 of an address name a scratchpad window (R46). -/
def isWindowVa (va : Nat) : Bool := decide (bits va 51 44 = 0xFF) || decide (bits va 51 44 = 0xFE)

/-- The range of the trap record areas (R379). -/
def isRecordVa (va : Nat) : Bool := decide (bits va 51 44 = 0xFD)

/-- Where a team's trap record area lies (R379; the place within the range is the model's, log 10). -/
def recordBase (u : Nat) : Nat := 0xFD00000000000 + u % 2 ^ 29 * 32768

/-- The policy of a leaf (R57). -/
def policyOf (n : Nat) : Policy := if n = 0 then .coherent else if n = 1 then .stream else if n = 2 then .direct else .accum

/-- The levels of a walk (R55): level number, low virtual bit, index bits. -/
def walkLevels : List (Nat × Nat × Nat) := [(0, 46, 6), (1, 34, 12), (2, 22, 12), (3, 16, 6)]

/-- A malformed leaf (R58). -/
def leafMalformed (e level : Nat) : Bool :=
  let peer := decide (bits e 9 9 = 1)
  let tagged := decide (bits e 8 8 = 1)
  decide (level = 0) || decide (bits e 15 12 ≠ 0) || decide (bits e 5 5 ≠ 0) ||
  (decide (level = 2) && decide (bits e 21 16 ≠ 0)) || (decide (level = 1) && decide (bits e 33 16 ≠ 0)) ||
  (peer && tagged) || (!peer && !tagged && decide (bits e 63 48 ≠ 0)) || (peer && decide (bits e 7 6 = 3))

/-- A malformed table entry (R58). -/
def tableMalformed (e level : Nat) : Bool :=
  decide (level = 3) || decide (bits e 63 48 ≠ 0) || decide (bits e 8 2 ≠ 0) || (decide (level ≤ 1) && decide (bits e 14 9 ≠ 0))

/-- What a walk finds (R59): a leaf with its address and its level, no valid entry, or an entry that cannot be used. -/
inductive Walk where
  | leaf (entry pa low : Nat)
  | notPresent
  | bad (c : TrapClass)
  deriving DecidableEq, Repr

/-- A walk from a table at the levels that remain. DESIGN CHOICE (log 94): an entry in a poisoned line is read as its bytes stand and the walk goes on; R19,
R276 and R410 say what a poisoned line does to other readers and name no walk. -/
def walkFrom (va : Nat) : List (Nat × Nat × Nat) → Nat → State → Walk × State
  | [], _, s => (.bad .invalidAddr, s)
  | (level, low, ib) :: rest, table, s =>
    let pa := table + 8 * (va / 2 ^ low % 2 ^ ib)
    if beyondWindow s pa then (.bad .window, s)
    else if !(isDram pa || isWindowPa pa) then (.bad .invalidAddr, s)
    else
      let r := homeRead s pa 8
      let e := r.1
      if e % 2 = 0 then (.notPresent, r.2)
      else if bits e 1 1 = 1 then
        if leafMalformed e level then (.bad .invalidAddr, r.2) else (.leaf e pa low, r.2)
      else if tableMalformed e level then (.bad .invalidAddr, r.2)
      else walkFrom va rest (bits e 47 9 * 512) r.2

/-- The walk of an address in a context id (R50, R55); a context id that is not bound has no tables. -/
def walk (s : State) (ctx va : Nat) : Walk × State :=
  match tblGet s.ctxs ctx with
  | none => (.notPresent, s)
  | some b => walkFrom va walkLevels b.root s

/-! ## The Sconce's own unit (log 34) -/

/-- The core number whose translation unit is the Sconce's own. -/
def sconceCore : Nat := 512
def sconceUnit : Nat := 64

/-- A page of a context has an OPEN record in a unit. -/
def openRecord (s : State) (cl ctx v : Nat) : Bool :=
  (s.cluster cl).recs.any (fun r => decide (r.state = 1) && decide (r.ctx = ctx) && decide (r.block = v / 64) && r.pages.getLsbD (v % 64))

/-- The page that a waiting message waits for. -/
def Waiting.page (w : Waiting) : Option Nat :=
  match w.cause with
  | some (.page a) => some a.page
  | _ => none

/-- Waiting messages that found no record free for their page are judged again (R69). -/
def requeueUnrecorded (s : State) : State := requeue s (fun w => w.page.any (fun v => !openRecord s sconceUnit w.msg.ctx v))

/-- An access of an asker that the Sconce has marked as one that cannot be resolved. -/
def askLost (s : State) (who : Option Asker) (ctx : Nat) (a : Access) : Bool := who.any (fun w => s.asks.contains { who := w, ctx := ctx, acc := a, lost := true })

/-- An asker's access waits for the service of its fault. -/
def noteAsk (s : State) (who : Option Asker) (ctx : Nat) (a : Access) : State :=
  match who with
  | none => s
  | some w =>
    if s.asks.contains { who := w, ctx := ctx, acc := a, lost := false } then s
    else { s with asks := s.asks ++ [{ who := w, ctx := ctx, acc := a, lost := false }] }

/-- An asker's access waits no more. -/
def dropAsk (s : State) (who : Option Asker) (ctx : Nat) (a : Access) : State :=
  { s with asks := s.asks.filter (fun k => !(decide (some k.who = who) && decide (k.ctx = ctx) && decide (k.acc = a))) }

/-- An asker is done: nothing of its waits any more. -/
def dropAsks (s : State) (p : Asker → Bool) : State := { s with asks := s.asks.filter (fun k => !p k.who) }

/-- The TLB entry of a leaf (R53). -/
def entryOfLeaf (ctx va e low : Nat) (dirty : Bool) : TlbEntry :=
  { ctx := ctx, vbase := va / 2 ^ low * 2 ^ low, bits := low, pbase := bits e 47 16 * 65536 / 2 ^ low * 2 ^ low,
    r := decide (bits e 2 2 = 1), w := decide (bits e 3 3 = 1), x := decide (bits e 4 4 = 1), policy := policyOf (bits e 7 6),
    peer := if bits e 9 9 = 1 then some (bits e 63 48) else none,
    layer := if bits e 8 8 = 1 then some (bits e 63 60, bits e 59 48) else none, dirty := dirty }

/-- The layer's residency flag reads RESIDENT (R61). -/
def layerState (s : State) (ms layer : Nat) : Option Nat := (tblGet s.models ms).bind (fun m => (m.layers[layer]?).map Layer.state)

def layerResident (s : State) (l : Option (Nat × Nat)) : Bool :=
  match l with
  | none => true
  | some (ms, k) => decide (layerState s ms k = some 2)

/-- The layer of a tagged page is one the context may reach (R363). -/
def layerReachable (s : State) (ctx : Nat) (l : Option (Nat × Nat)) : Bool :=
  match l with
  | none => true
  | some (ms, k) =>
    match tblGet s.models ms with
    | none => false
    | some m => decide (m.ctx = ctx) && decide (k < m.layers.length)

/-- A permission the entry lacks for the need (R60). -/
def entryLacks (e : TlbEntry) (n : Need) : Bool := (n.r && !e.r) || (n.w && !e.w) || (n.x && !e.x)

/-- The use of an entry (R273): the peer table (R396), the physical map (R21, R30), the layer's context (R363; log 15), the permission (R60). -/
def useEntry (s : State) (ctx va : Nat) (e : TlbEntry) (n : Need) : Tr :=
  let pa := e.pbase + va % 2 ^ e.bits
  let m : Mapping := { pa := pa, r := e.r, w := e.w, policy := if e.peer.isSome then .direct else e.policy, peer := e.peer, layer := e.layer, record := none }
  match e.peer with
  | some ix =>
    if 4096 ≤ ix ∨ bits ((tblGetD s.peers ix 0).toNat) 160 160 = 0 then .bad .invalidAddr
    else if entryLacks e n then .bad .permission else .ok m
  | none =>
    if beyondWindow s pa then .bad .window
    else if !(isDram pa || isWindowPa pa) then .bad .invalidAddr
    else if !layerReachable s ctx e.layer then .bad .invalidAddr
    else if entryLacks e n then .bad .permission
    else .ok m

/-- The fault record of a fault found by a walk (R68, R69): its page, kind and cause are ORed into the OPEN record of its context and block, or a FREE record
opens with them; beside them stands the access itself, by which the Sconce judges it (R394). When all 32 are in use nothing is written and the walk is made
again when one frees. -/
def recordFault (s : State) (cl ctx va : Nat) (n : Need) (cause : Nat) : State :=
  let c := s.cluster cl
  let page : BitVec 64 := BitVec.ofNat 64 (2 ^ bits va 21 16)
  let a := accessOf va n
  let add (r : FaultRec) : FaultRec :=
    { r with pages := r.pages ||| page, kinds := r.kinds ||| BitVec.ofNat 6 (2 ^ n.kind), cause := r.cause ||| BitVec.ofNat 2 (2 ^ cause),
             accs := if r.accs.contains a then r.accs else r.accs ++ [a] }
  match findIx (fun (r : FaultRec) => decide (r.state = 1) && decide (r.ctx = ctx) && decide (r.block = bits va 51 22)) c.recs with
  | some (k, r) => s.setCluster cl { c with recs := setNth c.recs k (add r) }
  | none =>
    match findIx (fun (r : FaultRec) => decide (r.state = 0)) c.recs with
    | some (k, _) =>
      s.setCluster cl { c with recs := setNth c.recs k (add { FaultRec.reset with block := bits va 51 22, ctx := ctx, state := 1 }) }
    | none => s

/-- A TLB entry installed, the oldest leaving when 4,096 are held (R53; which one leaves is not architectural, log 13). -/
def installTlb (s : State) (cl : Nat) (e : TlbEntry) : State :=
  let c := s.cluster cl
  let t := c.tlb.filter (fun x => !(decide (x.ctx = e.ctx) && decide (x.vbase = e.vbase) && decide (x.bits = e.bits)))
  s.setCluster cl { c with tlb := (if t.length < 4096 then t else t.drop 1) ++ [e] }

/-- The walk made for an access (R59, R66): accessed is set on a fill and dirty on a write translation, at the entry's home; the leaf is installed unless
its layer is not RESIDENT (R61). A fault opens or extends a record (R69). DESIGN CHOICE (log 63): the two bits are set also for a leaf whose layer is not
RESIDENT, of which the spec does not say it. -/
def walkFor (s : State) (cl ctx va : Nat) (n : Need) : Tr × State :=
  let w := walk s ctx va
  match w.1 with
  | .notPresent => (.page, recordFault w.2 cl ctx va n 0)
  | .bad c => (.bad c, w.2)
  | .leaf e pa low =>
    let dirty := n.w || decide (bits e 11 11 = 1)
    let te := entryOfLeaf ctx va e low dirty
    match useEntry w.2 ctx va te n with
    | .bad .permission => (.bad .permission, recordFault w.2 cl ctx va n 1)
    | .bad c => (.bad c, w.2)
    | .page => (.page, w.2)
    | .ok m =>
      let e' := e ||| 2 ^ 10 ||| (if n.w then 2 ^ 11 else 0)
      let s1 := if e' = e then w.2 else homeWrite w.2 pa (bytesOf 8 e')
      (.ok m, if layerResident s1 te.layer then installTlb s1 cl te else s1)

/-- An entry of the TLB for an address. -/
def entryFor (ctx va : Nat) (e : TlbEntry) : Bool := decide (e.ctx = ctx) && decide (va / 2 ^ e.bits * 2 ^ e.bits = e.vbase)

/-- A translation whose address lies in the bytes that a raise in progress adds to a window waits for its end (R28). -/
def settled (r : Tr × State) : Tr × State :=
  match r.1 with
  | .ok m => (r.1, if m.peer.isSome || m.record.isSome then r.2 else settleWindow r.2 m.pa)
  | _ => r

/-- The translation of an address for a core's access (R53, R66): a TLB hit with the permission, else a walk, made with no entry for the address left in
the TLB. The trap record range is the Sconce's leaf of R379: readable, DIRECT, one area for each team of the context. -/
def translate (s : State) (core ctx va : Nat) (n : Need) : Tr × State :=
  let cl := core / 8
  if isRecordVa va then
    match s.areas.find? (fun a => decide (a.2.ctx = ctx) && decide (recordBase a.1 / 32768 = va / 32768)) with
    | some a =>
      if n.w || n.x then (.bad .permission, recordFault s cl ctx va n 1)
      else (.ok { pa := 0, r := true, w := false, policy := .direct, peer := none, layer := none, record := some (a.1, va % 32768) }, s)
    | none => (.page, recordFault s cl ctx va n 0)
  else
    let c := s.cluster cl
    match c.tlb.find? (entryFor ctx va) with
    | some e =>
      settled (if entryLacks e n || (n.w && !e.dirty) then
        walkFor (s.setCluster cl { c with tlb := c.tlb.filter (fun x => !entryFor ctx va x) }) cl ctx va n
      else (useEntry s ctx va e n, s))
    | none => settled (walkFor s cl ctx va n)

/-! ## The windows (R74 to R77) -/

/-- Where a window address leads: nowhere (no window), a field that must be zero is not, outside every allocation, or a core and a physical offset. -/
inductive Win where
  | no
  | malformed
  | out
  | at (core off : Nat)
  deriving DecidableEq, Repr

/-- n bytes at a window address, for a team (R74, R75). -/
def window (s : State) (t : Team) (va n : Nat) : Win :=
  if bits va 51 44 = 0xFF then
    if bits va 63 52 ≠ 0 ∨ bits va 43 32 ≠ 0 then .malformed
    else if bits va 31 0 + n ≤ t.cfg.spsize then .at t.cfg.core (t.cfg.spbase + bits va 31 0) else .out
  else if bits va 51 44 = 0xFE then
    if bits va 63 52 ≠ 0 ∨ bits va 43 23 ≠ 0 then .malformed
    else
      let c := t.cfg.core / 8 * 8 + bits va 22 20
      let p := bits va 19 0
      if s.teams.any (fun ut => decide (ut.2.cfg.core = c) && !ut.2.saved && decide (ut.2.cfg.ctx = t.cfg.ctx) &&
          decide (ut.2.cfg.spbase ≤ p) && decide (p + n ≤ ut.2.cfg.spbase + ut.2.cfg.spsize)) then .at c p
      else .out
  else .no

/-- n scratchpad bytes as a number (R78). -/
def scratchRead (s : State) (c p n : Nat) : Nat := natOfBytes (Memory.reads (s.core c).scratch p n)

/-- Scratchpad bytes written; a word wholly written loses its poison (R385). -/
def scratchWrite (s : State) (c p : Nat) (bs : List Byte) : State :=
  s.updCore c (fun x => { x with
    scratch := Memory.writes x.scratch p bs,
    poisonScratch := x.poisonScratch.filter (fun w => !(decide (p ≤ 4 * w) && decide (4 * w + 4 ≤ p + bs.length))) })

def scratchPoisoned (s : State) (c p n : Nat) : Bool := (wordsOf p n).any (fun w => (s.core c).poisonScratch.contains w)

end Sys2Proof.Machine
end

