-- ==== Sys2Proof/Machine/Layer.lean ====
section
/-! DEFINITION. Layers as the loader and the pins see them (R328, R366 to R373): requests, pins, lookahead. States: 0 ABSENT, 1 ARRIVING, 2 RESIDENT,
3 EVICTING, 4 FAILED. -/

namespace Sys2Proof.Machine

/-- The layer word of R327. -/
def layerWord (ms layer : Nat) : Word := BitVec.ofNat 32 (ms * 4096 + layer)

def getLayer (s : State) (ms k : Nat) : Option Layer := (tblGet s.models ms).bind (fun m => m.layers[k]?)

/-- A layer changed in its slot. -/
def updLayer (s : State) (ms k : Nat) (f : Layer → Layer) : State :=
  match tblGet s.models ms with
  | none => s
  | some m => match m.layers[k]? with
    | none => s
    | some l => { s with models := tblSet s.models ms { m with layers := setNth m.layers k (f l) } }

/-- A request for a layer (R370): an ABSENT layer turns ARRIVING and is queued; a demand request raises a queued lookahead request; a pending UNLOAD
refuses it (R366). -/
def requestLayer (s : State) (ms k : Nat) (demand : Bool) : State :=
  match tblGet s.models ms with
  | none => s
  | some m => match m.layers[k]? with
    | none => s
    | some l =>
      if m.unload then s
      else if l.state = 0 then
        let s1 := updLayer s ms k (fun l => { l with state := 1 })
        { s1 with requests := s1.requests ++ [{ mslot := ms, layer := k, demand := demand }] }
      else if l.state = 1 ∧ demand then
        { s with requests := s.requests.map (fun r => if r.mslot = ms ∧ r.layer = k then { r with demand := true } else r) }
      else s

/-- Lookahead of a pin (R371): each ABSENT layer of the next LOOKAHEAD is requested at lookahead rank. -/
def lookahead (s : State) (ms k : Nat) : State :=
  match tblGet s.models ms with
  | none => s
  | some m => (List.range m.lookahead).foldl (fun s i => requestLayer s ms (k + 1 + i) false) s

/-- A pin taken in RESIDENT (R369), with its lookahead. -/
def pinLayer (s : State) (ms k : Nat) : State := lookahead (updLayer s ms k (fun l => { l with pins := l.pins + 1 })) ms k

/-- A pin removed; the moment is kept for the choice of victims (R370). -/
def unpinLayer (s : State) (ms k : Nat) : State :=
  let q := takeId s
  updLayer q.2 ms k (fun l => { l with pins := l.pins - 1, unpinned := q.1 })

def pinAll (s : State) (ps : List (Nat × Nat)) : State := ps.foldl (fun s p => pinLayer s p.1 p.2) s
def unpinAll (s : State) (ps : List (Nat × Nat)) : State := ps.foldl (fun s p => unpinLayer s p.1 p.2) s

/-- What an access to a page of a layer meets (R61, R373): it may go on, it parks with a demand request, or it takes SWAP. -/
inductive LayerOutcome where
  | resident
  | absent
  | failed
  deriving DecidableEq, Repr

def layerOutcome (s : State) (l : Option (Nat × Nat)) : LayerOutcome :=
  match l with
  | none => .resident
  | some (ms, k) =>
    match tblGet s.models ms with
    | none => .absent
    | some m =>
      match layerState s ms k with
      | some 2 => .resident
      | some 4 => .failed
      | _ => if m.unload then .failed else .absent

end Sys2Proof.Machine
end

