-- ==== Sys2Proof/Machine/Access.lean ====
section
/-! DEFINITION. Memory accesses (R45 to R52, R63 to R65, R272 to R281): loads and stores through the first level, a lane's checks in the order of R273,
what a lane's access does, the fetch unit (R92 to R97), and the accesses of uniform instructions in 16-byte pieces. -/

namespace Sys2Proof.Machine

/-! ## The trap record as memory (R380) -/

/-- Byte k of a trap record; every byte not listed reads as zero. -/
def recordByte (r : TrapRec) (k : Nat) : Byte :=
  let b (base x : Nat) : Byte := BitVec.ofNat 8 (x / 2 ^ (8 * (k - base)))
  if k < 0x04 then b 0 r.cls
  else if k < 0x08 then b 0x04 r.detail.toNat
  else if k < 0x10 then b 0x08 r.pc
  else if k < 0x14 then b 0x10 r.word
  else if k < 0x18 then b 0x14 r.mode.toNat
  else if k < 0x1A then b 0x18 r.rdepth
  else if k < 0x1C then b 0x1A r.cdepth
  else if k < 0x1D then b 0x1C r.frame
  else if k < 0x20 then 0
  else if k < 0x40 then BitVec.ofNat 8 ((nthD r.sregs ((k - 0x20) / 4) 0).toNat / 2 ^ (8 * (k % 4)))
  else if k < 0x80 then 0
  else if k < 0x100 then b 0x80 r.faulted.toNat
  else if k < 0x180 then b 0x100 r.exec.toNat
  else if k < 0x200 then b 0x180 r.pending.toNat
  else if k < 0x400 then 0
  else if k < 0x2400 then BitVec.ofNat 8 (tblGetD r.addr ((k - 0x400) / 8) 0 / 2 ^ (8 * (k % 8)))
  else if k < 0x6400 then BitVec.ofNat 8 ((wordGet r.wregs ((k - 0x2400) / 4)).toNat / 2 ^ (8 * (k % 4)))
  else 0

/-- n bytes of a team's trap record area. -/
def recordRead (s : State) (u off n : Nat) : Nat :=
  match (tblGet s.areas u).bind Area.record with
  | some r => natOfBytes ((List.range n).map (fun k => recordByte r (off + k)))
  | none => 0

/-! ## The first level (R47 to R51, R64) -/

/-- A line under the name, the permissions and the policy of a mapping (R47, R66). -/
def named_ (l : L1Line) (cfg : TeamCfg) (va : Nat) (m : Mapping) : L1Line :=
  { l with vline := va / 128, ctx := cfg.ctx, r := m.r, w := m.w, policy := m.policy, layer := m.layer }

/-- A line that keeps the tag of another frame leaves the first level. -/
def dropOther (s : State) (cfg : TeamCfg) (va pline : Nat) : State :=
  let c := l1Core cfg va
  match findIx (fun (l : L1Line) => decide (l.vline = va / 128) && decide (l.ctx = cfg.ctx) && decide (l.pline ≠ pline)) (s.core c).l1 with
  | some (k, _) => evictLine s c k
  | none => s

/-- A copy of a physical line held under another name takes the new one (R54), and moves where that name lies in another set of a fused cluster
(R52). -/
def retagLine (s : State) (cfg : TeamCfg) (va : Nat) (m : Mapping) : State :=
  let c := l1Core cfg va
  let s1 := dropOther s cfg va (m.pa / 128)
  match l1ByPline (s1.core c) (m.pa / 128) with
  | none => s1
  | some (k, l) =>
    if l1Set cfg.fuse l.vline = l1Set cfg.fuse (va / 128) then setL1 s1 c k (named_ l cfg va m)
    else
      let s2 := makeRoom c cfg.fuse (l1Set cfg.fuse (va / 128)) 16 (s1.updCore c (fun x => { x with l1 := dropNth x.l1 k }))
      s2.updCore c (fun x => { x with l1 := x.l1 ++ [named_ l cfg va m] })

/-- The line of an access in the first level: found by its tag, found under another name and re-tagged (R54), or allocated (R49). -/
def ensureLine (s : State) (u : Nat) (cfg : TeamCfg) (va : Nat) (m : Mapping) : State :=
  let c := l1Core cfg va
  match l1ByPline (s.core c) (m.pa / 128) with
  | some _ => retagLine s cfg va m
  | none =>
    let s1 := makeRoom c cfg.fuse (l1Set cfg.fuse (va / 128)) 16 (scoreMiss (dropOther s cfg va (m.pa / 128)) c (va / 128) cfg.ctx)
    let fresh : L1Line :=
      { vline := 0, ctx := 0, pline := m.pa / 128, r := false, w := false, policy := .coherent, valid := 0, dirty := 0, owned := 0, data := 0,
        layer := none, bad := 0, team := u }
    s1.updCore c (fun x => { x with l1 := x.l1 ++ [named_ fresh cfg va m] })

/-- A translation of an address whose line is in the first level updates the line's permissions and policy (R66). -/
def refreshLine (s : State) (cfg : TeamCfg) (va : Nat) (m : Mapping) : State :=
  let c := l1Core cfg va
  match l1ByTag (s.core c) (va / 128) cfg.ctx with
  | some (k, l) => if m.peer = none ∧ m.record = none ∧ l.pline = m.pa / 128 then setL1 s c k (named_ l cfg va m) else s
  | none => s

/-- The core's own writes and atomics to a line that are still on their way reach home first, so that a lane reads its own latest write (R64). -/
def drainWrites (s : State) (c p : Nat) : State :=
  if (s.core c).out.any (fun e => decide (entryLine e = p) && (match e.work with
    | .registration _ _ => false
    | _ => true)) then drainLine s c p
  else s

/-- The missing bytes of n bytes of a line are filled from home, never over a valid byte (R48). The words that other cores own are pulled first (R34), and
the line's value is checked as it leaves its home (R410): where the line is poisoned then, be it by a word so pulled (R385), nothing is filled, and the
answer is false. -/
def fillLine (s : State) (c pa n : Nat) : Bool × State :=
  match l1ByPline (s.core c) (pa / 128) with
  | none => (false, s)
  | some (_, l) =>
    if (List.range n).all (fun i => l.valid.getLsbD (pa % 128 + i)) then (true, s)
    else
      let s1 := drainWrites s c (pa / 128)
      let s2 := (wordsOf pa n).foldl (fun s w => if tblGet s.own w = some c then s else recallWord s true w) s1
      let s3 := crossLines s2 pa n
      if linePoisoned s3 (pa / 128) then (false, s3) else (true, (wordsOf pa n).foldl (fun s w => fillWord s c w) s3)

/-- n bytes of a first-level line as a number. -/
def l1Read (s : State) (c pa n : Nat) : Nat :=
  match l1ByPline (s.core c) (pa / 128) with
  | none => 0
  | some (_, l) => natOfBytes ((List.range n).map (fun i => lineByte l.data (pa % 128 + i)))

/-- A load of n bytes served at home; none when it reads a poisoned line (R19). -/
def loadHome (s : State) (pa n : Nat) : Option Nat × State :=
  let r := homeTake s true pa n
  (r.1.map natOfBytes, r.2)

/-- A load of n bytes at home beside a copy that holds some of them valid: those are the copy's, so that no lane reads an older value after a newer one
(R48, R200). -/
def loadBeside (s : State) (c pa n : Nat) : Option Nat × State :=
  let r := homeTake s true pa n
  match l1ByPline (s.core c) (pa / 128) with
  | none => (r.1.map natOfBytes, r.2)
  | some (_, l) =>
    let byte (bs : List Byte) (i : Nat) : Byte := if l.valid.getLsbD (pa % 128 + i) then lineByte l.data (pa % 128 + i) else nthD bs i 0
    (r.1.map (fun bs => natOfBytes ((List.range n).map (byte bs))), r.2)

/-- A free value of n bytes: what a peer's memory holds (log 9). -/
def peerBytes (s : State) (n : Nat) : Nat × State :=
  let q := drawWords ((n + 3) / 4) s
  (natOfBytes (q.1.flatMap (fun w => bytesOf 4 w.toNat)) % 2 ^ (8 * n), q.2)

/-- A load of n bytes through a mapping (R63): none when it reads a poisoned line. A STREAM miss takes an existing copy under its own name (R54) and
counts for the scores (R357). -/
def loadMapped (s : State) (u : Nat) (cfg : TeamCfg) (va n : Nat) (m : Mapping) : Option Nat × State :=
  let c := l1Core cfg va
  let direct (s : State) : Option Nat × State := loadHome (invalidateOwn (drainLine s c (m.pa / 128)) c m.pa n) m.pa n
  match m.record with
  | some (o, off) => (some (recordRead s o off n), s)
  | none =>
    if m.peer.isSome then
      let q := peerBytes s n
      (some q.1, q.2)
    else
      match m.policy with
      | .coherent =>
        let s1 := ensureLine s u cfg va m
        let f := fillLine s1 c m.pa n
        (if f.1 then some (l1Read f.2 c m.pa n) else none, f.2)
      | .stream =>
        (match l1ByPline (s.core c) (m.pa / 128) with
        | some (_, l) =>
          let s1 := if l.vline = va / 128 ∧ l.ctx = cfg.ctx then s else retagLine s cfg va m
          if (List.range n).all (fun i => l.valid.getLsbD (m.pa % 128 + i)) then (some (l1Read s1 c m.pa n), s1)
          else loadBeside (drainLine s1 c (m.pa / 128)) c m.pa n
        | none => loadHome (drainLine (scoreMiss s c (va / 128) cfg.ctx) c (m.pa / 128)) m.pa n)
      | .direct => direct s
      | .accum => direct s

/-- The bytes of word w that a store of n bytes from an address writes. -/
def bytesIn (pa n w : Nat) : BitVec 4 :=
  (List.range 4).foldl (fun b i => if pa ≤ 4 * w + i ∧ 4 * w + i < pa + n then b ||| runMask 4 i 1 else b) 0

/-- Work put into a core's outbound queue. -/
def pushOut (s : State) (c : Nat) (e : OutEntry) : State := s.updCore c (fun x => { x with out := x.out ++ [e] })

/-- What a core has under way for a line before a store of an instruction goes there reaches home first, but for what the instruction itself has sent: a
store of many lanes to one line stays together in the queue, so that it is seen to cover the line (R19, R276). -/
def drainEarlier (drain : State → Nat → Nat → State) (s : State) (c instr p : Nat) : State :=
  if (s.core c).out.all (fun e => decide (entryLine e ≠ p) || (decide (e.instr = instr) && decide (storedBytes e p ≠ 0))) then s else drain s c p

/-- Bytes stored in a first-level line: valid and dirty, each touched word registered (R49, R32). -/
def storeCoherent (s : State) (u instr slot : Nat) (cfg : TeamCfg) (va : Nat) (m : Mapping) (bs : List Byte) : State :=
  let c := l1Core cfg va
  let s1 := drainEarlier drainWrites (ensureLine s u cfg va m) c instr (m.pa / 128)
  match l1ByPline (s1.core c) (m.pa / 128) with
  | none => s1
  | some (k, l) =>
    let o := m.pa % 128
    let b := runMask 128 o bs.length
    let d := (List.range bs.length).foldl (fun d i => setLineByte d (o + i) (nthD bs i 0)) l.data
    let s2 := setL1 s1 c k { l with data := d, valid := l.valid ||| b, dirty := l.dirty ||| b }
    (wordsOf m.pa bs.length).foldl (fun s w => pushOut s c
      { team := u, instr := instr, slot := slot, va := va, work := .registration w (bytesIn m.pa bs.length w), counted := false }) s2

/-- A store through a mapping (R63). -/
def storeMapped (s : State) (u instr slot : Nat) (cfg : TeamCfg) (va : Nat) (m : Mapping) (bs : List Byte) : State :=
  let c := l1Core cfg va
  let direct : State :=
    pushOut (invalidateOwn (drainEarlier drainLine s c instr (m.pa / 128)) c m.pa bs.length) c
      { team := u, instr := instr, slot := slot, va := va, work := .homeWrite m.pa bs, counted := false }
  if m.peer.isSome then pushOut s c { team := u, instr := instr, slot := slot, va := va, work := .peerWrite m.pa bs, counted := false }
  else
    match m.policy with
    | .coherent => storeCoherent s u instr slot cfg va m bs
    | .stream => direct
    | .direct => direct
    | .accum => direct

/-! ## One lane (R273, R274) -/

/-- How a lane's checks end. -/
inductive LaneRes where
  | done
  | park (c : ParkCause)
  | held (c : TrapClass) (detail : Word)
  deriving DecidableEq, Repr

/-- A translated address that passed checks 4 to 7, or how the lane ends. -/
inductive Reach where
  | ok (m : Mapping)
  | ends (r : LaneRes)
  deriving DecidableEq, Repr

/-- Checks 4 to 7 of R273 for a translated address; a layer that is not RESIDENT is requested on demand (R373). A fault found by a walk parks, PERMISSION
as well as PAGE (R69): its class is delivered when the Sconce marks its page (R70; log 22). -/
def reach (s : State) (cfg : TeamCfg) (va : Nat) (n : Need) (noAccum : Bool) : Reach × State :=
  let r := translate s cfg.core cfg.ctx va n
  match r.1 with
  | .page => (.ends (.park (.page (accessOf va n))), r.2)
  | .bad .permission => (.ends (.park (.page (accessOf va n))), r.2)
  | .bad c => (.ends (.held c 0), r.2)
  | .ok m =>
    if noAccum && decide (m.policy = .accum) then (.ends (.held .policy 0), r.2)
    else
      match layerOutcome r.2 m.layer, m.layer with
      | .absent, some (ms, k) => (.ends (.park (.layer ms k)), requestLayer r.2 ms k true)
      | .failed, some (ms, k) => (.ends (.held .swap (layerWord ms k)), r.2)
      | _, _ => (.ok m, r.2)

/-- A first-level hit with the permission the access needs, which needs no translation (R48, R275): the mapping the line carries. A load hits where every
byte it reads is valid, a store on a COHERENT line whose W is set (R49). -/
def l1Hit (s : State) (cfg : TeamCfg) (va n : Nat) (store : Bool) : Option Mapping :=
  match l1ByTag (s.core (l1Core cfg va)) (va / 128) cfg.ctx with
  | none => none
  | some (_, l) =>
    if (if store then l.w && decide (l.policy = .coherent)
        else l.r && (List.range n).all (fun i => l.valid.getLsbD (va % 128 + i)) && (decide (l.policy = .coherent) || decide (l.policy = .stream))) then
      some { pa := 128 * l.pline + va % 128, r := l.r, w := l.w, policy := l.policy, peer := none, layer := l.layer, record := none }
    else none

/-- An access translated where it does not hit, the line it finds brought up to date (R66). -/
def reachLine (s : State) (cfg : TeamCfg) (va n : Nat) (need : Need) (atomic : Bool) : Reach × State :=
  match (if atomic then none else l1Hit s cfg va n need.w) with
  | some m => (.ok m, s)
  | none =>
    let r := reach s cfg va need atomic
    match r.1 with
    | .ok m => (r.1, refreshLine r.2 cfg va m)
    | .ends _ => r

/-- Checks 2 to 7 of R273 for a translated access of n bytes. -/
def laneReach (s : State) (cfg : TeamCfg) (ea n : Nat) (need : Need) (atomic : Bool) : Reach × State :=
  if bits ea 63 52 ≠ 0 then (.ends (.held .invalidAddr 0), s)
  else if ea % n ≠ 0 then (.ends (.held .align 0), s)
  else reachLine s cfg ea n need atomic

/-- A lane of a late operation read a peer's memory (R397). -/
def notePeer (s : State) (u : Nat) (op : MemOp) (slot va : Nat) : State :=
  match op.late with
  | some id => s.updTeam u (fun t => updLate t id (fun o => { o with peers := o.peers ++ [(slot, va)] }))
  | none => s

/-- What settling lanes gathers: the state, the atomic lanes by core with whether a peer's, the parked lanes, the held lanes. -/
structure Settle where
  s : State
  atoms : List (Nat × Bool × AtomLane)
  parks : List (LaneAcc × ParkCause)
  helds : List HeldLane
  deriving DecidableEq

/-- A lane's value written late, or the lane marked as having read a poisoned line. -/
def bindLane (s : State) (u : Nat) (op : MemOp) (slot va : Nat) (v : Option Nat) : State :=
  match op.late with
  | none => s
  | some id => s.updTeam u (fun t => match v with
    | some x => bindLate t id slot op.dst op.regs x
    | none => poisonLate t id slot va)

/-- An access that has passed its checks, at a scratchpad address (R78, R79). -/
def laneScratch (u : Nat) (op : MemOp) (a : LaneAcc) (c p : Nat) (s : State) : LaneRes × State :=
  match op.kind with
  | .load =>
    if scratchPoisoned s c p op.size then (.held .integrity 0, s) else (.done, bindLane s u op a.slot a.ea (some (scratchRead s c p op.size)))
  | .store => (.done, scratchWrite s c p (bytesOf op.size a.data))
  | .atomic o ty _ =>
    if scratchPoisoned s c p op.size then (.held .integrity 0, s)
    else
      let x := scratchRead s c p op.size
      (.done, bindLane (scratchWrite s c p (bytesOf op.size (atomOp o ty op.size x a.data a.cmp))) u op a.slot a.ea (some x))
  | .fetch _ => (.held .invalidAddr 0, s)

/-! ## The fetch unit (R92 to R97) -/

/-- A raw line kept in the fetch cache of 512 lines (which leaves is not architectural, log 13). -/
def keepFetch (s : State) (core : Nat) (l : RawLine) : State :=
  s.updCore core (fun c => { c with fetchLines := (if c.fetchLines.length < 512 then c.fetchLines else c.fetchLines.drop 1) ++ [l] })

/-- A byte run read through the fetch cache by a lane (R92): a cached line needs no translation; a miss is translated and its line is served at home,
once what the core of the lane's first level has under way for the line is there, so that a lane that has acquired finds its own stores (R196, R199).
An address that BASE and the offset carry into a window is never translated (R46). DESIGN CHOICE (log 65): its class is INVALID_ADDR, where R292 says
that it cannot arise. -/
def fetchBytes (s : State) (cfg : TeamCfg) (va n : Nat) : (Reach × Option Nat) × State :=
  let c := s.core cfg.core
  let take (d : LineData) : Nat := natOfBytes ((List.range n).map (fun i => lineByte d (va % 128 + i)))
  if 2 ^ 52 ≤ va ∨ isWindowVa va then ((.ends (.held .invalidAddr 0), none), s)
  else if va % n ≠ 0 then ((.ends (.held .align 0), none), s)
  else
    match c.fetchLines.find? (fun l => decide (l.vline = va / 128) && decide (l.ctx = cfg.ctx)) with
    | some l => ((.ok { pa := 0, r := true, w := false, policy := .direct, peer := none, layer := none, record := none }, some (take l.data)), s)
    | none =>
      let r := reach s cfg va needFetch false
      match r.1 with
      | .ends e => ((.ends e, none), r.2)
      | .ok m =>
        match m.record with
        | some (o, off) => ((.ok m, some (recordRead r.2 o off n)), r.2)
        | none =>
          if m.peer.isSome then
            let q := peerBytes r.2 n
            ((.ok m, some q.1), q.2)
          else
            let h := homeTake (drainLine r.2 (l1Core cfg va) (m.pa / 128)) false (m.pa / 128 * 128) 128
            match h.1 with
            | none => ((.ok m, none), h.2)
            | some bs =>
              let d : LineData := BitVec.ofNat 1024 (natOfBytes bs)
              ((.ok m, some (take d)), keepFetch h.2 cfg.core { vline := va / 128, ctx := cfg.ctx, pline := m.pa / 128, data := d })

/-- A descriptor's field of n bytes at an offset (R93). -/
def descField (d : BitVec 512) (off n : Nat) : Nat := d.toNat / 2 ^ (8 * off) % 2 ^ (8 * n)

def descExt (d : BitVec 512) (k : Nat) : Nat := descField d (0x18 + 4 * k) 4
def descStr (d : BitVec 512) (k : Nat) : Nat := if k = 0 then 1 else descField d (0x28 + 4 * (k - 1)) 4
def descBase (d : BitVec 512) : Nat := descField d 0x08 8
def descAux (d : BitVec 512) : Nat := descField d 0x10 8
def descFormat (d : BitVec 512) : Nat := bits d.toNat 3 0
def descEsize (d : BitVec 512) : Nat := 2 ^ bits d.toNat 7 6
def descSign (d : BitVec 512) : Bool := decide (bits d.toNat 9 9 = 1)
def descDims (d : BitVec 512) : Nat := bits d.toNat 11 10 + 1

/-- An element extended to its registers (R96). -/
def extendElem (d : BitVec 512) (x : Nat) : Nat :=
  let e := descEsize d
  if e < 4 ∧ descSign d then wrapNat 32 (sextInt (8 * e) x) else x

/-- The FP32 bits of m × 2^(E − 127 − (w − 1)), exact, or the canonical NaN (R97, R131). -/
def bfpValue (w e : Nat) (m : Int) : Nat :=
  if e = 0xFF then fmtFp32.nan else if m = 0 then 0
  else (fpRound fmtFp32 0 (decide (m < 0)) m.natAbs ((e : Int) - 127 - ((w : Int) - 1)) false).1

/-- How a lane's fetch ends: its outcome, the address it stopped at, its value (none for a poisoned line), the addresses it read through a peer's
page (R397). -/
structure FetchRes where
  res : LaneRes
  va : Nat
  val : Option Nat
  peers : List Nat
  deriving DecidableEq, Repr

/-- A value found. -/
def fetched (v : Nat) (s : State) : FetchRes × State := ({ res := .done, va := 0, val := some v, peers := [] }, s)

/-- A chain of reads of a lane, each a load (R292): the first that does not succeed ends the lane. -/
def fetchThen (s : State) (cfg : TeamCfg) (va n : Nat) (k : Nat → State → FetchRes × State) : FetchRes × State :=
  let r := fetchBytes s cfg va n
  match r.1.1, r.1.2 with
  | .ends e, _ => ({ res := e, va := va, val := none, peers := [] }, r.2)
  | .ok _, none => ({ res := .done, va := va, val := none, peers := [] }, r.2)
  | .ok m, some v =>
    let q := k v r.2
    (if m.peer.isSome then { q.1 with peers := va :: q.1.peers } else q.1, q.2)

/-- Bits b of planes, least significant first (R97). -/
def fetchPlanes (cfg : TeamCfg) (base pb b : Nat) : Nat → Nat → Nat → State → FetchRes × State
  | 0, _, acc, s => fetched acc s
  | n + 1, q, acc, s => fetchThen s cfg (base + q * pb + b / 8) 1 (fun v s => fetchPlanes cfg base pb b n (q + 1) (acc + v / 2 ^ (b % 8) % 2 * 2 ^ q) s)

/-- The coordinates of a linear index, dimension 0 fastest (R96). -/
def coordsOf (d : BitVec 512) (l : Nat) : List Nat :=
  let e0 := descExt d 0
  let e1 := descExt d 1
  let e2 := descExt d 2
  [l % e0, l / e0 % e1, l / e0 / e1 % e2, l / e0 / e1 / e2]

/-- A lane's element (R97), its addresses exact (R16); the lane's data is its coordinates c0 + 2^32 × c1 + 2^64 × c2 + 2^96 × c3, or 2^128 when out of range
(R96). DESIGN CHOICE (log 64): a bitmap is one access of 16 bytes, so that a chunk that is not 16-byte aligned is ALIGN, and a plane is read byte by byte; R97
and R292 give no access size for either. -/
def fetchElem (s : State) (cfg : TeamCfg) (d : BitVec 512) (data : Nat) : FetchRes × State :=
  let c (k : Nat) : Nat := data / 2 ^ (32 * k) % 2 ^ 32
  let e := descEsize d
  if 2 ^ 128 ≤ data then fetched 0 s
  else if descFormat d = 0 then
    fetchThen s cfg (descBase d + e * (c 0 + c 1 * descStr d 1 + c 2 * descStr d 2 + c 3 * descStr d 3)) e
      (fun v s => fetched (extendElem d v) s)
  else if descFormat d = 1 then
    let l := c 0 + descExt d 0 * (c 1 + descExt d 1 * (c 2 + descExt d 2 * c 3))
    let j := l % 128
    fetchThen s cfg (descAux d + 4 * (l / 128)) 4 (fun o s =>
      let chunk := descBase d + 16 * o
      fetchThen s cfg chunk 16 (fun bm s =>
        if bm / 2 ^ j % 2 = 0 then fetched 0 s
        else
          let k := ((List.range j).filter (fun i => decide (bm / 2 ^ i % 2 = 1))).length
          fetchThen s cfg (chunk + 16 + e * k) e (fun v s => fetched (extendElem d v) s)))
  else
    let t := if bits d.toNat 12 12 = 1 then 16 else 32
    let w := bits d.toNat 15 13 + 1
    let pb := t * t / 8
    let n := (c 1 / t) * (descExt d 0 / t) + c 0 / t
    let b := (c 1 % t) * t + c 0 % t
    let r := fetchPlanes cfg (descBase d + n * w * pb) pb b w 0 0 s
    match r.1.res, r.1.val with
    | .done, some m =>
      let x := fetchThen r.2 cfg (descAux d + n) 1 (fun ex s => fetched (bfpValue w ex (sextInt w m)) s)
      ({ x.1 with peers := r.1.peers ++ x.1.peers }, x.2)
    | _, _ => r

/-- One lane's checks and, when they pass, its access (R273, R376). An atomic lane that passes is gathered for its batch (R40). -/
def settleLane (u : Nat) (t : Team) (op : MemOp) (instr : Nat) (z : Settle) (a : LaneAcc) : Settle :=
  let cfg := t.cfg
  let finish (r : LaneRes) (s : State) : Settle :=
    match r with
    | .done => { z with s := s }
    | .park c => { z with s := s, parks := z.parks ++ [(a, c)] }
    | .held c d => { z with s := s, helds := z.helds ++ [{ acc := a, cls := c, detail := d }] }
  match op.kind with
  | .fetch d =>
    let r := fetchElem z.s cfg d a.data
    match r.1.res with
    | .done => { z with s := r.1.peers.foldl (fun s p => notePeer s u op a.slot p) (bindLane r.2 u op a.slot r.1.va r.1.val) }
    | .park c => { z with s := r.2, parks := z.parks ++ [({ a with ea := r.1.va }, c)] }
    | .held c w => { z with s := r.2, helds := z.helds ++ [{ acc := { a with ea := r.1.va }, cls := c, detail := w }] }
  | .load =>
    match window z.s t a.ea op.size with
    | .malformed => finish (.held .invalidAddr 0) z.s
    | .out => finish (.held .window 0) z.s
    | .at c p => if a.ea % op.size ≠ 0 then finish (.held .align 0) z.s
      else let r := laneScratch u op a c p z.s; finish r.1 r.2
    | .no =>
      let r := laneReach z.s cfg a.ea op.size needR false
      match r.1 with
      | .ends e => finish e r.2
      | .ok m =>
        let v := loadMapped r.2 u cfg a.ea op.size m
        let s2 := bindLane v.2 u op a.slot a.ea v.1
        { z with s := if m.peer.isSome then notePeer s2 u op a.slot a.ea else s2 }
  | .store =>
    match window z.s t a.ea op.size with
    | .malformed => finish (.held .invalidAddr 0) z.s
    | .out => finish (.held .window 0) z.s
    | .at c p => if a.ea % op.size ≠ 0 then finish (.held .align 0) z.s
      else let r := laneScratch u op a c p z.s; finish r.1 r.2
    | .no =>
      let r := laneReach z.s cfg a.ea op.size needW false
      match r.1 with
      | .ends e => finish e r.2
      | .ok m => { z with s := storeMapped r.2 u instr a.slot cfg a.ea m (bytesOf op.size a.data) }
  | .atomic _ _ _ =>
    match window z.s t a.ea op.size with
    | .malformed => finish (.held .invalidAddr 0) z.s
    | .out => finish (.held .window 0) z.s
    | .at c p => if a.ea % op.size ≠ 0 then finish (.held .align 0) z.s
      else let r := laneScratch u op a c p z.s; finish r.1 r.2
    | .no =>
      let r := laneReach z.s cfg a.ea op.size needAtomic true
      match r.1 with
      | .ends e => finish e r.2
      | .ok m =>
        let c := l1Core cfg a.ea
        let s1 := if m.peer.isSome then r.2 else invalidateOwn (drainLine r.2 c (m.pa / 128)) c m.pa op.size
        { z with s := s1, atoms := z.atoms ++ [(c, m.peer.isSome, { slot := a.slot, pa := m.pa, va := a.ea, y := a.data, cmp := a.cmp })] }

/-- The first n of a list and the rest, in chunks. -/
def chunks {α : Type} (n : Nat) : Nat → List α → List (List α)
  | 0, _ => []
  | _, [] => []
  | fuel + 1, l => l.take n :: chunks n fuel (l.drop n)

/-- The atomic lanes of one instruction as batches (R40): one line each, at most 32 operations of 32 bits, 16 of 64 or 8 of 128, lanes ascending. -/
def batchesOf (size : Nat) (atoms : List (Nat × Bool × AtomLane)) : List (Nat × Bool × List AtomLane) :=
  let limit := if size = 16 then 8 else if size = 8 then 16 else 32
  let keys := (atoms.map (fun a => (a.1, a.2.1, a.2.2.pa / 128))).dedup
  keys.flatMap (fun k =>
    let ls := (atoms.filter (fun a => decide ((a.1, a.2.1, a.2.2.pa / 128) = k))).map (fun a => a.2.2)
    (chunks limit ls.length ls).map (fun b => (k.1, k.2.1, b)))

/-- The batches leave the core (R40, R41); a returning instruction counts them. -/
def sendBatches (s : State) (u instr : Nat) (op : MemOp) (atoms : List (Nat × Bool × AtomLane)) : State :=
  match op.kind with
  | .atomic o ty ret =>
    let bs := batchesOf op.size atoms
    let s1 := if ret then
        match op.late with
        | some id => s.updTeam u (fun t => updLate t id (fun l => { l with wait := match l.wait with
          | .batches n => .batches (n + bs.length)
          | w => if bs.length = 0 then w else .batches bs.length }))
        | none => s
      else s
    bs.foldl (fun s b =>
      let w : Batch :=
        { op := o, ty := ty, size := op.size, dst := op.dst, regs := op.regs, late := if ret then op.late else none, peer := b.2.1,
          lanes := b.2.2 }
      pushOut s b.1
        { team := u, instr := instr, slot := (b.2.2.head?.map AtomLane.slot).getD 0, va := (b.2.2.head?.map AtomLane.va).getD 0,
          work := .batch w, counted := false }) s1
  | _ => s

/-- Every lane settled in ascending order, then the batches sent (R376). -/
def settleLanes (s : State) (u : Nat) (t : Team) (op : MemOp) (lanes : List LaneAcc) : Settle :=
  let q := takeId s
  let z := lanes.foldl (settleLane u t op q.1) { s := q.2, atoms := [], parks := [], helds := [] }
  { z with s := sendBatches z.s u q.1 op z.atoms }

/-- Lanes that fail the window bounds check, made over all lanes before any other check (R273, check 1). -/
def windowFails (s : State) (t : Team) (op : MemOp) (lanes : List LaneAcc) : List LaneAcc :=
  lanes.filter (fun a => match op.kind with
    | .fetch _ => false
    | _ => decide (window s t a.ea op.size = .out))

/-! ## Uniform accesses (R278): one run of bytes in pieces -/

/-- The pieces of a run: address and size, each within 16 bytes. -/
def pieces (va n : Nat) : List (Nat × Nat) :=
  (List.range ((va % 16 + n + 15) / 16)).map (fun k =>
    let lo := if k = 0 then va else va / 16 * 16 + 16 * k
    let hi := if va / 16 * 16 + 16 * (k + 1) ≤ va + n then va / 16 * 16 + 16 * (k + 1) else va + n
    (lo, hi - lo))

/-- How the check of a run ends: every piece may be accessed, or the first that may not. -/
inductive RunRes where
  | ok
  | ends (r : LaneRes)
  deriving DecidableEq, Repr

/-- The checks of a run of n bytes at an aligned address (R273): the window as one operand (R76), then each piece translated. -/
def checkRun (s : State) (t : Team) (va n align : Nat) (need : Need) (windows : Bool) : RunRes × State :=
  if isWindowVa va && !windows then (.ends (.held .invalidAddr 0), s)
  else
    match window s t va n with
    | .malformed => (.ends (.held .invalidAddr 0), s)
    | .out => (.ends (.held .window 0), s)
    | .at c p =>
      if va % align ≠ 0 then (.ends (.held .align 0), s)
      else if need.r && scratchPoisoned s c p n then (.ends (.held .integrity 0), s) else (.ok, s)
    | .no =>
      if bits va 63 52 ≠ 0 then (.ends (.held .invalidAddr 0), s)
      else if va % align ≠ 0 then (.ends (.held .align 0), s)
      else
        (pieces va n).foldl (fun (r : RunRes × State) p =>
          match r.1 with
          | .ends _ => r
          | .ok =>
            let q := reachLine r.2 t.cfg p.1 p.2 need false
            match q.1 with
            | .ok _ => (.ok, q.2)
            | .ends e => (.ends e, q.2)) (.ok, s)

/-- A run read (R278): its bytes, none when a piece is poisoned, or refused by a peer (R397). -/
def readRun (s : State) (u : Nat) (t : Team) (va n : Nat) : Option (List Byte) × State :=
  match window s t va n with
  | .at c p => if scratchPoisoned s c p n then (none, s) else (some (Memory.reads (s.core c).scratch p n), s)
  | _ =>
    (pieces va n).foldl (fun (r : Option (List Byte) × State) p =>
      match r.1 with
      | none => r
      | some bs =>
        let q := reachLine r.2 t.cfg p.1 p.2 needR false
        match q.1 with
        | .ok m =>
          let v := if m.peer.isSome && Config.peerRefuses q.2.fresh then (none, (drawWord q.2).2) else loadMapped q.2 u t.cfg p.1 p.2 m
          match v.1 with
          | some x => (some (bs ++ bytesOf p.2 x), v.2)
          | none => (none, v.2)
        | .ends _ => (none, q.2)) (some [], s)

/-- A run written. -/
def writeRun (s : State) (u slot : Nat) (t : Team) (va : Nat) (bs : List Byte) : State :=
  match window s t va bs.length with
  | .at c p => scratchWrite s c p bs
  | _ =>
    let q := takeId s
    ((pieces va bs.length).foldl (fun (r : List Byte × State) p =>
      let y := reachLine r.2 t.cfg p.1 p.2 needW false
      match y.1 with
      | .ok m => (r.1.drop p.2, storeMapped y.2 u q.1 slot t.cfg p.1 m (r.1.take p.2))
      | .ends _ => (r.1.drop p.2, y.2)) (bs, q.2)).2

/-- What a team has stored outside its first level is written at home (R309, R311). -/
def settleStores (s : State) (u : Nat) (cfg : TeamCfg) : State :=
  (teamCores cfg).foldl (fun s c => drainWhere c (fun e => decide (e.team = u) && (match e.work with
    | .homeWrite _ _ => true
    | .peerWrite _ _ => true
    | _ => false)) (s.core c).out.length s) s

/-! ## The acquire side (R51, R92, R202, R216) -/

/-- A line with a word that the core has stored to and does not own yet, and of which it holds a clean byte. -/
def mixedLine (s : State) (c : Nat) (l : L1Line) : Bool :=
  (List.range 32).any (fun i =>
    let b := runMask 128 (4 * i) 4
    decide (l.dirty &&& b ≠ 0) && decide (l.valid &&& ~~~ l.dirty &&& b ≠ 0) && decide (tblGet s.own (32 * l.pline + i) ≠ some c))

/-- The registrations of such lines reach home, which brings their clean bytes up to date: ACQUIRE keeps those bytes valid (R51), and a lane that has
acquired reads no older value (R199; log 62). -/
def settleMixed (s : State) (c : Nat) : State :=
  (((s.core c).l1.filter (mixedLine s c)).map L1Line.pline).foldl (fun s p => drainLine s c p) s

/-- ACQUIRE's invalidation in a core: every unowned word that holds no dirty byte, the fetch cache and the instruction cache. -/
def acquireCore (s0 : State) (c : Nat) : State :=
  let s := settleMixed s0 c
  s.updCore c (fun x => { x with
    fetchLines := [], icache := [],
    l1 := x.l1.map (fun l =>
      { l with valid := (List.range 32).foldl (fun (v : BitVec 128) i =>
          let b := runMask 128 (4 * i) 4
          if l.owned.getLsbD i || decide (l.dirty &&& b ≠ 0) || decide (tblGet s.own (32 * l.pline + i) = some c) then v else v &&& ~~~ b) l.valid }) })

/-- The acquire of a team: its core's, or under fusion its cluster's first levels. -/
def acquireTeam (s : State) (cfg : TeamCfg) : State := (teamCores cfg).foldl acquireCore s

end Sys2Proof.Machine
end

