-- ==== Sys2Proof/Machine/Code.lean ====
section
/-! DEFINITION. Code as the team fetches it (R214 to R216, R221 to R227): words through the instruction cache, clause and function headers, and the
clause with the checks of R173. -/

namespace Sys2Proof.Machine

/-- A word of code, or how its fetch ends (R215). -/
inductive CodeRes where
  | ok (w : Word)
  | ends (r : LaneRes)
  deriving DecidableEq, Repr

/-- A word of a raw line. -/
def lineWord (d : LineData) (va : Nat) : Word := (d >>> (8 * (va % 128))).setWidth 32

/-- A raw line kept in the instruction cache of 256 lines (which leaves is not architectural, log 13). -/
def keepCode (s : State) (core : Nat) (l : RawLine) : State :=
  s.updCore core (fun c => { c with icache := (if c.icache.length < 256 then c.icache else c.icache.drop 1) ++ [l] })

/-- A word of code fetched through the team's translation with X (R214); a window address is INVALID_ADDR (R423). DESIGN CHOICE (log 70): a poisoned line
(R19) is INTEGRITY at once, taken as the other fetch faults are. DESIGN CHOICE (log 71): a word of a peer's page is a free word at every fetch, and the
instruction cache keeps no line of it. -/
def codeWord (s : State) (cfg : TeamCfg) (va : Nat) : CodeRes × State :=
  match (s.core cfg.core).icache.find? (fun l => decide (l.vline = va / 128) && decide (l.ctx = cfg.ctx)) with
  | some l => (.ok (lineWord l.data va), s)
  | none =>
    if isWindowVa va then (.ends (.held .invalidAddr 0), s)
    else
      let r := reach s cfg va needX false
      match r.1 with
      | .ends e => (.ends e, r.2)
      | .ok m =>
        if m.peer.isSome then
          let q := drawWord r.2
          (.ok q.1, q.2)
        else
          let h := homeTake r.2 true (m.pa / 128 * 128) 128
          match h.1 with
          | none => (.ends (.held .integrity 0), h.2)
          | some bs =>
            let d : LineData := BitVec.ofNat 1024 (natOfBytes bs)
            (.ok (lineWord d va), keepCode h.2 cfg.core { vline := va / 128, ctx := cfg.ctx, pline := m.pa / 128, data := d })

/-- n words of code upward from an address, or the first fetch that ends otherwise. -/
def codeWords (cfg : TeamCfg) : Nat → Nat → State → Except LaneRes (List Word) × State
  | 0, _, s => (.ok [], s)
  | n + 1, va, s =>
    let r := codeWord s cfg va
    match r.1 with
    | .ends e => (.error e, r.2)
    | .ok w =>
      let q := codeWords cfg n ((va + 4) % 2 ^ 52) r.2
      match q.1 with
      | .ok ws => (.ok (w :: ws), q.2)
      | .error e => (.error e, q.2)

/-! ## Headers (R171, R179, R222, R223) -/

/-- A clause header: bits 31:25 all ones. -/
def isHeader (w : Word) : Bool := decide (bits w.toNat 31 25 = 127)
def hdrLen (w : Word) : Nat := bits w.toNat 24 20
def hdrWait (w : Word) : Nat := bits w.toNat 19 8
def hdrReads (w : Word) : Nat := bits w.toNat 7 4
def hdrOthers (w : Word) : Nat := bits w.toNat 3 0

/-- A function header's fields (R179): RULE, REDOP, VBUDGET, the width n, NARG, NRET. -/
structure FnHdr where
  rule : Rule
  redop : Nat
  vbudget : Nat
  n : Nat
  narg : Nat
  nret : Nat
  deriving DecidableEq, Repr

/-- A power of two from 1 to 1,024. -/
def powerTo1024 (n : Nat) : Bool := (List.range 11).any (fun k => decide (n = 2 ^ k))

/-- The two words of a well-formed function header (R223); that a clause header follows is checked beside it. -/
def fnHeader (w0 w1 : Word) : Option FnHdr :=
  let x := w0.toNat
  let y := w1.toNat
  let rule := bits x 23 22
  let width := bits x 9 0
  if bits x 31 24 = 0xFC ∧ rule ≤ 2 ∧ bits x 21 18 ≤ 6 ∧ 1 ≤ bits x 17 10 ∧ bits x 17 10 ≤ 192 ∧
      (if rule = 1 then powerTo1024 (width + 1) = true else width = 0) ∧ bits y 31 27 ≤ 16 ∧ bits y 26 22 ≤ 16 ∧ bits y 21 0 = 0 then
    some { rule := if rule = 0 then .same else if rule = 1 then .widen else .gather, redop := bits x 21 18, vbudget := bits x 17 10, n := width + 1,
           narg := bits y 31 27, nret := bits y 26 22 }
  else none

/-- The three words at a function header's address: the header's two, when it is well formed and a clause header follows. -/
def fnWords (ws : List Word) : Option (FnHdr × Word × Word) :=
  match ws with
  | [w0, w1, w2] => if isHeader w2 then (fnHeader w0 w1).map (fun h => (h, w0, w1)) else none
  | _ => none

/-! ## The classes of R175, and the control transfers (R225), by opcode -/

/-- A reads-class opcode: the loads, the returning atomics, FDIV to FTANH, FETCH, FETCH2, QLOCK, QPOP, QPUSH, CARD, CPOLL, LSTAT. -/
def readsClass (op : Nat) : Bool :=
  decide (0x90 ≤ op ∧ op ≤ 0x92) || decide (0xA0 ≤ op ∧ op ≤ 0xAB) || decide (0x3C ≤ op ∧ op ≤ 0x44) ||
  [0x96, 0x98, 0xC0, 0xC1, 0xB9, 0xF0, 0xF1, 0xC3, 0xC5, 0xF4].contains op

/-- An others-class opcode: RINGLD, HBIND, MLOAD. -/
def othersClass (op : Nat) : Bool := [0x65, 0xC2, 0x8B].contains op

/-- A control transfer's opcode. -/
def endsClause (op : Nat) : Bool := decide (0xE0 ≤ op ∧ op ≤ 0xE5) || decide (op = 0xE8) || decide (0xF5 ≤ op ∧ op ≤ 0xF8)

/-- A memory instruction's opcode, which needs a permit (R357). -/
def memOpcode (op : Nat) : Bool :=
  decide (0x90 ≤ op ∧ op ≤ 0xBD) || decide (0xC0 ≤ op ∧ op ≤ 0xC3) || decide (0xD3 ≤ op ∧ op ≤ 0xD5) || decide (0xE9 ≤ op ∧ op ≤ 0xEB) ||
  decide (0xF0 ≤ op ∧ op ≤ 0xF3) || [0x8A, 0x8B, 0xD0, 0x65].contains op

/-- The instructions of a clause's words with their literals (R221); none when the last one's literal is missing. -/
def scanWords : List Word → Option (List (Word × Option Word))
  | [] => some []
  | [w] => if ownsLiteral w then none else some [(w, none)]
  | w :: l :: rest =>
    if ownsLiteral w then (scanWords rest).map (fun r => (w, some l) :: r) else (scanWords (l :: rest)).map (fun r => (w, none) :: r)

/-- The checks of R173 on the words of the clause alone. -/
def clauseWordsOk (h : Word) (is : List (Word × Option Word)) : Bool :=
  is.all (fun i =>
    !(readsClass (opField i.1) && decide (hdrReads h = 15)) && !(othersClass (opField i.1) && decide (hdrOthers h = 15))) &&
  is.dropLast.all (fun i => !endsClause (opField i.1))

/-- The reserved values of a clause header (R173). -/
def headerOk (h : Word) : Bool :=
  decide (hdrLen h ≤ 23) && !(decide (12 ≤ hdrReads h) && decide (hdrReads h ≤ 14)) && !(decide (12 ≤ hdrOthers h) && decide (hdrOthers h ≤ 14))

/-- A branch's address (R226): an offset in words from its clause header. -/
def branchAddr (pc off16 : Nat) : Nat := wrapNat 52 ((pc : Int) + 4 * sextInt 16 off16)
/-- A CALL's target (R227). -/
def callAddr (pc : Nat) (lit : Word) : Nat := wrapNat 52 ((pc : Int) + 4 * sextInt 32 lit.toNat)

/-- The header positions the checks inspect behind the last instruction (R173, R214). -/
def inspected (pc n : Nat) (last : Word × Option Word) : List Nat :=
  if !endsClause (opField last.1) then [(pc + 4 * (n + 1)) % 2 ^ 52]
  else
    match last.2 with
    | some l =>
      if bField last.1 ≠ 0xF0 then []
      else if opField last.1 = 0xE1 then [branchAddr pc (bits l.toNat 15 0), branchAddr pc (bits l.toNat 31 16)]
      else if opField last.1 = 0xE0 ∨ opField last.1 = 0xE2 then [branchAddr pc (bits l.toNat 15 0)]
      else []
    | none => []

/-- How the fetch and the checks of a clause end: the clause, with whether it holds a memory instruction; a fault; ILLEGAL_CLAUSE. -/
inductive ClauseRes where
  | ok (c : Clause) (mem : Bool)
  | ends (r : LaneRes)
  | illegal
  deriving DecidableEq, Repr

/-- Every one of the positions holds a clause header. -/
def headersAt (cfg : TeamCfg) : List Nat → State → Except LaneRes Bool × State
  | [], s => (.ok true, s)
  | a :: rest, s =>
    let r := codeWord s cfg a
    match r.1 with
    | .ends e => (.error e, r.2)
    | .ok w => if isHeader w then headersAt cfg rest r.2 else (.ok false, r.2)

/-- The clause at a header position: fetched whole and checked (R173, R214, R222). DESIGN CHOICE (log 106): the clause's own words are judged first, then
the inspected positions in the order target, rejoin; the first fault or break decides. -/
def fetchClause (s : State) (cfg : TeamCfg) (pc : Nat) : ClauseRes × State :=
  let r := codeWord s cfg pc
  match r.1 with
  | .ends e => (.ends e, r.2)
  | .ok h =>
    if !isHeader h || !headerOk h then (.illegal, r.2)
    else
      let n := hdrLen h + 1
      let q := codeWords cfg n ((pc + 4) % 2 ^ 52) r.2
      match q.1 with
      | .error e => (.ends e, q.2)
      | .ok ws =>
        match scanWords ws with
        | none => (.illegal, q.2)
        | some is =>
          let last := (is.getLast?).getD (0, none)
          if !clauseWordsOk h is then (.illegal, q.2)
          else
            let p := headersAt cfg (inspected pc n last) q.2
            match p.1 with
            | .error e => (.ends e, p.2)
            | .ok false => (.illegal, p.2)
            | .ok true =>
              let c : Clause := { header := pc, words := ws, idx := 1, reads := hdrReads h, others := hdrOthers h, target := [] }
              let mem := is.any (fun i => memOpcode (opField i.1))
              if opField last.1 = 0xE3 ∧ bField last.1 = 0xF0 then
                let f := codeWords cfg 3 (callAddr pc (last.2.getD 0)) p.2
                match f.1 with
                | .error e => (.ends e, f.2)
                | .ok ws => match fnWords ws with
                  | some (_, w0, w1) => (.ok { c with target := [w0, w1] } mem, f.2)
                  | none => (.illegal, f.2)
              else (.ok c mem, p.2)

end Sys2Proof.Machine
end

