-- ==== Sys2Proof/Machine/Ops.lean ====
section
/-! DEFINITION. The named operations of a team: late operations and flags, the waiting points, the reconvergence stack, taking a trap and returning
from one, parking and replay, and the issue of an instruction with the checks of R231. -/

namespace Sys2Proof.Machine

/-! ## Late operations (R114, R175, R176) -/

/-- A late operation waits for nothing more. -/
def lateReady (t : Team) (o : LateOp) : Bool :=
  decide (o.wait = .none) && !(match t.parked with
    | some p => (match p.op with
      | some m => decide (m.late = some o.id)
      | none => false)
    | none => false)

/-- A ring slot changed. -/
def updRing (t : Team) (k : Nat) (f : Ring → Ring) : Team :=
  { t with rings := match t.rings[k]? with
      | some (some r) => setNth t.rings k (some (f r))
      | _ => t.rings }

/-- The INTEGRITY faults of a late operation's poisoned lanes (R276): an acquire side takes them, and a release side those of an atomic. -/
def heldOf (o : LateOp) : List HeldIntegrity :=
  o.poisoned.map (fun p => { flag := some o.flag, rel := o.atomic, acq := true, slot := p.1, va := p.2, deferred := false })

/-- The mask bits of some lanes that a late operation brings. -/
def arriveMask (t : Team) (o : LateOp) (lanes : Mask) : Team :=
  match o.mask with
  | some (m, x) => writeMask t m ((x &&& lanes) ||| ((t.masks[m]?).getD 0 &&& ~~~ lanes))
  | none => t

/-- Some lanes' values of a late operation arrive before the rest (R176): their registers and mask bits are written, once. -/
def arriveLanes (t : Team) (o : LateOp) (lanes : Mask) : Team :=
  let t1 := (o.vwrites.filter (fun w => lanes.getLsbD w.1)).foldl (fun t w => writeWord t w.1 (.v w.2.1) w.2.2) t
  updLate (arriveMask t1 o (lanes &&& ~~~ o.came)) o.id
    (fun o => { o with vwrites := o.vwrites.filter (fun w => !lanes.getLsbD w.1), came := o.came ||| lanes })

/-- The effects of a completed late operation: registers, mask bits of LIVE slots (R250), FPST, a built ring table, INTEGRITY held for the waiting
point of R276, and the flag lowered. What has arrived before is not written again. DESIGN CHOICE (log 69): the words of a lane, and of s registers, arrive
together. -/
def finishLate (t : Team) (o : LateOp) : Team :=
  let t1 := o.vwrites.foldl (fun t w => writeWord t w.1 (.v w.2.1) w.2.2) t
  let t2 := o.swrites.foldl (fun t w => writeWord t 0 (.s w.1) w.2) t1
  let t3 := arriveMask t2 o (~~~ o.came)
  let t4 := orFpst t3 o.fpst
  let t5 := match o.build with
    | some k => updRing t4 k (fun r => { r with building := false })
    | none => t4
  let t6 := { t5 with
    integrity := t5.integrity ++ heldOf o,
    late := t5.late.filter (fun x => decide (x.id ≠ o.id)) }
  lowerFlag t6 o.flag

/-- What arrives of a late operation that is ready; that of a saved team arrives when the team is restored (R325, R359). -/
def landLate (s : State) (u id : Nat) (f : Team → LateOp → Team) : State :=
  s.updTeam u (fun t => match t.late.find? (fun o => decide (o.id = id)) with
    | some o => if lateReady t o && !t.saved then f t o else t
    | none => t)

/-- A late operation completes if it is ready. -/
def completeLate (s : State) (u id : Nat) : State := landLate s u id finishLate

/-- LATE_RESULT: what is left of an operation, or some lanes of it. -/
def lateArrives (s : State) (u : Nat) (p : LatePart) : State :=
  match p with
  | .all id => completeLate s u id
  | .lanes id lanes => landLate s u id (fun t o => arriveLanes t o lanes)

/-- Every ready late operation of a team completes, oldest first. -/
def completeAll (s : State) (u : Nat) : State :=
  match tblGet s.teams u with
  | some t => (t.late.map LateOp.id).foldl (fun s id => completeLate s u id) s
  | none => s

/-- The team's returning atomics take their values at home (R202). -/
def drainReturning (s : State) (u : Nat) (cfg : TeamCfg) : State :=
  (teamCores cfg).foldl (fun s c => drainWhere c (fun e => decide (e.team = u) && (match e.work with
    | .batch b => b.late.isSome
    | _ => false)) (s.core c).out.length s) s

/-- What a team can finish by itself is finished (log 5): its returning atomics are served and its late operations complete. -/
def drainFlags (s : State) (u : Nat) : State :=
  match tblGet s.teams u with
  | some t => completeAll (drainReturning s u t.cfg) u
  | none => s

/-- A late operation started on a flag (R114, R231). -/
def startLate (s : State) (u flag : Nat) (f : LateOp → LateOp) : Nat × State :=
  let q := takeId s
  let o : LateOp :=
    { id := q.1, flag := flag, lane := ((tblGet s.teams u).bind (fun t => lowestSlot t.cfg.capacity t.exec)).getD 0, atomic := false, near := false,
      wait := .none, vwrites := [], swrites := [], mask := none, fpst := 0, came := 0, poisoned := [], peers := [], build := none, hbind := none, pop := none }
  (q.1, q.2.updTeam u (fun t => raiseFlag { t with late := t.late ++ [f o] } flag))

/-- Some QPOP or QLOCK of the team still waits at its slice: its later memory instructions wait (R289, R325). -/
def slicePending (t : Team) : Bool := t.late.any (fun o => match o.wait with
  | .qpop _ => true
  | .qlock _ => true
  | _ => false)

/-! ## Paths (R177, R178) -/

/-- The reconvergence depth below the running frame's own entries: the innermost call's, or the handler's (R332, R178). -/
def frameBase (t : Team) : Nat :=
  match t.handler with
  | some (rd, cd) => if t.calls.length ≤ cd then rd else (t.calls.head?.map CallRec.rbase).getD 0
  | none => (t.calls.head?.map CallRec.rbase).getD 0

/-- The running frame has entries of its own. -/
def ownEntries (t : Team) : Bool := decide (frameBase t < t.reconv.length)

/-- The path arrives at its rejoin (R178): it is about to start the clause at the top entry's REJOIN, or its EXEC is empty. -/
def arrives (t : Team) : Bool :=
  match t.reconv with
  | [] => false
  | e :: _ => ownEntries t && (decide (t.exec = 0) || decide (e.rejoin = t.pc))

/-- One entry popped (R178). -/
def popEntry (t : Team) : Team :=
  match t.reconv with
  | [] => t
  | e :: rest => { t with reconv := rest, mode := e.mode, exec := e.mask &&& t.frame, pc := if e.pend then e.pc else e.rejoin }

/-- Entries popped while the path arrives. -/
def arrive : Nat → Team → Team
  | 0, t => t
  | n + 1, t => if arrives t then arrive n (popEntry t) else t

/-- The team stands at a header position: the clause has ended, w0 to w3 are lost (R174). -/
def standAt (t : Team) (pc : Nat) : Team :=
  { t with pc := pc % 2 ^ 52, clause := none, wregs := [], retry := none, captured := none, marked := [], kept := [], parked := none, wait := .none }

/-- The team goes on at a header position, and the path arrives where it may, entries of the frame stack included: those come back in the same
operation (R192). -/
def goTo (t : Team) (pc : Nat) : Team := let t1 := standAt t pc; arrive (t1.reconv.length + 1) t1

/-- Entries popped while the path arrives and the top one is in hardware (R192). -/
def arriveHw : Nat → Team → Team
  | 0, t => t
  | n + 1, t => if arrives t && decide (t.spilledEntries < t.reconv.length) then arriveHw n (popEntry t) else t

/-- The team goes on at a header position by an instruction that does not touch the frame stack: an entry that is there comes back at the start of the
next clause. -/
def goOn (t : Team) (pc : Nat) : Team := let t1 := standAt t pc; arriveHw (t1.reconv.length + 1) t1

/-- The word after the clause. -/
def clauseEnd (c : Clause) : Nat := (c.header + 4 * (c.words.length + 1)) % 2 ^ 52

/-- The word of the clause that issues next. -/
def Clause.word (c : Clause) : Word := nthD c.words (c.idx - 1) 0
/-- The literal behind it. -/
def Clause.lit (c : Clause) : Word := if ownsLiteral c.word then nthD c.words c.idx 0 else 0

/-- The team goes on to the next word of its clause, past the literal; at the clause's end, to the word after it (R225). -/
def stepTeam (t : Team) : Team :=
  match t.clause with
  | none => t
  | some c =>
    let k := c.idx + (if ownsLiteral c.word then 2 else 1)
    if k ≤ c.words.length then
      { t with clause := some { c with idx := k }, retry := none, captured := none, marked := [], kept := [], parked := none, wait := .none }
    else goOn t (clauseEnd c)

def stepOn (s : State) (u : Nat) : State := s.updTeam u stepTeam

/-! ## The frame stack (R115, R192) -/

/-- Bytes of a lane frame of B registers. -/
def laneFrameSize (budget : Nat) : Nat := (16 + 4 * budget + 15) / 16 * 16

def pad16 (n : Nat) : Nat := (n + 15) / 16 * 16

/-- Bytes of a gather frame. -/
def gatherSize (g : GatherFrame) : Nat :=
  16 + pad16 (2 * g.callers.length) + pad16 (4 * (g.callers.length * g.narg)) + pad16 (4 * (g.callers.length * g.nret)) + pad16 (2 * g.callers.length)

/-- The hardware stacks hold 16 entries each: when one is full its oldest entry moves to the frame stack, and none that is gone is there (R178, R192). -/
def fitStacks (t : Team) : Team :=
  { t with
    spilledEntries := min (max t.spilledEntries (t.reconv.length - 16)) t.reconv.length,
    spilledCalls := min (max t.spilledCalls (t.calls.length - 16)) t.calls.length }

/-- Bytes of the frame stack in use: entries and call records out of hardware, spilled lane frames, gather frames. -/
def frameUse (t : Team) : Nat :=
  160 * t.spilledEntries + 160 * t.spilledCalls +
  (t.calls.map (fun c => (c.spilled.map (fun f => laneFrameSize f.regs.length)).sum + (match c.gather with
    | some g => gatherSize g
    | none => 0))).sum

/-- A reconvergence entry's bytes. -/
def reconvBytes (e : Reconv) : List Byte :=
  bytesOf 128 e.mask.toNat ++ bytesOf 8 e.pc ++ bytesOf 8 e.rejoin ++ bytesOf 4 e.mode.toNat ++ [if e.pend then 2 else 1] ++ List.replicate 11 0

def ruleCode : Rule → Nat
  | .same => 0
  | .widen => 1
  | .gather => 2

/-- A call record's bytes. -/
def callBytes (c : CallRec) : List Byte :=
  bytesOf 128 c.exec.toNat ++ bytesOf 8 c.retPc ++ bytesOf 4 c.mode.toNat ++ bytesOf 1 3 ++ bytesOf 1 (ruleCode c.rule) ++ bytesOf 1 c.nret ++
  bytesOf 1 c.vd ++ bytesOf 4 c.next ++ bytesOf 4 c.groups.length ++ bytesOf 4 c.spilled.length ++ List.replicate 4 0

/-- A lane frame's bytes. -/
def laneFrameBytes (f : LaneFrame) : List Byte :=
  let body := bytesOf 2 f.slot ++ [f.bits] ++ bytesOf 1 4 ++ bytesOf 4 f.regs.length ++ List.replicate 8 0 ++ f.regs.flatMap (fun w => bytesOf 4 w.toNat)
  body ++ List.replicate (laneFrameSize f.regs.length - body.length) 0

def padBytes (l : List Byte) : List Byte := l ++ List.replicate (pad16 l.length - l.length) 0

/-- A gather frame's bytes. -/
def gatherBytes (g : GatherFrame) : List Byte :=
  let n := g.callers.length
  let res (k : Nat) : Word := (tblGet g.results k).getD 0
  let set (k : Nat) : Nat := ((List.range g.nret).map (fun j => if (tblGet g.results (k * g.nret + j)).isSome then 2 ^ j else 0)).sum
  bytesOf 4 n ++ bytesOf 1 g.narg ++ bytesOf 1 g.nret ++ bytesOf 1 5 ++ List.replicate 9 0 ++
  padBytes (g.callers.flatMap (fun c => bytesOf 2 c)) ++ padBytes (g.args.flatMap (fun w => bytesOf 4 w.toNat)) ++
  padBytes ((List.range (n * g.nret)).flatMap (fun k => bytesOf 4 (res k).toNat)) ++ padBytes ((List.range n).flatMap (fun k => bytesOf 2 (set k)))

/-- The records the frame stack holds, packed from its start; their order is the model's (log 19). -/
def frameImage (t : Team) : List Byte :=
  (t.reconv.reverse.take t.spilledEntries).flatMap reconvBytes ++
  (t.calls.reverse.take t.spilledCalls).flatMap callBytes ++
  t.calls.reverse.flatMap (fun c => c.spilled.flatMap laneFrameBytes ++ (match c.gather with
    | some g => gatherBytes g
    | none => []))

/-- n bytes at an offset of a record as a number. -/
def recNat (bs : List Byte) (off n : Nat) : Nat := natOfBytes ((bs.drop off).take n)

/-- A list with n entries: its own, and d where it has none. -/
def fitTo {α : Type} (n : Nat) (d : α) (l : List α) : List α := (List.range n).map (fun k => nthD l k d)

/-- A reconvergence entry as its bytes give it, unchecked (R116), and the bytes after it. -/
def reloadEntry (_ : Reconv) (bs : List Byte) : Reconv × List Byte :=
  ({ pend := decide (recNat bs 0x94 1 = 2), mask := BitVec.ofNat 1024 (recNat bs 0 128), pc := recNat bs 0x80 8 % 2 ^ 52,
     rejoin := recNat bs 0x88 8 % 2 ^ 52, mode := BitVec.ofNat 32 (recNat bs 0x90 4) }, bs.drop 160)

/-- A call record as its bytes give it: its callers per round and its spilled records are as many as are found there (log 19). -/
def reloadCall (c : CallRec) (bs : List Byte) : CallRec × List Byte :=
  ({ c with
     exec := BitVec.ofNat 1024 (recNat bs 0 128), retPc := recNat bs 0x80 8 % 2 ^ 52, mode := BitVec.ofNat 32 (recNat bs 0x88 4),
     rule := if recNat bs 0x8D 1 = 0 then .same else if recNat bs 0x8D 1 = 1 then .widen else .gather,
     nret := recNat bs 0x8E 1, vd := recNat bs 0x8F 1, next := recNat bs 0x90 4, groups := fitTo (min (recNat bs 0x94 4) 1024) 0 c.groups,
     spilled := fitTo (min (recNat bs 0x98 4) 1024) { slot := 0, bits := 0, regs := [], poison := [] } c.spilled }, bs.drop 160)

/-- A lane frame as its bytes give it, with as many registers as B names (log 19). -/
def reloadLane (f : LaneFrame) (bs : List Byte) : LaneFrame × List Byte :=
  let b := min (recNat bs 4 4) 192
  ({ f with
     slot := recNat bs 0 2 % 1024, bits := BitVec.ofNat 8 (recNat bs 2 1),
     regs := (List.range b).map (fun r => BitVec.ofNat 32 (recNat bs (16 + 4 * r) 4)) }, bs.drop (laneFrameSize b))

/-- A gather frame as its bytes give it, N, NARG and NRET among them (log 19). -/
def reloadGather (bs : List Byte) : GatherFrame :=
  let n := min (recNat bs 0 4) 1024
  let narg := recNat bs 4 1
  let nret := recNat bs 5 1
  let a := 16 + pad16 (2 * n)
  let r := a + pad16 (4 * (n * narg))
  let b := r + pad16 (4 * (n * nret))
  { callers := (List.range n).map (fun k => recNat bs (16 + 2 * k) 2 % 1024),
    narg := narg, args := (List.range (n * narg)).map (fun k => BitVec.ofNat 32 (recNat bs (a + 4 * k) 4)),
    nret := nret,
    results := ((List.range (n * nret)).filter (fun k => (recNat bs (b + 2 * (k / nret)) 2).testBit (k % nret))).map
      (fun k => (k, BitVec.ofNat 32 (recNat bs (r + 4 * k) 4))) }

/-- Records read one after another, each from the bytes the one before has left. -/
def reloadList {α : Type} (f : α → List Byte → α × List Byte) : List α → List Byte → List α × List Byte
  | [], bs => ([], bs)
  | a :: rest, bs =>
    let r := f a bs
    let q := reloadList f rest r.2
    (r.1 :: q.1, q.2)

/-- The spilled lane frames and the gather frame of a call. -/
def reloadFrames (c : CallRec) (bs : List Byte) : CallRec × List Byte :=
  let q := reloadList reloadLane c.spilled bs
  match c.gather with
  | none => ({ c with spilled := q.1 }, q.2)
  | some _ =>
    let g := reloadGather q.2
    ({ c with spilled := q.1, gather := some g }, q.2.drop (gatherSize g))

/-- The team with the records of its frame stack as the bytes found there give them (R116). -/
def reloadImage (t : Team) (bs : List Byte) : Team :=
  let es := t.reconv.reverse
  let cs := t.calls.reverse
  let r1 := reloadList reloadEntry (es.take t.spilledEntries) bs
  let r2 := reloadList reloadCall (cs.take t.spilledCalls) r1.2
  let r3 := reloadList reloadFrames (r2.1 ++ cs.drop t.spilledCalls) r2.2
  { t with reconv := (r1.1 ++ es.drop t.spilledEntries).reverse, calls := r3.1.reverse }

/-! ## Taking a trap (R332, R333, R379 to R382) and returning from one (R334) -/

/-- A trap of a class for the named lanes; pending and the addresses are those of a memory class. -/
def trapOf (c : TrapClass) (m : Mask) : TrapInfo := { cls := c, detail := 0, faulted := m, pending := m, addr := [], clauseLevel := false }

/-- The innermost open call as the record names it (R380). -/
def frameCode (t : Team) : Nat :=
  match t.calls with
  | [] => 0
  | c :: _ => 1 + ruleCode c.rule

/-- The trap record of R380 for a trap of the team. -/
def recordOf (t : Team) (i : TrapInfo) : TrapRec :=
  { cls := classCode i.cls, detail := i.detail, pc := (t.clause.map Clause.header).getD t.pc,
    word := if i.clauseLevel then 0 else (t.clause.map Clause.idx).getD 0,
    mode := t.mode, rdepth := t.reconv.length, cdepth := t.calls.length, frame := frameCode t,
    sregs := t.sregs.toList.drop 24, faulted := i.faulted, exec := t.exec, pending := i.pending,
    addr := i.addr, wregs := t.wregs.filter (fun w => t.exec.getLsbD (w.1 / 4)) }

/-- The team halts (R384): TEAM_HALT finishes it. -/
def haltTeam (s : State) (u : Nat) (h : Nat × Nat × Word × Nat) : State :=
  s.updTeam u (fun t => { t with wait := .halting, halt := some h, clause := none, parked := none, pendTrap := none })

/-- The handler's state (R332): EXEC the faulted mask, MODE unchanged, w0 to w3 zero, s24 to s31 as the table gives, PC the handler's first clause. An
INTEGRITY still held is deferred until ERET (R383). -/
def handlerState (t : Team) (u : Nat) (r : TrapRec) (pc : Nat) : Team :=
  let put (t : Team) (k : Nat) (w : Word) : Team := writeWord t 0 (.s k) w
  let t1 := { t with
    exec := r.faulted, wregs := [], pc := pc, handler := some (r.rdepth, r.cdepth), trapClause := t.clause, clause := none, parked := none,
    captured := none, retry := none, marked := [], kept := [], pendTrap := none, wait := .none,
    integrity := t.integrity.map (fun h => { h with deferred := true }) }
  let t2 := put (put t1 24 (BitVec.ofNat 32 r.cls)) 25 r.detail
  let t3 := put (put t2 26 (BitVec.ofNat 32 r.pc)) 27 (BitVec.ofNat 32 (r.pc / 2 ^ 32))
  let t4 := put (put t3 28 (BitVec.ofNat 32 r.word)) 29 0
  put (put t4 30 (BitVec.ofNat 32 (recordBase u))) 31 (BitVec.ofNat 32 (recordBase u / 2 ^ 32))

/-- Steps 2 and 3 of R332, once the flags are zero: the record is written, and the handler entered; a launch without one halts the team. -/
def enterTrap (s : State) (u : Nat) (i : TrapInfo) : State :=
  match tblGet s.teams u with
  | none => s
  | some t =>
    let r := recordOf t i
    let s1 := match tblGet s.areas u with
      | some a => { s with areas := tblSet s.areas u { a with record := some r } }
      | none => s
    match t.cfg.handler with
    | none => haltTeam s1 u (classCode i.cls, 0, i.detail, r.pc)
    | some pc => s1.setTeam u (handlerState t u r pc)

/-- An operation on a unit object that its team or ring tries again itself (R42). -/
def triesAgain (w : UnitWait) : Bool :=
  match w.op with
  | .bar => true
  | .qpop => true
  | .qpush => true
  | .feed => true
  | .lwait => true
  | _ => false

/-- What a team itself would have tried again at a slice is not tried again. -/
def dropTries (s : State) (u : Nat) : State :=
  { s with unitWait := s.unitWait.filter (fun w => decide (w.who ≠ u) || decide (w.op = .feed) || !triesAgain w) }

/-- TAKING A TRAP (R332, R333), the one operation for every delivered trap. In the handler it is a double trap, which halts the team. Otherwise it waits
until all twelve flags are zero and enters the handler; when they cannot clear yet, the trap waits for TRAP_ENTRY. The trapping instruction waits at no
slice any more. -/
def takeTrap (s0 : State) (u : Nat) (i : TrapInfo) : State :=
  let s := dropTries s0 u
  match tblGet s.teams u with
  | none => s
  | some t =>
    if t.handler.isSome then
      let first := ((tblGet s.areas u).bind Area.record).map TrapRec.cls
      haltTeam s u (first.getD 0, classCode i.cls, i.detail, (t.clause.map Clause.header).getD t.pc)
    else
      let s1 := drainFlags s u
      match tblGet s1.teams u with
      | none => s1
      | some t1 =>
        if flagsClear t1 then enterTrap s1 u i
        else s1.setTeam u { t1 with pendTrap := some i, wait := .trapEntry }

/-- A clause-level trap (R173, R215, R222, R276): WORD 0; the clause's length is kept where the word at PC is a header. -/
def clauseTrap (s : State) (u : Nat) (i : TrapInfo) : State :=
  match tblGet s.teams u with
  | none => s
  | some t =>
    let c : Option Clause := match (codeWord s t.cfg t.pc).1 with
      | .ok w => if isHeader w then some { header := t.pc, words := List.replicate (hdrLen w + 1) 0, idx := 0, reads := 15, others := 15, target := [] }
        else none
      | .ends _ => none
    takeTrap (s.setTeam u { t with clause := c }) u { i with clauseLevel := true }

/-! ## Calls unwound: slots given back (R101, R184) -/

/-- Slots zeroed as they become LIVE: registers and mask bits (R102, R184). -/
def clearSlots (t : Team) (m : Mask) : Team :=
  { t with
    vregs := t.vregs.filter (fun r => !m.getLsbD (r.1 / 192)),
    poisonV := t.poisonV.filter (fun r => !m.getLsbD (r / 192)),
    masks := t.masks.map (fun x => x &&& ~~~ m) }

/-- A spilled lane frame reloaded into its own slot. -/
def reloadFrame (t : Team) (f : LaneFrame) : Team :=
  let t1 := clearSlots t (slotMask f.slot)
  let t2 := { t1 with vregs := (List.range f.regs.length).foldl (fun v k => wordSet v (192 * f.slot + k) (nthD f.regs k 0)) t1.vregs }
  { t2 with
    poisonV := t2.poisonV ++ f.poison.map (fun r => 192 * f.slot + r),
    masks := (List.range 8).foldl (fun (ms : Vector Mask 8) i =>
      if h : i < 8 then ms.set i (setSlot ms[i] f.slot (f.bits.getLsbD i)) else ms) t2.masks,
    held := t2.held ||| slotMask f.slot }

/-- The calling frame restored (R181): LIVE slots less the lanes that exited for good, its subidx and nwide, MODE; spilled frames reloaded. gone names the
callers that left. -/
def restoreCaller (t : Team) (c : CallRec) (gone : Mask) : Team :=
  let t1 := c.spilled.foldl reloadFrame t
  { t1 with
    frame := c.frame &&& ~~~ gone, held := t1.held &&& ~~~ c.frame, exec := c.exec &&& ~~~ gone, mode := c.mode, subidx := c.subidx,
    nwide := c.nwide, calls := t1.calls.drop 1 }

/-- A call record discarded (R334): its callee's slots are freed and its caller's frame restored, with no results. -/
def discardCall (t : Team) : Team :=
  match t.calls with
  | [] => t
  | c :: _ =>
    let t1 := { t with reconv := t.reconv.drop (t.reconv.length - c.rbase) }
    match c.rule with
    | .same => restoreCaller t1 c (c.exec &&& maskOf c.callers &&& ~~~ t1.frame)
    | .widen => restoreCaller { t1 with spent := t1.spent &&& ~~~ c.round } c 0
    | .gather => restoreCaller t1 c 0

def discardCalls : Nat → Team → Team
  | 0, t => t
  | n + 1, t => discardCalls n (discardCall t)

/-- RETURNING FROM A TRAP (R334), steps 1 to 3: both stacks at the depths of the record, w0 to w3 and s24 to s31 restored, MODE and EXEC those of the
trapping path, less the lanes that exited. -/
def leaveHandler (t : Team) (r : TrapRec) : Team :=
  let t1 := discardCalls (t.calls.length - r.cdepth) t
  let t2 := { t1 with
    reconv := t1.reconv.drop (t1.reconv.length - r.rdepth), wregs := r.wregs, mode := r.mode, exec := r.exec &&& t1.frame,
    handler := none, clause := none, retry := none, captured := none, marked := [], kept := [], parked := none, wait := .none,
    integrity := t1.integrity.map (fun h => { h with deferred := false }) }
  (List.range 8).foldl (fun t k => writeWord t 0 (.s (24 + k)) (nthD r.sregs k 0)) t2

/-- Step 4 of R334: RETRY performs the trapping instruction for the pending lanes, SKIP goes on after it, NEXT at the word after the clause. A
clause-level trap starts its clause again, or goes on after it; where its header could not be fetched or is none, at PC + 4. -/
def resumeAt (t : Team) (r : TrapRec) (mode : Nat) : Team :=
  match t.trapClause with
  | none => goTo t (if mode = 0 then r.pc else r.pc + 4)
  | some c =>
    let t1 := { t with clause := some c, pc := c.header, trapClause := none }
    if c.idx = 0 then goTo t1 (if mode = 0 then c.header else clauseEnd c)
    else if t1.exec = 0 ∨ mode = 2 then goTo t1 (clauseEnd c)
    else if mode = 0 ∧ r.pending &&& t1.exec ≠ 0 then { t1 with retry := some (r.pending &&& t1.exec) }
    else stepTeam t1

/-! ## INTEGRITY at the waiting points (R276) -/

/-- A held fault that a waiting point of the path delivers: it is not deferred (R383), and its lane is of the path's EXEC (R382). -/
def delivers (t : Team) (p : HeldIntegrity → Bool) (h : HeldIntegrity) : Bool := p h && !h.deferred && t.exec.getLsbD h.slot

/-- The held faults of a team that satisfy p, as one trap, and the team without them. -/
def integrityTrap (t : Team) (p : HeldIntegrity → Bool) (clauseLevel : Bool) : Option (TrapInfo × Team) :=
  let hs := t.integrity.filter (delivers t p)
  if hs.isEmpty then none
  else
    let m := maskOf (hs.map HeldIntegrity.slot)
    some ({ cls := .integrity, detail := 0, faulted := m, pending := m,
            addr := hs.foldl (fun a h => tblSet a h.slot h.va) [], clauseLevel := clauseLevel },
          { t with integrity := t.integrity.filter (fun h => !delivers t p h) })

/-- Poisoned lanes of late operations that have their values, held before their registers are written: of the loads and atomics that ACQUIRE waits for
(R202), of the atomics that RELEASE waits for (R201). -/
def surface (p : LateOp → Bool) (t : Team) : Team :=
  { t with
    integrity := t.integrity ++ (t.late.filter p).flatMap heldOf,
    late := t.late.map (fun o => if p o then { o with poisoned := [] } else o) }

def surfacePoison (t : Team) : Team := surface (fun _ => true) t

/-! ## Issue (R231) -/

/-- What an instruction's own effect comes to. -/
inductive Eff where
  /-- performed; the team goes on to the next word -/
  | done (s : State)
  /-- a control transfer, or an arrival at a barrier: it has said where the team goes on or waits -/
  | jump (s : State)
  /-- a precise trap at the instruction -/
  | trap (s : State) (i : TrapInfo)
  /-- the team waits at the instruction, or is parked there -/
  | wait (s : State)

/-- What an instruction sees at issue: the team's number and state, the literal, the lanes it is performed for, ACTIVE, and EXEC. The lanes it is
performed for are those of ACTIVE, less lanes that read poison; after a RETRY the pending ones among them (R107, R334), and EXEC is the pending lanes. -/
structure Issue where
  u : Nat
  t : Team
  lit : Word
  active : Mask
  whole : Mask
  exec : Mask

/-- How an instruction is checked: long-latency (R104), a memory instruction (R357), governed by EXEC alone, its class under R175 (0 neither, 1 reads,
2 others), the TYPEs it accepts (R229) and its operands under a TYPE. -/
structure Form where
  late : Bool
  mem : Bool
  allExec : Bool
  cls : Nat
  types : Nat → Bool
  ops : Nat → List Opnd

/-- The flag an instruction counts on (R175). -/
def countFlag (c : Clause) (cls : Nat) : Nat := if cls = 1 then c.reads else if cls = 2 then c.others else 15

/-- A team that waits at issue and is not parked is held there (R172): it tries again when it is given the slot. -/
def holdAt (s : State) (u : Nat) : State := s.updTeam u (fun t => if t.wait = .none then { t with wait := .held } else t)

/-- How an issue ends. -/
def finish (u : Nat) : Eff → Host.Outcome State Fault Refusal
  | .done s => .next (stepOn s u)
  | .jump s => .next s
  | .trap s i => .next (takeTrap s u i)
  | .wait s => .next (holdAt s u)

/-- The lanes an issue acts on. -/
def issueOf (f : Form) (u : Nat) (t : Team) (c : Clause) : Issue :=
  let a := if f.allExec then t.exec else activeMask t
  match t.retry with
  | some m => { u := u, t := t, lit := c.lit, active := m &&& a, whole := a, exec := m &&& t.exec }
  | none => { u := u, t := t, lit := c.lit, active := a, whole := a, exec := t.exec }

/-- Lanes that read a poisoned register take INTEGRITY at the instruction and write nothing; the others are performed (R385). Beside another trap they
stay pending; while the instruction is parked they are held (R274). -/
def withPoison (u : Nat) (bad : Mask) (e : Eff) : Eff :=
  if bad = 0 then e
  else match e with
    | .done s => .trap s (trapOf .integrity bad)
    | .jump s => .jump s
    | .trap s i => .trap s { i with pending := i.pending ||| bad }
    | .wait s =>
      let held (t : Team) : List HeldLane :=
        (slotsOf t.cfg.capacity bad).map (fun k => { acc := { slot := k, ea := 0, data := 0, cmp := 0 }, cls := .integrity, detail := 0 })
      .wait (s.updTeam u (fun t => match t.parked with
        | some p => { t with parked := some { p with held := p.held ++ held t } }
        | none => t))

/-- Checks 2 to 4 of R231, and what makes an instruction wait at issue: a full flag (R114), a QPOP or QLOCK still waiting (R289, R325). -/
inductive Verdict where
  | go
  | trap (c : TrapClass)
  | wait
  deriving DecidableEq, Repr

def gate (i : Instr) (f : Form) (t : Team) (c : Clause) : Verdict :=
  if !i.wellFormed then .trap .illegalOp
  else if !opndsOk t.cfg.budget f.late (f.ops (modeType t.mode)) then .trap .illegalOp
  else if !f.types (modeType t.mode) then .trap .illegalType
  else if (f.mem && slicePending t) || decide (flagCount t (countFlag c f.cls) = 63) then .wait
  else .go

/-- An instruction that has passed its checks is performed, poisoned lanes apart (R385). -/
def perform (f : Form) (body : State → Issue → Eff) (s : State) (u : Nat) (t : Team) (c : Clause) : Host.Outcome State Fault Refusal :=
  let x := issueOf f u t c
  let bad := poisonedLanes t (f.ops (modeType t.mode)) x.active
  finish u (withPoison u bad (body s { x with active := x.active &&& ~~~ bad }))

/-- The issue of a word by a team at its clause. When the gate says wait, what the team can finish by itself is finished, and it is judged again. -/
def issueAt (i : Instr) (f : Form) (body : State → Issue → Eff) (s : State) (u : Nat) (t : Team) (c : Clause) :
    Host.Outcome State Fault Refusal :=
  match gate i f t c with
  | .trap k => .next (takeTrap s u (trapOf k t.exec))
  | .go => perform f body s u t c
  | .wait =>
    let s1 := drainFlags s u
    match tblGet s1.teams u with
    | none => .next s1
    | some t1 =>
      match gate i f t1 c with
      | .go => perform f body s1 u t1 c
      | _ => .next (holdAt s1 u)

/-- The issue of an instruction word by the team that holds the issue slot. A halted device issues nothing (R411), nor does a waiting team. -/
def issue (i : Instr) (f : Form) (body : State → Issue → Eff) (s : State) : Host.Outcome State Fault Refusal :=
  if s.trust.halted then .next s
  else
    match s.cur.bind (fun u => (tblGet s.teams u).map (fun t => (u, t))) with
    | none => .fault .noClause
    | some (u, t) =>
      match t.clause with
      | none => .fault .noClause
      | some c => if t.wait ≠ .none then .next s else issueAt i f body s u t c

/-- The form of an instruction that acts at issue and leaves nothing in flight. -/
def plainForm (types : Nat → Bool) (ops : Nat → List Opnd) : Form :=
  { late := false, mem := false, allExec := false, cls := 0, types := types, ops := ops }

def anyType (_ty : Nat) : Bool := true

/-- An operand that is named but read by other rules than lane by lane: it is checked (R231, check 3) and its poison is judged by the instruction. -/
def named (x : Sel) (n : Nat) : Opnd := { sel := x, n := n, reads := false, crosses := false, writes := false }

/-- A source that a cross-lane instruction reads by its own rule, which judges its poison. -/
def across (x : Sel) (n : Nat) : Opnd := { sel := x, n := n, reads := false, crosses := true, writes := false }

/-- A result of n registers written in the lanes of a mask, or once for an s destination (R106, R233). -/
def laneEff (d : Sel) (n : Nat) (m : Mask) (f : Nat → Nat × BitVec 5) (s : State) (x : Issue) : Eff :=
  .done (s.setTeam x.u (writeLanes x.t d n (lanesFor x.t d m) f))

/-- The value of an operand of an issue in a lane. -/
def Issue.val (x : Issue) (slot : Nat) (o : Sel) (n : Nat) : Nat := readVal x.t x.lit slot o n

/-- The value of a uniform operand. -/
def Issue.uval (x : Issue) (o : Sel) (n : Nat) : Nat := readVal x.t x.lit 0 o n

/-- A trap of the instruction with faulted mask EXEC (check 5 of R231). -/
def trapExec (k : TrapClass) (s : State) (x : Issue) : Eff := .trap s (trapOf k x.exec)

/-! ## Parking (R376 to R378) -/

/-- The lowest lane of EXEC: an instruction performed once per issue makes its accesses as that lane (R278). -/
def lowestLane (x : Issue) : Nat := (lowestSlot x.t.cfg.capacity x.t.exec).getD 0

/-- A uniform instruction, or the fetch of a clause, parks and will be performed again whole: an instruction with the registers captured now (log 14). A
class for which its page is marked takes the mask and the addresses given. -/
def parkAs (s : State) (x : Issue) (cause : ParkCause) (mask : Mask) (addr : Tbl Nat) : State :=
  s.updTeam x.u (fun t => { t with
    wait := .fault, captured := if t.clause.isSome then some (capture t) else none,
    parked := some { op := none, lanes := [], held := [], cause := [cause], mode := t.mode, active := x.active, marks := [], mask := mask, addr := addr } })

def parkWhole (s : State) (x : Issue) (cause : ParkCause) : State := parkAs s x cause x.t.exec []

/-- A uniform instruction's access that did not pass: it parks, or takes its trap with faulted mask EXEC. -/
def runEnds (s : State) (x : Issue) (r : LaneRes) : Eff :=
  match r with
  | .done => .done s
  | .park c => .wait (parkWhole s x c)
  | .held c d => .trap s { trapOf c x.t.exec with detail := d }

/-- An access made once per issue as the lowest lane of EXEC that did not pass (R278): it parks, or takes its trap with that lane as faulted mask. -/
def laneEnds (va : Nat) (s : State) (x : Issue) (r : LaneRes) : Eff :=
  let k := lowestLane x
  match r with
  | .done => .done s
  | .park c => .wait (parkAs s x c (slotMask k) [(k, va)])
  | .held c d => .trap s { trapOf c (slotMask k) with detail := d, addr := [(k, va)] }

/-- The trap for held lanes (R274): the lowest class code, faulted mask the lanes of that class, all held lanes pending, with their addresses. -/
def heldTrap (hs : List HeldLane) : TrapInfo :=
  let low := hs.foldl (fun b h => if classCode h.cls < classCode b then h.cls else b) ((hs.head?.map HeldLane.cls).getD .illegalOp)
  { cls := low,
    detail := ((hs.find? (fun h => decide (h.cls = low))).map HeldLane.detail).getD 0,
    faulted := maskOf ((hs.filter (fun h => decide (h.cls = low))).map (fun h => h.acc.slot)),
    pending := maskOf (hs.map (fun h => h.acc.slot)),
    addr := hs.foldl (fun a h => tblSet a h.acc.slot h.acc.ea) [],
    clauseLevel := false }

/-- How a memory instruction's settled lanes end its issue: parked lanes park the team, held lanes trap, else it is done (R376). -/
def settleEnds (z : Settle) (x : Issue) (op : MemOp) (held : List HeldLane) : Eff :=
  let hs := held ++ z.helds
  if z.parks ≠ [] then
    .wait (z.s.updTeam x.u (fun t => { t with
      wait := .fault,
      parked := some { op := some op, lanes := z.parks, held := hs, cause := z.parks.map Prod.snd, mode := t.mode, active := x.active, marks := [], mask := 0, addr := [] } }))
  else if hs ≠ [] then .trap z.s (heldTrap hs)
  else .done z.s

/-- A lane's load that stays in the core: at a scratchpad, in the first level, in the fetch cache (R355). -/
def laneNear (s : State) (t : Team) (op : MemOp) (a : LaneAcc) : Bool :=
  let scratch : Bool := match window s t a.ea op.size with
    | .at _ _ => true
    | _ => false
  match op.kind with
  | .load => scratch || (l1Hit s t.cfg a.ea op.size false).isSome
  | .fetch d =>
    let r := fetchElem s t.cfg d a.data
    r.1.peers.isEmpty && decide ((r.2.core t.cfg.core).fetchLines = (s.core t.cfg.core).fetchLines)
  | _ => scratch

/-- The late operation of a memory instruction: whether it is an atomic (R276), and whether it is near (R355). -/
def laneLate (s : State) (t : Team) (op : MemOp) (lanes : List LaneAcc) (o : LateOp) : LateOp :=
  { o with
    atomic := match op.kind with
      | .atomic _ _ _ => true
      | _ => false,
    near := lanes.all (laneNear s t op) }

/-- A memory instruction over its lanes (R273 to R275): the window check over all of them, the late operation counted, then each lane. -/
def memBody (op : MemOp) (flag : Nat) (lanes : List LaneAcc) (s : State) (x : Issue) : Eff :=
  let wf := windowFails s x.t op lanes
  if wf ≠ [] then
    .trap s { cls := .window, detail := 0, faulted := maskOf (wf.map LaneAcc.slot), pending := maskOf (lanes.map LaneAcc.slot),
              addr := lanes.foldl (fun a l => tblSet a l.slot l.ea) [], clauseLevel := false }
  else
    let r := if flag = 15 then (none, s) else
      let q := startLate s x.u flag (laneLate s x.t op lanes)
      (some q.1, q.2)
    let op' := { op with late := r.1 }
    settleEnds (settleLanes r.2 x.u x.t op' lanes) x op' []

/-- The replay of a parked team after a resolution (R376, R377): marked lanes are held with their class, the others are judged again with the captured
operands. A uniform instruction is performed again when it next issues. -/
def replay (s : State) (u : Nat) : State :=
  match tblGet s.teams u with
  | none => s
  | some t =>
    match t.parked with
    | none => s
    | some p =>
      let s0 := if p.cause.any (fun c => match c with
          | .layer _ _ => true
          | _ => false) then acquireTeam s t.cfg else s
      let x : Issue := { u := u, t := t, lit := 0, active := p.active, whole := p.active, exec := t.exec }
      match p.op with
      | none =>
        let s1 := s0.updTeam u (fun t => { t with wait := .none, parked := none })
        match p.marks.head?, t.clause with
        | none, _ => s1
        | some (_, k), none => clauseTrap s1 u { trapOf k p.mask with addr := p.addr }
        | some (_, k), some c =>
          if opField c.word = 0xE4 then s1.updTeam u (fun t => { t with marked := p.marks }) else takeTrap s1 u { trapOf k p.mask with addr := p.addr }
      | some op =>
        let marked (c : ParkCause) : Option TrapClass :=
          match c with
          | .page a => (p.marks.find? (fun m => decide (m.1 = a))).map Prod.snd
          | _ => none
        let go := (p.lanes.filter (fun l => (marked l.2).isNone)).map Prod.fst
        let hs := p.lanes.filterMap (fun l => (marked l.2).map (fun c => { acc := l.1, cls := c, detail := 0 : HeldLane }))
        let s1 := s0.updTeam u (fun t => { t with wait := .none, parked := none })
        let z := settleLanes s1 u t op go
        match settleEnds z x op (p.held ++ hs) with
        | .done s2 => stepOn s2 u
        | .jump s2 => s2
        | .trap s2 i => takeTrap s2 u i
        | .wait s2 => s2

/-- Every team parked on a cause that satisfies p replays. -/
def replayWhere (s : State) (p : Nat → Team → ParkCause → Bool) : State :=
  (s.teams.map Prod.fst).foldl (fun s u => match tblGet s.teams u with
    | some t => (match t.parked with
      | some k => if decide (t.wait = .fault) && !t.saved && k.cause.any (p u t) then replay s u else s
      | none => s)
    | none => s) s

/-! ## The release and acquire sides of an instruction (R197, R201, R202) -/

/-- The release side: everything the team has sent is home, then the INTEGRITY of the poisoned stores and atomics (R276). -/
def releaseThen (s : State) (x : Issue) (k : State → Eff) : Eff :=
  let s1 := (drainTeam s x.u x.t.cfg).updTeam x.u (surface LateOp.atomic)
  match tblGet s1.teams x.u with
  | none => .wait s1
  | some t =>
    match integrityTrap t HeldIntegrity.rel false with
    | some (i, t1) => .trap (s1.setTeam x.u t1) i
    | none => k s1

/-- The acquire side: the team's loads have their values, their INTEGRITY, then the invalidation. A QPOP still waiting makes it wait. -/
def acquireThen (s : State) (x : Issue) (k : State → Eff) : Eff :=
  let s1 := (drainReturning s x.u x.t.cfg).updTeam x.u surfacePoison
  match tblGet s1.teams x.u with
  | none => .wait s1
  | some t =>
    if t.late.any (fun o => match o.wait with
      | .qpop _ => true
      | _ => false) then .wait s1
    else
      match integrityTrap t HeldIntegrity.acq false with
      | some (i, t1) => .trap (s1.setTeam x.u t1) i
      | none => k (acquireTeam s1 t.cfg)

/-- All twelve flags read zero (R180, R332), INTEGRITY of what they counted taken at the instruction; else the team waits. -/
def flagsThen (s : State) (x : Issue) (k : State → Team → Eff) : Eff :=
  let s1 := drainFlags s x.u
  match tblGet s1.teams x.u with
  | none => .wait s1
  | some t =>
    if flagsClear t then
      match integrityTrap t (fun _ => true) false with
      | some (i, t1) => .trap (s1.setTeam x.u t1) i
      | none => k s1 t
    else .wait s1

/-- What an operation on the stacks makes of a team, with its entries and call records in hardware or in the frame stack. -/
def stacked (f : Team → Except TrapClass Team) (t : Team) : Except TrapClass Team :=
  match f t with
  | .error k => .error k
  | .ok r => if t.cfg.fssize < frameUse (fitStacks r) then .error .frame else .ok (fitStacks r)

/-- The issuing team in a later state: what its accesses have done to it on the way is kept. -/
def teamIn (s : State) (x : Issue) : Team := (tblGet s.teams x.u).getD x.t

/-- Some of the slots have their frames in the call's spilled records. -/
def inSpill (c : CallRec) (ks : List Nat) : Bool := ks.any (fun k => c.spilled.any (fun f => decide (f.slot = k)))

/-- What an operation that makes c1 of an open call c loads from its records, and what it stores there (R184, R185): the next round's arguments and the
round's results of callers that are spilled; the frames of a CALLI's group and of the next. -/
def callTouch (c c1 : CallRec) : Bool × Bool :=
  let frames (c : CallRec) : Bool := !c.spilled.isEmpty || c.gather.isSome
  if c.calli.length ≠ c1.calli.length then (frames c, frames c1)
  else if c.next = c1.next then (false, false)
  else (decide (0 < c1.narg) && inSpill c1 c1.roundCallers, decide (0 < c.nret) && inSpill c c.roundCallers)

/-- Whether an operation that makes t1 of a team loads from the frame stack and stores to it, be its bytes the same afterwards. -/
def frameTouch (t t1 : Team) : Bool × Bool :=
  (t.calls.reverse.zip t1.calls.reverse).foldl (fun b p => let q := callTouch p.1 p.2; (b.1 || q.1, b.2 || q.2)) (false, false)

/-- AN OPERATION ON THE FRAME STACK (R116, R192): f is what the instruction makes of the team; stores says that it stores even where no byte changes. Where
it neither changes the stack's bytes nor touches them, that is all. Else they are reloaded by the team, as loads of its lowest lane, f acts on the records
as they are found there, and the new bytes are stored; each access is checked first, so that a page fault parks the instruction with nothing changed. A
push past FSSIZE is a FRAME trap. A poisoned line met while reloading is INTEGRITY at the instruction (log 19). -/
def frameWith (stores : Bool) (s : State) (x : Issue) (f : Team → Except TrapClass Team) (k : State → Eff) : Eff :=
  match stacked f x.t with
  | .error c => .trap s (trapOf c x.exec)
  | .ok t1 =>
    let old := frameImage x.t
    let touch := frameTouch x.t t1
    if frameImage t1 = old ∧ (stores || touch.1 || touch.2) = false then k (s.setTeam x.u t1)
    else
      let r := if old = [] then (RunRes.ok, s) else checkRun s x.t x.t.cfg.fsbase old.length 1 needR true
      match r.1 with
      | .ends e => runEnds r.2 x e
      | .ok =>
        let v := if old = [] then (some [], r.2) else readRun r.2 x.u x.t x.t.cfg.fsbase old.length
        match v.1 with
        | none => runEnds v.2 x (.held .integrity 0)
        | some got =>
          let found := reloadImage (teamIn v.2 x) got
          match stacked f found with
          | .error c => .trap v.2 (trapOf c x.exec)
          | .ok t2 =>
            let bs := frameImage t2
            if bs = [] ∨ (bs = frameImage found ∧ (stores || touch.2) = false) then k (v.2.setTeam x.u t2)
            else
              let q := checkRun v.2 x.t x.t.cfg.fsbase bs.length 1 needW true
              match q.1 with
              | .ends e => runEnds q.2 x e
              | .ok => k (writeRun (q.2.setTeam x.u t2) x.u (lowestLane x) x.t x.t.cfg.fsbase bs)

def frameThen : State → Issue → (Team → Except TrapClass Team) → (State → Eff) → Eff := frameWith false

/-- The frame stack reloaded by an instruction that only reads it (R320): it goes on with the team as it is then, and as the bytes found give it. -/
def frameRead (s : State) (x : Issue) (k : Team → Team → State → Eff) : Eff :=
  let n := (frameImage x.t).length
  let r := checkRun s x.t x.t.cfg.fsbase n 1 needR true
  match r.1 with
  | .ends e => runEnds r.2 x e
  | .ok =>
    let v := readRun r.2 x.u x.t x.t.cfg.fsbase n
    match v.1 with
    | none => runEnds v.2 x (.held .integrity 0)
    | some got => k (teamIn v.2 x) (reloadImage (teamIn v.2 x) got) v.2

end Sys2Proof.Machine
end

