-- ==== Sys2Proof/Machine/Move.lean ====
section
/-! DEFINITION. Moves, mode and special registers (R239 to R243). -/

namespace Sys2Proof.Machine

/-- NOP (R239): none; the team goes on to the next word. -/
def execNop (s : State) : Host.Outcome State Fault Refusal := issue .nop (plainForm anyType (fun _ => [])) (fun s _ => .done s) s

/-- A copy of n registers. -/
def moveBody (d a : Sel) (n : Nat) (s : State) (x : Issue) : Eff := laneEff d n x.active (fun k => (x.val k a n, 0)) s x

/-- MOV (R239). -/
def execMov (d a : Sel) (s : State) : Host.Outcome State Fault Refusal :=
  issue (.mov d a) (plainForm anyType (fun _ => [dst d 1, src a 1])) (moveBody d a 1) s

/-- MOV2 (R239): a literal or a special operand is extended by R220. -/
def execMov2 (d a : Sel) (s : State) : Host.Outcome State Fault Refusal :=
  issue (.mov2 d a) (plainForm anyType (fun _ => [dst d 2, src a 2])) (moveBody d a 2) s

/-- MOV4 (R239). -/
def execMov4 (d a : Sel) (s : State) : Host.Outcome State Fault Refusal :=
  issue (.mov4 d a) (plainForm anyType (fun _ => [dst d 4, src a 4])) (moveBody d a 4) s

/-- Registers that SEL copies: a pair under I64, N64 and FP64 (R240). -/
def selRegs (ty : Nat) : Nat := typeRegs ty

/-- SEL's form: governed by EXEC; an s destination fails check 3, because the guard is per lane. -/
def selForm (d a b : Sel) : Form :=
  { plainForm anyType (fun ty => [dst d (selRegs ty), src a (selRegs ty), src b (selRegs ty), src .laneid 1]) with allExec := true }

/-- SEL (R240): the guard bit of the lane selects. -/
def selBody (d a b : Sel) (s : State) (x : Issue) : Eff :=
  laneEff d (selRegs (modeType x.t.mode)) x.active
    (fun k => (x.val k (if (guardMask x.t).getLsbD k then a else b) (selRegs (modeType x.t.mode)), 0)) s x

def execSel (d a b : Sel) (s : State) : Host.Outcome State Fault Refusal := issue (.sel d a b) (selForm d a b) (selBody d a b) s

/-- SETMODE (R241): MODE is replaced, or ILLEGAL_MODE is taken with MODE unchanged (R112). -/
def setmodeBody (a : Sel) (s : State) (x : Issue) : Eff :=
  let m := BitVec.ofNat 32 (x.uval a 1)
  if modeLegal m then .done (s.setTeam x.u { x.t with mode := m }) else trapExec .illegalMode s x

def execSetmode (a : Sel) (s : State) : Host.Outcome State Fault Refusal :=
  issue (.setmode a) (plainForm anyType (fun _ => [src a 1])) (setmodeBody a) s

/-- GETMODE (R239). -/
def execGetmode (d : Sel) (s : State) : Host.Outcome State Fault Refusal :=
  issue (.getmode d) (plainForm anyType (fun _ => [dst d 1])) (fun s x => laneEff d 1 x.active (fun _ => (x.t.mode.toNat, 0)) s x) s

/-- Time passes in a core: CYCLE counts on by a number of cycles that the model leaves open, and never falls (R242, log 7). -/
def advanceCycle (s : State) (c : Nat) : State :=
  let n := (s.core c).cycle.toNat + Config.freeCycles s.fresh
  let m := if n < 2 ^ 64 then n else 2 ^ 64 - 1
  { s.updCore c (fun x => { x with cycle := BitVec.ofNat 64 m }) with fresh := s.fresh + 1 }

/-- The registers of a special register (R242); none for a number of 8 or more. -/
def specialRegs (n : Nat) : Option Nat := if 8 ≤ n then none else if n = 3 ∨ n = 6 then some 2 else some 1

/-- The value of a special register, for a team (R242). -/
def specialVal (s : State) (t : Team) (n : Nat) : Nat :=
  if n = 0 then t.fpst.toNat else if n = 1 then t.cfg.spbase else if n = 2 then t.cfg.spsize else if n = 3 then t.cfg.fsbase
  else if n = 4 then t.cfg.fssize else if n = 5 then (s.core t.cfg.core).hintdrop.toNat
  else if n = 6 then (s.core t.cfg.core).cycle.toNat else t.cfg.ctx % 256

/-- RDSR (R242). -/
def rdsrBody (d a : Sel) (s : State) (x : Issue) : Eff :=
  match specialRegs (x.uval a 1) with
  | none => trapExec .illegalOp s x
  | some n =>
    if !opndOk x.t.cfg.budget (dst d n) then trapExec .illegalOp s x
    else
      let s1 := if x.uval a 1 = 6 then advanceCycle s x.t.cfg.core else s
      laneEff d n x.active (fun _ => (specialVal s1 x.t (x.uval a 1), 0)) s1 x

def execRdsr (d a : Sel) (s : State) : Host.Outcome State Fault Refusal :=
  issue (.rdsr d a) (plainForm anyType (fun _ => [dst d 1, src a 1])) (rdsrBody d a) s

/-- WRSR (R242): FPST takes bits 4:0, HINTDROP the whole word; every other register is read-only. -/
def wrsrBody (a b : Sel) (s : State) (x : Issue) : Eff :=
  if x.uval a 1 = 0 then .done (s.setTeam x.u { x.t with fpst := BitVec.ofNat 5 (x.uval b 1) })
  else if x.uval a 1 = 5 then .done (s.updCore x.t.cfg.core (fun c => { c with hintdrop := BitVec.ofNat 32 (x.uval b 1) }))
  else trapExec .illegalOp s x

def execWrsr (a b : Sel) (s : State) : Host.Outcome State Fault Refusal :=
  issue (.wrsr a b) (plainForm anyType (fun _ => [src a 1, src b 1])) (wrsrBody a b) s

/-- A named operand reads a poisoned register in the lane (R385). -/
def lanePoisoned (t : Team) (a : Sel) (n k : Nat) : Bool := decide (poisonedLanes t [src a n] (slotMask k) ≠ 0)

/-- UNIF (R243): the value of the lowest ACTIVE slot, 0 when there is none; a uniform source whatever ACTIVE holds. -/
def unifBody (d a : Sel) (s : State) (x : Issue) : Eff :=
  if !isSreg d then trapExec .illegalOp s x
  else if isPerLane a then
    match lowestSlot x.t.cfg.capacity x.active with
    | none => .done (s.setTeam x.u (writeVal x.t 0 d 1 0))
    | some k => if lanePoisoned x.t a 1 k then .trap s (trapOf .integrity (slotMask k)) else .done (s.setTeam x.u (writeVal x.t 0 d 1 (x.val k a 1)))
  else .done (s.setTeam x.u (writeVal x.t 0 d 1 (x.uval a 1)))

def execUnif (d a : Sel) (s : State) : Host.Outcome State Fault Refusal :=
  issue (.unif d a) (plainForm anyType (fun _ => [named a 1])) (unifBody d a) s

end Sys2Proof.Machine
end

