-- ==== Sys2Proof/Machine/Special.lean ====
section
/-! DEFINITION. The special functions of R255: correctly rounded results from fixed-point enclosures of the exact value. Numbers are integers in units of
2^-800. -/

namespace Sys2Proof.Machine

/-- Fraction bits of the fixed-point numbers. -/
def fxBits : Nat := 800
/-- One, in fixed point. -/
def fxOne : Int := ((2 ^ fxBits : Nat) : Int)
/-- How far a computed value may lie from the exact one: more than the rounding errors of every series below together, the error of π multiplied by
the largest quotient of an FP32 argument included. -/
def fxSlack : Int := ((2 ^ 150 : Nat) : Int)

def fxMul (a b : Int) : Int := a * b / fxOne

/-- A dyadic value in fixed point. -/
def fxOf (neg : Bool) (m : Nat) (e : Int) : Int :=
  let k := e + (fxBits : Int)
  let v : Int := if 0 ≤ k then ((m * 2 ^ k.toNat : Nat) : Int) else ((m / 2 ^ (-k).toNat : Nat) : Int)
  if neg then -v else v

/-- The terms t^k/k! from the k-th on, summed. -/
def expTerms (t : Int) : Nat → Nat → Int → Int
  | 0, _, _ => 0
  | fuel + 1, k, term =>
    let next := fxMul term t / (k : Int)
    next + expTerms t fuel (k + 1) next

/-- e^t for a |t| below 1. -/
def fxExp (t : Int) : Int := fxOne + expTerms t 160 1 fxOne

/-- z^(2k+1)/(2k+1) summed from the k-th term, the signs alternating or not. -/
def oddTerms (sq : Int) (alt : Bool) : Nat → Nat → Int → Int
  | 0, _, _ => 0
  | fuel + 1, k, p => p / ((2 * k + 1 : Nat) : Int) + oddTerms sq alt fuel (k + 1) (if alt then -(fxMul p sq) else fxMul p sq)

/-- The inverse hyperbolic tangent for |z| at most 1/3. -/
def fxAtanh (z : Int) : Int := oddTerms (fxMul z z) false 260 0 z

/-- The arctangent of 1/n. -/
def fxAtanInv (n : Nat) : Int := oddTerms (fxOne / ((n * n : Nat) : Int)) true 180 0 (fxOne / (n : Int))

def fxLn2 : Int := 2 * fxAtanh (fxOne / 3)
/-- π by Machin's formula. -/
def fxPi : Int := 16 * fxAtanInv 5 - 4 * fxAtanInv 239

/-- (−1)^k r^(2k+j)/(2k+j)! summed. -/
def trigTerms (sq : Int) : Nat → Nat → Int → Int
  | 0, _, _ => 0
  | fuel + 1, n, term =>
    let next := -(fxMul term sq) / (((n + 1) * (n + 2) : Nat) : Int)
    next + trigTerms sq fuel (n + 2) next

def fxSin (r : Int) : Int := r + trigTerms (fxMul r r) 90 1 r
def fxCos (r : Int) : Int := fxOne + trigTerms (fxMul r r) 90 0 fxOne

/-- The result of a special function whose exact value, no number of the format nor a midpoint, lies between lo and hi: rounded from either end; where the
ends differ, which of the two it is stays open (log 8). -/
def fxRound (fn : Nat) (f : FpFmt) (rnd : Nat) (neg : Bool) (lo hi e : Int) (srcBits : Nat) : Nat × BitVec 5 :=
  let a := fpRound f rnd neg (if lo ≤ 0 then 1 else lo.toNat) e true
  let b := fpRound f rnd neg (if hi ≤ 1 then 1 else (hi - 1).toNat) e true
  if a = b then a else if Config.specialRounded fn f.width srcBits % 2 = 0 then a else b

/-- The same for a signed fixed-point approximation. -/
def fxResult (fn : Nat) (f : FpFmt) (rnd : Nat) (v e : Int) (srcBits : Nat) : Nat × BitVec 5 :=
  let m : Int := if v < 0 then -v else v
  fxRound fn f rnd (decide (v < 0)) (m - fxSlack) (m + fxSlack) (e - (fxBits : Int)) srcBits

/-- The encoding of a finite value of the format. -/
def fpEncode (f : FpFmt) (neg : Bool) (m : Nat) (e : Int) : Nat := (fpRoundZ f 1 neg neg m e false).1

/-- The integer part and the fraction, in fixed point, of a dyadic value: floor and the rest. -/
def fxSplit (neg : Bool) (m : Nat) (e : Int) : Int × Int :=
  let v := fxOf neg m e
  (v / fxOne, v % fxOne)

/-- FEXP2 (R255). -/
def fpExp2V (f : FpFmt) (rnd : Nat) (x : FpVal) : Nat × BitVec 5 :=
  match x with
  | .nan s => (f.nan, if s then fpNV else 0)
  | .inf n => if n then (0, 0) else (f.infBits, 0)
  | .fin neg m e =>
    if m = 0 then fpRound f rnd false 1 0 false
    else if 12 < e + (Nat.log2 m : Int) then fpRound f rnd false 1 (if neg then -5000 else 5000) true
    else
      let p := fxSplit neg m e
      if p.2 = 0 then fpRound f rnd false 1 p.1 false
      else fxResult 0 f rnd (fxExp (fxMul p.2 fxLn2)) p.1 (fpEncode f neg m e)

/-- FLOG2 (R255). -/
def fpLog2V (f : FpFmt) (rnd : Nat) (x : FpVal) : Nat × BitVec 5 :=
  match x with
  | .nan s => (f.nan, if s then fpNV else 0)
  | .inf n => if n then (f.nan, fpNV) else (f.infBits, 0)
  | .fin neg m e =>
    if m = 0 then (f.signBit + f.infBits, fpDZ)
    else if neg then (f.nan, fpNV)
    else
      let k := Nat.log2 m
      if m = 2 ^ k then fpRoundInt f rnd false (e + (k : Int)) 0
      else
        -- m / 2^k in (1, 2): the logarithm through (m − 2^k) / (m + 2^k)
        let z := (((m - 2 ^ k) * 2 ^ fxBits / (m + 2 ^ k) : Nat) : Int)
        fxResult 1 f rnd ((e + (k : Int)) * fxOne + 2 * fxAtanh z * fxOne / fxLn2) 0 (fpEncode f neg m e)

/-- The quadrant and the rest of an argument in radians: x = q × π/2 + r. -/
def fxReduce (neg : Bool) (m : Nat) (e : Int) : Int × Int :=
  let v := fxOf neg m e
  let h := fxPi / 2
  let q := (2 * v + h) / (2 * h)
  (q, v - q * h)

/-- sin (quadrant 0) or cos (quadrant 1) of a nonzero argument. -/
def fxTrig (shift : Int) (neg : Bool) (m : Nat) (e : Int) : Int :=
  let p := fxReduce neg m e
  let q := (p.1 + shift) % 4
  if q = 0 then fxSin p.2 else if q = 1 then fxCos p.2 else if q = 2 then -(fxSin p.2) else -(fxCos p.2)

/-- FSIN (R255). -/
def fpSinV (f : FpFmt) (rnd : Nat) (x : FpVal) : Nat × BitVec 5 :=
  match x with
  | .nan s => (f.nan, if s then fpNV else 0)
  | .inf _ => (f.nan, fpNV)
  | .fin neg m e => if m = 0 then (fpSign f neg, 0) else fxResult 2 f rnd (fxTrig 0 neg m e) 0 (fpEncode f neg m e)

/-- FCOS (R255). -/
def fpCosV (f : FpFmt) (rnd : Nat) (x : FpVal) : Nat × BitVec 5 :=
  match x with
  | .nan s => (f.nan, if s then fpNV else 0)
  | .inf _ => (f.nan, fpNV)
  | .fin neg m e => if m = 0 then fpRound f rnd false 1 0 false else fxResult 3 f rnd (fxTrig 1 neg m e) 0 (fpEncode f neg m e)

/-- e^−y for a y from 0 below 512. -/
def fxExpNeg (y : Int) : Int :=
  let n := y / fxLn2
  fxExp (-(y - n * fxLn2)) / ((2 ^ n.toNat : Nat) : Int)

/-- FTANH (R255): (1 − e^−2a)/(1 + e^−2a); from 64 on it lies between 1 − 2^−150 and 1. -/
def fpTanhV (f : FpFmt) (rnd : Nat) (x : FpVal) : Nat × BitVec 5 :=
  match x with
  | .nan s => (f.nan, if s then fpNV else 0)
  | .inf n => fpRound f rnd n 1 0 false
  | .fin neg m e =>
    if m = 0 then (fpSign f neg, 0)
    else if 6 ≤ e + (Nat.log2 m : Int) then fxRound 4 f rnd neg (fxOne - 1) fxOne (-(fxBits : Int)) 0
    else
      let w := fxExpNeg (2 * fxOf false m e)
      let v := (fxOne - w) * fxOne / (fxOne + w)
      fxResult 4 f rnd (if neg then -v else v) 0 (fpEncode f neg m e)

end Sys2Proof.Machine
end

