-- ==== Sys2Proof/Machine/Float.lean ====
section
/-! DEFINITION. Floating-point instructions (R251 to R256). -/

namespace Sys2Proof.Machine

/-- TYPE accepted: every FP type, or every one but FP64, or the packed ones (R251). -/
def fpNarrow (ty : Nat) : Bool := decide (6 ≤ ty) && decide (ty ≤ 9)
def fpPacked (ty : Nat) : Bool := decide (ty = 7) || decide (ty = 8)

def fpForm1 (d a : Sel) : Form := plainForm isFpType (fun ty => [dst d (typeRegs ty), src a (typeRegs ty)])
def fpForm2 (d a b : Sel) : Form := plainForm isFpType (fun ty => [dst d (typeRegs ty), src a (typeRegs ty), src b (typeRegs ty)])
def fpForm3 (d a b : Sel) : Form := plainForm isFpType (fun ty => [srcdst d (typeRegs ty), src a (typeRegs ty), src b (typeRegs ty)])

/-- The result of a unary instruction in a lane: the element function takes the format, MODE and the element. -/
def fpLane1 (g : FpFmt → Word → Nat → Nat × BitVec 5) (a : Sel) (x : Issue) (k : Nat) : Nat × BitVec 5 :=
  let ty := modeType x.t.mode
  let va := x.val k a (typeRegs ty)
  mapElems ty (fun e => g (fmtOfType ty) x.t.mode (elemOf ty e va))

def fpLane2 (g : FpFmt → Word → Nat → Nat → Nat × BitVec 5) (a b : Sel) (x : Issue) (k : Nat) : Nat × BitVec 5 :=
  let ty := modeType x.t.mode
  let va := x.val k a (typeRegs ty)
  let vb := x.val k b (typeRegs ty)
  mapElems ty (fun e => g (fmtOfType ty) x.t.mode (elemOf ty e va) (elemOf ty e vb))

def fpLane3 (g : FpFmt → Word → Nat → Nat → Nat → Nat × BitVec 5) (a b d : Sel) (x : Issue) (k : Nat) : Nat × BitVec 5 :=
  let ty := modeType x.t.mode
  let va := x.val k a (typeRegs ty)
  let vb := x.val k b (typeRegs ty)
  let vd := x.val k d (typeRegs ty)
  mapElems ty (fun e => g (fmtOfType ty) x.t.mode (elemOf ty e va) (elemOf ty e vb) (elemOf ty e vd))

def fpBody1 (g : FpFmt → Word → Nat → Nat × BitVec 5) (d a : Sel) (s : State) (x : Issue) : Eff :=
  laneEff d (typeRegs (modeType x.t.mode)) x.active (fpLane1 g a x) s x

def fpBody2 (g : FpFmt → Word → Nat → Nat → Nat × BitVec 5) (d a b : Sel) (s : State) (x : Issue) : Eff :=
  laneEff d (typeRegs (modeType x.t.mode)) x.active (fpLane2 g a b x) s x

def fpBody3 (g : FpFmt → Word → Nat → Nat → Nat → Nat × BitVec 5) (d a b : Sel) (s : State) (x : Issue) : Eff :=
  laneEff d (typeRegs (modeType x.t.mode)) x.active (fpLane3 g a b d x) s x

/-- FMIN and FMAX on elements: the selected source after FTZ (R253). -/
def fpPickE (max : Bool) (f : FpFmt) (mode : Word) (x y : Nat) : Nat × BitVec 5 :=
  fpMinMax f max (fpFlush (modeFtz mode) f x) (fpFlush (modeFtz mode) f y)

def fpAbsE (f : FpFmt) (_mode : Word) (x : Nat) : Nat × BitVec 5 := (x % f.signBit, 0)
def fpNegE (f : FpFmt) (_mode : Word) (x : Nat) : Nat × BitVec 5 := (if x / f.signBit % 2 = 1 then x - f.signBit else x + f.signBit, 0)
def fpRintE (f : FpFmt) (mode : Word) (x : Nat) : Nat × BitVec 5 :=
  fpFlushOut (modeFtz mode) f (fpRint f (modeRnd mode) (fpFlush (modeFtz mode) f x))
def fpLdexpE (k : Int) (f : FpFmt) (mode : Word) (x : Nat) : Nat × BitVec 5 :=
  fpFlushOut (modeFtz mode) f (fpLdexp f (modeRnd mode) (fpFlush (modeFtz mode) f x) k)
def fpClassE (f : FpFmt) (_mode : Word) (x : Nat) : Nat × BitVec 5 := (fpClass f x, 0)
/-- One, as a value. -/
def fpOneV : FpVal := .fin false 1 0
def fpRcpV (f : FpFmt) (rnd : Nat) (x : FpVal) : Nat × BitVec 5 := fpDivV f rnd fpOneV x

/-- FADD (R253). -/
def execFadd (d a b : Sel) (s : State) : Host.Outcome State Fault Refusal :=
  issue (.fadd d a b) (fpForm2 d a b) (fpBody2 (fpBin fpAddV) d a b) s
/-- FSUB (R253). -/
def execFsub (d a b : Sel) (s : State) : Host.Outcome State Fault Refusal :=
  issue (.fsub d a b) (fpForm2 d a b) (fpBody2 (fpBin fpSubV) d a b) s
/-- FMUL (R253). -/
def execFmul (d a b : Sel) (s : State) : Host.Outcome State Fault Refusal :=
  issue (.fmul d a b) (fpForm2 d a b) (fpBody2 (fpBin fpMulV) d a b) s
/-- FMA (R253): a × b + d. -/
def execFma (d a b : Sel) (s : State) : Host.Outcome State Fault Refusal :=
  issue (.fma d a b) (fpForm3 d a b) (fpBody3 (fpFmaE false) d a b) s
/-- FNMA (R253): −(a × b) + d. -/
def execFnma (d a b : Sel) (s : State) : Host.Outcome State Fault Refusal :=
  issue (.fnma d a b) (fpForm3 d a b) (fpBody3 (fpFmaE true) d a b) s
/-- FMIN (R126, R253). -/
def execFmin (d a b : Sel) (s : State) : Host.Outcome State Fault Refusal :=
  issue (.fmin d a b) (fpForm2 d a b) (fpBody2 (fpPickE false) d a b) s
/-- FMAX (R126, R253). -/
def execFmax (d a b : Sel) (s : State) : Host.Outcome State Fault Refusal :=
  issue (.fmax d a b) (fpForm2 d a b) (fpBody2 (fpPickE true) d a b) s
/-- FABS (R126). -/
def execFabs (d a : Sel) (s : State) : Host.Outcome State Fault Refusal := issue (.fabs d a) (fpForm1 d a) (fpBody1 fpAbsE d a) s
/-- FNEG (R126). -/
def execFneg (d a : Sel) (s : State) : Host.Outcome State Fault Refusal := issue (.fneg d a) (fpForm1 d a) (fpBody1 fpNegE d a) s
/-- FRINT (R253). -/
def execFrint (d a : Sel) (s : State) : Host.Outcome State Fault Refusal := issue (.frint d a) (fpForm1 d a) (fpBody1 fpRintE d a) s

/-- FLDEXP (R253): b is one signed 32-bit integer for every element. -/
def fldexpBody (d a b : Sel) (s : State) (x : Issue) : Eff :=
  laneEff d (typeRegs (modeType x.t.mode)) x.active (fun k => fpLane1 (fpLdexpE (sextInt 32 (x.val k b 1))) a x k) s x

def execFldexp (d a b : Sel) (s : State) : Host.Outcome State Fault Refusal :=
  issue (.fldexp d a b) (plainForm isFpType (fun ty => [dst d (typeRegs ty), src a (typeRegs ty), src b 1])) (fldexpBody d a b) s

/-- FCLASS (R254): the destination is one register under every TYPE. -/
def fclassBody (d a : Sel) (s : State) (x : Issue) : Eff := laneEff d 1 x.active (fpLane1 fpClassE a x) s x

def execFclass (d a : Sel) (s : State) : Host.Outcome State Fault Refusal :=
  issue (.fclass d a) (plainForm isFpType (fun ty => [dst d 1, src a (typeRegs ty)])) (fclassBody d a) s

/-! ## The special-function pipe (R255): late results on the READS flag -/

/-- Results written late: their registers and FPST bits wait in an operation on the clause's READS flag. -/
def lateEff (d : Sel) (n : Nat) (m : Mask) (f : Nat → Nat × BitVec 5) (s : State) (x : Issue) : Eff :=
  let lanes := lanesFor x.t d m
  .done (startLate s x.u ((x.t.clause.map Clause.reads).getD 15) (fun o =>
    { o with
      vwrites := lanes.flatMap (fun k => (regWrites k d n (f k).1).1), swrites := lanes.flatMap (fun k => (regWrites k d n (f k).1).2),
      fpst := lanes.foldl (fun e k => e ||| (f k).2) 0 })).2

def sfForm1 (types : Nat → Bool) (d a : Sel) : Form :=
  { plainForm types (fun ty => [dst d (typeRegs ty), src a (typeRegs ty)]) with late := true, cls := 1 }

def sfBody1 (op : FpFmt → Nat → FpVal → Nat × BitVec 5) (d a : Sel) (s : State) (x : Issue) : Eff :=
  lateEff d (typeRegs (modeType x.t.mode)) x.active (fpLane1 (fpUn op) a x) s x

/-- FDIV (R255). -/
def fdivForm (d a b : Sel) : Form := { fpForm2 d a b with late := true, cls := 1 }

def fdivBody (d a b : Sel) (s : State) (x : Issue) : Eff :=
  lateEff d (typeRegs (modeType x.t.mode)) x.active (fpLane2 (fpBin fpDivV) a b x) s x

def execFdiv (d a b : Sel) (s : State) : Host.Outcome State Fault Refusal := issue (.fdiv d a b) (fdivForm d a b) (fdivBody d a b) s
/-- FSQRT (R255). -/
def execFsqrt (d a : Sel) (s : State) : Host.Outcome State Fault Refusal := issue (.fsqrt d a) (sfForm1 isFpType d a) (sfBody1 fpSqrtV d a) s
/-- FRCP (R255). -/
def execFrcp (d a : Sel) (s : State) : Host.Outcome State Fault Refusal := issue (.frcp d a) (sfForm1 fpNarrow d a) (sfBody1 fpRcpV d a) s
/-- FRSQ (R255). -/
def execFrsq (d a : Sel) (s : State) : Host.Outcome State Fault Refusal := issue (.frsq d a) (sfForm1 fpNarrow d a) (sfBody1 fpRsqV d a) s
/-- FEXP2 (R255). -/
def execFexp2 (d a : Sel) (s : State) : Host.Outcome State Fault Refusal := issue (.fexp2 d a) (sfForm1 fpNarrow d a) (sfBody1 fpExp2V d a) s
/-- FLOG2 (R255). -/
def execFlog2 (d a : Sel) (s : State) : Host.Outcome State Fault Refusal := issue (.flog2 d a) (sfForm1 fpNarrow d a) (sfBody1 fpLog2V d a) s
/-- FSIN (R255). -/
def execFsin (d a : Sel) (s : State) : Host.Outcome State Fault Refusal := issue (.fsin d a) (sfForm1 fpNarrow d a) (sfBody1 fpSinV d a) s
/-- FCOS (R255). -/
def execFcos (d a : Sel) (s : State) : Host.Outcome State Fault Refusal := issue (.fcos d a) (sfForm1 fpNarrow d a) (sfBody1 fpCosV d a) s
/-- FTANH (R255). -/
def execFtanh (d a : Sel) (s : State) : Host.Outcome State Fault Refusal := issue (.ftanh d a) (sfForm1 fpNarrow d a) (sfBody1 fpTanhV d a) s

/-! ## FDOT2 (R256) -/

/-- A product term: invalid (0 × ∞), a NaN, an infinity, or finite. -/
inductive DotTerm where
  | invalid
  | nan
  | inf (neg : Bool)
  | fin (neg : Bool) (m : Nat) (e : Int)
  deriving DecidableEq, Repr

def dotMul (x y : FpVal) : DotTerm :=
  match x, y with
  | .nan _, _ => .nan
  | _, .nan _ => .nan
  | .inf a, .inf b => .inf (a != b)
  | .inf a, .fin n m _ => if m = 0 then .invalid else .inf (a != n)
  | .fin n m _, .inf b => if m = 0 then .invalid else .inf (n != b)
  | .fin n1 m1 e1, .fin n2 m2 e2 => .fin (n1 != n2) (m1 * m2) (e1 + e2)

def dotOf (x : FpVal) : DotTerm :=
  match x with
  | .nan _ => .nan
  | .inf n => .inf n
  | .fin n m e => .fin n m e

def dotInf (neg : Bool) : DotTerm → Bool
  | .inf n => n == neg
  | _ => false

def dotFin : DotTerm → Bool × Nat × Int
  | .fin n m e => (n, m, e)
  | _ => (false, 0, 0)

/-- The sum of three terms rounded once to FP32; sv is NV of the signalling sources. -/
def dotSum (rnd : Nat) (sv : BitVec 5) (ts : List DotTerm) : Nat × BitVec 5 :=
  let f := fmtFp32
  if ts.any (fun t => decide (t = .invalid)) || (ts.any (dotInf true) && ts.any (dotInf false)) then (f.nan, fpNV ||| sv)
  else if ts.any (fun t => decide (t = .nan)) then (f.nan, sv)
  else if ts.any (dotInf true) then (fpSign f true + f.infBits, 0)
  else if ts.any (dotInf false) then (f.infBits, 0)
  else
    let vs := ts.map dotFin
    let e0 := vs.foldl (fun m v => if v.2.2 ≤ m then v.2.2 else m) ((vs.head?.map (fun v => v.2.2)).getD 0)
    let v := vs.foldl (fun acc v => acc + scaled v.1 v.2.1 v.2.2 e0) (0 : Int)
    let zneg := if vs.all (fun v => decide (v.2.1 = 0) && v.1) then true
      else if vs.all (fun v => decide (v.2.1 = 0) && !v.1) then false else zeroSumNeg rnd
    fpRoundInt f rnd zneg v e0

/-- FDOT2 in a lane: sources flushed under FTZ each in its own format. -/
def fdot2Lane (mode : Word) (a b d : Nat) : Nat × BitVec 5 :=
  let ty := modeType mode
  let f := fmtOfType ty
  let g (v k : Nat) : FpVal := fpDecode f (fpFlush (modeFtz mode) f (elemOf ty k v))
  let vd := fpDecode fmtFp32 (fpFlush (modeFtz mode) fmtFp32 d)
  let sv := sigNV (g a 0) ||| sigNV (g b 0) ||| sigNV (g a 1) ||| sigNV (g b 1) ||| sigNV vd
  fpFlushOut (modeFtz mode) fmtFp32 (dotSum (modeRnd mode) sv [dotMul (g a 0) (g b 0), dotMul (g a 1) (g b 1), dotOf vd])

def fdot2Body (d a b : Sel) (s : State) (x : Issue) : Eff :=
  laneEff d 1 x.active (fun k => fdot2Lane x.t.mode (x.val k a 1) (x.val k b 1) (x.val k d 1)) s x

def execFdot2 (d a b : Sel) (s : State) : Host.Outcome State Fault Refusal :=
  issue (.fdot2 d a b) (plainForm fpPacked (fun _ => [srcdst d 1, src a 1, src b 1])) (fdot2Body d a b) s

end Sys2Proof.Machine
end

