-- ==== Sys2Proof/Machine/Integer.lean ====
section
/-! DEFINITION. Integer arithmetic, logic and address arithmetic (R244 to R246, R248). Each operation is given on one element of width W as a pattern;
elements are split and joined by mapElems. -/

namespace Sys2Proof.Machine

/-- An element as a number, signed or unsigned by the TYPE (R234). -/
def elemInt (ty x : Nat) : Int := if isSigned ty then sextInt (elemWidth ty) x else (x : Int)

def elemMin (ty : Nat) : Int := if isSigned ty then -((2 ^ (elemWidth ty - 1) : Nat) : Int) else 0
def elemMax (ty : Nat) : Int := if isSigned ty then ((2 ^ (elemWidth ty - 1) : Nat) : Int) - 1 else ((2 ^ elemWidth ty : Nat) : Int) - 1

/-- The element an exact result gives: clamped when the operation saturates and SAT is set, then modulo 2^W (R244). -/
def elemResult (ty : Nat) (sat : Bool) (x : Int) : Nat :=
  wrapNat (elemWidth ty) (if sat then (if x < elemMin ty then elemMin ty else if elemMax ty < x then elemMax ty else x) else x)

/-- DIV (R245): truncated toward zero; all ones for a zero divisor, whatever SAT holds. -/
def intDiv (ty : Nat) (sat : Bool) (a b : Nat) : Nat :=
  if b = 0 then 2 ^ elemWidth ty - 1 else elemResult ty sat ((elemInt ty a).tdiv (elemInt ty b))

/-- REM (R245): A for a zero divisor. -/
def intRem (ty : Nat) (a b : Nat) : Nat :=
  if b = 0 then a else elemResult ty false ((elemInt ty a).tmod (elemInt ty b))

/-- ROT (R244): rotated left by c bits within W. -/
def rotElem (w a c : Nat) : Nat := a * 2 ^ c % 2 ^ w + a / 2 ^ (w - c)

/-- The number of 1 bits among the low w. -/
def popElem (w a : Nat) : Nat := ((List.range w).filter (fun k => decide (a / 2 ^ k % 2 = 1))).length

/-- Leading 0 bits. -/
def clzElem (w a : Nat) : Nat := if a = 0 then w else w - 1 - Nat.log2 a

/-- Trailing 0 bits. -/
def ctzElem (w a : Nat) : Nat := ((List.range w).find? (fun k => decide (a / 2 ^ k % 2 = 1))).getD w

/-- Bit k moved to bit W − 1 − k. -/
def brevElem (w a : Nat) : Nat := ((List.range w).map (fun k => a / 2 ^ k % 2 * 2 ^ (w - 1 - k))).sum

/-- BFE on one element (R246) under a control word. -/
def bfeElem (ty ctl a : Nat) : Nat :=
  let w := elemWidth ty
  let p := ctl % 256
  let n := ctl / 256 % 256
  if n = 0 ∨ w ≤ p then 0
  else
    let q := if n ≤ w - p then n else w - p
    let f := a / 2 ^ p % 2 ^ q
    if isSigned ty then wrapNat w (sextInt q f) else f

/-- BFI on one element (R246). -/
def bfiElem (ty ctl a d : Nat) : Nat :=
  let w := elemWidth ty
  let p := ctl % 256
  let n := ctl / 256 % 256
  if n = 0 ∨ w ≤ p then d
  else
    let q := if n ≤ w - p then n else w - p
    d - d / 2 ^ p % 2 ^ q * 2 ^ p + a % 2 ^ q * 2 ^ p

/-- A unary element operation over a value. -/
def intUn (ty : Nat) (g : Nat → Nat) (a : Nat) : Nat := (mapElems ty (fun k => (g (elemOf ty k a), 0))).1
/-- A binary one. -/
def intBin (ty : Nat) (g : Nat → Nat → Nat) (a b : Nat) : Nat := (mapElems ty (fun k => (g (elemOf ty k a) (elemOf ty k b), 0))).1
/-- One that also reads d. -/
def intTri (ty : Nat) (g : Nat → Nat → Nat → Nat) (a b d : Nat) : Nat :=
  (mapElems ty (fun k => (g (elemOf ty k a) (elemOf ty k b) (elemOf ty k d), 0))).1

/-- The forms of the family (R229, R234). -/
def intForm1 (d a : Sel) : Form := plainForm isIntType (fun ty => [dst d (typeRegs ty), src a (typeRegs ty)])
def intForm2 (d a b : Sel) : Form := plainForm isIntType (fun ty => [dst d (typeRegs ty), src a (typeRegs ty), src b (typeRegs ty)])
def intForm3 (d a b : Sel) : Form := plainForm isIntType (fun ty => [srcdst d (typeRegs ty), src a (typeRegs ty), src b (typeRegs ty)])

/-- A unary instruction: g takes the TYPE, SAT and the element. -/
def intBody1 (g : Nat → Bool → Nat → Nat) (d a : Sel) (s : State) (x : Issue) : Eff :=
  let ty := modeType x.t.mode
  laneEff d (typeRegs ty) x.active (fun k => (intUn ty (g ty (modeSat x.t.mode)) (x.val k a (typeRegs ty)), 0)) s x

/-- A binary instruction. -/
def intBody2 (g : Nat → Bool → Nat → Nat → Nat) (d a b : Sel) (s : State) (x : Issue) : Eff :=
  let ty := modeType x.t.mode
  laneEff d (typeRegs ty) x.active
    (fun k => (intBin ty (g ty (modeSat x.t.mode)) (x.val k a (typeRegs ty)) (x.val k b (typeRegs ty)), 0)) s x

/-- An instruction that reads d (MAD). -/
def intBody3 (g : Nat → Bool → Nat → Nat → Nat → Nat) (d a b : Sel) (s : State) (x : Issue) : Eff :=
  let ty := modeType x.t.mode
  laneEff d (typeRegs ty) x.active
    (fun k => (intTri ty (g ty (modeSat x.t.mode)) (x.val k a (typeRegs ty)) (x.val k b (typeRegs ty)) (x.val k d (typeRegs ty)), 0)) s x

/-- The element functions of the table of R244. -/
def addE (ty : Nat) (sat : Bool) (a b : Nat) : Nat := elemResult ty sat (elemInt ty a + elemInt ty b)
def subE (ty : Nat) (sat : Bool) (a b : Nat) : Nat := elemResult ty sat (elemInt ty a - elemInt ty b)
def mulE (ty : Nat) (sat : Bool) (a b : Nat) : Nat := elemResult ty sat (elemInt ty a * elemInt ty b)
def mulhiE (ty : Nat) (_sat : Bool) (a b : Nat) : Nat := elemResult ty false (elemInt ty a * elemInt ty b / ((2 ^ elemWidth ty : Nat) : Int))
def madE (ty : Nat) (sat : Bool) (a b d : Nat) : Nat := elemResult ty sat (elemInt ty a * elemInt ty b + elemInt ty d)
def absE (ty : Nat) (sat : Bool) (a : Nat) : Nat := elemResult ty sat ((elemInt ty a).natAbs : Int)
def negE (ty : Nat) (sat : Bool) (a : Nat) : Nat := elemResult ty sat (-(elemInt ty a))
def minE (ty : Nat) (_sat : Bool) (a b : Nat) : Nat := if elemInt ty a ≤ elemInt ty b then a else b
def maxE (ty : Nat) (_sat : Bool) (a b : Nat) : Nat := if elemInt ty a ≤ elemInt ty b then b else a
def remE (ty : Nat) (_sat : Bool) (a b : Nat) : Nat := intRem ty a b
def shlE (ty : Nat) (_sat : Bool) (a b : Nat) : Nat := a * 2 ^ (b % elemWidth ty) % 2 ^ elemWidth ty
def shrE (ty : Nat) (_sat : Bool) (a b : Nat) : Nat := elemResult ty false (elemInt ty a / ((2 ^ (b % elemWidth ty) : Nat) : Int))
def rotE (ty : Nat) (_sat : Bool) (a b : Nat) : Nat := rotElem (elemWidth ty) a (b % elemWidth ty)
def andE (_ty : Nat) (_sat : Bool) (a b : Nat) : Nat := a &&& b
def orE (_ty : Nat) (_sat : Bool) (a b : Nat) : Nat := a ||| b
def xorE (_ty : Nat) (_sat : Bool) (a b : Nat) : Nat := a ^^^ b
def notE (ty : Nat) (_sat : Bool) (a : Nat) : Nat := 2 ^ elemWidth ty - 1 - a
def andnE (ty : Nat) (_sat : Bool) (a b : Nat) : Nat := a &&& (2 ^ elemWidth ty - 1 - b)
def popcE (ty : Nat) (_sat : Bool) (a : Nat) : Nat := popElem (elemWidth ty) a
def clzE (ty : Nat) (_sat : Bool) (a : Nat) : Nat := clzElem (elemWidth ty) a
def ctzE (ty : Nat) (_sat : Bool) (a : Nat) : Nat := ctzElem (elemWidth ty) a
def brevE (ty : Nat) (_sat : Bool) (a : Nat) : Nat := brevElem (elemWidth ty) a

/-- ADD (R244). -/
def execAdd (d a b : Sel) (s : State) : Host.Outcome State Fault Refusal :=
  issue (.add d a b) (intForm2 d a b) (intBody2 addE d a b) s

/-- SUB (R244). -/
def execSub (d a b : Sel) (s : State) : Host.Outcome State Fault Refusal :=
  issue (.sub d a b) (intForm2 d a b) (intBody2 subE d a b) s

/-- MUL (R244). -/
def execMul (d a b : Sel) (s : State) : Host.Outcome State Fault Refusal :=
  issue (.mul d a b) (intForm2 d a b) (intBody2 mulE d a b) s

/-- MULHI (R244). -/
def execMulhi (d a b : Sel) (s : State) : Host.Outcome State Fault Refusal :=
  issue (.mulhi d a b) (intForm2 d a b) (intBody2 mulhiE d a b) s

/-- MAD (R244). -/
def execMad (d a b : Sel) (s : State) : Host.Outcome State Fault Refusal :=
  issue (.mad d a b) (intForm3 d a b) (intBody3 madE d a b) s

/-- ABS (R245). -/
def execAbs (d a : Sel) (s : State) : Host.Outcome State Fault Refusal :=
  issue (.abs d a) (intForm1 d a) (intBody1 absE d a) s

/-- NEG (R245). -/
def execNeg (d a : Sel) (s : State) : Host.Outcome State Fault Refusal :=
  issue (.neg d a) (intForm1 d a) (intBody1 negE d a) s

/-- MIN (R244). -/
def execMin (d a b : Sel) (s : State) : Host.Outcome State Fault Refusal :=
  issue (.min d a b) (intForm2 d a b) (intBody2 minE d a b) s

/-- MAX (R244). -/
def execMax (d a b : Sel) (s : State) : Host.Outcome State Fault Refusal :=
  issue (.max d a b) (intForm2 d a b) (intBody2 maxE d a b) s

/-- DIV (R245). -/
def execDiv (d a b : Sel) (s : State) : Host.Outcome State Fault Refusal :=
  issue (.div d a b) (intForm2 d a b) (intBody2 intDiv d a b) s

/-- REM (R245). -/
def execRem (d a b : Sel) (s : State) : Host.Outcome State Fault Refusal :=
  issue (.rem d a b) (intForm2 d a b) (intBody2 remE d a b) s

/-- SHL (R244). -/
def execShl (d a b : Sel) (s : State) : Host.Outcome State Fault Refusal :=
  issue (.shl d a b) (intForm2 d a b) (intBody2 shlE d a b) s

/-- SHR (R244). -/
def execShr (d a b : Sel) (s : State) : Host.Outcome State Fault Refusal :=
  issue (.shr d a b) (intForm2 d a b) (intBody2 shrE d a b) s

/-- ROT (R244). -/
def execRot (d a b : Sel) (s : State) : Host.Outcome State Fault Refusal :=
  issue (.rot d a b) (intForm2 d a b) (intBody2 rotE d a b) s

/-- AND (R244). -/
def execAnd (d a b : Sel) (s : State) : Host.Outcome State Fault Refusal :=
  issue (.and d a b) (intForm2 d a b) (intBody2 andE d a b) s

/-- OR (R244). -/
def execOr (d a b : Sel) (s : State) : Host.Outcome State Fault Refusal :=
  issue (.or d a b) (intForm2 d a b) (intBody2 orE d a b) s

/-- XOR (R244). -/
def execXor (d a b : Sel) (s : State) : Host.Outcome State Fault Refusal :=
  issue (.xor d a b) (intForm2 d a b) (intBody2 xorE d a b) s

/-- NOT (R244). -/
def execNot (d a : Sel) (s : State) : Host.Outcome State Fault Refusal :=
  issue (.not d a) (intForm1 d a) (intBody1 notE d a) s

/-- ANDN (R244). -/
def execAndn (d a b : Sel) (s : State) : Host.Outcome State Fault Refusal :=
  issue (.andn d a b) (intForm2 d a b) (intBody2 andnE d a b) s

/-- POPC (R244). -/
def execPopc (d a : Sel) (s : State) : Host.Outcome State Fault Refusal :=
  issue (.popc d a) (intForm1 d a) (intBody1 popcE d a) s

/-- CLZ (R244). -/
def execClz (d a : Sel) (s : State) : Host.Outcome State Fault Refusal :=
  issue (.clz d a) (intForm1 d a) (intBody1 clzE d a) s

/-- CTZ (R244). -/
def execCtz (d a : Sel) (s : State) : Host.Outcome State Fault Refusal :=
  issue (.ctz d a) (intForm1 d a) (intBody1 ctzE d a) s

/-- BREV (R244). -/
def execBrev (d a : Sel) (s : State) : Host.Outcome State Fault Refusal :=
  issue (.brev d a) (intForm1 d a) (intBody1 brevE d a) s

/-- BFE and BFI take their control word from the low 32 bits of B, the same for every element (R246). -/
def bfeBody (d a b : Sel) (s : State) (x : Issue) : Eff :=
  let ty := modeType x.t.mode
  laneEff d (typeRegs ty) x.active (fun k => (intUn ty (bfeElem ty (x.val k b (typeRegs ty) % 2 ^ 32)) (x.val k a (typeRegs ty)), 0)) s x

/-- BFE (R246). -/
def execBfe (d a b : Sel) (s : State) : Host.Outcome State Fault Refusal := issue (.bfe d a b) (intForm2 d a b) (bfeBody d a b) s

def bfiBody (d a b : Sel) (s : State) (x : Issue) : Eff :=
  let ty := modeType x.t.mode
  laneEff d (typeRegs ty) x.active
    (fun k => (intBin ty (bfiElem ty (x.val k b (typeRegs ty) % 2 ^ 32)) (x.val k a (typeRegs ty)) (x.val k d (typeRegs ty)), 0)) s x

/-- BFI (R246). -/
def execBfi (d a b : Sel) (s : State) : Host.Outcome State Fault Refusal := issue (.bfi d a b) (intForm3 d a b) (bfiBody d a b) s

/-- LEA (R248): the TYPE is ignored. -/
def leaForm (d a b : Sel) : Form := plainForm anyType (fun _ => [dst d 2, src a 2, src b 1])

def leaBody (sh : Nat) (d a b : Sel) (s : State) (x : Issue) : Eff :=
  laneEff d 2 x.active (fun k => (wrapNat 64 ((x.val k a 2 : Int) + sextInt 32 (x.val k b 1) * ((2 ^ sh : Nat) : Int)), 0)) s x

/-- LEA0 (R248). -/
def execLea0 (d a b : Sel) (s : State) : Host.Outcome State Fault Refusal := issue (.lea0 d a b) (leaForm d a b) (leaBody 0 d a b) s
/-- LEA2 (R248). -/
def execLea2 (d a b : Sel) (s : State) : Host.Outcome State Fault Refusal := issue (.lea2 d a b) (leaForm d a b) (leaBody 2 d a b) s
/-- LEA3 (R248). -/
def execLea3 (d a b : Sel) (s : State) : Host.Outcome State Fault Refusal := issue (.lea3 d a b) (leaForm d a b) (leaBody 3 d a b) s

end Sys2Proof.Machine
end

