-- ==== Sys2Proof/Machine/RingMath.lean ====
section
/-! DEFINITION. Ringsets as sets of positions and as sets of reals (R135 to R142, R148 to R152): elements, exact images by intervals with rational ends,
Cover and Hull. A set of positions is a number whose bit k says that position k belongs to it. -/

namespace Sys2Proof.Machine

/-- K, the number of points of a form (R135): 0 RS16, 1 RS32, 2 RC16. -/
def ringK (form : Nat) : Nat := if form = 0 then 8 else if form = 1 then 16 else 128
/-- The number of positions. -/
def ringN (form : Nat) : Nat := 2 * ringK form
/-- The form of a ringset TYPE. -/
def formOfType (ty : Nat) : Nat := ty - 11

/-- Every position. -/
def allPos (form : Nat) : Nat := 2 ^ ringN form - 1

def hasPos (p k : Nat) : Bool := decide (p / 2 ^ k % 2 = 1)

/-- A set of positions from a list. -/
def posOf (ks : List Nat) : Nat := ks.foldl (fun m k => m ||| 2 ^ k) 0

/-- The members of a set of positions, ascending. -/
def posList (n p : Nat) : List Nat := (List.range n).filter (hasPos p)

/-- The positions of an element (R136, R137). -/
def elemPos (form x : Nat) : Nat :=
  if form = 2 then
    let start := x % 256
    let len := x / 256 % 256
    if len = 255 then (if start = 1 then 0 else allPos 2)
    else posOf ((List.range (len + 1)).map (fun i => (start + i) % 256))
  else x % 2 ^ ringN form

/-- The runs that may be the hull of a set of positions (R139): each starts at a member whose predecessor is none, and reaches the farthest member.
First position and length less one. -/
def hullRuns (n p : Nat) : List (Nat × Nat) :=
  let ms := posList n p
  (ms.filter (fun k => !hasPos p ((k + n - 1) % n))).map (fun k => (k, ms.foldl (fun b m => Nat.max b ((m + n - k) % n)) 0))

/-- Hull (R139): none for the empty set; the shortest run, the lower first position on a tie; all positions are the run from 0. -/
def hullRun (n p : Nat) : Option (Nat × Nat) :=
  if p = 0 then none
  else match hullRuns n p with
    | [] => some (0, n - 1)
    | r :: rs => some (rs.foldl (fun b q => if q.2 < b.2 then q else b) r)

/-- The positions of a hull. -/
def hullPos (n p : Nat) : Nat :=
  match hullRun n p with
  | none => 0
  | some (k, l) => posOf ((List.range (l + 1)).map (fun i => (k + i) % n))

/-- A result element from the positions that meet the image (R138): a full mask, or the canonical RC16 arc of the hull (R137). -/
def elemOfPos (form p : Nat) : Nat :=
  if form = 2 then
    match hullRun 256 p with
    | none => 0xFF01
    | some (k, l) => if l = 255 then 0xFF00 else l * 256 + k
  else p

/-! ## Sets of reals -/

/-- A rational number: numerator and denominator, the denominator positive. -/
abbrev Rat2 := Int × Nat

def ratLt (a b : Rat2) : Bool := decide (a.1 * (b.2 : Int) < b.1 * (a.2 : Int))
def ratEq (a b : Rat2) : Bool := decide (a.1 * (b.2 : Int) = b.1 * (a.2 : Int))
def ratAdd (a b : Rat2) : Rat2 := (a.1 * (b.2 : Int) + b.1 * (a.2 : Int), a.2 * b.2)
def ratMul (a b : Rat2) : Rat2 := (a.1 * b.1, a.2 * b.2)
def ratNeg (a : Rat2) : Rat2 := (-a.1, a.2)
/-- The reciprocal of a positive number. -/
def ratInv (a : Rat2) : Rat2 := ((a.2 : Int), a.1.toNat)

/-- An end of an interval: none when unbounded, else the bound and whether it belongs to the interval. -/
abbrev End := Option (Rat2 × Bool)

/-- A nonempty interval of reals. -/
structure Iv where
  lo : End
  hi : End
  deriving DecidableEq, Repr

/-- A set of reals of the projective line: whether ∞ belongs to it, whether it is the whole line, and intervals. -/
structure RealSet where
  whole : Bool
  inf : Bool
  ivs : List Iv
  deriving DecidableEq, Repr

/-- The scale in which every FP32 point is an integer. -/
def pointScale : Nat := 2 ^ 149

/-- The value of a point's encoding. -/
def pointVal (w : Nat) : Rat2 :=
  match fpDecode fmtFp32 w with
  | .fin neg m e => ((if neg then -((m * 2 ^ (e + 149).toNat : Nat) : Int) else ((m * 2 ^ (e + 149).toNat : Nat) : Int)), pointScale)
  | _ => (0, 1)

/-- Point i of a ring, i from 1 (R135). -/
def ringPoint (ps : List Word) (i : Nat) : Rat2 := pointVal (nthD ps (i - 1) 0).toNat

/-- The lower end of position k, and the upper one. -/
def posLo (ps : List Word) (k : Nat) : End :=
  if k % 2 = 0 then some (ringPoint ps (k / 2), true) else if k = 1 then none else some (ringPoint ps (k / 2), false)
def posHi (ps : List Word) (n k : Nat) : End :=
  if k % 2 = 0 then some (ringPoint ps (k / 2), true) else if k = n - 1 then none else some (ringPoint ps (k / 2 + 1), false)

/-- The maximal runs of consecutive positions from 1 up: first and last. -/
def posRuns (p : Nat) : List Nat → Option (Nat × Nat) → List (Nat × Nat)
  | [], none => []
  | [], some r => [r]
  | k :: ks, none => if hasPos p k then posRuns p ks (some (k, k)) else posRuns p ks none
  | k :: ks, some r => if hasPos p k then posRuns p ks (some (r.1, k)) else r :: posRuns p ks none

/-- The real set a set of positions stands for. -/
def realOf (form : Nat) (ps : List Word) (p : Nat) : RealSet :=
  let n := ringN form
  { whole := false, inf := hasPos p 0,
    ivs := (posRuns p ((List.range (n - 1)).map (fun k => k + 1)) none).map (fun r => { lo := posLo ps r.1, hi := posHi ps n r.2 }) }

/-- A point lies above the lower end, or below the upper one; at a bound that belongs to the interval it does too. -/
def aboveLo (e : End) (x : Rat2) : Bool :=
  match e with
  | none => true
  | some (b, c) => ratLt b x || (c && ratEq b x)
def belowHi (e : End) (x : Rat2) : Bool :=
  match e with
  | none => true
  | some (b, c) => ratLt x b || (c && ratEq b x)

/-- The lower end lies below x, or the upper one above it, strictly. -/
def loBelow (e : End) (x : Rat2) : Bool :=
  match e with
  | none => true
  | some (b, _) => ratLt b x
def hiAbove (e : End) (x : Rat2) : Bool :=
  match e with
  | none => true
  | some (b, _) => ratLt x b

/-- The interval meets position k: for an open arc its lower bound must lie below the arc's upper end and its upper bound above the arc's lower end; an
interval of one point must lie inside. -/
def meets (ps : List Word) (n : Nat) (v : Iv) (k : Nat) : Bool :=
  if k % 2 = 0 then
    let x := ringPoint ps (k / 2)
    aboveLo v.lo x && belowHi v.hi x
  else
    (if k = n - 1 then true else loBelow v.lo (ringPoint ps (k / 2 + 1))) && (if k = 1 then true else hiAbove v.hi (ringPoint ps (k / 2)))

/-- Cover (R138): every position whose set meets the real set. -/
def coverPos (form : Nat) (ps : List Word) (x : RealSet) : Nat :=
  if x.whole then allPos form
  else
    posOf ((if x.inf then [0] else []) ++
      ((List.range (ringN form - 1)).map (fun k => k + 1)).filter (fun k => x.ivs.any (fun v => meets ps (ringN form) v k)))

/-! ## Images (R138, R140) -/

def endAdd (a b : End) : End :=
  match a, b with
  | some (x, c), some (y, d) => some (ratAdd x y, c && d)
  | _, _ => none

def endNeg (a : End) : End := a.map (fun e => (ratNeg e.1, e.2))

def isEmptySet (a : RealSet) : Bool := !a.whole && !a.inf && a.ivs.isEmpty

/-- A − image: {−a}. -/
def realNeg (a : RealSet) : RealSet := { a with ivs := a.ivs.map (fun v => { lo := endNeg v.hi, hi := endNeg v.lo }) }

/-- {a + b}. -/
def realAdd (a b : RealSet) : RealSet :=
  { whole := a.inf && b.inf,
    inf := (a.inf && !b.ivs.isEmpty) || (b.inf && !a.ivs.isEmpty),
    ivs := a.ivs.flatMap (fun v => b.ivs.map (fun w => { lo := endAdd v.lo w.lo, hi := endAdd v.hi w.hi })) }

/-- A piece of one sign: zero, or an interval of magnitudes above 0 with its sign. -/
inductive Piece where
  | zero
  | side (neg : Bool) (v : Iv)
  deriving DecidableEq, Repr

def ratZero : Rat2 := (0, 1)

/-- The positive part of an interval, if it has one. -/
def posPart (v : Iv) : Option Iv :=
  if hiAbove v.hi ratZero then
    some { v with lo := match v.lo with
      | some (b, c) => if ratLt ratZero b then some (b, c) else some (ratZero, false)
      | none => some (ratZero, false) }
  else none

/-- An interval in pieces of one sign. -/
def piecesOf (v : Iv) : List Piece :=
  (if aboveLo v.lo ratZero && belowHi v.hi ratZero then [.zero] else []) ++
  ((posPart v).map (fun w => Piece.side false w)).toList ++
  ((posPart { lo := endNeg v.hi, hi := endNeg v.lo }).map (fun w => Piece.side true w)).toList

/-- The pieces of a set's finite part. -/
def setPieces (a : RealSet) : List Piece := a.ivs.flatMap piecesOf

/-- Magnitudes multiplied: a lower bound 0 stays 0 and open; an unbounded side stays unbounded. -/
def magMul (v w : Iv) : Iv :=
  let m (a b : End) : End :=
    match a, b with
    | some (x, c), some (y, d) => some (ratMul x y, c && d)
    | _, _ => none
  { lo := m v.lo w.lo, hi := m v.hi w.hi }

/-- Magnitudes inverted. -/
def magInv (v : Iv) : Iv :=
  { lo := match v.hi with
      | some (b, c) => some (ratInv b, c)
      | none => some (ratZero, false),
    hi := match v.lo with
      | some (b, c) => if ratEq b ratZero then none else some (ratInv b, c)
      | none => none }

/-- A piece as an interval. -/
def pieceIv : Piece → Iv
  | .zero => { lo := some (ratZero, true), hi := some (ratZero, true) }
  | .side false v => v
  | .side true v => { lo := endNeg v.hi, hi := endNeg v.lo }

def pieceMul : Piece → Piece → Piece
  | .zero, _ => .zero
  | _, .zero => .zero
  | .side m v, .side n w => .side (m != n) (magMul v w)

/-- A set given by ∞ and pieces of one sign. -/
structure SignSet where
  inf : Bool
  ps : List Piece
  deriving DecidableEq, Repr

def signSet (a : RealSet) : SignSet := { inf := a.inf, ps := setPieces a }

def hasZero (a : SignSet) : Bool := a.ps.any (fun p => decide (p = .zero))
def hasNonzero (a : SignSet) : Bool := a.ps.any (fun p => decide (p ≠ .zero))

/-- {a × b}: 0 × ∞ contributes the whole line, ∞ × ∞ = ∞. -/
def signMul (a b : SignSet) : RealSet :=
  { whole := (a.inf && hasZero b) || (b.inf && hasZero a),
    inf := (a.inf && (b.inf || hasNonzero b)) || (b.inf && hasNonzero a),
    ivs := a.ps.flatMap (fun p => b.ps.map (fun q => pieceIv (pieceMul p q))) }

/-- {1/a}: 1/0 = ∞ and 1/∞ = 0. -/
def signRcp (a : SignSet) : SignSet :=
  { inf := hasZero a,
    ps := (if a.inf then [Piece.zero] else []) ++ a.ps.filterMap (fun p => match p with
      | .zero => none
      | .side n v => some (.side n (magInv v))) }

def realMul (a b : RealSet) : RealSet := signMul (signSet a) (signSet b)
def realDiv (a b : RealSet) : RealSet := signMul (signSet a) (signRcp (signSet b))
def realRcp (a : RealSet) : RealSet :=
  let r := signRcp (signSet a)
  { whole := false, inf := r.inf, ivs := r.ps.map pieceIv }
/-- {a × a}: one element squared. -/
def realSqr (a : RealSet) : RealSet :=
  let r := signSet a
  { whole := false, inf := r.inf, ivs := r.ps.map (fun p => pieceIv (pieceMul p p)) }

/-- The position of a real number in a ring (R148). -/
def locate (form : Nat) (ps : List Word) (x : Rat2) : Nat :=
  coverPos form ps { whole := false, inf := false, ivs := [{ lo := some (x, true), hi := some (x, true) }] }

/-- A floating-point value in a ring (R148). -/
def locateFp (form : Nat) (ps : List Word) (v : FpVal) : Nat :=
  match v with
  | .nan _ => allPos form
  | .inf _ => 1
  | .fin neg m e =>
    let n : Int := if neg then -(m : Int) else (m : Int)
    locate form ps (if 0 ≤ e then (n * ((2 ^ e.toNat : Nat) : Int), 1) else (n, 2 ^ (-e).toNat))

/-- RSLO (R149): the infimum of the finite part and the flags. -/
def ringLo (form : Nat) (ps : List Word) (p : Nat) : Nat × Nat :=
  let inf := if hasPos p 0 then 2 else 0
  match (posList (ringN form) p).find? (fun k => decide (k ≠ 0)) with
  | none => (fmtFp32.nan, 4 + inf)
  | some k =>
    if k % 2 = 0 then ((nthD ps (k / 2 - 1) 0).toNat, inf)
    else if k = 1 then (0xFF800000, 1 + inf)
    else ((nthD ps (k / 2 - 1) 0).toNat, 1 + inf)

/-- RSHI (R149): the supremum. -/
def ringHi (form : Nat) (ps : List Word) (p : Nat) : Nat × Nat :=
  let inf := if hasPos p 0 then 2 else 0
  match ((posList (ringN form) p).filter (fun k => decide (k ≠ 0))).getLast? with
  | none => (fmtFp32.nan, 4 + inf)
  | some k =>
    if k % 2 = 0 then ((nthD ps (k / 2 - 1) 0).toNat, inf)
    else if k = ringN form - 1 then (0x7F800000, 1 + inf)
    else ((nthD ps (k / 2) 0).toNat, 1 + inf)

/-- CMP on ringset elements as position sets (R151). -/
def ringCompare (code form a b : Nat) : Bool :=
  let n := ringN form
  let pa := elemPos form a
  let pb := elemPos form b
  let top (p : Nat) : Nat := ((posList n p).getLast?).getD 0
  let bot (p : Nat) : Nat := ((posList n p).head?).getD 0
  let ordered := decide (pa ≠ 0) && decide (pb ≠ 0) && !hasPos pa 0 && !hasPos pb 0
  let lt (x y : Nat) : Bool := ordered && decide (top x < bot y)
  let le (x y : Nat) : Bool := ordered && (decide (top x < bot y) || (decide (top x = bot y) && decide (top x % 2 = 0)))
  if code = 0 then decide (pa = pb) else if code = 1 then decide (pa ≠ pb)
  else if code = 2 then lt pa pb else if code = 3 then le pa pb
  else if code = 4 then lt pb pa else if code = 5 then le pb pa
  else if code = 8 then decide (pa &&& pb = pa) else if code = 9 then decide (pa &&& pb = 0)
  else if code = 10 then decide (pa &&& pb ≠ 0) else if code = 11 then decide (pa = 0)
  else decide (code = 12) && (match posList n pa with
    | [k] => decide (k % 2 = 0)
    | _ => false)

/-- The image of two elements' position sets as positions, for an operation on real sets. -/
def ringBin (op : RealSet → RealSet → RealSet) (form : Nat) (ps : List Word) (pa pb : Nat) : Nat :=
  if pa = 0 ∨ pb = 0 then 0 else coverPos form ps (op (realOf form ps pa) (realOf form ps pb))
def ringUn (op : RealSet → RealSet) (form : Nat) (ps : List Word) (pa : Nat) : Nat :=
  if pa = 0 then 0 else coverPos form ps (op (realOf form ps pa))

/-- {a − b} (R140). -/
def realSub (a b : RealSet) : RealSet := realAdd a (realNeg b)

/-- A ring's points are valid (R144). -/
def pointsValid (form : Nat) (ps : List Word) : Bool :=
  let k := ringK form
  decide (ps.length = k - 1) &&
  ps.all (fun p => decide (bits p.toNat 30 23 ≠ 255)) &&
  (List.range (k - 2)).all (fun i => ratLt (pointVal (nthD ps i 0).toNat) (pointVal (nthD ps (i + 1) 0).toNat)) &&
  (List.range (k - 1)).all (fun i =>
    if i + 1 = k / 2 then decide (nthD ps i 0 = 0) else decide (nthD ps (k - 2 - i) 0 = nthD ps i 0 ^^^ 0x80000000))

end Sys2Proof.Machine
end

