-- ==== Sys2Proof/Machine/Ringset.lean ====
section
/-! DEFINITION. Ringset instructions and ring slots (R260 to R264, R143 to R152), CMP (R247) and the conversions (R257 to R259). -/

namespace Sys2Proof.Machine

/-! ## Ring slots -/

/-- The ring of a slot. -/
def ringSlot (t : Team) (k : Nat) : Option Ring := (t.rings[k]?).bind id

/-- The table build of a slot has finished (R146): the operation that counts it completes first. -/
def waitBuild (s : State) (u k : Nat) : State :=
  match tblGet s.teams u with
  | none => s
  | some t =>
    match t.late.find? (fun o => decide (o.build = some k)) with
    | some o => completeLate s u o.id
    | none => s

/-- The RING traps of R145 for a slot, then the wait for its build: form is checked when one is given. -/
def ringThen (k : Nat) (form : Option Nat) (body : Ring → State → Issue → Eff) (s : State) (x : Issue) : Eff :=
  match ringSlot x.t k with
  | none => trapExec .ring s x
  | some r =>
    if form.isSome && decide (form ≠ some r.form) then trapExec .ring s x
    else if r.building then
      let s1 := waitBuild s x.u k
      match tblGet s1.teams x.u with
      | none => .wait s1
      | some t1 =>
        match ringSlot t1 k with
        | some r1 => if r1.building then .wait s1 else body r1 s1 { x with t := t1 }
        | none => .wait s1
    else body r s x

/-- The ring of MODE's slot under MODE's TYPE. -/
def modeRingThen (body : Ring → State → Issue → Eff) (s : State) (x : Issue) : Eff :=
  ringThen (modeRing x.t.mode) (some (formOfType (modeType x.t.mode))) body s x

def ringForm1 (d a : Sel) : Form := plainForm isRingType (fun _ => [dst d 1, src a 1])
def ringForm2 (d a b : Sel) : Form := plainForm isRingType (fun _ => [dst d 1, src a 1, src b 1])

/-- A unary operation on position sets in each lane. -/
def ringBody1 (g : Ring → Nat → Nat) (d a : Sel) (s : State) (x : Issue) : Eff :=
  modeRingThen (fun r s x => laneEff d 1 x.active (fun k => (elemOfPos r.form (g r (elemPos r.form (x.val k a 1))), 0)) s x) s x

def ringBody2 (g : Ring → Nat → Nat → Nat) (d a b : Sel) (s : State) (x : Issue) : Eff :=
  modeRingThen (fun r s x => laneEff d 1 x.active
    (fun k => (elemOfPos r.form (g r (elemPos r.form (x.val k a 1)) (elemPos r.form (x.val k b 1))), 0)) s x) s x

def rsBin (op : RealSet → RealSet → RealSet) (r : Ring) (a b : Nat) : Nat := ringBin op r.form r.points a b
def rsUn (op : RealSet → RealSet) (r : Ring) (a : Nat) : Nat := ringUn op r.form r.points a

/-- RSADD (R261). -/
def execRsadd (d a b : Sel) (s : State) : Host.Outcome State Fault Refusal :=
  issue (.rsadd d a b) (ringForm2 d a b) (ringBody2 (rsBin realAdd) d a b) s
/-- RSSUB (R261). -/
def execRssub (d a b : Sel) (s : State) : Host.Outcome State Fault Refusal :=
  issue (.rssub d a b) (ringForm2 d a b) (ringBody2 (rsBin realSub) d a b) s
/-- RSMUL (R261). -/
def execRsmul (d a b : Sel) (s : State) : Host.Outcome State Fault Refusal :=
  issue (.rsmul d a b) (ringForm2 d a b) (ringBody2 (rsBin realMul) d a b) s
/-- RSDIV (R261). -/
def execRsdiv (d a b : Sel) (s : State) : Host.Outcome State Fault Refusal :=
  issue (.rsdiv d a b) (ringForm2 d a b) (ringBody2 (rsBin realDiv) d a b) s
/-- RSNEG (R261). -/
def execRsneg (d a : Sel) (s : State) : Host.Outcome State Fault Refusal :=
  issue (.rsneg d a) (ringForm1 d a) (ringBody1 (rsUn realNeg) d a) s
/-- RSRCP (R261). -/
def execRsrcp (d a : Sel) (s : State) : Host.Outcome State Fault Refusal :=
  issue (.rsrcp d a) (ringForm1 d a) (ringBody1 (rsUn realRcp) d a) s
/-- RSSQR (R261). -/
def execRssqr (d a : Sel) (s : State) : Host.Outcome State Fault Refusal :=
  issue (.rssqr d a) (ringForm1 d a) (ringBody1 (rsUn realSqr) d a) s
/-- RSUNION (R261): A ∪ B. -/
def execRsunion (d a b : Sel) (s : State) : Host.Outcome State Fault Refusal :=
  issue (.rsunion d a b) (ringForm2 d a b) (ringBody2 (fun _ p q => p ||| q) d a b) s
/-- RSISECT (R261): A ∩ B. -/
def execRsisect (d a b : Sel) (s : State) : Host.Outcome State Fault Refusal :=
  issue (.rsisect d a b) (ringForm2 d a b) (ringBody2 (fun _ p q => p &&& q) d a b) s
/-- RSHULL (R261). -/
def execRshull (d a : Sel) (s : State) : Host.Outcome State Fault Refusal :=
  issue (.rshull d a) (ringForm1 d a) (ringBody1 (fun r p => hullPos (ringN r.form) p) d a) s

/-- RSLO and RSHI (R149): the bound in the even register, the flags in the odd one. -/
def boundBody (g : Nat → List Word → Nat → Nat × Nat) (d a : Sel) (s : State) (x : Issue) : Eff :=
  modeRingThen (fun r s x => laneEff d 2 x.active (fun k =>
    let v := g r.form r.points (elemPos r.form (x.val k a 1))
    (v.1 + 2 ^ 32 * v.2, 0)) s x) s x

def boundForm (d a : Sel) : Form := plainForm isRingType (fun _ => [dst d 2, src a 1])

/-- RSLO (R149). -/
def execRslo (d a : Sel) (s : State) : Host.Outcome State Fault Refusal := issue (.rslo d a) (boundForm d a) (boundBody ringLo d a) s
/-- RSHI (R149). -/
def execRshi (d a : Sel) (s : State) : Host.Outcome State Fault Refusal := issue (.rshi d a) (boundForm d a) (boundBody ringHi d a) s

/-- RSCONV (R150, R262): the traps of the source slot come first, then those of MODE's slot. -/
def rsconvBody (d a b : Sel) (s : State) (x : Issue) : Eff :=
  ringThen (x.uval b 1) none (fun q s x =>
    modeRingThen (fun r s x => laneEff d 1 x.active (fun k =>
      let p := elemPos q.form (x.val k a 1)
      (elemOfPos r.form (if p = 0 then 0 else if p = allPos q.form then allPos r.form else coverPos r.form r.points (realOf q.form q.points p)), 0)) s x)
      s x) s x

def execRsconv (d a b : Sel) (s : State) : Host.Outcome State Fault Refusal := issue (.rsconv d a b) (ringForm2 d a b) (rsconvBody d a b) s

/-- RINGQ (R152, R264): point a of the ring. -/
def ringqVal (r : Ring) (a : Nat) : Nat :=
  if a = 0 then 0x7F800000 else if a < ringK r.form then (nthD r.points (a - 1) 0).toNat else 0x7FC00000

def ringqBody (d a : Sel) (s : State) (x : Issue) : Eff :=
  ringThen (modeRing x.t.mode) none (fun r s x => laneEff d 1 x.active (fun k => (ringqVal r (x.val k a 1), 0)) s x) s x

def execRingq (d a : Sel) (s : State) : Host.Outcome State Fault Refusal :=
  issue (.ringq d a) (plainForm anyType (fun _ => [dst d 1, src a 1])) (ringqBody d a) s

/-! ## RINGLD (R144, R263) -/

/-- A trap class as the end of a read, with faulted mask EXEC. -/
def descEnds (s : State) (x : Issue) (r : RunRes) (k : State → Eff) : Eff :=
  match r with
  | .ends e => runEnds s x e
  | .ok => k s

/-- A read made as the lowest lane of EXEC (R278) at an address, with that lane as faulted mask. -/
def laneThen (va : Nat) (s : State) (x : Issue) (r : RunRes) (k : State → Eff) : Eff :=
  match r with
  | .ends e => laneEnds va s x e
  | .ok => k s

/-- An operation on the OTHERS flag that read a poisoned line: nothing else is done, and INTEGRITY is held for the waiting point of its flag (R276). DESIGN
CHOICE (log 85): R276 names HBIND and not RINGLD; a RINGLD that reads one is taken like an HBIND, so that it leaves its slot as it was and is no RING
trap. -/
def poisonedRead (s : State) (x : Issue) (va : Nat) : Eff :=
  .done (startLate s x.u ((x.t.clause.map Clause.others).getD 15) (fun o => { o with poisoned := [(lowestLane x, va)] })).2

/-- The ring placed in its slot, its build counted on the OTHERS flag. -/
def placeRing (s : State) (x : Issue) (k form : Nat) (ps : List Word) : Eff :=
  let s1 := (waitBuild s x.u k).updTeam x.u (fun t => { t with rings := setNth t.rings k (some { form := form, points := ps, building := true }) })
  .done (startLate s1 x.u ((x.t.clause.map Clause.others).getD 15) (fun o => { o with build := some k })).2

/-- The words of a run of bytes. -/
def wordsOfBytes : List Byte → List Word
  | b0 :: b1 :: b2 :: b3 :: rest => wordOfBytes b0 b1 b2 b3 :: wordsOfBytes rest
  | _ => []

/-- Steps 5 and 6 of R263: the points are read and checked. -/
def ringPoints (s : State) (x : Issue) (k form va : Nat) : Eff :=
  let n := 4 * (ringK form - 1)
  let r := checkRun s x.t va n 1 needR true
  descEnds r.2 x r.1 (fun s =>
    let v := readRun s x.u x.t va n
    match v.1 with
    | none => poisonedRead v.2 x va
    | some bs => if pointsValid form (wordsOfBytes bs) then placeRing v.2 x k form (wordsOfBytes bs) else trapExec .ring v.2 x)

def ringldBody (a b : Sel) (s : State) (x : Issue) : Eff :=
  let k := x.uval a 1
  let va := x.uval b 2
  if x.t.rings.length ≤ k then trapExec .ring s x
  else if va % 16 ≠ 0 then trapExec .align s x
  else
    let r := checkRun s x.t va 16 1 needR true
    descEnds r.2 x r.1 (fun s =>
      let v := readRun s x.u x.t va 16
      match v.1 with
      | none => poisonedRead v.2 x va
      | some bs =>
        let h := natOfBytes bs
        let form := h % 4
        if bits h 31 2 ≠ 0 ∨ bits h 127 64 ≠ 0 ∨ form = 3 ∨ bits h 63 32 ≠ ringK form - 1 then trapExec .ring v.2 x
        else ringPoints v.2 x k form ((va + 16) % 2 ^ 64))

def execRingld (a b : Sel) (s : State) : Host.Outcome State Fault Refusal :=
  issue (.ringld a b) { plainForm anyType (fun _ => [src a 1, src b 2]) with late := true, mem := true, cls := 2 } (ringldBody a b) s

/-! ## CMP (R247) -/

/-- The conditions a TYPE defines (R247, check 4). -/
def cmpOk (code ty : Nat) : Bool :=
  decide (code ≤ 5) || ((decide (code = 6) || decide (code = 7)) && isFpType ty) || (decide (8 ≤ code) && decide (code ≤ 12) && isRingType ty)

/-- An integer condition on one element. -/
def intCompare (code ty a b : Nat) : Bool :=
  let x := elemInt ty a
  let y := elemInt ty b
  if code = 0 then decide (x = y) else if code = 1 then decide (x ≠ y) else if code = 2 then decide (x < y)
  else if code = 3 then decide (x ≤ y) else if code = 4 then decide (y < x) else decide (y ≤ x)

/-- C(code, A, B) of R247: packed, every element holds, and NE is the complement of EQ; the FPST bits beside it. -/
def compareVal (code : Nat) (mode : Word) (a b : Nat) : Bool × BitVec 5 :=
  let ty := modeType mode
  let es := List.range (elemCount ty)
  if isRingType ty then (ringCompare code (formOfType ty) a b, 0)
  else if isIntType ty then
    if code = 1 then (!(es.all (fun e => intCompare 0 ty (elemOf ty e a) (elemOf ty e b))), 0)
    else (es.all (fun e => intCompare code ty (elemOf ty e a) (elemOf ty e b)), 0)
  else
    let c (code e : Nat) : Bool × BitVec 5 := fpCompare code (fmtOfType ty) (modeFtz mode) (elemOf ty e a) (elemOf ty e b)
    let fl := es.foldl (fun f e => f ||| (c code e).2) (0 : BitVec 5)
    if code = 1 then (!(es.all (fun e => (c 0 e).1)), fl) else (es.all (fun e => (c code e).1), fl)

/-- The mask with each ACTIVE lane's bit written; slots not LIVE stay (R191). -/
def cmpBody (code m : Nat) (a b : Sel) (s : State) (x : Issue) : Eff :=
  let n := typeRegs (modeType x.t.mode)
  let c (k : Nat) : Bool × BitVec 5 := compareVal code x.t.mode (x.val k a n) (x.val k b n)
  let lanes := slotsOf x.t.cfg.capacity x.active
  let out := lanes.foldl (fun (v : Mask) k => setSlot v k (c k).1) ((x.t.masks[m]?).getD 0)
  .done (s.setTeam x.u (orFpst (writeMask x.t m out) (lanes.foldl (fun f k => f ||| (c k).2) 0)))

def cmpForm (code : Nat) (a b : Sel) : Form := plainForm (cmpOk code) (fun ty => [src a (typeRegs ty), src b (typeRegs ty)])

def execCmp (c m : Nat) (a b : Sel) (s : State) : Host.Outcome State Fault Refusal := issue (.cmp c m a b) (cmpForm c a b) (cmpBody c m a b) s

/-! ## Conversions (R257 to R259) -/

/-- The destination TYPEs of a conversion. -/
def cvtType (ty : Nat) : Bool := decide (ty ≤ 3) || decide (ty = 6) || (decide (9 ≤ ty) && decide (ty ≤ 13))

/-- An integer value to the destination TYPE; the ring is the ring of MODE's slot. -/
def cvtInt (mode : Word) (ring : Option Ring) (v : Int) : Nat × BitVec 5 :=
  let ty := modeType mode
  if isIntType ty then (elemResult ty (modeSat mode) v, 0)
  else if isFpType ty then fpRoundInt (fmtOfType ty) (modeRnd mode) false v 0
  else match ring with
    | some r => (elemOfPos r.form (locate r.form r.points (v, 1)), 0)
    | none => (0, 0)

/-- A floating-point encoding of format f to the destination TYPE. -/
def cvtFp (f : FpFmt) (mode : Word) (ring : Option Ring) (x : Nat) : Nat × BitVec 5 :=
  let ty := modeType mode
  let v := fpDecode f (fpFlush (modeFtz mode) f x)
  if isIntType ty then
    let r := fpToInt (modeRnd mode) (elemMin ty) (elemMax ty) v
    (wrapNat (elemWidth ty) r.1, r.2)
  else if isFpType ty then fpFlushOut (modeFtz mode) (fmtOfType ty) (fpConvV (fmtOfType ty) (modeRnd mode) v)
  else match ring with
    | some r => (elemOfPos r.form (locateFp r.form r.points v), 0)
    | none => (0, 0)

/-- A conversion: g takes MODE, the ring and the source value; a ringset destination takes the RING traps first. -/
def cvtBody (n : Nat) (g : Word → Option Ring → Nat → Nat × BitVec 5) (d a : Sel) (s : State) (x : Issue) : Eff :=
  if isRingType (modeType x.t.mode) then
    modeRingThen (fun r s x => laneEff d 1 x.active (fun k => g x.t.mode (some r) (x.val k a n)) s x) s x
  else laneEff d (typeRegs (modeType x.t.mode)) x.active (fun k => g x.t.mode none (x.val k a n)) s x

def cvtForm (n : Nat) (d a : Sel) : Form := plainForm cvtType (fun ty => [dst d (typeRegs ty), src a n])

/-- CVTI (R257): from I32. -/
def execCvti (d a : Sel) (s : State) : Host.Outcome State Fault Refusal :=
  issue (.cvti d a) (cvtForm 1 d a) (cvtBody 1 (fun m r v => cvtInt m r (sextInt 32 v)) d a) s
/-- CVTN (R257): from N32. -/
def execCvtn (d a : Sel) (s : State) : Host.Outcome State Fault Refusal :=
  issue (.cvtn d a) (cvtForm 1 d a) (cvtBody 1 (fun m r v => cvtInt m r (v : Int)) d a) s
/-- CVTL (R257): from I64. -/
def execCvtl (d a : Sel) (s : State) : Host.Outcome State Fault Refusal :=
  issue (.cvtl d a) (cvtForm 2 d a) (cvtBody 2 (fun m r v => cvtInt m r (sextInt 64 v)) d a) s
/-- CVTF (R257): from FP32. -/
def execCvtf (d a : Sel) (s : State) : Host.Outcome State Fault Refusal :=
  issue (.cvtf d a) (cvtForm 1 d a) (cvtBody 1 (cvtFp fmtFp32) d a) s
/-- CVTD (R257): from FP64. -/
def execCvtd (d a : Sel) (s : State) : Host.Outcome State Fault Refusal :=
  issue (.cvtd d a) (cvtForm 2 d a) (cvtBody 2 (cvtFp fmtFp64) d a) s
/-- CVTB (R257): from BF16. -/
def execCvtb (d a : Sel) (s : State) : Host.Outcome State Fault Refusal :=
  issue (.cvtb d a) (cvtForm 1 d a) (cvtBody 1 (fun m r v => cvtFp fmtBf16 m r (v % 2 ^ 16)) d a) s
/-- CVTH (R257): from FP16. -/
def execCvth (d a : Sel) (s : State) : Host.Outcome State Fault Refusal :=
  issue (.cvth d a) (cvtForm 1 d a) (cvtBody 1 (fun m r v => cvtFp fmtFp16 m r (v % 2 ^ 16)) d a) s

/-- PACK2 (R259): a to element 0 and b to element 1. -/
def pack2Val (mode : Word) (a b : Nat) : Nat × BitVec 5 := mapElems (modeType mode) (fun e =>
  let f := fmtOfType (modeType mode)
  fpFlushOut (modeFtz mode) f (fpConvV f (modeRnd mode) (fpDecode fmtFp32 (fpFlush (modeFtz mode) fmtFp32 (if e = 0 then a else b)))))

def pack2Body (d a b : Sel) (s : State) (x : Issue) : Eff :=
  laneEff d 1 x.active (fun k => pack2Val x.t.mode (x.val k a 1) (x.val k b 1)) s x

def execPack2 (d a b : Sel) (s : State) : Host.Outcome State Fault Refusal :=
  issue (.pack2 d a b) (plainForm fpPacked (fun _ => [dst d 1, src a 1, src b 1])) (pack2Body d a b) s

end Sys2Proof.Machine
end

