-- ==== Sys2Proof/Machine/Lanes.lean ====
section
/-! DEFINITION. Cross-lane instructions (R266 to R270), the reduction tree (R129, R130), and the sparse instructions (R295 to R298). -/

namespace Sys2Proof.Machine

/-! ## Reduction nodes -/

/-- What a node does (R129, R130): REDOP 1 to 6, of which a span reduction uses all but AND. -/
inductive Node where
  | add
  | min
  | max
  | and
  | or
  | union
  deriving DecidableEq, Repr

/-- The TYPEs that have an identity for the node (R130). -/
def nodeType (n : Node) (ty : Nat) : Bool :=
  match n with
  | .add => decide (ty ≤ 13)
  | .min => isIntType ty || isFpType ty
  | .max => isIntType ty || isFpType ty
  | .and => isIntType ty
  | .or => isIntType ty
  | .union => isRingType ty

/-- A value with the same element everywhere. -/
def fillElems (ty e : Nat) : Nat := joinElems ty (List.replicate (elemCount ty) e)

/-- The element {0} of a ringset TYPE. -/
def ringZero (ty : Nat) : Nat := if ty = tRs16 then 0x0100 else if ty = tRs32 then 0x00010000 else 0x0080

/-- The identity of R130. -/
def identity (n : Node) (mode : Word) : Nat :=
  let ty := modeType mode
  let f := fmtOfType ty
  let w := elemWidth ty
  match n with
  | .add => if isFpType ty then fillElems ty (if modeRnd mode = 3 then 0 else f.signBit) else if isRingType ty then ringZero ty else 0
  | .min => if isFpType ty then fillElems ty f.infBits else fillElems ty (wrapNat w (elemMax ty))
  | .max => if isFpType ty then fillElems ty (f.signBit + f.infBits) else fillElems ty (wrapNat w (elemMin ty))
  | .and => fillElems ty (2 ^ w - 1)
  | .or => 0
  | .union => if ty = tRc16 then 0xFF01 else 0

/-- One node (R129): an operation of the TYPE under MODE, and in the ring of its slot. -/
def nodeOp (n : Node) (mode : Word) (ring : Option Ring) (x y : Nat) : Nat × BitVec 5 :=
  let ty := modeType mode
  let f := fmtOfType ty
  let sat := modeSat mode
  let fp (g : FpFmt → Word → Nat → Nat → Nat × BitVec 5) : Nat × BitVec 5 := mapElems ty (fun e => g f mode (elemOf ty e x) (elemOf ty e y))
  match n with
  | .add =>
    if isFpType ty then fp (fpBin fpAddV)
    else if isRingType ty then
      match ring with
      | some r => (elemOfPos r.form (ringBin realAdd r.form r.points (elemPos r.form x) (elemPos r.form y)), 0)
      | none => (0, 0)
    else (intBin ty (addE ty sat) x y, 0)
  | .min => if isFpType ty then fp (fpPickE false) else (intBin ty (minE ty sat) x y, 0)
  | .max => if isFpType ty then fp (fpPickE true) else (intBin ty (maxE ty sat) x y, 0)
  | .and => (intBin ty (andE ty sat) x y, 0)
  | .or => (intBin ty (orE ty sat) x y, 0)
  | .union => let form := formOfType ty; (elemOfPos form (elemPos form x ||| elemPos form y), 0)

/-- One level of the tree (R129): neighbours combined, the lower index on the left. -/
def foldLevel (op : Nat → Nat → Nat × BitVec 5) : List Nat → List Nat × BitVec 5
  | x :: y :: rest =>
    let r := op x y
    let q := foldLevel op rest
    (r.1 :: q.1, r.2 ||| q.2)
  | l => (l, 0)

/-- The tree of R129 over 2^k inputs: the result and the FPST bits. -/
def foldTree (op : Nat → Nat → Nat × BitVec 5) : Nat → List Nat → BitVec 5 → Nat × BitVec 5
  | 0, l, e => (l.head?.getD 0, e)
  | k + 1, l, e =>
    let r := foldLevel op l
    foldTree op k r.1 (e ||| r.2)

/-- A fold in order, from the left. -/
def foldRow (op : Nat → Nat → Nat × BitVec 5) (r : Nat × BitVec 5) (l : List Nat) : Nat × BitVec 5 :=
  l.foldl (fun acc x => let y := op acc.1 x; (y.1, acc.2 ||| y.2)) r

/-! ## Spans (R266) -/

/-- The first slot of a lane's span. -/
def spanBase (t : Team) (k : Nat) : Nat := k - k % t.cfg.span
/-- The ACTIVE slots of a lane's span, ascending. -/
def spanSlots (x : Issue) (k : Nat) : List Nat :=
  ((List.range x.t.cfg.span).map (fun i => spanBase x.t k + i)).filter (fun j => decide (j < slotCount) && x.whole.getLsbD j)

/-- An operand of another slot as R266 reads it: zero from a slot that is not ACTIVE. -/
def crossVal (x : Issue) (a : Sel) (n j : Nat) : Nat := if decide (j < slotCount) && x.whole.getLsbD j then x.val j a n else 0

/-- A cross-lane instruction: an s destination is ILLEGAL_OP at check 5; reads names the slots whose operand a lane reads, and a lane that reads a
poisoned register there takes INTEGRITY and writes nothing (R385). -/
def crossEff (d : Sel) (n : Nat) (a : Sel) (na : Nat) (reads : Issue → Nat → List Nat) (f : Issue → Nat → Nat × BitVec 5) (s : State) (x : Issue) : Eff :=
  if isSreg d then trapExec .illegalOp s x
  else
    let pl := poisonedLanes x.t [src a na] x.whole
    let bad := if pl = 0 then (0 : Mask)
      else maskOf ((slotsOf x.t.cfg.capacity x.active).filter (fun k => (reads x k).any (fun j => decide (j < slotCount) && pl.getLsbD j)))
    withPoison x.u bad (laneEff d n (x.active &&& ~~~ bad) (f x) s x)

/-- The slot a shuffle reads, none outside the span (R267): j as an exact integer. -/
def shflSlot (j : Nat → Nat → Int) (b : Sel) (x : Issue) (k : Nat) : Option Nat :=
  let i := j (k % x.t.cfg.span) (x.val k b 1)
  if 0 ≤ i ∧ i < (x.t.cfg.span : Int) then some (spanBase x.t k + i.toNat) else none

def shflBody (j : Nat → Nat → Int) (d a b : Sel) (s : State) (x : Issue) : Eff :=
  let n := typeRegs (modeType x.t.mode)
  crossEff d n a n (fun x k => (shflSlot j b x k).toList)
    (fun x k => ((match shflSlot j b x k with
      | some p => crossVal x a n p
      | none => 0), 0)) s x

def shflForm (d a b : Sel) : Form := plainForm anyType (fun ty => [dst d (typeRegs ty), across a (typeRegs ty), src b 1])

/-- SHFL (R267). -/
def execShfl (d a b : Sel) (s : State) : Host.Outcome State Fault Refusal :=
  issue (.shfl d a b) (shflForm d a b) (shflBody (fun _ b => (b : Int)) d a b) s
/-- SHFLX (R267). -/
def execShflx (d a b : Sel) (s : State) : Host.Outcome State Fault Refusal :=
  issue (.shflx d a b) (shflForm d a b) (shflBody (fun k b => ((k ^^^ b : Nat) : Int)) d a b) s
/-- SHFLUP (R267). -/
def execShflup (d a b : Sel) (s : State) : Host.Outcome State Fault Refusal :=
  issue (.shflup d a b) (shflForm d a b) (shflBody (fun k b => (k : Int) - (b : Int)) d a b) s
/-- SHFLDN (R267). -/
def execShfldn (d a b : Sel) (s : State) : Host.Outcome State Fault Refusal :=
  issue (.shfldn d a b) (shflForm d a b) (shflBody (fun k b => (k : Int) + (b : Int)) d a b) s

def voteForm (d a : Sel) : Form := plainForm anyType (fun _ => [dst d 1, across a 1])

/-- The ACTIVE lanes of a span whose a is not 0. -/
def voters (a : Sel) (x : Issue) (k : Nat) : List Nat := (spanSlots x k).filter (fun j => decide (x.val j a 1 ≠ 0))

/-- VOTEANY (R268). -/
def execVoteany (d a : Sel) (s : State) : Host.Outcome State Fault Refusal :=
  issue (.voteany d a) (voteForm d a) (crossEff d 1 a 1 spanSlots (fun x k => (if (voters a x k).isEmpty then 0 else 1, 0))) s
/-- VOTEALL (R268). -/
def execVoteall (d a : Sel) (s : State) : Host.Outcome State Fault Refusal :=
  issue (.voteall d a) (voteForm d a)
    (crossEff d 1 a 1 spanSlots (fun x k => (if (voters a x k).length = (spanSlots x k).length then 1 else 0, 0))) s

/-- BALLOT (R268): one register, an even pair for S = 64. -/
def ballotBody (d a : Sel) (s : State) (x : Issue) : Eff :=
  let n := if x.t.cfg.span = 64 then 2 else 1
  if !opndOk x.t.cfg.budget (dst d n) then trapExec .illegalOp s x
  else crossEff d n a 1 spanSlots (fun x k => (((voters a x k).map (fun j => 2 ^ (j % x.t.cfg.span))).sum, 0)) s x

def execBallot (d a : Sel) (s : State) : Host.Outcome State Fault Refusal := issue (.ballot d a) (voteForm d a) (ballotBody d a) s

/-! ## Reductions (R269) -/

/-- Input k of a span: the operand of spanlane k, or the identity. -/
def spanInputs (n : Node) (a : Sel) (x : Issue) (k : Nat) : List Nat :=
  (List.range x.t.cfg.span).map (fun i =>
    let j := spanBase x.t k + i
    if decide (j < slotCount) && x.whole.getLsbD j then x.val j a (typeRegs (modeType x.t.mode)) else identity n x.t.mode)

/-- The RING traps and the build wait for a ringset TYPE, the body at once for any other (R269). -/
def perhapsRing (body : Option Ring → State → Issue → Eff) (s : State) (x : Issue) : Eff :=
  if isRingType (modeType x.t.mode) then modeRingThen (fun r s x => body (some r) s x) s x else body none s x

def redBody (n : Node) (d a : Sel) (s : State) (x : Issue) : Eff :=
  if isSreg d then trapExec .illegalOp s x
  else
    perhapsRing (fun r s x =>
      crossEff d (typeRegs (modeType x.t.mode)) a (typeRegs (modeType x.t.mode)) spanSlots
        (fun x k => foldTree (nodeOp n x.t.mode r) (Nat.log2 x.t.cfg.span) (spanInputs n a x k) 0) s x) s x

def redForm (n : Node) (d a : Sel) : Form := plainForm (nodeType n) (fun ty => [dst d (typeRegs ty), across a (typeRegs ty)])

/-- REDADD (R269). -/
def execRedadd (d a : Sel) (s : State) : Host.Outcome State Fault Refusal := issue (.redadd d a) (redForm .add d a) (redBody .add d a) s
/-- REDMIN (R269). -/
def execRedmin (d a : Sel) (s : State) : Host.Outcome State Fault Refusal := issue (.redmin d a) (redForm .min d a) (redBody .min d a) s
/-- REDMAX (R269). -/
def execRedmax (d a : Sel) (s : State) : Host.Outcome State Fault Refusal := issue (.redmax d a) (redForm .max d a) (redBody .max d a) s
/-- REDOR (R269). -/
def execRedor (d a : Sel) (s : State) : Host.Outcome State Fault Refusal := issue (.redor d a) (redForm .or d a) (redBody .or d a) s
/-- REDUN (R269). -/
def execRedun (d a : Sel) (s : State) : Host.Outcome State Fault Refusal := issue (.redun d a) (redForm .union d a) (redBody .union d a) s

/-- SCANADD (R269): one node for every spanlane up to the lane's own, from the identity; the nodes after it change no value and no flag. -/
def scanBody (d a : Sel) (s : State) (x : Issue) : Eff :=
  crossEff d (typeRegs (modeType x.t.mode)) a (typeRegs (modeType x.t.mode))
    (fun x k => (spanSlots x k).filter (fun j => decide (j ≤ k)))
    (fun x k => foldRow (nodeOp .add x.t.mode none) (identity .add x.t.mode, 0) ((spanInputs .add a x k).take (k % x.t.cfg.span + 1))) s x

def execScanadd (d a : Sel) (s : State) : Host.Outcome State Fault Refusal :=
  issue (.scanadd d a) (plainForm (fun ty => decide (ty ≤ 10)) (fun ty => [dst d (typeRegs ty), across a (typeRegs ty)])) (scanBody d a) s

/-! ## Equal values (R270) -/

/-- The bits of a value that its TYPE uses: a type of one 16-bit element ignores bits 31:16 and writes them zero (R119). -/
def trimVal (ty v : Nat) : Nat := v % 2 ^ (elemWidth ty * elemCount ty)

/-- The ACTIVE lanes of the span that hold the lane's value, ascending. -/
def equals (a : Sel) (n : Nat) (x : Issue) (k : Nat) : List Nat := (spanSlots x k).filter (fun j => decide (x.val j a n = x.val k a n))

/-- CONFD (R270): the spanlane of the leader; the destination is one register (log 24). -/
def confdBody (d a : Sel) (s : State) (x : Issue) : Eff :=
  let n := typeRegs (modeType x.t.mode)
  crossEff d 1 a n spanSlots (fun x k => (((equals a n x k).head?.getD k) % x.t.cfg.span, 0)) s x

def execConfd (d a : Sel) (s : State) : Host.Outcome State Fault Refusal :=
  issue (.confd d a) (plainForm anyType (fun ty => [dst d 1, across a (typeRegs ty)])) (confdBody d a) s

/-- KEYADD (R270): the leader gets the sum of the values of its key in ascending order, every other lane 0. -/
def keyaddBody (d a b : Sel) (s : State) (x : Issue) : Eff :=
  let n := typeRegs (modeType x.t.mode)
  if isSreg d then trapExec .illegalOp s x
  else
    let pl := poisonedLanes x.t [src a 1, src b n] x.whole
    let bad := if pl = 0 then (0 : Mask)
      else maskOf ((slotsOf x.t.cfg.capacity x.active).filter (fun k => (spanSlots x k).any (fun j => pl.getLsbD j)))
    withPoison x.u bad (laneEff d n (x.active &&& ~~~ bad) (fun k =>
      match equals a 1 x k with
      | [] => (0, 0)
      | l :: rest => if l = k then foldRow (nodeOp .add x.t.mode none) (trimVal (modeType x.t.mode) (x.val k b n), 0) (rest.map (fun j => x.val j b n)) else (0, 0)) s x)

def execKeyadd (d a b : Sel) (s : State) : Host.Outcome State Fault Refusal :=
  issue (.keyadd d a b) (plainForm (fun ty => decide (ty ≤ 10)) (fun ty => [dst d (typeRegs ty), across a 1, across b (typeRegs ty)])) (keyaddBody d a b) s

/-! ## Sparse lists (R295 to R298) -/

/-- A list of a span (R295): values with their spanlanes, up to the first 0xFFFF_FFFF. -/
def sparseList (a : Sel) (x : Issue) (k : Nat) : List (Nat × Nat) :=
  ((spanSlots x k).map (fun j => (x.val j a 1, j % x.t.cfg.span))).takeWhile (fun e => decide (e.1 ≠ 0xFFFFFFFF))

/-- The walk of ISECT (R296): the output words, and the advance counts. -/
def isectWalk : Nat → List (Nat × Nat) → List (Nat × Nat) → Nat → Nat → List Nat × Nat × Nat
  | 0, _, _, i, j => ([], i, j)
  | _, [], _, i, j => ([], i, j)
  | _, _ :: _, [], i, j => ([], i, j)
  | fuel + 1, a :: as, b :: bs, i, j =>
    if a.1 < b.1 then isectWalk fuel as (b :: bs) (i + 1) j
    else if b.1 < a.1 then isectWalk fuel (a :: as) bs i (j + 1)
    else
      let r := isectWalk fuel as bs (i + 1) (j + 1)
      ((a.2 ||| b.2 <<< 8) :: r.1, r.2)

/-- The place of a lane among the ACTIVE lanes of its span: its output slot. -/
def outSlot (x : Issue) (k : Nat) : Nat := ((spanSlots x k).filter (fun j => decide (j < k))).length

def sparseForm (d a b : Sel) : Form := plainForm anyType (fun _ => [dst d 2, across a 1, across b 1])

/-- A sparse instruction: its lanes read the lists of their span, and the operands own in their own lane (R298, R385). -/
def sparseEff (d : Sel) (lists own : List Opnd) (f : Issue → Nat → Nat) (s : State) (x : Issue) : Eff :=
  if isSreg d then trapExec .illegalOp s x
  else
    let pl := poisonedLanes x.t lists x.whole
    let span := if pl = 0 then (0 : Mask)
      else maskOf ((slotsOf x.t.cfg.capacity x.active).filter (fun k => (spanSlots x k).any (fun j => pl.getLsbD j)))
    let bad := span ||| poisonedLanes x.t own x.active
    withPoison x.u bad (laneEff d 2 (x.active &&& ~~~ bad) (fun k => (f x k, 0)) s x)

/-- ISECT (R296). -/
def isectLane (a b : Sel) (x : Issue) (k : Nat) : Nat :=
  let la := sparseList a x k
  let lb := sparseList b x k
  let r := isectWalk (la.length + lb.length) la lb 0 0
  nthD r.1 (outSlot x k) 0xFFFFFFFF + 2 ^ 32 * (r.2.1 ||| r.2.2 <<< 8 ||| r.1.length <<< 16)

def execIsect (d a b : Sel) (s : State) : Host.Outcome State Fault Refusal :=
  issue (.isect d a b) (sparseForm d a b) (sparseEff d [src a 1, src b 1] [] (isectLane a b)) s

/-- The walk of MERGE (R297) for at most q outputs: value and source, and the advance counts. -/
def mergeWalk : Nat → List (Nat × Nat) → List (Nat × Nat) → Nat → Nat → List (Nat × Nat) × Nat × Nat
  | 0, _, _, i, j => ([], i, j)
  | _ + 1, [], [], i, j => ([], i, j)
  | q + 1, a :: as, [], i, j =>
    let r := mergeWalk q as [] (i + 1) j
    ((a.1, a.2 ||| 0xFF <<< 8) :: r.1, r.2)
  | q + 1, [], b :: bs, i, j =>
    let r := mergeWalk q [] bs i (j + 1)
    ((b.1, 0xFF ||| b.2 <<< 8) :: r.1, r.2)
  | q + 1, a :: as, b :: bs, i, j =>
    if a.1 < b.1 then
      let r := mergeWalk q as (b :: bs) (i + 1) j
      ((a.1, a.2 ||| 0xFF <<< 8) :: r.1, r.2)
    else if b.1 < a.1 then
      let r := mergeWalk q (a :: as) bs i (j + 1)
      ((b.1, 0xFF ||| b.2 <<< 8) :: r.1, r.2)
    else
      let r := mergeWalk q as bs (i + 1) (j + 1)
      ((a.1, a.2 ||| b.2 <<< 8) :: r.1, r.2)

/-- MERGE (R297). -/
def mergeLane (a b : Sel) (x : Issue) (k : Nat) : Nat :=
  let r := mergeWalk (spanSlots x k).length (sparseList a x k) (sparseList b x k) 0 0
  let tail := r.2.1 <<< 16 ||| r.2.2 <<< 24
  match r.1[outSlot x k]? with
  | some e => e.1 + 2 ^ 32 * (e.2 ||| tail)
  | none => 0xFFFFFFFF + 2 ^ 32 * (0xFFFF ||| tail)

def execMerge (d a b : Sel) (s : State) : Host.Outcome State Fault Refusal :=
  issue (.merge d a b) (sparseForm d a b) (sparseEff d [src a 1, src b 1] [] (mergeLane a b)) s

/-- MPSPLIT (R298). -/
def mpsplitLane (a b : Sel) (x : Issue) (k : Nat) : Nat :=
  let la := sparseList a x k
  let v := x.val k b 1
  let i := ((List.range la.length).filter (fun p => decide ((nthD la p (0, 0)).1 + p < v))).length
  i + 2 ^ 32 * wrapNat 32 ((v : Int) - (i : Int))

def execMpsplit (d a b : Sel) (s : State) : Host.Outcome State Fault Refusal :=
  issue (.mpsplit d a b) (sparseForm d a b) (sparseEff d [src a 1] [src b 1] (mpsplitLane a b)) s

end Sys2Proof.Machine
end

