-- ==== Sys2Proof/Machine/Calls.lean ====
section
/-! DEFINITION. Frames (R101, R179 to R192): what a call does to a team, the rounds of WIDEN, gather frames, and how a finished frame completes. These
are functions of the team alone; Control.lean wraps them in the waits, the traps and the frame stack's memory. -/

namespace Sys2Proof.Machine

/-- The FREE slots (R101). -/
def freeMask (t : Team) : Mask := lowMask t.cfg.capacity &&& ~~~ (t.frame ||| t.held ||| t.spent)

/-- The slots of a group. -/
def groupMask (first n : Nat) : Mask := lowMask n <<< first

/-- The aligned groups of n free slots, ascending (R184). -/
def groupsOf (cap n : Nat) (free : Mask) : List Nat :=
  ((List.range (cap / n)).map (fun k => n * k)).filter (fun f => decide (groupMask f n &&& ~~~ free = 0))

/-- Inactive slots spilled, the highest first, until a group is free (R184): the slots, or none when no group can be made free. -/
def spillMore (cap n : Nat) (free : Mask) : List Nat → List Nat → Option (List Nat)
  | [], acc => if groupsOf cap n free ≠ [] then some acc else none
  | k :: rest, acc => if groupsOf cap n free ≠ [] then some acc else spillMore cap n (free ||| slotMask k) rest (acc ++ [k])

/-- The slots a call spills, in order (R184, R187); none for a call that no spilling can serve (R180, step 4). -/
def spillPlan (t : Team) (h : FnHdr) (lanes : Mask) : Option (List Nat) :=
  let cap := t.cfg.capacity
  let free := freeMask t
  match h.rule with
  | .same => some []
  | .gather => if free ≠ 0 then some [] else some ((lowestSlot cap lanes).toList)
  | .widen =>
    if cap < h.n then none
    else if groupsOf cap h.n free ≠ [] then some []
    else
      let callers := slotsOf cap lanes
      spillMore cap h.n (free ||| lanes) ((slotsOf cap ((t.frame ||| t.held) &&& ~~~ lanes)).reverse) callers

/-- A slot's lane frame (R192). -/
def laneFrameOf (t : Team) (k : Nat) : LaneFrame :=
  { slot := k,
    bits := (List.range 8).foldl (fun (b : BitVec 8) i => if h : i < 8 then (if t.masks[i].getLsbD k then b ||| BitVec.ofNat 8 (2 ^ i) else b) else b) 0,
    regs := (List.range t.cfg.budget).map (fun r => wordGet t.vregs (192 * k + r)),
    poison := (t.poisonV.filter (fun p => decide (p / 192 = k))).map (fun p => p % 192) }

/-- A register of a caller, in its slot or in its spilled frame (R184). -/
def callerReg (t : Team) (spilled : List LaneFrame) (k r : Nat) : Word :=
  match spilled.find? (fun f => decide (f.slot = k)) with
  | some f => nthD f.regs r 0
  | none => wordGet t.vregs (192 * k + r)

/-- A caller's register written there (R185, R188). -/
def setCallerReg (t : Team) (c : CallRec) (k r : Nat) (w : Word) : Team × CallRec :=
  if c.spilled.any (fun f => decide (f.slot = k)) then
    (t, { c with spilled := c.spilled.map (fun f =>
      if f.slot = k then { f with regs := setNth f.regs r w, poison := f.poison.filter (fun p => decide (p ≠ r)) } else f) })
  else (writeWord t k (.v r) w, c)

/-- The arguments of a caller copied into v0 upward of a slot. -/
def copyArgs (t : Team) (slot : Nat) (args : List Word) : Team :=
  (List.range args.length).foldl (fun t i => writeWord t slot (.v i) (nthD args i 0)) t

/-- The head call record replaced. -/
def setCall (t : Team) (c : CallRec) : Team := { t with calls := c :: t.calls.drop 1 }

/-- A WIDEN round begins (R184): its callers' groups become LIVE and zeroed, with arguments, subidx, nwide and the caller's MODE. -/
def startRound (t : Team) (c : CallRec) : Team :=
  let batch := (c.callers.drop c.next).take c.groups.length
  let pairs := batch.zip c.groups
  let round := pairs.foldl (fun m p => m ||| groupMask p.2 c.width) (0 : Mask)
  let args (k : Nat) : List Word := (List.range c.narg).map (fun i => callerReg t c.spilled k (c.va + i))
  let t1 := clearSlots t round
  let t2 := pairs.foldl (fun t p => (List.range c.width).foldl (fun t j =>
    copyArgs { t with subidx := tblSet t.subidx (p.2 + j) j } (p.2 + j) (args p.1)) t) t1
  let c1 := { c with next := c.next + batch.length, roundCallers := batch, round := round }
  goTo { setCall t2 c1 with frame := round, exec := round, mode := c.mode, nwide := c.width } c.entry

/-- A call made (R181, R183, R184, R187) for the lanes given, its spills included; none when no group can serve it. -/
def beginCall (t : Team) (h : FnHdr) (target vd va : Nat) (lanes : Mask) (retPc : Nat) (calli : List CalliGroup) : Option Team :=
  match spillPlan t h lanes with
  | none => none
  | some ks =>
    let cap := t.cfg.capacity
    let fs := ks.map (laneFrameOf t)
    let gone := maskOf ks
    let callers := slotsOf cap lanes
    let args (k : Nat) : List Word := (List.range h.narg).map (fun i => wordGet t.vregs (192 * k + va + i))
    let c : CallRec :=
      { rule := h.rule, exec := t.exec, frame := t.frame, retPc := retPc, mode := t.mode, nwide := t.nwide, subidx := t.subidx,
        rbase := t.reconv.length, narg := h.narg, nret := h.nret, vd := vd, va := va, redop := h.redop, width := h.n,
        entry := (target + 8) % 2 ^ 52, callers := callers, next := 0, groups := [], roundCallers := [], round := 0, spilled := fs,
        gather := none, calli := calli }
    match h.rule with
    | .same =>
      let t1 := callers.foldl (fun u k => copyArgs u k (args k)) t
      some (goTo { t1 with calls := c :: t.calls, frame := lanes, held := t.held ||| (t.frame &&& ~~~ lanes), exec := lanes } c.entry)
    | .gather =>
      let t1 := { t with calls := c :: t.calls, held := (t.held ||| t.frame) &&& ~~~ gone, frame := 0 }
      match lowestSlot cap (freeMask t1) with
      | none => none
      | some k =>
        let g : GatherFrame := { callers := callers, narg := h.narg, args := callers.flatMap args, nret := h.nret, results := [] }
        let t2 := copyArgs (clearSlots t1 (slotMask k)) k (args (callers.head?.getD 0))
        some (goTo { setCall t2 { c with gather := some g, round := slotMask k } with
          frame := slotMask k, exec := slotMask k, subidx := tblSet t.subidx k 0, nwide := callers.length } c.entry)
    | .widen =>
      let t1 := { t with calls := c :: t.calls, held := (t.held ||| t.frame) &&& ~~~ gone, frame := 0, exec := 0 }
      some (startRound t1 { c with groups := groupsOf cap h.n (freeMask t1) })

/-- Steps 2 to 5 of R180 for a call: the class of its trap, or the team with the call made. -/
def tryCall (t : Team) (h : FnHdr) (target vd va : Nat) (lanes : Mask) (retPc : Nat) (calli : List CalliGroup) : Except TrapClass Team :=
  if t.cfg.budget < h.vbudget then .error .budget
  else if t.cfg.budget < va + h.narg ∨ t.cfg.budget < vd + h.nret then .error .illegalOp
  else match beginCall t h target vd va lanes retPc calli with
    | none => .error .width
    | some t1 => if t.cfg.fssize < frameUse (fitStacks t1) then .error .frame else .ok t1

/-! ## Completion (R181, R182, R185 to R188) -/

/-- The first of a CALLI's groups that can be placed begins (R189). DESIGN CHOICE (log 90): a group that finds no slots, because lanes of an earlier group
exited and are SPENT, is passed over, and the groups after it run; one whose frames have come to need more than FSSIZE takes the FRAME trap at the RET or
EXIT that ends the group before it. The spec judges every group from the state of the CALLI and does not say. -/
def nextGroup (t : Team) (c : CallRec) : List CalliGroup → Option Team
  | [] => none
  | g :: rest =>
    match (fnHeader g.header.1 g.header.2).bind (fun h => beginCall t h g.target c.vd c.va (g.lanes &&& t.exec) c.retPc rest) with
    | some t1 => some t1
    | none => nextGroup t c rest

/-- A call is over: its caller's frame is restored less the lanes that left, and the team goes on at the return PC, or a CALLI's next group begins. -/
def finishCall (t : Team) (c : CallRec) (gone : Mask) : Team :=
  let t1 := restoreCaller t c gone
  (nextGroup t1 c c.calli).getD (goTo t1 c.retPc)

/-- The reduction's node of a REDOP (R179); FIRST has none. -/
def redNode (op : Nat) : Option Node :=
  if op = 1 then some .add else if op = 2 then some .min else if op = 3 then some .max else if op = 4 then some .and
  else if op = 5 then some .or else if op = 6 then some .union else none

/-- The traps of R185 under the MODE of the completing instruction. -/
def roundTrap (mode : Word) (t : Team) (c : CallRec) : Option TrapClass :=
  let ty := modeType mode
  if typeRegs ty = 2 ∧ c.nret % 2 = 1 then some .illegalType
  else match redNode c.redop with
    | none => none
    | some n =>
      if !nodeType n ty then some .illegalType
      else if n = .add ∧ isRingType ty ∧ 0 < c.nret then
        match ringSlot t (modeRing mode) with
        | some r => if r.form = formOfType ty then none else some .ring
        | none => some .ring
      else none

/-- One result of a caller's group (R129, R185): the fold over j, an exited lane giving the identity. -/
def roundResult (mode : Word) (t : Team) (c : CallRec) (first r : Nat) : Nat × BitVec 5 :=
  let ty := modeType mode
  let n := typeRegs ty
  let x (id j : Nat) : Nat := if t.frame.getLsbD (first + j) then trimVal ty (readRegs t 0 (first + j) (.v r) n) else id
  match redNode c.redop with
  | none => (x 0 0, 0)
  | some nd => foldTree (nodeOp nd mode (ringSlot t (modeRing mode))) c.width.log2 ((List.range c.width).map (x (identity nd mode))) 0

/-- A completed WIDEN round reduced into its callers (R185). -/
def reduceRound (mode : Word) (t : Team) (c : CallRec) : Team × CallRec :=
  let n := typeRegs (modeType mode)
  (c.roundCallers.zip (c.groups)).foldl (fun q p =>
    (List.range (c.nret / n)).foldl (fun (q : Team × CallRec) i =>
      let v := roundResult mode t c p.2 (n * i)
      (List.range n).foldl (fun (q : Team × CallRec) j => setCallerReg q.1 q.2 p.1 (c.vd + n * i + j) (BitVec.ofNat 32 (v.1 / 2 ^ (32 * j))))
        (orFpst q.1 v.2, q.2)) q) (t, c)

/-- A gather call's results (R188): what GRET set, else the callee's vj, or zero when it exited. -/
def gatherResults (t : Team) (c : CallRec) (g : GatherFrame) : Team × CallRec :=
  let slot := (lowestSlot t.cfg.capacity c.round).getD 0
  let own (j : Nat) : Word := if t.frame.getLsbD slot then wordGet t.vregs (192 * slot + j) else 0
  (List.range g.callers.length).foldl (fun q k =>
    (List.range g.nret).foldl (fun (q : Team × CallRec) j =>
      setCallerReg q.1 q.2 (nthD g.callers k 0) (c.vd + j) ((tblGet g.results (k * g.nret + j)).getD (own j))) q) (t, c)

/-- The innermost call completes, its frame finished (R178, R182): the class of its trap, or the team. -/
def completeCall (mode : Word) (t : Team) (c : CallRec) : Except TrapClass Team :=
  match c.rule with
  | .same => .ok (finishCall t c (maskOf c.callers &&& ~~~ t.frame))
  | .gather =>
    let q := match c.gather with
      | some g => gatherResults t c g
      | none => (t, c)
    .ok (finishCall (setCall q.1 q.2) q.2 0)
  | .widen =>
    match roundTrap mode t c with
    | some k => .error k
    | none =>
      let q := reduceRound mode t c
      let t1 := { setCall q.1 q.2 with frame := 0, spent := t.spent &&& ~~~ c.round }
      if c.next < c.callers.length then .ok (startRound t1 q.2) else .ok (finishCall t1 q.2 0)

/-- The running frame is the handler's own, with no call begun in it. -/
def handlerFrame (t : Team) : Bool :=
  match t.handler with
  | some (_, cd) => decide (t.calls.length ≤ cd)
  | none => false

/-- Finished frames completed from the innermost outward (R178): a handler's ends as ERET SKIP (R334), the entry frame retires its team (R118). -/
def settleFrames (mode : Word) (r : Option TrapRec) : Nat → Team → Except TrapClass Team
  | 0, t => .ok t
  | n + 1, t =>
    if t.exec ≠ 0 ∨ ownEntries t then .ok t
    else if handlerFrame t then
      match r with
      | some r1 => settleFrames mode r n (resumeAt (leaveHandler t r1) r1 1)
      | none => .ok t
    else
      match t.calls with
      | [] => .ok { t with wait := .retiring, clause := none }
      | c :: _ =>
        match completeCall mode t c with
        | .error k => .error k
        | .ok t1 => settleFrames mode r n t1

def settle (mode : Word) (r : Option TrapRec) (t : Team) : Except TrapClass Team := settleFrames mode r (t.calls.length + 2) t

/-- Lanes leave the running frame's own reconvergence entries (R182). -/
def stripOwn (t : Team) (m : Mask) : List Reconv :=
  let own := t.reconv.length - frameBase t
  (t.reconv.take own).map (fun e => { e with mask := e.mask &&& ~~~ m }) ++ t.reconv.drop own

/-- An exiting lane's slot belongs to a round of an open WIDEN call (R101). -/
def inRound : List CallRec → Bool
  | [] => false
  | c :: rest => match c.rule with
    | .same => inRound rest
    | .widen => true
    | .gather => false

/-- Lanes leave for good (R322): FREE at once, or SPENT. -/
def exitLanes (t : Team) (m : Mask) : Team :=
  { t with frame := t.frame &&& ~~~ m, exec := t.exec &&& ~~~ m, spent := if inRound t.calls then t.spent ||| m else t.spent }

/-- Lanes return (R182, R183): a SAME callee's results are copied, the lanes leave the path and the frame's own entries. -/
def returnLanes (t : Team) (c : CallRec) (m : Mask) : Team :=
  let t1 := match c.rule with
    | .same => (slotsOf t.cfg.capacity m).foldl (fun u k =>
        (List.range c.nret).foldl (fun u j => writeWord u k (.v (c.vd + j)) (wordGet t.vregs (192 * k + j))) u) t
    | _ => t
  { t1 with reconv := stripOwn t m, exec := t.exec &&& ~~~ m }

/-- The settling of finished frames completes a round or a gather call (R186, R188), or ends a CALLI's group that another follows, which is a call of its
own (R180, R189): the instruction that brings it about waits for the flags. -/
def settleWaits (mode : Word) (r : Option TrapRec) : Nat → Team → Bool
  | 0, _ => false
  | n + 1, t =>
    if t.exec ≠ 0 ∨ ownEntries t then false
    else if handlerFrame t then
      match r with
      | some r1 => settleWaits mode r n (resumeAt (leaveHandler t r1) r1 1)
      | none => false
    else
      match t.calls with
      | [] => false
      | c :: _ =>
        if c.rule ≠ .same ∨ c.calli ≠ [] then true
        else match completeCall mode t c with
          | .error _ => true
          | .ok t1 => settleWaits mode r n t1

/-- An instruction that leaves the team as given, its frames not yet settled, waits for the flags. -/
def endsRound (mode : Word) (r : Option TrapRec) (t : Team) : Bool := settleWaits mode r (t.calls.length + 2) t

end Sys2Proof.Machine
end

