-- ==== Sys2Proof/Machine/Memory.lean ====
section
/-! DEFINITION. Loads, stores, hints, atomics, ordering instructions and queue locks (R272 to R290). -/

namespace Sys2Proof.Machine

/-- The effective address of R272. -/
def effAddr (a b : Nat) : Nat := wrapNat 64 ((a : Int) + sextInt 32 b)

/-- An operand with one value for the team (R106). -/
def isUniform (x : Sel) : Bool := !isPerLane x

/-- The address of the two address operands in a lane. -/
def addrOf (x : Issue) (k : Nat) (a b : Sel) : Nat := effAddr (x.val k a 2) (x.val k b 1)

/-- The lane accesses of an instruction: those of the ACTIVE lanes, or the one of the lowest lane of EXEC when it is performed once per issue (R278). -/
def accesses (x : Issue) (once : Bool) (f : Nat → LaneAcc) : List LaneAcc :=
  if once then [f (lowestLane x)] else (slotsOf x.t.cfg.capacity x.active).map f

/-- The clause's READS flag, and its OTHERS flag. -/
def readsFlag (x : Issue) : Nat := (x.t.clause.map Clause.reads).getD 15
def othersFlag (x : Issue) : Nat := (x.t.clause.map Clause.others).getD 15

/-! ## Loads and stores (R279 to R281) -/

def loadForm (d a b : Sel) (regs : Nat) : Form :=
  { late := true, mem := true, allExec := false, cls := 1, types := anyType, ops := fun _ => [dst d regs, src a 2, src b 1] }

def storeForm (d a b : Sel) (regs : Nat) : Form :=
  { late := false, mem := true, allExec := false, cls := 0, types := anyType, ops := fun _ => [src d regs, src a 2, src b 1] }

/-- A load of size bytes into regs registers at the addresses given. -/
def loadAt (d : Sel) (size regs : Nat) (addr : Issue → Nat → Nat) (s : State) (x : Issue) : Eff :=
  memBody { kind := .load, size := size, dst := d, regs := regs, late := none, uniform := isSreg d } (readsFlag x)
    (accesses x (isSreg d) (fun k => { slot := k, ea := addr x k, data := 0, cmp := 0 })) s x

/-- A store of size bytes. -/
def storeAt (d : Sel) (size regs : Nat) (once : Bool) (addr : Issue → Nat → Nat) (s : State) (x : Issue) : Eff :=
  memBody { kind := .store, size := size, dst := .zero, regs := regs, late := none, uniform := once } 15
    (accesses x once (fun k => { slot := k, ea := addr x k, data := x.val k d regs % 2 ^ (8 * size), cmp := 0 })) s x

def loadBody (d a b : Sel) (size regs : Nat) : State → Issue → Eff := loadAt d size regs (fun x k => addrOf x k a b)

def storeBody (d a b : Sel) (size regs : Nat) : State → Issue → Eff :=
  storeAt d size regs (isUniform d && isUniform a && isUniform b) (fun x k => addrOf x k a b)

/-- LD (R279). -/
def execLd (d a b : Sel) (s : State) : Host.Outcome State Fault Refusal := issue (.ld d a b) (loadForm d a b 1) (loadBody d a b 4 1) s
/-- LDB (R279). -/
def execLdb (d a b : Sel) (s : State) : Host.Outcome State Fault Refusal := issue (.ldb d a b) (loadForm d a b 1) (loadBody d a b 1 1) s
/-- LDH (R279). -/
def execLdh (d a b : Sel) (s : State) : Host.Outcome State Fault Refusal := issue (.ldh d a b) (loadForm d a b 1) (loadBody d a b 2 1) s
/-- LDW (R279). -/
def execLdw (d a b : Sel) (s : State) : Host.Outcome State Fault Refusal := issue (.ldw d a b) (loadForm d a b 4) (loadBody d a b 16 4) s
/-- ST (R279). -/
def execSt (d a b : Sel) (s : State) : Host.Outcome State Fault Refusal := issue (.st d a b) (storeForm d a b 1) (storeBody d a b 4 1) s
/-- STB (R279). -/
def execStb (d a b : Sel) (s : State) : Host.Outcome State Fault Refusal := issue (.stb d a b) (storeForm d a b 1) (storeBody d a b 1 1) s
/-- STH (R279). -/
def execSth (d a b : Sel) (s : State) : Host.Outcome State Fault Refusal := issue (.sth d a b) (storeForm d a b 1) (storeBody d a b 2 1) s
/-- STW (R279). -/
def execStw (d a b : Sel) (s : State) : Host.Outcome State Fault Refusal := issue (.stw d a b) (storeForm d a b 4) (storeBody d a b 16 4) s

/-- The local-window address of SLD and SST (R281, R74): offset (a + b) mod 2^32, unsigned. -/
def localAddr (x : Issue) (k : Nat) (a b : Sel) : Nat := 0xFF00000000000 + (x.val k a 1 + x.val k b 1) % 2 ^ 32

/-- SLD (R281). -/
def execSld (d a b : Sel) (s : State) : Host.Outcome State Fault Refusal :=
  issue (.sld d a b)
    { late := true, mem := true, allExec := false, cls := 1, types := anyType, ops := fun _ => [dst d 1, src a 1, src b 1] }
    (loadAt d 4 1 (fun x k => localAddr x k a b)) s

/-- SST (R281). -/
def execSst (d a b : Sel) (s : State) : Host.Outcome State Fault Refusal :=
  issue (.sst d a b)
    { late := false, mem := true, allExec := false, cls := 0, types := anyType, ops := fun _ => [src d 1, src a 1, src b 1] }
    (storeAt d 4 1 (isUniform d && isUniform a && isUniform b) (fun x k => localAddr x k a b)) s

/-! ## Hints (R98, R282) -/

/-- A dropped hint counted (R98). -/
def dropHint (s : State) (c : Nat) : State :=
  s.updCore c (fun x => { x with hintdrop := if x.hintdrop = 0xFFFFFFFF then x.hintdrop else x.hintdrop + 1 })

/-- The mapping a hint's address has, none where it is dropped: no fault is recorded. -/
def hintMapping (s : State) (cfg : TeamCfg) (va : Nat) : Option Mapping :=
  if bits va 63 52 ≠ 0 ∨ isWindowVa va then none
  else if isRecordVa va then
    match (translate s cfg.core cfg.ctx va needR).1 with
    | .ok m => some m
    | _ => none
  else
    match (walk s cfg.ctx va).1 with
    | .leaf e _ low =>
      match useEntry s cfg.ctx va (entryOfLeaf cfg.ctx va e low false) needR with
      | .ok m => some m
      | _ => none
    | _ => none

/-- A lane's hint: PREF brings the whole line into the first level as loads of it would; RESHINT asks for a layer that is not RESIDENT. -/
def hintLane (res : Bool) (u : Nat) (cfg : TeamCfg) (s : State) (va : Nat) : State :=
  match hintMapping s cfg va with
  | none => dropHint s cfg.core
  | some m =>
    if layerResident s m.layer then
      let r := translate s cfg.core cfg.ctx va needR
      match r.1 with
      | .ok m1 =>
        if res || m1.record.isSome || m1.peer.isSome || decide (m1.policy ≠ .coherent) then r.2
        else (loadMapped r.2 u cfg (va / 128 * 128) 128 { m1 with pa := m1.pa / 128 * 128 }).2
      | _ => r.2
    else if res then
      match m.layer with
      | some (ms, k) => requestLayer s ms k true
      | none => s
    else dropHint s cfg.core

def hintBody (res : Bool) (a b : Sel) (s : State) (x : Issue) : Eff :=
  .done ((accesses x (isUniform a && isUniform b) (fun k => { slot := k, ea := addrOf x k a b, data := 0, cmp := 0 })).foldl
    (fun s l => hintLane res x.u x.t.cfg s l.ea) s)

def hintForm (a b : Sel) : Form := { plainForm anyType (fun _ => [src a 2, src b 1]) with mem := true }

/-- PREF (R282). -/
def execPref (a b : Sel) (s : State) : Host.Outcome State Fault Refusal := issue (.pref a b) (hintForm a b) (hintBody false a b) s
/-- RESHINT (R282). -/
def execReshint (a b : Sel) (s : State) : Host.Outcome State Fault Refusal := issue (.reshint a b) (hintForm a b) (hintBody true a b) s

/-! ## Atomics (R283 to R287) -/

/-- The access width in bytes of a TYPE (R285). -/
def atomSize (ty : Nat) : Nat := if ty = tI64 ∨ ty = tN64 ∨ ty = tFp64 then 8 else if ty = tBf16 ∨ ty = tRs16 ∨ ty = tRc16 then 2 else 4

/-- The TYPEs an atomic accepts (R284), by the opcode of its returning form. -/
def atomType (op ty : Nat) : Bool :=
  if op ≤ 0xA2 ∨ op = 0xA5 then decide (ty ≤ 3)
  else if op ≤ 0xA4 then decide (ty ≤ 3) || decide (ty = tRs16) || decide (ty = tRs32)
  else if op ≤ 0xA7 then decide (ty ≤ 13)
  else if op = 0xA8 then true
  else isFpType ty

/-- A returning atomic (R283): the operand is read from d at issue, the old value written back late. -/
def atomForm (op : Nat) (d a b : Sel) : Form :=
  { late := true, mem := true, allExec := false, cls := 1, types := atomType op, ops := fun ty => [srcdst d (typeRegs ty), src a 2, src b 1] }

def atomBody (op : Nat) (d a b : Sel) (s : State) (x : Issue) : Eff :=
  let ty := modeType x.t.mode
  let n := typeRegs ty
  memBody { kind := .atomic op ty true, size := atomSize ty, dst := d, regs := n, late := none, uniform := isSreg d } (readsFlag x)
    (accesses x (isSreg d) (fun k => { slot := k, ea := addrOf x k a b, data := x.val k d n % 2 ^ (8 * atomSize ty), cmp := 0 })) s x

/-- AADD (R284). -/
def execAadd (d a b : Sel) (s : State) : Host.Outcome State Fault Refusal := issue (.aadd d a b) (atomForm 0xA0 d a b) (atomBody 0xA0 d a b) s
/-- AMIN (R284). -/
def execAmin (d a b : Sel) (s : State) : Host.Outcome State Fault Refusal := issue (.amin d a b) (atomForm 0xA1 d a b) (atomBody 0xA1 d a b) s
/-- AMAX (R284). -/
def execAmax (d a b : Sel) (s : State) : Host.Outcome State Fault Refusal := issue (.amax d a b) (atomForm 0xA2 d a b) (atomBody 0xA2 d a b) s
/-- AAND (R284). -/
def execAand (d a b : Sel) (s : State) : Host.Outcome State Fault Refusal := issue (.aand d a b) (atomForm 0xA3 d a b) (atomBody 0xA3 d a b) s
/-- AOR (R284). -/
def execAor (d a b : Sel) (s : State) : Host.Outcome State Fault Refusal := issue (.aor d a b) (atomForm 0xA4 d a b) (atomBody 0xA4 d a b) s
/-- AXOR (R284). -/
def execAxor (d a b : Sel) (s : State) : Host.Outcome State Fault Refusal := issue (.axor d a b) (atomForm 0xA5 d a b) (atomBody 0xA5 d a b) s
/-- AXCHG (R284). -/
def execAxchg (d a b : Sel) (s : State) : Host.Outcome State Fault Refusal := issue (.axchg d a b) (atomForm 0xA6 d a b) (atomBody 0xA6 d a b) s
/-- AFADD (R284). -/
def execAfadd (d a b : Sel) (s : State) : Host.Outcome State Fault Refusal := issue (.afadd d a b) (atomForm 0xA9 d a b) (atomBody 0xA9 d a b) s
/-- AFMIN (R284). -/
def execAfmin (d a b : Sel) (s : State) : Host.Outcome State Fault Refusal := issue (.afmin d a b) (atomForm 0xAA d a b) (atomBody 0xAA d a b) s
/-- AFMAX (R284). -/
def execAfmax (d a b : Sel) (s : State) : Host.Outcome State Fault Refusal := issue (.afmax d a b) (atomForm 0xAB d a b) (atomBody 0xAB d a b) s

/-- ACAS and ACASW (R286): the compare value in the lower half of the group, the new value and then the old one in the upper half. -/
def casForm (op : Nat) (half : Nat → Nat) (d a b : Sel) : Form :=
  { late := true, mem := true, allExec := false, cls := 1, types := atomType op, ops := fun ty => [srcdst d (2 * half ty), src a 2, src b 1] }

def casBody (op : Nat) (half size : Nat → Nat) (d a b : Sel) (s : State) (x : Issue) : Eff :=
  let ty := modeType x.t.mode
  let h := half ty
  memBody { kind := .atomic op ty true, size := size ty, dst := Sel.plus d h, regs := h, late := none, uniform := isSreg d } (readsFlag x)
    (accesses x (isSreg d) (fun k =>
      { slot := k, ea := addrOf x k a b, data := x.val k (Sel.plus d h) h % 2 ^ (8 * size ty), cmp := x.val k d h % 2 ^ (8 * size ty) })) s x

/-- ACAS (R286). -/
def execAcas (d a b : Sel) (s : State) : Host.Outcome State Fault Refusal :=
  issue (.acas d a b) (casForm 0xA7 typeRegs d a b) (casBody 0xA7 typeRegs atomSize d a b) s
/-- ACASW (R286). -/
def execAcasw (d a b : Sel) (s : State) : Host.Outcome State Fault Refusal :=
  issue (.acasw d a b) (casForm 0xA8 (fun _ => 4) d a b) (casBody 0xA8 (fun _ => 4) (fun _ => 16) d a b) s

/-- A no-return atomic (R287): op is the opcode of its returning form. -/
def redForm0 (op : Nat) (d a b : Sel) : Form :=
  { late := false, mem := true, allExec := false, cls := 0, types := atomType op, ops := fun ty => [src d (typeRegs ty), src a 2, src b 1] }

def redBody0 (op : Nat) (d a b : Sel) (s : State) (x : Issue) : Eff :=
  let ty := modeType x.t.mode
  let n := typeRegs ty
  let once := isUniform d && isUniform a && isUniform b
  memBody { kind := .atomic op ty false, size := atomSize ty, dst := .zero, regs := n, late := none, uniform := once } 15
    (accesses x once (fun k => { slot := k, ea := addrOf x k a b, data := x.val k d n % 2 ^ (8 * atomSize ty), cmp := 0 })) s x

/-- STADD (R287). -/
def execStadd (d a b : Sel) (s : State) : Host.Outcome State Fault Refusal := issue (.stadd d a b) (redForm0 0xA0 d a b) (redBody0 0xA0 d a b) s
/-- STMIN (R287). -/
def execStmin (d a b : Sel) (s : State) : Host.Outcome State Fault Refusal := issue (.stmin d a b) (redForm0 0xA1 d a b) (redBody0 0xA1 d a b) s
/-- STMAX (R287). -/
def execStmax (d a b : Sel) (s : State) : Host.Outcome State Fault Refusal := issue (.stmax d a b) (redForm0 0xA2 d a b) (redBody0 0xA2 d a b) s
/-- STAND (R287). -/
def execStand (d a b : Sel) (s : State) : Host.Outcome State Fault Refusal := issue (.stand d a b) (redForm0 0xA3 d a b) (redBody0 0xA3 d a b) s
/-- STOR (R287). -/
def execStor (d a b : Sel) (s : State) : Host.Outcome State Fault Refusal := issue (.stor d a b) (redForm0 0xA4 d a b) (redBody0 0xA4 d a b) s
/-- STXOR (R287). -/
def execStxor (d a b : Sel) (s : State) : Host.Outcome State Fault Refusal := issue (.stxor d a b) (redForm0 0xA5 d a b) (redBody0 0xA5 d a b) s
/-- STFADD (R287). -/
def execStfadd (d a b : Sel) (s : State) : Host.Outcome State Fault Refusal := issue (.stfadd d a b) (redForm0 0xA9 d a b) (redBody0 0xA9 d a b) s
/-- STFMIN (R287). -/
def execStfmin (d a b : Sel) (s : State) : Host.Outcome State Fault Refusal := issue (.stfmin d a b) (redForm0 0xAA d a b) (redBody0 0xAA d a b) s
/-- STFMAX (R287). -/
def execStfmax (d a b : Sel) (s : State) : Host.Outcome State Fault Refusal := issue (.stfmax d a b) (redForm0 0xAB d a b) (redBody0 0xAB d a b) s

/-! ## Ordering (R201 to R203, R210, R288) -/

def orderForm : Form := { plainForm anyType (fun _ => []) with mem := true }

/-- RELEASE (R201). -/
def execRelease (s : State) : Host.Outcome State Fault Refusal := issue .release orderForm (fun s x => releaseThen s x .done) s
/-- ACQUIRE (R202). -/
def execAcquire (s : State) : Host.Outcome State Fault Refusal := issue .acquire orderForm (fun s x => acquireThen s x .done) s
/-- FENCE (R203): RELEASE, then ACQUIRE. -/
def execFence (s : State) : Host.Outcome State Fault Refusal :=
  issue .fence orderForm (fun s x => releaseThen s x (fun s => acquireThen s x .done)) s

/-- An access still on its way to where XFENCE wants it (R210): a store to its home or bank, an atomic. A COHERENT store is in the first level already. -/
def notPerformed (u : Nat) (e : OutEntry) : Bool :=
  decide (e.team = u) && (match e.work with
    | .registration _ _ => false
    | .homeWrite _ _ => true
    | .peerWrite _ _ => true
    | .batch _ => true)

/-- XFENCE (R210, R271): every earlier access of the team is performed with respect to the team. -/
def xfenceBody (s : State) (x : Issue) : Eff :=
  .done ((teamCores x.t.cfg).foldl (fun s c => drainWhere c (notPerformed x.u) (s.core c).out.length s) s)

def execXfence (s : State) : Host.Outcome State Fault Refusal := issue .xfence (plainForm anyType (fun _ => [])) xfenceBody s

/-! ## Unit objects by address, and queue locks (R42 to R44, R289, R290) -/

/-- The physical address of a unit object named by a team-uniform instruction: checked like an atomic (R273, R323), and neither a window nor a peer's.
What the core has under way for its line is there first, so that the operation comes after the team's earlier stores to it (R35, R212). -/
def unitReach (s : State) (cfg : TeamCfg) (va align : Nat) : Reach × State :=
  if bits va 63 52 ≠ 0 ∨ isWindowVa va then (.ends (.held .invalidAddr 0), s)
  else if va % align ≠ 0 then (.ends (.held .align 0), s)
  else
    let r := reach s cfg va needAtomic true
    match r.1 with
    | .ok m => if m.peer.isSome then (.ends (.held .invalidAddr 0), r.2) else (r.1, drainLine r.2 (l1Core cfg va) (m.pa / 128))
    | .ends _ => r

/-- The unit object at an address, or how the access ends: with faulted mask EXEC by runEnds (R289, R323), as the lowest lane of EXEC by laneEnds
(R278, R315). -/
def unitThen (ends : State → Issue → LaneRes → Eff) (va align : Nat) (s : State) (x : Issue) (k : Nat → State → Eff) : Eff :=
  let r := unitReach s x.t.cfg va align
  match r.1 with
  | .ends e => ends r.2 x e
  | .ok m => k m.pa r.2

/-- A late operation answered: its s register and no more waiting. -/
def answerLate (s : State) (u id : Nat) (d : Sel) (v : Nat) : State :=
  s.updTeam u (fun t => bindLate (updLate t id (fun o => { o with wait := .none })) id 0 d 1 v)

/-- The waiters of a slice's queue locks (R42). -/
def lockWaiters (s : State) (slice : Nat) : Nat := (s.locks.map (fun l => if homeSlice l.1 = slice then l.2.waiters.length else 0)).sum

/-- The acquire side performed for a team (R197): its loads have their values. -/
def acquireNow (s : State) (u : Nat) (cfg : TeamCfg) : State := acquireTeam ((drainReturning s u cfg).updTeam u surfacePoison) cfg

/-- The answer of the queue-lock unit (R289): 1 held, with the acquire; 2 already held or awaited; 0 busy; or the team waits in the queue. DESIGN
CHOICE (log 74): a lock object without a record is free whatever its memory word holds, where R43 says that the unit reads an idle object afresh and no
rule gives a locked word of memory a holder. -/
def qlockUnit (s : State) (u id pa : Nat) (d : Sel) (cfg : TeamCfg) : State :=
  let l : Lock := tblGetD s.locks pa { holder := none, waiters := [] }
  match l.holder with
  | none => acquireNow (answerLate { s with locks := tblSet s.locks pa { l with holder := some u } } u id d 1) u cfg
  | some h =>
    if decide (h = u) || l.waiters.any (fun w => decide (w.1 = u)) then answerLate s u id d 2
    else if 4096 ≤ lockWaiters s (homeSlice pa) then answerLate s u id d 0
    else { s with locks := tblSet s.locks pa { l with waiters := l.waiters ++ [(u, id)] } }

/-- QLOCK (R289): a v or w destination is ILLEGAL_OP. -/
def qlockBody (d a : Sel) (s : State) (x : Issue) : Eff :=
  if !isSreg d then trapExec .illegalOp s x
  else
    unitThen runEnds (x.uval a 2) 8 s x (fun pa s =>
      let q := startLate s x.u (readsFlag x) (fun o => { o with wait := .qlock pa, pop := some ((match d with
        | .s k => k
        | _ => 0), 0) })
      .done (qlockUnit q.2 x.u q.1 pa d x.t.cfg))

def execQlock (d a : Sel) (s : State) : Host.Outcome State Fault Refusal :=
  issue (.qlock d a) { plainForm anyType (fun _ => [dst d 1, src a 2]) with late := true, mem := true, cls := 1 } (qlockBody d a) s

/-- The s register a waiting QLOCK or QPOP writes. -/
def lateDst (s : State) (u id : Nat) : Sel :=
  match (tblGet s.teams u).bind (fun t => (t.late.find? (fun o => decide (o.id = id))).bind LateOp.pop) with
  | some (k, _) => if k < 32 then .s k else .v (k - 32)
  | none => .zero

/-- The handover of a lock (R44, R290): the oldest waiter holds it, with its acquire, or it becomes free. -/
def passLock (s : State) (pa : Nat) : State :=
  match tblGet s.locks pa with
  | none => s
  | some l =>
    match l.waiters with
    | [] => { s with locks := tblSet s.locks pa { l with holder := none } }
    | (u, id) :: rest =>
      let s1 := { s with locks := tblSet s.locks pa { holder := some u, waiters := rest } }
      let s2 := answerLate s1 u id (lateDst s1 u id) 1
      match tblGet s2.teams u with
      | some t => if t.saved then s2 else acquireNow s2 u t.cfg
      | none => s2

/-- A discarded operation counted in its slice (R43). -/
def countDiscard (s : State) (pa : Nat) : State :=
  let g := homeSlice pa
  s.setSlice g { s.slice g with discards := (s.slice g).discards + 1 }

/-- A team leaves every lock as it retires or halts (R290). -/
def leaveLocks (s : State) (u : Nat) : State :=
  (s.locks.map Prod.fst).foldl (fun s pa =>
    match tblGet s.locks pa with
    | none => s
    | some l =>
      if l.holder = some u then passLock s pa
      else { s with locks := tblSet s.locks pa { l with waiters := l.waiters.filter (fun w => decide (w.1 ≠ u)) } }) s

/-- QUNLOCK (R290), its access that of the lowest lane of EXEC (R278): by the holder, with its release; by another team it is discarded and counted. -/
def qunlockBody (a : Sel) (s : State) (x : Issue) : Eff :=
  unitThen (laneEnds (x.uval a 2)) (x.uval a 2) 8 s x (fun pa s =>
    if ((tblGet s.locks pa).bind Lock.holder) = some x.u then releaseThen s x (fun s => .done (passLock s pa))
    else .done (countDiscard s pa))

def execQunlock (a : Sel) (s : State) : Host.Outcome State Fault Refusal :=
  issue (.qunlock a) { plainForm anyType (fun _ => [src a 2]) with mem := true } (qunlockBody a) s

end Sys2Proof.Machine
end

