-- ==== Sys2Proof/Machine/Engines.lean ====
section
/-! DEFINITION. The fetch unit's instructions (R291, R292), job cards: acceptance, order, start and completion (R82 to R91, R293, R294, R371). -/

namespace Sys2Proof.Machine

/-! ## HBIND, FETCH, FETCH2 -/

/-- A handle descriptor that R95 accepts; every field the layout gives as zero counts as reserved (log 26). DESIGN CHOICE (log 66): the extent of an
unused dimension, 1 by R93, is not refused when it differs: it counts in the product and in the split of an index like any other. -/
def handleOk (d : BitVec 512) : Bool :=
  let c := descField d 0 8
  let fmt := descFormat d
  let ext := (List.range 4).map (descExt d)
  let strs := (List.range 3).map (fun k => descStr d (k + 1))
  let edge := if bits c 12 12 = 1 then 16 else 32
  let place (a : Nat) : Bool := decide (bits a 63 52 = 0) && !isWindowVa a
  decide (bits c 63 16 = 0) && decide (bits c 8 8 = 0) && decide (bits c 5 4 = 0) && decide (fmt ≤ 2) && decide (descField d 0x34 12 = 0) &&
  (decide (fmt = 2) || decide (bits c 15 12 = 0)) && (decide (fmt ≠ 0) || decide (descAux d = 0)) &&
  (decide (fmt = 0) || strs.all (fun x => decide (x = 0))) &&
  ext.all (fun x => decide (x ≠ 0)) && decide (ext.foldl (fun p x => p * x) 1 ≤ 2 ^ 32 - 1) &&
  place (descBase d) && place (descAux d) &&
  (decide (fmt ≠ 2) ||
    (decide (descDims d = 2) && decide (bits c 7 6 = 2) && decide (bits c 15 13 ≠ 0) && decide (descExt d 0 % edge = 0) && decide (descExt d 1 % edge = 0)))

/-- The binding of a slot in progress is done (R291). -/
def waitBind (s : State) (u k : Nat) : State :=
  match tblGet s.teams u with
  | none => s
  | some t =>
    match t.late.find? (fun o => decide (o.hbind = some k)) with
    | some o => completeLate s u o.id
    | none => s

/-- A handle slot written. -/
def setHandle (t : Team) (k : Nat) (d : BitVec 512) : Team := if h : k < 16 then { t with handles := t.handles.set k (some d) } else t

/-- The handle of a slot. -/
def handleOf (t : Team) (k : Nat) : Option (BitVec 512) := if h : k < 16 then t.handles[k] else none

/-- HBIND (R291): the slot, the alignment, the read, the descriptor, in this order; then the copy is placed, and the fetch cache emptied when the slot
held another (log 13). -/
def hbindBody (a b : Sel) (s : State) (x : Issue) : Eff :=
  let k := x.uval a 1
  let va := x.uval b 2
  if 16 ≤ k then trapExec .illegalOp s x
  else if va % 64 ≠ 0 then trapExec .align s x
  else
    let r := checkRun s x.t va 64 1 needR false
    descEnds r.2 x r.1 (fun s =>
      let v := readRun s x.u x.t va 64
      match v.1 with
      | none => poisonedRead v.2 x va
      | some bs =>
        let d : BitVec 512 := BitVec.ofNat 512 (natOfBytes bs)
        if !handleOk d then trapExec .illegalOp v.2 x
        else
          let s1 := if (handleOf x.t k).isSome then v.2.updCore x.t.cfg.core (fun c => { c with fetchLines := [] }) else v.2
          .done (startLate (s1.updTeam x.u (fun t => setHandle t k d)) x.u (othersFlag x) (fun o => { o with hbind := some k })).2)

def execHbind (a b : Sel) (s : State) : Host.Outcome State Fault Refusal :=
  issue (.hbind a b) { plainForm anyType (fun _ => [src a 1, src b 2]) with late := true, mem := true, cls := 2 } (hbindBody a b) s

/-- The coordinates of a lane as its captured data; 2^128 when out of range (R96). -/
def fetchIndex (d : BitVec 512) (two : Bool) (v : Nat) : Nat :=
  if two then
    let c0 := v % 2 ^ 32
    let c1 := v / 2 ^ 32 % 2 ^ 32
    if c0 < descExt d 0 ∧ c1 < descExt d 1 then c0 + 2 ^ 32 * c1 else 2 ^ 128
  else
    let n := descExt d 0 * descExt d 1 * descExt d 2 * descExt d 3
    if v < n then
      match coordsOf d v with
      | [c0, c1, c2, c3] => c0 + 2 ^ 32 * c1 + 2 ^ 64 * c2 + 2 ^ 96 * c3
      | _ => 2 ^ 128
    else 2 ^ 128

/-- FETCH and FETCH2 (R292). -/
def fetchBody (two : Bool) (d a b : Sel) (s : State) (x : Issue) : Eff :=
  let k := x.uval a 1
  match (if 16 ≤ k then none else handleOf x.t k) with
  | none => trapExec .illegalOp s x
  | some h =>
    let n := if descEsize h = 8 then 2 else 1
    if !opndOk x.t.cfg.budget (dst d n) then trapExec .illegalOp s x
    else
      let s1 := waitBind s x.u k
      match tblGet s1.teams x.u with
      | none => .wait s1
      | some t1 =>
        memBody { kind := .fetch h, size := descEsize h, dst := d, regs := n, late := none, uniform := isSreg d } (readsFlag x)
          (accesses { x with t := t1 } (isSreg d) (fun j =>
            { slot := j, ea := descBase h, data := fetchIndex h two (x.val j b (if two then 2 else 1)), cmp := 0 })) s1 { x with t := t1 }

def fetchForm (two : Bool) (d a b : Sel) : Form :=
  { plainForm anyType (fun _ => [dst d 1, src a 1, src b (if two then 2 else 1)]) with late := true, mem := true, cls := 1 }

/-- FETCH (R292): the linear index. -/
def execFetch (d a b : Sel) (s : State) : Host.Outcome State Fault Refusal := issue (.fetch d a b) (fetchForm false d a b) (fetchBody false d a b) s
/-- FETCH2 (R292): two coordinates. -/
def execFetch2 (d a b : Sel) (s : State) : Host.Outcome State Fault Refusal := issue (.fetch2 d a b) (fetchForm true d a b) (fetchBody true d a b) s

/-! ## Job cards (R83 to R89) -/

/-- A field of n bytes of a card. -/
def cardField (c : BitVec 2048) (off n : Nat) : Nat := c.toNat / 2 ^ (8 * off) % 2 ^ (8 * n)

def cardKind (c : BitVec 2048) : Nat := cardField c 0 1
def cardSrc (c : BitVec 2048) : Nat := cardField c 0x08 8
def cardDst (c : BitVec 2048) : Nat := cardField c 0x10 8
def cardLen (c : BitVec 2048) : Nat := cardField c 0x20 4
def cardCnt1 (c : BitVec 2048) : Nat := cardField c 0x24 4
def cardCnt2 (c : BitVec 2048) : Nat := cardField c 0x28 4
def cardComp (c : BitVec 2048) : Nat := cardField c 0x50 8

/-- The row's address: base + k1 × stride 1 + k2 × stride 2, the strides signed at the offsets given. -/
def cardRow (c : BitVec 2048) (base so1 so2 k1 k2 : Nat) : Nat :=
  wrapNat 64 ((base : Int) + (k1 : Int) * sextInt 64 (cardField c so1 8) + (k2 : Int) * sextInt 64 (cardField c so2 8))
def cardSrcRow (c : BitVec 2048) (k1 k2 : Nat) : Nat := cardRow c (cardSrc c) 0x30 0x38 k1 k2
def cardDstRow (c : BitVec 2048) (k1 k2 : Nat) : Nat := cardRow c (cardDst c) 0x40 0x48 k1 k2

/-- The rows of a card in ascending (k2, k1) order. -/
def cardRows (c : BitVec 2048) : List (Nat × Nat) := (List.range (cardCnt2 c)).flatMap (fun k2 => (List.range (cardCnt1 c)).map (fun k1 => (k1, k2)))

/-- A footprint region (R85): base and length; of length 0 it is unused. DESIGN CHOICE (log 83): the address of an unused region is not looked at, where R87
says of every region address that its bits 63:52 are zero. -/
def cardRegion (c : BitVec 2048) (off : Nat) : Nat × Nat := (cardField c off 8, cardField c (off + 8) 5)
def cardReads (c : BitVec 2048) : List (Nat × Nat) := ((List.range 4).map (fun k => cardRegion c (0x80 + 16 * k))).filter (fun r => decide (r.2 ≠ 0))
def cardWrites (c : BitVec 2048) : List (Nat × Nat) := ((List.range 4).map (fun k => cardRegion c (0xC0 + 16 * k))).filter (fun r => decide (r.2 ≠ 0))

/-- Every byte of a run lies in one of the regions. -/
def covered (rs : List (Nat × Nat)) : Nat → Nat → Nat → Bool
  | 0, lo, hi => decide (hi ≤ lo)
  | fuel + 1, lo, hi =>
    if hi ≤ lo then true
    else match rs.find? (fun r => decide (r.1 ≤ lo) && decide (lo < r.1 + r.2)) with
      | some r => covered rs fuel (r.1 + r.2) hi
      | none => false

def runCovered (rs : List (Nat × Nat)) (lo n : Nat) : Bool := covered rs (rs.length + 1) lo (lo + n)

/-- Where a region lies: 0 and its virtual addresses, or 1 + core and its physical scratchpad bytes (R89). -/
abbrev Place := Nat × Nat × Nat

def overlaps (a b : Place) : Bool := decide (a.1 = b.1) && decide (a.2.1 < b.2.1 + b.2.2) && decide (b.2.1 < a.2.1 + a.2.2)

/-- Reserved fields of a card are zero (R83, R84, R87); a misaligned COMPADDR counts as one (log 27). -/
def cardFieldsOk (c : BitVec 2048) : Bool :=
  let ctl := cardField c 0 8
  let kind := cardKind c
  decide (bits ctl 63 12 = 0) && decide (kind ≤ 2) &&
  (if kind = 2 then decide (bits ctl 10 8 ≠ 0) else decide (bits ctl 11 8 = 0)) &&
  (decide (kind ≠ 1) || decide (cardSrc c = 0)) && (decide (kind = 1) || decide (cardField c 0x18 8 = 0)) &&
  decide (cardField c 0x2C 4 = 0) && decide (cardField c 0x60 32 = 0) && decide (cardComp c % 8 = 0) &&
  (List.range 8).all (fun k => decide (cardField c (0x80 + 16 * k + 13) 3 = 0))

/-- Plane bytes and width of a PLANE_T card (R86). -/
def cardEdge (c : BitVec 2048) : Nat := if bits (cardField c 0 8) 11 11 = 1 then 16 else 32
def cardWidth (c : BitVec 2048) : Nat := bits (cardField c 0 8) 10 8 + 1

/-- The counts of R87. -/
def cardCountsOk (c : BitVec 2048) : Bool :=
  decide (1 ≤ cardLen c) && decide (1 ≤ cardCnt1 c) && decide (1 ≤ cardCnt2 c) &&
  (decide (cardKind c ≠ 2) || (decide (cardCnt2 c = 1) && decide (cardLen c = cardWidth c * (cardEdge c * cardEdge c / 8))))

/-- Every byte read or written lies in a region of its side (R87). DESIGN CHOICE (log 82): judged by virtual addresses, so that a byte named through one window
is not covered by a region that names the same scratchpad byte through the other; R87 does not say. -/
def cardCovered (c : BitVec 2048) : Bool :=
  (cardRows c).all (fun k =>
    (decide (cardKind c = 1) || runCovered (cardReads c) (cardSrcRow c k.1 k.2) (cardLen c)) &&
    runCovered (cardWrites c) (cardDstRow c k.1 k.2) (cardLen c)) &&
  (decide (cardComp c = 0) || runCovered (cardWrites c) (cardComp c) 8)

/-- A region placed: every byte of it has bits 63:52 zero; one with a byte in a window must pass R76 for the submitter, and passes nowhere when it begins
outside. -/
def placeRegion (win : Nat → Nat → Win) (r : Nat × Nat) : Option Place :=
  if bits r.1 63 52 ≠ 0 ∨ 2 ^ 52 < r.1 + r.2 ∨ (!isWindowVa r.1 ∧ 0xFE00000000000 < r.1 + r.2) then none
  else match win r.1 r.2 with
    | .no => some (0, r.1, r.2)
    | .malformed => none
    | .out => none
    | .at core off => some (core + 1, off, r.2)

/-- Acceptance (R87): the places of the read and the write regions, or refusal. -/
def acceptCard (win : Nat → Nat → Win) (c : BitVec 2048) : Option (List Place × List Place) :=
  let rs := (cardReads c).map (placeRegion win)
  let ws := (cardWrites c).map (placeRegion win)
  if cardFieldsOk c && cardCountsOk c && cardCovered c && rs.all Option.isSome && ws.all Option.isSome then
    let rp := rs.filterMap id
    let wp := ws.filterMap id
    if rp.any (fun r => wp.any (overlaps r)) then none else some (rp, wp)
  else none

/-- The window of an accepted card's address, by what its submitter held. DESIGN CHOICE (log 67): an accepted card reaches the bytes so placed whether
or not their team is still resident when it runs; the spec states the check of R76 at acceptance alone. -/
def cardWin (c : Card) (va _n : Nat) : Win :=
  if bits va 51 44 = 0xFF then .at c.core (c.spbase + bits va 31 0)
  else if bits va 51 44 = 0xFE then .at (c.core / 8 * 8 + bits va 22 20) (bits va 19 0)
  else .no

/-- The places of an accepted card. -/
def cardPlaces (c : Card) : List Place × List Place :=
  ((cardReads c.bits).filterMap (placeRegion (cardWin c)), (cardWrites c.bits).filterMap (placeRegion (cardWin c)))

/-- Two footprints conflict: a write region of one overlaps any region of the other (R89). -/
def conflicts (a b : List Place × List Place) : Bool :=
  a.2.any (fun w => (b.1 ++ b.2).any (overlaps w)) || b.2.any (fun w => (a.1 ++ a.2).any (overlaps w))

/-- An operand run of an MLOOP (R154, R155, R157): base, step, block bytes; where it lies. -/
def loopWidth (w : Word) (b : Bool) : Nat := (if b then bits w.toNat 19 17 else bits w.toNat 16 14) + 1
def loopLoc (w : Word) (b : Bool) : Nat := if b then bits w.toNat 11 10 else bits w.toNat 6 5
def loopCore (w : Word) (b : Bool) : Nat := if b then bits w.toNat 9 7 else bits w.toNat 4 2
/-- Bytes of an operand block of width w (R155). -/
def blockBytes (w : Nat) : Nat := w * 128 + 16

/-- First byte and length of a run (R76, R157). -/
def runExtent (base k : Nat) (step : Int) (block : Nat) : Int × Nat :=
  let d := (k - 1 : Nat) * step.natAbs
  (if step < 0 then (base : Int) - (d : Int) else (base : Int), d + block)

/-- The place of a run. -/
def runPlace (l : MLoop) (b : Bool) : Place :=
  let e := runExtent (if b then l.bbase else l.abase) l.ksteps (if b then l.bstep else l.astep) (blockBytes (loopWidth l.srcw b))
  let loc := loopLoc l.srcw b
  if loc = 1 then (l.core + 1, ((l.spbase : Int) + e.1).toNat, e.2)
  else if loc = 2 then (l.core / 8 * 8 + loopCore l.srcw b + 1, e.1.toNat, e.2)
  else (0, e.1.toNat, e.2)

/-- The footprint of an MLOOP (R89): its runs are read, its tile and header written. -/
def loopPlaces (l : MLoop) : List Place × List Place := ([runPlace l false, runPlace l true], [(0, l.acc, 8192), (0, l.hdr, 64)])

/-- The MLOOPs that have issued and whose last flush is not yet served, those of saved teams included. -/
def openMLoops (s : State) : List MLoop :=
  s.cores.flatMap (fun c => c.2.sequencer ++ c.2.flushes.map Flush.loop) ++ s.teams.flatMap (fun t => t.2.stopped)

/-- A card put among the accepted ones, ordered after those it conflicts with (R89). -/
def addCard (s : State) (c : Card) : State :=
  let p := cardPlaces c
  let after := (s.cards.filter (fun d => decide (d.ctx = c.ctx) && decide (d.status = 1) && conflicts p (cardPlaces d))).map Card.id
  let loops := ((openMLoops s).filter (fun l => decide (l.ctx = c.ctx) && conflicts p (loopPlaces l))).map MLoop.id
  { s with cards := s.cards ++ [{ c with after := after, afterLoops := loops }] }

/-- The next ticket (R88): from 0xFFFF_FFFF to 1. -/
def nextTicket (n : Nat) : Nat := if n = 0xFFFFFFFF then 1 else n + 1

/-- A card's status for its team (R88): kept until 64 later cards have been accepted, else 0, PENDING or not. -/
def cardStatus (t : Team) (k : Nat) : Nat := ((t.cards.find? (fun c => decide (c.ticket = k))).map CardStatus.status).getD 0

/-- The cards of a team outstanding: all that are PENDING, those included whose status the team can no longer read (R88). -/
def cardsPending (s : State) (u : Nat) : Nat := (s.cards.filter (fun c => decide (c.team = some u) && decide (c.status = 1))).length

/-- The window of a team's region, for R76. -/
def teamWin (s : State) (t : Team) (va n : Nat) : Win := window s t va n

/-- The card handed to the scheduler: refused, a CARD trap; accepted, its ticket is written to d (R293). -/
def submitCard (d : Sel) (bs : List Byte) (s : State) (x : Issue) : Eff :=
  let c : BitVec 2048 := BitVec.ofNat 2048 (natOfBytes bs)
  match acceptCard (teamWin s x.t) c with
  | none => trapExec .card s x
  | some _ =>
    let k := nextTicket x.t.tickets
    let q := takeId s
    let card : Card :=
      { id := q.1, bits := c, ctx := x.t.cfg.ctx, core := x.t.cfg.core, team := some x.u, ring := none, ticket := k, status := 1, started := false,
        pins := [], after := [], afterLoops := [], spbase := x.t.cfg.spbase, spsize := x.t.cfg.spsize, row := 0, got := [], put := 0 }
    let s1 := (addCard q.2 card).updTeam x.u (fun t => { t with
      tickets := k, cards := (if t.cards.length < 64 then t.cards else t.cards.drop 1) ++ [{ ticket := k, status := 1 }] })
    let r := startLate s1 x.u (readsFlag x) id
    .done (answerLate r.2 x.u r.1 d k)

/-- CARD (R293): the release side, the wait for fewer than 64 outstanding, the read of 256 bytes by the lowest lane of EXEC, the acceptance. -/
def cardBody (d a : Sel) (s : State) (x : Issue) : Eff :=
  if !isSreg d then trapExec .illegalOp s x
  else
    releaseThen s x (fun s =>
      if 64 ≤ cardsPending s x.u then .wait s
      else
        let va := x.uval a 2
        let r := checkRun s x.t va 256 256 needR true
        laneThen va r.2 x r.1 (fun s =>
          let v := readRun s x.u x.t va 256
          match v.1 with
          | none => .done (startLate v.2 x.u (readsFlag x) (fun o => { o with poisoned := [(lowestLane x, va)] })).2
          | some bs => submitCard d bs v.2 x))

def execCard (d a : Sel) (s : State) : Host.Outcome State Fault Refusal :=
  issue (.card d a) { plainForm anyType (fun _ => [dst d 1, src a 2]) with late := true, mem := true, cls := 1 } (cardBody d a) s

/-- CWAIT (R294): it waits while PENDING; COMPLETE acquires; FAULTED is a CARD trap that names the ticket. -/
def cwaitBody (a : Sel) (s : State) (x : Issue) : Eff :=
  let k := x.uval a 1
  if cardStatus x.t k = 1 then .wait s
  else if cardStatus x.t k = 2 then .trap s { trapOf .card x.exec with detail := BitVec.ofNat 32 k }
  else acquireThen s x .done

def execCwait (a : Sel) (s : State) : Host.Outcome State Fault Refusal :=
  issue (.cwait a) (plainForm anyType (fun _ => [src a 1])) (cwaitBody a) s

/-- CPOLL (R294): late on the READS flag; a v or s destination. -/
def execCpoll (d a : Sel) (s : State) : Host.Outcome State Fault Refusal :=
  issue (.cpoll d a) { plainForm anyType (fun _ => [dst d 1, src a 1]) with late := true, cls := 1 }
    (fun s x => lateEff d 1 x.active (fun _ => (cardStatus x.t (x.uval a 1), 0)) s x) s

/-! ## Cards run (R86, R89 to R91) -/

/-- The layers of a context whose regions a footprint of virtual places meets (R371). -/
def footLayers (s : State) (ctx : Nat) (ps : List Place) : List (Nat × Nat) :=
  s.models.flatMap (fun m => if m.2.ctx = ctx then
      (List.range m.2.layers.length).filterMap (fun k =>
        match m.2.layers[k]? with
        | some l => if ps.any (overlaps (0, l.vbase, l.size)) then some (m.1, k) else none
        | none => none)
    else [])

/-- How an engine's access of a run within one line ends: it is translated by the unit of the submitter's cluster (log 28), and a page or permission fault
names the access (R91). -/
inductive EngineRes where
  | ok (bytes : List Byte)
  | fault (a : Access)
  | bad
  deriving DecidableEq, Repr

/-- How the translation of an engine's or a unit's access ends. -/
inductive UnitTr where
  | ok (m : Mapping)
  | fault (a : Access)
  | bad
  deriving DecidableEq, Repr

/-- The translation of an access by an engine or a unit: a page or permission fault waits for its service, as that of its asker where the access is not a
card's (R91, R394); one that the Sconce has marked as an access that cannot be resolved is none. -/
def unitTranslate (s : State) (who : Option Asker) (core ctx va : Nat) (need : Need) : UnitTr × State :=
  let a := accessOf va need
  if askLost s who ctx a then (.bad, dropAsk s who ctx a)
  else
    let r := translate s core ctx va need
    match r.1 with
    | .page => (.fault a, noteAsk r.2 who ctx a)
    | .bad .permission => (.fault a, noteAsk r.2 who ctx a)
    | .bad _ => (.bad, dropAsk r.2 who ctx a)
    | .ok m => (.ok m, dropAsk r.2 who ctx a)

/-- n bytes within a line read at home for an engine or a unit (R90), through a context's translation; a peer may refuse (R397). -/
def unitRead (s : State) (who : Option Asker) (core ctx va n : Nat) : EngineRes × State :=
  let r := unitTranslate s who core ctx va needR
  match r.1 with
  | .fault a => (.fault a, r.2)
  | .bad => (.bad, r.2)
  | .ok m =>
    match m.record with
    | some (o, off) => (.ok (bytesOf n (recordRead r.2 o off n)), r.2)
    | none =>
      if m.peer.isSome then
        let q := peerBytes r.2 n
        (if Config.peerRefuses r.2.fresh then .bad else .ok (bytesOf n q.1), q.2)
      else
        let h := homeTake r.2 false m.pa n
        (match h.1 with
          | some bs => .ok bs
          | none => .bad, h.2)

/-- Bytes within a line written at home for an engine or a unit; a peer may refuse (R397). -/
def unitWrite (s : State) (who : Option Asker) (core ctx va : Nat) (bs : List Byte) : EngineRes × State :=
  let r := unitTranslate s who core ctx va needW
  match r.1 with
  | .fault a => (.fault a, r.2)
  | .bad => (.bad, r.2)
  | .ok m =>
    if m.peer.isSome then (if Config.peerRefuses r.2.fresh then .bad else .ok [], (drawWord r.2).2)
    else (.ok [], homeWrite r.2 m.pa bs)

/-- n bytes read by an engine within a line (R90). -/
def engineRead (s : State) (c : Card) (va n : Nat) : EngineRes × State :=
  match cardWin c va n with
  | .at core off => if scratchPoisoned s core off n then (.bad, s) else (.ok (Memory.reads (s.core core).scratch off n), s)
  | _ => unitRead s none c.core c.ctx va n

/-- Bytes written by an engine within a line. -/
def engineWrite (s : State) (c : Card) (va : Nat) (bs : List Byte) : EngineRes × State :=
  match cardWin c va bs.length with
  | .at core off => (.ok [], scratchWrite s core off bs)
  | _ => unitWrite s none c.core c.ctx va bs

/-- The pieces of a run within lines of 128 bytes. -/
def linePieces (va n : Nat) : List (Nat × Nat) :=
  (List.range ((va % 128 + n + 127) / 128)).map (fun k =>
    let lo := if k = 0 then va else va / 128 * 128 + 128 * k
    let hi := if va / 128 * 128 + 128 * (k + 1) ≤ va + n then va / 128 * 128 + 128 * (k + 1) else va + n
    (lo, hi - lo))

/-- A run read from the bytes already got on: all of them, or those got before it stopped. -/
def engineRuns (s : State) (c : Card) (va n : Nat) (got : List Byte) : EngineRes × List Byte × State :=
  (linePieces (va + got.length) (n - got.length)).foldl (fun (r : EngineRes × List Byte × State) p =>
    match r.1 with
    | .ok _ =>
      let q := engineRead r.2.2 c p.1 p.2
      match q.1 with
      | .ok cs => (.ok [], r.2.1 ++ cs, q.2)
      | e => (e, r.2.1, q.2)
    | _ => r) (.ok [], got, s)

/-- A run written from its first unwritten byte on, with how many of its bytes are written. -/
def engineStores (s : State) (c : Card) (va : Nat) (bs : List Byte) (put : Nat) : EngineRes × Nat × State :=
  (linePieces (va + put) (bs.length - put)).foldl (fun (r : EngineRes × Nat × State) p =>
    match r.1 with
    | .ok _ =>
      let q := engineWrite r.2.2 c p.1 ((bs.drop r.2.1).take p.2)
      match q.1 with
      | .ok _ => (.ok [], r.2.1 + p.2, q.2)
      | e => (e, r.2.1, q.2)
    | _ => r) (.ok [], put, s)

/-- Bit k of a run of bytes. -/
def runBit (bs : List Byte) (k : Nat) : Bool := (nthD bs (k / 8) 0).getLsbD (k % 8)

/-- The bytes of a run of bits. -/
def bytesOfBits (n : Nat) (f : Nat → Bool) : List Byte :=
  (List.range n).map (fun k => BitVec.ofNat 8 (((List.range 8).map (fun i => if f (8 * k + i) then 2 ^ i else 0)).sum))

/-- A tile's planes transposed (R86): bit i × t + j from bit j × t + i of each plane. -/
def planeT (t : Nat) (bs : List Byte) : List Byte :=
  let pb := t * t / 8
  bytesOfBits bs.length (fun k => let q := k / (8 * pb); let b := k % (8 * pb); runBit bs (8 * pb * q + b % t * t + b / t))

/-- The bytes a row writes (R86). -/
def rowBytes (c : Card) (src : List Byte) : List Byte :=
  if cardKind c.bits = 1 then (List.range (cardLen c.bits)).map (fun i => BitVec.ofNat 8 (cardField c.bits 0x18 8 / 2 ^ (8 * (i % 8))))
  else if cardKind c.bits = 2 then planeT (cardEdge c.bits) src
  else src

/-- One row of a card from where the card stands: its read, then its writes. -/
def runRow (s : State) (c : Card) (k : Nat × Nat) : EngineRes × Card × State :=
  let q := if cardKind c.bits = 1 then (EngineRes.ok [], [], s) else engineRuns s c (cardSrcRow c.bits k.1 k.2) (cardLen c.bits) c.got
  match q.1 with
  | .ok _ =>
    let w := engineStores q.2.2 c (cardDstRow c.bits k.1 k.2) (rowBytes c q.2.1) c.put
    (match w.1 with
    | .ok _ => (.ok [], { c with row := c.row + 1, got := [], put := 0 }, w.2.2)
    | e => (e, { c with got := q.2.1, put := w.2.1 }, w.2.2))
  | e => (e, { c with got := q.2.1 }, q.2.2)

/-- The rows of a card that are left, in ascending (k2, k1) order. -/
def runRows (s : State) (c : Card) : EngineRes × Card × State :=
  ((cardRows c.bits).drop c.row).foldl (fun (r : EngineRes × Card × State) k =>
    match r.1 with
    | .ok _ => runRow r.2.2 r.2.1 k
    | _ => r) (.ok [], c, s)

/-- A card's work and then its completion word (R86), with the card where it stands afterwards (R91). -/
def runCard (s : State) (c : Card) : EngineRes × Card × State :=
  let r := runRows s c
  match r.1 with
  | .ok _ =>
    if cardComp c.bits = 0 then r
    else
      let w := engineStores r.2.2 c (cardComp c.bits) (bytesOf 8 (cardField c.bits 0x58 8)) r.2.1.put
      (w.1, { r.2.1 with put := w.2.1 }, w.2.2)
  | _ => r

/-- A card no longer PENDING: its pins go, its team and its ring see the status. -/
def endCard (s : State) (c : Card) (status : Nat) : State :=
  let s1 := unpinAll { s with cards := s.cards.map (fun d => if d.id = c.id then { d with status := status, pins := [] } else d) } c.pins
  match c.team with
  | some u => s1.updTeam u (fun t => { t with cards := t.cards.map (fun k => if k.ticket = c.ticket then { k with status := status } else k) })
  | none => s1

/-- A card may start (R82, R89): one of the 24 engines of the package is free, the cards it is ordered after are no longer PENDING, the MLOOPs' flushes
are served. Which engine runs a card is not architectural. DESIGN CHOICE (log 81): a card held at a page or permission fault goes on occupying its engine;
R82 and R91 do not say. -/
def cardReady (s : State) (c : Card) : Bool :=
  decide (c.status = 1) && !c.started && decide ((s.cards.filter (fun d => d.started && decide (d.status = 1))).length < 24) &&
  c.after.all (fun i => s.cards.all (fun d => decide (d.id ≠ i) || decide (d.status ≠ 1))) &&
  c.afterLoops.all (fun i => (openMLoops s).all (fun l => decide (l.id ≠ i)))

def updCard (s : State) (i : Nat) (f : Card → Card) : State := { s with cards := s.cards.map (fun c => if c.id = i then f c else c) }

/-- CARD_START (R89, R371): a footprint layer that is not RESIDENT is requested on demand and holds the card; else the card pins its layers and starts. -/
def startCard (s : State) (i : Nat) : State :=
  match s.cards.find? (fun c => decide (c.id = i)) with
  | none => s
  | some c =>
    if cardReady s c then
      let p := cardPlaces c
      let ls := footLayers s c.ctx (p.1 ++ p.2)
      if ls.all (fun l => decide (layerState s l.1 l.2 = some 2)) then
        updCard (pinAll s ls) i (fun c => { c with started := true, pins := ls })
      else ls.foldl (fun s l => requestLayer s l.1 l.2 true) s
    else s

def execCardStart (card : Nat) (s : State) : Host.Outcome State Fault Refusal := .next (if s.trust.halted then s else startCard s card)

/-- CARD_COMPLETE (R86, R91): the card's reads and writes are performed and it is COMPLETE; a page or permission fault holds it, to resume where it
stopped; a poisoned line, or an address that cannot be used, ends it FAULTED. The model performs a card's work in this one step (log 23). DESIGN CHOICE
(log 95): an INVALID_ADDR or WINDOW outcome of its translation (a malformed leaf, an address that is not populated or lies beyond a slice's window) is such
an address; R91 speaks of page and permission faults alone. -/
def completeCard (s : State) (i : Nat) : State :=
  match s.cards.find? (fun c => decide (c.id = i)) with
  | none => s
  | some c =>
    if c.started && decide (c.status = 1) then
      let r := runCard s c
      match r.1 with
      | .ok _ => endCard r.2.2 c 0
      | .fault _ => updCard r.2.2 i (fun _ => r.2.1)
      | .bad => endCard r.2.2 c 2
    else s

/-- The access a card is held at, if any. -/
def cardHeldAt (s : State) (c : Card) : Option Access :=
  if c.started && decide (c.status = 1) then
    match (runCard s c).1 with
    | .fault a => some a
    | _ => none
  else none

end Sys2Proof.Machine
end

