-- ==== Sys2Proof/Machine/Matrix.lean ====
section
/-! DEFINITION. The matrix unit (R154 to R170, R299 to R312): MLOOP and the sequencer, flushes and the accumulator header, batches, MDRAIN, MQUANT,
MZERO. -/

namespace Sys2Proof.Machine

/-! ## Checks at issue -/

/-- Checks made in order: the first that ends decides (R299). -/
def checksThen (cs : List (State → RunRes × State)) (s : State) (x : Issue) (k : State → Eff) : Eff :=
  let r := cs.foldl (fun (r : RunRes × State) c =>
    match r.1 with
    | .ok => c r.2
    | .ends _ => r) (RunRes.ok, s)
  descEnds r.2 x r.1 k

/-- A check on the operands alone. -/
def demand (ok : Bool) (c : TrapClass) (s : State) : RunRes × State := (if ok then .ok else .ends (.held c 0), s)

/-- What one page's mapping must pass. -/
abbrev PageTest := Mapping → Nat → State → RunRes × State

/-- n runs of 32 KiB translated in order, each mapping tested: a page is two of them, and a trap record area one (R379). A fault found by a walk parks,
PERMISSION as well as PAGE (R69; log 22). -/
def pagesFrom (cfg : TeamCfg) (need : Need) (f : PageTest) : Nat → Nat → State → RunRes × State
  | 0, _, s => (.ok, s)
  | n + 1, va, s =>
    let r := translate s cfg.core cfg.ctx va need
    match r.1 with
    | .page => (.ends (.park (.page (accessOf va need))), r.2)
    | .bad .permission => (.ends (.park (.page (accessOf va need))), r.2)
    | .bad c => (.ends (.held c 0), r.2)
    | .ok m =>
      let q := f m va r.2
      match q.1 with
      | .ok => pagesFrom cfg need f n (va / 32768 * 32768 + 32768) q.2
      | .ends _ => q

/-- Every page of n bytes of translated memory: a window address, or one beyond the virtual addresses, is INVALID_ADDR (R423). -/
def pagesOf (cfg : TeamCfg) (need : Need) (f : PageTest) (va : Int) (n : Nat) (s : State) : RunRes × State :=
  if va < 0 ∨ (2 ^ 52 : Nat) < va + n ∨ isWindowVa va.toNat ∨ isWindowVa (va.toNat + n - 1) then (.ends (.held .invalidAddr 0), s)
  else pagesFrom cfg need f ((va.toNat + n - 1) / 32768 - va.toNat / 32768 + 1) va.toNat s

def anyPage : PageTest := fun _ _ s => (.ok, s)
/-- An ACCUM page of this device (R158). -/
def accumPage : PageTest := fun m _ s => (if m.policy = .accum ∧ m.peer.isNone then .ok else .ends (.held .policy 0), s)
/-- A page whose layer is RESIDENT; else a demand request, or SWAP (R373). -/
def layerPage : PageTest := fun m _ s =>
  match layerOutcome s m.layer, m.layer with
  | .absent, some (ms, k) => (.ends (.park (.layer ms k)), requestLayer s ms k true)
  | .failed, some (ms, k) => (.ends (.held .swap (layerWord ms k)), s)
  | _, _ => (.ok, s)

/-- A run of n bytes at a window or a translated address: the bounds of a window run, for the WINDOW check. -/
def windowRun (t : Team) (va n : Nat) (s : State) : RunRes × State :=
  (match window s t va n with
    | .out => .ends (.held .window 0)
    | _ => .ok, s)

/-- Its translation check: a malformed window address is INVALID_ADDR, a window run needs none. -/
def placeRun (t : Team) (need : Need) (f : PageTest) (va n : Nat) (s : State) : RunRes × State :=
  match window s t va n with
  | .at _ _ => (.ok, s)
  | .no => pagesOf t.cfg need f va n s
  | _ => (.ends (.held .invalidAddr 0), s)

/-- The number of an s register among the first that an instruction allows (R300). -/
def blockReg (a : Sel) (top : Nat) : Option Nat :=
  match a with
  | .s k => if k % 4 = 0 ∧ k ≤ top then some k else none
  | _ => none

/-- A word and a pair of a parameter block. -/
def blockWord (x : Issue) (k : Nat) : Nat := x.uval (.s k) 1
def blockPair (x : Issue) (k : Nat) : Nat := x.uval (.s k) 2

/-- HDR lies in ACC's 16 KiB block and outside the tile (R156). -/
def headerPlaced (acc hdr : Nat) : Bool := decide (hdr / 16384 = acc / 16384) && (decide (hdr + 64 ≤ acc) || decide (acc + 8192 ≤ hdr))

/-- The instruction holds its team until its work is done (R301), its operands copied at issue: the team sleeps (R354), and the instruction is performed
again when CLAUSE_START gives the team the slot. -/
def holdTeam (s : State) (x : Issue) : Eff := .wait (s.updTeam x.u (fun t => { t with captured := some (capture t) }))

/-- The MLOOPs of a team whose last flush is not served. -/
def teamLoops (s : State) (u : Nat) : List MLoop := (openMLoops s).filter (fun l => decide (l.team = u))

/-! ## MLOOP (R156 to R158, R302) -/

/-- Bits of a source word that must be zero, and the values R157 reserves. -/
def srcwOk (w : Word) : Bool :=
  decide (bits w.toNat 23 22 = 0) && decide (bits w.toNat 13 12 = 0) && decide (bits w.toNat 1 0 = 0) &&
  decide (bits w.toNat 19 17 ≠ 0) && decide (bits w.toNat 16 14 ≠ 0) && decide (loopLoc w true ≠ 3) && decide (loopLoc w false ≠ 3) &&
  (decide (loopLoc w true = 2) || decide (loopCore w true = 0)) && (decide (loopLoc w false = 2) || decide (loopCore w false = 0))

/-- The MLOOP of the parameter block at s[a]. -/
def loopOf (x : Issue) (k id : Nat) : MLoop :=
  { id := id, team := x.u, ctx := x.t.cfg.ctx, core := x.t.cfg.core, abase := blockPair x k, bbase := blockPair x (k + 2),
    acc := blockPair x (k + 4), hdr := blockPair x (k + 6), accPa := 0, hdrPa := 0, ksteps := blockWord x (k + 8),
    astep := sextInt 32 (blockWord x (k + 9)), bstep := sextInt 32 (blockWord x (k + 10)), srcw := BitVec.ofNat 32 (blockWord x (k + 11)),
    tile := modeTile x.t.mode, spbase := x.t.cfg.spbase, frames := [], pins := [], after := [] }

/-- First byte and length of a run (R157). -/
def loopExtent (l : MLoop) (b : Bool) : Int × Nat :=
  runExtent (if b then l.bbase else l.abase) l.ksteps (if b then l.bstep else l.astep) (blockBytes (loopWidth l.srcw b))

/-- A scratchpad run lies in its allocation (R76, R157). DESIGN CHOICE (log 96): one whose offsets are too wide for the OFFSET field of R74, or the PHYS field
of R75, lies outside every allocation, which is WINDOW; R76 calls a nonzero bit in a zero field of a window address INVALID_ADDR, and these runs have no
window address. -/
def scratchRunOk (s : State) (t : Team) (l : MLoop) (b : Bool) : Bool :=
  let e := loopExtent l b
  let loc := loopLoc l.srcw b
  if loc = 1 then decide (0 ≤ e.1) && decide (e.1 + e.2 ≤ t.cfg.spsize)
  else if loc = 2 then
    decide (0 ≤ e.1) && decide (e.1 + e.2 ≤ 0x100000) &&
    (match window s t (0xFE00000000000 + loopCore l.srcw b * 0x100000 + e.1.toNat) e.2 with
      | .at _ _ => true
      | _ => false)
  else true

/-- A test over the pages of a memory run. -/
def runPages (cfg : TeamCfg) (l : MLoop) (b : Bool) (f : PageTest) (s : State) : RunRes × State :=
  if loopLoc l.srcw b ≠ 0 then (.ok, s) else pagesOf cfg needMatrix f (loopExtent l b).1 (loopExtent l b).2 s

/-- The frames of the pages of the MLOOP's memory runs. -/
def runFrames (cfg : TeamCfg) (l : MLoop) (b : Bool) (s : State) : Tbl Nat × State :=
  if loopLoc l.srcw b ≠ 0 then ([], s)
  else
    let e := loopExtent l b
    let n := (e.1.toNat + e.2 - 1) / 65536 - e.1.toNat / 65536 + 1
    (List.range n).foldl (fun (r : Tbl Nat × State) i =>
      let p := e.1.toNat / 65536 + i
      let q := translate r.2 cfg.core cfg.ctx (65536 * p) needMatrix
      match q.1 with
      | .ok m => (if m.record.isSome then r.1 else tblSet r.1 p (m.pa / 65536 + (if m.peer.isSome then 2 ^ 48 else 0)), q.2)
      | _ => (r.1, q.2)) ([], s)

/-- The physical address of an ACC or an HDR that has passed its checks. -/
def accumPa (s : State) (cfg : TeamCfg) (va : Nat) (need : Need) : Nat :=
  match (translate s cfg.core cfg.ctx va need).1 with
  | .ok m => m.pa
  | _ => 0

/-- The checks of R158, in order: R60 lets an accumulator merge use a page with R and W. -/
def loopChecks (x : Issue) (l : MLoop) (kw : Nat) : List (State → RunRes × State) :=
  let cfg := x.t.cfg
  [ demand (srcwOk l.srcw && decide (l.ksteps ≠ 0) && decide (kw < 2 ^ 24)) .illegalOp,
    demand (decide (l.acc % 8192 = 0) && decide (l.hdr % 64 = 0) && decide (l.abase % 16 = 0) && decide (l.bbase % 16 = 0) &&
      decide (l.astep % 16 = 0) && decide (l.bstep % 16 = 0) && headerPlaced l.acc l.hdr) .align,
    fun s => demand (scratchRunOk s x.t l false && scratchRunOk s x.t l true) .window s,
    pagesOf cfg needAccum anyPage l.acc 8192,
    pagesOf cfg needAccum anyPage l.hdr 64,
    runPages cfg l false anyPage,
    runPages cfg l true anyPage,
    pagesOf cfg needAccum accumPage l.acc 8192,
    pagesOf cfg needAccum accumPage l.hdr 64,
    runPages cfg l false layerPage,
    runPages cfg l true layerPage ]

/-- MLOOP (R302): checked, pinned (R158), ordered against the cards accepted before it (R89), and queued; a full queue makes it wait (R159). -/
def mloopBody (a : Sel) (s : State) (x : Issue) : Eff :=
  match blockReg a 20 with
  | none => trapExec .illegalOp s x
  | some k =>
    let q := takeId s
    let l := loopOf x k q.1
    checksThen (loopChecks x l (blockWord x (k + 8))) q.2 x (fun s =>
      let cfg := x.t.cfg
      if 16 ≤ (s.core cfg.core).sequencer.length then .wait s
      else
        let fa := runFrames cfg l false s
        let fb := runFrames cfg l true fa.2
        let p := loopPlaces l
        let pins := footLayers fb.2 cfg.ctx (p.1 ++ p.2)
        let after := (fb.2.cards.filter (fun d => decide (d.ctx = cfg.ctx) && decide (d.status = 1) && conflicts p (cardPlaces d))).map Card.id
        let l1 := { l with
          accPa := accumPa fb.2 cfg l.acc needAccum, hdrPa := accumPa fb.2 cfg l.hdr needAccum,
          frames := fb.1.foldl (fun u e => tblSet u e.1 e.2) fa.1, pins := pins, after := after }
        let s1 := (pinAll fb.2 pins).updCore cfg.core (fun c => { c with sequencer := c.sequencer ++ [l1] })
        .done (s1.updTeam x.u (fun t => { t with openLoops := t.openLoops ++ [{ id := l.id, served := false, fault := 0, pins := [] }] })))

def execMloop (a : Sel) (s : State) : Host.Outcome State Fault Refusal :=
  issue (.mloop a) { plainForm anyType (fun _ => [named a 1]) with mem := true } (mloopBody a) s

/-! ## The sequencer (R154, R155, R159, R162, R170) -/

/-- What the core of a team's first level has under way for n bytes at an address, which lie within a line, reaches home: the team's own stores are seen
there. -/
def drainOwn (s : State) (u va pa : Nat) : State :=
  match tblGet s.teams u with
  | some t => drainLine s (l1Core t.cfg va) (pa / 128)
  | none => s

/-- The same for an accumulator tile and its header. -/
def drainTile (s : State) (u acc pa hdr hp : Nat) : State :=
  drainOwn ((List.range 64).foldl (fun s k => drainOwn s u (acc + 128 * k) (pa + 128 * k)) s) u hdr hp

/-- n bytes of an operand run as the sequencer reads them (R170): scratchpad bytes in their bank, memory at home with owned words pulled; none for a
poisoned line, or where a peer refuses (R397). The stores that the team has issued reach home first (log 86). DESIGN CHOICE, where R170 and R166 are
silent: a cluster source is read by its place, unchecked, whatever has become of the team that held it (log 87); bytes of a lowered window count as a
poisoned line (log 88), and so does a poisoned scratchpad word (log 89): the flush is discarded with INTEGRITY. -/
def operandBytes (s : State) (l : MLoop) (b : Bool) (va : Int) (n : Nat) : Option (List Byte) × State :=
  let loc := loopLoc l.srcw b
  if loc ≠ 0 then
    let c := if loc = 1 then l.core else l.core / 8 * 8 + loopCore l.srcw b
    let p := (va + (if loc = 1 then (l.spbase : Int) else 0)).toNat
    if scratchPoisoned s c p n then (none, s) else (some (Memory.reads (s.core c).scratch p n), s)
  else
    (linePieces va.toNat n).foldl (fun (r : Option (List Byte) × State) p =>
      match r.1 with
      | none => r
      | some bs =>
        match tblGet l.frames (p.1 / 65536) with
        | none =>
          match (translate r.2 l.core l.ctx p.1 needMatrix).1 with
          | .ok m => match m.record with
            | some (o, off) => (some (bs ++ bytesOf p.2 (recordRead r.2 o off p.2)), r.2)
            | none => (none, r.2)
          | _ => (none, r.2)
        | some f =>
          if 2 ^ 48 ≤ f then
            let q := peerBytes r.2 p.2
            (if Config.peerRefuses r.2.fresh then none else some (bs ++ bytesOf p.2 q.1), q.2)
          else
            let pa := f * 65536 + p.1 % 65536
            let h := homeTake (drainOwn r.2 l.team p.1 pa) true pa p.2
            (if beyondWindow h.2 pa then none else h.1.map (fun cs => bs ++ cs), h.2)) (some [], s)

/-- A mantissa of an operand block (R131, R132, R155): element (i, j) of width w, the tiles of 16 × 16 in row order, or everything transposed. -/
def blockElem (tile tr : Bool) (w blk i j : Nat) : Int :=
  let t := if tile then 16 else 32
  let tileNo := if tile then (if tr then 2 * (j / 16) + i / 16 else 2 * (i / 16) + j / 16) else 0
  let bit := if tr then (j % t) * t + i % t else (i % t) * t + j % t
  let base := tileNo * w * (t * t)
  sextInt w ((List.range w).map (fun q => if blk.testBit (base + q * (t * t) + bit) then 2 ^ q else 0)).sum

/-- The exponent of a block's tile in row tr and column tc of tiles (R155). -/
def blockExp (tile tr : Bool) (w blk ti tj : Nat) : Nat :=
  bits (blk / 2 ^ (8 * (w * 128 + (if tile then (if tr then 2 * tj + ti else 2 * ti + tj) else 0)))) 7 0

/-- The mantissas of a block, row by row. -/
def blockRows (tile tr : Bool) (w blk : Nat) : List (List Int) :=
  (List.range 32).map (fun i => (List.range 32).map (fun j => blockElem tile tr w blk i j))

/-- The columns of a list of rows. -/
def columnsOf (rows : List (List Int)) : List (List Int) := (List.range 32).map (fun j => rows.map (fun r => nthD r j 0))

/-- One K-step's products added to the partial sums (R154). -/
def addStep (sums : List Int) (a b : List (List Int)) : List Int :=
  let cs := columnsOf b
  List.zipWith (fun p q => p + q) sums (a.flatMap (fun r => cs.map (fun c => (List.zipWith (fun u v => u * v) r c).sum)))

/-- A K-step: its blocks read, its products added, its exponents compared with the first step's (R162). -/
def loopStep (s : State) (f : Flush) (k : Nat) : Flush × State :=
  let l := f.loop
  let wa := loopWidth l.srcw false
  let wb := loopWidth l.srcw true
  let ra := operandBytes s l false ((l.abase : Int) + k * l.astep) (blockBytes wa)
  let rb := operandBytes ra.2 l true ((l.bbase : Int) + k * l.bstep) (blockBytes wb)
  match ra.1, rb.1 with
  | some ab, some bb =>
    let ta := decide (bits l.srcw.toNat 20 20 = 1)
    let tb := decide (bits l.srcw.toNat 21 21 = 1)
    let x := natOfBytes ab
    let y := natOfBytes bb
    let ea (i j : Nat) : Nat := if l.tile then blockExp true ta wa x i j else blockExp false ta wa x 0 0
    let eb (i j : Nat) : Nat := if l.tile then blockExp true tb wb y i j else blockExp false tb wb y 0 0
    let pairs := decide (ea 0 0 = ea 0 1) && decide (ea 1 0 = ea 1 1) && decide (eb 0 0 = eb 1 0) && decide (eb 0 1 = eb 1 1)
    let f1 := if k = 0 then { f with ea0 := ea 0 0, ea1 := ea 1 0, eb0 := eb 0 0, eb1 := eb 0 1 } else f
    let same := decide (f1.ea0 = ea 0 0) && decide (f1.ea1 = ea 1 0) && decide (f1.eb0 = eb 0 0) && decide (f1.eb1 = eb 0 1)
    ({ f1 with sums := addStep f1.sums (blockRows l.tile ta wa x) (blockRows l.tile tb wb y), mismatch := f1.mismatch || !pairs || !same }, rb.2)
  | _, _ => ({ f with poisoned := true }, rb.2)

/-- The first n K-steps of an MLOOP as one part, to be flushed (R154, R164). -/
def runLoop (s : State) (l : MLoop) (n : Nat) (last : Bool) : Flush × State :=
  (List.range n).foldl (fun (r : Flush × State) k => loopStep r.2 r.1 k)
    ({ loop := l, sums := List.replicate 1024 0, ea0 := 0, ea1 := 0, eb0 := 0, eb1 := 0, mismatch := false, poisoned := false, last := last }, s)

/-- The first MLOOP of a core's queue that may run: no earlier one of its team is queued, and the cards it is ordered after are done (R89, R159). -/
def nextLoop (s : State) : List MLoop → List Nat → Option MLoop
  | [], _ => none
  | l :: rest, seen =>
    if !seen.contains l.team && l.after.all (fun i => s.cards.all (fun d => decide (d.id ≠ i) || decide (d.status ≠ 1))) then some l
    else nextLoop s rest (l.team :: seen)

/-- MLOOP_START (R159): the sequencer runs the next MLOOP's K-steps; the model reads its operands in this one step (log 30). -/
def startLoop (s : State) (core : Nat) : State :=
  match nextLoop s (s.core core).sequencer [] with
  | none => s
  | some l =>
    let r := runLoop s l l.ksteps true
    r.2.updCore core (fun c => { c with sequencer := c.sequencer.filter (fun k => decide (k.id ≠ l.id)), flushes := c.flushes ++ [r.1] })

def execMloopStart (core : Nat) (s : State) : Host.Outcome State Fault Refusal := .next (if s.trust.halted then s else startLoop s core)

/-! ## Flushes at home (R36, R37, R160 to R163) -/

/-- A saturating 64-bit sum (R36) and whether it saturated. -/
def addSat (x y : Int) : Nat × Bool :=
  let v := x + y
  if v < -(2 ^ 63 : Nat) then (2 ^ 63, true) else if (2 ^ 63 : Nat) ≤ v then (2 ^ 63 - 1, true) else (wrapNat 64 v, false)

/-- The chain a flush records in a header (R161): the bits but INIT, SAT and MISMATCH. -/
def chainOf (f : Flush) : Nat :=
  let w := f.loop.srcw.toNat
  (if f.loop.tile then 2 ^ 13 else 0) + bits w 16 14 * 2 ^ 14 + bits w 19 17 * 2 ^ 17 +
  f.ea0 * 2 ^ 32 + f.ea1 * 2 ^ 40 + f.eb0 * 2 ^ 48 + f.eb1 * 2 ^ 56

/-- The chain bits of a header. -/
def headerChain (h : Nat) : Nat := bits h 13 13 * 2 ^ 13 + bits h 16 14 * 2 ^ 14 + bits h 19 17 * 2 ^ 17 + bits h 63 32 * 2 ^ 32

/-- The home slice serves a flush (R162): the fault it leaves on the batch (0 none, 1 SCALE, 2 INTEGRITY). One that finds its tile removed from a window
merges nothing (R29; log 76). -/
def serveFlush (s : State) (f : Flush) : Nat × State :=
  let l := f.loop
  let p := recallJudged s false l.hdrPa 8
  let q := recallJudged p.2 false l.accPa 8192
  if f.poisoned || beyondWindow s l.accPa || beyondWindow s l.hdrPa || p.1 || q.1 then (2, q.2)
  else
    let h := homeRead q.2 l.hdrPa 8
    if f.mismatch ∨ (h.1 % 2 = 1 ∧ headerChain h.1 ≠ chainOf f) then (1, homeWrite h.2 l.hdrPa (bytesOf 8 (h.1 ||| 4)))
    else
      let t := homeRead h.2 l.accPa 8192
      let es := (List.range 1024).map (fun k => addSat (sextInt 64 (t.1 / 2 ^ (64 * k) % 2 ^ 64)) (nthD f.sums k 0))
      let sat := if es.any Prod.snd then 2 else 0
      let h1 := (if h.1 % 2 = 1 then h.1 else chainOf f + 1 + bits h.1 2 1 * 2) ||| sat
      let s1 := homeWrite t.2 l.accPa (es.flatMap (fun e => bytesOf 8 e.1))
      (0, homeWrite s1 l.hdrPa (bytesOf 8 h1))

/-- The worse of two faults: INTEGRITY before SCALE (R166). -/
def worse (a b : Nat) : Nat := if a < b then b else a

/-- A served part's mark on its batch (R165, R166). -/
def batchPart (b : MBatch) (l : MLoop) (fault : Nat) (last : Bool) : MBatch :=
  { b with
    fault := worse b.fault fault, loops := if last then b.loops.filter (fun i => decide (i ≠ l.id)) else b.loops,
    pins := if last then b.pins ++ l.pins else b.pins }

/-- A served part's mark on its team (R164 to R166): the fault on its batch; with the last part the MLOOP is served, and a batch with no MLOOP left is
accepted, its pins removed. The batches of a team that is gone go on (R384). -/
def loopServed (s : State) (l : MLoop) (fault : Nat) (last : Bool) : State :=
  match tblGet s.teams l.team with
  | none =>
    (match s.orphans.find? (fun b => b.loops.contains l.id) with
    | some b =>
      let b1 := batchPart b l fault last
      let os := s.orphans.erase b
      if b1.loops = [] then unpinAll { s with orphans := os } b1.pins else { s with orphans := os ++ [b1] }
    | none => if last then unpinAll s l.pins else s)
  | some t =>
    match t.batches.find? (fun b => b.loops.contains l.id) with
    | some b =>
      let b1 := batchPart b l fault last
      let s1 := if b1.loops = [] then unpinAll s b1.pins else s
      let b2 := if b1.loops = [] then { b1 with pins := [] } else b1
      s1.updTeam l.team (fun t => { t with batches := t.batches.map (fun c => if c.num = b.num then b2 else c) })
    | none =>
      s.updTeam l.team (fun t => { t with
        openLoops := t.openLoops.map (fun o => if o.id = l.id then
          { o with served := o.served || last, fault := worse o.fault fault, pins := if last then l.pins else o.pins } else o) })

/-- MLOOP_FLUSH (R162): the core's oldest flush reaches its home slice. -/
def flushNext (s : State) (core : Nat) : State :=
  match (s.core core).flushes with
  | [] => s
  | f :: rest =>
    let r := serveFlush (s.updCore core (fun c => { c with flushes := rest })) f
    loopServed r.2 f.loop r.1 f.last

def execMloopFlush (core : Nat) (s : State) : Host.Outcome State Fault Refusal := .next (if s.trust.halted then s else flushNext s core)

/-! ## Batches (R165, R166, R303, R304) -/

/-- The number after n: from 0xFFFF_FFFF to 1. -/
def nextBatch (n : Nat) : Nat := if n = 0xFFFFFFFF then 1 else n + 1

/-- How many numbers a batch number lies behind the latest one. -/
def batchAge (t : Team) (n : Nat) : Nat := (t.batchNum + 0xFFFFFFFF - n) % 0xFFFFFFFF

/-- MBATCH (R303): the open MLOOPs become a batch, an empty one or one whose MLOOPs are served is accepted at once; 64 unaccepted make it wait. -/
def mbatchBody (d : Sel) (s : State) (x : Issue) : Eff :=
  if !isSreg d then trapExec .illegalOp s x
  else if 64 ≤ (x.t.batches.filter (fun b => decide (b.loops ≠ []))).length then .wait s
  else
    let n := nextBatch x.t.batchNum
    let os := x.t.openLoops
    let b : MBatch :=
      { num := n, loops := (os.filter (fun o => !o.served)).map OpenLoop.id, fault := os.foldl (fun f o => worse f o.fault) 0, reported := false,
        pins := os.flatMap OpenLoop.pins }
    let s1 := if b.loops = [] then unpinAll s b.pins else s
    .done (s1.updTeam x.u (fun t =>
      let t1 := { t with batchNum := n, openLoops := [] }
      let keep := t1.batches.filter (fun c => decide (c.loops ≠ []) || decide (batchAge t1 c.num < 64))
      writeWord { t1 with batches := keep ++ [if b.loops = [] then { b with pins := [] } else b] } 0 d (BitVec.ofNat 32 n)))

def execMbatch (d : Sel) (s : State) : Host.Outcome State Fault Refusal :=
  issue (.mbatch d) (plainForm anyType (fun _ => [dst d 1])) (mbatchBody d) s

/-- The batches an MWAIT of n awaits: those numbered up to n within the last 64 numbers. -/
def awaitedBatches (t : Team) (n : Nat) : List MBatch :=
  if n = 0 ∨ 64 ≤ batchAge t n then [] else t.batches.filter (fun b => decide (batchAge t n ≤ batchAge t b.num) && decide (batchAge t b.num < 64))

/-- MWAIT (R166, R304): it waits for the batches, reports the lowest one's fault once, and acquires. -/
def mwaitBody (a : Sel) (s : State) (x : Issue) : Eff :=
  let bs := awaitedBatches x.t (x.uval a 1)
  if bs.any (fun b => decide (b.loops ≠ [])) then holdTeam s x
  else
    match bs.find? (fun b => decide (b.fault ≠ 0) && !b.reported) with
    | some b =>
      .trap (s.updTeam x.u (fun t => { t with batches := t.batches.map (fun c => if c.num = b.num then { c with reported := true } else c) }))
        { trapOf (if b.fault = 2 then .integrity else .scale) x.t.exec with detail := BitVec.ofNat 32 b.num }
    | none => acquireThen s x .done

def execMwait (a : Sel) (s : State) : Host.Outcome State Fault Refusal :=
  issue (.mwait a) (plainForm anyType (fun _ => [named a 1])) (mwaitBody a) s

/-! ## Quantising to BFP (R131, R169, R308, R311) -/

/-- An exact value's magnitude lies below 2^k. -/
def belowPow : FpVal → Int → Bool
  | .nan _, _ => true
  | .inf _, _ => false
  | .fin _ m e, k => decide (m = 0) || decide (e + (Nat.log2 m : Int) < k)

/-- The exponent chosen for values (R169, R308, R311): the least of 0 to 0xFE whose unit covers them, 0xFE when none does (an infinity, or a magnitude of
2^127 or more: log 31), 0xFF when one is a NaN. -/
def chooseExp (xs : List FpVal) : Nat :=
  if xs.any isNan then 0xFF
  else ((List.range 0xFF).find? (fun (e : Nat) => xs.all (fun x => belowPow x ((e : Int) - 127)))).getD 0xFE

/-- A mantissa (R169): x / 2^(E − 127 − (w − 1)) rounded and saturated, with its FPST bits. -/
def quantise (rnd w e : Nat) (x : FpVal) : Int × BitVec 5 :=
  let top : Int := 2 ^ (w - 1) - 1
  let low : Int := -(2 ^ (w - 1))
  match x with
  | .nan _ => (0, 0)
  | .inf n => (if n then low else top, fpOF ||| fpNX)
  | .fin n m ex =>
    let p := splitAt m ex false ((e : Int) - 127 - ((w : Int) - 1))
    let q : Int := ((p.1 + (if roundsUp rnd n (decide (p.1 % 2 = 1)) p.2 then 1 else 0) : Nat) : Int)
    let v : Int := if n then -q else q
    let nx : BitVec 5 := if p.2 = 0 then 0 else fpNX
    if top < v then (top, fpOF ||| fpNX) else if v < low then (low, fpOF ||| fpNX) else (v, nx)

/-- Free bytes for those of an exponent group that R155 calls ignored: the spec states no value for them where a block is written (log 104). -/
def freePad (s : State) : List Byte × State :=
  let q := drawWords 4 s
  (q.1.flatMap (fun w => bytesOf 4 w.toNat), q.2)

/-- An operand block (R155) of 32 × 32 values: its bytes, the ignored ones of the exponent group taken from pad, and FPST bits. force gives every tile's
exponent; a NaN's tile has exponent 0xFF and mantissas 0; zeroed says that a forced 0xFF makes mantissas 0 (R308). -/
def blockOf (pad : List Byte) (tile tr zeroed : Bool) (rnd w : Nat) (force : Option Nat) (val : Nat → Nat → FpVal) : List Byte × BitVec 5 :=
  let t := if tile then 16 else 32
  let n := if tile then 2 else 1
  let tiles := (List.range n).flatMap (fun p => (List.range n).map (fun q => if tr then (q, p) else (p, q)))
  let one (p : Nat × Nat) : Nat × List Byte × BitVec 5 :=
    let xs := (List.range t).flatMap (fun i => (List.range t).map (fun j => val (t * p.1 + i) (t * p.2 + j)))
    let e := if xs.any isNan then 0xFF else match force with
      | some f => f
      | none => chooseExp xs
    let zero := xs.any isNan || (zeroed && decide (e = 0xFF))
    let qs := if zero then [] else xs.map (quantise rnd w e)
    let ms := qs.map (fun r => wrapNat w r.1)
    let m (i j : Nat) : Nat := nthD ms (t * i + j) 0
    let plane (q : Nat) : List Byte :=
      bytesOfBits (t * t / 8) (fun b => let i := b / t; let j := b % t; (if tr then m j i else m i j).testBit q)
    (e, (List.range w).flatMap plane, qs.foldl (fun f r => f ||| r.2) 0)
  let os := tiles.map one
  (os.flatMap (fun o => o.2.1) ++ (os.map (fun o => BitVec.ofNat 8 o.1)) ++ pad.take (16 - n * n), os.foldl (fun f o => f ||| o.2.2) 0)

/-! ## MDRAIN (R167, R168, R305 to R309) -/

/-- A row of a scale vector, flushed under FTZ. -/
def scaleVal (ftz : Bool) (bs : List Byte) (i : Nat) : FpVal :=
  fpDecode fmtFp32 (fpFlush ftz fmtFp32 (natOfBytes ((bs.drop (4 * i)).take 4)))

/-- The exact value of an element (R167, R308) and its FPST bits: the accumulator's integer, its scale by the header, the row and column scales. -/
def drainVal (h : Nat) (acc : Int) (i j : Nat) (sr sc : FpVal) : FpVal × BitVec 5 :=
  let ea := if i < 16 then bits h 39 32 else bits h 47 40
  let eb := if j < 16 then bits h 55 48 else bits h 63 56
  if h % 2 = 0 then (.fin false 0 0, 0)
  else if ea = 0xFF ∨ eb = 0xFF then (.nan false, 0)
  else
    let e : Int := (ea : Int) + eb - bits h 16 14 - bits h 19 17 - 254
    let neg (v : FpVal) : Bool := match v with
      | .nan _ => false
      | .inf n => n
      | .fin n _ _ => n
    let zero (v : FpVal) : Bool := match v with
      | .fin _ m _ => decide (m = 0)
      | _ => false
    let infinite (v : FpVal) : Bool := match v with
      | .inf _ => true
      | _ => false
    let sign := (decide (acc < 0)) != (neg sr != neg sc)
    if isNan sr || isNan sc then (.nan false, sigNV sr ||| sigNV sc)
    else if infinite sr || infinite sc then
      if decide (acc = 0) || zero sr || zero sc then (.nan false, fpNV) else (.inf sign, 0)
    else
      match sr, sc with
      | .fin _ m1 e1, .fin _ m2 e2 => (.fin sign (acc.natAbs * m1 * m2) (e + e1 + e2), 0)
      | _, _ => (.nan false, 0)

/-- An exact value rounded to a format (R167); FTZ acts on the output. -/
def roundVal (f : FpFmt) (rnd : Nat) (ftz : Bool) : FpVal → Nat × BitVec 5
  | .nan _ => (f.nan, 0)
  | .inf n => (fpSign f n + f.infBits, 0)
  | .fin n m e => fpFlushOut ftz f (fpRoundZ f rnd n n m e false)

/-- What an MDRAIN was given (R305, R306). -/
structure Drain where
  acc : Nat
  hdr : Nat
  out : Nat
  rscale : Nat
  cscale : Nat
  ostride : Int
  ctrl : Nat
  deriving DecidableEq, Repr

def drainOf (x : Issue) (k : Nat) : Drain :=
  { acc := blockPair x k, hdr := blockPair x (k + 2), out := blockPair x (k + 4), rscale := blockPair x (k + 6), cscale := blockPair x (k + 8),
    ostride := sextInt 32 (blockWord x (k + 10)), ctrl := blockWord x (k + 11) }

def Drain.fmt (d : Drain) : Nat := bits d.ctrl 1 0
def Drain.clear (d : Drain) : Bool := decide (bits d.ctrl 2 2 = 1)

/-- Bytes of an output row, or of the block. -/
def Drain.rowBytes (d : Drain) (w : Nat) : Nat := if d.fmt = 0 then 128 else if d.fmt = 1 then 64 else blockBytes w

/-- First byte and length of OUT (R307). -/
def Drain.extent (d : Drain) (w : Nat) : Int × Nat := if d.fmt = 2 then ((d.out : Int), blockBytes w) else runExtent d.out 32 d.ostride (d.rowBytes w)

/-- Fields and values that R305 and R306 reserve. -/
def drainFieldsOk (d : Drain) (w : Nat) : Bool :=
  decide (bits d.ctrl 31 16 = 0) && decide (bits d.ctrl 7 5 = 0) && decide (d.fmt ≠ 3) &&
  (if d.fmt = 2 then decide (d.ostride = 0) && (decide (bits d.ctrl 4 4 = 1) || decide (bits d.ctrl 15 8 = 0))
   else decide (bits d.ctrl 15 8 = 0) && decide (bits d.ctrl 4 3 = 0) && decide (d.ostride % 16 = 0) && decide (d.rowBytes w ≤ d.ostride.natAbs)) &&
  (let e := d.extent w
   !(decide (e.1 < (d.acc : Int) + 8192) && decide ((d.acc : Int) < e.1 + e.2)) && !(decide (e.1 < (d.hdr : Int) + 64) && decide ((d.hdr : Int) < e.1 + e.2)))

/-- A matrix read, or read and write, of the accumulator (R60, R307, R312). -/
def needTile (read write : Bool) : Need := { r := read, w := write, x := false, kind := 5 }

/-- The output run: a window run's bounds, and its pages. -/
def outWindow (t : Team) (d : Drain) (w : Nat) (s : State) : RunRes × State :=
  let e := d.extent w
  if isWindowVa d.out then
    if e.1 < 0 ∨ e.1.toNat / 2 ^ 44 ≠ d.out / 2 ^ 44 then (.ends (.held .window 0), s) else windowRun t e.1.toNat e.2 s
  else (.ok, s)

def outPages (t : Team) (d : Drain) (w : Nat) (f : PageTest) (s : State) : RunRes × State :=
  let e := d.extent w
  if isWindowVa d.out then placeRun t needW f e.1.toNat e.2 s else pagesOf t.cfg needW f e.1 e.2 s

/-- A scale run's checks; address 0 names none. -/
def scaleWindow (t : Team) (va : Nat) (s : State) : RunRes × State := if va = 0 then (.ok, s) else windowRun t va 128 s
def scalePages (t : Team) (f : PageTest) (va : Nat) (s : State) : RunRes × State := if va = 0 then (.ok, s) else placeRun t needR f va 128 s

/-- The checks of R307, in order. -/
def drainChecks (x : Issue) (d : Drain) (w : Nat) : List (State → RunRes × State) :=
  let t := x.t
  let n := needTile true d.clear
  [ demand (drainFieldsOk d w) .illegalOp,
    demand (decide (d.acc % 8192 = 0) && decide (d.hdr % 64 = 0) && decide (d.out % 16 = 0) && decide (d.rscale % 16 = 0) &&
      decide (d.cscale % 16 = 0) && headerPlaced d.acc d.hdr) .align,
    outWindow t d w, scaleWindow t d.rscale, scaleWindow t d.cscale,
    pagesOf t.cfg n anyPage d.acc 8192, pagesOf t.cfg n anyPage d.hdr 64, outPages t d w anyPage, scalePages t anyPage d.rscale,
    scalePages t anyPage d.cscale,
    pagesOf t.cfg n accumPage d.acc 8192, pagesOf t.cfg n accumPage d.hdr 64,
    outPages t d w layerPage, scalePages t layerPage d.rscale, scalePages t layerPage d.cscale ]

/-- A scale vector's bytes: 32 times 1.0 for address 0. -/
def scaleBytes (s : State) (x : Issue) (va : Nat) : Option (List Byte) × State :=
  if va = 0 then (some ((List.replicate 32 (bytesOf 4 0x3F800000)).flatten), s) else readRun s x.u x.t va 128

/-- The rows an MDRAIN writes, with their addresses, and its FPST bits. -/
def drainRows (x : Issue) (d : Drain) (h tile : Nat) (rs cs pad : List Byte) : List (Nat × List Byte) × BitVec 5 :=
  let rnd := modeRnd x.t.mode
  let ftz := modeFtz x.t.mode
  let w := modeBfpw x.t.mode + 1
  let el (i j : Nat) : FpVal × BitVec 5 :=
    drainVal h (sextInt 64 (tile / 2 ^ (64 * (32 * i + j)) % 2 ^ 64)) i j (scaleVal ftz rs i) (scaleVal ftz cs j)
  let ids := List.range 32
  let pre := ids.foldl (fun f i => ids.foldl (fun f j => f ||| (el i j).2) f) (0 : BitVec 5)
  if d.fmt = 2 then
    let b := blockOf pad (modeTile x.t.mode) (decide (bits d.ctrl 3 3 = 1)) true rnd w (if bits d.ctrl 4 4 = 1 then some (bits d.ctrl 15 8) else none)
      (fun i j => (el i j).1)
    ([(d.out, b.1)], pre ||| b.2)
  else
    let f := if d.fmt = 0 then fmtFp32 else fmtBf16
    let rows := ids.map (fun (i : Nat) =>
      let vs := ids.map (fun j => roundVal f rnd ftz (el i j).1)
      ((((d.out : Int) + i * d.ostride).toNat, vs.flatMap (fun v => bytesOf (f.width / 8) v.1)), vs.foldl (fun e v => e ||| v.2) (0 : BitVec 5)))
    (rows.map Prod.fst, rows.foldl (fun e r => e ||| r.2) pre)

/-- MDRAIN (R308, R309): it waits for the team's MLOOPs, the team's own accesses to the tile and the header reach home before it, it reads everything, clears if
asked, and writes; the team issues nothing until every byte is written. -/
def mdrainBody (a : Sel) (s : State) (x : Issue) : Eff :=
  match blockReg a 20 with
  | none => trapExec .illegalOp s x
  | some k =>
    let d := drainOf x k
    let w := modeBfpw x.t.mode + 1
    checksThen (drainChecks x d w) s x (fun s =>
      if teamLoops s x.u ≠ [] then holdTeam s x
      else
        let n := needTile true d.clear
        let pa := accumPa s x.t.cfg d.acc n
        let hp := accumPa s x.t.cfg d.hdr n
        let r1 := scaleBytes (drainTile s x.u d.acc pa d.hdr hp) x d.rscale
        let r2 := scaleBytes r1.2 x d.cscale
        match r1.1, r2.1 with
        | some rs, some cs =>
          let hj := recallJudged r2.2 false hp 8
          let tj := recallJudged hj.2 false pa 8192
          if hj.1 || tj.1 then trapExec .integrity tj.2 x
          else
            let h := homeRead tj.2 hp 8
            let t := homeRead h.2 pa 8192
            let p := if d.fmt = 2 then freePad t.2 else ([], t.2)
            let o := drainRows x d h.1 t.1 rs cs p.1
            let s1 := if d.clear then homeWrite (homeWrite p.2 pa (List.replicate 8192 0)) hp (List.replicate 8 0) else p.2
            let s2 := o.1.foldl (fun s r => writeRun s x.u (lowestLane x) x.t r.1 r.2) s1
            .done (settleStores (s2.updTeam x.u (fun t => orFpst t o.2)) x.u x.t.cfg)
        | _, _ => trapExec .integrity r2.2 x)

def execMdrain (a : Sel) (s : State) : Host.Outcome State Fault Refusal :=
  issue (.mdrain a) { plainForm anyType (fun _ => [named a 1]) with mem := true } (mdrainBody a) s

/-! ## MQUANT (R310, R311) -/

/-- The checks of R311, in order. -/
def quantChecks (x : Issue) (src dst ctrl : Nat) (stride : Int) (w : Nat) : List (State → RunRes × State) :=
  let t := x.t
  let e := runExtent src 32 stride 128
  [ demand (isWindowVa src && decide (bits ctrl 31 16 = 0) && decide (bits ctrl 7 5 = 0) && decide (bits ctrl 2 0 = 0) &&
      (decide (bits ctrl 4 4 = 1) || decide (bits ctrl 15 8 = 0)) &&
      decide (stride % 16 = 0) && decide (128 ≤ stride.natAbs)) .illegalOp,
    demand (decide (src % 16 = 0) && decide (dst % 16 = 0)) .align,
    fun s => if e.1 < 0 ∨ e.1.toNat / 2 ^ 44 ≠ src / 2 ^ 44 then (.ends (.held .window 0), s) else windowRun t e.1.toNat e.2 s,
    windowRun t dst (blockBytes w),
    fun s => match window s t src 4 with
      | .malformed => (.ends (.held .invalidAddr 0), s)
      | _ => (.ok, s),
    placeRun t needW anyPage dst (blockBytes w),
    placeRun t needW layerPage dst (blockBytes w) ]

/-- MQUANT (R311): the whole source is read, then the block written; the team issues nothing until it is. -/
def mquantBody (a : Sel) (s : State) (x : Issue) : Eff :=
  match blockReg a 24 with
  | none => trapExec .illegalOp s x
  | some k =>
    let src := blockPair x k
    let dst := blockPair x (k + 2)
    let stride := sextInt 32 (blockWord x (k + 4))
    let ctrl := blockWord x (k + 5)
    let w := modeBfpw x.t.mode + 1
    checksThen (quantChecks x src dst ctrl stride w) s x (fun s =>
      let rows := (List.range 32).map (fun (i : Nat) => (readRun s x.u x.t ((src : Int) + (i : Int) * stride).toNat 128).1)
      if rows.any Option.isNone then trapExec .integrity s x
      else
        let ftz := modeFtz x.t.mode
        let val (i j : Nat) : FpVal := scaleVal ftz ((nthD rows i none).getD []) j
        let p := freePad s
        let b := blockOf p.1 (modeTile x.t.mode) (decide (bits ctrl 3 3 = 1)) false 0 w (if bits ctrl 4 4 = 1 then some (bits ctrl 15 8) else none) val
        let nv : BitVec 5 := if (List.range 32).any (fun i => (List.range 32).any (fun j => isNan (val i j))) then fpNV else 0
        .done (settleStores ((writeRun p.2 x.u (lowestLane x) x.t dst b.1).updTeam x.u (fun t => orFpst t (b.2 ||| nv))) x.u x.t.cfg))

def execMquant (a : Sel) (s : State) : Host.Outcome State Fault Refusal :=
  issue (.mquant a) { plainForm anyType (fun _ => [named a 1]) with mem := true } (mquantBody a) s

/-! ## MZERO (R312) -/

/-- An even s register. -/
def evenSreg : Sel → Bool
  | .s k => decide (k % 2 = 0)
  | _ => false

/-- MZERO (R312): it waits for the team's MLOOPs that name the tile, the team's own accesses to the tile and the header reach home before it, then it clears
both. -/
def mzeroBody (a b : Sel) (s : State) (x : Issue) : Eff :=
  if !(evenSreg a && evenSreg b) then trapExec .illegalOp s x
  else
    let acc := x.uval a 2
    let hdr := x.uval b 2
    let n := needTile false true
    checksThen
      [ demand (decide (acc % 8192 = 0) && decide (hdr % 64 = 0) && headerPlaced acc hdr) .align,
        pagesOf x.t.cfg n anyPage acc 8192, pagesOf x.t.cfg n anyPage hdr 64,
        pagesOf x.t.cfg n accumPage acc 8192, pagesOf x.t.cfg n accumPage hdr 64 ] s x (fun s =>
      let pa := accumPa s x.t.cfg acc n
      let hp := accumPa s x.t.cfg hdr n
      if (teamLoops s x.u).any (fun l => decide (l.accPa = pa)) then holdTeam s x
      else .done (homeWrite (homeWrite (drainTile s x.u acc pa hdr hp) pa (List.replicate 8192 0)) hp (List.replicate 8 0)))

def execMzero (a b : Sel) (s : State) : Host.Outcome State Fault Refusal :=
  issue (.mzero a b) { plainForm anyType (fun _ => [named a 1, named b 1]) with mem := true } (mzeroBody a b) s

end Sys2Proof.Machine
end

