-- ==== Sys2Proof/Machine/Sched.lean ====
section
/-! DEFINITION. The schedule of a core (R354 to R357): which teams are sleeping, ready, ACTIVE or PENDING, the swap of one for another, and the
memory permits. -/

namespace Sys2Proof.Machine

/-- A QPOP or QLOCK not yet answered counts on one of the flags of a WAIT field (R354). -/
def sleepsOn (t : Team) (w : Nat) : Bool :=
  t.late.any (fun o => decide (w / 2 ^ o.flag % 2 = 1) && (match o.wait with
    | .qpop _ => true
    | .qlock _ => true
    | _ => false))

/-- The header word of the team's next clause, where it can be fetched. -/
def nextHeader (s : State) (t : Team) : Option Word :=
  match (codeWord s t.cfg t.pc).1 with
  | .ok h => if isHeader h then some h else none
  | .ends _ => none

/-- The first instruction of the team's next clause and its literal. -/
def openingWord (s : State) (t : Team) : Option (Word × Word) :=
  match (codeWord s t.cfg ((t.pc + 4) % 2 ^ 52)).1, (codeWord s t.cfg ((t.pc + 8) % 2 ^ 52)).1 with
  | .ok w, .ok l => some (w, l)
  | .ok w, .ends _ => some (w, 0)
  | .ends _, _ => none

/-- A CWAIT or an MWAIT that opens the clause still waits (R294, R304). -/
def openingWaits (s : State) (t : Team) : Bool :=
  match openingWord s t with
  | none => false
  | some (w, l) =>
    match decode w with
    | .ok (.cwait a) => decide (cardStatus t (readVal t l 0 a 1) = 1)
    | .ok (.mwait a) => (awaitedBatches t (readVal t l 0 a 1)).any (fun b => decide (b.loops ≠ []))
    | _ => false

/-- The team is parked: at a fault, at BAR, at LWAIT (R354). -/
def parkedAt (t : Team) : Bool :=
  match t.wait with
  | .fault => true
  | .bar _ _ _ => true
  | .lwait _ _ => true
  | _ => false

/-- A team sleeps (R354) while it is parked, while MDRAIN, MQUANT or MZERO holds it, while its next clause waits on the flag of a QPOP or QLOCK not yet
answered, while the CWAIT or MWAIT that opens it waits. -/
def sleeping (s : State) (t : Team) : Bool :=
  parkedAt t || (decide (t.wait = .held) && t.captured.isSome) ||
  (decide (t.wait = .none) && t.clause.isNone &&
    (match nextHeader s t with
     | some h => sleepsOn t (hdrWait h) || openingWaits s t
     | none => false))

/-- A team is ready when it is not sleeping and the WAIT flags of its next clause read zero (R354). An entry that must come back from the frame stack
first decides which clause is next: such a team is ready. -/
def teamReady (s : State) (t : Team) : Bool :=
  decide (t.wait = .none) && !t.saved && (t.clause.isSome || arrives t ||
    (match nextHeader s t with
     | some h => waitClear t (hdrWait h) && !openingWaits s t
     | none => true))

/-- A flag that the next clause waits on counts a miss beyond the first level, a fetch-cache miss or a long instruction (R355; log 75). -/
def waitsFar (s : State) (t : Team) : Bool :=
  match nextHeader s t with
  | some h => t.late.any (fun o => decide (hdrWait h / 2 ^ o.flag % 2 = 1) && !o.near)
  | none => false

/-- The team stands at a clause boundary, or is parked (R172). -/
def atBoundary (t : Team) : Bool := (t.clause.isNone && decide (t.wait = .none)) || parkedAt t

/-- The teams of a core that are resident. -/
def residents (s : State) (core : Nat) : List (Nat × Team) := s.teams.filter (fun ut => decide (ut.2.cfg.core = core) && !ut.2.saved)

def actives (s : State) (core : Nat) : List (Nat × Team) := (residents s core).filter (fun ut => ut.2.active)

/-- a comes before b among PENDING teams: higher priority, then longer PENDING (R355). -/
def before (a b : Team) : Bool := decide (b.cfg.prio < a.cfg.prio) || (decide (a.cfg.prio = b.cfg.prio) && decide (a.order < b.order))

/-- The first team of a list in the order of R355. -/
def firstTeam : List (Nat × Team) → Option (Nat × Team)
  | [] => none
  | a :: rest =>
    match firstTeam rest with
    | none => some a
    | some b => if before b.2 a.2 then some b else some a

/-- The ready PENDING team of a core that is taken first. -/
def firstPending (s : State) (core : Nat) : Option (Nat × Team) :=
  firstTeam ((residents s core).filter (fun ut => !ut.2.active && teamReady s ut.2))

/-- A team enters the active set. -/
def activate (s : State) (u : Nat) : State :=
  let q := takeId s
  q.2.updTeam u (fun t => { t with active := true, order := q.1 })

/-- A team leaves the active set: it is PENDING from now, without its permit (R357). -/
def deactivate (s : State) (u : Nat) : State :=
  let q := takeId s
  q.2.updTeam u (fun t => { t with active := false, permit := false, order := q.1 })

/-- The ACTIVE team that gives its place to a PENDING one (R355), at a clause boundary: one that is not ready and sleeps or waits for something far, else
one of lowest priority below the newcomer's. -/
def givesPlace (s : State) (core prio : Nat) : Option Nat :=
  let as := (actives s core).filter (fun ut => atBoundary ut.2)
  match as.find? (fun ut => !teamReady s ut.2 && (sleeping s ut.2 || waitsFar s ut.2)) with
  | some ut => some ut.1
  | none =>
    let low := (actives s core).foldl (fun m ut => if ut.2.cfg.prio < m then ut.2.cfg.prio else m) prio
    (as.find? (fun ut => decide (ut.2.cfg.prio = low) && decide (low < prio))).map Prod.fst

/-- The places of a core's active set that are due change hands (R355): a free one, and that of an ACTIVE team at a clause boundary that gives it up, go to
the ready PENDING team taken first, one after another. -/
def fillPlaces (core : Nat) : Nat → State → State
  | 0, s => s
  | n + 1, s =>
    match firstPending s core with
    | none => s
    | some (u, t) =>
      if (actives s core).length < 8 then fillPlaces core n (activate s u)
      else match givesPlace s core t.cfg.prio with
        | some v => fillPlaces core n (activate (deactivate s v) u)
        | none => s

/-- As many places may change hands as the core has teams. -/
def settlePlaces (s : State) (core : Nat) : State := fillPlaces core (residents s core).length s

/-- The memory-permit count of a core (R357). -/
def permits (s : State) (core : Nat) : Nat :=
  let k := ((actives s core).map (fun ut => ut.2.score)).sum / 64
  if 7 ≤ k then 1 else 8 - k

/-- The permits held. -/
def permitsHeld (s : State) (core : Nat) : Nat := ((actives s core).filter (fun ut => ut.2.permit)).length

/-- A ready team whose next clause holds a memory instruction and which has no permit. -/
def wantsPermit (s : State) (t : Team) : Bool :=
  t.clause.isNone && !arrives t && teamReady s t && !t.permit && (match (fetchClause s t.cfg t.pc).1 with
    | .ok _ mem => mem
    | _ => false)

/-- a is given a free permit before b (R357): higher priority, then lower score, then the round-robin. -/
def permitBefore (a b : Team) : Bool :=
  decide (b.cfg.prio < a.cfg.prio) ||
  (decide (a.cfg.prio = b.cfg.prio) && (decide (a.score < b.score) || (decide (a.score = b.score) && decide (a.order < b.order))))

/-- One of the free permits falls to the team (R357). -/
def permitFor (s : State) (u : Nat) (t : Team) : Bool :=
  decide (permitsHeld s t.cfg.core +
    ((actives s t.cfg.core).filter (fun v => decide (v.1 ≠ u) && wantsPermit s v.2 && permitBefore v.2 t)).length < permits s t.cfg.core)

/-- An ACTIVE team that the issue logic may choose (R356): its clause is in progress, or ready to start. -/
def canIssue (s : State) (ut : Nat × Team) : Bool :=
  decide (ut.2.wait = .none) && (ut.2.clause.isSome || (teamReady s ut.2 && (!wantsPermit s ut.2 || permitFor s ut.1 ut.2)))

/-- The issue logic of its core chooses a team (R356): no other that it may choose has a higher priority, or comes before it in the round-robin among
equals. -/
def chosen (s : State) (u : Nat) (t : Team) : Bool :=
  (actives s t.cfg.core).all (fun v => decide (v.1 = u) || !before v.2 t || !canIssue s v)

/-- Another ACTIVE team of the core has the team's priority. -/
def hasEqual (s : State) (u : Nat) (t : Team) : Bool := (actives s t.cfg.core).any (fun v => decide (v.1 ≠ u) && decide (v.2.cfg.prio = t.cfg.prio))

/-- A team that issues goes behind its equals in the round-robin (R356). -/
def goBehind (s : State) (u : Nat) : State :=
  match tblGet s.teams u with
  | none => s
  | some t =>
    if hasEqual s u t then
      let q := takeId s
      q.2.setTeam u { t with order := q.1 }
    else s

end Sys2Proof.Machine
end

