-- ==== Sys2Proof/Machine/Control.lean ====
section
/-! DEFINITION. Branches, calls and returns, gather arguments, traps and YIELD (R177 to R190, R314 to R322, R331 to R335). Control transfers act on EXEC
alone (R177). -/

namespace Sys2Proof.Machine

/-- The form of a control transfer. -/
def ctlForm (ops : List Opnd) : Form := { plainForm anyType (fun _ => ops) with allExec := true }

/-- The team's record of its trap. -/
def recordAt (s : State) (u : Nat) : Option TrapRec := (tblGet s.areas u).bind Area.record

/-! ## Branches (R177, R225, R226, R316) -/

/-- All of EXEC goes on at a header position. -/
def goAll (pc : Nat) (s : State) (x : Issue) : Eff := .jump (s.setTeam x.u (goOn x.t pc))

/-- The header and the end of the clause in progress. -/
def clausePc (x : Issue) : Nat := (x.t.clause.map Clause.header).getD x.t.pc
def afterClause (x : Issue) : Nat := (x.t.clause.map clauseEnd).getD x.t.pc

/-- The branch target, and BRC's rejoin, that a literal names. -/
def targetOf (x : Issue) : Nat := branchAddr (clausePc x) (bits x.lit.toNat 15 0)
def rejoinOf (x : Issue) : Nat := branchAddr (clausePc x) (bits x.lit.toNat 31 16)

/-- BRA (R316). -/
def execBra (s : State) : Host.Outcome State Fault Refusal := issue .bra (ctlForm []) (fun s x => goAll (targetOf x) s x) s

/-- The entries that a BRC which splits EXEC pushes (R177): JOIN, then PEND on top. -/
def brcEntries (x : Issue) (fall : Mask) : List Reconv :=
  [{ pend := true, mask := fall, pc := afterClause x, rejoin := rejoinOf x, mode := x.t.mode },
   { pend := false, mask := x.t.exec, pc := rejoinOf x, rejoin := rejoinOf x, mode := x.t.mode }]

/-- BRC (R177, R316): with both sets nonempty the entries are pushed and the taken lanes run first. -/
def brcBody (m : Nat) (s : State) (x : Issue) : Eff :=
  let taken := x.t.exec &&& readMask x.t m
  let fall := x.t.exec &&& ~~~ taken
  if taken = 0 then goAll (afterClause x) s x
  else if fall = 0 then goAll (targetOf x) s x
  else
    let push (t : Team) : Team := { t with reconv := brcEntries x fall ++ t.reconv }
    if x.t.cfg.fssize < frameUse (fitStacks (push x.t)) then trapExec .frame s x
    else frameThen s x (fun t => .ok (goTo { push t with exec := taken } (targetOf x))) .jump

def execBrc (m : Nat) (s : State) : Host.Outcome State Fault Refusal := issue (.brc m) (ctlForm []) (brcBody m) s

/-- BRU (R316). -/
def bruBody (a : Sel) (s : State) (x : Issue) : Eff := goAll (if x.uval a 1 ≠ 0 then targetOf x else afterClause x) s x

def execBru (a : Sel) (s : State) : Host.Outcome State Fault Refusal := issue (.bru a) (ctlForm [src a 1]) (bruBody a) s

/-! ## CALL (R180, R317) -/

/-- The register a VREG operand names. -/
def vregOf (x : Sel) : Nat :=
  match x with
  | .v k => k
  | _ => 0

/-- Poisoned argument registers of the callers: INTEGRITY before anything is done (R385). -/
def poisonedArgs (t : Team) (va narg : Nat) (m : Mask) : Mask := poisonedLanes t [src (.v va) narg] m

/-- A trap of INTEGRITY for the lanes that read poison, the instruction pending for all of EXEC. -/
def poisonTrap (s : State) (x : Issue) (bad : Mask) : Eff := .trap s { trapOf .integrity bad with pending := x.t.exec }

/-- The header words of a CALL's target: those fetched with the clause (R214), else fetched now. -/
def callHeader (c : Clause) (lit : Word) (s : State) (x : Issue) (k : FnHdr → State → Eff) : Eff :=
  match c.target with
  | [w0, w1] => (match fnHeader w0 w1 with
    | some h => k h s
    | none => .jump (clauseTrap s x.u (trapOf .illegalClause x.t.exec)))
  | _ =>
    let f := codeWords x.t.cfg 3 (callAddr c.header lit) s
    match f.1 with
    | .error e => runEnds f.2 x e
    | .ok ws => (match fnWords ws with
      | some (h, _, _) => k h f.2
      | none => .jump (clauseTrap f.2 x.u (trapOf .illegalClause x.t.exec)))

/-- CALL with the flags clear: steps 2 to 5 of R180, and the callee begins. -/
def callTo (vd va : Nat) (c : Clause) (h : FnHdr) (s : State) (x : Issue) : Eff :=
  let call (t : Team) : Except TrapClass Team := tryCall t h (callAddr c.header x.lit) vd va t.exec (clauseEnd c) []
  match call x.t with
  | .error k => trapExec k s x
  | .ok _ =>
    let bad := poisonedArgs x.t va h.narg x.t.exec
    if bad ≠ 0 then poisonTrap s x bad else frameThen s x call .jump

def callBody (d a : Sel) (s : State) (x : Issue) : Eff :=
  flagsThen s x (fun s t =>
    match t.clause with
    | none => .wait s
    | some c => callHeader c x.lit s { x with t := t, exec := t.exec } (fun h s => callTo (vregOf d) (vregOf a) c h s { x with t := t, exec := t.exec }))

def execCall (d a : Sel) (s : State) : Host.Outcome State Fault Refusal := issue (.call d a) (ctlForm [named d 1, named a 1]) (callBody d a) s

/-! ## CALLI (R189, R318) -/

/-- A CALLI lane's target, as the access it makes: the one captured when the CALLI parked (R377), else vt's. -/
def calliLanes (x : Issue) (vt : Sel) : List LaneAcc :=
  (slotsOf x.t.cfg.capacity x.t.exec).map (fun k =>
    { slot := k, ea := ((tblGet x.t.kept k).map Prod.fst).getD (x.val k vt 2), data := 0, cmp := 0 })

/-- How the fetch of a lane's header ends: its two words, a page to wait for, a held class, or ILLEGAL_CLAUSE for its group. -/
inductive CalliLane where
  | ok (w0 w1 : Word)
  | malformed
  | park (c : ParkCause)
  | held (c : TrapClass) (detail : Word)
  deriving DecidableEq, Repr

/-- What has been decided for a lane, to be kept while the CALLI is parked. -/
def keptOf : CalliLane → Option CalliKept
  | .ok w0 w1 => some (.header w0 w1)
  | .malformed => some .malformed
  | .park _ => none
  | .held c d => some (.held c d)

def laneOfKept : CalliKept → CalliLane
  | .header w0 w1 => .ok w0 w1
  | .malformed => .malformed
  | .held c d => .held c d

/-- Step 1 of R189 for a lane not yet decided; accesses marked for delivery give their class (R70). -/
def calliJudge (x : Issue) (vt : Sel) (l : LaneAcc) (s : State) : CalliLane × State :=
  if poisonedLanes x.t [src vt 2] (slotMask l.slot) ≠ 0 then (.held .integrity 0, s)
  else if bits l.ea 63 52 ≠ 0 then (.held .invalidAddr 0, s)
  else if l.ea % 4 ≠ 0 then (.held .align 0, s)
  else
    let f := codeWords x.t.cfg 3 l.ea s
    match f.1 with
    | .ok ws => (match fnWords ws with
      | some (_, w0, w1) => (.ok w0 w1, f.2)
      | none => (.malformed, f.2))
    | .error .done => (.malformed, f.2)
    | .error (.held c d) => (.held c d, f.2)
    | .error (.park c) =>
      (match (match c with
        | .page a => (x.t.marked.find? (fun m => decide (m.1 = a))).map Prod.snd
        | _ => none) with
      | some k => (.held k 0, f.2)
      | none => (.park c, f.2))

/-- Step 1 for a lane: a lane's outcome is decided once (R377). -/
def calliFetch (x : Issue) (vt : Sel) (l : LaneAcc) (s : State) : CalliLane × State :=
  match (tblGet x.t.kept l.slot).bind Prod.snd with
  | some k => (laneOfKept k, s)
  | none => calliJudge x vt l s

/-- Step 1 for every lane. -/
def calliFetches (x : Issue) (vt : Sel) : List LaneAcc → State → List (LaneAcc × CalliLane) × State
  | [], s => ([], s)
  | l :: rest, s =>
    let r := calliFetch x vt l s
    let q := calliFetches x vt rest r.2
    ((l, r.1) :: q.1, q.2)

/-- The trap of step 1: the lowest class held; no lane has been performed (log 16). -/
def calliHeld (s : State) (x : Issue) (ls : List LaneAcc) (hs : List HeldLane) : Eff :=
  .trap s { heldTrap hs with pending := x.t.exec, addr := ls.foldl (fun a l => tblSet a l.slot l.ea) [] }

/-- The lanes of each distinct target with its header words, targets ascending. -/
def calliGroups (ls : List (LaneAcc × CalliLane)) : Tbl (Option (Word × Word) × Mask) :=
  ls.foldl (fun g l =>
    let h := match l.2 with
      | .ok w0 w1 => some (w0, w1)
      | _ => none
    let m := ((tblGet g l.1.ea).map Prod.snd).getD 0
    tblSet g l.1.ea (h, m ||| slotMask l.1.slot)) []

/-- Step 2 for a group, from the state of the CALLI: the class it fails with. -/
def groupFails (x : Issue) (vd va retPc : Nat) (g : Nat × Option (Word × Word) × Mask) : Option TrapClass :=
  match g.2.1.bind (fun w => fnHeader w.1 w.2) with
  | none => some .illegalClause
  | some h =>
    match tryCall x.t h g.1 vd va g.2.2 retPc [] with
    | .error k => some k
    | .ok _ => if poisonedArgs x.t va h.narg g.2.2 ≠ 0 then some .integrity else none

/-- The first group begins, the others to follow (R189, step 3). -/
def calliRun (vd va retPc : Nat) (gs : List (Nat × Option (Word × Word) × Mask)) (s : State) (x : Issue) : Eff :=
  let later : List CalliGroup := (gs.drop 1).filterMap (fun g => g.2.1.map (fun w => { target := g.1, header := w, lanes := g.2.2 }))
  match gs with
  | [] => .wait s
  | g :: _ =>
    match g.2.1.bind (fun w => fnHeader w.1 w.2) with
    | none => trapExec .illegalClause s x
    | some h =>
      frameThen s x (fun t => match beginCall t h g.1 vd va g.2.2 retPc later with
        | none => .error .width
        | some t1 => .ok t1) .jump

/-- CALLI: parked or held lanes first, then the checks of every group, then the groups in ascending target address. -/
def calliBody (d a b : Sel) (s : State) (x : Issue) : Eff :=
  flagsThen s x (fun s t =>
    let x : Issue := { x with t := t, exec := t.exec }
    let ls := calliLanes x b
    let r := calliFetches x b ls s
    let parks := (r.1.filterMap (fun l => match l.2 with
      | .park c => some c
      | _ => none)).dedup
    let hs : List HeldLane := r.1.filterMap (fun l => match l.2 with
      | .held c w => some { acc := l.1, cls := c, detail := w }
      | _ => none)
    match parks with
    | c :: _ =>
      .wait ((parkWhole r.2 x c).updTeam x.u (fun t => { t with
        parked := t.parked.map (fun p => { p with cause := parks }), kept := r.1.map (fun l => (l.1.slot, l.1.ea, keptOf l.2)) }))
    | [] =>
      if hs ≠ [] then calliHeld r.2 x ls hs
      else
        let gs := calliGroups r.1
        let vd := vregOf d
        let va := vregOf a
        let ret := afterClause x
        let fails := gs.filterMap (fun g => (groupFails x vd va ret g).map (fun k => (k, g.2.2)))
        match fails with
        | [] => calliRun vd va ret gs r.2 x
        | f :: _ =>
          let low := fails.foldl (fun b g => if classCode g.1 < classCode b then g.1 else b) f.1
          let m := fails.foldl (fun m g => if g.1 = low then m ||| g.2 else m) (0 : Mask)
          .trap r.2 { trapOf low m with pending := t.exec, addr := ls.foldl (fun a l => tblSet a l.slot l.ea) [] })

def execCalli (d a b : Sel) (s : State) : Host.Outcome State Fault Refusal :=
  issue (.calli d a b) (ctlForm [named d 1, named a 1, named b 2]) (calliBody d a b) s

/-! ## RET and EXIT (R178, R182 to R188, R319, R322) -/

/-- The lanes whose poisoned result registers a completing round or gather call would read (R385). -/
def poisonedResults (t : Team) : Mask :=
  if t.exec ≠ 0 ∨ ownEntries t then 0
  else
    match t.calls with
    | [] => 0
    | c :: _ => (match c.rule with
      | .same => 0
      | _ => poisonedLanes t [src (.v 0) c.nret] t.frame)

/-- The path whose lanes leave as the function says goes on: it arrives at its rejoin, and finished frames complete, under the MODE of the instruction
(R178, R185). -/
def leavePath (mode : Word) (s : State) (x : Issue) (leave : Team → Team) : Eff :=
  let go (t : Team) : Team := goTo (leave t) (afterClause x)
  let bad := poisonedResults (go x.t)
  if bad ≠ 0 then poisonTrap s x (if bad &&& x.t.exec = 0 then x.t.exec else bad &&& x.t.exec)
  else frameThen s x (fun t => settle mode (recordAt s x.u) (go t)) .jump

/-- The lanes of EXEC leave by EXIT, or by a RET of the entry frame. -/
def exitAll (t : Team) : Team := exitLanes t t.exec

/-- The lanes of EXEC return from the innermost call. -/
def returnAll (t : Team) : Team :=
  match t.calls with
  | [] => exitAll t
  | c :: _ => returnLanes t c t.exec

/-- RET (R319). -/
def retBody (s : State) (x : Issue) : Eff :=
  flagsThen s x (fun s t =>
    let x : Issue := { x with t := t, exec := t.exec }
    if handlerFrame t then trapExec .illegalOp s x
    else match t.calls with
      | [] => leavePath t.mode s x exitAll
      | c :: _ =>
        let bad := poisonedLanes t [src (.v 0) c.nret] t.exec
        if bad ≠ 0 then poisonTrap s x bad else leavePath t.mode s x returnAll)

def execRet (s : State) : Host.Outcome State Fault Refusal := issue .ret (ctlForm []) retBody s

/-- An EXIT that ends a round, a gather call or a CALLI's group that another follows waits as RET does (R186; log 29); any other does not. -/
def exitEnds (s : State) (x : Issue) : Bool := endsRound x.t.mode (recordAt s x.u) (goTo (exitAll x.t) (afterClause x))

/-- EXIT (R322). -/
def exitBody (s : State) (x : Issue) : Eff :=
  if exitEnds s x then
    flagsThen s x (fun s t => leavePath t.mode s { x with t := t, exec := t.exec } exitAll)
  else leavePath x.t.mode s x exitAll

def execExit (s : State) : Host.Outcome State Fault Refusal := issue .exit (ctlForm []) exitBody s

/-! ## ARG and GRET (R187, R188, R320, R321) -/

/-- The gather call that ARG and GRET act on: the innermost open call that is not SAME. -/
def gatherCall : List CallRec → Option GatherFrame
  | [] => none
  | c :: rest => match c.rule with
    | .same => gatherCall rest
    | .gather => c.gather
    | .widen => none

/-- Its frame replaced. -/
def setGather (g : GatherFrame) : List CallRec → List CallRec
  | [] => []
  | c :: rest => match c.rule with
    | .same => c :: setGather g rest
    | .gather => { c with gather := some g } :: rest
    | .widen => c :: rest

/-- Argument j of caller k, 0 beyond the frame. -/
def gatherArg (g : GatherFrame) (k j : Nat) : Nat :=
  if k < g.callers.length ∧ j < g.narg then (nthD g.args (k * g.narg + j) 0).toNat else 0

/-- ARG (R320): where a lane names an argument of the frame, the frame stack is read, so that a page fault on it parks the team, and the frame is the one
found there. An ARG performed once per issue reads as the lowest lane of EXEC, whatever the guard holds (R106, R107). -/
def argBody (d a b : Sel) (s : State) (x : Issue) : Eff :=
  match gatherCall x.t.calls with
  | none => trapExec .illegalOp s x
  | some g =>
    let read (g : GatherFrame) (s : State) (t : Team) : Eff :=
      laneEff d 1 x.active (fun k => (gatherArg g (x.val k a 1) (x.val k b 1), 0)) s { x with t := t }
    let names (k : Nat) : Bool := decide (x.val k a 1 < g.callers.length) && decide (x.val k b 1 < g.narg)
    if (lanesFor x.t d x.active).any names then frameRead s x (fun t found s => read ((gatherCall found.calls).getD g) s t) else read g s x.t

def execArg (d a b : Sel) (s : State) : Host.Outcome State Fault Refusal :=
  issue (.arg d a b) (plainForm anyType (fun _ => [dst d 1, src a 1, src b 1])) (argBody d a b) s

/-- GRET (R321): each ACTIVE lane records its value, a later one replacing an earlier. -/
def gretFrame (d a b : Sel) (x : Issue) (g : GatherFrame) : GatherFrame :=
  (slotsOf x.t.cfg.capacity x.active).foldl (fun (g : GatherFrame) l =>
    let j := x.val l d 1
    let k := x.val l a 1
    if k < g.callers.length ∧ j < g.nret then { g with results := tblSet g.results (k * g.nret + j) (BitVec.ofNat 32 (x.val l b 1)) } else g) g

/-- A lane of a GRET names a result of the frame: it stores (R321). -/
def gretStores (d a : Sel) (x : Issue) (g : GatherFrame) : Bool :=
  (slotsOf x.t.cfg.capacity x.active).any (fun l => decide (x.val l a 1 < g.callers.length) && decide (x.val l d 1 < g.nret))

def gretBody (d a b : Sel) (s : State) (x : Issue) : Eff :=
  match gatherCall x.t.calls with
  | none => trapExec .illegalOp s x
  | some g =>
    frameWith (gretStores d a x g) s x (fun t => .ok { t with calls := setGather (gretFrame d a b x ((gatherCall t.calls).getD g)) t.calls }) .done

def execGret (d a b : Sel) (s : State) : Host.Outcome State Fault Refusal :=
  issue (.gret d a b) (plainForm anyType (fun _ => [src d 1, src a 1, src b 1])) (gretBody d a b) s

/-! ## TRAP, BKPT, ERET (R331 to R334) -/

/-- A trap of the instruction with its operand as detail. -/
def operandTrap (k : TrapClass) (a : Sel) (s : State) (x : Issue) : Eff := .trap s { trapOf k x.t.exec with detail := BitVec.ofNat 32 (x.uval a 1) }

def operandTrapInstr (k : TrapClass) (i : Instr) (a : Sel) (s : State) : Host.Outcome State Fault Refusal :=
  issue i (ctlForm [src a 1]) (operandTrap k a) s

/-- TRAP (R331). -/
def execTrap (a : Sel) (s : State) : Host.Outcome State Fault Refusal := operandTrapInstr .software (.trap a) a s
/-- BKPT (R331). -/
def execBkpt (a : Sel) (s : State) : Host.Outcome State Fault Refusal := operandTrapInstr .brk (.bkpt a) a s

/-- The team after an ERET of the mode (R334). -/
def eretTeam (mode : Nat) (t : Team) (r : TrapRec) : Team := resumeAt (leaveHandler t r) r mode

/-- ERET (R334): legal only in a handler; a round that ends with it waits as its own end would. -/
def eretBody (a : Sel) (s : State) (x : Issue) : Eff :=
  let mode := x.uval a 1
  match x.t.handler, recordAt s x.u with
  | some _, some r =>
    if 2 < mode then trapExec .illegalOp s x
    else
      let go (s : State) (t : Team) : Eff := frameThen s { x with t := t } (fun t => settle r.mode (some r) (eretTeam mode t r)) .jump
      if endsRound r.mode (some r) (eretTeam mode x.t r) then flagsThen s x go else go s x.t
  | _, _ => trapExec .illegalOp s x

def execEret (a : Sel) (s : State) : Host.Outcome State Fault Refusal := issue (.eret a) (ctlForm [src a 1]) (eretBody a) s

/-! ## YIELD (R335) -/

/-- The clause ends, the team goes behind its equals, and a ready PENDING team of its priority or higher takes its place. -/
def yieldBody (s : State) (x : Issue) : Eff :=
  let q := takeId s
  let s1 := q.2.setTeam x.u { goOn x.t (afterClause x) with order := q.1 }
  match firstPending s1 x.t.cfg.core with
  | some (v, t) => if x.t.active && decide (x.t.cfg.prio ≤ t.cfg.prio) then .jump (activate (deactivate s1 x.u) v) else .jump s1
  | none => .jump s1

def execYield (s : State) : Host.Outcome State Fault Refusal := issue .yield (ctlForm []) yieldBody s

end Sys2Proof.Machine
end

