-- ==== Sys2Proof/Machine/Units.lean ====
section
/-! DEFINITION. Cohorts and barriers, feed queues, and the layer instructions (R42 to R44, R194, R195, R323 to R330, R352). -/

namespace Sys2Proof.Machine

/-! ## The unit tables of a slice (R42) -/

/-- Records per slice. -/
def unitLimit : UnitTable → Nat
  | .cohort => 512
  | .queue => 64
  | .flag => 1024

/-- The records that a slice's table holds, least recently used first. -/
def tableRecords (s : State) (tb : UnitTable) (slice : Nat) : List (UnitTable × Nat) :=
  s.unitRecs.filter (fun r => decide (r.1 = tb) && decide (homeSlice r.2 = slice))

/-- A record that is never spilled: a cohort with a team waiting at BAR, a queue with records or sleepers, a flag with parked teams. -/
def recordKept (s : State) (r : UnitTable × Nat) : Bool :=
  match r.1 with
  | .cohort => (match tblGet s.cohorts r.2 with
    | some c => decide (c.parkedTeams ≠ [])
    | none => false)
  | .queue => (match tblGet s.queues r.2 with
    | some q => decide (q.head ≠ q.tail) || decide (q.requests ≠ [])
    | none => false)
  | .flag => (match flagAt s r.2 with
    | some (ms, k, _) => s.teams.any (fun t => decide (t.2.wait = .lwait ms k) || (match t.2.parked with
      | some p => p.cause.contains (.layer ms k)
      | none => false))
    | none => false)

/-- A record written back to its object: what the object holds does not change (R43). It is part of a line, whose value is checked as the line is read for
it and formed afresh in the step that writes it (R409, R410). -/
def spillRecord (s : State) (r : UnitTable × Nat) : State :=
  let s1 := { s with unitRecs := s.unitRecs.filter (fun x => decide (x ≠ r)) }
  match unitObject s r.2 with
  | some (b, bs, _) =>
    let s2 := crossLines s1 b bs.length
    renewChecks { s2 with mem := Memory.writes s2.mem b bs } b bs.length
  | none => s1

/-- A record used, the most recent of its table from now on. -/
def touchRecord (s : State) (r : UnitTable × Nat) : State := { s with unitRecs := s.unitRecs.filter (fun x => decide (x ≠ r)) ++ [r] }

/-- A record had for an object: its own, a free one, or that of the least recently used object that may be spilled; none where no record may be. -/
def takeRecord (s : State) (tb : UnitTable) (pa : Nat) : Option State :=
  let rs := tableRecords s tb (homeSlice pa)
  if rs.contains (tb, pa) || decide (rs.length < unitLimit tb) then some (touchRecord s (tb, pa))
  else (rs.find? (fun r => !recordKept s r)).map (fun r => touchRecord (spillRecord s r) (tb, pa))

/-- An entry of the waiting operations that still stands: one that its team or ring tries again stands while that is held at it, or has the issue slot to
try it. -/
def unitLive (s : State) (e : UnitWait) : Bool :=
  let held : Bool := match tblGet s.teams e.who with
    | some t => decide (t.wait = .held) || (decide (t.wait = .none) && t.clause.isSome && decide (s.cur = some e.who))
    | none => false
  match e.op with
  | .bar => held
  | .qpop => held
  | .qpush => held
  | .lwait => held
  | .feed => (match tblGet s.rings e.who with
    | some r => (match r.busy with
      | .feed _ pa _ => decide (pa = e.pa)
      | _ => false)
    | none => false)
  | _ => true

/-- WHETHER AN OPERATION HAS ITS TURN (R42, R44) and the record it acts on: no earlier one on the same object waits; and it finds the object's record,
or no earlier one of the slice's table waits and a record can be had. -/
def unitGate (s : State) (w : UnitWait) : Option State :=
  let es := (s.unitWait.takeWhile (fun e => decide (e ≠ w))).filter (fun e => decide (e.table = w.table) && unitLive s e)
  let s1 := { s with unitWait := s.unitWait.erase w }
  if es.any (fun e => decide (e.pa = w.pa)) then none
  else if s.unitRecs.contains (w.table, w.pa) then some (touchRecord s1 (w.table, w.pa))
  else if es.any (fun e => decide (homeSlice e.pa = homeSlice w.pa)) then none
  else takeRecord s1 w.table w.pa

/-- The operation waits at the slice, behind those that wait there. -/
def unitHold (s : State) (w : UnitWait) : State :=
  if s.unitWait.contains w then s else { s with unitWait := s.unitWait ++ [w], nextId := s.nextId + 1 }

/-- A record had by a unit of the Plinth that tries again by itself, when no operation of the slice's table waits for one. -/
def unitFree (s : State) (tb : UnitTable) (pa : Nat) : Option State :=
  if s.unitWait.any (fun e => decide (e.table = tb) && decide (homeSlice e.pa = homeSlice pa) && unitLive s e) then none else takeRecord s tb pa

/-- The unit object of an operation that its team tries again: where it has reached the slice before and waits there, the object it has found then, whatever
has become of its translation or its window (R29, R42); else the object at the address. -/
def unitAgain (op : UnitOp) (ends : State → Issue → LaneRes → Eff) (va align : Nat) (s : State) (x : Issue) (k : Nat → State → Eff) : Eff :=
  match s.unitWait.find? (fun w => decide (w.who = x.u) && decide (w.op = op)) with
  | some w => k w.pa s
  | none => unitThen ends va align s x k

/-! ## Cohorts (R194, R195, R323) -/

/-- The record of a cohort: the unit's, else its fields as the object's memory holds them. -/
def cohortAt (s : State) (pa : Nat) : Cohort × State :=
  match tblGet s.cohorts pa with
  | some c => (c, s)
  | none =>
    let r := homeRead s pa 64
    ({ members := BitVec.ofNat 32 r.1, arrived := BitVec.ofNat 32 (r.1 / 2 ^ 32), gen := BitVec.ofNat 32 (r.1 / 2 ^ 64), teams := [],
       parkedTeams := [] }, r.2)

/-- A member goes on from its BAR (R195, R324): it acquires, an INTEGRITY that the ACQUIRE meets is taken at the BAR, of which nothing is left to perform
(log 33), and else it continues with the next instruction. -/
def passBar (s : State) (u : Nat) (t : Team) : State :=
  let s1 := acquireNow (s.setTeam u { t with wait := .none }) u t.cfg
  match (tblGet s1.teams u).bind (fun t1 => integrityTrap t1 HeldIntegrity.acq false) with
  | some (i, t2) => takeTrap (s1.setTeam u t2) u { i with pending := 0 }
  | none => stepOn s1 u

/-- A member woken at BAR; a saved one goes on when it is restored. -/
def wakeBar (s : State) (u : Nat) : State :=
  match tblGet s.teams u with
  | none => s
  | some t =>
    if t.saved then s.setTeam u { t with wait := match t.wait with
      | .bar pa gen _ => .bar pa gen true
      | w => w }
    else passBar s u t

/-- The condition of R195 judged after an operation: a complete generation is released. -/
def settleCohort (s : State) (pa : Nat) (c : Cohort) : State :=
  if c.arrived = c.members ∧ c.members ≠ 0 then
    c.parkedTeams.foldl wakeBar { s with cohorts := tblSet s.cohorts pa { c with gen := c.gen + 1, arrived := 0, parkedTeams := [] } }
  else { s with cohorts := tblSet s.cohorts pa c }

/-- JOIN at the home slice. -/
def joinAt (s : State) (u pa : Nat) : State :=
  let r := cohortAt s pa
  settleCohort r.2 pa (if r.1.teams.contains u then r.1 else { r.1 with members := r.1.members + 1, teams := r.1.teams ++ [u] })

/-- LEAVE at the home slice; a team that has arrived takes its arrival with it. -/
def leaveAt (s : State) (u pa : Nat) : State :=
  let r := cohortAt s pa
  let c := r.1
  settleCohort r.2 pa (if c.teams.contains u then
      { c with members := c.members - 1, teams := c.teams.filter (fun v => decide (v ≠ u)),
               arrived := if c.parkedTeams.contains u then c.arrived - 1 else c.arrived,
               parkedTeams := c.parkedTeams.filter (fun v => decide (v ≠ u)) }
    else c)

/-- A member's arrival at the home slice. -/
def arriveAt (s : State) (u pa : Nat) : State :=
  let r := cohortAt s pa
  let c := r.1
  let s1 := r.2.updTeam u (fun t => { t with wait := .bar pa c.gen.toNat false })
  settleCohort s1 pa { c with arrived := c.arrived + 1, parkedTeams := c.parkedTeams ++ [u] }

/-- JOIN and LEAVE: the team goes on at once (R323); one that waits at the slice for a record is applied later (R42). -/
def cohortBody (join : Bool) (a : Sel) (s : State) (x : Issue) : Eff :=
  if !evenSreg a then trapExec .illegalOp s x
  else
    unitThen runEnds (x.uval a 2) 64 s x (fun pa s =>
      let s1 := s.updTeam x.u (fun t => { t with
        cohorts := if join then (if t.cohorts.contains pa then t.cohorts else t.cohorts ++ [pa]) else t.cohorts.filter (fun p => decide (p ≠ pa)) })
      let w : UnitWait := { table := .cohort, op := if join then .join else .leave, who := x.u, pa := pa, id := s1.nextId }
      match unitGate s1 w with
      | some s2 => .done (if join then joinAt s2 x.u pa else leaveAt s2 x.u pa)
      | none => .done (unitHold s1 w))

def cohortForm (a : Sel) : Form := { plainForm anyType (fun _ => [src a 2]) with mem := true }

/-- JOIN (R323). -/
def execJoin (a : Sel) (s : State) : Host.Outcome State Fault Refusal := issue (.join a) (cohortForm a) (cohortBody true a) s
/-- LEAVE (R323). -/
def execLeave (a : Sel) (s : State) : Host.Outcome State Fault Refusal := issue (.leave a) (cohortForm a) (cohortBody false a) s

/-- BAR (R195, R324): a non-member is ILLEGAL_OP; a member releases, arrives, and parks until its generation is released. It waits for a record where
none can be had (R42). -/
def barBody (a : Sel) (s : State) (x : Issue) : Eff :=
  if !evenSreg a then trapExec .illegalOp s x
  else
    unitAgain .bar runEnds (x.uval a 2) 64 s x (fun pa s =>
      let w : UnitWait := { table := .cohort, op := .bar, who := x.u, pa := pa, id := 0 }
      match unitGate s w with
      | none => .wait (unitHold s w)
      | some s1 =>
        if !(cohortAt s1 pa).1.teams.contains x.u then trapExec .illegalOp s1 x
        else releaseThen s1 x (fun s => .jump (arriveAt s x.u pa)))

def execBar (a : Sel) (s : State) : Host.Outcome State Fault Refusal := issue (.bar a) (cohortForm a) (barBody a) s

/-- A LEAVE at its slice, or in the queue of those that wait there for a record (R42). -/
def leaveNow (s : State) (u pa : Nat) : State :=
  let w : UnitWait := { table := .cohort, op := .leave, who := u, pa := pa, id := s.nextId }
  match unitGate s w with
  | some s1 => leaveAt s1 u pa
  | none => unitHold s w

/-- A team that retires or halts leaves its cohorts (R195). What it has sent to a slice and waits there for a record is not dropped (R42): it is applied
later; what the team itself would have tried again is gone with it. -/
def leaveCohorts (s : State) (u : Nat) (t : Team) : State :=
  t.cohorts.foldl (fun s pa => leaveNow s u pa) (dropTries s u)

/-! ## Feed queues (R325, R326, R352) -/

/-- A descriptor's fields, where it is one (R352). -/
def queueOfBytes (ctx : Nat) (x : Nat) : Option FeedQueue :=
  let cap := bits x 63 32
  let base := bits x 127 64
  let head : Word := BitVec.ofNat 32 (x / 2 ^ 128)
  let tail : Word := BitVec.ofNat 32 (x / 2 ^ 160)
  if bits x 31 0 = 0xFEED0001 ∧ (List.range 17).any (fun k => decide (cap = 2 ^ k)) = true ∧ base % 64 = 0 ∧ bits base 63 52 = 0 ∧
      isWindowVa base = false ∧ bits x 511 224 = 0 ∧ (tail - head).toNat ≤ cap then
    some { ctx := ctx, cap := cap, base := base, head := head, tail := tail, requests := [], origins := [] }
  else none

/-- The queue of a descriptor: the unit's record, else the descriptor as its memory holds it. -/
def queueAt (s : State) (ctx pa : Nat) : Option FeedQueue × State :=
  match tblGet s.queues pa with
  | some q => (some q, s)
  | none =>
    let r := homeRead s pa 64
    (queueOfBytes ctx r.1, r.2)

def setQueue (s : State) (pa : Nat) (q : FeedQueue) : State := { s with queues := tblSet s.queues pa q }

/-- The storage address of record k. -/
def recordVa (q : FeedQueue) (k : Word) : Nat := q.base + 64 * (k.toNat % q.cap)

/-- The queue without its oldest record. -/
def FeedQueue.popped (q : FeedQueue) : FeedQueue := { q with head := q.head + 1, origins := q.origins.drop 1 }

/-- The queue with one record more, and the launch whose team appended it. -/
def FeedQueue.appended (q : FeedQueue) (launch : Option Nat) : FeedQueue :=
  { q with tail := q.tail + 1, origins := q.origins ++ List.replicate ((q.tail - q.head).toNat - q.origins.length) none ++ [launch] }

/-- A record reaches its QPOP (R325): s registers, or word laneid mod 16 of each lane. -/
def popWrites (d : Nat × Mask) (cap : Nat) (bs : List Byte) (o : LateOp) : LateOp :=
  let w (i : Nat) : Word := BitVec.ofNat 32 (natOfBytes ((bs.drop (4 * i)).take 4))
  if d.1 < 32 then { o with wait := .none, swrites := (List.range 16).map (fun i => (d.1 + i, w i)) }
  else { o with wait := .none, vwrites := (slotsOf cap d.2).map (fun k => (k, d.1 - 32, w (k % 16))) }

/-- The oldest waiting request takes the oldest record; a page of the storage that is not mapped leaves it waiting, and a line that cannot be read
gives it INTEGRITY (log 32), which names the lane that its QPOP was issued as (R315). -/
def serveRequest (s : State) (pa : Nat) (q : FeedQueue) : Option State :=
  match q.requests with
  | [] => none
  | (u, id) :: rest =>
    match tblGet s.teams u with
    | none => some (setQueue s pa { q with requests := rest })
    | some t =>
      if q.head = q.tail then none
      else
        let r := unitRead s none t.cfg.core q.ctx (recordVa q q.head) 64
        let s1 := setQueue r.2 pa { q.popped with requests := rest }
        let give (f : Nat × Mask → LateOp → LateOp) : State :=
          let s2 := s1.updTeam u (fun t => updLate t id (fun o => f (o.pop.getD (0, 0)) o))
          if t.saved then s2 else acquireNow s2 u t.cfg
        match r.1 with
        | .fault _ => none
        | .ok bs => some (give (fun d => popWrites d t.cfg.capacity bs))
        | .bad => some (give (fun _ o => { o with wait := .none, poisoned := [(o.lane, recordVa q q.head)] }))

/-- Waiting requests served while there are records. -/
def serveRequests (pa : Nat) : Nat → State → State
  | 0, s => s
  | n + 1, s =>
    match tblGet s.queues pa with
    | none => s
    | some q => match serveRequest s pa q with
      | none => s
      | some s1 => serveRequests pa n s1

def serveQueue (s : State) (pa : Nat) : State :=
  match tblGet s.queues pa with
  | none => s
  | some q => serveRequests pa (q.requests.length + 1) s

/-- Every queue's waiting requests served again, when pages have been mapped. -/
def serveQueues (s : State) : State := (s.queues.map Prod.fst).foldl serveQueue s

/-- How an append ends: the queue full, the storage page to wait for, or appended. -/
inductive Append where
  | full
  | held
  | done (s : State)

/-- A record appended at the home slice, by a team of a launch or by an asker of the Plinth, and waiting requests served (R326, R353). -/
def appendRecord (s : State) (who : Option Asker) (core : Nat) (launch : Option Nat) (pa : Nat) (q : FeedQueue) (bs : List Byte) : Append × State :=
  if (q.tail - q.head).toNat = q.cap then (.full, setQueue s pa q)
  else
    let w := unitWrite s who core q.ctx (recordVa q q.tail) bs
    match w.1 with
    | .fault _ => (.held, w.2)
    | _ =>
      let s1 := serveQueue (setQueue w.2 pa (q.appended launch)) pa
      (.done s1, s1)

/-- QPOP (R325): its access is that of the lowest lane of EXEC (R278, R315), the QUEUE trap that of EXEC. DESIGN CHOICE (log 97): while it waits at the slice
for a unit record (R42) its team is held at it, where R325 lets the team go on while a request waits for a queue record; so is that of a QPUSH. -/
def qpopBody (d a : Sel) (s : State) (x : Issue) : Eff :=
  unitAgain .qpop (laneEnds (x.uval a 2)) (x.uval a 2) 64 s x (fun pa s0 =>
    let w : UnitWait := { table := .queue, op := .qpop, who := x.u, pa := pa, id := 0 }
    match unitGate s0 w with
    | none => .wait (unitHold s0 w)
    | some s =>
      let r := queueAt s x.t.cfg.ctx pa
      match r.1 with
      | none => trapExec .queue r.2 x
      | some q =>
        let pop : Nat × Mask := match d with
          | .s k => (k, 0)
          | .v k => (32 + k, x.active)
          | _ => (0, 0)
        let l := startLate r.2 x.u (readsFlag x) (fun o => { o with wait := .qpop pa, pop := some pop })
        .done (serveQueue (setQueue l.2 pa { q with requests := q.requests ++ [(x.u, l.1)] }) pa))

def execQpop (d a : Sel) (s : State) : Host.Outcome State Fault Refusal :=
  issue (.qpop d a)
    { plainForm anyType (fun _ => [dst d (if isSreg d then 16 else 1), src a 2]) with late := true, mem := true, cls := 1 } (qpopBody d a) s

/-- QPUSH with the release done: the record read at b as a load of the lowest lane of EXEC, then the queue at a. -/
def pushRecord (d a b : Sel) (s : State) (x : Issue) : Eff :=
  let va := x.uval b 2
  let r := checkRun s x.t va 64 64 needR true
  laneThen va r.2 x r.1 (fun s =>
    unitAgain .qpush (laneEnds (x.uval a 2)) (x.uval a 2) 64 s x (fun pa s0 =>
      let w : UnitWait := { table := .queue, op := .qpush, who := x.u, pa := pa, id := 0 }
      match unitGate s0 w with
      | none => .wait (unitHold s0 w)
      | some s =>
        let r := queueAt s x.t.cfg.ctx pa
        match r.1 with
        | none => trapExec .queue r.2 x
        | some q =>
          let v := readRun r.2 x.u x.t va 64
          match v.1 with
          | none => .done (startLate v.2 x.u (readsFlag x) (fun o => { o with poisoned := [(lowestLane x, va)] })).2
          | some bs =>
            let p := appendRecord v.2 none x.t.cfg.core (some x.t.cfg.launch) pa q bs
            match p.1 with
            | .held => .wait p.2
            | .full =>
              let l := startLate p.2 x.u (readsFlag x) id
              .done (answerLate l.2 x.u l.1 d 0)
            | .done s1 =>
              let l := startLate s1 x.u (readsFlag x) id
              .done (answerLate l.2 x.u l.1 d 1)))

/-- QPUSH (R326): the release side first; a v or w destination is ILLEGAL_OP. -/
def qpushBody (d a b : Sel) (s : State) (x : Issue) : Eff :=
  if !isSreg d then trapExec .illegalOp s x else releaseThen s x (fun s => pushRecord d a b s x)

def execQpush (d a b : Sel) (s : State) : Host.Outcome State Fault Refusal :=
  issue (.qpush d a b) { plainForm anyType (fun _ => [dst d 1, src a 2, src b 2]) with late := true, mem := true, cls := 1 } (qpushBody d a b) s

/-- The QPOP requests of a team withdrawn (R322): their flags' counts go. -/
def withdrawQueues (s : State) (u : Nat) : State :=
  { s with queues := s.queues.map (fun q => (q.1, { q.2 with requests := q.2.requests.filter (fun r => decide (r.1 ≠ u)) })) }

/-! ## Layers (R327 to R330) -/

/-- The layer a layer word names for the team, where it may. -/
def layerOf (s : State) (t : Team) (w : Nat) : Option (Nat × Nat × Layer) :=
  let ms := bits w 15 12
  let k := bits w 11 0
  if bits w 31 16 = 0 ∧ t.cfg.model = some ms then (getLayer s ms k).map (fun l => (ms, k, l)) else none

/-- A trap of class and faulted mask EXEC whose detail is the layer word. -/
def layerTrap (k : TrapClass) (w : Nat) (s : State) (x : Issue) : Eff := .trap s { trapOf k x.t.exec with detail := BitVec.ofNat 32 w }

/-- The layer a layer word names, or ILLEGAL_OP with the word as detail (R327). -/
def layerThen (a : Sel) (s : State) (x : Issue) (k : Nat → Nat → Nat → Layer → Eff) : Eff :=
  let w := x.uval a 1
  match layerOf s x.t w with
  | none => layerTrap .illegalOp w s x
  | some (ms, ix, l) => k w ms ix l

/-- The team's pins on a layer. -/
def teamPins (t : Team) (w : Nat) : Nat := tblGetD t.pins w 0

/-- The team's pin count changed; a layer without pins is unlisted. -/
def setPins (t : Team) (w n : Nat) : Team := { t with pins := if n = 0 then tblErase t.pins w else tblSet t.pins w n }

/-- The team parks at its LWAIT, its operand kept (R328). -/
def parkLwait (s : State) (x : Issue) (ms k : Nat) : State := s.updTeam x.u (fun t => { t with wait := .lwait ms k, captured := some (capture t) })

/-- The physical address of a layer's flag. -/
def flagPa (s : State) (ms k : Nat) : Nat := ((tblGet s.models ms).map (fun m => nthD m.flagsPa k 0)).getD 0

/-- LWAIT (R328), which waits for the flag's record where none can be had (R42). -/
def lwaitBody (a : Sel) (s : State) (x : Issue) : Eff :=
  layerThen a s x (fun w ms k l =>
    let n := teamPins x.t w
    let e : UnitWait := { table := .flag, op := .lwait, who := x.u, pa := flagPa s ms k, id := 0 }
    if 255 ≤ n ∨ (n = 0 ∧ 16 ≤ x.t.pins.length) then layerTrap .illegalOp w s x
    else match unitGate s e with
    | none => .wait (unitHold s e)
    | some s =>
    if l.state = 2 then
      acquireThen s x (fun s => .done ((pinLayer s ms k).updTeam x.u (fun t => setPins t w (n + 1))))
    else if l.state = 4 then layerTrap .swap w s x
    else if ((tblGet s.models ms).map ModelCtx.unload).getD false && decide (l.state ≠ 3) then layerTrap .swap w s x
    else .wait (parkLwait (requestLayer s ms k true) x ms k))

def layerForm (a : Sel) : Form := { plainForm anyType (fun _ => [src a 1]) with mem := true }

def execLwait (a : Sel) (s : State) : Host.Outcome State Fault Refusal := issue (.lwait a) (layerForm a) (lwaitBody a) s

/-- LDONE at the flag's home slice (R329): one of the team's own pins goes; without one it is discarded and counted. -/
def ldoneAt (s : State) (u ms k : Nat) : State :=
  let w := ms * 4096 + k
  let n := ((tblGet s.teams u).map (fun t => teamPins t w)).getD 0
  if n = 0 then countDiscard s (flagPa s ms k) else (unpinLayer s ms k).updTeam u (fun t => setPins t w (n - 1))

/-- LDONE: the team goes on at once (R329); one that waits for the flag's record is applied later (R42). -/
def ldoneBody (a : Sel) (s : State) (x : Issue) : Eff :=
  layerThen a s x (fun _ ms k _ =>
    let e : UnitWait := { table := .flag, op := .ldone, who := x.u, pa := flagPa s ms k, id := s.nextId }
    match unitGate s e with
    | some s1 => .done (ldoneAt s1 x.u ms k)
    | none => .done (unitHold s e))

def execLdone (a : Sel) (s : State) : Host.Outcome State Fault Refusal := issue (.ldone a) (layerForm a) (ldoneBody a) s

/-- The word LSTAT returns (R330). -/
def lstatWord (l : Layer) : Nat := l.state + 2 ^ 16 * (if 65535 < l.pins then 65535 else l.pins)

/-- LSTAT (R330); its result waits with it for the flag's record (R42). -/
def lstatBody (d a : Sel) (s : State) (x : Issue) : Eff :=
  layerThen a s x (fun _ ms k l =>
    let e : UnitWait := { table := .flag, op := .lstat, who := x.u, pa := flagPa s ms k, id := s.nextId }
    match unitGate s e with
    | some s1 => lateEff d 1 x.active (fun _ => (lstatWord l, 0)) s1 x
    | none =>
      let dst : Nat × Mask := match d with
        | .s k => (k, 0)
        | .v k => (32 + k, x.active)
        | _ => (0, 0)
      .done (unitHold (startLate s x.u (readsFlag x) (fun o => { o with wait := .unit, pop := some dst })).2 e))

/-- The value of a waiting LSTAT. -/
def answerLstat (s : State) (u id v : Nat) : State :=
  s.updTeam u (fun t => updLate t id (fun o =>
    let d := o.pop.getD (0, 0)
    if d.1 < 32 then { o with wait := .none, swrites := [(d.1, BitVec.ofNat 32 v)] }
    else { o with wait := .none, vwrites := (slotsOf t.cfg.capacity d.2).map (fun k => (k, d.1 - 32, BitVec.ofNat 32 v)) }))

def execLstat (d a : Sel) (s : State) : Host.Outcome State Fault Refusal :=
  issue (.lstat d a) { plainForm anyType (fun _ => [dst d 1, src a 1]) with late := true, cls := 1 } (lstatBody d a) s

/-- Those LDONEs of a team that wait for a record and have a pin to remove take it, so that none of them is discarded for the retirement. -/
def settleLdones (s : State) (u : Nat) : State :=
  (s.unitWait.filter (fun w => decide (w.who = u) && decide (w.op = .ldone))).foldl (fun s w =>
    match flagAt s w.pa, tblGet s.teams u with
    | some (ms, k, _), some t => if teamPins t (ms * 4096 + k) = 0 then s else ldoneAt { s with unitWait := s.unitWait.erase w } u ms k
    | _, _ => s) s

/-- The pins a team holds are removed as it retires or halts (R329). -/
def dropPins (s0 : State) (u : Nat) : State :=
  let s := settleLdones s0 u
  match tblGet s.teams u with
  | none => s
  | some t => t.pins.foldl (fun s p => (List.range p.2).foldl (fun s _ => unpinLayer s (p.1 / 4096) (p.1 % 4096)) s) s

/-- Teams parked on a layer are woken (R328, R373): at LWAIT they perform it again, parked accesses replay. -/
def wakeLayerNow (s : State) (ms k : Nat) : State :=
  let s1 := { s with teams := s.teams.map (fun ut => if ut.2.wait = .lwait ms k ∧ ut.2.saved = false then (ut.1, { ut.2 with wait := .none }) else ut) }
  replayWhere s1 (fun _ _ c => decide (c = .layer ms k))

/-- The flag has turned RESIDENT or FAILED: the teams parked on the layer are woken, once the flag has a record (R42). -/
def wakeLayer (s : State) (ms k : Nat) : State :=
  if (tblGet s.models ms).isNone then wakeLayerNow s ms k
  else
    let w : UnitWait := { table := .flag, op := .replay, who := ms * 4096 + k, pa := flagPa s ms k, id := 0 }
    match unitGate s w with
    | some s1 => wakeLayerNow s1 ms k
    | none => unitHold s w

/-! ## Waiting operations served (R42) -/

/-- A waiting operation that no team holds, applied. -/
def applyWait (s : State) (w : UnitWait) : State :=
  match w.op, flagAt s w.pa with
  | .join, _ => joinAt s w.who w.pa
  | .leave, _ => leaveAt s w.who w.pa
  | .ldone, some (ms, k, _) => ldoneAt s w.who ms k
  | .ldone, none => countDiscard s w.pa
  | .lstat, some (_, _, l) => answerLstat s w.who w.id (lstatWord l)
  | .lstat, none => answerLstat s w.who w.id 0
  | .replay, _ => wakeLayerNow s (w.who / 4096) (w.who % 4096)
  | _, _ => s

/-- UNIT_RECORD_FREED (R42): the operations that wait at a slice and have their turn are served, oldest first; those that a team or a ring holds take it
when they are tried again. -/
def serveUnitWaits (s : State) (slice : Nat) : State :=
  s.unitWait.foldl (fun s w =>
    if decide (homeSlice w.pa = slice) && !triesAgain w then
      match unitGate s w with
      | some s1 => applyWait s1 w
      | none => s
    else s) s

def execUnitRecordFreed (slice : Nat) (s : State) : Host.Outcome State Fault Refusal := .next (if s.trust.halted then s else serveUnitWaits s slice)

end Sys2Proof.Machine
end

