-- ==== Sys2Proof/Machine/Clauses.lean ====
section
/-! DEFINITION. The steps of a team between instructions: the start of a clause, late results, trap entry, the halving of scores (R114, R146, R172 to
R174, R215, R276, R332, R354 to R357). -/

namespace Sys2Proof.Machine

/-- The issue of a team that stands at a clause: what parks it and traps it there. -/
def clauseIssue (u : Nat) (t : Team) : Issue := { u := u, t := t, lit := 0, active := t.exec, whole := t.exec, exec := t.exec }

/-- A fetch that ends otherwise (R215): parked, or a clause-level trap with faulted mask EXEC. -/
def fetchEnds (s : State) (u : Nat) (t : Team) (r : LaneRes) : State :=
  match r with
  | .done => s
  | .park c => parkWhole s (clauseIssue u t) c
  | .held c d => clauseTrap s u { trapOf c t.exec with detail := d }

/-- The clause begins: the team holds the issue slot, w0 to w3 are zero (R174), nothing captured before is left (R215); its permit is kept or given back
(R357). -/
def beginClause (s : State) (u : Nat) (c : Clause) (mem : Bool) : State :=
  { s.updTeam u (fun t => { t with clause := some c, pc := c.header, wregs := [], permit := mem, captured := none }) with cur := some u }

/-- INTEGRITY held for a flag that the clause waits on (R276), as a clause-level trap at its waiting point. -/
def waitingFaults (t : Team) (w : Nat) : Option (TrapInfo × Team) :=
  integrityTrap t (fun h => match h.flag with
    | some k => decide (w / 2 ^ k % 2 = 1)
    | none => false) true

/-- The clause at PC fetched and checked whole, and begun when it has its permit. -/
def fetchAndBegin (s : State) (u : Nat) (t : Team) : State :=
  let r := fetchClause s t.cfg t.pc
  match r.1 with
  | .ends e => fetchEnds r.2 u t e
  | .illegal => clauseTrap r.2 u (trapOf .illegalClause t.exec)
  | .ok c mem =>
    if mem && !t.permit && !permitFor r.2 u t then r.2
    else beginClause r.2 u c mem

/-- The start of the clause at PC of an ACTIVE team (R172): its WAIT flags read zero, and a CWAIT or MWAIT that opens it no longer waits. -/
def startAt (s : State) (u : Nat) (t : Team) : State :=
  let r := codeWord s t.cfg t.pc
  match r.1 with
  | .ends e => fetchEnds r.2 u t e
  | .ok h =>
    if !isHeader h then clauseTrap r.2 u (trapOf .illegalClause t.exec)
    else if !waitClear t (hdrWait h) then r.2
    else match waitingFaults t (hdrWait h) with
      | some (i, t1) => clauseTrap (r.2.setTeam u t1) u i
      | none => if openingWaits r.2 t then r.2 else fetchAndBegin r.2 u t

/-- The entries at which the path arrives come back from the frame stack before the next clause is known (R116, R192). -/
def arriveThen (s : State) (u : Nat) (t : Team) (k : State → Team → State) : State :=
  if arrives t then
    match frameThen s (clauseIssue u t) (fun t => .ok (arrive (t.reconv.length + 1) t)) .done with
    | .done s1 => (match tblGet s1.teams u with
      | some t1 => k s1 t1
      | none => s1)
    | .jump s1 => s1
    | .trap s1 i => clauseTrap s1 u i
    | .wait s1 => s1
  else k s t

/-- CLAUSE_START (R172, R356): the places of the core's active set that are due change hands first (R355), so that no ACTIVE team begins a clause in a place
that it owes; then a team that the issue logic chooses takes the issue slot; within a clause it goes on with it, and an instruction at which it was held is
tried again. -/
def startClause (s : State) (u : Nat) : State :=
  match tblGet s.teams u with
  | none => s
  | some t0 =>
    if (t0.wait ≠ .none ∧ t0.wait ≠ .held) ∨ t0.saved then s
    else
      let s1 := settlePlaces s t0.cfg.core
      match tblGet s1.teams u with
      | none => s
      | some t =>
        if !t.active || !chosen s1 u t then s1
        else if t.clause.isSome then { s1.updTeam u (fun t => { t with wait := .none }) with cur := some u }
        else arriveThen s1 u t (fun s t => startAt s u t)

def execClauseStart (team : Nat) (s : State) : Host.Outcome State Fault Refusal := .next (if s.trust.halted then s else startClause s team)

/-- SCORE_HALVING (R357). -/
def halveScores (s : State) (core : Nat) : State :=
  { s with teams := s.teams.map (fun ut => if ut.2.cfg.core = core then (ut.1, { ut.2 with score := ut.2.score / 2 }) else ut) }

def execScoreHalving (core : Nat) (s : State) : Host.Outcome State Fault Refusal := .next (if s.trust.halted then s else halveScores s core)

/-- LATE_RESULT (R114, R176): the operation that has its values completes, or some lanes' values arrive. -/
def execLateResult (team : Nat) (op : LatePart) (s : State) : Host.Outcome State Fault Refusal :=
  .next (if s.trust.halted then s else lateArrives s team op)

/-- RING_TABLE_BUILT (R146): the build of a ring slot's table completes. -/
def buildDone (s : State) (u slot : Nat) : State :=
  match (tblGet s.teams u).bind (fun t => t.late.find? (fun o => decide (o.build = some slot))) with
  | some o => completeLate s u o.id
  | none => s

def execRingTableBuilt (team slot : Nat) (s : State) : Host.Outcome State Fault Refusal := .next (if s.trust.halted then s else buildDone s team slot)

/-- TRAP_ENTRY (R332): the trap that waited for the flags enters its handler once they are zero. -/
def enterPending (s : State) (u : Nat) : State :=
  let s1 := drainFlags s u
  match tblGet s1.teams u with
  | none => s
  | some t =>
    match t.pendTrap with
    | none => s
    | some i => if flagsClear t then enterTrap s1 u i else s1

def execTrapEntry (team : Nat) (s : State) : Host.Outcome State Fault Refusal := .next (if s.trust.halted then s else enterPending s team)

end Sys2Proof.Machine
end

