-- ==== Sys2Proof/Machine/Sconce.lean ====
section
/-! DEFINITION. The Sconce complex's own accesses and answers (R336, R345, R346, R390, R394): memory reached through a context, frames of the pools,
messages sent and messages that wait, the completion entries of command rings, and how packets in flight end. The Sconce and the Plinth engines
translate by a unit of their own, with its own fault records (log 34). -/

namespace Sys2Proof.Machine

/-! ## Messages (R390) -/

/-- The response to a message; nothing of it waits any more. -/
def answerMsg (s0 : State) (m : UrfelMsg) (status : Nat) (payload : List Byte) : State :=
  let s := dropAsks s0 (fun w => decide (w = .msg m))
  { s with sent := s.sent ++ [{ dest := m.sender, op := m.op, sub := m.sub, ctx := m.ctx, tag := m.tag, status := status, length := payload.length, addr := m.addr,
                                payload := payload }] }

/-- Status codes of R390. -/
def stOk : Nat := 0
def stFault : Nat := 1
def stDenied : Nat := 2
def stBadMessage : Nat := 3

/-- A message put among those that wait. -/
def waitMsg (s : State) (m : UrfelMsg) (c : Option ParkCause) : State := { s with waiting := s.waiting ++ [{ msg := m, cause := c }] }

/-! ## Memory through a context -/

/-- How an access ends. -/
inductive SRes where
  | ok (m : Mapping)
  | wait (c : ParkCause)
  | fail
  deriving DecidableEq, Repr

/-- An address of a context reached with a need by an asker: a page that is not mapped is waited for until its record is handled (R394), and an access that
the Sconce has marked then ends; a layer is requested. -/
def sconceReach (s : State) (who : Option Asker) (ctx va : Nat) (need : Need) : SRes × State :=
  let a := accessOf va need
  if bits va 63 52 ≠ 0 ∨ isWindowVa va = true then (.fail, s)
  else if askLost s who ctx a then (.fail, dropAsk s who ctx a)
  else
    let r := translate s sconceCore ctx va need
    match r.1 with
    | .page => (.wait (.page a), noteAsk r.2 who ctx a)
    | .bad _ => (.fail, dropAsk r.2 who ctx a)
    | .ok m =>
      let s1 := dropAsk r.2 who ctx a
      match layerOutcome s1 m.layer, m.layer with
      | .absent, some (ms, k) => (.wait (.layer ms k), requestLayer s1 ms k true)
      | .failed, _ => (.fail, s1)
      | _, _ => (.ok m, s1)

/-- An address that names no translated memory is refused, a run of no bytes there as well (R392, R423). -/
def plainVa (va : Nat) : Bool := decide (bits va 63 52 = 0) && !isWindowVa va

/-- A run checked piece by piece: every piece can be reached, or the first that cannot, with its offset. -/
def sconceCheck (s : State) (who : Option Asker) (ctx va n : Nat) (need : Need) : (SRes × Nat) × State :=
  (linePieces va n).foldl (fun (r : (SRes × Nat) × State) p =>
    match r.1.1 with
    | .ok _ =>
      let q := sconceReach r.2 who ctx p.1 need
      ((q.1, p.1 - va), q.2)
    | _ => r)
    ((if plainVa va then .ok { pa := 0, r := true, w := true, policy := .direct, peer := none, layer := none, record := none } else .fail, 0), s)

/-- What a read brings: the bytes, a page or layer to wait for, or no access, with the offset of the byte that fails. -/
inductive SBytes where
  | ok (bs : List Byte)
  | wait (c : ParkCause)
  | fail (off : Nat)
  deriving DecidableEq, Repr

/-- A piece within a line read at home: as a DIRECT load, which pulls owned words (R34, R65), by the Sconce's own units (R340), and with a recall by a host's
read (R34); none when its line is poisoned (R410), or where a peer refuses (R397). -/
def homePiece (s : State) (pull : Bool) (m : Mapping) (n : Nat) : Option (List Byte) × State :=
  match m.record with
  | some (o, off) => (some (bytesOf n (recordRead s o off n)), s)
  | none =>
    if m.peer.isSome then
      let q := peerBytes s n
      (if Config.peerRefuses s.fresh then none else some (bytesOf n q.1), q.2)
    else homeTake s pull m.pa n

/-- n bytes read through a context by an access of a need, with a pull or a recall. -/
def sconceReadAs (need : Need) (pull : Bool) (s : State) (who : Option Asker) (ctx va n : Nat) : SBytes × State :=
  (linePieces va n).foldl (fun (r : SBytes × State) p =>
    match r.1 with
    | .ok bs =>
      let q := sconceReach r.2 who ctx p.1 need
      (match q.1 with
      | .ok m =>
        let v := homePiece q.2 pull m p.2
        (match v.1 with
        | some cs => (.ok (bs ++ cs), v.2)
        | none => (.fail (p.1 - va), v.2))
      | .wait c => (.wait c, q.2)
      | .fail => (.fail (p.1 - va), q.2))
    | _ => r) (if plainVa va then .ok [] else .fail 0, s)

/-- n bytes read through a context by the Sconce or an engine of the Plinth. -/
def sconceRead (s : State) (who : Option Asker) (ctx va n : Nat) : SBytes × State := sconceReadAs needR true s who ctx va n

/-- Bytes that a message or a unit of the Plinth writes at home. The check value of a whole line was computed over them as they arrived and travels with
them; a part of a line is merged, and the home forms the value (R409). -/
def arriveWrite (s : State) (pa : Nat) (bs : List Byte) : State :=
  let s1 := homeWrite s pa bs
  if pa % 128 = 0 ∧ bs.length = 128 ∧ (List.range 128).all (fun k => !discarded s (pa + k)) = true then carryCheck s1 (pa / 128) (crc32c bs) else s1

/-- Bytes written through a context, every piece already checked. -/
def putNow (s : State) (ctx va : Nat) (bs : List Byte) : State :=
  ((linePieces va bs.length).foldl (fun (r : List Byte × State) p =>
    let q := sconceReach r.2 none ctx p.1 needW
    (r.1.drop p.2, match q.1 with
      | .ok m => if m.peer.isSome || m.record.isSome then q.2 else arriveWrite q.2 m.pa (r.1.take p.2)
      | _ => q.2)) (bs, s)).2

/-- Whether a peer refuses one of the pieces of a write, or the transport gives one up (R397). -/
def peersRefuse (s : State) (ctx : Nat) (ps : List (Nat × Nat)) : Bool × State :=
  ps.foldl (fun (r : Bool × State) p =>
    let q := sconceReach r.2 none ctx p.1 needW
    match q.1 with
    | .ok m => if m.peer.isSome then (r.1 || Config.peerRefuses q.2.fresh, (drawWord q.2).2) else (r.1, q.2)
    | _ => (r.1, q.2)) (false, s)

/-- Bytes written through a context, every piece already checked: nothing where a peer refuses. -/
def putRun (s : State) (ctx va : Nat) (bs : List Byte) : Bool × State :=
  let a := peersRefuse s ctx (linePieces va bs.length)
  if a.1 then (false, a.2) else (true, putNow a.2 ctx va bs)

/-- Bytes written by the Sconce through a context (R345, R394): where a page or a layer must be waited for, or an earlier write of that context waits,
the write waits in its turn. DESIGN CHOICE (log 92): one whose address cannot be used writes nothing and is not tried again. -/
def sconcePut (s : State) (ctx va : Nat) (bs : List Byte) : State :=
  let hold (s : State) : State := { s with puts := s.puts ++ [(ctx, va, bs)] }
  if s.puts.any (fun p => decide (p.1 = ctx)) then hold s
  else
    let c := sconceCheck s (some (.put ctx)) ctx va bs.length needW
    match c.1.1 with
    | .wait _ => hold c.2
    | .ok _ => (putRun c.2 ctx va bs).2
    | .fail => c.2

/-- A write to an address of a context waits. -/
def putWaits (s : State) (ctx va : Nat) : Bool := s.puts.any (fun p => decide (p.1 = ctx) && decide (p.2.1 = va))

/-- The RING_HALT messages whose STATUS write has been made are answered (R393). -/
def answerHalts (s : State) : State :=
  let done (w : Waiting) : Bool := decide (w.msg.op = 5) && decide (w.msg.sub = 3) && !putWaits s w.msg.ctx (w.msg.addr + 0x28)
  (s.waiting.filter done).foldl (fun s w => answerMsg s w.msg stOk []) { s with waiting := s.waiting.filter (fun w => !done w) }

/-- The waiting writes of the Sconce tried again, in order. -/
def retryPuts (s : State) : State := answerHalts (s.puts.foldl (fun s p => sconcePut s p.1 p.2.1 p.2.2) { s with puts := [] })

/-! ## Frames (R370, R393, R394) -/

/-- The frames of a list of ranges. -/
def frameCount (rs : List (Nat × Nat)) : Nat := (rs.map Prod.snd).sum

/-- The first n frames of a list of ranges, and the ranges that remain. -/
def takeFrames : Nat → List (Nat × Nat) → List Nat × List (Nat × Nat)
  | 0, rs => ([], rs)
  | _, [] => ([], [])
  | n + 1, (b, k) :: rest =>
    if n + 1 < k then ((List.range (n + 1)).map (fun i => b + i), (b + (n + 1), k - (n + 1)) :: rest)
    else
      let r := takeFrames (n + 1 - k) rest
      ((List.range k).map (fun i => b + i) ++ r.1, r.2)

/-- A range of home memory that gets new contents: ownership, copies, poison, check values and unit records in it go, and every byte is 0. The lines that
leave a first level are victims (R357). DESIGN CHOICE (log 73): unit records inside it (holders and waiters of locks, cohorts, queues with sleepers) are
dropped, and a team that waits on one goes on waiting; the spec does not say what becomes of them when a window is lowered (R29). -/
def scrub (s : State) (pa n : Nat) : State :=
  let inside (a : Nat) : Bool := decide (pa ≤ a) && decide (a < pa + n)
  { s with
    mem := Memory.zero s.mem pa n,
    own := s.own.filter (fun w => !inside (4 * w.1)),
    poison := s.poison.filter (fun l => !inside (128 * l)),
    checks := s.checks.filter (fun c => !inside (128 * c.1)),
    unitRecs := s.unitRecs.filter (fun r => !inside r.2),
    locks := s.locks.filter (fun x => !inside x.1),
    cohorts := s.cohorts.filter (fun x => !inside x.1),
    queues := s.queues.filter (fun x => !inside x.1),
    cores := s.cores.map (fun c => (c.1, { c.2 with
      l1 := c.2.l1.filter (fun l => !inside (128 * l.pline)),
      victims := (c.2.l1.filter (fun l => inside (128 * l.pline))).foldl noteVictim c.2.victims })) }

/-! ## Command rings: halts and completion entries (R339, R345, R346) -/

def updRing1 (s : State) (k : Nat) (f : CmdRing → CmdRing) : State :=
  match tblGet s.rings k with
  | some r => { s with rings := tblSet s.rings k (f r) }
  | none => s

/-- n published bytes at a position of a ring. -/
def ringRead (s : State) (who : Option Asker) (r : CmdRing) (pos n : Nat) : SBytes × State :=
  let off := pos % r.size
  if off + n ≤ r.size then sconceRead s who r.ctx (r.base + off) n
  else
    let a := sconceRead s who r.ctx (r.base + off) (r.size - off)
    match a.1 with
    | .ok bs =>
      let b := sconceRead a.2 who r.ctx r.base (n - (r.size - off))
      (match b.1 with
      | .ok cs => (.ok (bs ++ cs), b.2)
      | .wait c => (.wait c, b.2)
      | .fail o => (.fail (r.size - off + o), b.2))
    | e => (e, a.2)

/-- A completion entry (R345). -/
structure Entry where
  seq : Nat
  kind : Nat
  cls : Nat
  cls2 : Nat
  type : Nat
  teamid : Nat
  core : Nat
  detail : Nat
  pc : Nat
  deriving DecidableEq, Repr

def entryBytes (e : Entry) : List Byte :=
  bytesOf 4 e.seq ++ bytesOf 1 e.kind ++ bytesOf 1 e.cls ++ bytesOf 1 e.cls2 ++ bytesOf 1 e.type ++ bytesOf 4 e.teamid ++ bytesOf 2 e.core ++
  bytesOf 2 0 ++ bytesOf 8 e.detail ++ bytesOf 8 e.pc

/-- The completion ring's WPTR, shared by the command rings that name it. -/
def compWptrOf (s : State) (r : CmdRing) : Nat :=
  (s.rings.filter (fun k => decide (k.2.ctx = r.ctx) && decide (k.2.comp = r.comp))).foldl (fun m k => if m < k.2.compWptr then k.2.compWptr else m) 0

/-- Entries written while the completion ring has room, each with release (R345). -/
def flushEntries (k : Nat) : Nat → State → State
  | 0, s => s
  | n + 1, s =>
    match tblGet s.rings k with
    | none => s
    | some r =>
      match r.entries with
      | [] => s
      | e :: rest =>
        let w := compWptrOf s r
        if r.compSize < w - r.compRptr + 32 then s
        else
          let s1 := sconcePut s r.ctx (r.compBase + w % r.compSize) e
          let s2 := sconcePut s1 r.ctx (r.comp + 0x10) (bytesOf 8 (w + 32))
          flushEntries k n (updRing1 s2 k (fun r => { r with entries := rest, compWptr := w + 32 }))

/-- An entry for a ring: written, or kept until its completion ring has room. -/
def pushEntry (s : State) (k : Nat) (e : Entry) : State :=
  let s1 := updRing1 s k (fun r => { r with entries := r.entries ++ [entryBytes e] })
  match tblGet s1.rings k with
  | some r => flushEntries k r.entries.length s1
  | none => s1

/-- Statuses of a halted ring (R346). -/
def haltOverrun : Nat := 1
def haltType : Nat := 2
def haltField : Nat := 3
def haltCapability : Nat := 4
def haltSequence : Nat := 5
def haltHost : Nat := 6
def haltFault : Nat := 7

/-- A ring halts (R346): STATUS and DETAIL in its RCB, and a RING_HALTED entry that names the header at RPTR where it can be read. What it waited to read
it asks for no more. -/
def haltRing (s : State) (k status detail : Nat) : State :=
  match tblGet s.rings k with
  | none => s
  | some r =>
    let s1 := sconcePut (dropAsks s (fun w => decide (w = .ring k))) r.ctx (r.rcb + 0x28) (bytesOf 4 status ++ bytesOf 4 detail)
    let s2 := updRing1 s1 k (fun r => { r with status := status, detail := detail })
    let hdr : Option Nat :=
      if status ≠ haltHost ∧ r.rptr + 8 ≤ r.wptr then
        (match (ringRead s2 none r r.rptr 8).1 with
        | .ok bs => some (natOfBytes bs)
        | _ => none)
      else none
    pushEntry s2 k
      { seq := (hdr.map (fun h => bits h 63 32)).getD r.seq, kind := 2, cls := 0, cls2 := 0, type := (hdr.map (fun h => bits h 7 0)).getD 0, teamid := 0,
        core := 0, detail := status + 2 ^ 32 * detail, pc := 0 }

/-- A halt whose DETAIL the spec does not state: a free value (log 35). -/
def haltFree (s : State) (k status : Nat) : State :=
  let q := drawWord s
  haltRing q.2 k status q.1.toNat

/-- COMPLETION_RPTR_REREAD (R345): RPTR reread while the completion ring is full; a bad one halts the command ring. -/
def rereadRptr (s : State) (k : Nat) : State :=
  match tblGet s.rings k with
  | none => s
  | some r =>
    if r.entries = [] then s
    else
      match sconceRead s (some (.ring k)) r.ctx (r.comp + 0x18) 8 with
      | (.ok bs, s1) =>
        let p := natOfBytes bs
        if p % 32 ≠ 0 ∨ compWptrOf s r < p ∨ p < r.compRptr then (if r.status = 0 then haltFree s1 k haltOverrun else s1)
        else flushEntries k r.entries.length (updRing1 s1 k (fun r => { r with compRptr := p }))
      | (_, s1) => s1

def execCompletionRptrReread (ring : Nat) (s : State) : Host.Outcome State Fault Refusal := .next (if s.trust.halted then s else rereadRptr s ring)

/-! ## Packets in flight (R343, R366) -/

/-- A model context's UNLOAD is complete (R366). -/
def unloadDone (s : State) (ms : Nat) : Bool :=
  match tblGet s.models ms with
  | none => true
  | some m =>
    m.layers.all (fun l => decide (l.state = 0) && decide (l.pins = 0)) &&
    s.teams.all (fun t => decide (t.2.cfg.model ≠ some ms)) && s.jobs.all (fun j => decide (j.2.mslot ≠ ms) || (j.2.done && j.2.copies.all (fun c => decide (c.state ≠ 6))))

/-- A packet that has started is complete. -/
def flightDone (s : State) (f : InFlight) : Bool :=
  match f.launch, f.card, f.mslot with
  | some l, _, _ => (tblGet s.launches l).isNone
  | _, some c, _ => s.cards.all (fun d => decide (d.id ≠ c) || decide (d.status ≠ 1))
  | _, _, some ms => unloadDone s ms
  | _, _, _ => true

/-- The flags of a freed slot's layers stay readable in their words (R43, R368). -/
def layerFlagsOut (s : State) (ms : Nat) : State :=
  match tblGet s.models ms with
  | none => s
  | some m =>
    (m.layers.zip m.flagsPa).foldl (fun s lp => homeWrite s lp.2 (flagBytes lp.1)) { s with models := tblErase s.models ms }

/-- The askers that go with a model slot: its dispatch queue, its jobs, its buffers. -/
def asksOf (s : State) (ms : Nat) (w : Asker) : Bool :=
  match w with
  | .dispatch m => decide (m = ms)
  | .job j => decide ((tblGet s.jobs j).map Job.mslot = some ms)
  | .returns b => decide ((tblGet s.buffers b).map ExpertBuf.mslot = some ms)
  | .payload b _ => decide ((tblGet s.buffers b).map ExpertBuf.mslot = some ms)
  | _ => false

/-- What a completing packet leaves: a CARD_FAULTED entry, a freed model-context slot, and the PACKET_DONE entry when it asks for one. -/
def finishFlight (s : State) (k : Nat) (f : InFlight) : State :=
  let s1 := match f.card with
    | some c => (match s.cards.find? (fun d => decide (d.id = c)) with
      | some d =>
        if d.status = 2 then
          pushEntry s k { seq := f.seq, kind := 3, cls := 0, cls2 := 0, type := f.kind, teamid := 0, core := 0, detail := d.ticket, pc := 0 }
        else s
      | none => s)
    | none => s
  let s2 := match f.mslot with
    | some ms =>
      let s1 := dropAsks (layerFlagsOut s1 ms) (asksOf s1 ms)
      { s1 with models := tblErase s1.models ms, buffers := s1.buffers.filter (fun b => decide (b.2.mslot ≠ ms)),
                gates := s1.gates.filter (fun g => decide (g.2.mslot ≠ ms)), jobs := s1.jobs.filter (fun j => decide (j.2.mslot ≠ ms)) }
    | none => s1
  if f.notify then pushEntry s2 k { seq := f.seq, kind := 0, cls := 0, cls2 := 0, type := f.kind, teamid := 0, core := 0, detail := 0, pc := 0 }
  else s2

/-- Completed packets of a ring finished, oldest first. -/
def settleRing (s : State) (k : Nat) : State :=
  match tblGet s.rings k with
  | none => s
  | some r =>
    let done := r.flight.filter (flightDone s)
    done.foldl (fun s f => finishFlight s k f) (updRing1 s k (fun r => { r with flight := r.flight.filter (fun f => !flightDone s f) }))

/-- Every ring's completed packets finished. -/
def settleRings (s : State) : State := (s.rings.map Prod.fst).foldl settleRing s

/-- CARD_COMPLETE (R86, R91). -/
def execCardComplete (card : Nat) (s : State) : Host.Outcome State Fault Refusal :=
  .next (if s.trust.halted then s else settleRings (completeCard s card))

end Sys2Proof.Machine
end

