-- ==== Sys2Proof/Machine/Traffic.lean ====
section
/-! DEFINITION. The steps between cores and home slices (R27 to R35, R40, R49, R67, R201, R385): registrations and acknowledgments, recalls and
evictions, atomic batches, the way-partition register, invalidations of translations, soft errors. -/

namespace Sys2Proof.Machine

/-! ## Work on its way home (R32, R35, R40, R201) -/

/-- The kinds of outbound work. -/
def isRegistration (e : OutEntry) : Bool := match e.work with
  | .registration _ _ => true
  | _ => false

def isHomeWrite (e : OutEntry) : Bool := match e.work with
  | .homeWrite _ _ => true
  | .peerWrite _ _ => true
  | _ => false

def isBatch (e : OutEntry) : Bool := match e.work with
  | .batch _ => true
  | _ => false

/-- Entry ix of a core's outbound queue is the oldest for its line: the next of its line to reach home (R35, R212). -/
def firstOfLine (s : State) (core ix : Nat) : Bool :=
  match (s.core core).out[ix]? with
  | none => false
  | some e => decide ((findIx (fun x => decide (entryLine x = entryLine e)) (s.core core).out).map Prod.fst = some ix)

/-- One entry of a kind served. -/
def serveKind (kind : OutEntry → Bool) (s : State) (core ix : Nat) : State :=
  match (s.core core).out[ix]? with
  | none => s
  | some e => if kind e && firstOfLine s core ix then serveEntry s core ix else s

/-- REGISTRATION (R32). -/
def execRegistration (core ix : Nat) (s : State) : Host.Outcome State Fault Refusal :=
  .next (if s.trust.halted then s else serveKind isRegistration s core ix)

/-- HOME_WRITE_ACKNOWLEDGMENT (R201). -/
def execHomeWriteAcknowledgment (core ix : Nat) (s : State) : Host.Outcome State Fault Refusal :=
  .next (if s.trust.halted then s else serveKind isHomeWrite s core ix)

/-- ATOMIC_BATCH (R40). -/
def execAtomicBatch (core ix : Nat) (s : State) : Host.Outcome State Fault Refusal :=
  .next (if s.trust.halted then s else serveKind isBatch s core ix)

/-- REGISTRATION_ACK (R49): the acknowledgment reaches its core. -/
def takeAck (s : State) (core ix : Nat) : State :=
  match (s.core core).acks[ix]? with
  | none => s
  | some a => serveAck (s.updCore core (fun c => { c with acks := dropNth c.acks ix })) core a

def execRegistrationAck (core ix : Nat) (s : State) : Host.Outcome State Fault Refusal := .next (if s.trust.halted then s else takeAck s core ix)

/-- RECALL (R33): the owner answers a recall of a word. -/
def execRecallWord (word : Nat) (s : State) : Host.Outcome State Fault Refusal := .next (if s.trust.halted then s else recallWord s false word)

/-- L1_EVICTION (R35). -/
def execL1Eviction (core ix : Nat) (s : State) : Host.Outcome State Fault Refusal := .next (if s.trust.halted then s else evictLine s core ix)

/-! ## The way-partition register (R27 to R30) -/

/-- The first address of a slice's window aperture (R23). -/
def windowBase (slice : Nat) : Nat := 0x10000000000 + slice * 0x1000000

/-- A write of WAYS is taken: the slice exists, the value is one of four, no change is in progress (R27). -/
def waysWritable (s : State) (slice ways : Nat) : Bool := decide (slice < 256) && decide (ways ≤ 3) && !(s.slice slice).busy

/-- A raise (R28): the owned words of the slice's lines return home, the new window bytes are 0, BUSY is set. An access to the new bytes waits until BUSY
clears (windowWaits). -/
def raiseWays (s : State) (slice ways : Nat) : State :=
  let old := (s.slice slice).ways
  if waysWritable s slice ways && decide (old < ways) then
    let s1 := (s.own.map Prod.fst).foldl (fun s w => if homeSlice (4 * w) = slice then recallWord s false w else s) s
    let s2 := scrub s1 (windowBase slice + windowSize old) (windowSize ways - windowSize old)
    s2.setSlice slice { s2.slice slice with ways := ways, busy := true, old := old }
  else s

def execWaypartRaise (slice ways : Nat) (s : State) : Host.Outcome State Fault Refusal := .next (if s.trust.halted then s else raiseWays s slice ways)

/-- An address at or above a slice's window of some ways. -/
def aboveWays (slice ways pa : Nat) : Bool := decide (windowBase slice + windowSize ways ≤ pa) && decide (pa < windowBase slice + 0x1000000)

/-- What the cores have sent to a range that a lowering removes reaches its home (R29): outbound work with its acknowledgments, and flushes. -/
def serveRemoved (s : State) (slice ways : Nat) : State :=
  let s1 := (s.cores.map Prod.fst).foldl (fun s c =>
    drainAcks (drainWhere c (fun e => aboveWays slice ways (128 * entryLine e)) (s.core c).out.length s) c
      (fun a => aboveWays slice ways (4 * a.word))) s
  (s1.cores.map Prod.fst).foldl (fun s c =>
    if (s.core c).flushes.any (fun f => aboveWays slice ways f.loop.accPa || aboveWays slice ways f.loop.hdrPa) then
      (List.range (s.core c).flushes.length).foldl (fun s _ => flushNext s c) s
    else s) s1

/-- The raw lines of a range of home memory leave the fetch caches and the instruction caches. -/
def dropRaw (s : State) (pa n : Nat) : State :=
  let keep (l : RawLine) : Bool := !(decide (pa ≤ 128 * l.pline) && decide (128 * l.pline < pa + n))
  { s with cores := s.cores.map (fun c => (c.1, { c.2 with fetchLines := c.2.fetchLines.filter keep, icache := c.2.icache.filter keep })) }

/-- The cohorts and queues at or above a slice's window of some ways at which an operation waits for a record (R42). -/
def waitedObjects (s : State) (slice ways : Nat) : List Nat :=
  ((s.unitWait.filter (fun w => unitLive s w && decide (w.table ≠ .flag) && aboveWays slice ways w.pa)).map UnitWait.pa).dedup

/-- Objects of 64 bytes that keep their contents and their units' state while the range they lie in is scrubbed. -/
def scrubBeside (s0 : State) (keep : List Nat) (pa n : Nat) : State :=
  let s := keep.foldl (fun s a => recallRange s false a 64) s0
  let left (a : Nat) : Bool := decide (a < pa) || decide (pa + n ≤ a) || keep.contains a
  let s1 := scrub s pa n
  { s1 with
    mem := keep.foldl (fun m a => Memory.writes m a (Memory.reads s.mem a 64)) s1.mem,
    cohorts := s.cohorts.filter (fun x => left x.1), queues := s.queues.filter (fun x => left x.1), unitRecs := s.unitRecs.filter (fun r => left r.2) }

/-- A lowering (R29): the top of the window goes with its contents at once. DESIGN CHOICE (log 76): what the cores have sent there counts as having
reached the slice before the write, so that it completes normally. An operation that waits at the slice for a unit record has reached it: its object is
kept for it until the change ends. -/
def lowerWays (s : State) (slice ways : Nat) : State :=
  let old := (s.slice slice).ways
  if waysWritable s slice ways && decide (ways < old) then
    let base := windowBase slice + windowSize ways
    let n := windowSize old - windowSize ways
    let s0 := serveRemoved s slice ways
    let s1 := dropRaw (scrubBeside s0 (waitedObjects s0 slice ways) base n) base n
    s1.setSlice slice { s1.slice slice with ways := ways, busy := true, old := old }
  else s

def execWaypartLower (slice ways : Nat) (s : State) : Host.Outcome State Fault Refusal := .next (if s.trust.halted then s else lowerWays s slice ways)

/-- An access to the removed range is still on its way (R29): outbound work, flushes, MLOOPs that hold a frame there, operations that wait at the slice for a
unit record. -/
def removedInFlight (s : State) (slice : Nat) : Bool :=
  let above (pa : Nat) : Bool := aboveWays slice (s.slice slice).ways pa
  s.cores.any (fun c => c.2.out.any (fun e => above (128 * entryLine e))) ||
  s.unitWait.any (fun w => unitLive s w && above w.pa) ||
  (openMLoops s).any (fun l => above l.accPa || above l.hdrPa || l.frames.any (fun f => above (65536 * f.2)))

/-- WAYPART_CHANGE_COMPLETE (R28, R29): BUSY clears and GEN counts; SLICE_WINDOW messages are judged again. What the last operations have left in a removed
range is discarded as well. -/
def waysDone (s : State) (slice : Nat) : State :=
  let x := s.slice slice
  if x.busy && !removedInFlight s slice then
    endChange (if x.ways < x.old then scrub s (windowBase slice + windowSize x.ways) (windowSize x.old - windowSize x.ways) else s) slice
  else s

def execWaypartChangeComplete (slice : Nat) (s : State) : Host.Outcome State Fault Refusal := .next (if s.trust.halted then s else waysDone s slice)

/-! ## Invalidation of translations (R67) -/

/-- What a TINVAL value covers: SCOPE, the context id, the first page and the pages. -/
structure Range where
  scope : Nat
  ctx : Nat
  vpage : Nat
  count : Nat
  deriving DecidableEq, Repr

def rangeOf (v : DWord) : Range :=
  let n := bits v.toNat 17 2
  { scope := bits v.toNat 19 18, ctx := bits v.toNat 27 20, vpage := bits v.toNat 63 28, count := if n = 0 then 1 else n }

/-- A value of TINVAL with GO. -/
def tinvalWord (scope ctx vpage count : Nat) : DWord := BitVec.ofNat 64 (2 ^ 28 * vpage + 2 ^ 20 * ctx + 2 ^ 18 * scope + 4 * count + 1)

/-- Pages lo to hi of a context meet the range. -/
def Range.meets (r : Range) (ctx lo hi : Nat) : Bool :=
  decide (r.scope = 2) || (decide (r.ctx = ctx) && (decide (r.scope = 1) || (decide (r.vpage ≤ hi) && decide (lo < r.vpage + r.count))))

/-- The pages that an invalidation covers: those of its range, and those of the entries it removed whole. -/
structure Covered where
  range : Range
  gone : List (Nat × Nat × Nat)
  deriving DecidableEq, Repr

def Covered.meets (c : Covered) (ctx lo hi : Nat) : Bool :=
  c.range.meets ctx lo hi || c.gone.any (fun g => decide (g.1 = ctx) && decide (g.2.1 ≤ hi) && decide (lo ≤ g.2.2))

def tlbMeets (r : Range) (e : TlbEntry) : Bool := r.meets e.ctx (e.vbase / 65536) ((e.vbase + 2 ^ e.bits - 1) / 65536)

/-- The first-level lines of a core that a range covers leave it, their dirty words home. -/
def dropLines (r : Range) (core : Nat) : Nat → State → State
  | 0, s => s
  | n + 1, s =>
    match findIx (fun (l : L1Line) => r.meets l.ctx (l.vline / 512) (l.vline / 512)) (s.core core).l1 with
    | none => s
    | some (k, _) => dropLines r core n (evictLine s core k)

/-- A write to one unit's TINVAL: one that is busy ignores it (R67). What the removed entries covered is kept until the invalidation completes. DESIGN
CHOICE (log 72): a write with GO clear, or with the reserved SCOPE 3, leaves the register as it was; the spec states the effect of GO alone. DESIGN CHOICE
(log 80): the lines of the range leave the fetch caches and the instruction caches too; R67 names TLB entries and first-level lines, and R370 says it of a
layer's lines in the fetch caches alone. -/
def invalidateUnit (v : DWord) (s : State) (cl : Nat) : State :=
  let c := s.cluster cl
  let r := rangeOf v
  if bits v.toNat 0 0 = 0 ∨ r.scope = 3 ∨ bits c.tinval.toNat 1 1 = 1 then s
  else
    let s1 := s.setCluster cl { c with
      tlb := c.tlb.filter (fun e => !tlbMeets r e),
      gone := (c.tlb.filter (tlbMeets r)).map (fun e => (e.ctx, e.vbase / 65536, (e.vbase + 2 ^ e.bits - 1) / 65536)),
      tinval := BitVec.ofNat 64 (v.toNat / 4 * 4 + 2) }
    if cl = sconceUnit then s1.setCluster cl { s1.cluster cl with tinval := 0, gone := [] }
    else
      (List.range 8).foldl (fun s k =>
        let s1 := dropLines r (8 * cl + k) (s.core (8 * cl + k)).l1.length s
        if (tblGet s1.cores (8 * cl + k)).isNone then s1
        else s1.updCore (8 * cl + k) (fun c => { c with
          fetchLines := c.fetchLines.filter (fun l => !r.meets l.ctx (l.vline / 512) (l.vline / 512)),
          icache := c.icache.filter (fun l => !r.meets l.ctx (l.vline / 512) (l.vline / 512)) })) s1

/-- The Sconce broadcasts a write to all 64 units, and to its own (log 34). -/
def writeTinval (s : State) (v : DWord) : State := (List.range 65).foldl (invalidateUnit v) s

/-- TINVAL_WRITE (R67). -/
def execTinvalWrite (v : DWord) (s : State) : Host.Outcome State Fault Refusal := .next (if s.trust.halted then s else writeTinval s v)

/-- Some unit's invalidation is in progress. -/
def tinvalBusy (s : State) : Bool := s.clusters.any (fun c => decide (bits c.2.tinval.toNat 1 1 = 1))

/-- The addresses by which an entry's work was translated: a batch's lanes may have come by different pages. -/
def entryVas (e : OutEntry) : List Nat :=
  match e.work with
  | .batch b => b.lanes.map AtomLane.va
  | _ => [e.va]

/-- An access of the cluster translated by a removed entry has not reached its home (R67): outbound work, an MLOOP with its frames (R158), one that a save
stopped included, or a WAIT packet that holds its translation (R344). -/
def translatedInFlight (s : State) (cl : Nat) : Bool :=
  let u := s.cluster cl
  let r : Covered := { range := rangeOf u.tinval, gone := u.gone }
  s.teams.any (fun t => decide (t.2.cfg.core / 8 = cl) && t.2.stopped.any (fun l =>
    l.frames.any (fun f => r.meets l.ctx f.1 f.1) || r.meets l.ctx (l.acc / 65536) (l.acc / 65536))) ||
  s.rings.any (fun k => match k.2.busy with
    | .wait _ va _ _ _ => r.meets k.2.ctx (va / 65536) (va / 65536)
    | _ => false) ||
  (List.range 8).any (fun k =>
    let c := s.core (8 * cl + k)
    c.out.any (fun e => match tblGet s.teams e.team with
      | some t => (entryVas e).any (fun va => r.meets t.cfg.ctx (va / 65536) (va / 65536))
      | none => false) ||
    (c.sequencer ++ c.flushes.map Flush.loop).any (fun l =>
      l.frames.any (fun f => r.meets l.ctx f.1 f.1) || r.meets l.ctx (l.acc / 65536) (l.acc / 65536)))

/-- INVALIDATION_COMPLETE (R67): BUSY clears in a unit once its translated accesses are home; when all are clear, the INVALIDATE message that the Sconce
was serving is answered, and others are judged again. -/
def invalidationDone (s : State) (cl : Nat) : State :=
  let c := s.cluster cl
  if bits c.tinval.toNat 1 1 = 0 ∨ translatedInFlight s cl = true then s
  else
    let v := c.tinval
    let s1 := s.setCluster cl { c with tinval := BitVec.ofNat 64 (v.toNat - 2), gone := [] }
    if tinvalBusy s1 then s1
    else
      let isInv (w : Waiting) : Bool := decide (w.msg.op = 5) && decide (w.msg.sub = 13)
      match s1.waiting.find? (fun w => isInv w && decide (w.cause = some .units)) with
      | some w => requeue (answerMsg { s1 with waiting := s1.waiting.erase w } w.msg stOk []) isInv
      | none => requeue s1 isInv

def execInvalidationComplete (cluster : Nat) (s : State) : Host.Outcome State Fault Refusal :=
  .next (if s.trust.halted then s else invalidationDone s cluster)

/-! ## Soft errors (R19, R385, R410) -/

/-- The physical address of a place at home. -/
def placePa : HomePlace → Nat
  | .dram die channel at_ => dramAddress die channel at_
  | .window slice at_ => windowBase slice + at_

/-- A line at home is poisoned (R19). -/
def poisonLine (s : State) (p : Nat) : State := if s.poison.contains p then s else { s with poison := s.poison ++ [p] }

/-- Bits of an aligned granule at home flip and the code miscorrects it (R410): the bytes change, and the line keeps the check value it had. -/
def flipGranule (s : State) (pa : Nat) (flips : BitVec 64) : State :=
  let a := pa / 8 * 8
  let p := a / 128
  let s1 := { s with mem := Memory.writes s.mem a (bytesOf 8 ((natOfBytes (Memory.reads s.mem a 8)).xor flips.toNat)) }
  match lineCheck s p with
  | some v => carryCheck s1 p v
  | none => s1

/-- SOFT_ERROR: an error in a core or at home, by where it lies. A corrected one is counted, in the core's or in the slice's error counters. -/
def softError (s : State) (x : SoftSite) : State :=
  match x with
  | .cleanWord core => if core < 512 then acquireCore s core else s
  | .dirtyWord core word =>
    (match l1ByPline (s.core core) (word / 32) with
    | some (k, l) =>
      if l.owned.getLsbD (word % 32) || decide (l.dirty &&& runMask 128 (4 * (word % 32)) 4 ≠ 0) then
        setL1 s core k { l with bad := l.bad ||| runMask 32 (word % 32) 1 }
      else s
    | none => s)
  | .vreg team slot reg =>
    s.updTeam team (fun t =>
      if slot < t.cfg.capacity ∧ reg < t.cfg.budget ∧ t.poisonV.contains (192 * slot + reg) = false then
        { t with poisonV := t.poisonV ++ [192 * slot + reg] }
      else t)
  | .scratch core word =>
    if core < 512 ∧ word < 196608 ∧ (s.core core).poisonScratch.contains word = false then
      s.updCore core (fun c => { c with poisonScratch := c.poisonScratch ++ [word] })
    else s
  | .teamState team =>
    (match tblGet s.teams team with
    | some t => if t.wait = .halting then s else haltTeam s team (classCode .integrity, 0, 0, (t.clause.map Clause.header).getD t.pc)
    | none => s)
  | .corrected core => if core < 512 then s.updCore core (fun c => { c with errors := c.errors + 1 }) else s
  | .homeCorrected place =>
    let pa := placePa place
    if isDram pa || isWindowPa pa then s.setSlice (homeSlice pa) { s.slice (homeSlice pa) with errors := (s.slice (homeSlice pa)).errors + 1 } else s
  | .homeError place => if isDram (placePa place) || isWindowPa (placePa place) then poisonLine s (placePa place / 128) else s
  | .homeFlip place flips => if isDram (placePa place) || isWindowPa (placePa place) then flipGranule s (placePa place) flips else s

def execSoftError (site : SoftSite) (s : State) : Host.Outcome State Fault Refusal := .next (if s.trust.halted then s else softError s site)

end Sys2Proof.Machine
end

