-- ==== Sys2Proof/Machine/Service.lean ====
section
/-! DEFINITION. The fault service (R70, R394) and the life of a team: placement, save, restore, retirement and halt (R117, R118, R349 to R351, R358 to
R360, R384). -/

namespace Sys2Proof.Machine

/-! ## Resolving a fault record (R394) -/

/-- The demand range of a context that covers an address. -/
def demandOf (s : State) (ctx va : Nat) : Option DemandRange :=
  (s.demand.find? (fun d => decide (d.1 / 16 = ctx) && decide (d.2.base ≤ va) && decide (va < d.2.base + d.2.len))).map Prod.snd

/-- The tables an address lacks below a table: how many, walking from it (R55). -/
def missingTables (s : State) (va : Nat) : List (Nat × Nat × Nat) → Nat → Nat
  | [], _ => 0
  | (level, low, ib) :: rest, table =>
    if level = 3 then 0
    else
      let e := (homeRead s (table + 8 * (va / 2 ^ low % 2 ^ ib)) 8).1
      if e % 2 = 0 then 3 - level else missingTables s va rest (bits e 47 9 * 512)

/-- The leaf entry written for an address, with the missing tables built in the frames given (R56, R57, R394). -/
def buildPath (va leaf : Nat) : List (Nat × Nat × Nat) → Nat → List Nat → State → State
  | [], _, _, s => s
  | (level, low, ib) :: rest, table, fs, s =>
    let pa := table + 8 * (va / 2 ^ low % 2 ^ ib)
    if level = 3 then homeWrite s pa (bytesOf 8 leaf)
    else
      let e := (homeRead s pa 8).1
      if e % 2 = 1 then buildPath va leaf rest (bits e 47 9 * 512) fs s
      else match fs with
        | [] => s
        | f :: more => buildPath va leaf rest (65536 * f) more (homeWrite (scrub s (65536 * f) 65536) pa (bytesOf 8 (65536 * f + 1)))

/-- The page of a demand range mapped with zeroed frames of the demand pool; none while the pool has too few (R394, step 2). -/
def mapDemand (s : State) (ctx va : Nat) (d : DemandRange) : Option State :=
  match tblGet s.ctxs ctx with
  | none => none
  | some b =>
    let n := 1 + missingTables s va walkLevels b.root
    if frameCount s.demandFree < n then none
    else
      let r := takeFrames n s.demandFree
      match r.1 with
      | [] => none
      | f :: more =>
        let leaf := 65536 * f + 64 * d.policy + (if d.w then 8 else 0) + (if d.r then 4 else 0) + 3
        some (buildPath va leaf walkLevels b.root more (scrub { s with demandFree := r.2 } (65536 * f) 65536))

/-- What becomes of an access of a record: its page is resolved, waits for a frame, or is left to the later steps with the class of its cause. -/
inductive PageFate where
  | resolved
  | waits
  | left (c : TrapClass)
  deriving DecidableEq, Repr

/-- What becomes of an access in the trap record range (R379): an area of the context there is read-only, and beyond the areas nothing is mapped. -/
def recordFate (s : State) (ctx : Nat) (a : Access) : PageFate :=
  if s.areas.any (fun x => decide (x.2.ctx = ctx) && decide (recordBase x.1 / 32768 = a.half)) then
    (if a.need.w || a.need.x then .left .permission else .resolved)
  else .left .invalidAddr

/-- What walking again makes of an access (R394, step 1): resolved where the leaf grants it, left with the class of its cause where it does not. An entry
that can be used for nothing resolves it: the access ends with its own class when it is performed again. -/
def walkAgain (s : State) (ctx : Nat) (a : Access) : PageFate × State :=
  let va := 32768 * a.half
  if isRecordVa va then (recordFate s ctx a, s)
  else
    let w := walk s ctx va
    (match w.1 with
      | .leaf e _ low => if entryLacks (entryOfLeaf ctx va e low false) a.need then .left .permission else .resolved
      | .bad _ => .resolved
      | .notPresent => .left .invalidAddr, w.2)

/-- Steps 1 and 2 of R394 for one access: the walk again, and a demand frame for a page that is not present. -/
def resolveAccess (s : State) (ctx : Nat) (a : Access) : PageFate × State :=
  let va := 32768 * a.half
  let w := walkAgain s ctx a
  if w.1 = .left .invalidAddr ∧ isRecordVa va = false then
    match demandOf w.2 ctx va with
    | none => w
    | some d => match mapDemand w.2 ctx va d with
      | some s1 => (.resolved, s1)
      | none => (.waits, w.2)
  else w

/-- The page numbers of a record. -/
def recordPages (r : FaultRec) : List Nat := ((List.range 64).filter (fun k => r.pages.getLsbD k)).map (fun k => 64 * r.block + k)

/-- The accesses of a record, by ascending page. -/
def recordAccesses (r : FaultRec) : List Access := (recordPages r).flatMap (fun v => r.accs.filter (fun a => decide (a.page = v)))

/-- Steps 1 and 2 for every access: those left with their class, and whether some page waits for a frame. -/
def resolveAll (ctx : Nat) : List Access → State → (List (Access × TrapClass) × Bool) × State
  | [], s => (([], false), s)
  | a :: rest, s =>
    let r := resolveAccess s ctx a
    let q := resolveAll ctx rest r.2
    match r.1 with
    | .resolved => q
    | .waits => ((q.1.1, true), q.2)
    | .left c => (((a, c) :: q.1.1, q.1.2), q.2)

def setRec (s : State) (cl ix : Nat) (r : FaultRec) : State :=
  let c := s.cluster cl
  s.setCluster cl { c with recs := setNth c.recs ix r }

/-- The 16 bytes of a record (R68). -/
def recordWord (r : FaultRec) : Nat :=
  2 ^ 64 * r.pages.toNat + 2 ^ 34 * r.block + 2 ^ 26 * r.ctx + 2 ^ 20 * r.kinds.toNat + 2 ^ 18 * r.cause.toNat + 2 ^ 16 * r.state

/-- The PAGES bits of some accesses. -/
def pagesOfAccs (l : List Access) : BitVec 64 := l.foldl (fun b a => b ||| BitVec.ofNat 64 (2 ^ (a.page % 64))) 0

/-- FAULT_RESOLUTION (R394): the accesses of an OPEN record resolved, asked of the host, or marked; the PAGES value handled is kept for the CONSUMED write.
The trap record range is never asked of the host (R379). While the host is asked, the record keeps the accesses that are left. -/
def resolveRecord (s : State) (cl ix : Nat) : State :=
  match (s.cluster cl).recs[ix]? with
  | none => s
  | some r =>
    if r.state ≠ 1 ∨ r.handled.isSome ∨ r.notice then s
    else
      let q := resolveAll r.ctx (recordAccesses r) s
      match (q.2.cluster cl).recs[ix]? with
      | none => q.2
      | some r1 =>
        let bind := tblGet q.2.ctxs r.ctx
        let ask := (q.1.1.map Prod.fst).filter (fun a => !isRecordVa (32768 * a.half))
        if q.1.2 then q.2
        else if ask ≠ [] ∧ (bind.map CtxBinding.hostFault).getD false = true then
          let s1 := setRec q.2 cl ix { r1 with notice := true, accs := q.1.1.map Prod.fst }
          { s1 with
            notices := s1.notices ++ [{ cluster := cl, ix := ix, ctx := r.ctx, block := r.block, pages := pagesOfAccs ask }],
            sent := s1.sent ++ [{ dest := (bind.map CtxBinding.endpoint).getD 0, op := 7, sub := 0, ctx := r.ctx, tag := 0, status := 0, length := 16,
                                  addr := r.block * 2 ^ 22, payload := bytesOf 16 (recordWord r) }] }
        else setRec q.2 cl ix { r1 with handled := some r.pages, marks := q.1.1 }

def execFaultResolution (cluster rec : Nat) (s : State) : Host.Outcome State Fault Refusal :=
  .next (if s.trust.halted then s else resolveRecord s cluster rec)

/-! ## Consuming it (R70) -/

/-- Accesses marked for delivery reach the teams parked on them, saved ones included. -/
def markTeams (s : State) (cl ctx : Nat) (marks : List (Access × TrapClass)) : State :=
  { s with teams := s.teams.map (fun ut =>
      if ut.2.cfg.core / 8 = cl ∧ ut.2.cfg.ctx = ctx then
        (ut.1, { ut.2 with parked := ut.2.parked.map (fun p => { p with marks := p.marks ++ marks.filter (fun m =>
          p.cause.any (fun c => decide (c = .page m.1))) }) })
      else ut) }

/-- The cards of a unit held at an access that is marked (R91). -/
def cardsMarked (s : State) (cl ctx : Nat) (marks : List (Access × TrapClass)) : List Card :=
  s.cards.filter (fun c => decide (c.ctx = ctx) && decide (c.core / 8 = cl) && (cardHeldAt s c).any (fun a => marks.any (fun m => decide (m.1 = a))))

/-- They end FAULTED. -/
def faultCards (s : State) (cl ctx : Nat) (marks : List (Access × TrapClass)) : State := (cardsMarked s cl ctx marks).foldl (fun s c => endCard s c 2) s

/-- The accesses of the Sconce's own unit that wait for a record's pages: those marked are lost, which their next try finds; the others are made again. -/
def settleAsks (s : State) (cl ctx : Nat) (ps : List Nat) (marks : List (Access × TrapClass)) : State :=
  if cl = sconceUnit then
    { s with asks := s.asks.filterMap (fun k =>
        if k.ctx = ctx ∧ ps.contains k.acc.page ∧ k.lost = false then
          (if marks.any (fun m => decide (m.1 = k.acc)) then some { k with lost := true } else none)
        else some k) }
  else s

/-- What waits for the Sconce's own unit is tried again: its writes, and the messages whose page p names or that found no record (R69, R392). -/
def resumeSconce (s : State) (cl : Nat) (p : Nat → Nat → Bool) : State :=
  if cl = sconceUnit then
    requeueUnrecorded (requeue (retryPuts s) (fun w => w.page.any (p w.msg.ctx)))
  else s

/-- FAULT_RECORD_CONSUME (R70): the write takes effect when PAGES still has the value handled; the teams parked on its pages replay, then the record is
FREE, and the teams that found no record replay (R69). -/
def consumeRecord (s : State) (cl ix : Nat) : State :=
  match (s.cluster cl).recs[ix]? with
  | none => s
  | some r =>
    match r.handled with
    | none => s
    | some p =>
      if r.state ≠ 1 then s
      else if p ≠ r.pages then setRec s cl ix { r with handled := none, marks := [], notice := false }
      else
        let ps := recordPages r
        let s1 := settleAsks (markTeams (setRec s cl ix { r with state := 2 }) cl r.ctx r.marks) cl r.ctx ps r.marks
        let s2 := replayWhere s1 (fun _ t c => decide (t.cfg.core / 8 = cl) && (match c with
          | .page a => decide (t.cfg.ctx = r.ctx) && ps.contains a.page
          | _ => false))
        let s3 := settleRings (faultCards s2 cl r.ctx r.marks)
        let s4 := setRec s3 cl ix FaultRec.reset
        let s5 := replayWhere s4 (fun _ t c => decide (t.cfg.core / 8 = cl) && (match c with
          | .page a => !openRecord s4 cl t.cfg.ctx a.page
          | _ => false))
        resumeSconce (serveQueues s5) cl (fun ctx v => decide (ctx = r.ctx) && ps.contains v)

def execFaultRecordConsume (cluster rec : Nat) (s : State) : Host.Outcome State Fault Refusal :=
  .next (if s.trust.halted then s else consumeRecord s cluster rec)

/-! ## The end of a team (R118, R322, R384) -/

/-- The counts of the QPOP and QLOCK requests still waiting go. -/
def withdrawLate (t : Team) : Team :=
  t.late.foldl (fun t o => match o.wait with
    | .qpop _ => lowerFlag { t with late := t.late.filter (fun x => decide (x.id ≠ o.id)) } o.flag
    | .qlock _ => lowerFlag { t with late := t.late.filter (fun x => decide (x.id ≠ o.id)) } o.flag
    | _ => t) t

/-- QPOP and QLOCK requests still waiting are withdrawn at their slices, their counts gone: they take no record and no lock (R118, R322). -/
def withdraw (s : State) (u : Nat) : State :=
  let s1 := withdrawQueues s u
  let leave (l : Lock) : Lock := { l with waiters := l.waiters.filter (fun w => decide (w.1 ≠ u)) }
  State.updTeam { s1 with locks := s1.locks.map (fun l => (l.1, leave l.2)) } u withdrawLate

/-- The lines of a first level leave it, written back (R35, R52). -/
def writeBack (core : Nat) : Nat → State → State
  | 0, s => s
  | n + 1, s => match (s.core core).l1 with
    | [] => s
    | _ :: _ => writeBack core n (evictLine s core 0)

/-- Every line of a cluster's first levels leaves it. -/
def emptyCluster (s : State) (cl : Nat) : State := (List.range 8).foldl (fun s k => writeBack (8 * cl + k) (s.core (8 * cl + k)).l1.length s) s

/-- A launch whose teams have all ended is complete (R343): its areas go (R379), a fused one's clusters are written back and released (R350). -/
def endLaunch (s : State) (id : Nat) (l : Launch) : State :=
  let s1 := l.clusters.foldl emptyCluster s
  { s1 with launches := tblErase s1.launches id, areas := s1.areas.filter (fun a => decide (a.2.launch ≠ id)) }

/-- A team gone from its core: cohorts, locks, queues, pins and its place; its launch counts it, and requests for its save are judged again. Batches
already accepted go on with their pins (R384); MLOOPs that no MBATCH closed lose theirs (log 50). -/
def removeTeam (s0 : State) (u : Nat) (t : Team) : State :=
  let s := requeue s0 (fun w => decide (w.msg.op = 5) && decide (w.msg.sub = 10))
  let s1 := dropPins (withdrawQueues (leaveLocks (leaveCohorts s u t) u) u) u
  let s2 := unpinAll s1 (t.openLoops.flatMap OpenLoop.pins)
  let s3 := { s2 with orphans := s2.orphans ++ t.batches.filter (fun b => decide (b.loops ≠ [])), teams := tblErase s2.teams u, cur := if s2.cur = some u then none else s2.cur }
  match tblGet s3.launches t.cfg.launch with
  | none => s3
  | some l =>
    let l1 := { l with ended := l.ended + 1 }
    if l1.ended = l1.teams then endLaunch s3 t.cfg.launch l1 else { s3 with launches := tblSet s3.launches t.cfg.launch l1 }

/-- INTEGRITY still held at retirement, of any lane: no lane is left in EXEC there. DEDUCED (log 77): the record names the affected lanes (R276) and the
handler's EXEC, a subset of the path's (R382), is empty, so the team retires again at once. -/
def retirementTrap (t : Team) : Option (TrapInfo × Team) :=
  (integrityTrap { t with exec := BitVec.allOnes 1024 } (fun _ => true) true).map (fun r => (r.1, { r.2 with exec := t.exec }))

/-- A handler entered at retirement has no lane. -/
def retireAgain (t : Team) : Team := if t.wait = .none then { t with exec := 0, wait := .retiring } else t

/-- TEAM_RETIRE (R118, R276, R322): its waiting requests are withdrawn, what the team sent is home, its flags are zero; INTEGRITY still held is taken
there. -/
def retireTeam (s : State) (u : Nat) : State :=
  match tblGet s.teams u with
  | none => s
  | some t =>
    if t.wait ≠ .retiring then s
    else
      let s0 := withdraw s u
      let s1 := drainTeam (drainFlags s0 u) u t.cfg
      match tblGet s1.teams u with
      | none => s
      | some t1 =>
        if !flagsClear t1 then s1
        else match retirementTrap t1 with
          | some (i, t2) => (takeTrap (s1.setTeam u t2) u i).updTeam u retireAgain
          | none => settleRings (removeTeam s1 u t1)

def execTeamRetire (team : Nat) (s : State) : Host.Outcome State Fault Refusal := .next (if s.trust.halted then s else retireTeam s team)

/-- TEAM_HALT (R384): with its entry in the completion ring (R345). -/
def finishHalt (s : State) (u : Nat) : State :=
  match tblGet s.teams u with
  | none => s
  | some t =>
    match t.halt with
    | none => s
    | some (c1, c2, d, pc) =>
      let s1 := drainTeam s u t.cfg
      let ring := (tblGet s1.launches t.cfg.launch).map (fun l => (l.ring, l.seq))
      let s2 := removeTeam s1 u t
      match ring with
      | none => settleRings s2
      | some (k, q) =>
        settleRings (pushEntry s2 k { seq := q, kind := 1, cls := c1, cls2 := c2, type := 1, teamid := t.cfg.teamid, core := t.cfg.core,
                                      detail := d.toNat, pc := pc })

def execTeamHalt (team : Nat) (s : State) : Host.Outcome State Fault Refusal := .next (if s.trust.halted then s else finishHalt s team)

/-! ## The work distributor (R349 to R351) -/

/-- Scratchpad bytes of a request (R72). -/
def scratchSize (n : Nat) : Nat := (n + 767) / 768 * 768

/-- SAVESZ of R347. -/
def saveSize (c b scratch : Nat) : Nat := (16384 + 4 * c * b + scratchSize scratch + 4095) / 4096 * 4096

/-- The teams that hold a core's resources, some left out. -/
def holders (s : State) (core : Nat) (gone : List Nat) : List Team :=
  ((residents s core).filter (fun ut => !gone.contains ut.1)).map Prod.snd

/-- Saved teams due to return to a core. -/
def dueTeams (s : State) (core : Nat) : List Team :=
  (s.teams.filter (fun ut => decide (ut.2.cfg.core = core) && ut.2.saved && !ut.2.hold)).map Prod.snd

/-- Bytes [b, b + n) are clear of the holders' allocations. -/
def scratchClear (hs : List Team) (b n : Nat) : Bool :=
  decide (b + n ≤ 786432) && hs.all (fun t => decide (b + n ≤ t.cfg.spbase) || decide (t.cfg.spbase + t.cfg.spsize ≤ b) || decide (t.cfg.spsize = 0))

/-- The lowest free base of n bytes that is a multiple of 768 (R72); an empty allocation has base 0. -/
def scratchBase (hs : List Team) (n : Nat) : Option Nat :=
  if n = 0 then some 0
  else
    let cands := 0 :: hs.map (fun t => t.cfg.spbase + t.cfg.spsize)
    (cands.filter (fun b => scratchClear hs b n)).foldl (fun m b => match m with
      | none => some b
      | some x => some (if b < x then b else x)) none

/-- Register file bytes of a team (R103). -/
def regBytes (c b : Nat) : Nat := 4 * c * b

/-- The cluster is claimed by a fused launch other than this one. -/
def claimedByOther (s : State) (id cl : Nat) : Bool := s.launches.any (fun l => decide (l.1 ≠ id) && l.2.clusters.contains cl)

/-- The resource check of R349 for a launch on a core, with some teams gone: the scratchpad base. -/
def fits (s : State) (id : Nat) (l : Launch) (gone : List Nat) (core : Nat) : Option Nat :=
  let hs := holders s core gone
  let due := dueTeams s core
  if claimedByOther s id (core / 8) ∨ (l.fuse = true ∧ l.clusters.contains (core / 8) = false) ∨ 32 ≤ hs.length + due.length + gone.length ∨
      due.any (fun t => decide (l.prio ≤ t.cfg.prio)) = true ∨
      1572864 < (hs.map (fun t => regBytes t.cfg.capacity t.cfg.budget)).sum + regBytes l.capacity l.budget ∨
      4 < (hs.map (fun t => t.cfg.rings)).sum + l.rings then none
  else scratchBase hs (scratchSize l.scratch)

/-- The cores in the order they are tried (R349). -/
def coreOrder (s : State) : List Nat :=
  let c0 := match s.lastCore with
    | some c => c + 1
    | none => 0
  (List.range 512).map (fun k => (c0 + k) % 512)

/-- The first core that passes, with the scratchpad base. -/
def findCore (s : State) (id : Nat) (l : Launch) : Option (Nat × Nat) := (coreOrder s).findSome? (fun c => (fits s id l [] c).map (fun b => (c, b)))

/-- A cluster with no resident team and no saved team due to return, unclaimed (R350). -/
def idleCluster (s : State) : Option Nat :=
  (List.range 64).find? (fun cl =>
    s.launches.all (fun l => !l.2.clusters.contains cl) &&
    s.teams.all (fun t => decide (t.2.cfg.core / 8 ≠ cl) || (t.2.saved && t.2.hold)))

/-- Where a launch's next team goes: a core, or for a fused launch one of a newly claimed cluster. -/
def placeFor (s : State) (id : Nat) (l : Launch) : Option (Nat × Nat × Launch) :=
  match findCore s id l with
  | some (c, b) => some (c, b, l)
  | none =>
    if l.fuse then
      match idleCluster s with
      | none => none
      | some cl =>
        let l1 := { l with clusters := l.clusters ++ [cl] }
        (findCore { s with launches := tblSet s.launches id l1 } id l1).map (fun cb => (cb.1, cb.2, l1))
    else none

/-- Insertion of a launch by priority, after its equals. -/
def insertLaunch (x : Nat × Launch) : List (Nat × Launch) → List (Nat × Launch)
  | [] => [x]
  | y :: rest => if y.2.prio < x.2.prio then x :: y :: rest else y :: insertLaunch x rest

/-- Launches with teams still to place: highest priority first, in order of acceptance among equals. -/
def launchOrder (s : State) : List (Nat × Launch) :=
  (s.launches.filter (fun l => decide (l.2.placed < l.2.teams))).foldl (fun acc l => insertLaunch l acc) []

/-- The state of a placed team (R117); its save area is its own part of the launch's (R348). -/
def newTeam (id : Nat) (l : Launch) (core base order : Nat) : Team :=
  { cfg := { launch := id, teamid := l.placed, core := core, ctx := l.ctx, capacity := l.capacity, span := l.span, budget := l.budget, lanes := l.lanes,
             prio := l.prio, handler := l.handler, fsbase := l.fsbase + l.placed * l.fssize, fssize := l.fssize,
             savebase := if l.savebase = 0 then 0 else l.savebase + l.placed * saveSize l.capacity l.budget l.scratch,
             rings := l.rings, fuse := l.fuse, model := l.model, spbase := base, spsize := scratchSize l.scratch },
    pc := l.entry, clause := none, vregs := [],
    sregs := (((Vector.replicate 32 (0 : Word)).set 0 (BitVec.ofNat 32 l.args)).set 1 (BitVec.ofNat 32 (l.args / 2 ^ 32))).set 2 (BitVec.ofNat 32 l.teams)
      |>.set 3 (BitVec.ofNat 32 l.lanes),
    wregs := [], exec := lowMask l.lanes, masks := Vector.replicate 8 0, frame := lowMask l.lanes, held := 0, spent := 0, mode := launchMode,
    flags := Vector.replicate 12 0, fpst := 0, reconv := [], calls := [], spilledEntries := 0, spilledCalls := 0, subidx := [], nwide := 1, handles := Vector.replicate 16 none,
    rings := List.replicate l.rings none, late := [], integrity := [], poisonV := [], wait := .none, parked := none, captured := none, retry := none,
    marked := [], kept := [], handler := none, trapClause := none, pendTrap := none, halt := none, tickets := 0, cards := [], batchNum := 0, openLoops := [],
    batches := [], pins := [], cohorts := [], active := false, order := order, score := 0, permit := false, stopped := [], saved := false, hold := false,
    savedScratch := [], savedPoison := [] }

/-- A team put on a core: its area (R379), its zeroed scratchpad allocation (R72), and the acquire before its first instruction (R197). -/
def putTeam (s : State) (id : Nat) (l : Launch) (core base : Nat) : State :=
  let q := takeId s
  let t := newTeam id l core base q.1
  let s1 := q.2.updCore core (fun c => { c with
    scratch := Memory.zero c.scratch base (scratchSize l.scratch),
    poisonScratch := c.poisonScratch.filter (fun w => !(decide (base ≤ 4 * w) && decide (4 * w < base + scratchSize l.scratch))) })
  let s2 := { s1 with
    teams := tblSet s1.teams q.1 t,
    areas := tblSet s1.areas q.1 { launch := id, ctx := l.ctx, record := none },
    launches := tblSet s1.launches id { l with placed := l.placed + 1 },
    lastCore := some core }
  acquireTeam s2 t.cfg

/-- A fused launch claims its team's cluster: the lines that earlier teams left in its first levels leave them, so that a line lives only in the core and
in the set of R52. -/
def claimCluster (s : State) (id : Nat) (l : Launch) (core : Nat) : State :=
  if l.fuse && !(((tblGet s.launches id).map Launch.clusters).getD []).contains (core / 8) then emptyCluster s (core / 8) else s

/-- TEAM_PLACE (R349, R350): the next team of the first launch that has a place. A fused launch of higher priority is always tried before a lower one, so
that idle clusters go to it first. -/
def placeTeam (s : State) : State :=
  match (launchOrder s).findSome? (fun l => (placeFor s l.1 l.2).map (fun p => (l.1, p))) with
  | none => s
  | some (id, core, base, l) => putTeam (claimCluster s id l core) id l core base

def execTeamPlace (s : State) : Host.Outcome State Fault Refusal := .next (if s.trust.halted then s else placeTeam s)

/-! ## Saves and restores (R351, R358 to R360) -/

/-- Insertion for R351: lowest priority first, most recently placed first. -/
def insertVictim (x : Nat × Team) : List (Nat × Team) → List (Nat × Team)
  | [] => [x]
  | y :: rest =>
    if x.2.cfg.prio < y.2.cfg.prio ∨ (x.2.cfg.prio = y.2.cfg.prio ∧ y.1 < x.1) then x :: y :: rest else y :: insertVictim x rest

/-- The teams a launch of a priority may have saved on a core, in order. -/
def victims (s : State) (core prio : Nat) : List (Nat × Team) :=
  ((residents s core).filter (fun ut => decide (ut.2.cfg.prio < prio) && !ut.2.cfg.fuse && decide (ut.2.cfg.savebase ≠ 0) &&
    decide (ut.2.wait ≠ .retiring) && decide (ut.2.wait ≠ .halting))).foldl (fun acc t => insertVictim t acc) []

/-- The shortest run of victims whose saving lets the team pass. -/
def victimRun (s : State) (id : Nat) (l : Launch) (core : Nat) : List Nat → List Nat → Option (List Nat)
  | [], _ => none
  | v :: rest, gone => if (fits s id l (gone ++ [v]) core).isSome then some (gone ++ [v]) else victimRun s id l core rest (gone ++ [v])

/-- The lowest core on which saves would let a launch's next team pass, with the teams to save (R351). -/
def saveRun (s : State) (id : Nat) (l : Launch) : Option (Nat × List Nat) :=
  if (placeFor s id l).isSome ∨ l.fuse = true then none
  else (List.range 512).findSome? (fun c => (victimRun s id l c ((victims s c l.prio).map Prod.fst) []).map (fun r => (c, r)))

/-- The teams the distributor wants saved (R351): for the first launch in order that fits nowhere and can be helped. -/
def wantedSaves (s : State) : List Nat := (((launchOrder s).findSome? (fun l => saveRun s l.1 l.2)).map Prod.snd).getD []

/-- A launch of higher priority takes a saved team's core next, so the team returns after it (R351). -/
def heldBack (s : State) (t : Team) : Bool :=
  (launchOrder s).any (fun l => decide (t.cfg.prio < l.2.prio) &&
    (match placeFor s l.1 l.2 with
     | some p => decide (p.1 = t.cfg.core)
     | none => decide ((saveRun s l.1 l.2).map Prod.fst = some t.cfg.core)))

/-- A SAVE_TEAM or RESTORE_TEAM message's fields (R393). -/
def msgField (m : UrfelMsg) (off n : Nat) : Nat := natOfBytes ((m.payload.drop off).take n)

/-- The message names the team by its ring, the SEQ of its launch and its teamid (R360). -/
def namesTeam (s : State) (m : UrfelMsg) (t : Team) : Bool :=
  match tblGet s.launches t.cfg.launch with
  | none => false
  | some l =>
    (match tblGet s.rings l.ring with
    | some r => decide (r.rcb = m.addr) && decide (r.ctx = m.ctx)
    | none => false) && decide (l.seq = msgField m 0 4) && decide (t.cfg.teamid = msgField m 4 4)

def isSaveMsg (m : UrfelMsg) : Bool := decide (m.op = 5) && decide (m.sub = 10)

/-- The team stands where a save may take it (R172, R358). -/
def savePoint (t : Team) : Bool :=
  !t.saved && !t.cfg.fuse && decide (t.cfg.savebase ≠ 0) &&
  (match t.wait with
   | .none => t.clause.isNone
   | .fault => true
   | .bar _ _ _ => true
   | .lwait _ _ => true
   | _ => false)

/-- Every count left is of a QPOP or QLOCK that waits at its slice, or of the parked instruction. -/
def flagsSaved (t : Team) : Bool :=
  t.late.all (fun o => (match o.wait with
    | .qpop _ => true
    | .qlock _ => true
    | _ => false) || !lateReady t o && decide (o.wait = .none))

/-- An MLOOP of a team stopped at a K-step boundary (R164): the first one of the core's queue has run half of its steps, whose exact partial is flushed;
the rest wait for the restore (log 30). DESIGN CHOICE (log 84): the footprint by which later cards are ordered (R89) is from now on that of the K-steps left. -/
def stopLoops (s : State) (u : Nat) (t : Team) : State :=
  let c := t.cfg.core
  let mine := (s.core c).sequencer.filter (fun l => decide (l.team = u))
  match mine with
  | [] => s
  | l :: rest =>
    let n := if (nextLoop s (s.core c).sequencer []).map MLoop.id = some l.id then l.ksteps / 2 else 0
    let r : Option (Flush × State) := if n = 0 then none else some (runLoop s l n false)
    let s1 := (r.map Prod.snd).getD s
    let l1 := { l with
      ksteps := l.ksteps - n, abase := ((l.abase : Int) + (n : Int) * l.astep).toNat, bbase := ((l.bbase : Int) + (n : Int) * l.bstep).toNat }
    (s1.updCore c (fun x => { x with
      sequencer := x.sequencer.filter (fun l => decide (l.team ≠ u)),
      flushes := x.flushes ++ (r.map Prod.fst).toList })).updTeam u (fun t => { t with stopped := l1 :: rest })

/-- Another team's MLOOP still reads the team's allocation (R170). -/
def allocationRead (s : State) (u : Nat) (t : Team) : Bool :=
  s.cores.any (fun c => c.2.sequencer.any (fun l => decide (l.team ≠ u) &&
    [runPlace l false, runPlace l true].any (overlaps (t.cfg.core + 1, t.cfg.spbase, t.cfg.spsize))))

/-- n free bytes (log 6). -/
def drawBytes (s : State) (n : Nat) : List Byte × State :=
  ((List.range n).map (fun k => (Config.freeWord (s.fresh + k)).setWidth 8), { s with fresh := s.fresh + n })

/-- Bytes of a team's save area. -/
def saveBytes (t : Team) : Nat := saveSize t.cfg.capacity t.cfg.budget t.cfg.spsize

/-- The save area written (R358), through the Sconce's translation, with what nobody may rely on: its layout is not architectural, so its bytes are free
values. DESIGN CHOICE (log 21): a page of it that is not mapped is not written, and the save goes on. -/
def writeSaveArea (s : State) (t : Team) : State :=
  let q := drawBytes s (saveBytes t)
  ((linePieces t.cfg.savebase q.1.length).foldl (fun (r : List Byte × State) p =>
    (r.1.drop p.2, if (walk r.2 t.cfg.ctx p.1).1 = .notPresent then r.2 else (putRun r.2 t.cfg.ctx p.1 (r.1.take p.2)).2)) q).2

/-- The team's place is freed; what its save area holds of it is kept in the team. -/
def saveNow (s : State) (u : Nat) (t : Team) (hold : Bool) : State :=
  let s1 := stopLoops (writeSaveArea s t) u t
  let bytes := ((s1.core t.cfg.core).scratch.filter (fun c => decide (t.cfg.spbase ≤ c.1) && decide (c.1 < t.cfg.spbase + t.cfg.spsize))).map
    (fun c => (c.1 - t.cfg.spbase, c.2))
  let bad := ((s1.core t.cfg.core).poisonScratch.filter (fun w => decide (t.cfg.spbase ≤ 4 * w) && decide (4 * w < t.cfg.spbase + t.cfg.spsize))).map
    (fun w => w - t.cfg.spbase / 4)
  { s1.updTeam u (fun t => { t with saved := true, hold := hold, active := false, permit := false, savedScratch := bytes, savedPoison := bad }) with
    cur := if s1.cur = some u then none else s1.cur }

/-- TEAM_SAVE (R358, R360): for the distributor, which saves the victims of its run one after another, the lowest priority first (R351); or for SAVE_TEAM
requests, all of which are answered OK once the team is saved. DESIGN CHOICE (log 98): it is held where one of them says HOLD. -/
def saveTeam (s : State) (u : Nat) : State :=
  match tblGet s.teams u with
  | none => s
  | some t0 =>
    let reqs := s.waiting.filter (fun w => isSaveMsg w.msg && namesTeam s w.msg t0)
    if savePoint t0 && (decide (reqs ≠ []) || decide ((wantedSaves s).head? = some u)) then
      let s1 := drainFlags s u
      match tblGet s1.teams u with
      | none => s1
      | some t =>
        if flagsSaved t && !allocationRead s1 u t then
          let s2 := saveNow s1 u t (reqs.any (fun w => decide (msgField w.msg 8 1 % 2 = 1)))
          reqs.foldl (fun s w => answerMsg s w.msg stOk []) { s2 with waiting := s2.waiting.filter (fun w => !reqs.contains w) }
        else s1
    else s

def execTeamSave (team : Nat) (s : State) : Host.Outcome State Fault Refusal := .next (if s.trust.halted then s else saveTeam s team)

/-- A saved team's core has its room again (R77, R359). DEDUCED (log 91): the sequencer's queue, which holds 16 MLOOPs (R159), has room for those it stopped. -/
def canReturn (s : State) (t : Team) : Bool :=
  let hs := holders s t.cfg.core []
  t.saved && !t.hold && !heldBack s t && s.launches.all (fun l => !l.2.clusters.contains (t.cfg.core / 8)) && decide (hs.length < 32) &&
  decide ((hs.map (fun t => regBytes t.cfg.capacity t.cfg.budget)).sum + regBytes t.cfg.capacity t.cfg.budget ≤ 1572864) &&
  decide ((hs.map (fun t => t.cfg.rings)).sum + t.cfg.rings ≤ 4) && scratchClear hs t.cfg.spbase t.cfg.spsize &&
  decide ((s.core t.cfg.core).sequencer.length + t.stopped.length ≤ 16)

/-- What arrived while the team was saved is taken: QPOP records and QLOCK grants with their acquire, a barrier's release, the replay of a parked
instruction, an LWAIT performed again. -/
def resumeTeam (s : State) (u : Nat) (t : Team) : State :=
  let s1 := if t.late.any (lateReady t) then acquireNow (completeAll s u) u t.cfg else s
  match t.wait with
  | .bar _ _ true => wakeBar s1 u
  | .lwait _ _ => s1.updTeam u (fun t => { t with wait := .none })
  | .fault => replay s1 u
  | _ => s1

/-- TEAM_RESTORE (R359). -/
def restoreTeam (s : State) (u : Nat) : State :=
  match tblGet s.teams u with
  | none => s
  | some t =>
    if canReturn s t then
      let q := takeId s
      let s1 := q.2.updCore t.cfg.core (fun c => { c with
        scratch := t.savedScratch.foldl (fun m b => Memory.write m (t.cfg.spbase + b.1) b.2) (Memory.zero c.scratch t.cfg.spbase t.cfg.spsize),
        poisonScratch := c.poisonScratch.filter (fun w => !(decide (t.cfg.spbase ≤ 4 * w) && decide (4 * w < t.cfg.spbase + t.cfg.spsize))) ++
          t.savedPoison.map (fun w => t.cfg.spbase / 4 + w),
        sequencer := c.sequencer ++ t.stopped })
      let t1 := { t with saved := false, score := 0, stopped := [], savedScratch := [], savedPoison := [], order := q.1 }
      resumeTeam (s1.setTeam u t1) u t1
    else s

def execTeamRestore (team : Nat) (s : State) : Host.Outcome State Fault Refusal := .next (if s.trust.halted then s else restoreTeam s team)

end Sys2Proof.Machine
end

