-- ==== Sys2Proof/Machine/Layers.lean ====
section
/-! DEFINITION. The layer loader (R362, R363, R369 to R373, R395): requests served, victims and evictions, bytes from the three kinds of source,
arrival, and failures. -/

namespace Sys2Proof.Machine

/-- The memory with a run of bytes put in place of what it held. -/
def Memory.splice (m : Memory) (a : Nat) (bs : List Byte) : Memory :=
  m.filter (fun c => decide (c.1 < a)) ++
  ((List.range bs.length).zip bs).filterMap (fun p => if p.2 = Memory.unlisted then none else some (a + p.1, p.2)) ++
  m.filter (fun c => decide (a + bs.length ≤ c.1))

/-- Bytes put into frames of a pool: what the range held before is gone. The check values that came with the bytes are the CRC-32C of each line (R409), which
a line not listed in `State.checks` carries. -/
def placeBytes (s : State) (pa : Nat) (bs : List Byte) : State :=
  let s1 := scrub s pa bs.length
  { s1 with mem := Memory.splice s1.mem pa bs }

/-! ## Changes of state -/

/-- A layer's new state is seen: teams parked on it wake, messages and writes of the Sconce that wait for it are judged again. -/
def layerChanged (s : State) (ms k : Nat) : State := requeue (retryPuts (wakeLayer s ms k)) (fun w => decide (w.cause = some (.layer ms k)))

/-- Frames go back to the weight pool. -/
def freeFrames (s : State) (fs : List Nat) : State := { s with weightFree := s.weightFree ++ fs.map (fun f => (f, 1)) }

/-- The load of a layer, if one is under way. -/
def loadOf (s : State) (ms k : Nat) : Option LayerLoad := s.loads.find? (fun l => decide (l.mslot = ms) && decide (l.layer = k))

/-- A load and a queued request of a layer end; the frames return. -/
def dropLoad (s : State) (ms k : Nat) : State :=
  let fs := ((loadOf s ms k).map LayerLoad.frames).getD []
  freeFrames { dropAsks s (fun w => decide (w = .load ms k)) with
    loads := s.loads.filter (fun l => !(decide (l.mslot = ms) && decide (l.layer = k))),
    requests := s.requests.filter (fun r => !(decide (r.mslot = ms) && decide (r.layer = k))) } fs

/-- A failed swap-in recorded in the context and its descriptor (R361, R372). -/
def noteFail (s : State) (ms k why : Nat) : State :=
  match tblGet s.models ms with
  | none => s
  | some m =>
    let first := decide (m.firstfail = 0xFFFF)
    let m1 := { m with failcount := m.failcount + 1, firstfail := if first then k else m.firstfail, failwhy := if first then why else m.failwhy }
    sconcePut { s with models := tblSet s.models ms m1 } m.ctx (m.desc + 0x18)
      (bytesOf 4 m1.failcount.toNat ++ bytesOf 2 m1.firstfail ++ bytesOf 1 m1.failwhy)

/-- A swap-in fails and the layer turns FAILED (R372). -/
def failLayer (s : State) (ms k why : Nat) : State :=
  layerChanged (noteFail (updLayer (dropLoad s ms k) ms k (fun l => { l with state := 4 })) ms k why) ms k

/-- An ARRIVING layer of a context that is unloaded (R366, R369): its request is withdrawn or its load abandoned, which is recorded with reason 6. -/
def abandonLayer (s : State) (ms k : Nat) : State :=
  layerChanged (noteFail (updLayer (dropLoad s ms k) ms k (fun l => { l with state := 0 })) ms k 6) ms k

/-! ## Eviction (R370) -/

/-- A layer turns EVICTING and its region's translations are invalidated in the ring's context id; begun only while no invalidation is in progress. -/
def startEvict (s : State) (ms k : Nat) : State :=
  match tblGet s.models ms, getLayer s ms k with
  | some m, some l =>
    writeTinval (updLayer s ms k (fun l => { l with state := 3 })) (tinvalWord 0 m.ctx (l.vbase / 65536) (l.size / 65536))
  | _, _ => s

/-- A possible victim: the context's PRIO and ECLASS, the moment it was unpinned, slot, layer, frames. -/
structure Cand where
  prio : Nat
  eclass : Nat
  unpinned : Nat
  mslot : Nat
  layer : Nat
  deriving DecidableEq, Repr

/-- The order in which victims are taken. -/
def Cand.before (a b : Cand) : Bool :=
  let key (c : Cand) : List Nat := [c.prio, c.eclass, c.unpinned, c.mslot, c.layer]
  decide (key a < key b)

/-- RESIDENT layers without a pin of contexts whose PRIO is at most the request's; a KEEP layer only for a higher one. -/
def candidates (s : State) (prio : Nat) : List Cand :=
  s.models.flatMap (fun m =>
    if m.2.prio ≤ prio ∧ (m.2.eclass = 2 → m.2.prio < prio) then
      (List.range m.2.layers.length).filterMap (fun k => match m.2.layers[k]? with
        | some l => if l.state = 2 ∧ l.pins = 0 then
            some { prio := m.2.prio, eclass := m.2.eclass, unpinned := l.unpinned, mslot := m.1, layer := k } else none
        | none => none)
    else [])

def firstCand (cs : List Cand) : Option Cand := cs.foldl (fun m c => match m with
  | none => some c
  | some x => some (if c.before x then c else x)) none

/-- Frames that evictions under way will free. -/
def freeing (s : State) : Nat :=
  (s.models.map (fun m => ((m.2.layers.filter (fun l => decide (l.state = 3))).map (fun l => l.frames.length)).sum)).sum

/-- The layers of contexts being unloaded that may be evicted now (R366). -/
def unloadEvict (s : State) : State :=
  if tinvalBusy s then s
  else
    match s.models.findSome? (fun m => if m.2.unload then (findIx (fun (l : Layer) => decide (l.state = 2) && decide (l.pins = 0)) m.2.layers).map
        (fun x => (m.1, x.1)) else none) with
    | some (ms, k) => startEvict s ms k
    | none => s

/-- LAYER_EVICTED (R370, steps 3 and 4). -/
def layerEvicted (s : State) (ms k : Nat) : State :=
  match getLayer s ms k with
  | none => s
  | some l =>
    if l.state = 3 ∧ tinvalBusy s = false then
      let s1 := updLayer (freeFrames s l.frames) ms k (fun l => { l with state := 0, frames := [] })
      settleRings (unloadEvict (layerChanged s1 ms k))
    else s

def execLayerEvicted (mslot layer : Nat) (s : State) : Host.Outcome State Fault Refusal := .next (if s.trust.halted then s else layerEvicted s mslot layer)

/-! ## Requests served (R370, R395) -/

/-- A request comes before another: PRIO of the context, demand before lookahead; the order of request decides between equals. -/
def reqBefore (s : State) (a b : LayerReq) : Bool :=
  let pr (r : LayerReq) : Nat := ((tblGet s.models r.mslot).map ModelCtx.prio).getD 0
  decide (pr b < pr a) || (decide (pr a = pr b) && a.demand && !b.demand)

/-- The kind of source of a request's layer. -/
def reqKind (s : State) (r : LayerReq) : Option Nat := (getLayer s r.mslot r.layer).map Layer.srckind

/-- A load from a kind of source is under way: the loader serves one at a time per kind. -/
def kindBusy (s : State) (kind : Option Nat) : Bool := s.loads.any (fun l => decide ((getLayer s l.mslot l.layer).map Layer.srckind = kind))

/-- The request that a kind of source serves next: the first in order of all those whose kind may be served, where it is of this kind, so that no request
takes frames before one that comes earlier (R370). -/
def nextRequest (s : State) (kind : Nat) : Option LayerReq :=
  ((s.requests.filter (fun r => !kindBusy s (reqKind s r))).foldl (fun m r => match m with
    | none => some r
    | some x => some (if reqBefore s r x then r else x)) none).filter (fun r => decide (reqKind s r = some kind))

/-- The least tag of 64 not in use. -/
def freeTag (l : LayerLoad) : Option Nat := (List.range 64).find? (fun t => (tblGet l.tags t).isNone)

/-- HOST_READ requests sent while fewer than 64 are outstanding (R395). -/
def sendPieces (endpoint ctx src total : Nat) : Nat → LayerLoad × List OutMsg → LayerLoad × List OutMsg
  | 0, r => r
  | n + 1, (l, out) =>
    let next := l.pieces.length + l.tags.length
    if total ≤ next then (l, out)
    else match freeTag l with
      | none => (l, out)
      | some t =>
        sendPieces endpoint ctx src total n
          ({ l with tags := tblSet l.tags t next },
           out ++ [{ dest := endpoint, op := 6, sub := 0, ctx := ctx, tag := t, status := 0, length := 8192, addr := src + 8192 * next, payload := [] }])

/-- Requests for the pieces of a HOST layer that may be asked for now. -/
def askPieces (s : State) (ms k : Nat) : State :=
  match tblGet s.models ms, getLayer s ms k, loadOf s ms k with
  | some m, some l, some d =>
    if l.srckind = 0 then
      let e := ((tblGet s.ctxs m.ctx).map CtxBinding.endpoint).getD 0
      let r := sendPieces e m.ctx l.srcaddr (l.size / 8192) 64 (d, [])
      { s with loads := s.loads.map (fun x => if x = d then r.1 else x), sent := s.sent ++ r.2 }
    else s
  | _, _, _ => s

/-- LAYER_LOAD_START (R370): one load at a time per kind of source; a demand request evicts while frames are short, a lookahead request waits. -/
def startLoad (s0 : State) (kind : Nat) : State :=
  let s := unloadEvict s0
  if kindBusy s (some kind) then s
  else
    match nextRequest s kind with
    | none => s
    | some r =>
      match getLayer s r.mslot r.layer with
      | none => s
      | some l =>
        let n := l.size / 65536
        if frameCount s.weightGiven < n then failLayer s r.mslot r.layer 5
        else if n ≤ frameCount s.weightFree then
          let f := takeFrames n s.weightFree
          askPieces { s with
            weightFree := f.2,
            requests := s.requests.filter (fun x => !(decide (x.mslot = r.mslot) && decide (x.layer = r.layer))),
            loads := s.loads ++ [{ mslot := r.mslot, layer := r.layer, frames := f.1, pieces := [], tags := [] }] } r.mslot r.layer
        else if r.demand && decide (frameCount s.weightFree + freeing s < n) && !tinvalBusy s then
          match firstCand (candidates s (((tblGet s.models r.mslot).map ModelCtx.prio).getD 0)) with
          | none => s
          | some c => startEvict s c.mslot c.layer
        else s

def execLayerLoadStart (kind : Nat) (s : State) : Host.Outcome State Fault Refusal := .next (if s.trust.halted then s else startLoad s kind)

/-! ## Arrival (R369, R372) -/

/-- The leaves of a layer's region, each as R363 requires: their addresses with their values. -/
def layerLeaves (s : State) (m : ModelCtx) (ms k : Nat) (l : Layer) : Option (List (Nat × Nat)) :=
  (List.range (l.size / 65536)).foldr (fun i acc =>
    match (walk s m.ctx (l.vbase + 65536 * i)).1, acc with
    | .leaf e pa low, some r =>
      let t := entryOfLeaf m.ctx (l.vbase + 65536 * i) e low false
      if low = 16 ∧ t.layer = some (ms, k) ∧ t.r = true ∧ t.w = false ∧ t.x = false ∧ t.policy ≠ .accum then some ((pa, e) :: r) else none
    | _, _ => none) (some [])

/-- The bytes that have arrived in a load's frames, read back at home; a line poisoned, or found so at the crossing, gives nothing (R410). -/
def framesBack (s : State) (fs : List Nat) : SBytes × State :=
  let s1 := fs.foldl (fun s f => recallRange s false (65536 * f) 65536) s
  match findIx (linePoisoned s1) (fs.flatMap (fun f => linesOf (65536 * f) 65536)) with
  | some (i, _) => (.fail (128 * i), s1)
  | none => (.ok (fs.flatMap (fun f => Memory.reads s1.mem (65536 * f) 65536)), s1)

/-- The bytes of a layer's source: those already in its frames for HOST, free bytes of a reachable peer (log 9), the region of a BACKING source. -/
def sourceBytes (s : State) (m : ModelCtx) (l : Layer) (d : LayerLoad) : SBytes × State :=
  if l.srckind = 0 then framesBack s d.frames
  else if l.srckind = 1 then
    if bits ((tblGetD s.peers l.peerix 0).toNat) 160 160 = 0 then (.fail 0, s)
    else
      let r := drawWords (l.size / 4) s
      (.ok (r.1.flatMap (fun w => bytesOf 4 w.toNat)), r.2)
  else sconceRead s (some (.load d.mslot d.layer)) m.ctx l.srcaddr l.size

/-- A byte of a source that cannot be had: a line that can be reached but is poisoned is LINE_INTEGRITY, the rest SOURCE_ERROR (R372, R410). -/
def sourceFailed (s : State) (m : ModelCtx) (l : Layer) (off : Nat) : Nat :=
  if l.srckind = 2 then
    match (sconceReach s none m.ctx (l.srcaddr + off) needR).1 with
    | .ok x => if x.peer.isSome then 1 else 3
    | _ => 1
  else if l.srckind = 0 then 3
  else 1

/-- How a load whose bytes are all at hand ends: it still waits, it fails for a reason, or it is RESIDENT with these bytes and leaves. -/
inductive LoadEnd where
  | waits
  | fails (why : Nat)
  | resident (bytes : List Byte) (leaves : List (Nat × Nat))
  deriving DecidableEq, Repr

/-- The judgement of a load (R369, R372): the leaves first, then the source, then CHECK. -/
def judgeLoad (s : State) (ms k : Nat) (m : ModelCtx) (l : Layer) (d : LayerLoad) : LoadEnd × State :=
  if l.srckind = 0 ∧ d.pieces.length < l.size / 8192 then (.waits, s)
  else
    match layerLeaves s m ms k l with
    | none => (.fails 4, s)
    | some ls =>
      let b := sourceBytes s m l d
      match b.1 with
      | .wait _ => (.waits, b.2)
      | .fail off => (.fails (sourceFailed b.2 m l off), b.2)
      | .ok bs => if crc32c bs = l.check then (.resident bs ls, b.2) else (.fails 2, b.2)

/-- The layer turns RESIDENT: the bytes lie in its frames, where those of a HOST source lie already, the leaves' physical pages are rewritten, LOADS counts
(R363, R369). -/
def settleLayer (s : State) (ms k : Nat) (d : LayerLoad) (bs : List Byte) (leaves : List (Nat × Nat)) : State :=
  let s1 := if (getLayer s ms k).map Layer.srckind = some 0 then s
    else ((List.range d.frames.length).zip d.frames).foldl (fun s p => placeBytes s (65536 * p.2) ((bs.drop (65536 * p.1)).take 65536)) s
  let s2 := (leaves.zip d.frames).foldl (fun s p =>
    let e := p.1.2
    homeWrite s p.1.1 (bytesOf 8 (e / 2 ^ 48 * 2 ^ 48 + 65536 * p.2 + e % 65536))) s1
  let q := takeId { dropAsks s2 (fun w => decide (w = .load ms k)) with loads := s2.loads.filter (fun x => decide (x ≠ d)) }
  layerChanged (updLayer q.2 ms k (fun l => { l with state := 2, loads := l.loads + 1, unpinned := q.1, frames := d.frames })) ms k

/-- LAYER_ARRIVED (R369); a load that R372 fails ends so. -/
def arriveLayer (s : State) (ms k : Nat) : State :=
  match tblGet s.models ms, getLayer s ms k, loadOf s ms k with
  | some m, some l, some d =>
    let r := judgeLoad s ms k m l d
    (match r.1 with
    | .waits => r.2
    | .fails why => failLayer r.2 ms k why
    | .resident bs ls => settleLayer r.2 ms k d bs ls)
  | _, _, _ => s

def execLayerArrived (mslot layer : Nat) (s : State) : Host.Outcome State Fault Refusal := .next (if s.trust.halted then s else arriveLayer s mslot layer)

/-- LAYER_LOAD_FAILED (R372): reasons 1 and 3 come also from outside while a load is under way; 2, 4 and 5 are the loader's own findings; 6 belongs to a
context that is being unloaded. -/
def loadFailed (s : State) (ms k why : Nat) : State :=
  match tblGet s.models ms, getLayer s ms k with
  | some m, some l =>
    if l.state ≠ 1 then s
    else if why = 1 ∨ why = 3 then (if (loadOf s ms k).isSome then failLayer s ms k why else s)
    else if why = 2 ∨ why = 4 then
      match loadOf s ms k with
      | none => s
      | some d =>
        let r := judgeLoad s ms k m l d
        if r.1 = .fails why then failLayer r.2 ms k why else s
    else if why = 5 then
      (if (loadOf s ms k).isNone && decide (frameCount s.weightGiven < l.size / 65536) then failLayer s ms k 5 else s)
    else if why = 6 ∧ m.unload = true then abandonLayer s ms k
    else s
  | _, _ => s

def execLayerLoadFailed (mslot layer why : Nat) (s : State) : Host.Outcome State Fault Refusal :=
  .next (if s.trust.halted then s else loadFailed s mslot layer why)

/-- A HOST_READ answer (R395): its piece goes into the load's frames; a bad status or length fails the load. False when no request has the tag. -/
def takePiece (s : State) (m : UrfelMsg) : Bool × State :=
  let hit (l : LayerLoad) : Bool :=
    (tblGet l.tags m.tag).isSome && decide ((tblGet s.models l.mslot).map ModelCtx.ctx = some m.ctx) &&
    decide ((getLayer s l.mslot l.layer).map Layer.srckind = some 0)
  match s.loads.find? hit with
  | none => (false, s)
  | some l =>
    if m.status ≠ 0 ∨ m.length ≠ 8192 ∨ m.payload.length ≠ 8192 then (true, failLayer s l.mslot l.layer 1)
    else
      let p := tblGetD l.tags m.tag 0
      let s1 := placeBytes s (65536 * nthD l.frames (p / 8) 0 + 8192 * (p % 8)) m.payload
      let l1 := { l with tags := tblErase l.tags m.tag, pieces := l.pieces ++ [p] }
      (true, askPieces { s1 with loads := s1.loads.map (fun x => if x = l then l1 else x) } l.mslot l.layer)

end Sys2Proof.Machine
end

