-- ==== Sys2Proof/Machine/Rings.lean ====
section
/-! DEFINITION. Command rings and their packets (R337 to R348, R353, R361 to R367): the checks of R342 in order, and one step for each packet. -/

namespace Sys2Proof.Machine

/-! ## Capabilities (R337, R338) -/

def permRead : Nat := 1
def permWrite : Nat := 2
def permExec : Nat := 4
def permSignal : Nat := 8
def otMemory : Nat := 0
def otCommand : Nat := 1
def otCompletion : Nat := 2
def otFeed : Nat := 3
def otModel : Nat := 4
def otSave : Nat := 5

/-- The capability covers n bytes at an address with an OTYPE. -/
def Capability.covers (c : Capability) (otype va n : Nat) : Bool :=
  decide (c.otype = otype) && decide (c.base ≤ va) && decide (va + n ≤ c.base + c.length)

/-- Some capability of the ring covers the bytes with the OTYPE and every PERM asked for (R338); no bytes need none (log 36). -/
def capFor (r : CmdRing) (otype perm va n : Nat) : Bool :=
  decide (n = 0) || r.caps.any (fun c => c.covers otype va n && decide (c.perm &&& perm = perm))

/-! ## The checks of R342 -/

/-- n bytes of a packet from an offset, as a number. -/
def pf (bs : List Byte) (off n : Nat) : Nat := natOfBytes ((bs.drop off).take n)

/-- The length of a packet by its TYPE, in 8-byte units (R343); a FEED packet's depends on its n. -/
def packetLen (ty len : Nat) : Bool :=
  if ty = 1 then decide (len = 10)
  else if ty = 2 then decide (11 ≤ len) && decide ((len - 3) % 8 = 0)
  else if ty = 3 ∨ ty = 7 ∨ ty = 8 then decide (len = 2)
  else if ty = 4 ∨ ty = 6 then decide (len = 3)
  else if ty = 5 then decide (len = 4)
  else decide (len = 1)

/-- The limits of LAUNCH's fields (R347), on the packet's own bytes. -/
def launchFields (r : CmdRing) (bs : List Byte) : Bool :=
  let c := pf bs 0x36 2
  decide (pf bs 0x08 8 % 4 = 0) && decide (pf bs 0x18 8 % 4 = 0) && decide (pf bs 0x20 8 % 256 = 0) && decide (pf bs 0x28 8 % 4096 = 0) &&
  decide (1 ≤ pf bs 0x30 4) && decide (pf bs 0x30 4 ≤ 2 ^ 24) && decide (1 ≤ pf bs 0x34 2) && decide (pf bs 0x34 2 ≤ c) &&
  [32, 64, 128, 256, 512, 1024].contains c && decide (pf bs 0x38 4 % 256 = 0) && decide (pf bs 0x3C 4 ≤ 786432) &&
  decide (1 ≤ pf bs 0x44 1) && decide (pf bs 0x44 1 ≤ 192) && [16, 32, 64].contains (pf bs 0x45 1) && decide (pf bs 0x45 1 ≤ c) &&
  decide (pf bs 0x46 1 ≤ 4) && decide (pf bs 0x47 1 ≤ r.maxprio) && decide (bits (pf bs 0x48 4) 7 1 = 0) &&
  decide (bits (pf bs 0x48 4) 31 13 = 0) && decide (pf bs 0x4C 4 = 0)

/-- Check 4 on a packet's fields: fine, or BAD_FIELD with the offset where R364 states one. -/
inductive FieldRes where
  | fine
  | bad (detail : Option Nat)
  deriving DecidableEq, Repr

def fieldIf (b : Bool) (detail : Option Nat) : FieldRes := if b then .fine else .bad detail

def fieldCheck (r : CmdRing) (ty : Nat) (bs : List Byte) : FieldRes :=
  let w := pf bs 0x08 8
  if ty = 1 then fieldIf (launchFields r bs) none
  else if ty = 2 then fieldIf (decide (w % 64 = 0) && decide (pf bs 0x10 8 ≤ 8191) && decide (bs.length = 24 + 64 * pf bs 0x10 8)) none
  else if ty = 3 then fieldIf (decide (w % 256 = 0)) none
  else if ty = 4 then fieldIf (decide (w % 8 = 0)) none
  else if ty = 5 then fieldIf (decide (w % 8 = 0) && decide (pf bs 0x18 8 ≤ 2)) none
  else if ty = 6 then
    if w % 64 ≠ 0 then .bad (some 0x08)
    else fieldIf (decide (bits (pf bs 0x10 8) 7 4 = 0) && decide (bits (pf bs 0x10 8) 63 9 = 0)) (some 0x10)
  else if ty = 7 then
    fieldIf (decide (bits w 7 4 = 0) && decide (bits w 15 14 = 0) && decide (bits w 19 18 = 0) && decide (bits w 63 24 = 0) &&
      decide (bits w 13 8 ≤ r.maxprio) && decide (bits w 17 16 ≠ 3)) (some 0x08)
  else if ty = 8 then
    fieldIf (decide (bits w 15 4 = 0) && decide (bits w 63 41 = 0) && decide (1 ≤ bits w 39 28)) (some 0x08)
  else .fine

/-- Check 5: the byte offset of the first field whose capability is missing (R338, R344, R347, R353, R364). DESIGN CHOICE (log 103): SAVEBASE of a launch
with FUSE, which R350 ignores, is checked all the same, here and for its alignment. -/
def capCheck (r : CmdRing) (ty : Nat) (bs : List Byte) : Option Nat :=
  let w := pf bs 0x08 8
  let need (b : Bool) (off : Nat) : Option Nat := if b then none else some off
  if ty = 1 then
    let t := pf bs 0x30 4
    (need (capFor r otMemory permExec w 12) 0x08).or <|
    (need (capFor r otMemory permRead (pf bs 0x10 8) (pf bs 0x40 4)) 0x10).or <|
    (need (decide (pf bs 0x18 8 = 0) || capFor r otMemory permExec (pf bs 0x18 8) 12) 0x18).or <|
    (need (capFor r otMemory permWrite (pf bs 0x20 8) (t * pf bs 0x38 4)) 0x20).or <|
    need (decide (pf bs 0x28 8 = 0) ||
      capFor r otSave permWrite (pf bs 0x28 8) (t * saveSize (pf bs 0x36 2) (pf bs 0x44 1) (pf bs 0x3C 4))) 0x28
  else if ty = 2 then need (capFor r otFeed permWrite w 64) 0x08
  else if ty = 3 then need (capFor r otMemory permRead w 256) 0x08
  else if ty = 4 then need (capFor r otMemory (permWrite + permSignal) w 8) 0x08
  else if ty = 5 then need (capFor r otMemory (permRead + permSignal) w 8) 0x08
  else if ty = 6 then need (capFor r otModel (permRead + permWrite) w 64) 0x08
  else none

/-- What stands at RPTR: nothing to read now, a byte whose page is waited for, a halt (with DETAIL where the spec states it), or a packet that has
passed checks 1 to 5. -/
inductive PktRes where
  | idle
  | held
  | halt (status : Nat) (detail : Option Nat)
  | ok (bs : List Byte)
  deriving DecidableEq, Repr

/-- The packet at RPTR, through checks 1 to 5. -/
def nextPacket (s : State) (k : Nat) : PktRes × State :=
  match tblGet s.rings k with
  | none => (.idle, s)
  | some r =>
    if r.status ≠ 0 ∨ r.entries ≠ [] ∨ r.busy ≠ .none ∨ r.wptr = r.rptr then (.idle, s)
    else if r.wptr - r.rptr < 8 then (.halt haltOverrun none, s)
    else
      let h := ringRead s (some (.ring k)) r r.rptr 8
      match h.1 with
      | .wait _ => (.held, h.2)
      | .fail o => (.halt haltFault (some o), h.2)
      | .ok hb =>
        let x := natOfBytes hb
        let len := bits x 31 16
        let ty := bits x 7 0
        if r.size < 8 * len ∨ r.wptr - r.rptr < 8 * len then (.halt haltOverrun none, h.2)
        else if bits x 63 32 ≠ r.seq then (.halt haltSequence none, h.2)
        else if ty = 0 ∨ 9 < ty then (.halt haltType none, h.2)
        else if packetLen ty len = false ∨ bits x 15 10 ≠ 0 then (.halt haltField none, h.2)
        else
          let b := ringRead h.2 (some (.ring k)) r r.rptr (8 * len)
          match b.1 with
          | .wait _ => (.held, b.2)
          | .fail o => (.halt haltFault (some o), b.2)
          | .ok bs =>
            match fieldCheck r ty bs with
            | .bad d => (.halt haltField d, b.2)
            | .fine =>
              match capCheck r ty bs with
              | some off => (.halt haltCapability (some off), b.2)
              | none => (.ok bs, b.2)

/-- A halt with its DETAIL, or with a free one where the spec states none (log 35). -/
def haltWith (s : State) (k status : Nat) (detail : Option Nat) : State :=
  match detail with
  | some d => haltRing s k status d
  | none => haltFree s k status

/-- The packet at RPTR judged where it can be read now. -/
def checkNext (s : State) (k : Nat) : State :=
  let r := nextPacket s k
  match r.1 with
  | .halt st d => haltWith r.2 k st d
  | _ => r.2

/-- The Sconce reads a ring's WPTR (R340): below its previous value, or beyond RPTR + SIZE, it halts the ring. While the page or the layer of the control
block must be waited for (R394), the read stays to be made. DESIGN CHOICE (log 92): one whose address cannot be used leaves the ring as it is. -/
def readWptr (s : State) (k : Nat) : State :=
  match tblGet s.rings k with
  | none => s
  | some r =>
    if r.status ≠ 0 then s
    else
      let b := sconceRead s (some (.ring k)) r.ctx (r.rcb + 0x10) 8
      let read : State := { b.2 with wptrReads := b.2.wptrReads.filter (fun j => decide (j ≠ k)) }
      match b.1 with
      | .ok bs =>
        let w := natOfBytes bs
        if w < r.wptr ∨ r.rptr + r.size < w then haltFree read k haltOverrun
        else checkNext (updRing1 read k (fun r => { r with wptr := w })) k
      | .wait _ => if b.2.wptrReads.contains k then b.2 else { b.2 with wptrReads := b.2.wptrReads ++ [k] }
      | .fail _ => read

/-! ## Starting and completing packets (R341 to R343) -/

def pktSeq (bs : List Byte) : Nat := pf bs 4 4
def pktNotify (bs : List Byte) : Bool := decide (bits (pf bs 0 8) 9 9 = 1)
def pktBarrier (bs : List Byte) : Bool := decide (bits (pf bs 0 8) 8 8 = 1)

/-- A packet in flight, waiting for nothing. -/
def flightOf (bs : List Byte) : InFlight :=
  { seq := pktSeq bs, kind := pf bs 0 1, notify := pktNotify bs, launch := none, card := none, mslot := none }

/-- The packet has passed and started: RPTR advances by its length, the next SEQ is one more (R341, R342). -/
def passPacket (s : State) (k : Nat) (bs : List Byte) : State :=
  match tblGet s.rings k with
  | none => s
  | some r =>
    let p := r.rptr + bs.length
    sconcePut (updRing1 s k (fun r => { r with rptr := p, seq := (r.seq + 1) % 2 ^ 32 })) r.ctx (r.rcb + 0x18) (bytesOf 8 p)

/-- The packet is in flight; those that are complete finish, and the next one is judged. -/
def startFlight (s : State) (k : Nat) (f : InFlight) : State :=
  checkNext (settleRing (updRing1 s k (fun r => { r with flight := r.flight ++ [f] })) k) k

/-- The packet that held its ring is complete. -/
def endBusy (s : State) (k : Nat) (f : InFlight) : State :=
  checkNext (finishFlight (updRing1 s k (fun r => { r with busy := .none })) k f) k

/-- A packet of a TYPE at RPTR that may start now: BARRIER, SIGNAL and FENCE wait for every earlier packet. -/
def onPacket (k ty : Nat) (body : CmdRing → List Byte → State → State) (s : State) : State :=
  let q := nextPacket s k
  match q.1, tblGet q.2.rings k with
  | .halt st d, _ => haltWith q.2 k st d
  | .ok bs, some r =>
    if pf bs 0 1 ≠ ty then q.2
    else if (pktBarrier bs ∨ ty = 4 ∨ ty = 9) ∧ r.flight ≠ [] then q.2
    else body r bs q.2
  | _, _ => q.2

/-! ## LAUNCH (R347, R348) -/

/-- What check 6 finds at a function header: well formed, to wait for, or not. -/
inductive HdrRes where
  | ok
  | held
  | bad
  deriving DecidableEq, Repr

/-- A reading of the Sconce that a leaf of any permission serves: a header lies on a code page (log 37). -/
def needNone : Need := { r := false, w := false, x := false, kind := 0 }

def launchHeader (s : State) (who : Option Asker) (ctx va b : Nat) : HdrRes × State :=
  let r := sconceReadAs needNone true s who ctx va 12
  match r.1 with
  | .wait _ => (.held, r.2)
  | .fail _ => (.bad, r.2)
  | .ok bs =>
    let w (i : Nat) : Word := BitVec.ofNat 32 (pf bs (4 * i) 4)
    match fnWords [w 0, w 1, w 2] with
    | some (h, _, _) => (if h.rule = .same ∧ h.vbudget ≤ b ∧ h.narg = 0 ∧ h.nret = 0 then .ok else .bad, r.2)
    | none => (.bad, r.2)

/-- The launch of a packet. -/
def launchOf (k : Nat) (r : CmdRing) (bs : List Byte) : Launch :=
  let ctl := pf bs 0x48 4
  let h := pf bs 0x18 8
  { ring := k, seq := pktSeq bs, ctx := r.ctx, entry := pf bs 0x08 8 + 8, args := pf bs 0x10 8, handler := if h = 0 then none else some (h + 8),
    fsbase := pf bs 0x20 8, fssize := pf bs 0x38 4, savebase := pf bs 0x28 8, teams := pf bs 0x30 4, lanes := pf bs 0x34 2, capacity := pf bs 0x36 2,
    span := pf bs 0x45 1, budget := pf bs 0x44 1, scratch := pf bs 0x3C 4, rings := pf bs 0x46 1, prio := pf bs 0x47 1, fuse := decide (ctl % 2 = 1),
    model := if bits ctl 12 12 = 1 then some (bits ctl 11 8) else none, placed := 0, ended := 0, clusters := [] }

/-- The model slot a launch or a packet names is loaded on its ring (R348). DESIGN CHOICE (log 99): a slot whose UNLOAD is pending counts as loaded until
the UNLOAD is complete. -/
def slotOf (s : State) (k ms : Nat) : Option ModelCtx := (tblGet s.models ms).bind (fun m => if m.ring = k then some m else none)

def launchBody (k : Nat) (r : CmdRing) (bs : List Byte) (s : State) : State :=
  let b := pf bs 0x44 1
  let h1 := launchHeader s (some (.ring k)) r.ctx (pf bs 0x08 8) b
  let h2 := if pf bs 0x18 8 = 0 then (HdrRes.ok, h1.2) else launchHeader h1.2 (some (.ring k)) r.ctx (pf bs 0x18 8) b
  let l := launchOf k r bs
  let slot := match l.model with
    | some ms => (slotOf s k ms).isSome
    | none => true
  if h1.1 = .held then h1.2
  else if h1.1 = .bad then haltFree h1.2 k haltField
  else if h2.1 = .held then h2.2
  else if h2.1 = .bad ∨ slot = false then haltFree h2.2 k haltField
  else
    let q := takeId (passPacket h2.2 k bs)
    startFlight { q.2 with launches := tblSet q.2.launches q.1 l } k { flightOf bs with launch := some q.1 }

/-- LAUNCH. -/
def execLaunch (ring : Nat) (s : State) : Host.Outcome State Fault Refusal := .next (if s.trust.halted then s else onPacket ring 1 (launchBody ring) s)

/-! ## FEED (R353) -/

/-- The records of a FEED packet. -/
def feedRecords (bs : List Byte) : List (List Byte) := (List.range (pf bs 0x10 8)).map (fun i => (bs.drop (24 + 64 * i)).take 64)

/-- A FEED packet starts: its queue's descriptor is judged (R352), its records are held. -/
def feedBody (k : Nat) (r : CmdRing) (bs : List Byte) (s : State) : State :=
  let a := sconceReach s (some (.ring k)) r.ctx (pf bs 0x08 8) needW
  match a.1 with
  | .wait _ => a.2
  | .fail => haltFree a.2 k haltField
  | .ok m =>
    if m.peer.isSome || m.record.isSome then haltFree a.2 k haltField
    else
      let q := queueAt a.2 r.ctx m.pa
      match q.1 with
      | none => haltFree q.2 k haltField
      | some _ => updRing1 (passPacket q.2 k bs) k (fun r => { r with busy := .feed (flightOf bs) m.pa (feedRecords bs) })

/-- One record appended, in order; a full queue or an unmapped storage page holds the ring, and so does a unit table without a record, for which the
packet waits in its turn (R42). DESIGN CHOICE (log 100): a descriptor found bad between two records halts the ring with BAD_FIELD; the packet, which has
started, is given up with the records appended so far, and RPTR stays past it. -/
def feedStep (s : State) (k : Nat) (r : CmdRing) (f : InFlight) (pa : Nat) (recs : List (List Byte)) : State :=
  match recs with
  | [] => endBusy s k f
  | b :: rest =>
    let e : UnitWait := { table := .queue, op := .feed, who := k, pa := pa, id := 0 }
    match unitGate s e with
    | none => unitHold s e
    | some s0 =>
      let q := queueAt s0 r.ctx pa
      match q.1 with
      | none => haltFree (updRing1 q.2 k (fun r => { r with busy := .none })) k haltField
      | some x =>
        let a := appendRecord q.2 (some (.ring k)) sconceCore none pa x b
        match a.1 with
        | .done s1 => if rest = [] then endBusy s1 k f else updRing1 s1 k (fun r => { r with busy := .feed f pa rest })
        | _ => a.2

/-- FEED: the packet starts, or the next of its records is appended. -/
def feedRing (s : State) (k : Nat) : State :=
  match tblGet s.rings k with
  | none => s
  | some r => match r.busy with
    | .feed f pa recs => feedStep s k r f pa recs
    | _ => onPacket k 2 (feedBody k) s

def execFeed (ring : Nat) (s : State) : Host.Outcome State Fault Refusal := .next (if s.trust.halted then s else feedRing s ring)

/-! ## CARD, SIGNAL, WAIT, FENCE (R344) -/

/-- CARD: the card is judged as R87 gives, in the ring's context, and accepted; its ticket is a number of its own (log 38). DESIGN CHOICE (log 68): a card
of a ring has no issuing team, core or cluster, so a window region in it lies outside every allocation and the card is refused. -/
def cardPacketBody (k : Nat) (r : CmdRing) (bs : List Byte) (s : State) : State :=
  let a := sconceRead s (some (.ring k)) r.ctx (pf bs 0x08 8) 256
  match a.1 with
  | .wait _ => a.2
  | .fail _ => haltFree a.2 k haltField
  | .ok cs =>
    let c : BitVec 2048 := BitVec.ofNat 2048 (natOfBytes cs)
    match acceptCard (fun va _ => if isWindowVa va then .out else .no) c with
    | none => haltFree a.2 k haltField
    | some _ =>
      let q := takeId a.2
      let t := drawWord q.2
      let s1 := addCard t.2 { id := q.1, bits := c, ctx := r.ctx, core := sconceCore, team := none, ring := some (k, pktSeq bs), ticket := t.1.toNat,
                              status := 1, started := false, pins := [], after := [], afterLoops := [], spbase := 0, spsize := 0,
                              row := 0, got := [], put := 0 }
      startFlight (passPacket s1 k bs) k { flightOf bs with card := some q.1 }

def execCardPacket (ring : Nat) (s : State) : Host.Outcome State Fault Refusal :=
  .next (if s.trust.halted then s else onPacket ring 3 (cardPacketBody ring) s)

/-- SIGNAL: Mem64(ADDR) ← VALUE at the home slice, with release: every earlier packet of the ring is complete. -/
def signalBody (k : Nat) (r : CmdRing) (bs : List Byte) (s : State) : State :=
  let a := sconceReach s (some (.ring k)) r.ctx (pf bs 0x08 8) needW
  match a.1 with
  | .wait _ => a.2
  | .fail => haltRing a.2 k haltFault 0x08
  | .ok m =>
    let s1 := if m.peer.isSome || m.record.isSome then a.2 else homeWrite a.2 m.pa (bytesOf 8 (pf bs 0x10 8))
    startFlight (passPacket s1 k bs) k (flightOf bs)

def execSignal (ring : Nat) (s : State) : Host.Outcome State Fault Refusal := .next (if s.trust.halted then s else onPacket ring 4 (signalBody ring) s)

/-- WAIT starts: its translation is held until it completes. -/
def waitBody (k : Nat) (r : CmdRing) (bs : List Byte) (s : State) : State :=
  let va := pf bs 0x08 8
  let a := sconceReach s (some (.ring k)) r.ctx va needR
  match a.1 with
  | .wait _ => a.2
  | .fail => haltRing a.2 k haltFault 0x08
  | .ok m =>
    let p : PollAt := match m.record with
      | some (u, off) => .record u off
      | none => if m.peer.isSome then .peer else .home m.pa
    updRing1 (passPacket a.2 k bs) k (fun r => { r with busy := .wait (flightOf bs) va p (BitVec.ofNat 64 (pf bs 0x10 8)) (pf bs 0x18 8) })

def execWait (ring : Nat) (s : State) : Host.Outcome State Fault Refusal := .next (if s.trust.halted then s else onPacket ring 5 (waitBody ring) s)

/-- The word a WAIT polls, read as a DIRECT load reads it (R34, R65); none where it cannot be had: it has left its slice's window (R29), its line is
poisoned (R19, R410), or a peer refuses (R397). -/
def pollWord (s : State) (p : PollAt) : Option Nat × State :=
  match p with
  | .home pa =>
    if beyondWindow s pa then (none, s)
    else
      let q := homeTake s true pa 8
      (q.1.map natOfBytes, q.2)
  | .record u off => (some (recordRead s u off 8), s)
  | .peer =>
    let q := peerBytes s 8
    (if Config.peerRefuses s.fresh then none else some q.1, q.2)

/-- COND of R344. -/
def condHolds (cond x v : Nat) : Bool := if cond = 0 then decide (x = v) else if cond = 1 then decide (x ≠ v) else decide (v ≤ x)

/-- A WAIT whose word cannot be had: the ring halts at the packet, which counts as not started. The word has left its slice's window (R29, R344; log 76);
or, DESIGN CHOICE (log 101), its line is poisoned or a peer refuses it. -/
def waitLost (s : State) (k : Nat) (f : InFlight) : State :=
  match tblGet s.rings k with
  | none => s
  | some r =>
    let p := r.rptr - 32
    let s1 := sconcePut (updRing1 s k (fun r => { r with busy := .none, rptr := p, seq := f.seq })) r.ctx (r.rcb + 0x18) (bytesOf 8 p)
    haltRing s1 k haltFault 0x08

/-- WAIT_SATISFIED (R209): the Sconce keeps no copies of memory, so its acquire leaves nothing behind. -/
def waitSatisfied (s : State) (k : Nat) : State :=
  match tblGet s.rings k with
  | none => s
  | some r => match r.busy with
    | .wait f _ p v c =>
      let q := pollWord s p
      (match q.1 with
      | none => waitLost q.2 k f
      | some x => if condHolds c x v.toNat then endBusy q.2 k f else q.2)
    | _ => s

def execWaitSatisfied (ring : Nat) (s : State) : Host.Outcome State Fault Refusal := .next (if s.trust.halted then s else waitSatisfied s ring)

/-- FENCE: it starts after every earlier packet has completed, and completes at once. -/
def fenceBody (k : Nat) (_ : CmdRing) (bs : List Byte) (s : State) : State := startFlight (passPacket s k bs) k (flightOf bs)

def execFencePacket (ring : Nat) (s : State) : Host.Outcome State Fault Refusal := .next (if s.trust.halted then s else onPacket ring 9 (fenceBody ring) s)

/-! ## MODEL_LOAD and UNLOAD (R361 to R366) -/

/-- A descriptor's fields are within R361. -/
def modelDescOk (r : CmdRing) (d : List Byte) : Bool :=
  decide (pf d 0 4 = 0x4D430001) && decide (1 ≤ pf d 4 2) && decide (pf d 4 2 ≤ 4096) && decide (pf d 6 1 ≤ 47) && decide (pf d 6 1 ≤ r.maxprio) &&
  decide (pf d 7 1 < 3) && decide (pf d 8 8 % 32 = 0) && decide (pf d 0x10 8 % 64 = 0) && !isWindowVa (pf d 0x10 8) && decide (pf d 0x1F 1 ≤ 15) &&
  decide (pf d 0x28 24 = 0)

/-- A layer table entry (R362). -/
def layerEntry (e : List Byte) : Option Layer :=
  let kind := pf e 0x0C 1
  if pf e 0 8 % 65536 = 0 ∧ pf e 8 4 % 65536 = 0 ∧ 65536 ≤ pf e 8 4 ∧ kind ≤ 2 ∧ pf e 0x0D 1 = 0 ∧ (kind ≠ 1 → pf e 0x0E 2 = 0) ∧ pf e 0x1C 4 = 0 then
    some { vbase := pf e 0 8, size := pf e 8 4, srckind := kind, peerix := pf e 0x0E 2, srcaddr := pf e 0x10 8, check := BitVec.ofNat 32 (pf e 0x18 4),
           loads := 0, pins := 0, state := 0, unpinned := 0, frames := [] }
  else none

/-- A layer table: every entry keeps R362 and no two regions overlap. -/
def layerTable (n : Nat) (bs : List Byte) : Option (List Layer) :=
  let ls := (List.range n).map (fun k => layerEntry ((bs.drop (32 * k)).take 32))
  if ls.all Option.isSome then
    let xs := ls.filterMap id
    if (List.range n).all (fun i => (List.range i).all (fun j => match xs[i]?, xs[j]? with
        | some a, some b => !overlaps (0, a.vbase, a.size) (0, b.vbase, b.size)
        | _, _ => true)) then some xs else none
  else none

/-- The physical addresses of n flags: all, one to wait for, or none. -/
def flagAddrs (who : Option Asker) (ctx flags : Nat) : List Nat → State → Except Bool (List Nat) × State
  | [], s => (.ok [], s)
  | k :: rest, s =>
    let a := sconceReach s who ctx (flags + 8 * k) needW
    match a.1 with
    | .wait _ => (.error true, a.2)
    | .fail => (.error false, a.2)
    | .ok m =>
      if m.peer.isSome || m.record.isSome then (.error false, a.2)
      else
        let q := flagAddrs who ctx flags rest a.2
        (q.1.map (fun xs => m.pa :: xs), q.2)

/-- A slot bound to a descriptor with every flag ABSENT and the failure fields reset (R365, step 5). -/
def bindModel (s : State) (k ms desc : Nat) (r : CmdRing) (d : List Byte) (ls : List Layer) (fs : List Nat) : State :=
  let s1 := sconcePut (fs.foldl (fun s pa => homeWrite s pa (bytesOf 8 0)) s) r.ctx (desc + 0x18) (bytesOf 4 0 ++ bytesOf 2 0xFFFF ++ bytesOf 1 0)
  let m : ModelCtx :=
    { ring := k, ctx := r.ctx, desc := desc, prio := pf d 6 1, eclass := pf d 7 1, lookahead := pf d 0x1F 1, flags := pf d 0x10 8, flagsPa := fs,
      dispq := pf d 0x20 8, failcount := 0, firstfail := 0xFFFF, failwhy := 0, layers := ls, unload := false }
  { s1 with models := tblSet s1.models ms m }

/-- MODEL_LOAD's steps 1 to 6 (R365). -/
def modelLoadBody (k : Nat) (r : CmdRing) (bs : List Byte) (s : State) : State :=
  let desc := pf bs 0x08 8
  let ms := bits (pf bs 0x10 8) 3 0
  if (tblGet s.models ms).isSome then haltRing s k haltField 0x10
  else
    let a := sconceRead s (some (.ring k)) r.ctx desc 64
    match a.1 with
    | .wait _ => a.2
    | .fail _ => haltRing a.2 k haltField 0x08
    | .ok d =>
      let n := pf d 4 2
      let lt := pf d 8 8
      let fl := pf d 0x10 8
      let dq := pf d 0x20 8
      if modelDescOk r d = false ∨ dq % 64 ≠ 0 then haltRing a.2 k haltField 0x08
      else if capFor r otMemory (permRead + permWrite) lt (32 * n) = false ∨ capFor r otMemory (permRead + permWrite) fl (8 * n) = false ∨
          (dq ≠ 0 ∧ capFor r otFeed (permRead + permWrite) dq 64 = false) then haltRing a.2 k haltCapability 0x08
      else
        let t := sconceRead a.2 (some (.ring k)) r.ctx lt (32 * n)
        match t.1 with
        | .wait _ => t.2
        | .fail _ => haltRing t.2 k haltField 0x08
        | .ok tb =>
          match layerTable n tb with
          | none => haltRing t.2 k haltField 0x08
          | some ls =>
            let f := flagAddrs (some (.ring k)) r.ctx fl (List.range n) t.2
            match f.1 with
            | .error true => f.2
            | .error false => haltRing f.2 k haltField 0x08
            | .ok fs => startFlight (passPacket (bindModel f.2 k ms desc r d ls fs) k bs) k (flightOf bs)

/-- The UNLOAD bit of a MODEL_LOAD packet. -/
def isUnload (bs : List Byte) : Bool := decide (bits (pf bs 0x10 8) 8 8 = 1)

def execModelLoad (ring : Nat) (s : State) : Host.Outcome State Fault Refusal :=
  .next (if s.trust.halted then s else onPacket ring 6 (fun r bs s => if isUnload bs then s else modelLoadBody ring r bs s) s)

/-- The slot is asked for, or held, for a copy of a job. -/
def SlotFor.ofJob (r : SlotFor) (j : Nat) : Bool :=
  match r with
  | .job i _ => decide (i = j)
  | .peer _ _ => false

/-- The dispatch jobs of a context that is torn down (R388): no later token starts, slots requested are asked for no more, slots granted get a cancel
(copy state 6; a peer's slot is freed by the cancel sent to it); tokens already delivered are not recalled. Its waiting accesses go; a delivery still under
way makes its own again. -/
def cancelJob (s0 : State) (j : Nat) (x : Job) : State :=
  let s := dropAsks s0 (fun w => decide (w = .job j))
  { s with
    jobs := tblSet s.jobs j { x with
      done := true, copies := x.copies.map (fun c => if c.state = 2 ∧ c.peer = none then { c with state := 6 } else c) },
    buffers := s.buffers.map (fun b => (b.1, { b.2 with requests := b.2.requests.filter (fun r => !r.ofJob j) })) }

def cancelJobs (s : State) (ms : Nat) : State :=
  s.jobs.foldl (fun s j => if j.2.mslot = ms ∧ j.2.done = false then cancelJob s j.1 j.2 else s) s

/-- A teardown begins (R366): FAILED layers turn ABSENT, requests are withdrawn, loads abandoned, RESIDENT layers without a pin are evicted. -/
def startUnload (s : State) (ms : Nat) : State :=
  match tblGet s.models ms with
  | none => s
  | some m =>
    let s1 := { s with models := tblSet s.models ms { m with unload := true } }
    let s2 := (List.range m.layers.length).foldl (fun s k => match (getLayer s ms k).map Layer.state with
      | some 4 => layerChanged (updLayer s ms k (fun l => { l with state := 0 })) ms k
      | some 1 => abandonLayer s ms k
      | _ => s) s1
    unloadEvict (cancelJobs s2 ms)

def modelUnloadBody (k : Nat) (_ : CmdRing) (bs : List Byte) (s : State) : State :=
  let ms := bits (pf bs 0x10 8) 3 0
  match slotOf s k ms with
  | none => haltRing s k haltField 0x10
  | some _ => startFlight (passPacket (startUnload s ms) k bs) k { flightOf bs with mslot := some ms }

def execModelUnload (ring : Nat) (s : State) : Host.Outcome State Fault Refusal :=
  .next (if s.trust.halted then s else onPacket ring 6 (fun r bs s => if isUnload bs then modelUnloadBody ring r bs s else s) s)

/-! ## MODEL_PRIO and LAYER_PREFETCH (R367) -/

def modelPrioBody (k : Nat) (_ : CmdRing) (bs : List Byte) (s : State) : State :=
  let w := pf bs 0x08 8
  let ms := bits w 3 0
  match slotOf s k ms with
  | none => haltRing s k haltField 0x08
  | some m =>
    let s1 := { s with models := tblSet s.models ms { m with prio := bits w 13 8, eclass := bits w 17 16, lookahead := bits w 23 20 } }
    startFlight (passPacket s1 k bs) k (flightOf bs)

def execModelPrio (ring : Nat) (s : State) : Host.Outcome State Fault Refusal :=
  .next (if s.trust.halted then s else onPacket ring 7 (modelPrioBody ring) s)

/-- A FAILED layer moved to ABSENT (R367, R369). -/
def resetFailed (s : State) (ms k : Nat) : State := updLayer s ms k (fun l => if l.state = 4 then { l with state := 0 } else l)

def prefetchBody (k : Nat) (_ : CmdRing) (bs : List Byte) (s : State) : State :=
  let w := pf bs 0x08 8
  let ms := bits w 3 0
  let first := bits w 27 16
  let count := bits w 39 28
  match slotOf s k ms with
  | none => haltRing s k haltField 0x08
  | some m =>
    if m.layers.length < first + count then haltRing s k haltField 0x08
    else
      let ks := (List.range count).map (fun i => first + i)
      let s1 := if bits w 40 40 = 1 then ks.foldl (fun s k => resetFailed s ms k) s else s
      let s2 := ks.foldl (fun s k => requestLayer s ms k false) s1
      startFlight (passPacket s2 k bs) k (flightOf bs)

def execLayerPrefetch (ring : Nat) (s : State) : Host.Outcome State Fault Refusal :=
  .next (if s.trust.halted then s else onPacket ring 8 (prefetchBody ring) s)

/-! ## Notify records (R340) -/

/-- What a queue's oldest record is when a unit of the Plinth pops it: none, an unreadable one, or its bytes with the launch whose team appended it. -/
inductive Pop where
  | none
  | bad
  | ok (bs : List Byte) (launch : Option Nat)
  deriving DecidableEq, Repr

/-- The oldest record of the feed queue whose descriptor lies at an address of a context, popped as a QPOP takes it (R325); nothing while there is none
or its page is not mapped, or while no unit record can be had (R42). -/
def popRecord (s : State) (who : Option Asker) (ctx va : Nat) : Pop × State :=
  if va = 0 ∨ va % 64 ≠ 0 then (.none, s)
  else
    let a := sconceReach s who ctx va needR
    match a.1 with
    | .ok m =>
      if m.peer.isSome || m.record.isSome then (.none, a.2)
      else
        (match unitFree a.2 .queue m.pa with
        | .none => (.none, a.2)
        | .some s1 =>
          let q := queueAt s1 ctx m.pa
          (match q.1 with
          | .none => (.none, q.2)
          | .some x =>
            if x.head = x.tail then (.none, q.2)
            else
              let b := unitRead q.2 who sconceCore x.ctx (recordVa x x.head) 64
              (match b.1 with
              | .fault _ => (.none, b.2)
              | .bad => (.bad, setQueue b.2 m.pa x.popped)
              | .ok bs => (.ok bs (x.origins.head?.getD none), setQueue b.2 m.pa x.popped))))
    | _ => (.none, a.2)

/-- NOTIFY_RECORD: the oldest record of the ring's NOTIFYQ is popped, and the ring whose RCB its words 0 and 1 name has its WPTR read. A read of the
ring's own WPTR that stays to be made comes first. DESIGN CHOICE (log 102): a record that lies in a poisoned line, or that names no ring of the context, is
popped and dropped. -/
def notifyRing (s : State) (k : Nat) : State :=
  match tblGet s.rings k with
  | none => s
  | some r =>
    if s.wptrReads.contains k then readWptr s k else
    let p := popRecord s (some (.ring k)) r.ctx r.notifyq
    match p.1 with
    | .ok bs _ =>
      (match p.2.rings.find? (fun j => decide (j.2.ctx = r.ctx) && decide (j.2.rcb = pf bs 0 8)) with
      | some j => readWptr p.2 j.1
      | none => p.2)
    | _ => p.2

def execNotifyRecord (ring : Nat) (s : State) : Host.Outcome State Fault Refusal := .next (if s.trust.halted then s else notifyRing s ring)

end Sys2Proof.Machine
end

