-- ==== Sys2Proof/Machine/Urfel.lean ====
section
/-! DEFINITION. Urfel messages (R390 to R395, R406, R407): each step takes its message from the head of the inbox, and leaves the state as it is when
another message stands there. -/

namespace Sys2Proof.Machine

/-! ## Admission (R391) -/

/-- Sub-operations of MANAGE that require a context id bound to the sender, and those that require CTXID 0 (R393). -/
def boundSub (sub : Nat) : Bool := [1, 2, 3, 8, 9, 10, 12, 13, 14, 15].contains sub
def zeroSub (sub : Nat) : Bool := [4, 6, 7, 11].contains sub

/-- The message's CTXID must be bound to its sender (R391): of every OP but ATTEST, and but the sub-operations of MANAGE that R393 treats otherwise. -/
def needsCtx (m : UrfelMsg) : Bool := [1, 2, 3, 6, 7].contains m.op || (decide (m.op = 5) && boundSub m.sub)

/-- The message's CTXID is bound to its sender. -/
def ctxBound (s : State) (m : UrfelMsg) : Bool := decide ((tblGet s.ctxs m.ctx).map CtxBinding.endpoint = some m.sender)

/-- A reserved field of the header is not zero, or LENGTH is not the payload's. A HOST_READ answer has a STATUS; a MEM_READ's LENGTH is the bytes it
asks for (log 39). -/
def headerBad (m : UrfelMsg) : Bool :=
  (decide (m.op ≠ 6) && decide (m.status ≠ 0)) || (decide (m.op ≠ 5) && decide (m.sub ≠ 0)) ||
  (decide (m.op = 5) && zeroSub m.sub && decide (m.ctx ≠ 0)) || decide (8192 < m.length) ||
  (if m.op = 3 then decide (m.payload ≠ []) else decide (m.op ≠ 6) && decide (m.payload.length ≠ m.length))

/-- The message dropped and counted. -/
def refuseMsg (s : State) : State := { s with refusals := s.refusals + 1 }

/-- A message of the kind p at the head of the inbox, admitted and well formed, is acted on. A device whose boot stopped, or that is halted, drops it
(R404, R411). -/
def onMsg (p : UrfelMsg → Bool) (body : UrfelMsg → State → State) (s : State) : State :=
  match s.inbox with
  | [] => s
  | m :: rest =>
    if !p m then s
    else
      let s1 := { s with inbox := rest }
      if s.trust.halted || s.trust.bootFail then s1
      else if !s.trust.admitted.contains m.sender || (needsCtx m && !ctxBound s m) then refuseMsg s1
      else if headerBad m then answerMsg s1 m stBadMessage []
      else body m s1

def isOp (op : Nat) (m : UrfelMsg) : Bool := decide (m.op = op)
def isManage (sub : Nat) (m : UrfelMsg) : Bool := decide (m.op = 5) && decide (m.sub = sub)

/-- A MANAGE message whose payload has a size and keeps its reserved fields is acted on; another is answered BAD_MESSAGE (R393). -/
def onManage (sub len : Nat) (good : UrfelMsg → Bool) (body : UrfelMsg → State → State) (s : State) : State :=
  onMsg (isManage sub) (fun m s => if decide (m.length = len) && good m then body m s else answerMsg s m stBadMessage []) s

/-- RESERVED_URFEL_MESSAGE (R391, R392). -/
def isReservedMsg (m : UrfelMsg) : Bool :=
  decide (m.op = 0) || decide (7 ≤ m.op) || (decide (m.op = 5) && (decide (m.sub = 0) || decide (16 ≤ m.sub)))

def execReservedUrfelMessage (s : State) : Host.Outcome State Fault Refusal :=
  .next (onMsg isReservedMsg (fun m s => answerMsg s m stBadMessage []) s)

/-! ## COMMAND_APPEND, MEM_WRITE, MEM_READ, HOST_READ (R392, R395) -/

/-- The ring of a context whose RCB lies at an address. -/
def ringAt (s : State) (ctx rcb : Nat) : Option (Nat × CmdRing) := s.rings.find? (fun k => decide (k.2.ctx = ctx) && decide (k.2.rcb = rcb))

/-- The runs of a ring that n bytes from a position cover: address, offset in the bytes, length. -/
def ringRuns (r : CmdRing) : Nat → Nat → Nat → List (Nat × Nat × Nat)
  | 0, _, _ => []
  | fuel + 1, pos, n =>
    if n = 0 then []
    else
      let off := pos % r.size
      let k := if n ≤ r.size - off then n else r.size - off
      (r.base + off, pos, k) :: ringRuns r fuel (pos + k) (n - k)

/-- Every run can be written, or what stands in the way. -/
def checkRuns (who : Option Asker) (ctx : Nat) : List (Nat × Nat × Nat) → State → Option SRes × State
  | [], s => (none, s)
  | (va, _, n) :: rest, s =>
    let c := sconceCheck s who ctx va n needW
    match c.1.1 with
    | .ok _ => checkRuns who ctx rest c.2
    | e => (some e, c.2)

/-- An append to the same ring waits already: appends take effect in stream order. -/
def appendWaits (s : State) (m : UrfelMsg) : Option ParkCause :=
  ((s.waiting.find? (fun w => decide (w.msg.op = 1) && decide (w.msg.ctx = m.ctx) && decide (w.msg.addr = m.addr))).bind Waiting.cause)

/-- COMMAND_APPEND: the bytes at WPTR, then WPTR, then the answer; the Sconce reads WPTR. -/
def appendBody (m : UrfelMsg) (s : State) : State :=
  if m.rod = false then answerMsg s m stBadMessage []
  else
    match ringAt s m.ctx m.addr, appendWaits s m with
    | none, _ => answerMsg s m stDenied []
    | some _, some c => waitMsg s m (some c)
    | some (k, r), none =>
      let w := sconceRead s (some (.msg m)) r.ctx (r.rcb + 0x10) 8
      match w.1 with
      | .wait c => waitMsg w.2 m (some c)
      | .fail _ => answerMsg w.2 m stFault []
      | .ok wb =>
        let p := natOfBytes wb
        let runs := ringRuns r 4 p m.length
        let c := checkRuns (some (.msg m)) r.ctx ((r.rcb + 0x10, 0, 8) :: runs) w.2
        match c.1 with
        | some (.wait x) => waitMsg c.2 m (some x)
        | some _ => answerMsg c.2 m stFault []
        | none =>
          let w := peersRefuse c.2 r.ctx (((r.rcb + 0x10, 0, 8) :: runs).flatMap (fun x => linePieces x.1 x.2.2))
          if w.1 then answerMsg w.2 m stFault []
          else
            let s1 := runs.foldl (fun s x => putNow s r.ctx x.1 ((m.payload.drop (x.2.1 - p)).take x.2.2)) w.2
            readWptr (answerMsg (putNow s1 r.ctx (r.rcb + 0x10) (bytesOf 8 (p + m.length))) m stOk []) k

def execCommandAppend (s : State) : Host.Outcome State Fault Refusal := .next (onMsg (isOp 1) appendBody s)

/-- MEM_WRITE: nothing is written unless every byte can be. -/
def memWriteBody (m : UrfelMsg) (s : State) : State :=
  let c := sconceCheck s (some (.msg m)) m.ctx m.addr m.length needW
  match c.1.1 with
  | .wait x => waitMsg c.2 m (some x)
  | .fail => answerMsg c.2 m stFault []
  | .ok _ =>
    let w := putRun c.2 m.ctx m.addr m.payload
    answerMsg w.2 m (if w.1 then stOk else stFault) []

def execMemWrite (s : State) : Host.Outcome State Fault Refusal := .next (onMsg (isOp 2) memWriteBody s)

/-- MEM_READ: a host's read recalls the owned words (R34). -/
def memReadBody (m : UrfelMsg) (s : State) : State :=
  let c := sconceReadAs needR false s (some (.msg m)) m.ctx m.addr m.length
  match c.1 with
  | .wait x => waitMsg c.2 m (some x)
  | .fail _ => answerMsg c.2 m stFault []
  | .ok bs => answerMsg c.2 m stOk bs

def execMemRead (s : State) : Host.Outcome State Fault Refusal := .next (onMsg (isOp 3) memReadBody s)

/-- HOST_READ: the answer to a request of the loader, or dropped and counted. -/
def hostReadBody (m : UrfelMsg) (s : State) : State :=
  let r := takePiece s m
  if r.1 then r.2 else refuseMsg r.2

def execHostRead (s : State) : Host.Outcome State Fault Refusal := .next (onMsg (isOp 6) hostReadBody s)

/-! ## Rings (R339, R346, R393) -/

/-- A capability's 16 bytes (R337); none when a reserved bit or OTYPE is used. -/
def capOf (bs : List Byte) : Option Capability :=
  let x := natOfBytes bs
  if 5 < bits x 127 112 ∨ bits x 111 108 ≠ 0 then none
  else some { otype := bits x 127 112, perm := bits x 107 104, length := bits x 103 64, base := bits x 63 0 }

/-- The layout of R339. -/
def rcbOk (d : List Byte) (ctx : Nat) (command : Bool) : Bool :=
  let size := pf d 8 4
  (List.range 13).any (fun i => decide (size = 4096 * 2 ^ i)) && decide (pf d 0 8 % size = 0) && decide (pf d 0x0D 1 = ctx) &&
  decide (pf d 0x0E 2 = 0) && decide (pf d 0x38 8 = 0) && (!command || decide (pf d 0x0C 1 ≤ 47))

/-- The ring of two control blocks. -/
def newRing (m : UrfelMsg) (caps : List Capability) (d c : List Byte) : CmdRing :=
  { ctx := m.ctx, rcb := m.addr, base := pf d 0 8, size := pf d 8 4, maxprio := pf d 0x0C 1, comp := pf d 0x20 8, notifyq := pf d 0x30 8, caps := caps,
    endpoint := m.sender, wptr := pf d 0x18 8, rptr := pf d 0x18 8, seq := 0, status := 0, detail := 0, flight := [], busy := .none, entries := [],
    compRptr := pf c 0x18 8, compWptr := pf c 0x10 8, compBase := pf c 0 8, compSize := pf c 8 4 }

/-- The completion ring's RPTR as first read (R345): one that is not a multiple of 32 or exceeds WPTR halts the ring. -/
def checkCompletion (s : State) (k : Nat) : State :=
  match tblGet s.rings k with
  | none => s
  | some r => if r.compRptr % 32 ≠ 0 ∨ compWptrOf s r < r.compRptr then haltFree s k haltOverrun else s

/-- RING_CREATE. -/
def createBody (m : UrfelMsg) (s : State) : State :=
  let caps := (List.range (m.length / 16)).map (fun i => capOf ((m.payload.drop (16 * i)).take 16))
  if m.length % 16 ≠ 0 ∨ m.length = 0 ∨ 256 < m.length ∨ caps.any Option.isNone = true ∨ m.addr % 64 ≠ 0 then answerMsg s m stBadMessage []
  else
    let cs := caps.filterMap id
    let a := sconceRead s (some (.msg m)) m.ctx m.addr 64
    match a.1 with
    | .wait x => waitMsg a.2 m (some x)
    | .fail _ => answerMsg a.2 m stBadMessage []
    | .ok d =>
      let comp := pf d 0x20 8
      if rcbOk d m.ctx true = false ∨ comp % 64 ≠ 0 then answerMsg a.2 m stBadMessage []
      else
        let b := sconceRead a.2 (some (.msg m)) m.ctx comp 64
        match b.1 with
        | .wait x => waitMsg b.2 m (some x)
        | .fail _ => answerMsg b.2 m stBadMessage []
        | .ok c =>
          let first := (cs.take 1).any (fun x => x.covers otCommand m.addr 64 && x.covers otCommand (pf d 0 8) (pf d 8 4))
          let second := cs.any (fun x => x.covers otCompletion comp 64 && x.covers otCompletion (pf c 0 8) (pf c 8 4))
          if rcbOk c m.ctx false = false ∨ first = false ∨ second = false then answerMsg b.2 m stBadMessage []
          else if b.2.rings.any (fun k => decide (k.2.ctx = m.ctx) && (decide (k.2.rcb = m.addr) || decide (k.2.comp = m.addr) || decide (k.2.rcb = comp))) then
            answerMsg b.2 m stDenied []
          else
            let r := newRing m cs d c
            let s1 := { b.2 with rings := tblSet b.2.rings b.2.rings.length { r with compWptr := if compWptrOf b.2 r = 0 then r.compWptr else compWptrOf b.2 r } }
            checkCompletion (answerMsg (sconcePut s1 m.ctx (m.addr + 0x28) (bytesOf 4 0)) m stOk []) b.2.rings.length

def execRingCreate (s : State) : Host.Outcome State Fault Refusal := .next (onMsg (isManage 1) createBody s)

/-- RING_RESUME: the packet at RPTR is read again with the same expected SEQ. -/
def resumeBody (m : UrfelMsg) (s : State) : State :=
  match ringAt s m.ctx m.addr with
  | none => answerMsg s m stDenied []
  | some (k, r) =>
    if r.status = 0 then answerMsg s m stDenied []
    else
      let s1 := sconcePut (updRing1 s k (fun r => { r with status := 0 })) r.ctx (r.rcb + 0x28) (bytesOf 4 0)
      readWptr (answerMsg s1 m stOk []) k

def execRingResume (s : State) : Host.Outcome State Fault Refusal := .next (onManage 2 0 (fun _ => true) resumeBody s)

/-- RING_HALT: answered once STATUS reads HOST_HALT, the write of it made; a ring already halted stays as it is, and the answer comes at once. -/
def ringHaltBody (m : UrfelMsg) (s : State) : State :=
  match ringAt s m.ctx m.addr with
  | none => answerMsg s m stDenied []
  | some (k, r) =>
    if r.status ≠ 0 then answerMsg s m stOk []
    else
      let s1 := haltFree s k haltHost
      if putWaits s1 r.ctx (r.rcb + 0x28) = true then waitMsg s1 m none else answerMsg s1 m stOk []

def execRingHalt (s : State) : Host.Outcome State Fault Refusal := .next (onManage 3 0 (fun _ => true) ringHaltBody s)

/-! ## Pools, contexts, peers, exports (R393) -/

/-- Two ranges of frames meet. -/
def rangesMeet (a b : Nat × Nat) : Bool := decide (a.1 < b.1 + b.2) && decide (b.1 < a.1 + a.2)

/-- Every byte of a range of frames is populated DRAM (R21). -/
def framesInDram (f n : Nat) : Bool :=
  isDram (65536 * f) && isDram (65536 * (f + n) - 1) && decide (65536 * f / 2 ^ 37 = (65536 * (f + n) - 1) / 2 ^ 37)

/-- POOL_GIVE. -/
def poolGood (m : UrfelMsg) : Bool :=
  decide (m.addr % 65536 = 0) && decide (1 ≤ msgField m 0 4) && decide (msgField m 0 4 ≤ 2 ^ 22) && decide (msgField m 4 1 ≤ 1) && decide (msgField m 5 3 = 0)

def poolBody (m : UrfelMsg) (s : State) : State :=
  let f := m.addr / 65536
  let n := msgField m 0 4
  if framesInDram f n = false ∨ (s.weightGiven ++ s.demandGiven).any (rangesMeet (f, n)) = true then answerMsg s m stDenied []
  else if msgField m 4 1 = 0 then answerMsg { s with weightGiven := s.weightGiven ++ [(f, n)], weightFree := s.weightFree ++ [(f, n)] } m stOk []
  else answerMsg { s with demandGiven := s.demandGiven ++ [(f, n)], demandFree := s.demandFree ++ [(f, n)] } m stOk []

def execPoolGive (s : State) : Host.Outcome State Fault Refusal := .next (onManage 4 8 poolGood poolBody s)

/-- A ring, a team or a demand range uses the context id. -/
def ctxInUse (s : State) (ctx : Nat) : Bool :=
  s.rings.any (fun r => decide (r.2.ctx = ctx)) || s.teams.any (fun t => decide (t.2.cfg.ctx = ctx)) || s.demand.any (fun d => decide (d.1 / 16 = ctx))

/-- CTX_BIND. -/
def bindGood (m : UrfelMsg) : Bool := decide (m.addr % 512 = 0) && decide (msgField m 0 1 ≤ 1) && decide (msgField m 1 7 = 0)

def bindBody (m : UrfelMsg) (s : State) : State :=
  let other := match tblGet s.ctxs m.ctx with
    | some b => decide (b.endpoint ≠ m.sender)
    | none => false
  if other || (if m.addr = 0 then ctxInUse s m.ctx else !isDram m.addr) then answerMsg s m stDenied []
  else if m.addr = 0 then answerMsg { s with ctxs := tblErase s.ctxs m.ctx } m stOk []
  else
    let b : CtxBinding := { root := m.addr, endpoint := m.sender, hostFault := decide (msgField m 0 1 = 1) }
    answerMsg { s with ctxs := tblSet s.ctxs m.ctx b } m stOk []

def execCtxBind (s : State) : Host.Outcome State Fault Refusal := .next (onManage 5 8 bindGood bindBody s)

/-- PEER_SET (R396). -/
def peerGood (m : UrfelMsg) : Bool :=
  decide (m.addr < 4096) && decide (msgField m 0x13 1 = 0) && decide (msgField m 0x14 4 < 4) && decide (msgField m 0x18 8 = 0)

def peerBody (m : UrfelMsg) (s : State) : State :=
  answerMsg { s with peers := tblSet s.peers m.addr (BitVec.ofNat 256 (natOfBytes m.payload)) } m stOk []

def execPeerSet (s : State) : Host.Outcome State Fault Refusal := .next (onManage 6 32 peerGood peerBody s)

/-- EXPORT_SET (R397). -/
def exportGood (m : UrfelMsg) : Bool :=
  decide (m.addr < 64) && decide (msgField m 0 8 % 65536 = 0) && decide (msgField m 8 5 % 65536 = 0) && decide (msgField m 13 1 < 8) &&
  decide (msgField m 14 2 = 0)

def exportBody (m : UrfelMsg) (s : State) : State :=
  answerMsg { s with exports := tblSet s.exports m.addr (BitVec.ofNat 128 (natOfBytes m.payload)) } m stOk []

def execExportSet (s : State) : Host.Outcome State Fault Refusal := .next (onManage 7 16 exportGood exportBody s)

/-! ## Gates and expert buffers (R398, R400, R401) -/

/-- The context a message names is loaded in a slot and has a dispatch queue. -/
def dispatchModel (s : State) (ms ctx : Nat) : Option ModelCtx :=
  (tblGet s.models ms).bind (fun m => if m.ctx = ctx ∧ m.dispq ≠ 0 then some m else none)

/-- A dispatch job that names a gate slot is running. -/
def gateBusy (s : State) (g : Nat) : Bool := s.jobs.any (fun j => decide (j.2.gate = g) && !j.2.done)

/-- GATE_LOAD. -/
def gateGood (m : UrfelMsg) : Bool :=
  decide (m.addr % 64 = 0) && decide (msgField m 0 1 ≤ 3) && decide (msgField m 1 1 ≤ 15) && decide (1 ≤ msgField m 2 2) && decide (msgField m 2 2 ≤ 256) &&
  decide (msgField m 4 4 % 32 = 0) && decide (1 ≤ msgField m 4 4) && decide (msgField m 4 4 ≤ 16384)

def gateBody (m : UrfelMsg) (s : State) : State :=
  let g := msgField m 0 1
  let e := msgField m 2 2
  let d := msgField m 4 4
  if gateBusy s g || (dispatchModel s (msgField m 1 1) m.ctx).isNone then answerMsg s m stDenied []
  else
    let r := sconceRead s (some (.msg m)) m.ctx m.addr (2 * e * d)
    match r.1 with
    | .wait x => waitMsg r.2 m (some x)
    | .fail _ => answerMsg r.2 m stFault []
    | .ok bs =>
      let x : Gate := { ctx := m.ctx, mslot := msgField m 1 1, experts := e, d := d,
                        weights := (List.range (e * d)).map (fun i => BitVec.ofNat 16 (pf bs (2 * i) 2)) }
      answerMsg { r.2 with gates := tblSet r.2.gates g x } m stOk []

def execGateLoad (s : State) : Host.Outcome State Fault Refusal := .next (onManage 8 8 gateGood gateBody s)

/-- The fields of EXPERT_BUF. -/
def bufGood (m : UrfelMsg) : Bool :=
  let dim (x : Nat) : Bool := decide (x % 32 = 0) && decide (32 ≤ x) && decide (x ≤ 16384)
  decide (m.addr % 128 = 0) && decide (msgField m 0 2 ≤ 4095) && decide (msgField m 2 1 ≤ 15) && decide (msgField m 3 1 ≤ 1) &&
  decide (1 ≤ msgField m 4 4) && decide (msgField m 4 4 ≤ 65536) && dim (msgField m 8 4) && dim (msgField m 12 4) &&
  decide (msgField m 16 8 % 64 = 0) && decide (msgField m 24 8 % 64 = 0)

/-- Copies scored before their buffer was defined ask for a slot now, in token order. -/
def askLate (s : State) (buf : Nat) : State :=
  let late (c : Copy) : Bool := decide (c.state = 0) && c.peer.isNone && decide (c.buf = buf)
  let reqs := s.jobs.flatMap (fun j => ((List.range j.2.copies.length).filter (fun i => match j.2.copies[i]? with
    | some c => late c && !j.2.done
    | none => false)).map (fun i => SlotFor.job j.1 i))
  match tblGet s.buffers buf with
  | none => s
  | some b =>
    { s with
      buffers := tblSet s.buffers buf { b with requests := b.requests ++ reqs },
      jobs := s.jobs.map (fun j => if j.2.done then j else (j.1, { j.2 with copies := j.2.copies.map (fun c => if late c then { c with state := 1 } else c) })) }

/-- EXPERT_BUF: the buffer is defined, or defined anew. DESIGN CHOICE (log 58): the slots in use and the requests of a buffer that is defined anew stay, so
that no slot is granted twice before it is freed (R402). -/
def bufBody (m : UrfelMsg) (s : State) : State :=
  if (dispatchModel s (msgField m 2 1) m.ctx).isNone then answerMsg s m stDenied []
  else
    let old := tblGet s.buffers (msgField m 0 2)
    let b : ExpertBuf :=
      { ctx := m.ctx, mslot := msgField m 2 1, ofmt := msgField m 3 1, slots := msgField m 4 4, d := msgField m 8 4, dout := msgField m 12 4, base := m.addr,
        recordq := msgField m 16 8, returnq := msgField m 24 8, used := (old.map ExpertBuf.used).getD [],
        requests := (old.map ExpertBuf.requests).getD [], routes := (old.map ExpertBuf.routes).getD [] }
    answerMsg (askLate { s with buffers := tblSet s.buffers (msgField m 0 2) b } (msgField m 0 2)) m stOk []

def execExpertBuf (s : State) : Host.Outcome State Fault Refusal := .next (onManage 9 32 bufGood bufBody s)

/-! ## Teams (R360) -/

/-- The team a message names. -/
def namedTeam (s : State) (m : UrfelMsg) : Option (Nat × Team) := s.teams.find? (fun t => namesTeam s m t.2)

/-- SAVE_TEAM: denied, or it waits for TEAM_SAVE, which answers it. -/
def saveGood (m : UrfelMsg) : Bool := decide (msgField m 8 1 ≤ 1) && decide (msgField m 9 7 = 0)

def saveBody (m : UrfelMsg) (s : State) : State :=
  match namedTeam s m with
  | none => answerMsg s m stDenied []
  | some (_, t) => if t.cfg.fuse || decide (t.cfg.savebase = 0) || t.saved then answerMsg s m stDenied [] else waitMsg s m none

def execSaveTeam (s : State) : Host.Outcome State Fault Refusal := .next (onManage 10 16 saveGood saveBody s)

/-- RESTORE_TEAM: the hold is lifted. -/
def restoreBody (m : UrfelMsg) (s : State) : State :=
  match namedTeam s m with
  | none => answerMsg s m stDenied []
  | some (u, t) => if t.saved && t.hold then answerMsg (s.setTeam u { t with hold := false }) m stOk [] else answerMsg s m stDenied []

def execRestoreTeam (s : State) : Host.Outcome State Fault Refusal :=
  .next (onManage 12 16 (fun m => saveGood m && decide (msgField m 8 1 = 0)) restoreBody s)

/-! ## Slice windows and invalidations (R27, R67, R393) -/

/-- SLICE_WINDOW: the Sconce writes each named slice's register, again once BUSY clears where a change is in progress, and answers when all have ended. -/
def windowGood (m : UrfelMsg) : Bool :=
  decide (m.addr = 0) && decide (1 ≤ msgField m 2 2) && decide (msgField m 0 2 + msgField m 2 2 ≤ 256) && decide (msgField m 4 1 ≤ 3) &&
  decide (msgField m 5 3 = 0)

def windowBody (m : UrfelMsg) (s : State) : State :=
  let gs := (List.range (msgField m 2 2)).map (fun i => msgField m 0 2 + i)
  let w := msgField m 4 1
  let s1 := gs.foldl (fun s g => lowerWays (raiseWays s g w) g w) s
  if gs.all (fun g => !(s1.slice g).busy && decide ((s1.slice g).ways = w)) then answerMsg s1 m stOk [] else waitMsg s1 m none

def execSliceWindow (s : State) : Host.Outcome State Fault Refusal := .next (onManage 11 8 windowGood windowBody s)

/-- INVALIDATE: a write broadcast to every unit; the answer comes when BUSY has cleared in all of them. -/
def invalidateGood (m : UrfelMsg) : Bool :=
  decide (m.addr % 65536 = 0) && decide (1 ≤ msgField m 0 4) && decide (msgField m 0 4 ≤ 65535) && decide (msgField m 4 1 ≤ 2) && decide (msgField m 5 3 = 0)

def invalidateBody (m : UrfelMsg) (s : State) : State :=
  if tinvalBusy s then waitMsg s m none
  else waitMsg (writeTinval s (tinvalWord (msgField m 4 1) m.ctx (bits m.addr 51 16) (msgField m 0 4))) m (some .units)

def execInvalidate (s : State) : Host.Outcome State Fault Refusal := .next (onManage 13 8 invalidateGood invalidateBody s)

/-! ## Demand ranges and fault replies (R394) -/

/-- DEMAND_SET. -/
def demandGood (m : UrfelMsg) : Bool :=
  decide (m.addr % 2 ^ 22 = 0) && decide (msgField m 0 8 % 2 ^ 22 = 0) && decide (msgField m 8 1 ≤ 15) && decide (msgField m 9 1 ≤ 2) &&
  decide (msgField m 10 1 ≤ 3) && decide (msgField m 11 5 = 0)

def demandBody (m : UrfelMsg) (s : State) : State :=
  let key := 16 * m.ctx + msgField m 8 1
  let n := msgField m 0 8
  let hits (b k : Nat) : Bool := decide (m.addr < b + k) && decide (b < m.addr + n)
  if n = 0 then answerMsg { s with demand := tblErase s.demand key } m stOk []
  else if s.demand.any (fun d => decide (d.1 / 16 = m.ctx) && decide (d.1 ≠ key) && hits d.2.base d.2.len) || hits (0xFD * 2 ^ 44) (2 ^ 44) then
    answerMsg s m stDenied []
  else
    let d : DemandRange := { base := m.addr, len := n, policy := msgField m 9 1, r := decide (msgField m 10 1 % 2 = 1), w := decide (2 ≤ msgField m 10 1) }
    answerMsg { s with demand := tblSet s.demand key d } m stOk []

def execDemandSet (s : State) : Host.Outcome State Fault Refusal := .next (onManage 14 16 demandGood demandBody s)

/-- REPLAY: what walking again leaves of some accesses, with the class of its cause. -/
def replayMarks (ctx : Nat) : List Access → State → List (Access × TrapClass) × State
  | [], s => ([], s)
  | a :: rest, s =>
    let r := walkAgain s ctx a
    let q := replayMarks ctx rest r.2
    (match r.1 with
      | .left c => (a, c) :: q.1
      | _ => q.1, q.2)

/-- INVALID_ADDR or PERMISSION: every access to a page of the notice has that class; one in the trap record range, which the host is not asked about,
has its own (R379). -/
def classMarks (s : State) (n : Notice) (c : TrapClass) (l : List Access) : List (Access × TrapClass) :=
  l.filterMap (fun a =>
    if n.pages.getLsbD (a.page % 64) then some (a, c)
    else if isRecordVa (32768 * a.half) then (match recordFate s n.ctx a with
      | .left d => some (a, d)
      | _ => none)
    else none)

/-- FAULT_REPLY. -/
def replyGood (m : UrfelMsg) : Bool := decide (msgField m 8 1 ≤ 2) && decide (msgField m 9 7 = 0)

def replyBody (m : UrfelMsg) (s : State) : State :=
  match s.notices.find? (fun n => decide (n.ctx = m.ctx) && decide (n.block * 2 ^ 22 = m.addr)) with
  | none => answerMsg s m stDenied []
  | some n =>
    let s1 := answerMsg { s with notices := s.notices.erase n } m stOk []
    match (s1.cluster n.cluster).recs[n.ix]? with
    | none => s1
    | some r =>
      let q := if msgField m 8 1 = 0 then replayMarks n.ctx (recordAccesses r) s1
        else (classMarks s1 n (if msgField m 8 1 = 1 then .invalidAddr else .permission) (recordAccesses r), s1)
      setRec q.2 n.cluster n.ix { r with notice := false, handled := some (BitVec.ofNat 64 (msgField m 0 8)), marks := q.1 }

def execFaultReply (s : State) : Host.Outcome State Fault Refusal := .next (onManage 15 16 replyGood replyBody s)

/-! ## ATTEST (R406, R407, R412) -/

/-- Further ATTEST messages beyond the 64 that may wait are dropped and counted. -/
def trimAttest : Nat → List UrfelMsg → List UrfelMsg × Nat
  | _, [] => ([], 0)
  | n, m :: rest =>
    if m.op = 4 then
      match n with
      | 0 => ((trimAttest 0 rest).1, (trimAttest 0 rest).2 + 1)
      | k + 1 => (m :: (trimAttest k rest).1, (trimAttest k rest).2)
    else (m :: (trimAttest n rest).1, (trimAttest n rest).2)

/-- An ATTEST message at the head is served: from any endpoint, once the device has booted. -/
def onAttest (p : UrfelMsg → Bool) (body : UrfelMsg → State → State) (s : State) : State :=
  match s.inbox with
  | [] => s
  | m :: rest =>
    if m.op ≠ 4 ∨ p m = false ∨ s.trust.booted = false then s
    else
      let t := trimAttest 64 rest
      let s1 := { s with inbox := t.1, refusals := s.refusals + t.2 }
      if m.status ≠ 0 ∨ m.sub ≠ 0 ∨ m.payload.length ≠ m.length then answerMsg s1 m stBadMessage []
      else if s.trust.identityKey = false then answerMsg s1 m stDenied []
      else body m s1

/-- ATTEST_CERTIFICATE. -/
def execAttestCertificate (s : State) : Host.Outcome State Fault Refusal :=
  .next (onAttest (fun m => decide (m.length = 0)) (fun m s => answerMsg s m stOk (Config.certificate.take 7424)) s)

/-- The report's bytes 0x000 to 0x27F (R407). -/
def reportBody (t : Trust) (nonce : List Byte) : List Byte :=
  bytesOf 4 1 ++ bytesOf 4 ((if t.bootFail then 1 else 0) + (if t.erased then 2 else 0) + (if t.halted then 4 else 0)) ++ bytesOf 4 t.alarms.toNat ++
  bytesOf 4 t.lastAlarm ++ bytesOf 16 Config.serial.toNat ++ bytesOf 1 nonce.length ++ bytesOf 31 0 ++ nonce ++
  List.replicate (64 - nonce.length) 0 ++ t.meas.toList.flatMap (fun m => bytesOf 64 m.toNat)

/-- The report with its 4,627 signature bytes. -/
def report (t : Trust) (nonce : List Byte) : List Byte :=
  let b := reportBody t nonce
  b ++ (List.range 4627).map (Config.reportSignature b)

/-- ATTEST_REPORT: LENGTH 32 to 64 gives a report over that nonce; any other LENGTH but 0 is answered BAD_MESSAGE. -/
def execAttestReport (s : State) : Host.Outcome State Fault Refusal :=
  .next (onAttest (fun m => decide (m.length ≠ 0)) (fun m s =>
    if m.length < 32 ∨ 64 < m.length then answerMsg s m stBadMessage [] else answerMsg s m stOk (report s.trust m.payload)) s)

end Sys2Proof.Machine
end

