-- ==== Sys2Proof/Machine/Fabric.lean ====
section
/-! DEFINITION. The fabric (R388, R389, R396 to R403): ports, accesses of peer devices, requests the transport abandons, the gate scorer, dispatch by
request and grant, and the combine. -/

namespace Sys2Proof.Machine

/-! ## Ports (R389) -/

def execPortDown (port : Nat) (s : State) : Host.Outcome State Fault Refusal := .next { s with ports := s.ports &&& ~~~ BitVec.ofNat 16 (2 ^ port) }

def execPortTrained (port : Nat) (s : State) : Host.Outcome State Fault Refusal := .next { s with ports := s.ports ||| BitVec.ofNat 16 (2 ^ port) }

/-! ## Peers (R397) -/

/-- Bytes a peer's operation touches. -/
def opBytes (p : PeerOp) : Nat :=
  match p with
  | .read n => n
  | .write bs => bs.length
  | .atomic _ n _ _ _ => n

/-- The permissions it needs in an export range: R, W, atomic. -/
def peerNeed (p : PeerOp) : Nat :=
  match p with
  | .read _ => 1
  | .write _ => 2
  | .atomic _ _ _ _ _ => 4

/-- An export range covers the access with its permission. -/
def exported (s : State) (p : PeerReq) : Bool :=
  s.exports.any (fun e =>
    let x := e.2.toNat
    let base := bits x 63 0
    let perm := bits x 106 104
    decide (base ≤ p.pa) && decide (p.pa + opBytes p.op ≤ base + bits x 103 64) && decide (0 < bits x 103 64) &&
    decide (perm &&& peerNeed p.op = peerNeed p.op))

/-- Every byte of a physical run exists: DRAM, or a slice window that is not beyond its size. -/
def physical (s : State) (pa n : Nat) : Bool :=
  let ok (a : Nat) : Bool := (isDram a || isWindowPa a) && !beyondWindow s a
  (linesOf pa n).all (fun l => ok (128 * l)) && ok (pa + n - 1)

def answerPeer (s : State) (a : PeerAnswer) : State := { s with peerAnswers := s.peerAnswers ++ [a] }

/-- PEER_ACCESS: served at home within the export table, or refused; a poisoned line sends no data (R410). -/
def peerAccess (s : State) (p : PeerReq) : State :=
  let n := opBytes p.op
  if !exported s p || !physical s p.pa n then answerPeer s .refused
  else
    let s0 := settleWindow s p.pa
    match p.op with
    | .read _ =>
      let r := homeTake s0 false p.pa n
      answerPeer r.2 (match r.1 with
        | some bs => .data bs
        | none => .refused)
    | .write bs => answerPeer (arriveWrite s0 p.pa bs) .ok
    | .atomic op _ ty y c =>
      let r := homeTake s0 false p.pa n
      match r.1 with
      | none => answerPeer r.2 .refused
      | some bs =>
        answerPeer (homeWrite r.2 p.pa (bytesOf n (atomOp op ty n (natOfBytes bs) (y.toNat % 2 ^ (8 * n)) (c.toNat % 2 ^ (8 * n))))) (.data bs)

def execPeerAccess (p : PeerReq) (s : State) : Host.Outcome State Fault Refusal := .next (if s.trust.halted then s else peerAccess s p)

/-- An entry of a core's queue bound for a peer. -/
def isPeerEntry (e : OutEntry) : Bool :=
  match e.work with
  | .peerWrite _ _ => true
  | .batch b => b.peer
  | _ => false

/-- A lane's read of a peer is refused: a poisoned line (R397). Its destinations stay unchanged and the lane is reported, with the address the trap record
names (R276), unless its values have arrived. -/
def LateOp.refuseLane (o : LateOp) (slot : Nat) : LateOp :=
  let ps := o.peers.filter (fun p => decide (p.1 = slot) && !o.poisoned.contains p)
  if ps = [] ∨ o.came.getLsbD slot = true then o
  else { o with poisoned := o.poisoned ++ ps, vwrites := o.vwrites.filter (fun w => decide (w.1 ≠ slot)), swrites := [] }

/-- A batch of a returning atomic whose lanes read poison (R397): each lane is reported where its late operation is waited for. -/
def poisonBatch (s : State) (u : Nat) (b : Batch) : State :=
  match b.late with
  | some id => (s.updTeam u (fun t => b.lanes.foldl (fun t a => poisonLate t id a.slot a.va) t)).updTeam u (fun t => batchServed t id)
  | none => b.lanes.foldl (fun s a => holdIntegrity s u none true a.slot a.va) s

/-- TRANSPORT_GIVES_UP (R389, R395, R397). -/
def lostRequest (s : State) (x : LostRequest) : State :=
  match x with
  | .hostRead ms k =>
    (match loadOf s ms k with
    | some l => if l.tags ≠ [] then failLayer s ms k 1 else s
    | none => s)
  | .peerLayer ms k =>
    if (loadOf s ms k).isSome && decide ((getLayer s ms k).map Layer.srckind = some 1) then failLayer s ms k 1 else s
  | .peerLoad team op slot => s.updTeam team (fun t => updLate t op (fun o => o.refuseLane slot))
  | .peerStore core ix =>
    (match (s.core core).out[ix]? with
    | some e =>
      if isPeerEntry e && firstOfLine s core ix then
        let s1 := s.updCore core (fun c => { c with out := dropNth c.out ix })
        (match e.work with
        | .batch b => poisonBatch s1 e.team b
        | _ => holdIntegrity s1 e.team none true e.slot e.va)
      else s
    | none => s)

def execTransportGivesUp (site : LostRequest) (s : State) : Host.Outcome State Fault Refusal := .next (if s.trust.halted then s else lostRequest s site)

/-! ## The gate scorer (R399) -/

/-- A sum of products under way: an exact multiple of 2^-266, an infinity, or NaN. -/
inductive Score where
  | num (x : Int)
  | inf (neg : Bool)
  | nan
  deriving DecidableEq, Repr

def Score.add (a b : Score) : Score :=
  match a, b with
  | .num x, .num y => .num (x + y)
  | .nan, _ => .nan
  | _, .nan => .nan
  | .inf p, .inf q => if p = q then .inf p else .nan
  | .inf p, .num _ => .inf p
  | .num _, .inf q => .inf q

/-- The exact product of two BF16 elements. -/
def Score.mul (x y : Nat) : Score :=
  match fpDecode fmtBf16 x, fpDecode fmtBf16 y with
  | .nan _, _ => .nan
  | _, .nan _ => .nan
  | .inf p, .inf q => .inf (p != q)
  | .inf p, .fin q m _ => if m = 0 then .nan else .inf (p != q)
  | .fin q m _, .inf p => if m = 0 then .nan else .inf (p != q)
  | .fin p m e, .fin q n f => .num (scaled (p != q) (m * n) (e + f) (-266))

/-- l[e] as an FP32 encoding: the exact sum rounded to nearest even, subnormals kept. -/
def Score.round (a : Score) : Nat :=
  match a with
  | .num x => (fpRoundInt fmtFp32 0 false x (-266)).1
  | .inf p => fpSign fmtFp32 p + fmtFp32.infBits
  | .nan => fmtFp32.nan

/-- The logit of an expert. -/
def logit (x g : List (BitVec 16)) : Nat := ((x.zip g).foldl (fun a p => a.add (Score.mul p.1.toNat p.2.toNat)) (Score.num 0)).round

/-- a ranks above b: a NaN ranks below −∞. -/
def ranksAbove (a b : Nat) : Bool :=
  match fpDecode fmtFp32 a, fpDecode fmtFp32 b with
  | .nan _, _ => false
  | _, .nan _ => true
  | x, y => decide (fpCmpV x y = 1)

/-- The k experts of the highest logits, ties to the lower index. -/
def topExperts (ls : List Nat) : Nat → List Nat → List Nat
  | 0, acc => acc
  | n + 1, acc =>
    let best := ((List.range ls.length).filter (fun i => !acc.contains i)).foldl (fun (m : Option Nat) i => match m with
      | none => some i
      | some j => if ranksAbove (nthD ls i 0) (nthD ls j 0) then some i else some j) none
    match best with
    | none => acc
    | some i => topExperts ls n (acc ++ [i])

/-- A finite FP32 encoding as a multiple of 2^-149. -/
def fp32Units (x : Nat) : Int :=
  match fpDecode fmtFp32 x with
  | .fin n m e => scaled n m e (-149)
  | _ => 0

/-- The softmax weight of l among the selected logits, correctly rounded: equal logits give 1/k exactly; else an enclosure of the exact value decides,
and where it does not the rounding stays open (log 8). -/
def softWeight (ls : List Nat) (l : Nat) : Nat :=
  if ls.all (fun x => decide (fp32Units x = fp32Units l)) then
    (fpDivV fmtFp32 0 (.fin false 1 0) (.fin false ls.length 0)).1
  else
    let top := ls.foldl (fun m x => if m < fp32Units x then fp32Units x else m) (fp32Units l)
    let a (x : Nat) : Int :=
      let y := (top - fp32Units x) * ((2 ^ (fxBits - 149) : Nat) : Int)
      if y < 512 * fxOne then fxExpNeg y else 0
    let sum := (ls.map a).sum
    (fxResult 5 fmtFp32 0 (a l * fxOne / sum) 0 (ls.foldl (fun h x => h * 2 ^ 32 + x) l)).1

/-- The weights of the selected experts, in their order. -/
def gateWeights (sel : List Nat) : List Nat :=
  if sel.any (fun l => match fpDecode fmtFp32 l with
    | .fin _ _ _ => false
    | _ => true) then sel.map (fun _ => fmtFp32.nan)
  else sel.map (softWeight sel)

/-- A token's selected experts in ascending order, with their weights. -/
def scoreToken (g : Gate) (x : List (BitVec 16)) (k : Nat) : List (Nat × Nat) :=
  let ls := (List.range g.experts).map (fun e => logit x ((g.weights.drop (e * g.d)).take g.d))
  let top := topExperts ls k []
  let sel := (List.range g.experts).filter (fun e => top.contains e)
  sel.zip (gateWeights (sel.map (fun e => nthD ls e 0)))

/-- The 64-byte routing record. -/
def routeRecord (token k : Nat) (sel : List (Nat × Nat)) : List Byte :=
  bytesOf 4 token ++ bytesOf 1 k ++ bytesOf 3 0 ++ (List.range 8).flatMap (fun i => bytesOf 1 ((sel[i]?).map Prod.fst |>.getD 0xFF)) ++
  (List.range 8).flatMap (fun i => bytesOf 4 ((sel[i]?).map Prod.snd |>.getD 0)) ++ bytesOf 16 0

/-! ## Dispatch jobs (R400, R402) -/

/-- Bytes written where every byte can be: false while a page is waited for. Where an address cannot be written nothing is. -/
def putOrWait (s : State) (who : Asker) (ctx va : Nat) (bs : List Byte) : Bool × State :=
  let c := sconceCheck s (some who) ctx va bs.length needW
  match c.1.1 with
  | .wait _ => (false, c.2)
  | .fail => (true, c.2)
  | .ok _ => (true, sconcePut c.2 ctx va bs)

/-- A failed job stores all ones at COMPADDR with release and is over (R400); what it held or asked for goes as at a teardown. -/
def failJob (s : State) (j : Nat) : State :=
  match tblGet s.jobs j with
  | none => s
  | some x =>
    if x.done then s
    else
      let p := putOrWait s (.job j) x.ctx x.compaddr (bytesOf 8 (2 ^ 64 - 1))
      if p.1 then settleRings (cancelJob p.2 j x) else p.2

/-- Teams of a launch are saved (R388). -/
def launchSaved (s : State) (l : Option Nat) : Bool :=
  match l with
  | none => false
  | some id => s.teams.any (fun t => t.2.saved && decide (t.2.cfg.launch = id))

/-- PRIO of a model-context slot. -/
def modelPrio (s : State) (ms : Nat) : Nat := ((tblGet s.models ms).map ModelCtx.prio).getD 0

/-- A job is pre-empted (R388): teams of the launch that started it are saved, or a job of a context of higher PRIO needs the engine. There is one engine
for the jobs of the package (log 78). -/
def jobPaused (s : State) (x : Job) : Bool :=
  launchSaved s x.launch ||
  s.jobs.any (fun j => !j.2.done && !launchSaved s j.2.launch && decide (modelPrio s x.mslot < modelPrio s j.2.mslot))

/-- A payload of a token has begun to leave: the token is sent whole. -/
def tokenLeaves (x : Job) (token : Nat) : Bool := x.copies.any (fun c => decide (c.token = token) && decide (3 ≤ c.state) && decide (c.state ≤ 5))

/-- A job record's fields, where they are in range (R400). -/
def jobOk (s : State) (ms : Nat) (bs : List Byte) : Bool :=
  let g := pf bs 0x34 1
  decide (1 ≤ pf bs 0x30 4) && decide (pf bs 0x30 4 ≤ 65536) && decide (g ≤ 3) && decide (pf bs 0x20 8 % 8 = 0) &&
  decide (1 ≤ pf bs 0x35 1) && decide (pf bs 0x35 1 ≤ 8) && decide (pf bs 0x36 1 ≤ 1) && decide (pf bs 0x37 9 = 0) &&
  (match tblGet s.gates g with
   | some x => decide (x.mslot = ms) && decide (pf bs 0x35 1 ≤ x.experts)
   | none => false)

/-- The job of a record. -/
def jobOf (ms ctx : Nat) (launch : Option Nat) (bs : List Byte) : Job :=
  { ctx := ctx, mslot := ms, tokens := pf bs 0 8, route := pf bs 8 8, xtable := pf bs 0x10 8, out := pf bs 0x18 8, compaddr := pf bs 0x20 8,
    compval := BitVec.ofNat 64 (pf bs 0x28 8), ntok := pf bs 0x30 4, gate := pf bs 0x34 1, k := pf bs 0x35 1, ofmt := pf bs 0x36 1, launch := launch, next := 0,
    copies := [], combined := [], done := false }

/-- The copies of a scored token, with their XTABLE entries. -/
def newCopies (token : Nat) (sel : List (Nat × Nat)) (xs : List Nat) : List Copy :=
  (sel.zip xs).map (fun p =>
    let ix := bits p.2 15 0
    { token := token, expert := p.1.1, weight := BitVec.ofNat 32 p.1.2, peer := if ix = 0xFFFF then none else some ix, buf := bits p.2 27 16, slot := 0,
      state := 0, output := [] })

/-- A request for a slot sent for a copy (R402, step 2): a buffer of this device keeps it in order of arrival; a buffer not defined yet is asked when it is. -/
def askSlot (s : State) (j ix : Nat) (c : Copy) : Copy × State :=
  match c.peer with
  | some _ => ({ c with state := 1 }, s)
  | none => match tblGet s.buffers c.buf with
    | none => (c, s)
    | some b => ({ c with state := 1 }, { s with buffers := tblSet s.buffers c.buf { b with requests := b.requests ++ [.job j ix] } })

/-- Requests for the copies from an index on. -/
def askSlots (j : Nat) : Nat → List Copy → State → List Copy × State
  | _, [], s => ([], s)
  | ix, c :: rest, s =>
    let a := askSlot s j ix c
    let q := askSlots j (ix + 1) rest a.2
    (a.1 :: q.1, q.2)

/-- The XTABLE entries of experts: all, none while a page is waited for, or an address or entry that cannot be used. -/
def xtableWords (who : Option Asker) (ctx base : Nat) : List Nat → State → Except Bool (List Nat) × State
  | [], s => (.ok [], s)
  | e :: rest, s =>
    let r := sconceRead s who ctx (base + 4 * e) 4
    match r.1 with
    | .wait _ => (.error true, r.2)
    | .fail _ => (.error false, r.2)
    | .ok bs =>
      if 2 ^ 28 ≤ natOfBytes bs then (.error false, r.2)
      else
        let q := xtableWords who ctx base rest r.2
        (q.1.map (fun xs => natOfBytes bs :: xs), q.2)

/-- The next token of a job scored, its routing record written, its slots asked for (R402, steps 1 and 2). -/
def stepJob (s : State) (j : Nat) (x : Job) : State :=
  match tblGet s.gates x.gate with
  | none => failJob s j
  | some g =>
    let r := sconceRead s (some (.job j)) x.ctx (x.tokens + 2 * g.d * x.next) (2 * g.d)
    match r.1 with
    | .wait _ => r.2
    | .fail _ => failJob r.2 j
    | .ok bs =>
      let v : List (BitVec 16) := (List.range g.d).map (fun i => BitVec.ofNat 16 (pf bs (2 * i) 2))
      let sel := scoreToken g v x.k
      let t := xtableWords (some (.job j)) x.ctx x.xtable (sel.map Prod.fst) r.2
      match t.1 with
      | .error true => t.2
      | .error false => failJob t.2 j
      | .ok xs =>
        let c := sconceCheck t.2 (some (.job j)) x.ctx (x.route + 64 * x.next) 64 needW
        match c.1.1 with
        | .wait _ => c.2
        | .fail => failJob c.2 j
        | .ok _ =>
          let s1 := sconcePut c.2 x.ctx (x.route + 64 * x.next) (routeRecord x.next x.k sel)
          let a := askSlots j x.copies.length (newCopies x.next sel xs) s1
          { a.2 with jobs := tblSet a.2.jobs j { x with next := x.next + 1, copies := x.copies ++ a.1 } }

/-- A job record taken from the context's dispatch queue; one with a field out of range, a COMPADDR that is not aligned among them, completes at once as
failed. -/
def takeJob (s : State) (ms : Nat) (m : ModelCtx) : State :=
  let p := popRecord s (some (.dispatch ms)) m.ctx m.dispq
  match p.1 with
  | .ok bs launch =>
    if jobOk p.2 ms bs then
      let q := takeId p.2
      { q.2 with jobs := tblSet q.2.jobs q.1 (jobOf ms m.ctx launch bs) }
    else
      let w := putOrWait p.2 (.dispatch ms) m.ctx (pf bs 0x20 8) (bytesOf 8 (2 ^ 64 - 1))
      if w.1 then w.2 else (putOrWait s (.dispatch ms) m.ctx (pf bs 0x20 8) (bytesOf 8 (2 ^ 64 - 1))).2
  | _ => p.2

/-- DISPATCH_JOB (R388, R400): the context's job goes on at its next token, or its next record is taken. A pre-empted job starts no token; a resumed one
spends the grants it holds before it asks for more. -/
def dispatchJob (s : State) (ms : Nat) : State :=
  match tblGet s.models ms with
  | none => s
  | some m =>
    if m.unload || decide (m.dispq = 0) then s
    else
      match s.jobs.find? (fun j => decide (j.2.mslot = ms) && !j.2.done && decide (j.2.next < j.2.ntok)) with
      | some (j, x) => if jobPaused s x || x.copies.any (fun c => decide (c.state = 2)) then s else stepJob s j x
      | none => takeJob s ms m

def execDispatchJob (mslot : Nat) (s : State) : Host.Outcome State Fault Refusal := .next (if s.trust.halted then s else dispatchJob s mslot)

/-! ## Requests, grants, payloads (R401, R402) -/

/-- A copy of a job. -/
def copyAt (s : State) (j ix : Nat) : Option (Job × Copy) := (tblGet s.jobs j).bind (fun x => (x.copies[ix]?).map (fun c => (x, c)))

def setCopy (s : State) (j ix : Nat) (f : Copy → Copy) : State :=
  match copyAt s j ix with
  | none => s
  | some (x, c) => { s with jobs := tblSet s.jobs j { x with copies := setNth x.copies ix (f c) } }

/-- Bytes of a slot, rounded up to 128, and a slot's address (R393). -/
def slotBytes (b : ExpertBuf) : Nat := (2 * b.d + b.dout * (if b.ofmt = 0 then 4 else 2) + 127) / 128 * 128
def slotVa (b : ExpertBuf) (k : Nat) : Nat := b.base + k * slotBytes b

/-- The buffer of a BUFID, of a context. -/
def bufOf (s : State) (ctx buf : Nat) : Option ExpertBuf := (tblGet s.buffers buf).bind (fun b => if b.ctx = ctx then some b else none)

/-- The buffer that a request is for. -/
def askedBuf : SlotAsk → Nat
  | .waiting buf => buf
  | .peer buf _ => buf

/-- A request of a peer's engine joins those that wait at its buffer. -/
def peerAsks (s : State) (b : ExpertBuf) (ask : SlotAsk) : State × ExpertBuf :=
  match ask with
  | .waiting _ => (s, b)
  | .peer buf tag =>
    let b1 := { b with requests := b.requests ++ [.peer tag false] }
    ({ s with buffers := tblSet s.buffers buf b1 }, b1)

/-- A granted slot made known: to the copy of the job, or to the peer. -/
def grantTo (s : State) (buf k : Nat) (r : SlotFor) : State :=
  match r with
  | .job j ix => setCopy s j ix (fun c => { c with state := 2, slot := k })
  | .peer tag _ => answerPeer s (.granted tag buf k)

/-- SLOT_REQUEST (R402, step 3): a request of a peer's engine arrives where the step names one, and the oldest request gets a free slot; which one is not
architectural (log 13). -/
def slotRequest (s : State) (ctx : Nat) (ask : SlotAsk) : State :=
  let buf := askedBuf ask
  match bufOf s ctx buf with
  | none => s
  | some b0 =>
    let a := peerAsks s b0 ask
    let b := a.2
    match b.requests, (List.range b.slots).find? (fun k => !b.used.contains k) with
    | r :: rest, some k =>
      let b1 := { b with requests := rest, used := b.used ++ [k], routes := tblSet b.routes k r }
      grantTo { a.1 with buffers := tblSet a.1.buffers buf b1 } buf k r
    | _, _ => a.1

def execSlotRequest (ctx : Nat) (ask : SlotAsk) (s : State) : Host.Outcome State Fault Refusal :=
  .next (if s.trust.halted then s else slotRequest s ctx ask)

/-- An earlier token of the job has a copy for the same buffer that has not come as far as state n: tokens go to any one buffer in ascending token order
(R402, step 2). -/
def waitsTurn (x : Job) (c : Copy) (n : Nat) : Bool :=
  x.copies.any (fun e => decide (e.token < c.token) && decide (e.peer = c.peer) && decide (e.buf = c.buf) && decide (e.state < n))

/-- SLOT_GRANT (R402, step 4): the grant reaches the job and the payload leaves, after those of earlier tokens for the same buffer; a peer's grant comes
from outside. A pre-empted job keeps a grant for a token of which nothing has left (R388). -/
def slotGrant (s : State) (j ix : Nat) : State :=
  match copyAt s j ix with
  | none => s
  | some (x, c) =>
    if x.done || waitsTurn x c 3 then s
    else if decide (c.state = 2) || (c.peer.isSome && decide (c.state = 1)) then
      setCopy s j ix (fun c => { c with state := if jobPaused s x && !tokenLeaves x c.token then 2 else 3 })
    else s

def execSlotGrant (job ix : Nat) (s : State) : Host.Outcome State Fault Refusal := .next (if s.trust.halted then s else slotGrant s job ix)

/-- The dispatch record of a copy in its slot (R402, step 4). -/
def dispatchRecord (b : ExpertBuf) (buf slot token : Nat) (weight : Word) : List Byte :=
  bytesOf 4 slot ++ bytesOf 4 buf ++ bytesOf 4 token ++ bytesOf 4 weight.toNat ++ bytesOf 8 (slotVa b slot) ++ bytesOf 40 0

/-- A record appended to the queue at an address of a context: false while it cannot be. -/
def pushTo (s : State) (who : Option Asker) (ctx va : Nat) (bs : List Byte) : Bool × State :=
  let a := sconceReach s who ctx va needW
  match a.1 with
  | .ok m =>
    if m.peer.isSome || m.record.isSome then (false, a.2)
    else
      (match unitFree a.2 .queue m.pa with
      | none => (false, a.2)
      | some s1 =>
        let q := queueAt s1 ctx m.pa
        (match q.1 with
        | none => (false, q.2)
        | some x =>
          let r := appendRecord q.2 who sconceCore none m.pa x bs
          (match r.1 with
          | .done s2 => (true, s2)
          | _ => (false, r.2))))
  | _ => (false, a.2)

/-- A payload written into its slot, then its dispatch record appended, with release (R402, step 4): whether both are done; nothing is appended while an
address is waited for, and where the slot cannot be written, or a peer refuses it, the payload is lost. -/
inductive Delivery where
  | done (s : State)
  | waits (s : State)
  | lost (s : State)
  deriving DecidableEq, Repr

def deliver (s : State) (who : Option Asker) (b : ExpertBuf) (buf slot token : Nat) (weight : Word) (bs : List Byte) : Delivery :=
  let w := sconceCheck s who b.ctx (slotVa b slot) (2 * b.d) needW
  match w.1.1 with
  | .wait _ => .waits w.2
  | .fail => .lost w.2
  | .ok _ =>
    let q := putRun w.2 b.ctx (slotVa b slot) bs
    if q.1 = false then .lost q.2
    else
      let p := pushTo q.2 who b.ctx b.recordq (dispatchRecord b buf slot token weight)
      if p.1 then .done p.2 else .waits p.2

/-- A payload of a job of this device. A token whose payload left before its context was torn down is still delivered (R388). -/
def expertPayload (s : State) (j ix : Nat) : State :=
  match copyAt s j ix with
  | none => s
  | some (x, c) =>
    match tblGet s.buffers c.buf with
    | none => s
    | some b =>
      if c.state ≠ 3 ∨ c.peer.isSome = true ∨ waitsTurn x c 4 = true then s
      else if (tblGet s.gates x.gate).map Gate.d ≠ some b.d then failJob s j
      else
        let r := sconceRead s (some (.job j)) x.ctx (x.tokens + 2 * b.d * c.token) (2 * b.d)
        match r.1 with
        | .wait _ => r.2
        | .fail _ => failJob r.2 j
        | .ok bs =>
          match deliver r.2 (some (.job j)) b c.buf c.slot c.token c.weight bs with
          | .done s1 => setCopy s1 j ix (fun c => { c with state := 4 })
          | .waits s1 => s1
          | .lost s1 => failJob s1 j

/-- A payload from a peer's engine reaches the slot granted to it; one for any other slot is dropped. While an address is waited for, it is tried again with
the same step. -/
def peerPayload (s : State) (buf slot token : Nat) (weight : Word) (bs : List Byte) : State :=
  match tblGet s.buffers buf with
  | none => s
  | some b =>
    match tblGet b.routes slot with
    | some (.peer tag false) =>
      if bs.length ≠ 2 * b.d then s
      else
        (match deliver s (some (.payload buf slot)) b buf slot token weight bs with
        | .done s1 => { s1 with buffers := tblSet s1.buffers buf { b with routes := tblSet b.routes slot (.peer tag true) } }
        | .waits s1 => s1
        | .lost s1 => s1)
    | _ => s

/-- EXPERT_PAYLOAD. -/
def execExpertPayload (site : PayloadSite) (ix : Nat) (s : State) : Host.Outcome State Fault Refusal :=
  .next (if s.trust.halted then s else match site with
    | .own job => expertPayload s job ix
    | .peer buf token weight bs => peerPayload s buf ix token weight bs)

/-- A slot is free again. -/
def freeSlot (s0 : State) (buf k : Nat) : State :=
  let s := dropAsks s0 (fun w => decide (w = .payload buf k))
  match tblGet s.buffers buf with
  | none => s
  | some b => { s with buffers := tblSet s.buffers buf { b with used := b.used.filter (fun x => decide (x ≠ k)), routes := tblErase b.routes k } }

/-- The outputs of a slot as FP32 words, converted exactly. -/
def slotOutputs (b : ExpertBuf) (bs : List Byte) : List Word :=
  (List.range b.dout).map (fun i => if b.ofmt = 0 then BitVec.ofNat 32 (pf bs (4 * i) 4) else BitVec.ofNat 32 (pf bs (2 * i) 2 * 65536))

/-- Outputs go back to whom the slot served. -/
def returnTo (s : State) (r : SlotFor) (ys : List Word) : State :=
  match r with
  | .job j ix => setCopy s j ix (fun c => if c.state = 4 then { c with state := 5, output := ys } else c)
  | .peer tag _ => answerPeer s (.outputs tag ys)

/-- Outputs that cannot be read: the job fails, and a peer's read is refused. -/
def returnLost (s : State) (r : SlotFor) : State :=
  match r with
  | .job j _ => failJob s j
  | .peer _ _ => answerPeer s .refused

/-- RETURN_RECORD (R402, step 6): a return record is popped, the slot's outputs go back, the slot is free. -/
def returnRecord (s : State) (ctx buf : Nat) : State :=
  match bufOf s ctx buf with
  | none => s
  | some b =>
    let p := popRecord s (some (.returns buf)) b.ctx b.returnq
    match p.1 with
    | .ok bs _ =>
      let k := pf bs 0 4
      (match tblGet b.routes k with
      | none => p.2
      | some who =>
        let va := slotVa b k + 2 * b.d
        let n := b.dout * (if b.ofmt = 0 then 4 else 2)
        let r := sconceRead p.2 (some (.returns buf)) b.ctx va n
        (match r.1 with
        | .wait _ => (sconceRead s (some (.returns buf)) b.ctx va n).2
        | .fail _ => returnLost (freeSlot r.2 buf k) who
        | .ok ys => returnTo (freeSlot r.2 buf k) who (slotOutputs b ys)))
    | _ => p.2

def execReturnRecord (ctx buf : Nat) (s : State) : Host.Outcome State Fault Refusal := .next (if s.trust.halted then s else returnRecord s ctx buf)

/-- GRANT_CANCEL (R388): the cancel of a torn-down context frees the slot held for it; a payload already delivered to a peer's slot stays. -/
def grantCancel (s : State) (ctx buf k : Nat) : State :=
  match (bufOf s ctx buf).bind (fun b => tblGet b.routes k) with
  | none => s
  | some (.peer _ delivered) => if delivered then s else freeSlot s buf k
  | some (.job j ix) =>
    match copyAt s j ix with
    | some (_, c) => if c.state = 6 then settleRings (setCopy (freeSlot s buf k) j ix (fun c => { c with state := 5 })) else s
    | none => settleRings (freeSlot s buf k)

def execGrantCancel (ctx buf slot : Nat) (s : State) : Host.Outcome State Fault Refusal := .next (if s.trust.halted then s else grantCancel s ctx buf slot)

/-! ## The combine (R403) -/

/-- One output element: the weighted sum in ascending expert order, each step rounded to FP32. -/
def combineElem (ofmt : Nat) (cs : List Copy) (i : Nat) : Nat :=
  let acc := cs.foldl (fun a c => (fpFmaV fmtFp32 0 (fpDecode fmtFp32 c.weight.toNat) (fpDecode fmtFp32 (nthD c.output i 0).toNat) (fpDecode fmtFp32 a)).1)
    fmtFp32.signBit
  if ofmt = 0 then acc else (fpConvV fmtBf16 0 (fpDecode fmtFp32 acc)).1

/-- The outputs of a copy that a peer serves: free words of the peer's output width (log 9). -/
def peerOutput (s : State) (c : Copy) : Copy × State :=
  match c.peer with
  | some ix =>
    if c.state = 3 then
      let r := drawWords (Config.peerWidth ix c.buf) s
      ({ c with state := 5, output := r.1 }, r.2)
    else (c, s)
  | none => (c, s)

def peerOutputs : List Copy → State → List Copy × State
  | [], s => ([], s)
  | c :: rest, s =>
    let a := peerOutput s c
    let q := peerOutputs rest a.2
    (a.1 :: q.1, q.2)

/-- COMBINE: a token all of whose outputs have arrived is combined; after the last token COMPVAL is stored at COMPADDR with release. A peer's outputs
arrive when the step is taken. -/
def combineToken (s : State) (j token : Nat) : State :=
  match tblGet s.jobs j with
  | none => s
  | some x =>
    let mine := x.copies.filter (fun c => decide (c.token = token))
    let there (c : Copy) : Bool := decide (c.state = 5) || (c.peer.isSome && decide (c.state = 3))
    if x.done || jobPaused s x || x.combined.contains token || decide (x.next ≤ token) || !mine.all there then s
    else
      let a := peerOutputs mine s
      let n := ((a.1.head?).map (fun c => c.output.length)).getD 0
      let w := if x.ofmt = 0 then 4 else 2
      let bs := (List.range n).flatMap (fun i => bytesOf w (combineElem x.ofmt a.1 i))
      let last := decide (x.combined.length + 1 = x.ntok)
      let c := sconceCheck a.2 (some (.job j)) x.ctx (x.out + n * w * token) (n * w) needW
      match c.1.1 with
      | .wait _ => c.2
      | .fail => failJob c.2 j
      | .ok _ =>
        let d := if last then sconceCheck c.2 (some (.job j)) x.ctx x.compaddr 8 needW else (c.1, c.2)
        match d.1.1 with
        | .wait _ => d.2
        | _ =>
          let s1 := sconcePut d.2 x.ctx (x.out + n * w * token) bs
          if last then settleRings { (putOrWait s1 (.job j) x.ctx x.compaddr (bytesOf 8 x.compval.toNat)).2 with jobs := tblErase s1.jobs j }
          else { s1 with jobs := tblSet s1.jobs j { x with combined := x.combined ++ [token], copies := x.copies.map (fun c => if c.token = token then { c with output := [] } else c) } }

def execCombine (job token : Nat) (s : State) : Host.Outcome State Fault Refusal := .next (if s.trust.halted then s else combineToken s job token)

end Sys2Proof.Machine
end

