-- ==== Sys2Proof/Machine/Masks.lean ====
section
/-! DEFINITION. The mask instructions (R249, R250): team-wide, whatever EXEC and the guard hold, on the slots LIVE in the running frame (R191). -/

namespace Sys2Proof.Machine

def maskForm (ops : List Opnd) : Form := plainForm anyType (fun _ => ops)

/-- A mask written at LIVE slots. -/
def maskBody (d : Nat) (f : Team → Mask) (s : State) (x : Issue) : Eff := .done (s.setTeam x.u (writeMask x.t d (f x.t)))

/-- MAND (R249). -/
def execMand (d a b : Nat) (s : State) : Host.Outcome State Fault Refusal :=
  issue (.mand d a b) (maskForm []) (maskBody d (fun t => readMask t a &&& readMask t b)) s
/-- MOR (R249). -/
def execMor (d a b : Nat) (s : State) : Host.Outcome State Fault Refusal :=
  issue (.mor d a b) (maskForm []) (maskBody d (fun t => readMask t a ||| readMask t b)) s
/-- MXOR (R249). -/
def execMxor (d a b : Nat) (s : State) : Host.Outcome State Fault Refusal :=
  issue (.mxor d a b) (maskForm []) (maskBody d (fun t => readMask t a ^^^ readMask t b)) s
/-- MNOT (R249). -/
def execMnot (d a : Nat) (s : State) : Host.Outcome State Fault Refusal :=
  issue (.mnot d a) (maskForm []) (maskBody d (fun t => ~~~ readMask t a)) s
/-- MANDN (R249). -/
def execMandn (d a b : Nat) (s : State) : Host.Outcome State Fault Refusal :=
  issue (.mandn d a b) (maskForm []) (maskBody d (fun t => readMask t a &&& ~~~ readMask t b)) s
/-- MMOV (R249). -/
def execMmov (d a : Nat) (s : State) : Host.Outcome State Fault Refusal :=
  issue (.mmov d a) (maskForm []) (maskBody d (fun t => readMask t a)) s
/-- MALL (R249): m ← EXEC. -/
def execMall (d : Nat) (s : State) : Host.Outcome State Fault Refusal :=
  issue (.mall d) (maskForm []) (maskBody d (fun t => t.exec)) s

/-- A word of a mask written to an s register; a v or w destination is ILLEGAL_OP at check 5. -/
def maskWordBody (d : Sel) (f : Issue → Nat) (s : State) (x : Issue) : Eff :=
  if isSreg d then .done (s.setTeam x.u (writeVal x.t 0 d 1 (f x))) else trapExec .illegalOp s x

/-- MPOPC (R249): the number of set bits. -/
def execMpopc (d : Sel) (a : Nat) (s : State) : Host.Outcome State Fault Refusal :=
  issue (.mpopc d a) (maskForm [dst d 1]) (maskWordBody d (fun x => (slotsOf slotCount (readMask x.t a)).length)) s

/-- MFIRST (R249): the lowest set slot, 0xFFFF_FFFF when none. -/
def execMfirst (d : Sel) (a : Nat) (s : State) : Host.Outcome State Fault Refusal :=
  issue (.mfirst d a) (maskForm [dst d 1]) (maskWordBody d (fun x => (lowestSlot slotCount (readMask x.t a)).getD 0xFFFFFFFF)) s

/-- MGET (R249): word b of the mask, 0 from word 32 on. -/
def execMget (d : Sel) (a : Nat) (b : Sel) (s : State) : Host.Outcome State Fault Refusal :=
  issue (.mget d a b) (maskForm [dst d 1, src b 1])
    (maskWordBody d (fun x => if 32 ≤ x.uval b 1 then 0 else (maskWord (readMask x.t a) (x.uval b 1)).toNat)) s

/-- A mask with word i replaced. -/
def maskSetWord (m : Mask) (i w : Nat) : Mask :=
  (m &&& ~~~ (BitVec.ofNat 1024 (0xFFFFFFFF * 2 ^ (32 * i)))) ||| BitVec.ofNat 1024 (w % 2 ^ 32 * 2 ^ (32 * i))

/-- MSET (R249): word b of the mask ← a at LIVE slots, nothing from word 32 on. -/
def msetBody (d : Nat) (a b : Sel) (s : State) (x : Issue) : Eff :=
  if 32 ≤ x.uval b 1 then .done s
  else .done (s.setTeam x.u (writeMask x.t d (maskSetWord ((x.t.masks[d]?).getD 0) (x.uval b 1) (x.uval a 1))))

def execMset (d : Nat) (a b : Sel) (s : State) : Host.Outcome State Fault Refusal :=
  issue (.mset d a b) (maskForm [src a 1, src b 1]) (msetBody d a b) s

/-- MSAVE (R250): 128 bytes stored as the lowest lane of EXEC, 0 for every slot that is not LIVE. -/
def msaveBody (d : Nat) (a : Sel) (s : State) (x : Issue) : Eff :=
  let r := checkRun s x.t (x.uval a 2) 128 16 needW true
  match r.1 with
  | .ends e => runEnds r.2 x e
  | .ok => .done (writeRun r.2 x.u (lowestLane x) x.t (x.uval a 2) (bytesOf 128 (readMask x.t d).toNat))

def execMsave (d : Nat) (a : Sel) (s : State) : Host.Outcome State Fault Refusal :=
  issue (.msave d a) { maskForm [src a 2] with mem := true } (msaveBody d a) s

/-- MLOAD (R250): 128 bytes loaded; the bits are written when the operation on the OTHERS flag completes, at the slots LIVE then. A poisoned line leaves
the mask unchanged (R276). DESIGN CHOICE (log 105): its INTEGRITY is held for the first waiting point, as that of a load, and names the lowest lane of
EXEC as it issued (R278), once that lane is in EXEC at such a point. -/
def mloadBody (d : Nat) (a : Sel) (s : State) (x : Issue) : Eff :=
  let r := checkRun s x.t (x.uval a 2) 128 16 needR true
  match r.1 with
  | .ends e => runEnds r.2 x e
  | .ok =>
    let v := readRun r.2 x.u x.t (x.uval a 2) 128
    let flag := ((x.t.clause.map Clause.others).getD 15)
    .done (startLate v.2 x.u flag (fun o => match v.1 with
      | some bs => { o with mask := some (d, BitVec.ofNat 1024 (natOfBytes bs)) }
      | none => { o with poisoned := [(lowestLane x, x.uval a 2)] })).2

def execMload (d : Nat) (a : Sel) (s : State) : Host.Outcome State Fault Refusal :=
  issue (.mload d a) { maskForm [src a 2] with mem := true, late := true, cls := 2 } (mloadBody d a) s

end Sys2Proof.Machine
end

