-- ==== Sys2Proof/Machine/Sponge.lean ====
section
/-! DEFINITION. The sponge functions of FIPS 202 that the trust logic uses (R404, R405): SHA3-512, SHAKE128 and SHAKE256. -/

namespace Sys2Proof.Machine

/-- A lane of the sponge's state. -/
abbrev KLane := BitVec 64

def rotLane (x : KLane) (n : Nat) : KLane := (x <<< n) ||| (x >>> (64 - n))

/-- Lane (x, y) of a state of 25 lanes, coordinates modulo 5. -/
def kAt (a : List KLane) (x y : Nat) : KLane := nthD a (x % 5 + 5 * (y % 5)) 0

/-- A state from a lane function. -/
def kMap (f : Nat → Nat → KLane) : List KLane := (List.range 25).map (fun i => f (i % 5) (i / 5))

/-- The rotation offsets, lane x + 5y. -/
def kOffsets : List Nat := [0, 1, 62, 28, 27, 36, 44, 6, 55, 20, 3, 10, 43, 25, 39, 41, 45, 15, 21, 8, 18, 2, 61, 56, 14]

/-- The round constants. -/
def kConsts : List KLane :=
  [0x0000000000000001, 0x0000000000008082, 0x800000000000808A, 0x8000000080008000, 0x000000000000808B, 0x0000000080000001, 0x8000000080008081,
   0x8000000000008009, 0x000000000000008A, 0x0000000000000088, 0x0000000080008009, 0x000000008000000A] ++
  [0x000000008000808B, 0x800000000000008B, 0x8000000000008089, 0x8000000000008003, 0x8000000000008002, 0x8000000000000080, 0x000000000000800A,
   0x800000008000000A, 0x8000000080008081, 0x8000000000008080, 0x0000000080000001, 0x8000000080008008]

/-- One round. -/
def kRound (a : List KLane) (rc : KLane) : List KLane :=
  let c := (List.range 5).map (fun x => (List.range 5).foldl (fun v y => v ^^^ kAt a x y) (0 : KLane))
  let d (x : Nat) : KLane := nthD c ((x + 4) % 5) 0 ^^^ rotLane (nthD c ((x + 1) % 5) 0) 1
  let t := kMap (fun x y => kAt a x y ^^^ d x)
  let b := kMap (fun x y => rotLane (kAt t (x + 3 * y) x) (nthD kOffsets ((x + 3 * y) % 5 + 5 * x) 0))
  kMap (fun x y => (kAt b x y ^^^ (~~~ kAt b (x + 1) y &&& kAt b (x + 2) y)) ^^^ (if x = 0 ∧ y = 0 then rc else 0))

def keccak (a : List KLane) : List KLane := kConsts.foldl kRound a

/-- The blocks of a padded message absorbed, rate bytes each. -/
def absorb (rate : Nat) : Nat → List Byte → List KLane → List KLane
  | 0, _, a => a
  | n + 1, bs, a =>
    absorb rate n (bs.drop rate) (keccak ((List.range 25).map (fun i =>
      nthD a i 0 ^^^ (if i < rate / 8 then BitVec.ofNat 64 (natOfBytes ((bs.drop (8 * i)).take 8)) else 0))))

/-- A message padded to whole blocks, its domain bits d first, and absorbed. -/
def sponge (rate : Nat) (d : Byte) (bs : List Byte) : List KLane :=
  let n := bs.length / rate + 1
  let pad := rate * n - bs.length
  let p := if pad = 1 then [d ||| 0x80] else [d] ++ List.replicate (pad - 2) 0 ++ [0x80]
  absorb rate n (bs ++ p) (List.replicate 25 0)

/-- The first n bytes of a state. -/
def spongeBytes (n : Nat) (a : List KLane) : List Byte := (a.take (n / 8)).flatMap (fun l => bytesOf 8 l.toNat)

/-- n blocks of output. -/
def squeeze (rate : Nat) : Nat → List KLane → List Byte
  | 0, _ => []
  | n + 1, a => spongeBytes rate a ++ squeeze rate n (keccak a)

/-- SHA3-512 of a message, the digest's first byte the least significant. -/
def sha3 (bs : List Byte) : BitVec 512 := BitVec.ofNat 512 (natOfBytes (spongeBytes 64 (sponge 72 0x06 bs)))

/-- n blocks of the outputs of SHAKE128 and SHAKE256. -/
def shake128 (n : Nat) (bs : List Byte) : List Byte := squeeze 168 n (sponge 168 0x1F bs)
def shake256 (n : Nat) (bs : List Byte) : List Byte := squeeze 136 n (sponge 136 0x1F bs)

end Sys2Proof.Machine
end

