-- ==== Sys2Proof/Machine/MlDsa.lean ====
section
/-! DEFINITION. The signature check of R404: ML-DSA-87 verification, as FIPS 204 gives it (log 93). Polynomials are lists of 256 coefficients, the constant
one first, modulo q. -/

namespace Sys2Proof.Machine

/-! ## The ring -/

/-- The modulus. -/
def dsaQ : Nat := 8380417

abbrev Poly := List Nat

def polyAdd (f g : Poly) : Poly := List.zipWith (fun a b => (a + b) % dsaQ) f g
def polySub (f g : Poly) : Poly := List.zipWith (fun a b => (a + dsaQ - b) % dsaQ) f g
def polyMul (f g : Poly) : Poly := List.zipWith (fun a b => a * b % dsaQ) f g
def polyZero : Poly := List.replicate 256 0

/-- The value of a polynomial at a point. -/
def polyAt (f : Poly) (x : Nat) : Nat := f.foldr (fun a r => (a + x * r) % dsaQ) 0

/-- A power of the 512th root of unity 1753. -/
def dsaRoot (e : Nat) : Nat := 1753 ^ (e % 512) % dsaQ

/-- The eight bits of an index reversed. -/
def brv8 (i : Nat) : Nat := (List.range 8).foldl (fun r k => 2 * r + i / 2 ^ k % 2) 0

/-- The values at the odd powers of the root, in the order of their reversed indexes. -/
def ntt (f : Poly) : Poly := (List.range 256).map (fun i => polyAt f (dsaRoot (2 * brv8 i + 1)))

/-- The polynomial that has these values; 8347681 is the inverse of 256. -/
def nttInv (v : Poly) : Poly :=
  let w := (List.range 256).map (fun i => nthD v (brv8 i) 0)
  (List.range 256).map (fun j => 8347681 * dsaRoot (512 - j) % dsaQ * polyAt w (dsaRoot (512 - 2 * j % 512)) % dsaQ)

/-! ## Decoding -/

/-- Coefficients of w bits each, unpacked. -/
def unpackPoly (w : Nat) (bs : List Byte) : Poly :=
  let x := natOfBytes bs
  (List.range 256).map (fun i => x / 2 ^ (w * i) % 2 ^ w)

/-- Consecutive runs of n bytes, k of them. -/
def byteRuns (n : Nat) : Nat → List Byte → List (List Byte)
  | 0, _ => []
  | k + 1, bs => bs.take n :: byteRuns n k (bs.drop n)

/-- The positions of one hint: the bytes from first to last, strictly rising. -/
def hintRises : List Nat → Bool
  | a :: b :: rest => decide (a < b) && hintRises (b :: rest)
  | _ => true

/-- The positions of every hint, from the index on; none where the encoding is malformed. -/
def hintRows (ys : List Nat) : List Nat → Nat → Option (List (List Nat))
  | [], ix => if (ys.drop ix).all (fun y => decide (y = 0)) then some [] else none
  | e :: rest, ix =>
    let row := (ys.take e).drop ix
    if e < ix ∨ 75 < e ∨ hintRises row = false then none else (hintRows ys rest e).map (fun r => row :: r)

/-! ## Sampling -/

/-- Coefficients below q from runs of three bytes, until there are n; those that exceed it are passed over. -/
def rejectAbove : Nat → List Byte → List Nat
  | 0, _ => []
  | n + 1, a :: b :: c :: rest =>
    let z := a.toNat + 256 * b.toNat + 65536 * (c.toNat % 128)
    if z < dsaQ then z :: rejectAbove n rest else rejectAbove (n + 1) rest
  | _ + 1, _ => []

/-- Entry (r, s) of the matrix of a seed, as values. Six blocks hold 336 candidates for its 256 coefficients. -/
def matrixEntry (seed : List Byte) (r s : Nat) : Poly :=
  let v := rejectAbove 256 (shake128 6 (seed ++ [BitVec.ofNat 8 s, BitVec.ofNat 8 r]))
  v ++ List.replicate (256 - v.length) 0

/-- The first byte that is at most i, and what follows it. -/
def firstUpTo (i : Nat) : List Byte → Nat × List Byte
  | [] => (0, [])
  | b :: rest => if b.toNat ≤ i then (b.toNat, rest) else firstUpTo i rest

/-- A list with an element replaced. -/
def setAt (f : Poly) (i x : Nat) : Poly := f.take i ++ x :: f.drop (i + 1)

/-- The challenge's polynomial: 60 coefficients of 1 or -1, whose signs are the first 60 bits and whose places the bytes that follow choose. -/
def sampleInBall (c : List Byte) : Poly :=
  let bs := shake256 8 c
  let signs := natOfBytes (bs.take 8)
  ((List.range 60).foldl (fun (r : Poly × List Byte) k =>
    let i := 196 + k
    let j := firstUpTo i r.2
    (setAt (setAt r.1 i (nthD r.1 j.1 0)) j.1 (if signs / 2 ^ k % 2 = 1 then dsaQ - 1 else 1), j.2)) (polyZero, bs.drop 8)).1

/-! ## Rounding -/

/-- The high and the low part of a coefficient, for parts of 2 × 261888. -/
def decompose (r : Nat) : Nat × Int :=
  let m := r % 523776
  let r0 : Int := if m ≤ 261888 then (m : Int) else (m : Int) - 523776
  if (r : Int) - r0 = (dsaQ : Int) - 1 then (0, r0 - 1) else (((r : Int) - r0).toNat / 523776, r0)

/-- The high part that a hint corrects. -/
def useHint (hint : Bool) (r : Nat) : Nat :=
  let d := decompose r
  if hint then (if 0 < d.2 then (d.1 + 1) % 16 else (d.1 + 15) % 16) else d.1

/-- Two coefficients of four bits to a byte. -/
def packHigh : Poly → List Byte
  | a :: b :: rest => BitVec.ofNat 8 (a + 16 * b) :: packHigh rest
  | _ => []

/-! ## Verification -/

/-- The check of a signature over a message's bytes, with the empty context: the pure form of FIPS 204. -/
def mldsaVerify (key sig msg : List Byte) : Bool :=
  let seed := key.take 32
  let t1 := (byteRuns 320 8 (key.drop 32)).map (unpackPoly 10)
  let ch := sig.take 64
  let zs := (byteRuns 640 7 (sig.drop 64)).map (fun b => (unpackPoly 20 b).map (fun v => (2 ^ 19 + dsaQ - v) % dsaQ))
  let hs := (sig.drop 4544).map BitVec.toNat
  match hintRows (hs.take 75) (hs.drop 75) 0 with
  | none => false
  | some rows =>
    let mu := (shake256 1 ((shake256 1 key).take 64 ++ [0, 0] ++ msg)).take 64
    let c := ntt (sampleInBall ch)
    let zn := zs.map ntt
    let small := zs.all (fun z => z.all (fun v => decide (v < 2 ^ 19 - 120) || decide (dsaQ - (2 ^ 19 - 120) < v)))
    let w1 := ((List.range 8).zip (t1.zip rows)).flatMap (fun p =>
      let az := ((List.range 7).zip zn).foldl (fun a q => polyAdd a (polyMul (matrixEntry seed p.1 q.1) q.2)) polyZero
      let ct := polyMul c (ntt (p.2.1.map (fun v => v * 2 ^ 13 % dsaQ)))
      let w := nttInv (polySub az ct)
      packHigh (((List.range 256).zip w).map (fun q => useHint (p.2.2.contains q.1) q.2)))
    decide (key.length = 2592) && decide (sig.length = 4627) && small && decide ((shake256 1 (mu ++ w1)).take 64 = ch)

end Sys2Proof.Machine
end

