-- ==== Sys2Proof/Machine/Trust.lean ====
section
/-! DEFINITION. Trust and power (R404, R405, R411 to R413, R415): the measured boot, the alarms of the Snuffer, the throttle; and the instruction word whose
OP is reserved (R230). -/

namespace Sys2Proof.Machine

/-! ## Alarms (R411 to R413) -/

/-- The level of an event: the default, raised by the provisioning record, never lowered. -/
def alarmLevel (t : Trust) (code default : Nat) : Nat := if default < nthD t.levels code 0 then nthD t.levels code 0 else default

/-- An alarm: logged and counted; HALT stops the device; ERASE zeroes the keys and blows the fuse. -/
def raiseAlarm (s : State) (code default : Nat) : State :=
  let t := s.trust
  let lv := alarmLevel t code default
  { s with trust := { t with
      log := (if t.log.length < 256 then t.log else t.log.drop 1) ++ [code],
      alarms := if t.alarms.toNat = 2 ^ 32 - 1 then t.alarms else t.alarms + 1,
      lastAlarm := code,
      halted := t.halted || decide (1 ≤ lv),
      identityKey := t.identityKey && decide (lv < 2),
      erased := t.erased || decide (2 ≤ lv) } }

def execVoltageOutOfWindow (s : State) : Host.Outcome State Fault Refusal := .next (raiseAlarm s 1 1)
def execClockOutOfRange (s : State) : Host.Outcome State Fault Refusal := .next (raiseAlarm s 2 1)
def execJunction105c (s : State) : Host.Outcome State Fault Refusal := .next (raiseAlarm s 3 0)
def execJunction115c (s : State) : Host.Outcome State Fault Refusal := .next (raiseAlarm s 4 1)
def execTamper (s : State) : Host.Outcome State Fault Refusal := .next (raiseAlarm s 5 2)
def execIntegrityFaultBurst (s : State) : Host.Outcome State Fault Refusal := .next (raiseAlarm s 6 0)
def execKeyMisuse (s : State) : Host.Outcome State Fault Refusal := .next (raiseAlarm s 7 2)

/-! ## Boot (R404, R405, R412) -/

/-- The checks of one copy of an image: the key's hash, the signature over the digest's 64 bytes (log 93), the security version read from the fields that
are signed. -/
def imageOk (x : BootImage) : Bool :=
  decide (sha3 x.pubKey = Config.vendorKeyHash) && mldsaVerify x.pubKey x.signature (bytesOf 64 (sha3 (x.fields ++ x.body)).toNat) &&
  decide (Config.fusedMinVersion ≤ Config.imageVersion x.fields)

/-- M ← SHA3-512(M ‖ d). -/
def extend (m d : BitVec 512) : BitVec 512 := sha3 (bytesOf 64 m.toNat ++ bytesOf 64 d.toNat)

def extendReg (t : Trust) (k : Nat) (d : BitVec 512) : Trust := if h : k < 8 then { t with meas := t.meas.set k (extend t.meas[k] d) } else t

/-- Images from register k on: copy A, then copy B; a failed copy raises event 8, and boot stops when both fail. -/
def bootImages : Nat → List (BootImage × BootImage) → State → State
  | _, [], s => s
  | k, (a, b) :: rest, s =>
    let use (s : State) (x : BootImage) : State := bootImages (k + 1) rest { s with trust := extendReg s.trust k (sha3 (x.fields ++ x.body)) }
    if imageOk a then use s a
    else
      let s1 := raiseAlarm s 8 0
      if imageOk b then use s1 b
      else
        let s2 := raiseAlarm s1 8 0
        { s2 with trust := { s2.trust with bootFail := true } }

/-- RESET: the state after reset, memory kept, then the measured boot: M0 takes the digest of the fuse configuration and the ROM version. The images are
those of M1 to M4. -/
def boot (s : State) (f : BootFlash) : State :=
  let t0 : Trust := { Trust.reset with
    erased := s.trust.erased, booted := true, identityKey := !s.trust.erased, levels := (List.range 9).map (Config.raisedLevel f.provisioning) }
  let s0 := { State.reset with mem := s.mem, poison := s.poison, checks := s.checks, agenda := s.agenda, fresh := s.fresh, nextId := s.nextId,
                               trust := extendReg t0 0 (sha3 (f.fuses ++ Config.romVersion)) }
  let s1 := bootImages 1 (f.images.take 4) s0
  let s2 := if f.images.length < 4 then { s1 with trust := { s1.trust with bootFail := true } } else s1
  if s2.trust.bootFail then s2
  else { s2 with trust := { extendReg s2.trust 5 (sha3 f.provisioning) with admitted := Config.admittedEndpoints f.provisioning } }

def execReset (flash : BootFlash) (s : State) : Host.Outcome State Fault Refusal := .next (boot s flash)

/-! ## Power (R415) -/

/-- The core clock one step of 250 MHz lower, down to 2 GHz. -/
def execPowerThrottle (s : State) : Host.Outcome State Fault Refusal :=
  .next { s with trust := { s.trust with clock := if 8 < s.trust.clock then s.trust.clock - 1 else s.trust.clock } }

/-- One step higher, up to 4 GHz. -/
def execPowerUnthrottle (s : State) : Host.Outcome State Fault Refusal :=
  .next { s with trust := { s.trust with clock := if s.trust.clock < 16 then s.trust.clock + 1 else s.trust.clock } }

/-! ## A reserved OP (R230, R231) -/

/-- RESERVED_OPCODE: ILLEGAL_OP at issue. -/
def execReservedOpcode (word : Word) (s : State) : Host.Outcome State Fault Refusal :=
  issue (.reservedOpcode word) (plainForm anyType (fun _ => [])) (trapExec .illegalOp) s

end Sys2Proof.Machine
end

