-- ==== Sys2Proof/Machine/Dispatch.lean ====
section
/-! DEFINITION. The meaning of every instruction of the opcode table: one arm for each, a call of its definition in the family's file. -/

namespace Sys2Proof.Machine

/-- Performs one instruction, or one step of the part, by its meaning. -/
def exec (i : Instr) (s : State) : Host.Outcome State Fault Refusal :=
  match i with
  | .nop => Sys2Proof.Machine.execNop s
  | .mov d a => Sys2Proof.Machine.execMov d a s
  | .mov2 d a => Sys2Proof.Machine.execMov2 d a s
  | .mov4 d a => Sys2Proof.Machine.execMov4 d a s
  | .sel d a b => Sys2Proof.Machine.execSel d a b s
  | .setmode a => Sys2Proof.Machine.execSetmode a s
  | .getmode d => Sys2Proof.Machine.execGetmode d s
  | .rdsr d a => Sys2Proof.Machine.execRdsr d a s
  | .unif d a => Sys2Proof.Machine.execUnif d a s
  | .wrsr a b => Sys2Proof.Machine.execWrsr a b s
  | .add d a b => Sys2Proof.Machine.execAdd d a b s
  | .sub d a b => Sys2Proof.Machine.execSub d a b s
  | .mul d a b => Sys2Proof.Machine.execMul d a b s
  | .mulhi d a b => Sys2Proof.Machine.execMulhi d a b s
  | .mad d a b => Sys2Proof.Machine.execMad d a b s
  | .abs d a => Sys2Proof.Machine.execAbs d a s
  | .neg d a => Sys2Proof.Machine.execNeg d a s
  | .min d a b => Sys2Proof.Machine.execMin d a b s
  | .max d a b => Sys2Proof.Machine.execMax d a b s
  | .div d a b => Sys2Proof.Machine.execDiv d a b s
  | .rem d a b => Sys2Proof.Machine.execRem d a b s
  | .shl d a b => Sys2Proof.Machine.execShl d a b s
  | .shr d a b => Sys2Proof.Machine.execShr d a b s
  | .rot d a b => Sys2Proof.Machine.execRot d a b s
  | .and d a b => Sys2Proof.Machine.execAnd d a b s
  | .or d a b => Sys2Proof.Machine.execOr d a b s
  | .xor d a b => Sys2Proof.Machine.execXor d a b s
  | .not d a => Sys2Proof.Machine.execNot d a s
  | .andn d a b => Sys2Proof.Machine.execAndn d a b s
  | .popc d a => Sys2Proof.Machine.execPopc d a s
  | .clz d a => Sys2Proof.Machine.execClz d a s
  | .ctz d a => Sys2Proof.Machine.execCtz d a s
  | .brev d a => Sys2Proof.Machine.execBrev d a s
  | .bfe d a b => Sys2Proof.Machine.execBfe d a b s
  | .bfi d a b => Sys2Proof.Machine.execBfi d a b s
  | .cmp c m a b => Sys2Proof.Machine.execCmp c m a b s
  | .lea0 d a b => Sys2Proof.Machine.execLea0 d a b s
  | .lea2 d a b => Sys2Proof.Machine.execLea2 d a b s
  | .lea3 d a b => Sys2Proof.Machine.execLea3 d a b s
  | .fadd d a b => Sys2Proof.Machine.execFadd d a b s
  | .fsub d a b => Sys2Proof.Machine.execFsub d a b s
  | .fmul d a b => Sys2Proof.Machine.execFmul d a b s
  | .fma d a b => Sys2Proof.Machine.execFma d a b s
  | .fnma d a b => Sys2Proof.Machine.execFnma d a b s
  | .fmin d a b => Sys2Proof.Machine.execFmin d a b s
  | .fmax d a b => Sys2Proof.Machine.execFmax d a b s
  | .fabs d a => Sys2Proof.Machine.execFabs d a s
  | .fneg d a => Sys2Proof.Machine.execFneg d a s
  | .frint d a => Sys2Proof.Machine.execFrint d a s
  | .fldexp d a b => Sys2Proof.Machine.execFldexp d a b s
  | .fclass d a => Sys2Proof.Machine.execFclass d a s
  | .fdiv d a b => Sys2Proof.Machine.execFdiv d a b s
  | .fsqrt d a => Sys2Proof.Machine.execFsqrt d a s
  | .frcp d a => Sys2Proof.Machine.execFrcp d a s
  | .frsq d a => Sys2Proof.Machine.execFrsq d a s
  | .fexp2 d a => Sys2Proof.Machine.execFexp2 d a s
  | .flog2 d a => Sys2Proof.Machine.execFlog2 d a s
  | .fsin d a => Sys2Proof.Machine.execFsin d a s
  | .fcos d a => Sys2Proof.Machine.execFcos d a s
  | .ftanh d a => Sys2Proof.Machine.execFtanh d a s
  | .fdot2 d a b => Sys2Proof.Machine.execFdot2 d a b s
  | .cvti d a => Sys2Proof.Machine.execCvti d a s
  | .cvtn d a => Sys2Proof.Machine.execCvtn d a s
  | .cvtl d a => Sys2Proof.Machine.execCvtl d a s
  | .cvtf d a => Sys2Proof.Machine.execCvtf d a s
  | .cvtd d a => Sys2Proof.Machine.execCvtd d a s
  | .cvtb d a => Sys2Proof.Machine.execCvtb d a s
  | .cvth d a => Sys2Proof.Machine.execCvth d a s
  | .pack2 d a b => Sys2Proof.Machine.execPack2 d a b s
  | .rsadd d a b => Sys2Proof.Machine.execRsadd d a b s
  | .rssub d a b => Sys2Proof.Machine.execRssub d a b s
  | .rsmul d a b => Sys2Proof.Machine.execRsmul d a b s
  | .rsdiv d a b => Sys2Proof.Machine.execRsdiv d a b s
  | .rsneg d a => Sys2Proof.Machine.execRsneg d a s
  | .rsrcp d a => Sys2Proof.Machine.execRsrcp d a s
  | .rssqr d a => Sys2Proof.Machine.execRssqr d a s
  | .rsunion d a b => Sys2Proof.Machine.execRsunion d a b s
  | .rsisect d a b => Sys2Proof.Machine.execRsisect d a b s
  | .rshull d a => Sys2Proof.Machine.execRshull d a s
  | .rslo d a => Sys2Proof.Machine.execRslo d a s
  | .rshi d a => Sys2Proof.Machine.execRshi d a s
  | .rsconv d a b => Sys2Proof.Machine.execRsconv d a b s
  | .ringld a b => Sys2Proof.Machine.execRingld a b s
  | .ringq d a => Sys2Proof.Machine.execRingq d a s
  | .shfl d a b => Sys2Proof.Machine.execShfl d a b s
  | .shflx d a b => Sys2Proof.Machine.execShflx d a b s
  | .shflup d a b => Sys2Proof.Machine.execShflup d a b s
  | .shfldn d a b => Sys2Proof.Machine.execShfldn d a b s
  | .voteany d a => Sys2Proof.Machine.execVoteany d a s
  | .voteall d a => Sys2Proof.Machine.execVoteall d a s
  | .ballot d a => Sys2Proof.Machine.execBallot d a s
  | .redadd d a => Sys2Proof.Machine.execRedadd d a s
  | .redmin d a => Sys2Proof.Machine.execRedmin d a s
  | .redmax d a => Sys2Proof.Machine.execRedmax d a s
  | .redor d a => Sys2Proof.Machine.execRedor d a s
  | .redun d a => Sys2Proof.Machine.execRedun d a s
  | .scanadd d a => Sys2Proof.Machine.execScanadd d a s
  | .confd d a => Sys2Proof.Machine.execConfd d a s
  | .xfence => Sys2Proof.Machine.execXfence s
  | .keyadd d a b => Sys2Proof.Machine.execKeyadd d a b s
  | .mand d a b => Sys2Proof.Machine.execMand d a b s
  | .mor d a b => Sys2Proof.Machine.execMor d a b s
  | .mxor d a b => Sys2Proof.Machine.execMxor d a b s
  | .mnot d a => Sys2Proof.Machine.execMnot d a s
  | .mandn d a b => Sys2Proof.Machine.execMandn d a b s
  | .mmov d a => Sys2Proof.Machine.execMmov d a s
  | .mpopc d a => Sys2Proof.Machine.execMpopc d a s
  | .mfirst d a => Sys2Proof.Machine.execMfirst d a s
  | .mget d a b => Sys2Proof.Machine.execMget d a b s
  | .mset d a b => Sys2Proof.Machine.execMset d a b s
  | .msave d a => Sys2Proof.Machine.execMsave d a s
  | .mload d a => Sys2Proof.Machine.execMload d a s
  | .mall d => Sys2Proof.Machine.execMall d s
  | .ld d a b => Sys2Proof.Machine.execLd d a b s
  | .ldb d a b => Sys2Proof.Machine.execLdb d a b s
  | .ldh d a b => Sys2Proof.Machine.execLdh d a b s
  | .st d a b => Sys2Proof.Machine.execSt d a b s
  | .stb d a b => Sys2Proof.Machine.execStb d a b s
  | .sth d a b => Sys2Proof.Machine.execSth d a b s
  | .ldw d a b => Sys2Proof.Machine.execLdw d a b s
  | .stw d a b => Sys2Proof.Machine.execStw d a b s
  | .sld d a b => Sys2Proof.Machine.execSld d a b s
  | .sst d a b => Sys2Proof.Machine.execSst d a b s
  | .pref a b => Sys2Proof.Machine.execPref a b s
  | .reshint a b => Sys2Proof.Machine.execReshint a b s
  | .aadd d a b => Sys2Proof.Machine.execAadd d a b s
  | .amin d a b => Sys2Proof.Machine.execAmin d a b s
  | .amax d a b => Sys2Proof.Machine.execAmax d a b s
  | .aand d a b => Sys2Proof.Machine.execAand d a b s
  | .aor d a b => Sys2Proof.Machine.execAor d a b s
  | .axor d a b => Sys2Proof.Machine.execAxor d a b s
  | .axchg d a b => Sys2Proof.Machine.execAxchg d a b s
  | .acas d a b => Sys2Proof.Machine.execAcas d a b s
  | .acasw d a b => Sys2Proof.Machine.execAcasw d a b s
  | .afadd d a b => Sys2Proof.Machine.execAfadd d a b s
  | .afmin d a b => Sys2Proof.Machine.execAfmin d a b s
  | .afmax d a b => Sys2Proof.Machine.execAfmax d a b s
  | .stadd d a b => Sys2Proof.Machine.execStadd d a b s
  | .stmin d a b => Sys2Proof.Machine.execStmin d a b s
  | .stmax d a b => Sys2Proof.Machine.execStmax d a b s
  | .stand d a b => Sys2Proof.Machine.execStand d a b s
  | .stor d a b => Sys2Proof.Machine.execStor d a b s
  | .stxor d a b => Sys2Proof.Machine.execStxor d a b s
  | .stfadd d a b => Sys2Proof.Machine.execStfadd d a b s
  | .stfmin d a b => Sys2Proof.Machine.execStfmin d a b s
  | .stfmax d a b => Sys2Proof.Machine.execStfmax d a b s
  | .qlock d a => Sys2Proof.Machine.execQlock d a s
  | .qunlock a => Sys2Proof.Machine.execQunlock a s
  | .release => Sys2Proof.Machine.execRelease s
  | .acquire => Sys2Proof.Machine.execAcquire s
  | .fence => Sys2Proof.Machine.execFence s
  | .fetch d a b => Sys2Proof.Machine.execFetch d a b s
  | .fetch2 d a b => Sys2Proof.Machine.execFetch2 d a b s
  | .hbind a b => Sys2Proof.Machine.execHbind a b s
  | .card d a => Sys2Proof.Machine.execCard d a s
  | .cwait a => Sys2Proof.Machine.execCwait a s
  | .cpoll d a => Sys2Proof.Machine.execCpoll d a s
  | .isect d a b => Sys2Proof.Machine.execIsect d a b s
  | .merge d a b => Sys2Proof.Machine.execMerge d a b s
  | .mpsplit d a b => Sys2Proof.Machine.execMpsplit d a b s
  | .mloop a => Sys2Proof.Machine.execMloop a s
  | .mbatch d => Sys2Proof.Machine.execMbatch d s
  | .mwait a => Sys2Proof.Machine.execMwait a s
  | .mdrain a => Sys2Proof.Machine.execMdrain a s
  | .mquant a => Sys2Proof.Machine.execMquant a s
  | .mzero a b => Sys2Proof.Machine.execMzero a b s
  | .bra => Sys2Proof.Machine.execBra s
  | .brc a => Sys2Proof.Machine.execBrc a s
  | .bru a => Sys2Proof.Machine.execBru a s
  | .call d a => Sys2Proof.Machine.execCall d a s
  | .calli d a b => Sys2Proof.Machine.execCalli d a b s
  | .ret => Sys2Proof.Machine.execRet s
  | .arg d a b => Sys2Proof.Machine.execArg d a b s
  | .gret d a b => Sys2Proof.Machine.execGret d a b s
  | .exit => Sys2Proof.Machine.execExit s
  | .join a => Sys2Proof.Machine.execJoin a s
  | .leave a => Sys2Proof.Machine.execLeave a s
  | .bar a => Sys2Proof.Machine.execBar a s
  | .qpop d a => Sys2Proof.Machine.execQpop d a s
  | .qpush d a b => Sys2Proof.Machine.execQpush d a b s
  | .lwait a => Sys2Proof.Machine.execLwait a s
  | .ldone a => Sys2Proof.Machine.execLdone a s
  | .lstat d a => Sys2Proof.Machine.execLstat d a s
  | .trap a => Sys2Proof.Machine.execTrap a s
  | .eret a => Sys2Proof.Machine.execEret a s
  | .bkpt a => Sys2Proof.Machine.execBkpt a s
  | .yield => Sys2Proof.Machine.execYield s
  | .clauseStart team => Sys2Proof.Machine.execClauseStart team s
  | .scoreHalving core => Sys2Proof.Machine.execScoreHalving core s
  | .lateResult team op => Sys2Proof.Machine.execLateResult team op s
  | .ringTableBuilt team slot => Sys2Proof.Machine.execRingTableBuilt team slot s
  | .registration core ix => Sys2Proof.Machine.execRegistration core ix s
  | .registrationAck core ix => Sys2Proof.Machine.execRegistrationAck core ix s
  | .recallWord word => Sys2Proof.Machine.execRecallWord word s
  | .l1Eviction core ix => Sys2Proof.Machine.execL1Eviction core ix s
  | .atomicBatch core ix => Sys2Proof.Machine.execAtomicBatch core ix s
  | .unitRecordFreed slice => Sys2Proof.Machine.execUnitRecordFreed slice s
  | .faultResolution cluster rec => Sys2Proof.Machine.execFaultResolution cluster rec s
  | .faultRecordConsume cluster rec => Sys2Proof.Machine.execFaultRecordConsume cluster rec s
  | .tinvalWrite v => Sys2Proof.Machine.execTinvalWrite v s
  | .invalidationComplete cluster => Sys2Proof.Machine.execInvalidationComplete cluster s
  | .waypartRaise slice ways => Sys2Proof.Machine.execWaypartRaise slice ways s
  | .waypartLower slice ways => Sys2Proof.Machine.execWaypartLower slice ways s
  | .waypartChangeComplete slice => Sys2Proof.Machine.execWaypartChangeComplete slice s
  | .cardStart card => Sys2Proof.Machine.execCardStart card s
  | .cardComplete card => Sys2Proof.Machine.execCardComplete card s
  | .mloopStart core => Sys2Proof.Machine.execMloopStart core s
  | .mloopFlush core => Sys2Proof.Machine.execMloopFlush core s
  | .layerLoadStart kind => Sys2Proof.Machine.execLayerLoadStart kind s
  | .layerArrived mslot layer => Sys2Proof.Machine.execLayerArrived mslot layer s
  | .layerLoadFailed mslot layer why => Sys2Proof.Machine.execLayerLoadFailed mslot layer why s
  | .layerEvicted mslot layer => Sys2Proof.Machine.execLayerEvicted mslot layer s
  | .teamPlace => Sys2Proof.Machine.execTeamPlace s
  | .teamRetire team => Sys2Proof.Machine.execTeamRetire team s
  | .teamHalt team => Sys2Proof.Machine.execTeamHalt team s
  | .teamSave team => Sys2Proof.Machine.execTeamSave team s
  | .teamRestore team => Sys2Proof.Machine.execTeamRestore team s
  | .trapEntry team => Sys2Proof.Machine.execTrapEntry team s
  | .softError site => Sys2Proof.Machine.execSoftError site s
  | .notifyRecord ring => Sys2Proof.Machine.execNotifyRecord ring s
  | .launch ring => Sys2Proof.Machine.execLaunch ring s
  | .feed ring => Sys2Proof.Machine.execFeed ring s
  | .cardPacket ring => Sys2Proof.Machine.execCardPacket ring s
  | .signal ring => Sys2Proof.Machine.execSignal ring s
  | .wait ring => Sys2Proof.Machine.execWait ring s
  | .waitSatisfied ring => Sys2Proof.Machine.execWaitSatisfied ring s
  | .modelLoad ring => Sys2Proof.Machine.execModelLoad ring s
  | .modelUnload ring => Sys2Proof.Machine.execModelUnload ring s
  | .modelPrio ring => Sys2Proof.Machine.execModelPrio ring s
  | .layerPrefetch ring => Sys2Proof.Machine.execLayerPrefetch ring s
  | .fencePacket ring => Sys2Proof.Machine.execFencePacket ring s
  | .commandAppend => Sys2Proof.Machine.execCommandAppend s
  | .memWrite => Sys2Proof.Machine.execMemWrite s
  | .memRead => Sys2Proof.Machine.execMemRead s
  | .attestCertificate => Sys2Proof.Machine.execAttestCertificate s
  | .attestReport => Sys2Proof.Machine.execAttestReport s
  | .hostRead => Sys2Proof.Machine.execHostRead s
  | .ringCreate => Sys2Proof.Machine.execRingCreate s
  | .ringResume => Sys2Proof.Machine.execRingResume s
  | .ringHalt => Sys2Proof.Machine.execRingHalt s
  | .poolGive => Sys2Proof.Machine.execPoolGive s
  | .ctxBind => Sys2Proof.Machine.execCtxBind s
  | .peerSet => Sys2Proof.Machine.execPeerSet s
  | .exportSet => Sys2Proof.Machine.execExportSet s
  | .gateLoad => Sys2Proof.Machine.execGateLoad s
  | .expertBuf => Sys2Proof.Machine.execExpertBuf s
  | .saveTeam => Sys2Proof.Machine.execSaveTeam s
  | .sliceWindow => Sys2Proof.Machine.execSliceWindow s
  | .restoreTeam => Sys2Proof.Machine.execRestoreTeam s
  | .invalidate => Sys2Proof.Machine.execInvalidate s
  | .demandSet => Sys2Proof.Machine.execDemandSet s
  | .faultReply => Sys2Proof.Machine.execFaultReply s
  | .peerAccess p => Sys2Proof.Machine.execPeerAccess p s
  | .portDown port => Sys2Proof.Machine.execPortDown port s
  | .dispatchJob mslot => Sys2Proof.Machine.execDispatchJob mslot s
  | .slotRequest ctx ask => Sys2Proof.Machine.execSlotRequest ctx ask s
  | .slotGrant job ix => Sys2Proof.Machine.execSlotGrant job ix s
  | .expertPayload site ix => Sys2Proof.Machine.execExpertPayload site ix s
  | .returnRecord ctx buf => Sys2Proof.Machine.execReturnRecord ctx buf s
  | .combine job token => Sys2Proof.Machine.execCombine job token s
  | .reset flash => Sys2Proof.Machine.execReset flash s
  | .voltageOutOfWindow => Sys2Proof.Machine.execVoltageOutOfWindow s
  | .clockOutOfRange => Sys2Proof.Machine.execClockOutOfRange s
  | .junction105c => Sys2Proof.Machine.execJunction105c s
  | .junction115c => Sys2Proof.Machine.execJunction115c s
  | .tamper => Sys2Proof.Machine.execTamper s
  | .integrityFaultBurst => Sys2Proof.Machine.execIntegrityFaultBurst s
  | .keyMisuse => Sys2Proof.Machine.execKeyMisuse s
  | .powerThrottle => Sys2Proof.Machine.execPowerThrottle s
  | .powerUnthrottle => Sys2Proof.Machine.execPowerUnthrottle s
  | .reservedOpcode word => Sys2Proof.Machine.execReservedOpcode word s
  | .reservedUrfelMessage => Sys2Proof.Machine.execReservedUrfelMessage s
  | .portTrained port => Sys2Proof.Machine.execPortTrained port s
  | .transportGivesUp site => Sys2Proof.Machine.execTransportGivesUp site s
  | .completionRptrReread ring => Sys2Proof.Machine.execCompletionRptrReread ring s
  | .homeWriteAcknowledgment core ix => Sys2Proof.Machine.execHomeWriteAcknowledgment core ix s
  | .grantCancel ctx buf slot => Sys2Proof.Machine.execGrantCancel ctx buf slot s

end Sys2Proof.Machine
end

