-- ==== Sys2Proof/Machine/Auto.lean ====
section
/-! DEFINITION. What happens next (log 3): the agenda's step, else the next instruction word of the team that holds the issue slot, else the first step
of a fixed order that changes the state. -/

namespace Sys2Proof.Machine

/-! ## The issue slot -/

/-- The team that holds the issue slot and that the issue logic chooses (R356), with its next word. -/
def nextWord (s : State) : Option (Nat × Team × Word) :=
  match s.cur with
  | none => none
  | some u => match tblGet s.teams u with
    | none => none
    | some t => match t.clause with
      | none => none
      | some c => if t.wait = .none ∧ t.active = true ∧ chosen s u t = true then (c.words[c.idx - 1]?).map (fun w => (u, t, w)) else none

/-- The instruction of a word issues; a word that is none takes ILLEGAL_OP with faulted mask EXEC (R220, R221, R231). -/
def issueWord (s : State) (u : Nat) (t : Team) (w : Word) : Host.Outcome State Fault Refusal :=
  match decode w with
  | .ok i => exec i s
  | .error _ => .next (if s.trust.halted then s else takeTrap s u (trapOf .illegalOp t.exec))

/-! ## Steps that may stand next -/

/-- The step a message asks for (R390, R392). -/
def messageStep (m : UrfelMsg) : Instr :=
  if isReservedMsg m then .reservedUrfelMessage
  else
    match m.op with
    | 1 => .commandAppend
    | 2 => .memWrite
    | 3 => .memRead
    | 4 => if m.length = 0 then .attestCertificate else .attestReport
    | 6 => .hostRead
    | _ => match m.sub with
      | 1 => .ringCreate
      | 2 => .ringResume
      | 3 => .ringHalt
      | 4 => .poolGive
      | 5 => .ctxBind
      | 6 => .peerSet
      | 7 => .exportSet
      | 8 => .gateLoad
      | 9 => .expertBuf
      | 10 => .saveTeam
      | 11 => .sliceWindow
      | 12 => .restoreTeam
      | 13 => .invalidate
      | 14 => .demandSet
      | _ => .faultReply

def messageSteps (s : State) : List Instr := (s.inbox.take 1).map messageStep

/-- Fault records: resolved, then consumed. -/
def faultSteps (s : State) : List Instr :=
  s.clusters.flatMap (fun c => (List.range c.2.recs.length).flatMap (fun i => match c.2.recs[i]? with
    | some r => if r.state ≠ 1 then [] else if r.handled.isSome then [.faultRecordConsume c.1 i] else [.faultResolution c.1 i]
    | none => []))

/-- What a team's own state asks for. -/
def teamSteps (s : State) : List Instr :=
  s.teams.flatMap (fun t =>
    (match t.2.wait with
     | .retiring => [Instr.teamRetire t.1]
     | .halting => [.teamHalt t.1]
     | .trapEntry => [.trapEntry t.1]
     | _ => []) ++
    t.2.late.map (fun o => match o.build with
      | some k => .ringTableBuilt t.1 k
      | none => .lateResult t.1 (.all o.id)))

/-- The oldest work and acknowledgment of each core, its matrix work. -/
def coreSteps (s : State) : List Instr :=
  s.cores.flatMap (fun c =>
    ((c.2.out.take 1).map (fun e => if isRegistration e then Instr.registration c.1 0 else if isBatch e then .atomicBatch c.1 0
      else .homeWriteAcknowledgment c.1 0)) ++
    ((c.2.acks.take 1).map (fun _ => .registrationAck c.1 0)) ++
    (if c.2.flushes = [] then [] else [.mloopFlush c.1]) ++ (if c.2.sequencer = [] then [] else [.mloopStart c.1]))

/-- Cards, slices, invalidations, unit tables. -/
def partSteps (s : State) : List Instr :=
  (s.cards.filter (fun c => decide (c.status = 1))).map (fun c => if c.started then .cardComplete c.id else .cardStart c.id) ++
  (s.slices.filter (fun g => g.2.busy)).map (fun g => .waypartChangeComplete g.1) ++
  (s.clusters.filter (fun c => decide (bits c.2.tinval.toNat 1 1 = 1))).map (fun c => .invalidationComplete c.1) ++
  (s.unitWait.map (fun w => homeSlice w.pa)).dedup.map .unitRecordFreed

/-- The loader. -/
def layerSteps (s : State) : List Instr :=
  s.loads.map (fun l => Instr.layerArrived l.mslot l.layer) ++
  s.models.flatMap (fun m => ((List.range m.2.layers.length).filter (fun k => decide ((m.2.layers[k]?).map Layer.state = some 3))).map
    (fun k => .layerEvicted m.1 k)) ++
  (if s.models = [] then [] else [.layerLoadStart 0, .layerLoadStart 1, .layerLoadStart 2])

/-- The step of a packet TYPE. -/
def packetStep (k : Nat) (bs : List Byte) : Instr :=
  match pf bs 0 1 with
  | 1 => .launch k
  | 2 => .feed k
  | 3 => .cardPacket k
  | 4 => .signal k
  | 5 => .wait k
  | 6 => if isUnload bs then .modelUnload k else .modelLoad k
  | 7 => .modelPrio k
  | 8 => .layerPrefetch k
  | _ => .fencePacket k

/-- A ring's next step: its packet in progress, its packet at RPTR, its completion ring, its notify records. -/
def ringSteps (s : State) : List Instr :=
  s.rings.flatMap (fun k =>
    (if k.2.entries = [] then [] else [Instr.completionRptrReread k.1]) ++
    (match k.2.busy with
     | .feed _ _ _ => [.feed k.1]
     | .wait _ _ _ _ _ => [.waitSatisfied k.1]
     | .none => match (nextPacket s k.1).1 with
       | .ok bs => [packetStep k.1 bs]
       | .idle => []
       | _ => [.fencePacket k.1]) ++
    [.notifyRecord k.1])

/-- Places, saves and returns of teams. -/
def placeSteps (s : State) : List Instr :=
  (s.teams.filter (fun t => t.2.saved)).map (fun t => Instr.teamRestore t.1) ++ (if s.launches = [] then [] else [.teamPlace]) ++
  (if s.launches = [] then [] else (wantedSaves s).map .teamSave) ++
  (s.teams.filter (fun t => s.waiting.any (fun w => isSaveMsg w.msg && namesTeam s w.msg t.2))).map (fun t => .teamSave t.1)

/-- Dispatch jobs and expert buffers. -/
def jobSteps (s : State) : List Instr :=
  s.jobs.flatMap (fun j => (List.range j.2.copies.length).flatMap (fun i => match j.2.copies[i]? with
    | some c =>
      if c.state = 1 ∨ c.state = 2 then [Instr.slotGrant j.1 i]
      else if c.state = 3 ∧ c.peer = none then [.expertPayload (.own j.1) i]
      else if c.state = 6 then (match tblGet s.buffers c.buf with
        | some b => [.grantCancel b.ctx c.buf c.slot]
        | none => [])
      else []
    | none => [])) ++
  s.buffers.flatMap (fun b => [.slotRequest b.2.ctx (.waiting b.1), .returnRecord b.2.ctx b.1]) ++
  s.jobs.flatMap (fun j => ((List.range j.2.next).filter (fun t => !j.2.combined.contains t)).map (fun t => .combine j.1 t)) ++
  (s.models.filter (fun m => decide (m.2.dispq ≠ 0))).map (fun m => .dispatchJob m.1)

/-- The instruction at which a team is held, tried again now, no longer holds it. -/
def retryHelps (s : State) (u : Nat) : Bool :=
  let s1 := startClause s u
  match nextWord s1 with
  | none => false
  | some (v, t, w) =>
    decide (v = u) && (match issueWord s1 u t w with
    | .next s2 => decide ((tblGet s2.teams u).map Team.wait ≠ some .held)
    | _ => false)

/-- The teams after the one that has issued last, then the others: every core has its turn. -/
def afterCur (s : State) : Tbl Team :=
  match s.cur with
  | none => s.teams
  | some u => s.teams.filter (fun t => decide (u < t.1)) ++ s.teams.filter (fun t => decide (t.1 ≤ u))

/-- Clauses to start or to go on with: of each core, those that its issue logic chooses (R356). -/
def clauseSteps (s : State) : List Instr :=
  ((afterCur s).filter (fun t => (decide (t.2.wait = .none) || (decide (t.2.wait = .held) && retryHelps s t.1)) && !t.2.saved)).map
    (fun t => .clauseStart t.1)

/-- Every step that may stand next, in the order they are tried. -/
def candidateSteps (s : State) : List Instr :=
  messageSteps s ++ faultSteps s ++ teamSteps s ++ coreSteps s ++ partSteps s ++ layerSteps s ++ placeSteps s ++ ringSteps s ++ jobSteps s ++ clauseSteps s

/-- The step changes the state by more than a free value drawn. -/
def changes (s : State) (e : Instr) : Bool :=
  match exec e s with
  | .next t => decide ({ t with fresh := s.fresh } ≠ s)
  | _ => false

/-- The first step of the order that changes the state. -/
def pickStep (s : State) : Option Instr := (candidateSteps s).find? (changes s)

/-- One step of the machine. An agenda entry that is an instruction word is no step of the environment and is dropped; a team that issues a word goes behind
its equals (R356). -/
def advance (s : State) : Host.Outcome State Fault Refusal :=
  match s.agenda with
  | e :: rest => if e.isWord then .next { s with agenda := rest } else exec e { s with agenda := rest }
  | [] =>
    match nextWord s with
    | some (u, t, w) => issueWord (goBehind s u) u t w
    | none =>
      match pickStep s with
      | some e => exec e s
      | none => .next s

/-! ## A word placed where the next step takes it (log 12) -/

/-- The launch of a team put on an empty machine to run one word: 32 lanes, 192 registers, 4 ring slots, a scratchpad allocation of 768 bytes. -/
def bareLaunch : Launch :=
  { ring := 0, seq := 0, ctx := 0, entry := 0, args := 0, handler := none, fsbase := 0, fssize := 0, savebase := 0, teams := 1, lanes := 32,
    capacity := 32, span := 32, budget := 192, scratch := 768, rings := 4, prio := 0, fuse := false, model := none, placed := 0, ended := 0,
    clusters := [] }

/-- The team that will issue: the one that holds the issue slot, else the first, else a new one. -/
def issuer (s : State) : Nat × Team :=
  match s.cur.bind (fun u => (tblGet s.teams u).map (fun t => (u, t))) with
  | some x => x
  | none => match s.teams with
    | x :: _ => x
    | [] => (0, newTeam 0 bareLaunch 0 0 0)

/-- A team that stands in a clause of one word and a literal of 0, and waits for nothing. -/
def inClause (t : Team) (w : Word) : Team :=
  { t with
    clause := some { header := t.pc, words := [w, 0], idx := 1, reads := 0, others := 1, target := [] },
    active := true, wait := .none, parked := none, captured := none, retry := none, marked := [], kept := [], pendTrap := none, halt := none, saved := false }

/-- The word in the clause of the team that holds the issue slot; every bit above nbits is 0. -/
def placeWord (s : State) (nbits w : Nat) : State :=
  let x := issuer s
  { s.setTeam x.1 (inClause x.2 (BitVec.ofNat 32 (w % 2 ^ nbits))) with agenda := [], cur := some x.1, trust := { s.trust with halted := false } }

end Sys2Proof.Machine
end

