-- ==== Sys2Proof/Safety.lean ====
section
/-! DEFINITION. The terms in which claims about the machine are stated: what a team's registers hold, which of them a result covers, when an
instruction is about to issue and has passed the checks of R231, and the invariants. -/

namespace Sys2Proof.Machine

/-! ## Registers -/

/-- The word a general register of a slot holds; 0 for a selector that is none (R104). -/
def regOf (t : Team) (slot : Nat) : Sel → Word
  | .v k => wordGet t.vregs (192 * slot + k)
  | .s k => if h : k < 32 then t.sregs[k] else 0
  | .w k => wordGet t.wregs (4 * slot + k)
  | _ => 0

/-- n registers upward from a register, as one number, the lowest least significant. -/
def numOf (t : Team) (slot : Nat) (x : Sel) : Nat → Nat
  | 0 => 0
  | n + 1 => (regOf t slot x).toNat + 2 ^ 32 * numOf t slot (Sel.plus x 1) n

/-- Register r of a slot is one of the n registers from d in one of the lanes; an s register is every slot's (R104). -/
def Covers (d : Sel) (n : Nat) (lanes : List Nat) (slot : Nat) (r : Sel) : Prop :=
  (isSreg d = true ∨ slot ∈ lanes) ∧ ∃ j, j < n ∧ r = Sel.plus d j

/-- A team but for its registers, their poison and FPST. -/
def bare (t : Team) : Team := { t with vregs := [], sregs := Vector.replicate 32 0, wregs := [], poisonV := [], fpst := 0 }

/-- t1 is t with n registers from d written in the lanes, each with its value, and the exceptions e ORed into FPST. Every other register keeps its word;
a written v register is poisoned no more (R385); nothing else of the team changes. -/
structure Wrote (t t1 : Team) (d : Sel) (n : Nat) (lanes : List Nat) (val : Nat → Nat) (e : BitVec 5) : Prop where
  value : ∀ k ∈ lanes, numOf t1 k d n = val k % 2 ^ (32 * n)
  others : ∀ slot r, r.isDst = true → ¬ Covers d n lanes slot r → regOf t1 slot r = regOf t slot r
  poison : ∀ p, p ∈ t1.poisonV ↔ p ∈ t.poisonV ∧ ∀ k ∈ lanes, ∀ j, j < n → ∀ r, Sel.plus d j = .v r → p ≠ 192 * k + r
  fpst : t1.fpst = t.fpst ||| e
  rest : bare t1 = bare t

/-! ## An instruction about to issue -/

/-- Team u stands in clause c, holds the issue slot and waits for nothing, and the device runs (R171, R231, R411). -/
structure Issuing (s : State) (u : Nat) (t : Team) (c : Clause) : Prop where
  running : s.trust.halted = false
  slot : s.cur = some u
  team : tblGet s.teams u = some t
  clause : t.clause = some c
  ready : t.wait = .none

/-- Checks 2 to 4 of R231 hold: the fields are of their kinds, the operands are registers that exist, aligned and of one uniformity, and the TYPE is one
that the instruction accepts. -/
structure Legal (i : Instr) (t : Team) (late : Bool) (types : Nat → Bool) (ops : List Opnd) : Prop where
  fields : i.wellFormed = true
  operands : opndsOk t.cfg.budget late ops = true
  type : types (modeType t.mode) = true

/-- The lanes on which an instruction acts: EXEC and the guard (R107); after a RETRY, the pending ones among them (R334). -/
def lanesOn (t : Team) : Mask :=
  match t.retry with
  | some m => m &&& activeMask t
  | none => activeMask t

/-- The lanes of an instruction that EXEC alone governs. -/
def lanesExec (t : Team) : Mask :=
  match t.retry with
  | some m => m &&& t.exec
  | none => t.exec

/-- No lane of the mask reads a poisoned register (R385). -/
def Unpoisoned (t : Team) (ops : List Opnd) (m : Mask) : Prop := poisonedLanes t ops m = 0

/-- The instruction completes: the team goes on to the next word with a result of n registers from d in the lanes of a mask (once for an s destination,
R106) and the exceptions e ORed into FPST, and nothing else of the machine changes. -/
def Completes (i : Instr) (s : State) (u : Nat) (t : Team) (m : Mask) (d : Sel) (n : Nat) (val : Nat → Nat) (e : BitVec 5) : Prop :=
  ∃ t1, exec i s = .next (stepOn (s.setTeam u t1) u) ∧ Wrote t t1 d n (lanesFor t d m) val e

/-- The instruction takes a trap of a class at itself, with EXEC as the faulted mask and the mask pending given (R231, R332). -/
def Traps (i : Instr) (s : State) (u : Nat) (k : TrapClass) (m : Mask) : Prop := exec i s = .next (takeTrap s u (trapOf k m))

/-- The exceptions of a list of lanes, ORed (R128). -/
def flagsOf (lanes : List Nat) (f : Nat → BitVec 5) : BitVec 5 := lanes.foldl (fun e k => e ||| f k) 0

/-! ## Elements and exact results (R16, R234, R244 to R246) -/

/-- A packed value holds these elements and no other bit. -/
def Holds (ty v : Nat) (f : Nat → Nat) : Prop :=
  v < 2 ^ (elemWidth ty * elemCount ty) ∧ ∀ e, e < elemCount ty → elemOf ty e v = f e

/-- The number that an element stands for: two's complement under I32, I64 and I16X2, natural under the other integer TYPEs (R234). -/
def numberOf (ty x : Nat) : Int :=
  if ty = 0 ∨ ty = 2 ∨ ty = 4 then (BitVec.ofNat (elemWidth ty) x).toInt else (BitVec.ofNat (elemWidth ty) x).toNat

/-- An exact result as an element: modulo 2^W (R244). -/
def wrapped (ty : Nat) (r : Int) : Nat := (BitVec.ofInt (elemWidth ty) r).toNat

/-- The same, clamped to the range of the TYPE when SAT is set (R244). -/
def perhapsClamped (ty : Nat) (sat : Bool) (r : Int) : Nat :=
  wrapped ty (if sat then
    (if ty = 0 ∨ ty = 2 ∨ ty = 4 then max (-((2 : Int) ^ (elemWidth ty - 1))) (min ((2 : Int) ^ (elemWidth ty - 1) - 1) r)
     else max 0 (min ((2 : Int) ^ elemWidth ty - 1) r)) else r)

/-- The ends of the range of an integer TYPE's element (R127, R234). -/
def leastOf (ty : Nat) : Int := if ty = 0 ∨ ty = 2 ∨ ty = 4 then -((2 : Int) ^ (elemWidth ty - 1)) else 0
def greatestOf (ty : Nat) : Int := if ty = 0 ∨ ty = 2 ∨ ty = 4 then (2 : Int) ^ (elemWidth ty - 1) - 1 else (2 : Int) ^ elemWidth ty - 1

/-- The integer instructions of two sources with the element each gives, from TYPE, SAT and the two source elements (R244, R245). -/
def integerBinary (d a b : Sel) : List (Instr × (Nat → Bool → Nat → Nat → Nat)) :=
  [ (.add d a b, fun ty sat x y => perhapsClamped ty sat (numberOf ty x + numberOf ty y)),
    (.sub d a b, fun ty sat x y => perhapsClamped ty sat (numberOf ty x - numberOf ty y)),
    (.mul d a b, fun ty sat x y => perhapsClamped ty sat (numberOf ty x * numberOf ty y)),
    (.mulhi d a b, fun ty _ x y => wrapped ty ((numberOf ty x * numberOf ty y).fdiv ((2 : Int) ^ elemWidth ty))),
    (.min d a b, fun ty _ x y => wrapped ty (min (numberOf ty x) (numberOf ty y))),
    (.max d a b, fun ty _ x y => wrapped ty (max (numberOf ty x) (numberOf ty y))),
    (.div d a b, fun ty sat x y => if numberOf ty y = 0 then 2 ^ elemWidth ty - 1 else perhapsClamped ty sat ((numberOf ty x).tdiv (numberOf ty y))),
    (.rem d a b, fun ty _ x y => if numberOf ty y = 0 then x else wrapped ty ((numberOf ty x).tmod (numberOf ty y))),
    (.shl d a b, fun ty _ x y => wrapped ty (numberOf ty x * (2 : Int) ^ (y % elemWidth ty))),
    (.shr d a b, fun ty _ x y => wrapped ty ((numberOf ty x).fdiv ((2 : Int) ^ (y % elemWidth ty)))),
    (.rot d a b, fun ty _ x y => ((BitVec.ofNat (elemWidth ty) x).rotateLeft (y % elemWidth ty)).toNat),
    (.and d a b, fun ty _ x y => (BitVec.ofNat (elemWidth ty) x &&& BitVec.ofNat (elemWidth ty) y).toNat),
    (.or d a b, fun ty _ x y => (BitVec.ofNat (elemWidth ty) x ||| BitVec.ofNat (elemWidth ty) y).toNat),
    (.xor d a b, fun ty _ x y => (BitVec.ofNat (elemWidth ty) x ^^^ BitVec.ofNat (elemWidth ty) y).toNat),
    (.andn d a b, fun ty _ x y => (BitVec.ofNat (elemWidth ty) x &&& ~~~ BitVec.ofNat (elemWidth ty) y).toNat) ]

/-- The integer instructions of one source with the element each gives (R244, R245). The last four are given by what R244 says of the bits. -/
def integerUnary (d a : Sel) : List (Instr × (Nat → Bool → Nat → Nat)) :=
  [ (.abs d a, fun ty sat x => perhapsClamped ty sat |numberOf ty x|),
    (.neg d a, fun ty sat x => perhapsClamped ty sat (-(numberOf ty x))),
    (.not d a, fun ty _ x => (~~~ BitVec.ofNat (elemWidth ty) x).toNat),
    (.popc d a, fun ty _ x => ((List.range (elemWidth ty)).filter (fun k => x.testBit k)).length),
    (.clz d a, fun ty _ x => ((List.range (elemWidth ty)).takeWhile (fun k => !x.testBit (elemWidth ty - 1 - k))).length),
    (.ctz d a, fun ty _ x => ((List.range (elemWidth ty)).takeWhile (fun k => !x.testBit k)).length),
    (.brev d a, fun ty _ x => (BitVec.ofNat (elemWidth ty) x).reverse.toNat) ]

/-- BFE on an element (R246): bits p + q − 1 to p of it, signed or not. -/
def fieldOf (ty p q x : Nat) : Nat :=
  if ty = 0 ∨ ty = 2 ∨ ty = 4 then wrapped ty (BitVec.ofNat q (x / 2 ^ p)).toInt else x / 2 ^ p % 2 ^ q

/-- The field a control word of R246 names, none when it names no bit: p and q = min(n, W − p). -/
def controlField (ty ctl : Nat) : Option (Nat × Nat) :=
  if ctl / 256 % 256 = 0 ∨ elemWidth ty ≤ ctl % 256 then none else some (ctl % 256, min (ctl / 256 % 256) (elemWidth ty - ctl % 256))

/-! ## Late results (R114, R128, R175, R176) -/

/-- t1 is t with one more operation o in flight, numbered id and counted on a flag (R114); registers, FPST and everything else as before. -/
structure LateAdded (t t1 : Team) (o : LateOp) (id flag : Nat) : Prop where
  number : o.id = id
  counted : o.flag = flag
  last : t1.late.getLast? = some o
  earlier : ∀ (j : Nat) (x : LateOp), t.late[j]? = some x → x.id ≠ id → t1.late[j]? = some x
  length : t1.late.length = t.late.length + 1
  flags : ∀ k, k < 12 → flagCount t1 k = if k = flag then flagCount t k + 1 else flagCount t k
  rest : { t1 with late := [], flags := t.flags } = { t with late := [] }

/-- What the completion of a late operation does, whenever it comes: its results in n registers from d in the lanes, its exceptions ORed into FPST, its
flag one lower, nothing else. -/
def WritesLate (o : LateOp) (d : Sel) (n : Nat) (lanes : List Nat) (val : Nat → Nat) (e : BitVec 5) : Prop :=
  ∀ t2 : Team, Wrote (lowerFlag { t2 with late := t2.late.filter (fun x => decide (x.id ≠ o.id)) } o.flag) (finishLate t2 o) d n lanes val e

/-- The instruction completes with a late result, everything else as in a state s0 that its unit left. -/
def CompletesLateFrom (i : Instr) (s s0 : State) (u : Nat) (t : Team) (flag : Nat) (m : Mask) (d : Sel) (n : Nat) (val : Nat → Nat) (e : BitVec 5) : Prop :=
  ∃ (k : Nat) (t1 : Team) (o : LateOp), exec i s = .next (stepOn (({ s0 with nextId := k } : State).setTeam u t1) u) ∧ s0.nextId < k ∧
    LateAdded t t1 o s0.nextId flag ∧ o.wait = .none ∧ WritesLate o d n (lanesFor t d m) val e

/-- The instruction completes with a late result: the team goes on to the next word with the operation in flight, ready to complete, and nothing else
of the machine changes but the numbers given out. -/
def CompletesLate (i : Instr) (s : State) (u : Nat) (t : Team) (flag : Nat) (m : Mask) (d : Sel) (n : Nat) (val : Nat → Nat) (e : BitVec 5) : Prop :=
  CompletesLateFrom i s s u t flag m d n val e

/-! ## Floating point as rational numbers (R122, R123) -/

/-- The formats of R122. -/
def formats : List FpFmt := [fmtBf16, fmtFp16, fmtFp32, fmtFp64]

/-- The magnitude that an encoding without its sign stands for; the encoding of infinity counts as the power of two after the largest finite value. -/
def magnitude (f : FpFmt) (c : Nat) : ℚ :=
  if c / 2 ^ f.fb = 0 then (c : ℚ) * (2 : ℚ) ^ f.qmin
  else ((2 ^ f.fb + c % 2 ^ f.fb : Nat) : ℚ) * (2 : ℚ) ^ (f.qmin + ((c / 2 ^ f.fb : Nat) : Int) - 1)

/-- An encoding of a finite value. -/
def Finite (f : FpFmt) (x : Nat) : Prop := x < 2 * f.signBit ∧ x % f.signBit < f.infBits

/-- The value of a finite encoding. -/
def valueOf (f : FpFmt) (x : Nat) : ℚ := if f.signBit ≤ x then -magnitude f (x % f.signBit) else magnitude f (x % f.signBit)

/-- Whether an exact magnitude between two neighbours rounds to the upper one (R123): whether it is the lower one, whether it lies above the midpoint,
whether on it. -/
def goesUp (rnd : Nat) (neg : Prop) (lower : Nat) (exact above half : Prop) : Prop :=
  (rnd = 0 ∧ (above ∨ (half ∧ lower % 2 = 1))) ∨ (rnd = 2 ∧ ¬ exact ∧ ¬ neg) ∨ (rnd = 3 ∧ ¬ exact ∧ neg) ∨ (rnd = 4 ∧ (above ∨ half))

/-- r is a nonzero exact result rounded once (R123), the result given by its sign and by the rational numbers that lie below its magnitude and that equal it:
one of the two neighbours of the magnitude with that sign, which one by RND, infinity or the largest finite value from the next power of two on; NX when it
differs from the exact result, OF when it exceeds the largest finite value, UF when it is inexact and, rounded without a bound on the exponent, below the
least normal number, NV and DZ clear (R128). -/
def Rounded (f : FpFmt) (rnd : Nat) (neg : Prop) [Decidable neg] (below at_ : ℚ → Prop) (r : Nat × BitVec 5) : Prop :=
  let sign := if neg then f.signBit else 0
  let M := magnitude f
  let half (x y : ℚ) : ℚ := (x + y) / 2
  let up (c : Nat) : Prop := goesUp rnd neg c (at_ (M c)) (below (half (M c) (M (c + 1)))) (at_ (half (M c) (M (c + 1))))
  let normal := M (2 ^ f.fb)
  let under := normal - (2 : ℚ) ^ f.qmin / 2
  let tiny : Prop := ¬ (below under ∨ at_ under) ∨
    (¬ (below normal ∨ at_ normal) ∧ ¬ goesUp rnd neg 1 (at_ under) (below (half under normal)) (at_ (half under normal)))
  (below (M f.infBits) ∨ at_ (M f.infBits) →
    r = (sign + (if rnd = 1 ∨ (rnd = 2 ∧ neg) ∨ (rnd = 3 ∧ ¬ neg) then f.infBits - 1 else f.infBits), fpOF ||| fpNX)) ∧
  (¬ (below (M f.infBits) ∨ at_ (M f.infBits)) →
    ∃ c, c < f.infBits ∧ (below (M c) ∨ at_ (M c)) ∧ ¬ (below (M (c + 1)) ∨ at_ (M (c + 1))) ∧ (up c → r.1 = sign + (c + 1)) ∧
      (¬ up c → r.1 = sign + c) ∧ (r.2 &&& fpNX ≠ 0 ↔ ¬ at_ (M c)) ∧ (r.2 &&& fpOF ≠ 0 ↔ r.1 = sign + f.infBits) ∧
      (r.2 &&& fpUF ≠ 0 ↔ ¬ at_ (M c) ∧ tiny) ∧ r.2 &&& (fpNV ||| fpDZ) = 0)

/-- r is the nonzero number q rounded once. -/
def RoundsTo (f : FpFmt) (rnd : Nat) (q : ℚ) (r : Nat × BitVec 5) : Prop := Rounded f rnd (q < 0) (fun x => x < |q|) (fun x => x = |q|) r

/-- r is √q, or 1/√q, rounded once, for a positive q (R255). -/
def RoundsRoot (f : FpFmt) (rnd : Nat) (q : ℚ) (r : Nat × BitVec 5) : Prop := Rounded f rnd False (fun x => x ^ 2 < q) (fun x => x ^ 2 = q) r
def RoundsInvRoot (f : FpFmt) (rnd : Nat) (q : ℚ) (r : Nat × BitVec 5) : Prop := Rounded f rnd False (fun x => x ^ 2 * q < 1) (fun x => x ^ 2 * q = 1) r

/-- The place of an encoding in the order of R126, in which −0 lies below +0. -/
def orderKey (f : FpFmt) (x : Nat) : Int := if f.signBit ≤ x then -((x - f.signBit : Nat) : Int) - 1 else (x : Int)

/-- An encoding of a NaN. -/
abbrev NanCode (f : FpFmt) (x : Nat) : Prop := f.infBits < x % f.signBit

/-- An encoding of an infinity, and one of a zero. -/
abbrev InfCode (f : FpFmt) (x : Nat) : Prop := x % f.signBit = f.infBits
abbrev ZeroCode (f : FpFmt) (x : Nat) : Prop := x % f.signBit = 0

/-- The sign of an encoding. -/
def negOf (f : FpFmt) (x : Nat) : Bool := decide (f.signBit ≤ x)

/-- The invalid bit of sources among which a NaN is signalling (R122, R125). -/
def nvOf (f : FpFmt) (xs : List Nat) : BitVec 5 :=
  if xs.any (fun x => decide (f.infBits < x % f.signBit) && decide (x % f.signBit < f.infBits + 2 ^ (f.fb - 1))) then fpNV else 0

/-- A subnormal encoding. -/
def subCode (f : FpFmt) (x : Nat) : Bool := decide (0 < x % f.signBit) && decide (x % f.signBit < 2 ^ f.fb)

/-- FTZ on a source, and on a result (R124). -/
def flushed (ftz : Bool) (f : FpFmt) (x : Nat) : Nat := if ftz && subCode f x then fpSign f (negOf f x) else x
def flushedResult (ftz : Bool) (f : FpFmt) (r : Nat × BitVec 5) : Nat × BitVec 5 :=
  if ftz && subCode f r.1 then (fpSign f (negOf f r.1), r.2 ||| (fpUF ||| fpNX)) else r

/-- A number or an infinity as a point of the line in which IEEE order is the order (R247). -/
noncomputable def lineOf (f : FpFmt) (x : Nat) : EReal :=
  if x % f.signBit = f.infBits then (if f.signBit ≤ x then ⊥ else ⊤) else (((valueOf f x : ℚ) : ℝ) : EReal)

/-- The condition of CMP on two floating-point elements (R247). -/
def FpRelates (code : Nat) (f : FpFmt) (x y : Nat) : Prop :=
  if f.infBits < x % f.signBit ∨ f.infBits < y % f.signBit then code = 7
  else code = 6 ∨ (code = 0 ∧ lineOf f x = lineOf f y) ∨ (code = 2 ∧ lineOf f x < lineOf f y) ∨ (code = 3 ∧ lineOf f x ≤ lineOf f y) ∨
    (code = 4 ∧ lineOf f y < lineOf f x) ∨ (code = 5 ∧ lineOf f y ≤ lineOf f x)

/-! ## Floating-point instructions (R251 to R259) -/

/-- The basic instructions of two sources, with what each computes on elements under a format and MODE (R253). -/
def floatBinary (d a b : Sel) : List (Instr × (FpFmt → Word → Nat → Nat → Nat × BitVec 5)) :=
  [(.fadd d a b, fpBin fpAddV), (.fsub d a b, fpBin fpSubV), (.fmul d a b, fpBin fpMulV), (.fmin d a b, fpPickE false), (.fmax d a b, fpPickE true)]

/-- FMA and FNMA, whose third operand is d (R253). -/
def floatTernary (d a b : Sel) : List (Instr × (FpFmt → Word → Nat → Nat → Nat → Nat × BitVec 5)) :=
  [(.fma d a b, fpFmaE false), (.fnma d a b, fpFmaE true)]

/-- The class of R254 of an encoding: the number of the bit that is set. -/
def classOf (f : FpFmt) (x : Nat) : Nat :=
  let neg := decide (f.signBit ≤ x)
  let m := x % f.signBit
  if f.infBits < m then (if m < f.infBits + 2 ^ (f.fb - 1) then 8 else 9)
  else if m = f.infBits then (if neg then 0 else 7)
  else if m = 0 then (if neg then 3 else 4)
  else if m < 2 ^ f.fb then (if neg then 2 else 5)
  else if neg then 1 else 6

/-- The special functions of one source, with the TYPEs they accept (R251, R255). -/
def floatSpecial (d a : Sel) : List (Instr × (Nat → Bool) × (FpFmt → Nat → FpVal → Nat × BitVec 5)) :=
  [(.fsqrt d a, isFpType, fpSqrtV), (.frcp d a, fpNarrow, fpRcpV), (.frsq d a, fpNarrow, fpRsqV), (.fexp2 d a, fpNarrow, fpExp2V),
   (.flog2 d a, fpNarrow, fpLog2V), (.fsin d a, fpNarrow, fpSinV), (.fcos d a, fpNarrow, fpCosV), (.ftanh d a, fpNarrow, fpTanhV)]

/-- The conversions, with the registers of their source and what each computes (R257, R258). -/
def conversions (d a : Sel) : List (Instr × Nat × (Word → Option Ring → Nat → Nat × BitVec 5)) :=
  [(.cvti d a, 1, fun m r v => cvtInt m r (BitVec.ofNat 32 v).toInt), (.cvtn d a, 1, fun m r v => cvtInt m r (v : Int)),
   (.cvtl d a, 2, fun m r v => cvtInt m r (BitVec.ofNat 64 v).toInt), (.cvtf d a, 1, cvtFp fmtFp32), (.cvtd d a, 2, cvtFp fmtFp64),
   (.cvtb d a, 1, fun m r v => cvtFp fmtBf16 m r (v % 2 ^ 16)), (.cvth d a, 1, fun m r v => cvtFp fmtFp16 m r (v % 2 ^ 16))]

/-! ## Ringsets (R135 to R142) -/

/-- Slot k holds a built ring of a form (R145, R146). -/
def RingReady (t : Team) (k form : Nat) (r : Ring) : Prop := ringSlot t k = some r ∧ r.form = form ∧ r.building = false

/-- A point of a ring as a number (R135). -/
def pointOf (ps : List Word) (i : Nat) : ℚ := valueOf fmtFp32 (nthD ps (i - 1) 0).toNat

/-- A number or ∞ (none) lies at position k (R135): an even position is a point, position 0 is ∞, an odd position the open arc between its neighbours. -/
def AtPosition (form : Nat) (ps : List Word) (k : Nat) : Option ℝ → Prop
  | none => k = 0
  | some x =>
    if k % 2 = 0 then k ≠ 0 ∧ x = ((pointOf ps (k / 2) : ℚ) : ℝ)
    else (k = 1 ∨ ((pointOf ps (k / 2) : ℚ) : ℝ) < x) ∧ (k = ringN form - 1 ∨ x < ((pointOf ps (k / 2 + 1) : ℚ) : ℝ))

/-- The real set that a set of positions stands for. -/
def InSet (form : Nat) (ps : List Word) (p : Nat) (x : Option ℝ) : Prop := ∃ k, k < ringN form ∧ p.testBit k = true ∧ AtPosition form ps k x

/-- Position j belongs to the run of l + 1 positions from k, modulo n. -/
def InRun (n k l j : Nat) : Prop := ∃ i, i ≤ l ∧ j = (k + i) % n

/-- Position k belongs to an element (R136, R137): a full mask, or an arc, with the encodings of the empty set and of the whole line. -/
def Member (form x k : Nat) : Prop :=
  if form = 2 then (if x / 256 % 256 = 255 then x % 256 ≠ 1 else InRun 256 (x % 256) (x / 256 % 256) k) else x.testBit k = true

/-- The element that holds one position (R148). -/
def oneAt (form k : Nat) : Nat := if form = 2 then k else 2 ^ k

/-- The real set of an element. -/
def InElem (form : Nat) (ps : List Word) (x : Nat) (z : Option ℝ) : Prop := ∃ k, k < ringN form ∧ Member form x k ∧ AtPosition form ps k z

/-- The run of l + 1 positions from k is the hull of a set of positions (R139): it contains them, no run that does has fewer, and none of as many starts
lower. -/
def IsHull (n p k l : Nat) : Prop :=
  let covers (k l : Nat) : Prop := k < n ∧ l < n ∧ ∀ j, j < n → p.testBit j = true → InRun n k l j
  covers k l ∧ ∀ k1 l1, covers k1 l1 → l < l1 ∨ (l = l1 ∧ k ≤ k1)

/-- The condition of CMP on two ringset elements as real sets (R151). -/
def RingRelates (code : Nat) (A B : Option ℝ → Prop) : Prop :=
  let ordered (A B : Option ℝ → Prop) (r : ℝ → ℝ → Prop) : Prop :=
    (∃ x, A x) ∧ (∃ y, B y) ∧ ¬ A none ∧ ¬ B none ∧ ∀ x y, A (some x) → B (some y) → r x y
  (code = 0 ∧ ∀ x, A x ↔ B x) ∨ (code = 1 ∧ ¬ ∀ x, A x ↔ B x) ∨ (code = 2 ∧ ordered A B (· < ·)) ∨ (code = 3 ∧ ordered A B (· ≤ ·)) ∨
  (code = 4 ∧ ordered B A (· < ·)) ∨ (code = 5 ∧ ordered B A (· ≤ ·)) ∨ (code = 8 ∧ ∀ x, A x → B x) ∨ (code = 9 ∧ ∀ x, ¬ (A x ∧ B x)) ∨
  (code = 10 ∧ ∃ x, A x ∧ B x) ∨ (code = 11 ∧ ∀ x, ¬ A x) ∨ (code = 12 ∧ ∃ x, ∀ y, A y ↔ y = x)

/-- The projective sum, product and quotient of R138: z is among the values that x and y contribute. -/
def SumOf : Option ℝ → Option ℝ → Option ℝ → Prop
  | some x, some y, z => z = some (x + y)
  | none, none, _ => True
  | _, _, z => z = none

def ProductOf : Option ℝ → Option ℝ → Option ℝ → Prop
  | some x, some y, z => z = some (x * y)
  | none, none, z => z = none
  | none, some y, z => y ≠ 0 → z = none
  | some x, none, z => x ≠ 0 → z = none

/-- 1/x (R138). -/
def ReciprocalOf : Option ℝ → Option ℝ → Prop
  | none, z => z = some 0
  | some x, z => if x = 0 then z = none else z = some (1 / x)

def NegativeOf : Option ℝ → Option ℝ → Prop
  | none, z => z = none
  | some x, z => z = some (-x)

/-- The ringset operations of two elements, with what each gives on position sets (R140). -/
def ringBinary (d a b : Sel) : List (Instr × (Ring → Nat → Nat → Nat)) :=
  [(.rsadd d a b, rsBin realAdd), (.rssub d a b, rsBin realSub), (.rsmul d a b, rsBin realMul), (.rsdiv d a b, rsBin realDiv),
   (.rsunion d a b, fun _ p q => p ||| q), (.rsisect d a b, fun _ p q => p &&& q)]

/-- Those of one. -/
def ringUnary (d a : Sel) : List (Instr × (Ring → Nat → Nat)) :=
  [(.rsneg d a, rsUn realNeg), (.rsrcp d a, rsUn realRcp), (.rssqr d a, rsUn realSqr), (.rshull d a, fun r p => hullPos (ringN r.form) p)]

/-! ## Cross-lane reads and reduction trees (R129, R266 to R269) -/

/-- The slot of spanlane i of a lane's span. -/
def mate (t : Team) (k i : Nat) : Nat := k - k % t.cfg.span + i

/-- What a lane reads of spanlane i: its operand, the other value when that lane is absent (R266). -/
def spanRead (t : Team) (lit : Word) (m : Mask) (a : Sel) (n other k i : Nat) : Nat :=
  if mate t k i < 1024 ∧ m.getLsbD (mate t k i) = true then readVal t lit (mate t k i) a n else other

/-- The tree of R129 over 2^n inputs: its value, and the exceptions of its nodes. -/
def treeOf (op : Nat → Nat → Nat × BitVec 5) : Nat → (Nat → Nat) → Nat × BitVec 5
  | 0, f => (f 0, 0)
  | n + 1, f =>
    let l := treeOf op n f
    let r := treeOf op n (fun i => f (2 ^ n + i))
    let v := op l.1 r.1
    (v.1, l.2 ||| r.2 ||| v.2)

/-- The ring in which an instruction works: the built one of MODE's slot under a ringset TYPE, none under another. -/
def WorksIn (t : Team) (ring : Option Ring) : Prop :=
  (isRingType (modeType t.mode) = true → ∃ r, ring = some r ∧ RingReady t (modeRing t.mode) (modeType t.mode - 11) r) ∧
  (isRingType (modeType t.mode) = false → ring = none)

/-- What a node gives each element under an integer TYPE (R129, R244), and under a floating-point TYPE (R253), with the operations that have an identity
there (R130). -/
def integerNodes : List (Node × (Nat → Bool → Nat → Nat → Nat)) :=
  [(.add, fun ty sat x y => perhapsClamped ty sat (numberOf ty x + numberOf ty y)), (.min, fun ty _ x y => wrapped ty (min (numberOf ty x) (numberOf ty y))),
   (.max, fun ty _ x y => wrapped ty (max (numberOf ty x) (numberOf ty y))),
   (.and, fun ty _ x y => (BitVec.ofNat (elemWidth ty) x &&& BitVec.ofNat (elemWidth ty) y).toNat),
   (.or, fun ty _ x y => (BitVec.ofNat (elemWidth ty) x ||| BitVec.ofNat (elemWidth ty) y).toNat)]

def floatNodes : List (Node × (FpFmt → Word → Nat → Nat → Nat × BitVec 5)) := [(.add, fpBin fpAddV), (.min, fpPickE false), (.max, fpPickE true)]

/-- The identities of R130: the element that fills an integer value, and a floating-point one, by the RND of the node. -/
def integerIdentities (ty : Nat) : List (Node × Nat) :=
  [(.add, 0), (.min, wrapped ty (greatestOf ty)), (.max, wrapped ty (leastOf ty)), (.and, 2 ^ elemWidth ty - 1), (.or, 0)]

def floatIdentities (f : FpFmt) (rnd : Nat) : List (Node × Nat) :=
  [(.add, if rnd = 3 then 0 else f.signBit), (.min, f.infBits), (.max, f.signBit + f.infBits)]

/-- The span reductions with their nodes (R269). -/
def reductions (d a : Sel) : List (Instr × Node) := [(.redadd d a, .add), (.redmin d a, .min), (.redmax d a, .max), (.redor d a, .or), (.redun d a, .union)]

/-- Where a walk over two sorted lists stands (R296, R297): the elements consumed of each, and the outputs, a value with its source. -/
structure ListWalk where
  i : Nat
  j : Nat
  out : List (Nat × Nat)
  deriving DecidableEq, Repr

/-- One pass of the loop of R296, over lists of values with their spanlanes. -/
def isectPass (A B : List (Nat × Nat)) (w : ListWalk) : ListWalk :=
  if w.i < A.length ∧ w.j < B.length then
    let a := nthD A w.i (0, 0)
    let b := nthD B w.j (0, 0)
    if a.1 < b.1 then { w with i := w.i + 1 }
    else if b.1 < a.1 then { w with j := w.j + 1 }
    else { i := w.i + 1, j := w.j + 1, out := w.out ++ [(a.1, a.2 + 2 ^ 8 * b.2)] }
  else w

/-- One pass of the loop of R297. -/
def mergePass (A B : List (Nat × Nat)) (w : ListWalk) : ListWalk :=
  let a := nthD A w.i (0, 0)
  let b := nthD B w.j (0, 0)
  if ¬ (w.i < A.length ∨ w.j < B.length) then w
  else if w.j = B.length ∨ (w.i < A.length ∧ a.1 < b.1) then { w with i := w.i + 1, out := w.out ++ [(a.1, a.2 + 2 ^ 8 * 0xFF)] }
  else if w.i = A.length ∨ b.1 < a.1 then { w with j := w.j + 1, out := w.out ++ [(b.1, 0xFF + 2 ^ 8 * b.2)] }
  else { i := w.i + 1, j := w.j + 1, out := w.out ++ [(a.1, a.2 + 2 ^ 8 * b.2)] }

/-! ## Memory instructions (R272 to R287) -/

/-- The effective address of R272 in a lane: a 64-bit base and a signed 32-bit offset. -/
def eaOf (t : Team) (lit : Word) (a b : Sel) (k : Nat) : Nat :=
  (BitVec.ofNat 64 (readVal t lit k a 2) + (BitVec.ofNat 32 (readVal t lit k b 1)).signExtend 64).toNat

/-- The address of SLD and SST in a lane: the team's scratchpad window at the offset of R281. -/
def localEa (t : Team) (lit : Word) (a b : Sel) (k : Nat) : Nat := 0xFF00000000000 + (readVal t lit k a 1 + readVal t lit k b 1) % 2 ^ 32

/-- The lane that an instruction performed once per issue acts as: the lowest lane of EXEC (R278). -/
def lowestOf (t : Team) : Nat := (lowestSlot t.cfg.capacity t.exec).getD 0

/-- The accesses of a memory instruction: those of its lanes, or the one of the lowest lane of EXEC (R278). -/
def accessesOf (t : Team) (once : Bool) (f : Nat → LaneAcc) : List LaneAcc :=
  if once then [f (lowestOf t)] else (slotsOf t.cfg.capacity (lanesOn t)).map f

/-- A memory instruction: how it is checked (long-latency, TYPEs, operands), whether it counts on the READS flag, its access as the model holds it, and what
it does in a lane. -/
structure MemRow where
  instr : Instr
  late : Bool
  types : Nat → Bool
  ops : List Opnd
  counts : Bool
  op : MemOp
  lane : Nat → LaneAcc

/-- The loads with their size and registers (R279, R281). -/
def loadRows (t : Team) (lit : Word) (d a b : Sel) : List MemRow :=
  let row (i : Instr) (size regs na : Nat) (ea : Nat → Nat) : MemRow :=
    { instr := i, late := true, types := anyType, ops := [dst d regs, src a na, src b 1], counts := true,
      op := { kind := .load, size := size, dst := d, regs := regs, late := none, uniform := isSreg d },
      lane := fun k => { slot := k, ea := ea k, data := 0, cmp := 0 } }
  [row (.ld d a b) 4 1 2 (eaOf t lit a b), row (.ldb d a b) 1 1 2 (eaOf t lit a b), row (.ldh d a b) 2 1 2 (eaOf t lit a b),
   row (.ldw d a b) 16 4 2 (eaOf t lit a b), row (.sld d a b) 4 1 1 (localEa t lit a b)]

/-- The stores (R279, R281). -/
def storeRows (t : Team) (lit : Word) (d a b : Sel) : List MemRow :=
  let row (i : Instr) (size regs na : Nat) (ea : Nat → Nat) : MemRow :=
    { instr := i, late := false, types := anyType, ops := [src d regs, src a na, src b 1], counts := false,
      op := { kind := .store, size := size, dst := .zero, regs := regs, late := none, uniform := !isPerLane d && !isPerLane a && !isPerLane b },
      lane := fun k => { slot := k, ea := ea k, data := readVal t lit k d regs % 2 ^ (8 * size), cmp := 0 } }
  [row (.st d a b) 4 1 2 (eaOf t lit a b), row (.stb d a b) 1 1 2 (eaOf t lit a b), row (.sth d a b) 2 1 2 (eaOf t lit a b),
   row (.stw d a b) 16 4 2 (eaOf t lit a b), row (.sst d a b) 4 1 1 (localEa t lit a b)]

/-- The atomics (R283 to R287), by the opcode of the returning form: the operand is d, and of ACAS and ACASW the upper half of the group, the lower half
being the compare value. -/
def atomicRows (t : Team) (lit : Word) (d a b : Sel) : List MemRow :=
  let ty := modeType t.mode
  let n := typeRegs ty
  let size := if ty = 2 ∨ ty = 3 ∨ ty = 10 then 8 else if ty = 6 ∨ ty = 11 ∨ ty = 13 then 2 else 4
  let returns (i : Instr) (op : Nat) : MemRow :=
    { instr := i, late := true, types := atomType op, ops := [srcdst d n, src a 2, src b 1], counts := true,
      op := { kind := .atomic op ty true, size := size, dst := d, regs := n, late := none, uniform := isSreg d },
      lane := fun k => { slot := k, ea := eaOf t lit a b k, data := readVal t lit k d n % 2 ^ (8 * size), cmp := 0 } }
  let compares (i : Instr) (op h w : Nat) : MemRow :=
    { instr := i, late := true, types := atomType op, ops := [srcdst d (2 * h), src a 2, src b 1], counts := true,
      op := { kind := .atomic op ty true, size := w, dst := Sel.plus d h, regs := h, late := none, uniform := isSreg d },
      lane := fun k =>
        { slot := k, ea := eaOf t lit a b k, data := readVal t lit k (Sel.plus d h) h % 2 ^ (8 * w), cmp := readVal t lit k d h % 2 ^ (8 * w) } }
  let silent (i : Instr) (op : Nat) : MemRow :=
    { instr := i, late := false, types := atomType op, ops := [src d n, src a 2, src b 1], counts := false,
      op := { kind := .atomic op ty false, size := size, dst := .zero, regs := n, late := none, uniform := !isPerLane d && !isPerLane a && !isPerLane b },
      lane := fun k => { slot := k, ea := eaOf t lit a b k, data := readVal t lit k d n % 2 ^ (8 * size), cmp := 0 } }
  [returns (.aadd d a b) 0xA0, returns (.amin d a b) 0xA1, returns (.amax d a b) 0xA2, returns (.aand d a b) 0xA3, returns (.aor d a b) 0xA4,
   returns (.axor d a b) 0xA5, returns (.axchg d a b) 0xA6, compares (.acas d a b) 0xA7 n size, compares (.acasw d a b) 0xA8 4 16,
   returns (.afadd d a b) 0xA9, returns (.afmin d a b) 0xAA, returns (.afmax d a b) 0xAB] ++
  [silent (.stadd d a b) 0xA0, silent (.stmin d a b) 0xA1, silent (.stmax d a b) 0xA2, silent (.stand d a b) 0xA3, silent (.stor d a b) 0xA4,
   silent (.stxor d a b) 0xA5, silent (.stfadd d a b) 0xA9, silent (.stfmin d a b) 0xAA, silent (.stfmax d a b) 0xAB]

/-- A memory instruction is about to issue and nothing makes it wait (R114, R231, R289). -/
structure MemReady (t : Team) (c : Clause) (r : MemRow) : Prop where
  legal : Legal r.instr t r.late r.types r.ops
  clean : Unpoisoned t r.ops (lanesOn t)
  free : slicePending t = false
  flag : r.counts = true → c.reads < 12 ∧ flagCount t c.reads ≠ 63

/-- The state in which a memory instruction's lanes are settled, and its access: a counted one has its operation in flight (R175). -/
def settleFrom (s : State) (u : Nat) (t : Team) (c : Clause) (r : MemRow) : State × MemOp :=
  if r.counts then
    ((startLate s u c.reads (laneLate s t r.op (accessesOf t r.op.uniform r.lane))).2, { r.op with late := some s.nextId })
  else (s, r.op)

/-! ## Handles and fetches (R93 to R97) -/

/-- A field of n bytes of a descriptor or a card at an offset, and bits hi to lo of a number. -/
def fieldAt (x off n : Nat) : Nat := x / 2 ^ (8 * off) % 2 ^ (8 * n)
def bitsAt (x hi lo : Nat) : Nat := x / 2 ^ lo % 2 ^ (hi + 1 - lo)

/-- A handle descriptor that R95 accepts, by the layout of R93 and R94. A field that the format does not use counts as reserved (log 26). -/
def HandleGood (h : BitVec 512) : Prop :=
  let F (off n : Nat) : Nat := fieldAt h.toNat off n
  let B (hi lo : Nat) : Nat := bitsAt h.toNat hi lo
  let ext (k : Nat) : Nat := F (0x18 + 4 * k) 4
  let edge := if B 12 12 = 1 then 16 else 32
  B 63 16 = 0 ∧ B 8 8 = 0 ∧ B 5 4 = 0 ∧ F 0x34 12 = 0 ∧ B 3 0 ≤ 2 ∧ (B 3 0 ≠ 2 → B 15 12 = 0) ∧ (B 3 0 = 0 → F 0x10 8 = 0) ∧ (B 3 0 ≠ 0 → F 0x28 12 = 0) ∧
  (∀ k, k < 4 → ext k ≠ 0) ∧ ext 0 * ext 1 * ext 2 * ext 3 ≤ 2 ^ 32 - 1 ∧ F 0x08 8 < 0xFE00000000000 ∧ F 0x10 8 < 0xFE00000000000 ∧
  (B 3 0 = 2 → B 11 10 = 1 ∧ B 7 6 = 2 ∧ B 15 13 ≠ 0 ∧ ext 0 % edge = 0 ∧ ext 1 % edge = 0)

/-- The coordinates that a lane's index names (R96), none outside the extents: of a linear index, dimension 0 varies fastest. -/
def fetchPlace (h : BitVec 512) (two : Bool) (l : Nat) : Option (Nat × Nat × Nat × Nat) :=
  let ext (k : Nat) : Nat := fieldAt h.toNat (0x18 + 4 * k) 4
  if two then (if l % 2 ^ 32 < ext 0 ∧ l / 2 ^ 32 % 2 ^ 32 < ext 1 then some (l % 2 ^ 32, l / 2 ^ 32 % 2 ^ 32, 0, 0) else none)
  else if l < ext 0 * ext 1 * ext 2 * ext 3 then some (l % ext 0, l / ext 0 % ext 1, l / (ext 0 * ext 1) % ext 2, l / (ext 0 * ext 1 * ext 2)) else none

/-- v is the element at given coordinates (R97), extended as R96 says, where reads a n x says that a read of n bytes at a gives x. -/
def ElementIs (reads : Nat → Nat → Nat → Prop) (h : BitVec 512) (c : Nat × Nat × Nat × Nat) (v : Nat) : Prop :=
  let F (off n : Nat) : Nat := fieldAt h.toNat off n
  let B (hi lo : Nat) : Nat := bitsAt h.toNat hi lo
  let base := F 0x08 8
  let aux := F 0x10 8
  let e := 2 ^ B 7 6
  let Extended (x : Nat) : Prop := v = if B 9 9 = 1 ∧ e < 4 then ((BitVec.ofNat (8 * e) x).signExtend 32).toNat else x
  match c with
  | (c0, c1, c2, c3) =>
    (B 3 0 = 0 → ∃ x, reads (base + e * (c0 + c1 * F 0x28 4 + c2 * F 0x2C 4 + c3 * F 0x30 4)) e x ∧ Extended x) ∧
    (B 3 0 = 1 →
      let l := c0 + F 0x18 4 * (c1 + F 0x1C 4 * (c2 + F 0x20 4 * c3))
      let j := l % 128
      ∃ o m, reads (aux + 4 * (l / 128)) 4 o ∧ reads (base + 16 * o) 16 m ∧ (m.testBit j = false → v = 0) ∧
        (m.testBit j = true → ∃ x, reads (base + 16 * o + 16 + e * ((List.range j).filter (fun i => m.testBit i)).length) e x ∧ Extended x)) ∧
    (B 3 0 = 2 →
      let t := if B 12 12 = 1 then 16 else 32
      let w := B 15 13 + 1
      let n := c1 / t * (F 0x18 4 / t) + c0 / t
      let b := c1 % t * t + c0 % t
      ∃ m E, m < 2 ^ w ∧ (∀ q, q < w → ∃ y, reads (base + n * w * (t * t / 8) + q * (t * t / 8) + b / 8) 1 y ∧ m.testBit q = y.testBit (b % 8)) ∧
        reads (aux + n) 1 E ∧ (E = 0xFF → v = fmtFp32.nan) ∧ (E ≠ 0xFF → m = 0 → v = 0) ∧
        (E ≠ 0xFF → m ≠ 0 → Finite fmtFp32 v ∧ valueOf fmtFp32 v = ((BitVec.ofNat w m).toInt : ℚ) * (2 : ℚ) ^ ((E : Int) - 127 - ((w : Int) - 1))))

/-- v is what a lane of an index gets: 0 outside the extents (R96). -/
def FetchIs (reads : Nat → Nat → Nat → Prop) (h : BitVec 512) (two : Bool) (l v : Nat) : Prop :=
  match fetchPlace h two l with
  | none => v = 0
  | some c => ElementIs reads h c v

/-- A read of a lane that its core's fetch cache serves (R92, R292): an aligned run of no window, in a line kept for the context. -/
def FetchCached (s : State) (t : Team) (va n x : Nat) : Prop :=
  va < 0xFE00000000000 ∧ va % n = 0 ∧
  ∃ l, (s.core t.cfg.core).fetchLines.find? (fun l => decide (l.vline = va / 128) && decide (l.ctx = t.cfg.ctx)) = some l ∧
    x = natOfBytes ((List.range n).map (fun i => lineByte l.data (va % 128 + i)))

/-! ## Job cards (R83 to R87) -/

/-- A card that the scheduler accepts (R87), by the layout of R83 to R85, where win places a region's window address (R76). Unused regions are not looked at
(log 83); that a COMPADDR that is not a multiple of 8 is refused is the model's choice (log 27), and so is that coverage is judged by the virtual
addresses (log 82). -/
def CardGood (win : Nat → Nat → Win) (c : BitVec 2048) : Prop :=
  let F (off n : Nat) : Nat := fieldAt c.toNat off n
  let B (hi lo : Nat) : Nat := bitsAt c.toNat hi lo
  let kind := F 0 1
  let edge := if B 11 11 = 1 then 16 else 32
  let region (side j : Nat) : Nat × Nat := (F (side + 16 * j) 8, F (side + 16 * j + 8) 5)
  let inside (side a : Nat) : Prop := ∃ j, j < 4 ∧ (region side j).1 ≤ a ∧ a < (region side j).1 + (region side j).2
  let S (off : Nat) : Int := (BitVec.ofNat 64 (F off 8)).toInt
  let row (base so1 so2 k1 k2 : Nat) : Nat := (BitVec.ofInt 64 ((F base 8 : Int) + k1 * S so1 + k2 * S so2)).toNat
  let place (r : Nat × Nat) : Option (Nat × Nat) := match win r.1 r.2 with
    | .no => some (0, r.1)
    | .at core off => some (core + 1, off)
    | .malformed => none
    | .out => none
  (B 63 12 = 0 ∧ kind ≤ 2 ∧ (kind = 2 → B 10 8 ≠ 0) ∧ (kind ≠ 2 → B 11 8 = 0) ∧ (kind = 1 → F 0x08 8 = 0) ∧ (kind ≠ 1 → F 0x18 8 = 0) ∧ F 0x2C 4 = 0 ∧
    F 0x60 32 = 0 ∧ F 0x50 8 % 8 = 0 ∧ ∀ j, j < 8 → F (0x80 + 16 * j + 13) 3 = 0) ∧
  (1 ≤ F 0x20 4 ∧ 1 ≤ F 0x24 4 ∧ 1 ≤ F 0x28 4 ∧ (kind = 2 → F 0x28 4 = 1 ∧ F 0x20 4 = (B 10 8 + 1) * (edge * edge / 8))) ∧
  (∀ k1 k2 i, k1 < F 0x24 4 → k2 < F 0x28 4 → i < F 0x20 4 →
    (kind ≠ 1 → inside 0x80 (row 0x08 0x30 0x38 k1 k2 + i)) ∧ inside 0xC0 (row 0x10 0x40 0x48 k1 k2 + i)) ∧
  (F 0x50 8 ≠ 0 → ∀ i, i < 8 → inside 0xC0 (F 0x50 8 + i)) ∧
  (∀ side j, side = 0x80 ∨ side = 0xC0 → j < 4 → (region side j).2 ≠ 0 →
    (region side j).1 < 2 ^ 52 ∧ (region side j).1 + (region side j).2 ≤ 2 ^ 52 ∧
    ((region side j).1 < 0xFE00000000000 → (region side j).1 + (region side j).2 ≤ 0xFE00000000000) ∧ (place (region side j)).isSome = true) ∧
  (∀ i j p q, i < 4 → j < 4 → (region 0x80 i).2 ≠ 0 → (region 0xC0 j).2 ≠ 0 → place (region 0x80 i) = some p → place (region 0xC0 j) = some q → p.1 = q.1 →
    p.2 + (region 0x80 i).2 ≤ q.2 ∨ q.2 + (region 0xC0 j).2 ≤ p.2)

/-! ## Windows and lines -/

/-- n bytes at an address of the team's own scratchpad window inside its allocation (R74, R76), or of the cluster window inside the allocation of one team
that is resident on that core with the issuer's context id (R75): the core and the physical offset. -/
def InScratch (s : State) (t : Team) (ea n core off : Nat) : Prop :=
  (∃ o, ea = 0xFF00000000000 + o ∧ o < 2 ^ 32 ∧ o + n ≤ t.cfg.spsize ∧ core = t.cfg.core ∧ off = t.cfg.spbase + o) ∨
  (∃ k v w, ea = 0xFE00000000000 + k * 0x100000 + off ∧ k < 8 ∧ off < 0x100000 ∧ core = t.cfg.core / 8 * 8 + k ∧ (v, w) ∈ s.teams ∧ w.cfg.core = core ∧
    w.saved = false ∧ w.cfg.ctx = t.cfg.ctx ∧ w.cfg.spbase ≤ off ∧ off + n ≤ w.cfg.spbase + w.cfg.spsize)

/-- Every access of a row lies in a scratchpad window, aligned (R74 to R76, R273); core and off are where, by lane. -/
def InWindows (s : State) (t : Team) (r : MemRow) (core off : Nat → Nat) : Prop :=
  ∀ x ∈ accessesOf t r.op.uniform r.lane, InScratch s t x.ea r.op.size (core x.slot) (off x.slot) ∧ x.ea % r.op.size = 0

/-- An access of n bytes at a canonical, aligned address of no window and no trap record area (R45, R46, R273). -/
def PlainAccess (ea n : Nat) : Prop := bits ea 63 52 = 0 ∧ isWindowVa ea = false ∧ isRecordVa ea = false ∧ ea % n = 0

/-- l is the first-level line of an address of a team: no other line there has its tag or its physical line (R47, R54). -/
def HeldLine (s : State) (t : Team) (ea : Nat) (l : L1Line) : Prop :=
  l.vline = ea / 128 ∧ l.ctx = t.cfg.ctx ∧
  (s.core (l1Core t.cfg ea)).l1.filter (fun x => (decide (x.vline = l.vline) && decide (x.ctx = l.ctx)) || decide (x.pline = l.pline)) = [l]

/-- The first level has room for the line of an address, holds none of its tag or its physical line, and names no victim of its tag (R47, R54, R357). -/
def FreeLine (s : State) (t : Team) (ea pa : Nat) : Prop :=
  let c := s.core (l1Core t.cfg ea)
  (∀ l ∈ c.l1, ¬ (l.vline = ea / 128 ∧ l.ctx = t.cfg.ctx) ∧ l.pline ≠ pa / 128) ∧
  (c.l1.filter (fun l => decide (l1Set t.cfg.fuse l.vline = l1Set t.cfg.fuse (ea / 128)))).length < 16 ∧
  ∀ v ∈ c.victims, ¬ (v.vline = ea / 128 ∧ v.ctx = t.cfg.ctx)

/-- Nothing of a core is on its way to a physical line. -/
def NothingOut (s : State) (core p : Nat) : Prop := ∀ e ∈ (s.core core).out, entryLine e ≠ p

/-- The state in which a memory instruction's lanes make their accesses: its operation counted, its own number taken. -/
def accessFrom (s : State) (u : Nat) (t : Team) (c : Clause) (r : MemRow) : State := (takeId (settleFrom s u t c r).1).2

/-- A table entry of a level that leads on, and a leaf of a 64 KiB page without a peer or a layer (R56 to R58). -/
def TableEntry (e level : Nat) : Prop := e % 2 = 1 ∧ bits e 1 1 = 0 ∧ bits e 8 2 = 0 ∧ bits e 63 48 = 0 ∧ (level ≤ 1 → bits e 14 9 = 0)

def PageLeaf (e : Nat) : Prop :=
  e % 2 = 1 ∧ bits e 1 1 = 1 ∧ bits e 5 5 = 0 ∧ bits e 8 8 = 0 ∧ bits e 9 9 = 0 ∧ bits e 15 12 = 0 ∧ bits e 63 48 = 0 ∧ e < 2 ^ 64

/-! ## The release and acquire sides, quiet teams, the frame stack -/

/-- The release side of an instruction passes (R201): in s1 everything the team has sent is home, its returning atomics' poison is known, and no store or
atomic of the path's lanes is to be delivered for a poisoned line (R276). The whole wait is done in the instruction's own step (log 5). -/
def ReleasePasses (s : State) (u : Nat) (t : Team) (s1 : State) : Prop :=
  s1 = (drainTeam s u t.cfg).updTeam u (surface LateOp.atomic) ∧
  ∃ t1, tblGet s1.teams u = some t1 ∧ ∀ h ∈ t1.integrity, delivers t1 HeldIntegrity.rel h = false

/-- The acquire side passes (R202): the team's loads have their values in s0, none of them is to be delivered for a poisoned line, no QPOP waits; s1 is s0
with the first levels, the fetch caches and the instruction caches of its cores invalidated (log 5). -/
def AcquirePasses (s : State) (u : Nat) (t : Team) (s1 : State) : Prop :=
  let s0 := (drainReturning s u t.cfg).updTeam u surfacePoison
  s1 = acquireTeam s0 t.cfg ∧ ∃ t1, tblGet s0.teams u = some t1 ∧ (∀ h ∈ t1.integrity, delivers t1 HeldIntegrity.acq h = false) ∧
    ∀ o ∈ t1.late, ∀ pa, o.wait ≠ .qpop pa

/-- A team with nothing in flight: its twelve flags read zero, and nothing of it waits to complete or to be delivered (R180, R332). -/
structure Quiet (s : State) (u : Nat) (t : Team) : Prop where
  flags : flagsClear t = true
  late : t.late = []
  integrity : t.integrity = []
  batches : ∀ c ∈ teamCores t.cfg, ∀ e ∈ (s.core c).out, e.team = u → ∀ b, e.work = .batch b → b.late = none

/-- The frame stack's bytes as an instruction reloads them (R116), where they can be read. -/
def frameBytes (s : State) (u : Nat) (t : Team) : Option (List Byte × State) :=
  let n := (frameImage t).length
  if n = 0 then some ([], s)
  else
    let r := checkRun s t t.cfg.fsbase n 1 needR true
    let v := readRun r.2 u t t.cfg.fsbase n
    match r.1, v.1 with
    | .ok, some bs => some (bs, v.2)
    | _, _ => none

/-- The state in which an instruction has made f of a team and the frame stack's bytes are stored (R116, R192), where its size and its pages allow it: f
acts on the records as the bytes reloaded give them, where the instruction touches the stack at all; with stores, it stores whatever the bytes were. -/
def framePushedAs (stores : Bool) (s : State) (u : Nat) (t : Team) (f : Team → Except TrapClass Team) : Option State :=
  match stacked f t with
  | .error _ => none
  | .ok t1 =>
    let touch := frameTouch t t1
    if frameImage t1 = frameImage t ∧ (stores || touch.1 || touch.2) = false then some (s.setTeam u t1)
    else
      match frameBytes s u t with
      | none => none
      | some (bs, s1) =>
        let found := reloadImage ((tblGet s1.teams u).getD t) bs
        match stacked f found with
        | .error _ => none
        | .ok t2 =>
          let new := frameImage t2
          if new = [] ∨ (new = frameImage found ∧ (stores || touch.2) = false) then some (s1.setTeam u t2)
          else
            match checkRun s1 t t.cfg.fsbase new.length 1 needW true with
            | (.ok, s2) => some (writeRun (s2.setTeam u t2) u (lowestOf t) t t.cfg.fsbase new)
            | _ => none

/-- The same of an instruction that stores what it changes. -/
def framePushed (s : State) (u : Nat) (t : Team) (f : Team → Except TrapClass Team) : Option State := framePushedAs false s u t f

/-- The header position that a 16-bit branch offset of a clause names (R226). -/
def branchTo (c : Clause) (off : Nat) : Nat := (BitVec.ofNat 52 c.header + ((BitVec.ofNat 16 off).signExtend 52 <<< 2)).toNat

/-- A team that stands at a header position, before any arrival (R174, R178). -/
def standsAt (t : Team) (pc : Nat) : Team :=
  { t with pc := pc % 2 ^ 52, clause := none, wregs := [], retry := none, captured := none, marked := [], kept := [], parked := none, wait := .none }

/-- The team's scratchpad window at an offset of an allocation holds n bytes (R74, R76). -/
def InWindow (t : Team) (va off n : Nat) : Prop := va = 0xFF00000000000 + off ∧ off < 2 ^ 32 ∧ off + n ≤ t.cfg.spsize

/-- The checks of a matrix instruction in their order (R299): the first that ends decides. -/
def runChecks (cs : List (State → RunRes × State)) (s : State) : RunRes × State :=
  cs.foldl (fun r c => match r.1 with
    | .ok => c r.2
    | .ends _ => r) (RunRes.ok, s)

/-- A block of s registers that a matrix instruction reads starts at s[k] (R300). -/
def issueOfTeam (u : Nat) (t : Team) (lit : Word) : Issue := { u := u, t := t, lit := lit, active := lanesOn t, whole := activeMask t, exec := lanesExec t }

/-- The mantissa at row i and column k of an operand block of width w, from its bytes (R131, R132, R155): of 16 × 16 tiles under TILE, each transposed and in
the order of the transposed tiles where the block is. -/
def mantissaAt (tile tr : Bool) (w : Nat) (bs : List Byte) (i k : Nat) : Int :=
  let t := if tile then 16 else 32
  let r := if tr then k else i
  let c := if tr then i else k
  let first := (if tile then 2 * (r / 16) + c / 16 else 0) * (w * (t * t / 8))
  let b := r % t * t + c % t
  let bit (q : Nat) : Int := if (nthD bs (first + q * (t * t / 8) + b / 8) 0).getLsbD (b % 8) then 1 else 0
  ((List.range (w - 1)).map (fun q => bit q * 2 ^ q)).sum - bit (w - 1) * 2 ^ (w - 1)

/-- The exponent of the tile at row ti and column tk of an operand block (R155). -/
def exponentAt (tile tr : Bool) (w : Nat) (bs : List Byte) (ti tk : Nat) : Nat :=
  (nthD bs (w * 128 + if tile then (if tr then 2 * tk + ti else 2 * ti + tk) else 0) 0).toNat

/-- An operand block of an MLOOP that can be read and whose bytes nobody else holds (R157, R170): of the submitter's allocation, of a core of the cluster, or
in the frames of its pages. -/
def BlockAt (s : State) (l : MLoop) (b : Bool) (base n : Nat) (bs : List Byte) : Prop :=
  let w := l.srcw.toNat
  let loc := if b then bitsAt w 11 10 else bitsAt w 6 5
  let core := if loc = 1 then l.core else l.core / 8 * 8 + (if b then bitsAt w 9 7 else bitsAt w 4 2)
  let off := if loc = 1 then l.spbase + base else base
  bs.length = n ∧
  ((loc = 1 ∨ loc = 2) ∧ scratchPoisoned s core off n = false ∧ bs = Memory.reads (s.core core).scratch off n ∨
   loc = 0 ∧ ∀ i, i < n → ∃ f, tblGet l.frames ((base + i) / 65536) = some f ∧ f < 2 ^ 32 ∧
     let pa := 65536 * f + (base + i) % 65536
     tblGet s.own (pa / 4) = none ∧ linePoisoned s (pa / 128) = false ∧ unitObject s pa = none ∧ beyondWindow s pa = false ∧
     nthD bs i 0 = Memory.read s.mem pa ∧
     ∀ t, tblGet s.teams l.team = some t → (∀ e ∈ (s.core (l1Core t.cfg (base + i))).out, entryLine e ≠ pa / 128) ∧
       ∀ k ∈ (s.core (l1Core t.cfg (base + i))).acks, k.word / 32 ≠ pa / 128)

/-- A finite exact value as a number. -/
def finOf (neg : Bool) (m : Nat) (k : Int) : ℚ := (if neg then -1 else 1) * (m : ℚ) * (2 : ℚ) ^ k

/-- v is the exact value of accumulator element (i, j) with its scales R and C, flushed FP32 encodings, under a header, and e its exceptions (R167, R308): +0
without INIT, a NaN for an exponent 0xFF or a scale that is one, NV for an infinite scale of an exact zero, else the product of R167. -/
def DrainsTo (h : Nat) (acc : Int) (i j R C : Nat) (v : FpVal) (e : BitVec 5) : Prop :=
  let ea : Nat := h / 2 ^ (32 + 8 * (i / 16)) % 2 ^ 8
  let eb : Nat := h / 2 ^ (48 + 8 * (j / 16)) % 2 ^ 8
  let sign := decide (acc < 0) != (negOf fmtFp32 R != negOf fmtFp32 C)
  let q := (acc : ℚ) * (2 : ℚ) ^ ((ea : Int) + (eb : Int) - (h / 2 ^ 14 % 8 : Nat) - (h / 2 ^ 17 % 8 : Nat) - 254) * valueOf fmtFp32 R * valueOf fmtFp32 C
  if h % 2 = 0 then v = .fin false 0 0 ∧ e = 0
  else if ea = 0xFF ∨ eb = 0xFF then isNan v = true ∧ e = 0
  else if NanCode fmtFp32 R ∨ NanCode fmtFp32 C then isNan v = true ∧ e = nvOf fmtFp32 [R, C]
  else if InfCode fmtFp32 R ∨ InfCode fmtFp32 C then
    (if acc = 0 ∨ ZeroCode fmtFp32 R ∨ ZeroCode fmtFp32 C then isNan v = true ∧ e = fpNV else v = .inf sign ∧ e = 0)
  else e = 0 ∧ ∃ m k, v = .fin sign m k ∧ finOf sign m k = q

/-- r is an exact value rounded to a format, FTZ acting on it (R167). -/
def RoundsValue (f : FpFmt) (rnd : Nat) (ftz : Bool) (v : FpVal) (r : Nat × BitVec 5) : Prop :=
  match v with
  | .nan _ => r = (f.nan, 0)
  | .inf n => r = (fpSign f n + f.infBits, 0)
  | .fin n m k => (m = 0 → r = (fpSign f n, 0)) ∧ (m ≠ 0 → ∃ z, RoundsTo f rnd (finOf n m k) z ∧ r = flushedResult ftz f z)

/-! ## Special registers, relations, masks -/

/-- The special registers by number that RDSR reads without the clock (R242): the value and the registers it takes. -/
def specialTable (s : State) (t : Team) : List (Nat × Nat × Nat) :=
  [ (0, t.fpst.toNat, 1), (1, t.cfg.spbase, 1), (2, t.cfg.spsize, 1), (3, t.cfg.fsbase, 2), (4, t.cfg.fssize, 1), (5, (s.core t.cfg.core).hintdrop.toNat, 1),
    (7, t.cfg.ctx % 256, 1) ]

/-- Whether a relation of CMP's codes 0 to 5 holds of two integers (R247). -/
def relates (code : Nat) (x y : Int) : Bool :=
  if code = 0 then decide (x = y) else if code = 1 then decide (x ≠ y) else if code = 2 then decide (x < y) else if code = 3 then decide (x ≤ y)
  else if code = 4 then decide (y < x) else decide (y ≤ x)

/-- The mask instructions that write a mask, with the bit each gives a LIVE slot (R249): masks read as zero at slots that are not LIVE. -/
def maskTable (t : Team) (d a b : Nat) : List (Instr × (Nat → Bool)) :=
  let M (m k : Nat) : Bool := decide (m < 8) && ((masksOf t).toList[m]?.getD 0).getLsbD k && t.frame.getLsbD k
  [ (.mand d a b, fun k => M a k && M b k), (.mor d a b, fun k => M a k || M b k), (.mxor d a b, fun k => M a k != M b k), (.mnot d a, fun k => !M a k),
    (.mandn d a b, fun k => M a k && !M b k), (.mmov d a, fun k => M a k), (.mall d, fun k => t.exec.getLsbD k) ]

/-! ## Steps without an instruction word -/

/-- A packet of a TYPE stands at a ring's RPTR, has passed checks 1 to 5 of R342, which left the state s1, and may start (R341, R343). -/
structure PacketReady (s : State) (k ty : Nat) (r : CmdRing) (bs : List Byte) (s1 : State) : Prop where
  running : s.trust.halted = false
  packet : nextPacket s k = (.ok bs, s1)
  ring : tblGet s1.rings k = some r
  kind : pf bs 0 1 = ty
  alone : pktBarrier bs = true ∨ ty = 4 ∨ ty = 9 → r.flight = []

/-- The packets by TYPE (R343). -/
def packetSteps (k : Nat) : List (Instr × Nat) :=
  [(.launch k, 1), (.cardPacket k, 3), (.signal k, 4), (.wait k, 5), (.modelLoad k, 6), (.modelUnload k, 6), (.modelPrio k, 7), (.layerPrefetch k, 8),
   (.fencePacket k, 9)]

/-- The message m heads the inbox of a device that runs and has booted; rest follows it. -/
structure AtHead (s : State) (m : UrfelMsg) (rest : List UrfelMsg) : Prop where
  running : s.trust.halted = false
  booted : s.trust.bootFail = false
  head : s.inbox = m :: rest

/-- It is from an admitted endpoint, in a context bound to that endpoint where it needs one (R391). -/
def Admitted (s : State) (m : UrfelMsg) : Prop :=
  s.trust.admitted.contains m.sender = true ∧ (needsCtx m = true → ctxBound s m = true)

/-- The messages that are subject to admission, with the test that names them (R390 to R393). -/
def messageKinds : List (Instr × (UrfelMsg → Bool)) :=
  [(.commandAppend, isOp 1), (.memWrite, isOp 2), (.memRead, isOp 3), (.hostRead, isOp 6), (.reservedUrfelMessage, isReservedMsg)] ++
  [(.ringCreate, isManage 1), (.ringResume, isManage 2), (.ringHalt, isManage 3), (.poolGive, isManage 4), (.ctxBind, isManage 5), (.peerSet, isManage 6),
   (.exportSet, isManage 7), (.gateLoad, isManage 8), (.expertBuf, isManage 9), (.saveTeam, isManage 10), (.sliceWindow, isManage 11),
   (.restoreTeam, isManage 12), (.invalidate, isManage 13), (.demandSet, isManage 14), (.faultReply, isManage 15)]

/-- A MANAGE message of a SUB heads the inbox, admitted, with a payload of a size and fields that R393 accepts. -/
structure ManageReady (s : State) (m : UrfelMsg) (rest : List UrfelMsg) (sub len : Nat) (good : UrfelMsg → Bool) : Prop where
  first : AtHead s m rest
  admitted : Admitted s m
  header : headerBad m = false
  kind : isManage sub m = true
  size : m.length = len
  fields : good m = true

/-- The MANAGE messages of a fixed size, with the test on their fields (R393). -/
def manageTable : List (Instr × Nat × Nat × (UrfelMsg → Bool)) :=
  [(.ringResume, 2, 0, fun _ => true), (.ringHalt, 3, 0, fun _ => true), (.poolGive, 4, 8, poolGood), (.ctxBind, 5, 8, bindGood), (.peerSet, 6, 32, peerGood),
   (.exportSet, 7, 16, exportGood), (.gateLoad, 8, 8, gateGood), (.expertBuf, 9, 32, bufGood), (.saveTeam, 10, 16, saveGood), (.sliceWindow, 11, 8, windowGood),
   (.restoreTeam, 12, 16, fun m => saveGood m && decide (msgField m 8 1 = 0)), (.invalidate, 13, 8, invalidateGood), (.demandSet, 14, 16, demandGood),
   (.faultReply, 15, 16, replyGood)]

/-- The alarms with their codes and default levels (R413). -/
def alarmTable : List (Instr × Nat × Nat) :=
  [(.voltageOutOfWindow, 1, 1), (.clockOutOfRange, 2, 1), (.junction105c, 3, 0), (.junction115c, 4, 1), (.tamper, 5, 2), (.integrityFaultBurst, 6, 0),
   (.keyMisuse, 7, 2)]

/-- The unit object that a team's operation finds: where it has reached the slice before and waits there, the one it found then (R42); else the one at its
address. -/
def UnitFound (op : UnitOp) (s : State) (u : Nat) (t : Team) (va pa : Nat) (s1 : State) : Prop :=
  let before := s.unitWait.find? (fun w => decide (w.who = u) && decide (w.op = op))
  (∀ w, before = some w → pa = w.pa ∧ s1 = s) ∧ (before = none → ∃ m, unitReach s t.cfg va 64 = (.ok m, s1) ∧ pa = m.pa)

/-- No team is parked. -/
def NoneParked (s : State) : Prop := ∀ ut ∈ s.teams, ut.2.parked = none

/-- No unit object has a record that covers one of n bytes at home (R43). -/
def PlainBytes (s : State) (pa n : Nat) : Prop := ∀ k, k < n → unitObject s (pa + k) = none

/-! ## Invariants -/

/-- Every memory is in its canonical form: home memory and every scratchpad. -/
def Canonical (s : State) : Prop := Memory.wf s.mem = true ∧ ∀ c ∈ s.cores, Memory.wf c.2.scratch = true

/-- Every slice's window is one of the four sizes (R27). -/
def WaysLegal (s : State) : Prop := ∀ g ∈ s.slices, g.2.ways ≤ 3

end Sys2Proof.Machine
end

