-- ==== Sys2Proof/Certificates/Slice0/Obligations.lean ====
section
/-! DEFINITION. The statements for the provers. Each docstring cites the rules it formalises; a statement that rests on a choice of the model names the
log entry. -/

open Sys2Proof Sys2Proof.Machine

/-! ## Moves, MODE and the special registers (R218, R220, R239 to R243) -/

/-- What an operand reads in a lane (R105, R218, R220): the special operands' values; a literal in a 64-bit position is sign-extended and a special operand
zero-extended; a register group reads as its registers, the lowest least significant. That an instruction that is performed again whole reads the registers
captured when it parked is the model's reading of R377 (log 14). -/
def Obligations.OperandsReadAsR220Says : Prop :=
  ∀ (t : Team) (lit : Word) (k : Nat),
    (∀ n, n = 1 ∨ n = 2 →
      readVal t lit k .zero n = 0 ∧ readVal t lit k .laneid n = k % 2 ^ 32 ∧ readVal t lit k .spanlane n = k % t.cfg.span % 2 ^ 32 ∧
      readVal t lit k .subidx n = tblGetD t.subidx k 0 % 2 ^ 32 ∧ readVal t lit k .nwide n = t.nwide % 2 ^ 32 ∧
      readVal t lit k .teamid n = t.cfg.teamid % 2 ^ 32 ∧ readVal t lit k .coreid n = t.cfg.core % 2 ^ 32) ∧
    readVal t lit k .lit 1 = lit.toNat ∧ readVal t lit k .lit 2 = (lit.signExtend 64).toNat ∧
    (∀ (r : Sel) (n : Nat), isReg r = true → t.captured = none → readVal t lit k r n = numOf t k r n) ∧
    (∀ (r : Sel) (n : Nat) (x : Captured), isReg r = true → t.captured = some x →
      readVal t lit k r n = numOf { t with sregs := x.sregs, vregs := x.vregs } k r n)

/-- MOV, MOV2 and MOV4 copy 32, 64 and 128 bits, GETMODE writes MODE (R239), in every ACTIVE lane, or once for an s destination (R106). SEL (R240): EXEC alone
governs it, and the guard bit of the lane chooses the source; an s destination is ILLEGAL_OP. UNIF (R243): the value of the lowest ACTIVE slot, 0 when there is
none, the source's own value when it is uniform; a v or w destination is ILLEGAL_OP. NOP (R239) changes nothing. -/
def Obligations.MovesSelectionsAndNop : Prop :=
  (∀ (s : State) (u : Nat) (t : Team) (c : Clause) (d a : Sel),
     (∀ i n, (i, n) ∈ [(Instr.mov d a, 1), (.mov2 d a, 2), (.mov4 d a, 4)] → Issuing s u t c →
       Legal i t false anyType [dst d n, src a n] → Unpoisoned t [dst d n, src a n] (lanesOn t) →
       Completes i s u t (lanesOn t) d n (fun k => readVal t c.lit k a n) 0) ∧
     (Issuing s u t c → Legal (.getmode d) t false anyType [dst d 1] → Completes (.getmode d) s u t (lanesOn t) d 1 (fun _ => t.mode.toNat) 0)) ∧
  (∀ (s : State) (u : Nat) (t : Team) (c : Clause) (d a b : Sel), Issuing s u t c →
     let n := typeRegs (modeType t.mode)
     let ops := [dst d n, src a n, src b n, src .laneid 1]
     (Legal (.sel d a b) t false anyType ops → Unpoisoned t ops (lanesExec t) →
       Completes (.sel d a b) s u t (lanesExec t) d n (fun k => readVal t c.lit k (if (guardMask t).getLsbD k then a else b) n) 0) ∧
     (isSreg d = true → Traps (.sel d a b) s u .illegalOp t.exec)) ∧
  (∀ (s : State) (u : Nat) (t : Team) (c : Clause) (d a : Sel), Issuing s u t c → Legal (.unif d a) t false anyType [named a 1] →
     (∀ r, d = .s r → isPerLane a = false → Completes (.unif d a) s u t (lanesOn t) d 1 (fun _ => readVal t c.lit 0 a 1) 0) ∧
     (∀ r, d = .s r → isPerLane a = true → slotsOf t.cfg.capacity (lanesOn t) = [] → Completes (.unif d a) s u t (lanesOn t) d 1 (fun _ => 0) 0) ∧
     (∀ r k rest, d = .s r → isPerLane a = true → slotsOf t.cfg.capacity (lanesOn t) = k :: rest → lanePoisoned t a 1 k = false →
       Completes (.unif d a) s u t (lanesOn t) d 1 (fun _ => readVal t c.lit k a 1) 0) ∧
     (isSreg d = false → Traps (.unif d a) s u .illegalOp (lanesExec t))) ∧
  (∀ (s : State) (u : Nat) (t : Team) (c : Clause), Issuing s u t c → exec .nop s = .next (stepOn s u))

/-- SETMODE (R112, R241) replaces MODE by a legal value and changes nothing else; a reserved TYPE, RND or BFPW, a nonzero bit in 31:19, or GNEG with GUARD 0 is
ILLEGAL_MODE, and the machine at the trap is the machine before it. RDSR and WRSR (R242): RDSR writes the register of the number; CYCLE, whose advance the model
leaves open (log 7), is read after a count that is no lower; WRSR replaces FPST's bits 4:0 or HINTDROP; every other use is ILLEGAL_OP. -/
def Obligations.ModeAndSpecialRegisters : Prop :=
  (∀ (s : State) (u : Nat) (t : Team) (c : Clause) (a : Sel), Issuing s u t c → Legal (.setmode a) t false anyType [src a 1] →
     let m : Word := BitVec.ofNat 32 (readVal t c.lit 0 a 1)
     let legal : Prop := (m.extractLsb 3 0).toNat ≤ 13 ∧ (m.extractLsb 6 4).toNat ≤ 4 ∧ (m.extractLsb 15 13).toNat ≠ 0 ∧ (m.extractLsb 31 19).toNat = 0 ∧
       ¬ (m.getLsbD 12 = true ∧ (m.extractLsb 11 9).toNat = 0)
     (legal → exec (.setmode a) s = .next (stepOn (s.setTeam u { t with mode := m }) u)) ∧
     (¬ legal → Traps (.setmode a) s u .illegalMode (lanesExec t))) ∧
  (∀ (s : State) (u : Nat) (t : Team) (c : Clause) (d a b : Sel), Issuing s u t c →
     let num := readVal t c.lit 0 a 1
     let val := readVal t c.lit 0 b 1
     (Legal (.rdsr d a) t false anyType [dst d 1, src a 1] →
       (∀ k v n, (k, v, n) ∈ specialTable s t → num = k → opndOk t.cfg.budget (dst d n) = true →
         Completes (.rdsr d a) s u t (lanesOn t) d n (fun _ => v) 0) ∧
       (num = 6 → opndOk t.cfg.budget (dst d 2) = true →
         ∃ y : BitVec 64, (s.core t.cfg.core).cycle ≤ y ∧ ∃ t1,
           exec (.rdsr d a) s = .next (stepOn (({ s.setCore t.cfg.core { s.core t.cfg.core with cycle := y } with fresh := s.fresh + 1 } : State).setTeam u t1) u) ∧
           Wrote t t1 d 2 (lanesFor t d (lanesOn t)) (fun _ => y.toNat) 0) ∧
       (8 ≤ num → Traps (.rdsr d a) s u .illegalOp (lanesExec t)) ∧
       (num = 3 ∨ num = 6 → opndOk t.cfg.budget (dst d 2) = false → Traps (.rdsr d a) s u .illegalOp (lanesExec t))) ∧
     (Legal (.wrsr a b) t false anyType [src a 1, src b 1] →
       (num = 0 → exec (.wrsr a b) s = .next (stepOn (s.setTeam u { t with fpst := BitVec.ofNat 5 val }) u)) ∧
       (num = 5 → exec (.wrsr a b) s =
         .next (stepOn (s.setCore t.cfg.core { s.core t.cfg.core with hintdrop := BitVec.ofNat 32 val }) u)) ∧
       (num ≠ 0 → num ≠ 5 → Traps (.wrsr a b) s u .illegalOp (lanesExec t))))

/-! ## Integers, addresses, comparison (R244 to R248) -/

/-- ADD, SUB, MUL, MULHI, MIN, MAX, DIV, REM, SHL, SHR, ROT, AND, OR, XOR, ANDN, ABS, NEG, NOT, POPC, CLZ, CTZ, BREV (R244, R245): every element of every ACTIVE
lane, or of the one act of an s destination, holds the table's exact result. LEA0, LEA2 and LEA3 (R248): d ← (a + (Sext(b, 64) << k)) mod 2^64, under every
TYPE. MAD, BFE and BFI (R244, R246): MAD adds the product to the destination's element; BFE and BFI take their control word from the low 32 bits of b, the same
for every element, and leave, or give, what R246 says when it names no bit. -/
def Obligations.IntegerResults : Prop :=
  (∀ (s : State) (u : Nat) (t : Team) (c : Clause) (d a b : Sel) (i : Instr) (g : Nat → Bool → Nat → Nat → Nat), (i, g) ∈ integerBinary d a b →
     Issuing s u t c →
     let ty := modeType t.mode
     let n := typeRegs ty
     let ops := [dst d n, src a n, src b n]
     Legal i t false isIntType ops → Unpoisoned t ops (lanesOn t) →
     ∃ val, Completes i s u t (lanesOn t) d n val 0 ∧ ∀ k, Holds ty (val k) (fun e =>
       g ty (t.mode.getLsbD 8) (elemOf ty e (readVal t c.lit k a n)) (elemOf ty e (readVal t c.lit k b n)))) ∧
  (∀ (s : State) (u : Nat) (t : Team) (c : Clause) (d a : Sel) (i : Instr) (g : Nat → Bool → Nat → Nat), (i, g) ∈ integerUnary d a →
     Issuing s u t c →
     let ty := modeType t.mode
     let n := typeRegs ty
     let ops := [dst d n, src a n]
     Legal i t false isIntType ops → Unpoisoned t ops (lanesOn t) →
     ∃ val, Completes i s u t (lanesOn t) d n val 0 ∧ ∀ k, Holds ty (val k) (fun e => g ty (t.mode.getLsbD 8) (elemOf ty e (readVal t c.lit k a n)))) ∧
  (∀ (s : State) (u : Nat) (t : Team) (c : Clause) (d a b : Sel) (i : Instr) (sh : Nat), (i, sh) ∈ [(Instr.lea0 d a b, 0), (.lea2 d a b, 2), (.lea3 d a b, 3)] →
     Issuing s u t c → Legal i t false anyType [dst d 2, src a 2, src b 1] → Unpoisoned t [dst d 2, src a 2, src b 1] (lanesOn t) →
     Completes i s u t (lanesOn t) d 2
       (fun k => (BitVec.ofNat 64 (readVal t c.lit k a 2) + (BitVec.ofNat 32 (readVal t c.lit k b 1)).signExtend 64 <<< sh).toNat) 0) ∧
  (∀ (s : State) (u : Nat) (t : Team) (c : Clause) (d a b : Sel), Issuing s u t c →
    let ty := modeType t.mode
    let n := typeRegs ty
    let A (k e : Nat) : Nat := elemOf ty e (readVal t c.lit k a n)
    let B (k e : Nat) : Nat := elemOf ty e (readVal t c.lit k b n)
    let D (k e : Nat) : Nat := elemOf ty e (readVal t c.lit k d n)
    let ctl (k : Nat) : Nat := readVal t c.lit k b n % 2 ^ 32
    (Legal (.mad d a b) t false isIntType [srcdst d n, src a n, src b n] → Unpoisoned t [srcdst d n, src a n, src b n] (lanesOn t) →
      ∃ val, Completes (.mad d a b) s u t (lanesOn t) d n val 0 ∧ ∀ k, Holds ty (val k) (fun e =>
        perhapsClamped ty (t.mode.getLsbD 8) (numberOf ty (A k e) * numberOf ty (B k e) + numberOf ty (D k e)))) ∧
    (Legal (.bfe d a b) t false isIntType [dst d n, src a n, src b n] → Unpoisoned t [dst d n, src a n, src b n] (lanesOn t) →
      ∃ val, Completes (.bfe d a b) s u t (lanesOn t) d n val 0 ∧ ∀ k, Holds ty (val k) (fun e =>
        match controlField ty (ctl k) with
        | none => 0
        | some (p, q) => fieldOf ty p q (A k e))) ∧
    (Legal (.bfi d a b) t false isIntType [srcdst d n, src a n, src b n] → Unpoisoned t [srcdst d n, src a n, src b n] (lanesOn t) →
      ∃ val, Completes (.bfi d a b) s u t (lanesOn t) d n val 0 ∧ ∀ k e j, e < elemCount ty → j < elemWidth ty →
        (elemOf ty e (val k)).testBit j =
          match controlField ty (ctl k) with
          | none => (D k e).testBit j
          | some (p, q) => if p ≤ j ∧ j < p + q then (A k e).testBit (j - p) else (D k e).testBit j))

/-- CMP (R247, R191): the bit of each ACTIVE lane that is LIVE becomes C(code, A, B), every other bit of every mask keeps its value, and only FPST beside
the mask changes. Under an integer TYPE C is numeric order over every element, with NE the complement of EQ, and FPST keeps its value; under a floating-point TYPE
it is IEEE order over every element after FTZ, NE the complement of EQ, a NaN making only NE and UNO true, and NV is set by a signalling NaN under every code and by
any NaN under LT, LE, GT and GE; under a ringset TYPE it compares the two real sets in any valid ring (R151). -/
def Obligations.CmpWritesOneBitPerLane : Prop :=
  ∀ (s : State) (u : Nat) (t : Team) (c : Clause) (code m : Nat) (a b : Sel), Issuing s u t c →
    let ty := modeType t.mode
    let n := typeRegs ty
    let ops := [src a n, src b n]
    let C (k : Nat) : Bool × BitVec 5 := compareVal code t.mode (readVal t c.lit k a n) (readVal t c.lit k b n)
    (Legal (.cmp code m a b) t false (cmpOk code) ops → Unpoisoned t ops (lanesOn t) →
      ∃ ms : Vector Mask 8,
        exec (.cmp code m a b) s = .next (stepOn (s.setTeam u { t with masks := ms, fpst := t.fpst ||| flagsOf (slotsOf t.cfg.capacity (lanesOn t)) (fun k => (C k).2) }) u) ∧
        ∀ (j k : Nat) (hj : j < 8), k < 1024 → ms[j].getLsbD k =
          if j = m ∧ t.frame.getLsbD k = true ∧ k ∈ slotsOf t.cfg.capacity (lanesOn t) then (C k).1 else t.masks[j].getLsbD k) ∧
    (∀ k, isIntType ty = true → code ≤ 5 →
      (C k).2 = 0 ∧
      ((C k).1 = true ↔
        if code = 1 then ∃ e, e < elemCount ty ∧ numberOf ty (elemOf ty e (readVal t c.lit k a n)) ≠ numberOf ty (elemOf ty e (readVal t c.lit k b n))
        else ∀ e, e < elemCount ty →
          relates code (numberOf ty (elemOf ty e (readVal t c.lit k a n))) (numberOf ty (elemOf ty e (readVal t c.lit k b n))) = true)) ∧
    (∀ k, isFpType ty = true → code ≤ 7 →
      let f := fmtOfType ty
      let A (e : Nat) : Nat := flushed (modeFtz t.mode) f (elemOf ty e (readVal t c.lit k a n))
      let B (e : Nat) : Nat := flushed (modeFtz t.mode) f (elemOf ty e (readVal t c.lit k b n))
      ((C k).1 = true ↔ if code = 1 then ∃ e, e < elemCount ty ∧ ¬ FpRelates 0 f (A e) (B e) else ∀ e, e < elemCount ty → FpRelates code f (A e) (B e)) ∧
      (((∃ e, e < elemCount ty ∧ nvOf f [A e, B e] ≠ 0) ∨ (2 ≤ code ∧ code ≤ 5 ∧ ∃ e, e < elemCount ty ∧ (NanCode f (A e) ∨ NanCode f (B e)))) →
        (C k).2 = fpNV) ∧
      (¬ ((∃ e, e < elemCount ty ∧ nvOf f [A e, B e] ≠ 0) ∨ (2 ≤ code ∧ code ≤ 5 ∧ ∃ e, e < elemCount ty ∧ (NanCode f (A e) ∨ NanCode f (B e)))) →
        (C k).2 = 0)) ∧
    (∀ k ps, isRingType ty = true → code ≤ 12 → pointsValid (ty - 11) ps = true →
      (C k).2 = 0 ∧ ((C k).1 = true ↔ RingRelates code (InElem (ty - 11) ps (readVal t c.lit k a n)) (InElem (ty - 11) ps (readVal t c.lit k b n))))

/-! ## Masks (R249, R250, R191) -/

/-- MAND, MOR, MXOR, MNOT, MANDN, MMOV, MALL and MSET (R249): the bits of the mask at LIVE slots, whatever EXEC, ACTIVE and the guard hold; nothing else
changes. MSET replaces word b, and nothing from word 32 on. MPOPC, MFIRST and MGET: the number of set bits, the lowest set slot or all ones, word b or 0 from
word 32 on, each of the bits at LIVE slots; a v or w destination is ILLEGAL_OP. MSAVE and MLOAD (R250) in the team's own scratchpad window: MSAVE stores 128
bytes, 0 for every slot that is not LIVE; MLOAD's bits reach the mask late, on the OTHERS flag, at the slots LIVE then. The masks that an instruction reads are
those captured when it parked (log 14); that MLOAD takes its bytes at issue is the model's choice (log 4). -/
def Obligations.MaskInstructions : Prop :=
  (∀ (s : State) (u : Nat) (t : Team) (c : Clause) (d : Nat), Issuing s u t c →
     (∀ a b i f, (i, f) ∈ maskTable t d a b → i.wellFormed = true →
       ∃ ms : Vector Mask 8, exec i s = .next (stepOn (s.setTeam u { t with masks := ms }) u) ∧
         ∀ (j k : Nat) (hj : j < 8), k < 1024 → ms[j].getLsbD k = if j = d ∧ t.frame.getLsbD k = true then f k else t.masks[j].getLsbD k) ∧
     (∀ a b, Legal (.mset d a b) t false anyType [src a 1, src b 1] →
       let w := readVal t c.lit 0 b 1
       ∃ ms : Vector Mask 8, exec (.mset d a b) s = .next (stepOn (s.setTeam u { t with masks := ms }) u) ∧
         ∀ (j k : Nat) (hj : j < 8), k < 1024 → ms[j].getLsbD k =
           if j = d ∧ t.frame.getLsbD k = true ∧ k / 32 = w then (readVal t c.lit 0 a 1).testBit (k % 32) else t.masks[j].getLsbD k)) ∧
  (∀ (s : State) (u : Nat) (t : Team) (c : Clause) (d : Sel) (a : Nat) (b : Sel) (hm : a < 8), Issuing s u t c →
     let M : Mask := (masksOf t)[a] &&& t.frame
     (Legal (.mpopc d a) t false anyType [dst d 1] →
       (isSreg d = true → Completes (.mpopc d a) s u t (lanesOn t) d 1 (fun _ => ((List.range 1024).filter (fun k => M.getLsbD k)).length) 0) ∧
       (isSreg d = false → Traps (.mpopc d a) s u .illegalOp (lanesExec t))) ∧
     (Legal (.mfirst d a) t false anyType [dst d 1] →
       (isSreg d = true → (M = 0 → Completes (.mfirst d a) s u t (lanesOn t) d 1 (fun _ => 0xFFFFFFFF) 0) ∧
         (∀ k, M.getLsbD k = true → (∀ j, j < k → M.getLsbD j = false) → Completes (.mfirst d a) s u t (lanesOn t) d 1 (fun _ => k) 0)) ∧
       (isSreg d = false → Traps (.mfirst d a) s u .illegalOp (lanesExec t))) ∧
     (Legal (.mget d a b) t false anyType [dst d 1, src b 1] →
       (isSreg d = true → Completes (.mget d a b) s u t (lanesOn t) d 1 (fun _ => M.toNat / 2 ^ (32 * readVal t c.lit 0 b 1) % 2 ^ 32) 0) ∧
       (isSreg d = false → Traps (.mget d a b) s u .illegalOp (lanesExec t)))) ∧
  (∀ (s : State) (u : Nat) (t : Team) (c : Clause) (m : Nat) (a : Sel) (off : Nat) (hm : m < 8), Issuing s u t c → slicePending t = false →
    InWindow t (readVal t c.lit 0 a 2) off 128 → off % 16 = 0 →
    let core := t.cfg.core
    (Legal (.msave m a) t false anyType [src a 2] → ∃ s2, exec (.msave m a) s = .next (stepOn s2 u) ∧
      (∀ p, Memory.read (s2.core core).scratch p =
        if t.cfg.spbase + off ≤ p ∧ p < t.cfg.spbase + off + 128 then BitVec.ofNat 8 (((masksOf t)[m] &&& t.frame).toNat / 2 ^ (8 * (p - (t.cfg.spbase + off))))
        else Memory.read (s.core core).scratch p) ∧
      (∀ x, x ≠ core → s2.core x = s.core x) ∧ ({ s2 with cores := [] } : State) = { s with cores := [] }) ∧
    (Legal (.mload m a) t true anyType [src a 2] → (s.core core).poisonScratch = [] → flagCount t c.others ≠ 63 →
      ∃ t1 o, exec (.mload m a) s = .next (stepOn (({ s with nextId := s.nextId + 1 } : State).setTeam u t1) u) ∧ LateAdded t t1 o s.nextId c.others ∧
        o.wait = .none ∧ ∀ (t2 : Team) (j k : Nat) (hj : j < 8), k < 1024 → (finishLate t2 o).masks[j].getLsbD k =
          if j = m ∧ t2.frame.getLsbD k = true
          then (natOfBytes (Memory.reads (s.core core).scratch (t.cfg.spbase + off) 128)).testBit k else t2.masks[j].getLsbD k))

/-! ## Floating point (R122 to R128, R251 to R259) -/

/-- RoundTo (R123): a nonzero exact sum, product, fused sum or quotient of finite operands is rounded once under RND; an exact zero sum of opposite signs
is +0, −0 under RDN, and a zero product takes the sign of the product. NaNs and infinities (R125, R253): a NaN source gives the canonical NaN, NV when it is
signalling; ∞ − ∞ and 0 × ∞ give it with NV, the latter whatever the addend of a fused sum is; every other infinite sum and product is an infinity. FSUB is the sum
with the other sign of its second source, FNMA the fused sum with the other sign of its first. FTZ (R124) makes subnormal sources and results zeros of their sign,
a result with UF and NX. -/
def Obligations.FloatArithmeticRoundsOnce : Prop :=
  (∀ (f : FpFmt) (rnd x y z : Nat), f ∈ formats → rnd ≤ 4 → Finite f x → Finite f y → Finite f z →
    let X := fpDecode f x
    let Y := fpDecode f y
    let Z := fpDecode f z
    let neg (v : Nat) : Prop := f.signBit ≤ v
    let p := negOf f x != negOf f y
    (valueOf f x + valueOf f y ≠ 0 → RoundsTo f rnd (valueOf f x + valueOf f y) (fpAddV f rnd X Y)) ∧
    (valueOf f x + valueOf f y = 0 →
      ((neg x ↔ ¬ neg y) → fpAddV f rnd X Y = (if rnd = 3 then f.signBit else 0, 0)) ∧ (neg x → neg y → fpAddV f rnd X Y = (f.signBit, 0)) ∧
      (¬ neg x → ¬ neg y → fpAddV f rnd X Y = (0, 0))) ∧
    (valueOf f x * valueOf f y ≠ 0 → RoundsTo f rnd (valueOf f x * valueOf f y) (fpMulV f rnd X Y)) ∧
    (valueOf f x * valueOf f y = 0 → fpMulV f rnd X Y = (fpSign f p, 0)) ∧
    (valueOf f x * valueOf f y + valueOf f z ≠ 0 → RoundsTo f rnd (valueOf f x * valueOf f y + valueOf f z) (fpFmaV f rnd X Y Z)) ∧
    (valueOf f x * valueOf f y + valueOf f z = 0 →
      fpFmaV f rnd X Y Z = (if valueOf f z = 0 ∧ p = negOf f z then fpSign f p else if rnd = 3 then f.signBit else 0, 0)) ∧
    (valueOf f x ≠ 0 → valueOf f y ≠ 0 → RoundsTo f rnd (valueOf f x / valueOf f y) (fpDivV f rnd X Y))) ∧
  (∀ (f : FpFmt) (rnd x y z : Nat), f ∈ formats → rnd ≤ 4 → x < 2 * f.signBit → y < 2 * f.signBit → z < 2 * f.signBit →
    let X := fpDecode f x
    let Y := fpDecode f y
    let Z := fpDecode f z
    let p := negOf f x != negOf f y
    let bad : Prop := (InfCode f x ∧ ZeroCode f y) ∨ (ZeroCode f x ∧ InfCode f y)
    (NanCode f x ∨ NanCode f y → fpAddV f rnd X Y = (f.nan, nvOf f [x, y]) ∧ fpMulV f rnd X Y = (f.nan, nvOf f [x, y])) ∧
    (¬ NanCode f x → ¬ NanCode f y →
      (InfCode f x → fpAddV f rnd X Y = if InfCode f y ∧ p = true then (f.nan, fpNV) else (x, 0)) ∧
      (¬ InfCode f x → InfCode f y → fpAddV f rnd X Y = (y, 0)) ∧
      (InfCode f x ∨ InfCode f y → fpMulV f rnd X Y = if ZeroCode f x ∨ ZeroCode f y then (f.nan, fpNV) else (fpSign f p + f.infBits, 0))) ∧
    fpSubV f rnd X Y = fpAddV f rnd X (fpDecode f (y ^^^ f.signBit)) ∧
    (bad → fpFmaV f rnd X Y Z = (f.nan, fpNV)) ∧
    (¬ bad → NanCode f x ∨ NanCode f y ∨ NanCode f z → fpFmaV f rnd X Y Z = (f.nan, nvOf f [x, y, z])) ∧
    (¬ bad → ¬ NanCode f x → ¬ NanCode f y → ¬ NanCode f z →
      (InfCode f x ∨ InfCode f y → fpFmaV f rnd X Y Z = if InfCode f z ∧ negOf f z ≠ p then (f.nan, fpNV) else (fpSign f p + f.infBits, 0)) ∧
      (¬ InfCode f x → ¬ InfCode f y → InfCode f z → fpFmaV f rnd X Y Z = (z, 0)))) ∧
  (∀ (f : FpFmt) (mode : Word) (x y z : Nat), f ∈ formats → x < 2 * f.signBit → y < 2 * f.signBit → z < 2 * f.signBit →
    let rnd := modeRnd mode
    let D (v : Nat) : FpVal := fpDecode f (flushed (modeFtz mode) f v)
    (∀ op, (∀ r a b, (op f r a b : Nat × BitVec 5).1 < 2 * f.signBit) → fpBin op f mode x y = flushedResult (modeFtz mode) f (op f rnd (D x) (D y))) ∧
    (∀ op, (∀ r a, (op f r a : Nat × BitVec 5).1 < 2 * f.signBit) → fpUn op f mode x = flushedResult (modeFtz mode) f (op f rnd (D x))) ∧
    (∀ r a b, (fpAddV f r a b).1 < 2 * f.signBit ∧ (fpSubV f r a b).1 < 2 * f.signBit ∧ (fpMulV f r a b).1 < 2 * f.signBit ∧
      (fpDivV f r a b).1 < 2 * f.signBit) ∧
    fpFmaE false f mode x y z = flushedResult (modeFtz mode) f (fpFmaV f rnd (D x) (D y) (D z)) ∧
    fpFmaE true f mode x y z = fpFmaE false f mode (x ^^^ f.signBit) y z)

/-- FRINT and FLDEXP (R253), FDIV, FSQRT, FRCP, FRSQ, FEXP2, FLOG2, FSIN, FCOS and FTANH (R255), FDOT2 (R256) on elements: FRINT gives the integer that RND picks
with its source's sign, NX when it differs; FLDEXP the source times a power of two, rounded once; square roots, reciprocals and their roots are rounded once, and so
are the powers of two of integers and the logarithms of powers of two; zeros, infinities, negative sources and NaNs give what R255 lists. FDOT2 rounds its exact sum
once to FP32, a NaN, an infinity or an invalid term deciding before. -/
def Obligations.FloatRootsScalingAndSpecialInputs : Prop :=
  (∀ (f : FpFmt) (rnd x y : Nat), f ∈ formats → rnd ≤ 4 → x < 2 * f.signBit → y < 2 * f.signBit →
    let X := fpDecode f x
    let Y := fpDecode f y
    let p := negOf f x != negOf f y
    let v := valueOf f x
    let one := f.bias * 2 ^ f.fb
    (NanCode f x ∨ NanCode f y → fpDivV f rnd X Y = (f.nan, nvOf f [x, y])) ∧
    (¬ NanCode f x → ¬ NanCode f y →
      (InfCode f x → fpDivV f rnd X Y = if InfCode f y then (f.nan, fpNV) else (fpSign f p + f.infBits, 0)) ∧
      (¬ InfCode f x → InfCode f y → fpDivV f rnd X Y = (fpSign f p, 0)) ∧
      (¬ InfCode f x → ZeroCode f y → fpDivV f rnd X Y = if ZeroCode f x then (f.nan, fpNV) else (fpSign f p + f.infBits, fpDZ)) ∧
      (ZeroCode f x → ¬ ZeroCode f y → ¬ InfCode f y → fpDivV f rnd X Y = (fpSign f p, 0))) ∧
    (NanCode f x →
      (∀ g ∈ [fpSqrtV, fpRcpV, fpRsqV, fpExp2V, fpLog2V, fpSinV, fpCosV, fpTanhV], g f rnd X = (f.nan, nvOf f [x])) ∧
      fpRint f rnd x = (f.nan, nvOf f [x]) ∧ ∀ k, fpLdexp f rnd x k = (f.nan, nvOf f [x])) ∧
    (ZeroCode f x →
      fpSqrtV f rnd X = (x, 0) ∧ fpRcpV f rnd X = (fpSign f (negOf f x) + f.infBits, fpDZ) ∧ fpRsqV f rnd X = (fpSign f (negOf f x) + f.infBits, fpDZ) ∧
      fpExp2V f rnd X = (one, 0) ∧ fpLog2V f rnd X = (f.signBit + f.infBits, fpDZ) ∧ fpSinV f rnd X = (x, 0) ∧ fpCosV f rnd X = (one, 0) ∧
      fpTanhV f rnd X = (x, 0)) ∧
    (InfCode f x →
      let bad : Nat × BitVec 5 := (f.nan, fpNV)
      fpSqrtV f rnd X = (if negOf f x then bad else (x, 0)) ∧ fpRcpV f rnd X = (fpSign f (negOf f x), 0) ∧
      fpRsqV f rnd X = (if negOf f x then bad else (0, 0)) ∧ fpExp2V f rnd X = (if negOf f x then (0, 0) else (x, 0)) ∧
      fpLog2V f rnd X = (if negOf f x then bad else (x, 0)) ∧ fpSinV f rnd X = bad ∧ fpCosV f rnd X = bad ∧
      fpTanhV f rnd X = (fpSign f (negOf f x) + one, 0)) ∧
    (InfCode f x ∨ ZeroCode f x → fpRint f rnd x = (x, 0) ∧ ∀ k, fpLdexp f rnd x k = (x, 0)) ∧
    (Finite f x →
      (v < 0 → fpSqrtV f rnd X = (f.nan, fpNV) ∧ fpRsqV f rnd X = (f.nan, fpNV) ∧ fpLog2V f rnd X = (f.nan, fpNV)) ∧
      (0 < v → RoundsRoot f rnd v (fpSqrtV f rnd X) ∧ RoundsInvRoot f rnd v (fpRsqV f rnd X)) ∧
      (v ≠ 0 → RoundsTo f rnd (1 / v) (fpRcpV f rnd X) ∧ ∀ k : Int, RoundsTo f rnd (v * (2 : ℚ) ^ k) (fpLdexp f rnd x k)) ∧
      (∀ k : Int, v = (k : ℚ) → RoundsTo f rnd ((2 : ℚ) ^ k) (fpExp2V f rnd X)) ∧
      (∀ k : Int, v = (2 : ℚ) ^ k → (k = 0 → fpLog2V f rnd X = (0, 0)) ∧ (k ≠ 0 → RoundsTo f rnd (k : ℚ) (fpLog2V f rnd X))) ∧
      (let r := fpRint f rnd x
       let n := ⌊|v|⌋₊
       let up : Prop := goesUp rnd (v < 0) n (|v| = n) ((n : ℚ) + 1 / 2 < |v|) (|v| = (n : ℚ) + 1 / 2)
       Finite f r.1 ∧ negOf f r.1 = negOf f x ∧ (up → magnitude f (r.1 % f.signBit) = (n : ℚ) + 1) ∧ (¬ up → magnitude f (r.1 % f.signBit) = n) ∧
       r.2 = if |v| = magnitude f (r.1 % f.signBit) then 0 else fpNX))) ∧
  (∀ (f : FpFmt) (mode : Word) (x : Nat) (k : Int), f ∈ formats → x < 2 * f.signBit →
    let v := flushed (modeFtz mode) f x
    fpRintE f mode x = flushedResult (modeFtz mode) f (fpRint f (modeRnd mode) v) ∧
    fpLdexpE k f mode x = flushedResult (modeFtz mode) f (fpLdexp f (modeRnd mode) v k)) ∧
  (∀ (mode : Word) (a b d : Nat), modeType mode = 7 ∨ modeType mode = 8 → modeRnd mode ≤ 4 → a < 2 ^ 32 → b < 2 ^ 32 → d < 2 ^ 32 →
    let ty := modeType mode
    let f := fmtOfType ty
    let g := fmtFp32
    let A (i : Nat) : Nat := flushed (modeFtz mode) f (elemOf ty i a)
    let B (i : Nat) : Nat := flushed (modeFtz mode) f (elemOf ty i b)
    let D := flushed (modeFtz mode) g d
    let p (i : Nat) : Bool := negOf f (A i) != negOf f (B i)
    let nan (i : Nat) : Prop := NanCode f (A i) ∨ NanCode f (B i)
    let bad (i : Nat) : Prop := (InfCode f (A i) ∧ ZeroCode f (B i)) ∨ (ZeroCode f (A i) ∧ InfCode f (B i))
    let inf (n : Bool) : Prop :=
      (∃ i, i < 2 ∧ ¬ nan i ∧ ¬ bad i ∧ (InfCode f (A i) ∨ InfCode f (B i)) ∧ p i = n) ∨ (InfCode g D ∧ negOf g D = n)
    let invalid : Prop := bad 0 ∨ bad 1 ∨ (inf true ∧ inf false)
    let anyNan : Prop := nan 0 ∨ nan 1 ∨ NanCode g D
    let q := valueOf f (A 0) * valueOf f (B 0) + valueOf f (A 1) * valueOf f (B 1) + valueOf g D
    let zeros (n : Bool) : Prop := (∀ i, i < 2 → valueOf f (A i) * valueOf f (B i) = 0 ∧ p i = n) ∧ valueOf g D = 0 ∧ negOf g D = n
    ∃ r, fdot2Lane mode a b d = flushedResult (modeFtz mode) g r ∧ (invalid → r = (g.nan, fpNV)) ∧
      (¬ invalid → anyNan → r = (g.nan, nvOf f [A 0, B 0, A 1, B 1] ||| nvOf g [D])) ∧
      (∀ n, ¬ invalid → ¬ anyNan → inf n → r = (fpSign g n + g.infBits, 0)) ∧
      (¬ invalid → ¬ anyNan → ¬ inf true → ¬ inf false →
        (q ≠ 0 → RoundsTo g (modeRnd mode) q r) ∧ (∀ n, zeros n → r = (fpSign g n, 0)) ∧
        (q = 0 → ¬ zeros true → ¬ zeros false → r = (if modeRnd mode = 3 then g.signBit else 0, 0))))

/-- CVTI to CVTH and PACK2 on values (R127, R148, R257 to R259): to an integer TYPE the exact integer, modulo 2^W or clamped under SAT from an integer, rounded under
RND and always clamped from a floating-point value, a NaN giving 0 and NV; to a floating-point TYPE rounded once, FTZ on source and result; to a ringset the position
that holds the exact value, {∞} for an infinity, the whole line for a NaN, FPST unchanged. PACK2 converts each of its two sources on its own. -/
def Obligations.ConversionsRoundAndSaturate : Prop :=
  (∀ (mode : Word) (ring : Option Ring) (v : Int), modeRnd mode ≤ 4 →
    let ty := modeType mode
    let r := cvtInt mode ring v
    (isIntType ty = true → r = (perhapsClamped ty (modeSat mode) v, 0)) ∧
    (isFpType ty = true → (v = 0 → r = (0, 0)) ∧ (v ≠ 0 → RoundsTo (fmtOfType ty) (modeRnd mode) (v : ℚ) r)) ∧
    (∀ q, isRingType ty = true → ring = some q → q.form = ty - 11 → pointsValid q.form q.points = true →
      ∃ k, k < ringN q.form ∧ AtPosition q.form q.points k (some (v : ℝ)) ∧ r = (oneAt q.form k, 0))) ∧
  (∀ (f : FpFmt) (mode : Word) (ring : Option Ring) (x : Nat), f ∈ formats → modeRnd mode ≤ 4 → x < 2 * f.signBit →
    let ty := modeType mode
    let r := cvtFp f mode ring x
    let X := flushed (modeFtz mode) f x
    let v := valueOf f X
    (isIntType ty = true →
      (NanCode f X → r = (0, fpNV)) ∧
      (InfCode f X → r = (wrapped ty (if negOf f X then leastOf ty else greatestOf ty), fpNV)) ∧
      (Finite f X →
        let n := ⌊|v|⌋₊
        let up : Prop := goesUp (modeRnd mode) (v < 0) n (|v| = n) ((n : ℚ) + 1 / 2 < |v|) (|v| = (n : ℚ) + 1 / 2)
        ∃ k : Int, (up → |k| = n + 1) ∧ (¬ up → |k| = n) ∧ (v < 0 → k ≤ 0) ∧ (0 ≤ v → 0 ≤ k) ∧ r.1 = perhapsClamped ty true k ∧
          r.2 = if k < leastOf ty ∨ greatestOf ty < k then fpNV else if (k : ℚ) = v then 0 else fpNX)) ∧
    (isFpType ty = true →
      let g := fmtOfType ty
      (NanCode f X → r = (g.nan, nvOf f [X])) ∧ (InfCode f X → r = (fpSign g (negOf f X) + g.infBits, 0)) ∧
      (ZeroCode f X → r = (fpSign g (negOf f X), 0)) ∧
      (Finite f X → v ≠ 0 → ∃ r0, RoundsTo g (modeRnd mode) v r0 ∧ r = flushedResult (modeFtz mode) g r0)) ∧
    (∀ q, isRingType ty = true → ring = some q → q.form = ty - 11 → pointsValid q.form q.points = true →
      (NanCode f X → r = (if q.form = 2 then 0xFF00 else 2 ^ ringN q.form - 1, 0)) ∧ (InfCode f X → r = (oneAt q.form 0, 0)) ∧
      (Finite f X → ∃ k, k < ringN q.form ∧ AtPosition q.form q.points k (some ((v : ℚ) : ℝ)) ∧ r = (oneAt q.form k, 0)))) ∧
  (∀ (mode : Word) (a b : Nat), modeType mode = 7 ∨ modeType mode = 8 →
    let x := cvtFp fmtFp32 mode none a
    let y := cvtFp fmtFp32 mode none b
    Holds (modeType mode) (pack2Val mode a b).1 (fun e => (if e = 0 then x.1 else y.1) % 2 ^ 16) ∧ (pack2Val mode a b).2 = x.2 ||| y.2)

/-- FMIN and FMAX on an element (R126), its sources flushed under FTZ: the other source beside a NaN, the canonical NaN for two, else the source that is the
lower or the higher with −0 below +0; only a signalling NaN sets a bit, NV. FABS and FNEG clear and invert the sign bit and leave every other bit and FPST
(R126); FCLASS gives each element its class, in one register under every TYPE (R254). -/
def Obligations.FloatElementsPickAndClass : Prop :=
  (∀ (f : FpFmt) (mode : Word) (x0 y0 : Nat), f ∈ formats → x0 < 2 * f.signBit → y0 < 2 * f.signBit →
     let x := flushed (modeFtz mode) f x0
     let y := flushed (modeFtz mode) f y0
     let quiet (v : Nat) : Prop := NanCode f v → f.infBits + 2 ^ (f.fb - 1) ≤ v % f.signBit
     (NanCode f x → NanCode f y → (fpPickE false f mode x0 y0).1 = f.nan ∧ (fpPickE true f mode x0 y0).1 = f.nan) ∧
     (NanCode f x → ¬ NanCode f y → (fpPickE false f mode x0 y0).1 = y ∧ (fpPickE true f mode x0 y0).1 = y) ∧
     (¬ NanCode f x → NanCode f y → (fpPickE false f mode x0 y0).1 = x ∧ (fpPickE true f mode x0 y0).1 = x) ∧
     (¬ NanCode f x → ¬ NanCode f y →
       (fpPickE false f mode x0 y0).1 = (if orderKey f x ≤ orderKey f y then x else y) ∧
       (fpPickE true f mode x0 y0).1 = (if orderKey f x ≤ orderKey f y then y else x)) ∧
     (quiet x → quiet y → (fpPickE false f mode x0 y0).2 = 0 ∧ (fpPickE true f mode x0 y0).2 = 0) ∧
     (¬ (quiet x ∧ quiet y) → (fpPickE false f mode x0 y0).2 = fpNV ∧ (fpPickE true f mode x0 y0).2 = fpNV) ∧
     fpClass f x0 = 2 ^ classOf f x0) ∧
  (∀ (s : State) (u : Nat) (t : Team) (c : Clause) (d a : Sel), Issuing s u t c →
     let ty := modeType t.mode
     let n := typeRegs ty
     let A (k e : Nat) : Nat := elemOf ty e (readVal t c.lit k a n)
     let Gives (i : Instr) (nd : Nat) (g : Nat → Nat) : Prop :=
       Legal i t false isFpType [dst d nd, src a n] → Unpoisoned t [dst d nd, src a n] (lanesOn t) →
       ∃ val, Completes i s u t (lanesOn t) d nd val 0 ∧ ∀ k, Holds ty (val k) (fun e => g (A k e))
     Gives (.fabs d a) n (fun x => x % 2 ^ (elemWidth ty - 1)) ∧ Gives (.fneg d a) n (fun x => x ^^^ 2 ^ (elemWidth ty - 1)) ∧
     Gives (.fclass d a) 1 (fun x => 2 ^ classOf (fmtOfType ty) x))

/-- FADD, FSUB, FMUL, FMIN, FMAX, FMA, FNMA, FRINT, FLDEXP, FDOT2 (R252, R253, R256): every element of every ACTIVE lane is computed under TYPE and MODE, and
the exceptions of all of them are ORed into FPST; nothing else changes. -/
def Obligations.FloatResults : Prop :=
  ∀ (s : State) (u : Nat) (t : Team) (c : Clause) (d a b : Sel), Issuing s u t c →
    let ty := modeType t.mode
    let n := typeRegs ty
    let f := fmtOfType ty
    let A (k e : Nat) : Nat := elemOf ty e (readVal t c.lit k a n)
    let B (k e : Nat) : Nat := elemOf ty e (readVal t c.lit k b n)
    let D (k e : Nat) : Nat := elemOf ty e (readVal t c.lit k d n)
    let Gives (i : Instr) (types : Nat → Bool) (ops : List Opnd) (g : Nat → Nat → Nat × BitVec 5) : Prop :=
      Legal i t false types ops → Unpoisoned t ops (lanesOn t) → ∃ val,
        Completes i s u t (lanesOn t) d n val
          (flagsOf (lanesFor t d (lanesOn t)) (fun k => flagsOf (List.range (elemCount ty)) (fun e => (g k e).2))) ∧
        ∀ k, Holds ty (val k) (fun e => (g k e).1 % 2 ^ elemWidth ty)
    (∀ i g, (i, g) ∈ floatBinary d a b → Gives i isFpType [dst d n, src a n, src b n] (fun k e => g f t.mode (A k e) (B k e))) ∧
    (∀ i g, (i, g) ∈ floatTernary d a b → Gives i isFpType [srcdst d n, src a n, src b n] (fun k e => g f t.mode (A k e) (B k e) (D k e))) ∧
    Gives (.frint d a) isFpType [dst d n, src a n] (fun k e => fpRintE f t.mode (A k e)) ∧
    Gives (.fldexp d a b) isFpType [dst d n, src a n, src b 1] (fun k e => fpLdexpE (BitVec.ofNat 32 (readVal t c.lit k b 1)).toInt f t.mode (A k e)) ∧
    (Legal (.fdot2 d a b) t false fpPacked [srcdst d 1, src a 1, src b 1] → Unpoisoned t [srcdst d 1, src a 1, src b 1] (lanesOn t) →
      let r (k : Nat) : Nat × BitVec 5 := fdot2Lane t.mode (readVal t c.lit k a 1) (readVal t c.lit k b 1) (readVal t c.lit k d 1)
      Completes (.fdot2 d a b) s u t (lanesOn t) d 1 (fun k => (r k).1) (flagsOf (lanesFor t d (lanesOn t)) (fun k => (r k).2)))

/-- FDIV, FSQRT, FRCP, FRSQ, FEXP2, FLOG2, FSIN, FCOS, FTANH (R255, R176): issue raises the clause's READS flag and writes no register; the results of the
ACTIVE lanes and their exceptions are written when the operation completes. -/
def Obligations.SpecialFunctionsWriteLate : Prop :=
  ∀ (s : State) (u : Nat) (t : Team) (c : Clause) (d a b : Sel), Issuing s u t c → flagCount t c.reads ≠ 63 →
    let ty := modeType t.mode
    let n := typeRegs ty
    let Gives (i : Instr) (types : Nat → Bool) (ops : List Opnd) (r : Nat → Nat × BitVec 5) : Prop :=
      Legal i t true types ops → Unpoisoned t ops (lanesOn t) →
      CompletesLate i s u t c.reads (lanesOn t) d n (fun k => (r k).1) (flagsOf (lanesFor t d (lanesOn t)) (fun k => (r k).2))
    Gives (.fdiv d a b) isFpType [dst d n, src a n, src b n]
      (fun k => mapElems ty (fun e => fpBin fpDivV (fmtOfType ty) t.mode (elemOf ty e (readVal t c.lit k a n)) (elemOf ty e (readVal t c.lit k b n)))) ∧
    ∀ i types g, (i, types, g) ∈ floatSpecial d a →
      Gives i types [dst d n, src a n] (fun k => mapElems ty (fun e => fpUn g (fmtOfType ty) t.mode (elemOf ty e (readVal t c.lit k a n))))

/-- CVTI, CVTN, CVTL, CVTF, CVTD, CVTB, CVTH and PACK2 (R257 to R259): the TYPE of MODE is the destination; a ringset destination is in the built ring of
MODE's slot. -/
def Obligations.ConversionsToTheTypeOfMode : Prop :=
  ∀ (s : State) (u : Nat) (t : Team) (c : Clause) (d a b : Sel) (ring : Option Ring), Issuing s u t c → WorksIn t ring →
    let ty := modeType t.mode
    (∀ i n g, (i, n, g) ∈ conversions d a → Legal i t false cvtType [dst d (typeRegs ty), src a n] →
      Unpoisoned t [dst d (typeRegs ty), src a n] (lanesOn t) →
      let r (k : Nat) : Nat × BitVec 5 := g t.mode ring (readVal t c.lit k a n)
      Completes i s u t (lanesOn t) d (typeRegs ty) (fun k => (r k).1) (flagsOf (lanesFor t d (lanesOn t)) (fun k => (r k).2))) ∧
    (Legal (.pack2 d a b) t false fpPacked [dst d 1, src a 1, src b 1] → Unpoisoned t [dst d 1, src a 1, src b 1] (lanesOn t) →
      let r (k : Nat) : Nat × BitVec 5 := pack2Val t.mode (readVal t c.lit k a 1) (readVal t c.lit k b 1)
      Completes (.pack2 d a b) s u t (lanesOn t) d 1 (fun k => (r k).1) (flagsOf (lanesFor t d (lanesOn t)) (fun k => (r k).2)))

/-! ## Ringsets (R135 to R152, R260 to R264) -/

/-- R138 and R140: under a valid ring the positions that RSADD, RSSUB, RSNEG, RSUNION, RSISECT, RSMUL, RSDIV, RSRCP and RSSQR give are exactly those that meet the
image of the operands' real sets under projective arithmetic; x / y is x × (1/y), and RSSQR squares one element. -/
def Obligations.RingArithmeticCoversItsImage : Prop :=
  (∀ (r : Ring) (p q k : Nat), r.form ≤ 2 → pointsValid r.form r.points = true → p < 2 ^ ringN r.form → q < 2 ^ ringN r.form → k < ringN r.form →
     let At := AtPosition r.form r.points
     let In := InSet r.form r.points
     ((rsBin realAdd r p q).testBit k = true ↔ ∃ x y z, In p x ∧ In q y ∧ SumOf x y z ∧ At k z) ∧
     ((rsBin realSub r p q).testBit k = true ↔ ∃ x y w z, In p x ∧ In q y ∧ NegativeOf y w ∧ SumOf x w z ∧ At k z) ∧
     ((rsUn realNeg r p).testBit k = true ↔ ∃ x z, In p x ∧ NegativeOf x z ∧ At k z) ∧
     ((p ||| q).testBit k = true ↔ ∃ z, (In p z ∨ In q z) ∧ At k z) ∧ ((p &&& q).testBit k = true ↔ ∃ z, In p z ∧ In q z ∧ At k z)) ∧
  (∀ (r : Ring) (p q k : Nat), r.form ≤ 2 → pointsValid r.form r.points = true → p < 2 ^ ringN r.form → q < 2 ^ ringN r.form → k < ringN r.form →
     let At := AtPosition r.form r.points
     let In := InSet r.form r.points
     ((rsBin realMul r p q).testBit k = true ↔ ∃ x y z, In p x ∧ In q y ∧ ProductOf x y z ∧ At k z) ∧
     ((rsBin realDiv r p q).testBit k = true ↔ ∃ x y w z, In p x ∧ In q y ∧ ReciprocalOf y w ∧ ProductOf x w z ∧ At k z) ∧
     ((rsUn realRcp r p).testBit k = true ↔ ∃ x z, In p x ∧ ReciprocalOf x z ∧ At k z) ∧
     ((rsUn realSqr r p).testBit k = true ↔ ∃ x z, In p x ∧ ProductOf x x z ∧ At k z))

/-- Elements, hulls, bounds and covers (R136 to R139, R149, R150): an element holds the positions of its full mask or of its arc; the hull of a set of positions
is the shortest run that contains it, the lower first position on a tie, and the RC16 result of an operation is that run, canonical; RSLO and RSHI give the
infimum and the supremum of the finite part, the flags EMPTY, INF and OPEN, an infinity where it is unbounded and the canonical NaN where it is empty; RSCONV
gives every position of the new ring that meets the real set. -/
def Obligations.RingElementsHullsAndBounds : Prop :=
  (∀ form x k, form ≤ 2 → k < ringN form → elemPos form x < 2 ^ ringN form ∧ ((elemPos form x).testBit k = true ↔ Member form x k)) ∧
  (∀ n p, n = 16 ∨ n = 32 ∨ n = 256 → p < 2 ^ n → (p = 0 → hullPos n p = 0) ∧
    (p ≠ 0 → ∃ k l, IsHull n p k l) ∧ ∀ k l, p ≠ 0 → IsHull n p k l → hullPos n p < 2 ^ n ∧ ∀ j, j < n → ((hullPos n p).testBit j = true ↔ InRun n k l j)) ∧
  (∀ p, (∀ form, form ≤ 1 → elemOfPos form p = p) ∧ (p < 2 ^ 256 → (p = 0 → elemOfPos 2 p = 0xFF01) ∧
    ∀ k l, p ≠ 0 → IsHull 256 p k l → elemOfPos 2 p = if l = 255 then 0xFF00 else 256 * l + k)) ∧
  (∀ form ps p, form ≤ 2 → pointsValid form ps = true → p < 2 ^ ringN form →
    let F : Set ℝ := fun x => InSet form ps p (some x)
    let lo := ringLo form ps p
    let hi := ringHi form ps p
    let code (x : Nat) : Prop := Finite fmtFp32 x ∧ x ≠ fmtFp32.signBit
    lo.2 < 8 ∧ hi.2 < 8 ∧ (lo.2.testBit 1 = true ↔ InSet form ps p none) ∧ (hi.2.testBit 1 = true ↔ InSet form ps p none) ∧
    (F = ∅ → lo.1 = fmtFp32.nan ∧ hi.1 = fmtFp32.nan ∧ lo.2 % 2 = 0 ∧ hi.2 % 2 = 0) ∧
    (lo.2.testBit 2 = true ↔ F = ∅) ∧ (hi.2.testBit 2 = true ↔ F = ∅) ∧
    (F ≠ ∅ → (lo.2 % 2 = 1 ↔ ¬ ∃ x, IsLeast F x) ∧ (hi.2 % 2 = 1 ↔ ¬ ∃ x, IsGreatest F x) ∧
      (BddBelow F → code lo.1 ∧ IsGLB F ((valueOf fmtFp32 lo.1 : ℚ) : ℝ)) ∧ (¬ BddBelow F → lo.1 = fmtFp32.signBit + fmtFp32.infBits) ∧
      (BddAbove F → code hi.1 ∧ IsLUB F ((valueOf fmtFp32 hi.1 : ℚ) : ℝ)) ∧ (¬ BddAbove F → hi.1 = fmtFp32.infBits))) ∧
  (∀ form ps form0 ps0 p k, form ≤ 2 → form0 ≤ 2 → pointsValid form ps = true → pointsValid form0 ps0 = true → p < 2 ^ ringN form0 → k < ringN form →
    ((coverPos form ps (realOf form0 ps0 p)).testBit k = true ↔ ∃ z, InSet form0 ps0 p z ∧ AtPosition form ps k z))

/-- The instructions of 0x58 to 0x66 but RINGLD (R260 to R264): they complete in the built ring of MODE's slot, each lane's element computed on positions, FPST
unchanged; an empty slot or another form is a RING trap (R145), and so is an empty source slot of RSCONV (R262). -/
def Obligations.RingsetInstructions : Prop :=
  ∀ (s : State) (u : Nat) (t : Team) (c : Clause) (d a b : Sel) (r : Ring), Issuing s u t c →
    let form := modeType t.mode - 11
    let ops1 := [dst d 1, src a 1]
    let ops2 := [dst d 1, src a 1, src b 1]
    let A (k : Nat) : Nat := elemPos form (readVal t c.lit k a 1)
    (RingReady t (modeRing t.mode) form r →
      (∀ i g, (i, g) ∈ ringBinary d a b → Legal i t false isRingType ops2 → Unpoisoned t ops2 (lanesOn t) →
        Completes i s u t (lanesOn t) d 1 (fun k => elemOfPos form (g r (A k) (elemPos form (readVal t c.lit k b 1)))) 0) ∧
      (∀ i g, (i, g) ∈ ringUnary d a → Legal i t false isRingType ops1 → Unpoisoned t ops1 (lanesOn t) →
        Completes i s u t (lanesOn t) d 1 (fun k => elemOfPos form (g r (A k))) 0) ∧
      (∀ i g, (i, g) ∈ [(Instr.rslo d a, ringLo), (.rshi d a, ringHi)] → Legal i t false isRingType [dst d 2, src a 1] →
        Unpoisoned t [dst d 2, src a 1] (lanesOn t) →
        Completes i s u t (lanesOn t) d 2 (fun k => (g form r.points (A k)).1 + 2 ^ 32 * (g form r.points (A k)).2) 0) ∧
      (∀ q, Legal (.rsconv d a b) t false isRingType ops2 → Unpoisoned t ops2 (lanesOn t) → RingReady t (readVal t c.lit 0 b 1) q.form q →
        Completes (.rsconv d a b) s u t (lanesOn t) d 1 (fun k =>
          let p := elemPos q.form (readVal t c.lit k a 1)
          elemOfPos form (if p = 0 then 0 else if p = allPos q.form then allPos form else coverPos form r.points (realOf q.form q.points p))) 0)) ∧
    (∀ q, RingReady t (modeRing t.mode) q.form q → Legal (.ringq d a) t false anyType ops1 → Unpoisoned t ops1 (lanesOn t) →
      Completes (.ringq d a) s u t (lanesOn t) d 1 (fun k =>
        let x := readVal t c.lit k a 1
        if x = 0 then 0x7F800000 else if x < ringK q.form then (nthD q.points (x - 1) 0).toNat else 0x7FC00000) 0) ∧
    ((∀ q, ringSlot t (modeRing t.mode) = some q → q.form ≠ form) →
      (∀ i g, (i, g) ∈ ringBinary d a b → Legal i t false isRingType ops2 → Unpoisoned t ops2 (lanesOn t) → Traps i s u .ring (lanesExec t)) ∧
      (∀ i g, (i, g) ∈ ringUnary d a → Legal i t false isRingType ops1 → Unpoisoned t ops1 (lanesOn t) → Traps i s u .ring (lanesExec t)) ∧
      (∀ i, i = .rslo d a ∨ i = .rshi d a → Legal i t false isRingType [dst d 2, src a 1] → Unpoisoned t [dst d 2, src a 1] (lanesOn t) →
        Traps i s u .ring (lanesExec t)) ∧
      (∀ q, Legal (.rsconv d a b) t false isRingType ops2 → Unpoisoned t ops2 (lanesOn t) → RingReady t (readVal t c.lit 0 b 1) q.form q →
        Traps (.rsconv d a b) s u .ring (lanesExec t))) ∧
    (Legal (.rsconv d a b) t false isRingType ops2 → Unpoisoned t ops2 (lanesOn t) → ringSlot t (readVal t c.lit 0 b 1) = none →
      Traps (.rsconv d a b) s u .ring (lanesExec t)) ∧
    (Legal (.ringq d a) t false anyType ops1 → Unpoisoned t ops1 (lanesOn t) → ringSlot t (modeRing t.mode) = none →
      Traps (.ringq d a) s u .ring (lanesExec t))

/-- RINGLD (R144, R263) takes an address that is no multiple of 16 as an ALIGN trap and a slot number beyond the launch's rings as a RING trap; a valid
descriptor in the team's own scratchpad window replaces the slot's ring, to be built on the OTHERS flag; a descriptor there that R144 refuses, for its reserved
fields, its form, its count or its points, is a RING trap that leaves the machine as it was. -/
def Obligations.RingldLoadsAndBuilds : Prop :=
  ∀ (s : State) (u : Nat) (t : Team) (c : Clause) (a b : Sel), Issuing s u t c → Legal (.ringld a b) t true anyType [src a 1, src b 2] →
    slicePending t = false → flagCount t c.others ≠ 63 →
    let k := readVal t c.lit 0 a 1
    let va := readVal t c.lit 0 b 2
    (t.rings.length ≤ k → Traps (.ringld a b) s u .ring (lanesExec t)) ∧
    (k < t.rings.length → va % 16 ≠ 0 → Traps (.ringld a b) s u .align (lanesExec t)) ∧
    (∀ form off, k < t.rings.length → va % 16 = 0 → form ≤ 2 → va = 0xFF00000000000 + off → off < 2 ^ 32 →
      off + 16 + 4 * (ringK form - 1) ≤ t.cfg.spsize → t.cfg.spsize ≤ 2 ^ 32 →
      (s.core t.cfg.core).poisonScratch = [] → (∀ o ∈ t.late, o.build ≠ some k) →
      let bytes (x n : Nat) : List Byte := Memory.reads (s.core t.cfg.core).scratch (t.cfg.spbase + x) n
      natOfBytes (bytes off 16) = form + 2 ^ 32 * (ringK form - 1) → pointsValid form (wordsOfBytes (bytes (off + 16) (4 * (ringK form - 1)))) = true →
      ∃ t1 o, exec (.ringld a b) s = .next (stepOn (({ s with nextId := s.nextId + 1 } : State).setTeam u t1) u) ∧
        LateAdded { t with rings := t1.rings } t1 o s.nextId c.others ∧ o.build = some k ∧
        ringSlot t1 k = some { form := form, points := wordsOfBytes (bytes (off + 16) (4 * (ringK form - 1))), building := true } ∧
        ∀ j, j ≠ k → ringSlot t1 j = ringSlot t j) ∧
    (∀ off, k < t.rings.length → va % 16 = 0 → va = 0xFF00000000000 + off → off < 2 ^ 32 → t.cfg.spsize ≤ 2 ^ 32 →
      (s.core t.cfg.core).poisonScratch = [] →
      let bytes (x n : Nat) : List Byte := Memory.reads (s.core t.cfg.core).scratch (t.cfg.spbase + x) n
      let h := natOfBytes (bytes off 16)
      let K := ringK (h % 4)
      let p (i : Nat) : Nat := natOfBytes (bytes (off + 12 + 4 * i) 4)
      let header : Prop := h / 4 % 2 ^ 30 = 0 ∧ h / 2 ^ 64 = 0 ∧ h % 4 ≠ 3 ∧ h / 2 ^ 32 % 2 ^ 32 = K - 1
      let points : Prop := (∀ i, 1 ≤ i → i < K → Finite fmtFp32 (p i)) ∧
        (∀ i, 1 ≤ i → i + 1 < K → valueOf fmtFp32 (p i) < valueOf fmtFp32 (p (i + 1))) ∧
        (∀ i, 1 ≤ i → i < K → i ≠ K / 2 → p (K - i) = p i ^^^ 2 ^ 31) ∧ p (K / 2) = 0
      (off + 16 ≤ t.cfg.spsize → ¬ header → Traps (.ringld a b) s u .ring (lanesExec t)) ∧
      (header → off + 16 + 4 * (K - 1) ≤ t.cfg.spsize →
        (points ↔ pointsValid (h % 4) (wordsOfBytes (bytes (off + 16) (4 * (K - 1)))) = true) ∧
        (¬ points → Traps (.ringld a b) s u .ring (lanesExec t))))

/-! ## Between lanes (R129, R130, R266 to R270, R295 to R298) -/

/-- SHFL, SHFLX, SHFLUP and SHFLDN (R266, R267): each ACTIVE lane takes the operand of a lane of its span, 0 where that lane is not ACTIVE or the index lies
outside the span. VOTEANY, VOTEALL and BALLOT (R268): of the ACTIVE lanes of the span, whether any and whether every one holds a nonzero a, and the bit of each
that does. An s destination of any of them is ILLEGAL_OP (R266). -/
def Obligations.ShufflesAndVotes : Prop :=
  (∀ (s : State) (u : Nat) (t : Team) (c : Clause) (d a b : Sel) (i : Instr) (j : Nat → Nat → Int),
     (i, j) ∈ ([(.shfl d a b, fun _ x => (x : Int)), (.shflx d a b, fun l x => ((l ^^^ x : Nat) : Int)), (.shflup d a b, fun l x => (l : Int) - (x : Int)),
       (.shfldn d a b, fun l x => (l : Int) + (x : Int))] : List (Instr × (Nat → Nat → Int))) → Issuing s u t c →
     let n := typeRegs (modeType t.mode)
     Legal i t false anyType [dst d n, across a n, src b 1] → Unpoisoned t [src a n, src b 1] (activeMask t) →
     (isSreg d = false → Completes i s u t (lanesOn t) d n (fun k =>
       let p := j (k % t.cfg.span) (readVal t c.lit k b 1)
       if 0 ≤ p ∧ p < (t.cfg.span : Int) then spanRead t c.lit (activeMask t) a n 0 k p.toNat else 0) 0) ∧
     (isSreg d = true → Traps i s u .illegalOp (lanesExec t))) ∧
  (∀ (s : State) (u : Nat) (t : Team) (c : Clause) (d a : Sel), Issuing s u t c → Unpoisoned t [src a 1] (activeMask t) → isSreg d = false →
     let here (k i : Nat) : Prop := i < t.cfg.span ∧ mate t k i < 1024 ∧ (activeMask t).getLsbD (mate t k i) = true
     let set (k i : Nat) : Prop := here k i ∧ readVal t c.lit (mate t k i) a 1 ≠ 0
     (Legal (.voteany d a) t false anyType [dst d 1, across a 1] → ∃ v, Completes (.voteany d a) s u t (lanesOn t) d 1 v 0 ∧
       ∀ k, ((∃ i, set k i) → v k = 1) ∧ ((¬ ∃ i, set k i) → v k = 0)) ∧
     (Legal (.voteall d a) t false anyType [dst d 1, across a 1] → ∃ v, Completes (.voteall d a) s u t (lanesOn t) d 1 v 0 ∧
       ∀ k, ((∀ i, here k i → set k i) → v k = 1) ∧ ((¬ ∀ i, here k i → set k i) → v k = 0)) ∧
     (Legal (.ballot d a) t false anyType [dst d 1, across a 1] →
       let n := if t.cfg.span = 64 then 2 else 1
       0 < t.cfg.span → opndOk t.cfg.budget (dst d n) = true → ∃ v, Completes (.ballot d a) s u t (lanesOn t) d n v 0 ∧
         ∀ k i, (v k).testBit i = true ↔ set k i)) ∧
  (∀ (s : State) (u : Nat) (t : Team) (c : Clause) (d a b : Sel) (i : Instr),
     i ∈ [Instr.shfl d a b, .shflx d a b, .shflup d a b, .shfldn d a b, .voteany d a, .voteall d a, .ballot d a] → Issuing s u t c → i.wellFormed = true →
     t.retry = none → Unpoisoned t [src b 1] (lanesOn t) → isSreg d = true → Traps i s u .illegalOp t.exec)

/-- REDADD, REDMIN, REDMAX, REDOR and REDUN (R129, R130, R269): the tree of R129 over the operands of the span, the identity standing in for a lane that is
not ACTIVE; every ACTIVE lane gets the result, and the exceptions of its nodes are ORed into FPST. SCANADD takes one node after another up to its lane. An s
destination is ILLEGAL_OP (R266). Identities and nodes, element by element: of an integer TYPE the table's element, and the modular or clamped sum, the signed or
unsigned minimum and maximum, AND and OR; of a floating-point TYPE −0, or +0 under RDN, and the infinities, and the sum rounded once, the minimum and the maximum of
the floating-point instructions; of a ringset TYPE {0} and the empty element, and the sum in the ring and the union of the positions. -/
def Obligations.ReductionsFollowTheTree : Prop :=
  (∀ (s : State) (u : Nat) (t : Team) (c : Clause) (d a : Sel) (ring : Option Ring) (j : Nat), Issuing s u t c → WorksIn t ring → isSreg d = false →
     t.cfg.span = 2 ^ j →
     let n := typeRegs (modeType t.mode)
     let ops := [dst d n, across a n]
     Unpoisoned t [src a n] (activeMask t) →
     (∀ i g, (i, g) ∈ reductions d a → Legal i t false (nodeType g) ops →
       let r (k : Nat) : Nat × BitVec 5 :=
         treeOf (nodeOp g t.mode ring) j (fun e => spanRead t c.lit (activeMask t) a n (identity g t.mode) k e)
       Completes i s u t (lanesOn t) d n (fun k => (r k).1) (flagsOf (slotsOf t.cfg.capacity (lanesOn t)) (fun k => (r k).2))) ∧
     (Legal (.scanadd d a) t false (fun ty => decide (ty ≤ 10)) ops →
       let r (k : Nat) : Nat × BitVec 5 := foldRow (nodeOp .add t.mode none) (identity .add t.mode, 0)
         ((List.range (k % t.cfg.span + 1)).map (fun e => spanRead t c.lit (activeMask t) a n (identity .add t.mode) k e))
       Completes (.scanadd d a) s u t (lanesOn t) d n (fun k => (r k).1) (flagsOf (slotsOf t.cfg.capacity (lanesOn t)) (fun k => (r k).2)))) ∧
  (∀ (s : State) (u : Nat) (t : Team) (c : Clause) (d a : Sel) (i : Instr) (types : Nat → Bool),
     (i, types) ∈ (.scanadd d a, fun ty => decide (ty ≤ 10)) :: (reductions d a).map (fun p => (p.1, nodeType p.2)) → Issuing s u t c → i.wellFormed = true →
     t.retry = none → types (modeType t.mode) = true → isSreg d = true → Traps i s u .illegalOp t.exec) ∧
  (∀ (mode : Word) (ring : Option Ring) (x y : Nat),
    let ty := modeType mode
    let f := fmtOfType ty
    let X (e : Nat) : Nat := elemOf ty e x
    let Y (e : Nat) : Nat := elemOf ty e y
    (isIntType ty = true →
      (∀ n v, (n, v) ∈ integerIdentities ty → Holds ty (identity n mode) (fun _ => v)) ∧
      ∀ n g, (n, g) ∈ integerNodes → (nodeOp n mode ring x y).2 = 0 ∧ Holds ty (nodeOp n mode ring x y).1 (fun e => g ty (mode.getLsbD 8) (X e) (Y e))) ∧
    (isFpType ty = true →
      (∀ n v, (n, v) ∈ floatIdentities f (modeRnd mode) → Holds ty (identity n mode) (fun _ => v)) ∧
      ∀ n g, (n, g) ∈ floatNodes → (nodeOp n mode ring x y).2 = flagsOf (List.range (elemCount ty)) (fun e => (g f mode (X e) (Y e)).2) ∧
        Holds ty (nodeOp n mode ring x y).1 (fun e => (g f mode (X e) (Y e)).1 % 2 ^ elemWidth ty)) ∧
    (isRingType ty = true →
      let form := ty - 11
      identity .add mode = (if form = 0 then 0x0100 else if form = 1 then 0x00010000 else 0x0080) ∧ identity .union mode = (if form = 2 then 0xFF01 else 0) ∧
      (∀ r, ring = some r → r.form = form → nodeOp .add mode ring x y = (elemOfPos form (rsBin realAdd r (elemPos form x) (elemPos form y)), 0)) ∧
      nodeOp .union mode ring x y = (elemOfPos form (elemPos form x ||| elemPos form y), 0)))

/-- CONFD and KEYADD (R270): CONFD gives the lowest spanlane that holds the lane's value; KEYADD gives that leader the sum of the values of its key in ascending
order, by the nodes that the reductions have, with the exceptions of the sums, and every other lane 0; CONFD's destination is one register (log 24). ISECT,
MERGE and MPSPLIT (R295 to R298): the lists of a span are the values of its ACTIVE lanes up to the first 0xFFFFFFFF; ISECT and MERGE run the loops of R296 and
R297 to their end and give output slot p to the ACTIVE lane number p of the span, with the advance counts; MPSPLIT counts the elements of A whose merge position
lies below the lane's own b. An s destination is ILLEGAL_OP (R266). -/
def Obligations.SpanListsAndEqualValues : Prop :=
  (∀ (s : State) (u : Nat) (t : Team) (c : Clause) (d a b : Sel), Issuing s u t c → isSreg d = false → 0 < t.cfg.span →
     let ty := modeType t.mode
     let n := typeRegs ty
     let here (k : Nat) : List Nat :=
       ((List.range t.cfg.span).map (mate t k)).filter (fun l => decide (l < 1024) && (activeMask t).getLsbD l)
     let same (w k : Nat) : List Nat := (here k).filter (fun l => decide (readVal t c.lit l a w = readVal t c.lit k a w))
     (Legal (.confd d a) t false anyType [dst d 1, across a n] → Unpoisoned t [src a n] (activeMask t) →
       ∃ v, Completes (.confd d a) s u t (lanesOn t) d 1 v 0 ∧ ∀ k l rest, same n k = l :: rest → v k = l % t.cfg.span) ∧
     (Legal (.keyadd d a b) t false (fun x => decide (x ≤ 10)) [dst d n, across a 1, across b n] → Unpoisoned t [src a 1, src b n] (activeMask t) →
       let sum (k : Nat) : Nat × BitVec 5 := match same 1 k with
         | [] => (0, 0)
         | l :: rest => if l = k then foldRow (nodeOp .add t.mode none) (readVal t c.lit k b n % 2 ^ (elemWidth ty * elemCount ty), 0)
             (rest.map (fun p => readVal t c.lit p b n)) else (0, 0)
       Completes (.keyadd d a b) s u t (lanesOn t) d n (fun k => (sum k).1) (flagsOf (slotsOf t.cfg.capacity (lanesOn t)) (fun k => (sum k).2)))) ∧
  (∀ (s : State) (u : Nat) (t : Team) (c : Clause) (d a b : Sel), Issuing s u t c → isSreg d = false →
     let ops := [dst d 2, across a 1, across b 1]
     let here (k : Nat) : List Nat :=
       ((List.range t.cfg.span).map (mate t k)).filter (fun l => decide (l < 1024) && (activeMask t).getLsbD l)
     let list (x : Sel) (k : Nat) : List (Nat × Nat) :=
       ((here k).map (fun l => (readVal t c.lit l x 1, l % t.cfg.span))).takeWhile (fun e => decide (e.1 ≠ 0xFFFFFFFF))
     let place (k : Nat) : Nat := ((here k).filter (fun l => decide (l < k))).length
     let both (k : Nat) : ListWalk := (isectPass (list a k) (list b k))^[(list a k).length + (list b k).length] ⟨0, 0, []⟩
     let union (k : Nat) : ListWalk := (mergePass (list a k) (list b k))^[(here k).length] ⟨0, 0, []⟩
     (Legal (.isect d a b) t false anyType ops → Unpoisoned t [src a 1, src b 1] (activeMask t) →
       Completes (.isect d a b) s u t (lanesOn t) d 2 (fun k =>
         let w := both k
         ((w.out[place k]?.map Prod.snd).getD 0xFFFFFFFF) + 2 ^ 32 * (w.i + 2 ^ 8 * w.j + 2 ^ 16 * w.out.length)) 0) ∧
     (Legal (.merge d a b) t false anyType ops → Unpoisoned t [src a 1, src b 1] (activeMask t) →
       Completes (.merge d a b) s u t (lanesOn t) d 2 (fun k =>
         let w := union k
         let e := (w.out[place k]?).getD (0xFFFFFFFF, 0xFFFF)
         e.1 + 2 ^ 32 * (e.2 + 2 ^ 16 * w.i + 2 ^ 24 * w.j)) 0) ∧
     (Legal (.mpsplit d a b) t false anyType ops → Unpoisoned t [src a 1] (activeMask t) → Unpoisoned t [src b 1] (lanesOn t) →
       Completes (.mpsplit d a b) s u t (lanesOn t) d 2 (fun k =>
         let v := readVal t c.lit k b 1
         let n := ((List.range (list a k).length).filter (fun p => decide ((nthD (list a k) p (0, 0)).1 + p < v))).length
         n + 2 ^ 32 * (BitVec.ofInt 32 ((v : Int) - (n : Int))).toNat) 0)) ∧
  (∀ (s : State) (u : Nat) (t : Team) (c : Clause) (d a b : Sel) (i : Instr), i ∈ [Instr.confd d a, .keyadd d a b, .isect d a b, .merge d a b, .mpsplit d a b] →
     Issuing s u t c → i.wellFormed = true → t.retry = none → (i = .keyadd d a b → modeType t.mode ≤ 10) → isSreg d = true → Traps i s u .illegalOp t.exec)

/-! ## Memory (R272 to R290, R201 to R210) -/

/-- LD to STW, SLD, SST and the atomics (R273 to R287): with the window check passed, and every lane's checks, the instruction completes with its accesses
made in ascending lane order; held lanes are one trap; failing window lanes are a WINDOW trap before any access; lanes that park leave the team waiting at the
instruction. That the accesses are made at issue is the model's choice (log 4). PREF and RESHINT (R98, R282) complete whatever their addresses are: a hint
without a usable mapping is dropped and counted in HINTDROP, which stops at all ones; RESHINT on a resident layer, which is at its home slice already, translates its
address and does nothing else. -/
def Obligations.MemoryInstructionsSettleTheirLanes : Prop :=
  (∀ (s : State) (u : Nat) (t : Team) (c : Clause) (d a b : Sel) (r : MemRow), Issuing s u t c →
    r ∈ loadRows t c.lit d a b ++ storeRows t c.lit d a b ++ atomicRows t c.lit d a b → MemReady t c r →
    let lanes := accessesOf t r.op.uniform r.lane
    let from_ := settleFrom s u t c r
    let z := settleLanes from_.1 u t from_.2 lanes
    let out := windowFails s t r.op lanes
    (out = [] → z.parks = [] → z.helds = [] → exec r.instr s = .next (stepOn z.s u)) ∧
    (out = [] → z.parks = [] → z.helds ≠ [] → exec r.instr s = .next (takeTrap z.s u (heldTrap z.helds))) ∧
    (out = [] → z.parks ≠ [] → ∃ p, exec r.instr s = .next (z.s.updTeam u (fun t1 => { t1 with wait := .fault, parked := some p })) ∧ p.lanes = z.parks) ∧
    (out ≠ [] → ∃ i, exec r.instr s = .next (takeTrap s u i) ∧ i.cls = .window ∧ i.faulted = maskOf (out.map LaneAcc.slot) ∧
      i.pending = maskOf (lanes.map LaneAcc.slot))) ∧
  (∀ (s : State) (u : Nat) (t : Team) (c : Clause) (a b : Sel) (i : Instr) (res : Bool), (i, res) ∈ [(Instr.pref a b, false), (.reshint a b, true)] →
    Issuing s u t c → Legal i t false anyType [src a 2, src b 1] → Unpoisoned t [src a 2, src b 1] (lanesOn t) → slicePending t = false →
    let lanes := accessesOf t (!isPerLane a && !isPerLane b) (fun k => { slot := k, ea := eaOf t c.lit a b k, data := 0, cmp := 0 })
    exec i s = .next (stepOn (lanes.foldl (fun z x => hintLane res u t.cfg z x.ea) s) u) ∧
    ∀ (z : State) (va : Nat),
      (hintMapping z t.cfg va = none → hintLane res u t.cfg z va =
        z.setCore t.cfg.core { z.core t.cfg.core with hintdrop := BitVec.ofNat 32 (min ((z.core t.cfg.core).hintdrop.toNat + 1) 0xFFFFFFFF) }) ∧
      (∀ m, hintMapping z t.cfg va = some m → layerResident z m.layer = true →
        hintLane true u t.cfg z va = (translate z t.cfg.core t.cfg.ctx va needR).2))

/-- LD, LDB, LDH, LDW, SLD and ST, STB, STH, STW, SST in the scratchpad windows, of the team and of its cluster, and through pages of every policy (R48, R49, R62,
R63, R74, R75, R275, R279, R281): each lane's bytes, the lowest first, zero-extended, are written when the READS flag's operation completes; a byte inside a lane's
store in a window holds that lane's byte, the highest lane's where several store it, every other byte of the scratchpads keeps its value, and nothing else of the
machine changes but the numbers given out. A load that hits in the first level takes the line's bytes, untranslated, and changes nothing else; one that misses a
COHERENT page takes the bytes at home, words owned elsewhere pulled first, and leaves them in a clean line of its name. A COHERENT store leaves its bytes valid and
dirty in the line and one registration for each word they touch, every other byte of the line, the other lines and home memory as they were. A load through a
STREAM, DIRECT or ACCUM page takes the bytes at home and allocates nothing; through a DIRECT or ACCUM page it uses no copy of its core, whose dirty bytes come home
first. A store through one of the three leaves the core as its bytes for the home slice, the core's own copy of the words written back and invalidated. A peer's
leaf is accessed so whatever its policy says: its bytes are free (log 9), and a store leaves for the peer. That a load takes its bytes at issue is the model's choice
(log 4). -/
def Obligations.LoadsAndStoresReachTheirBytes : Prop :=
  (∀ (s : State) (u : Nat) (t : Team) (c : Clause) (d a b : Sel) (r : MemRow) (core off : Nat → Nat), Issuing s u t c → r ∈ loadRows t c.lit d a b →
     MemReady t c r → InWindows s t r core off →
     (∀ x ∈ accessesOf t r.op.uniform r.lane, scratchPoisoned s (core x.slot) (off x.slot) r.op.size = false) →
     CompletesLate r.instr s u t c.reads (lanesOn t) d r.op.regs (fun k =>
       let j := if isSreg d then lowestOf t else k
       natOfBytes (Memory.reads (s.core (core j)).scratch (off j) r.op.size)) 0) ∧
  (∀ (s : State) (u : Nat) (t : Team) (c : Clause) (d a b : Sel) (r : MemRow) (core off : Nat → Nat), Issuing s u t c → r ∈ storeRows t c.lit d a b →
     MemReady t c r → InWindows s t r core off →
     let hits (q p : Nat) : List LaneAcc := (accessesOf t r.op.uniform r.lane).filter (fun x =>
       decide (core x.slot = q) && decide (off x.slot ≤ p) && decide (p < off x.slot + r.op.size))
     ∃ s2, exec r.instr s = .next (stepOn s2 u) ∧
       (∀ q p, Memory.read (s2.core q).scratch p = match (hits q p).getLast? with
         | some x => BitVec.ofNat 8 (x.data / 2 ^ (8 * (p - off x.slot)))
         | none => Memory.read (s.core q).scratch p) ∧
       (∀ q, ∀ w ∈ (s2.core q).poisonScratch, w ∈ (s.core q).poisonScratch) ∧
       (∀ q, { s2.core q with scratch := [], poisonScratch := [] } = { s.core q with scratch := [], poisonScratch := [] }) ∧
       (∀ q, (∀ x ∈ accessesOf t r.op.uniform r.lane, core x.slot ≠ q) → s2.core q = s.core q) ∧
       ({ s2 with cores := [], nextId := 0 } : State) = { s with cores := [], nextId := 0 }) ∧
  (∀ (s : State) (u : Nat) (t : Team) (c : Clause) (d a b : Sel) (r : MemRow) (line : Nat → L1Line), Issuing s u t c → r ∈ loadRows t c.lit d a b →
     MemReady t c r → (∀ x ∈ accessesOf t r.op.uniform r.lane, PlainAccess x.ea r.op.size ∧ HeldLine s t x.ea (line x.slot) ∧ (line x.slot).r = true ∧
       ((line x.slot).policy = .coherent ∨ (line x.slot).policy = .stream) ∧ ∀ i, i < r.op.size → (line x.slot).valid.getLsbD (x.ea % 128 + i) = true) →
     ∃ s1, CompletesLateFrom r.instr s s1 u t c.reads (lanesOn t) d r.op.regs (fun k =>
         let x := r.lane (if isSreg d then lowestOf t else k)
         natOfBytes ((List.range r.op.size).map (fun i => lineByte (line x.slot).data (x.ea % 128 + i)))) 0 ∧
       (∀ x, s1.core x = s.core x) ∧ ({ s1 with cores := [] } : State) = { s with cores := [] }) ∧
  (∀ (s : State) (u : Nat) (t : Team) (c : Clause) (d a b : Sel) (r : MemRow) (x : LaneAcc) (m : Mapping) (s1 : State), Issuing s u t c →
     r ∈ loadRows t c.lit d a b → MemReady t c r → accessesOf t r.op.uniform r.lane = [x] → PlainAccess x.ea r.op.size →
     let core := l1Core t.cfg x.ea
     reachLine (accessFrom s u t c r) t.cfg x.ea r.op.size needR false = (.ok m, s1) → m.policy = .coherent → m.peer = none → m.pa % 128 = x.ea % 128 → FreeLine s1 t x.ea m.pa →
     NothingOut s1 core (m.pa / 128) →
     let h := homeLoad s1 m.pa r.op.size
     poisonedRange h.2 m.pa r.op.size = false → ∃ s2 t2 o l, exec r.instr s = .next (stepOn s2 u) ∧ tblGet s2.teams u = some t2 ∧
       LateAdded t t2 o s.nextId c.reads ∧ o.wait = .none ∧ WritesLate o d r.op.regs (lanesFor t d (lanesOn t)) (fun _ => h.1) 0 ∧
       HeldLine s2 t x.ea l ∧ l.pline = m.pa / 128 ∧ l.r = m.r ∧ l.w = m.w ∧ l.policy = .coherent ∧ l.dirty = 0 ∧
       (∀ i, i < r.op.size → l.valid.getLsbD (m.pa % 128 + i) = true ∧ lineByte l.data (m.pa % 128 + i) = homeByte h.2 (m.pa + i)) ∧
       (∀ y ∈ (s1.core core).l1, y ∈ (s2.core core).l1) ∧ s2.mem = h.2.mem) ∧
  (∀ (s : State) (u : Nat) (t : Team) (c : Clause) (d a b : Sel) (r : MemRow) (x : LaneAcc) (m : Mapping) (s1 : State), Issuing s u t c →
     r ∈ storeRows t c.lit d a b → MemReady t c r → accessesOf t r.op.uniform r.lane = [x] → PlainAccess x.ea r.op.size →
     let core := l1Core t.cfg x.ea
     let at_ (i : Nat) : Nat := m.pa % 128 + i
     reachLine (accessFrom s u t c r) t.cfg x.ea r.op.size needW false = (.ok m, s1) → m.policy = .coherent → m.peer = none → m.pa % 128 = x.ea % 128 →
     NothingOut s1 core (m.pa / 128) → ∀ old : Option L1Line, (match old with
       | some l => HeldLine s1 t x.ea l ∧ l.pline = m.pa / 128
       | none => FreeLine s1 t x.ea m.pa) →
     ∃ s2 l, exec r.instr s = .next (stepOn s2 u) ∧ HeldLine s2 t x.ea l ∧ l.pline = m.pa / 128 ∧ l.w = m.w ∧ l.policy = .coherent ∧
       (∀ i, i < r.op.size → lineByte l.data (at_ i) = BitVec.ofNat 8 (x.data / 2 ^ (8 * i)) ∧ l.valid.getLsbD (at_ i) = true ∧
         l.dirty.getLsbD (at_ i) = true) ∧
       (∀ k, k < 128 → (∀ i, i < r.op.size → k ≠ at_ i) → (match old with
         | some y => lineByte l.data k = lineByte y.data k ∧ l.valid.getLsbD k = y.valid.getLsbD k ∧ l.dirty.getLsbD k = y.dirty.getLsbD k
         | none => l.valid.getLsbD k = false ∧ l.dirty.getLsbD k = false)) ∧
       (∃ n, (s2.core core).out = (s1.core core).out ++ (wordsOf m.pa r.op.size).map (fun w =>
         { team := u, instr := n, slot := x.slot, va := x.ea, work := .registration w (bytesIn m.pa r.op.size w), counted := false })) ∧
       (∀ y ∈ (s1.core core).l1, y.pline ≠ m.pa / 128 → y ∈ (s2.core core).l1) ∧ (∀ y, y ≠ core → s2.core y = s1.core y) ∧
       ({ s2 with cores := [] } : State) = { s1 with cores := [] }) ∧
  (∀ (s : State) (u : Nat) (t : Team) (c : Clause) (d a b : Sel) (r : MemRow) (x : LaneAcc) (m : Mapping) (s1 : State), Issuing s u t c →
     r ∈ loadRows t c.lit d a b → MemReady t c r → accessesOf t r.op.uniform r.lane = [x] → PlainAccess x.ea r.op.size →
     let core := l1Core t.cfg x.ea
     let n := r.op.size
     reachLine (accessFrom s u t c r) t.cfg x.ea n needR false = (.ok m, s1) → m.record = none →
     let gives (z : State) (v : Nat) : Prop := ∃ s2 t2 o, exec r.instr s = .next (stepOn s2 u) ∧ tblGet s2.teams u = some t2 ∧
       LateAdded t t2 o s.nextId c.reads ∧ o.wait = .none ∧ WritesLate o d r.op.regs (lanesFor t d (lanesOn t)) (fun _ => v) 0 ∧ (m.peer.isSome = true → o.peers = [(x.slot, x.ea)]) ∧
       (s2.core core).l1 = (z.core core).l1 ∧ s2.mem = z.mem
     (m.peer = none → m.policy ≠ .coherent → FreeLine s1 t x.ea m.pa → NothingOut s1 core (m.pa / 128) →
       let h := homeLoad s1 m.pa n
       poisonedRange h.2 m.pa n = false →
         gives h.2 h.1 ∧ ((∀ i, i < n → tblGet s1.own ((m.pa + i) / 4) = none) → PlainBytes s1 m.pa n → h.1 = natOfBytes (Memory.reads s1.mem m.pa n))) ∧
     (∀ l, m.peer = none → m.policy = .direct ∨ m.policy = .accum → HeldLine s1 t x.ea l → l.pline = m.pa / 128 → m.pa % 128 = x.ea % 128 →
       NothingOut s1 core (m.pa / 128) → (∀ k ∈ (s1.core core).acks, k.word / 32 ≠ m.pa / 128) →
       let h := homeLoad (invalidateOwn s1 core m.pa n) m.pa n
       poisonedRange h.2 m.pa n = false → gives h.2 h.1 ∧
         (∀ i, i < n → ∀ k ∈ (h.2.core core).l1, k.pline = m.pa / 128 → k.valid.getLsbD (m.pa % 128 + i) = true → k.dirty.getLsbD (m.pa % 128 + i) = true) ∧
         ((∀ i, i < n → tblGet s1.own ((m.pa + i) / 4) = some core ∨
             tblGet s1.own ((m.pa + i) / 4) = none ∧ l.dirty.getLsbD (m.pa % 128 + i) = false) → PlainBytes s1 m.pa n → h.1 = natOfBytes ((List.range n).map (fun i =>
           if l.dirty.getLsbD (m.pa % 128 + i) then lineByte l.data (m.pa % 128 + i) else Memory.read s1.mem (m.pa + i))))) ∧
     (m.peer.isSome = true → gives s1 (peerBytes s1 n).1)) ∧
  (∀ (s : State) (u : Nat) (t : Team) (c : Clause) (d a b : Sel) (r : MemRow) (x : LaneAcc) (m : Mapping) (s1 : State), Issuing s u t c →
     r ∈ storeRows t c.lit d a b → MemReady t c r → accessesOf t r.op.uniform r.lane = [x] → PlainAccess x.ea r.op.size →
     let core := l1Core t.cfg x.ea
     let bs := bytesOf r.op.size x.data
     reachLine (accessFrom s u t c r) t.cfg x.ea r.op.size needW false = (.ok m, s1) →
     let leaves (s0 : State) (w : OutWork) : Prop := ∃ s2 n, exec r.instr s = .next (stepOn s2 u) ∧
       (s2.core core).out = (s0.core core).out ++ [{ team := u, instr := n, slot := x.slot, va := x.ea, work := w, counted := false }] ∧
       { s2.core core with out := [] } = { s0.core core with out := [] } ∧ (∀ y, y ≠ core → s2.core y = s0.core y) ∧
       ({ s2 with cores := [] } : State) = { s0 with cores := [] }
     (m.peer.isSome = true → leaves s1 (.peerWrite m.pa bs)) ∧
     (m.peer = none → m.policy ≠ .coherent → NothingOut s1 core (m.pa / 128) → leaves (invalidateOwn s1 core m.pa r.op.size) (.homeWrite m.pa bs)))

/-- What an atomic leaves in memory (R41, R284, R286): x the old element, y the operand, W the width; a floating-point sum is rounded to nearest even with
subnormals kept, whatever MODE says. Through a translated page an atomic of one lane leaves the core as one batch for its element (R40), the core's own copy of the
words written back and invalidated (R64); what the batch does at its home is stated with the work that reaches home. -/
def Obligations.AtomicsUpdateTheirElement : Prop :=
  (∀ (s : State) (u : Nat) (t : Team) (c : Clause) (d a b : Sel) (r : MemRow) (x : LaneAcc) (m : Mapping) (s1 : State), Issuing s u t c →
    r ∈ atomicRows t c.lit d a b → MemReady t c r → accessesOf t r.op.uniform r.lane = [x] → PlainAccess x.ea r.op.size →
    reach (accessFrom s u t c r) t.cfg x.ea needAtomic true = (.ok m, s1) → m.peer = none →
    let core := l1Core t.cfg x.ea
    let s0 := invalidateOwn (drainLine (refreshLine s1 t.cfg x.ea m) core (m.pa / 128)) core m.pa r.op.size
    ∃ s2 e w, exec r.instr s = .next (stepOn s2 u) ∧ (s2.core core).out = (s0.core core).out ++ [e] ∧ e.team = u ∧ e.slot = x.slot ∧ e.va = x.ea ∧
      e.work = .batch w ∧ w.lanes = [{ slot := x.slot, pa := m.pa, va := x.ea, y := x.data, cmp := x.cmp }] ∧ w.size = r.op.size ∧ w.peer = false ∧
      r.op.kind = .atomic w.op w.ty w.late.isSome ∧ { s2.core core with out := [] } = { s0.core core with out := [] } ∧
      (∀ y, y ≠ core → s2.core y = s0.core y) ∧ ({ s2 with cores := [], teams := [] } : State) = { s0 with cores := [], teams := [] }) ∧
  ∀ (ty size x y cmp : Nat), size = 2 ∨ size = 4 ∨ size = 8 ∨ size = 16 → x < 2 ^ (8 * size) → y < 2 ^ (8 * size) →
    let w := 8 * size
    let num (v : Nat) : Int := if ty = 0 ∨ ty = 2 ∨ ty = 4 then (BitVec.ofNat w v).toInt else (v : Int)
    atomOp 0xA0 ty size x y cmp = (BitVec.ofNat w x + BitVec.ofNat w y).toNat ∧
    (num (atomOp 0xA1 ty size x y cmp) = min (num x) (num y)) ∧ (num (atomOp 0xA2 ty size x y cmp) = max (num x) (num y)) ∧
    (∀ k, (atomOp 0xA3 ty size x y cmp).testBit k = (x.testBit k && y.testBit k)) ∧
    (∀ k, (atomOp 0xA4 ty size x y cmp).testBit k = (x.testBit k || y.testBit k)) ∧
    (∀ k, (atomOp 0xA5 ty size x y cmp).testBit k = (x.testBit k != y.testBit k)) ∧ atomOp 0xA6 ty size x y cmp = y ∧
    (∀ op, op = 0xA7 ∨ op = 0xA8 → (x = cmp → atomOp op ty size x y cmp = y) ∧ (x ≠ cmp → atomOp op ty size x y cmp = x)) ∧
    (isFpType ty = true → ∀ e, e < elemCount ty → let f := fmtOfType ty
      elemOf ty e (atomOp 0xA9 ty size x y cmp) = (fpAddV f 0 (fpDecode f (elemOf ty e x)) (fpDecode f (elemOf ty e y))).1 % 2 ^ elemWidth ty ∧
      (¬ NanCode f (elemOf ty e x) → ¬ NanCode f (elemOf ty e y) →
        elemOf ty e (atomOp 0xAA ty size x y cmp) = (if orderKey f (elemOf ty e x) ≤ orderKey f (elemOf ty e y) then elemOf ty e x else elemOf ty e y) ∧
        elemOf ty e (atomOp 0xAB ty size x y cmp) = (if orderKey f (elemOf ty e x) ≤ orderKey f (elemOf ty e y) then elemOf ty e y else elemOf ty e x)))

/-- RELEASE, ACQUIRE, FENCE and XFENCE (R201 to R203, R210): RELEASE completes with the team's stores and atomics home: no core of it holds an outbound entry or an
acknowledgment of the team; ACQUIRE leaves no fetch-cache or instruction-cache line in its cores, and of the first level the bytes of owned words and of words that
hold a dirty byte (work under way for a line of which a word holds both dirty and clean bytes is home first: log 62); FENCE is one after the other; after XFENCE no
outbound entry of the team is left that is not performed with respect to it. That the whole wait is done in the instruction's own step is the model's choice (log
5). -/
def Obligations.OrderingInstructionsComplete : Prop :=
  ∀ (s : State) (u : Nat) (t : Team) (c : Clause), Issuing s u t c → slicePending t = false →
    (∀ s1, ReleasePasses s u t s1 → exec .release s = .next (stepOn s1 u)) ∧
    (∀ s1, AcquirePasses s u t s1 → exec .acquire s = .next (stepOn s1 u)) ∧
    (∀ s1 s2, ReleasePasses s u t s1 → AcquirePasses s1 u t s2 → exec .fence s = .next (stepOn s2 u)) ∧
    exec .xfence s = .next (stepOn ((teamCores t.cfg).foldl (fun z k => drainWhere k (notPerformed u) (z.core k).out.length z) s) u) ∧
    (∀ (z : State) (k : Nat),
      let y := settleMixed z k
      let x := (acquireCore z k).core k
      x.fetchLines = [] ∧ x.icache = [] ∧ x.l1.length = (y.core k).l1.length ∧
      ∀ (j : Nat) (l m : L1Line), (y.core k).l1[j]? = some l → x.l1[j]? = some m →
        { m with valid := l.valid } = l ∧ ∀ b, b < 128 → m.valid.getLsbD b =
          (l.valid.getLsbD b && (l.owned.getLsbD (b / 4) || decide (tblGet y.own (32 * l.pline + b / 4) = some k) ||
            (List.range 4).any (fun i => l.dirty.getLsbD (b / 4 * 4 + i))))) ∧
    (∀ (z : State) (cfg : TeamCfg), ∀ k ∈ teamCores cfg,
      (∀ e ∈ ((drainTeam z u cfg).core k).out, e.team ≠ u) ∧ (∀ a ∈ ((drainTeam z u cfg).core k).acks, a.team ≠ u) ∧
      ∀ e ∈ (((teamCores cfg).foldl (fun z k => drainWhere k (notPerformed u) (z.core k).out.length z) z).core k).out, notPerformed u e = false)

/-- QLOCK and QUNLOCK (R42 to R44, R289, R290): QLOCK sends one request to the unit at the lock's home, its answer late on READS: 1 and the acquire for a free lock
(one without a record is free: log 74), which the team then holds; 2 for one that it holds or awaits; behind another holder it becomes the last waiter, or has 0
when the slice's 4,096 waiters are in use. QUNLOCK by the holder releases and hands the lock to the oldest waiter, with the answer 1 and the acquire unless that
team is saved, or leaves it free, its release done in the same step (log 5); by another team it is discarded and counted; a v or w destination is ILLEGAL_OP. -/
def Obligations.QueueLocksAskTheirUnit : Prop :=
  ∀ (s : State) (u : Nat) (t : Team) (c : Clause) (d a : Sel) (m : Mapping) (s1 : State), Issuing s u t c → slicePending t = false →
    unitReach s t.cfg (readVal t c.lit 0 a 2) 8 = (.ok m, s1) →
    (Legal (.qlock d a) t true anyType [dst d 1, src a 2] → flagCount t c.reads ≠ 63 →
      (∀ k, d = .s k →
        let o : LateOp :=
          { id := s1.nextId, flag := c.reads, lane := ((tblGet s1.teams u).bind (fun t1 => lowestSlot t1.cfg.capacity t1.exec)).getD 0, atomic := false,
            near := false, wait := .qlock m.pa, vwrites := [], swrites := [], mask := none, fpst := 0, came := 0, poisoned := [], peers := [], build := none, hbind := none, pop := some (k, 0) }
        exec (.qlock d a) s = .next (stepOn (qlockUnit (({ s1 with nextId := s1.nextId + 1 } : State).updTeam u (fun t1 =>
          raiseFlag { t1 with late := t1.late ++ [o] } c.reads)) u s1.nextId m.pa d t.cfg) u)) ∧
      (isSreg d = false → Traps (.qlock d a) s u .illegalOp (lanesExec t))) ∧
    (Legal (.qunlock a) t false anyType [src a 2] →
      ((tblGet s1.locks m.pa).bind Lock.holder ≠ some u → ∀ g, g = homeSlice m.pa →
        exec (.qunlock a) s = .next (stepOn (s1.setSlice g { s1.slice g with discards := (s1.slice g).discards + 1 }) u)) ∧
      ((tblGet s1.locks m.pa).bind Lock.holder = some u → ∀ s2, ReleasePasses s1 u t s2 → exec (.qunlock a) s = .next (stepOn (passLock s2 m.pa) u))) ∧
    (∀ (z : State) (v id pa k : Nat) (cfg : TeamCfg), k < 32 →
      let waiters := (tblGet z.locks pa).elim [] Lock.waiters
      let holder := (tblGet z.locks pa).bind Lock.holder
      let waiting := ((z.locks.filter (fun l => decide (homeSlice l.1 = homeSlice pa))).map (fun l => l.2.waiters.length)).sum
      let asked := qlockUnit z v id pa (.s k) cfg
      (holder = none → asked =
        acquireNow (answerLate { z with locks := tblSet z.locks pa { holder := some v, waiters := waiters } } v id (.s k) 1) v cfg) ∧
      (holder = some v → asked = answerLate z v id (.s k) 2) ∧
      (∀ h, holder = some h → (∃ w ∈ waiters, w.1 = v) → asked = answerLate z v id (.s k) 2) ∧
      (∀ h, holder = some h → h ≠ v → (∀ w ∈ waiters, w.1 ≠ v) →
        (4096 ≤ waiting → asked = answerLate z v id (.s k) 0) ∧
        (waiting < 4096 → asked = { z with locks := tblSet z.locks pa { holder := some h, waiters := waiters ++ [(v, id)] } }))) ∧
    (∀ (z : State) (pa : Nat) (l : Lock), tblGet z.locks pa = some l →
      (l.waiters = [] → passLock z pa = { z with locks := tblSet z.locks pa { holder := none, waiters := [] } }) ∧
      (∀ v id rest k t1 o, l.waiters = (v, id) :: rest → tblGet z.teams v = some t1 → t1.late.filter (fun x => decide (x.id = id)) = [o] →
        o.pop = some (k, 0) → k < 32 →
        let y := answerLate { z with locks := tblSet z.locks pa { holder := some v, waiters := rest } } v id (.s k) 1
        passLock z pa = if t1.saved then y else acquireNow y v t1.cfg)) ∧
    (∀ (z : State) (v id k x pa : Nat) (t1 : Team) (o : LateOp), k < 32 → x < 2 ^ 32 → tblGet z.teams v = some t1 →
      t1.late.filter (fun y => decide (y.id = id)) = [o] → o.vwrites = [] → o.swrites = [] → o.mask = none → o.fpst = 0 → o.build = none →
      o.poisoned = [] → o.peers = [] → o.wait = .qlock pa →
      ∃ t2 o2, answerLate z v id (.s k) x = z.setTeam v t2 ∧ t2.late.filter (fun y => decide (y.id = id)) = [o2] ∧ o2.wait = .none ∧ o2.flag = o.flag ∧
        WritesLate o2 (.s k) 1 [0] (fun _ => x) 0 ∧ { t2 with late := [] } = { t1 with late := [] })

/-! ## The fetch unit and job cards (R82 to R98, R291 to R294) -/

/-- HBIND (R93 to R95, R291): the slot, then the alignment, then the read, then the descriptor is judged; a descriptor that R95 accepts is copied to its slot, the
binding counted on OTHERS. FETCH and FETCH2 (R96, R97, R292): through a bound slot the lanes' reads are made as R273 judges them, their values late on READS; an
empty slot is ILLEGAL_OP. Where the fetch cache serves every read, each lane gets the element that its coordinates name, addressed and decoded by the descriptor's
format, extended as SIGN says, or 0 outside the extents; a read that misses takes its line at home, the stores of its core to the line there before, and keeps it.
That the lanes' bytes are taken in the instruction's own step is the model's choice (log 4); that a field which a format does not use counts as reserved in a
descriptor, and an unused extent in the product, are its readings (logs 26, 66), and so is the size of the read of a bitmap (log 64). -/
def Obligations.HandlesBindAndFetch : Prop :=
  (∀ (s : State) (u : Nat) (t : Team) (c : Clause) (a b : Sel), Issuing s u t c → Legal (.hbind a b) t true anyType [src a 1, src b 2] →
     slicePending t = false → flagCount t c.others ≠ 63 →
     let k := readVal t c.lit 0 a 1
     let va := readVal t c.lit 0 b 2
     (16 ≤ k → Traps (.hbind a b) s u .illegalOp (lanesExec t)) ∧ (k < 16 → va % 64 ≠ 0 → Traps (.hbind a b) s u .align (lanesExec t)) ∧
     (∀ s1 s2 bs, k < 16 → va % 64 = 0 → checkRun s t va 64 1 needR false = (.ok, s1) → readRun s1 u t va 64 = (some bs, s2) →
       let h : BitVec 512 := BitVec.ofNat 512 (natOfBytes bs)
       (¬ HandleGood h → exec (.hbind a b) s = .next (takeTrap s2 u (trapOf .illegalOp (lanesExec t)))) ∧
       (HandleGood h → handleOf t k = none → ∃ s3, exec (.hbind a b) s = .next (stepOn s3 u) ∧
         ∀ t2, tblGet s2.teams u = some t2 → ∃ t3, tblGet s3.teams u = some t3 ∧ handleOf t3 k = some h ∧ (∀ j, j ≠ k → handleOf t3 j = handleOf t2 j) ∧
           ∃ o, t3.late = t2.late ++ [o] ∧ o.hbind = some k ∧ o.flag = c.others))) ∧
  (∀ (s : State) (u : Nat) (t : Team) (c : Clause) (d a b : Sel) (i : Instr) (two : Bool) (nb : Nat),
     (i, two, nb) ∈ [(Instr.fetch d a b, false, 1), (.fetch2 d a b, true, 2)] → Issuing s u t c →
     Legal i t true anyType [dst d 1, src a 1, src b nb] → Unpoisoned t [dst d 1, src a 1, src b nb] (lanesOn t) → slicePending t = false →
     c.reads < 12 → flagCount t c.reads ≠ 63 →
     let k := readVal t c.lit 0 a 1
     (16 ≤ k ∨ handleOf t k = none → Traps i s u .illegalOp (lanesExec t)) ∧
     (∀ h, k < 16 → handleOf t k = some h → (∀ o ∈ t.late, o.hbind ≠ some k) →
       let n := if descEsize h = 8 then 2 else 1
       opndOk t.cfg.budget (dst d n) = true →
       let op : MemOp := { kind := .fetch h, size := descEsize h, dst := d, regs := n, late := some s.nextId, uniform := isSreg d }
       let lanes := accessesOf t (isSreg d) (fun j => { slot := j, ea := descBase h, data := fetchIndex h two (readVal t c.lit j b nb), cmp := 0 })
       let s0 := (startLate s u c.reads (laneLate s t op lanes)).2
       let z := settleLanes s0 u t op lanes
       let index (j : Nat) : Nat := readVal t c.lit j b nb
       (z.parks = [] → z.helds = [] → exec i s = .next (stepOn z.s u)) ∧
       (∀ val : Nat → Nat, HandleGood h → (∀ x ∈ lanes, FetchIs (FetchCached s t) h two (index x.slot) (val x.slot)) →
         CompletesLate i s u t c.reads (lanesOn t) d n (fun j => val (if isSreg d then lowestOf t else j)) 0) ∧
       (∀ x cs va m s1 bs s2 v, HandleGood h → h.toNat % 16 = 0 → lanes = [x] → fetchPlace h two (index x.slot) = some cs →
         ElementIs (fun a w y => a = va ∧ w = descEsize h ∧ y = natOfBytes ((bs.drop (va % 128)).take w)) h cs v →
         va < 0xFE00000000000 → va % descEsize h = 0 → (∀ l ∈ (s.core t.cfg.core).fetchLines, ¬ (l.vline = va / 128 ∧ l.ctx = t.cfg.ctx)) →
         reach (takeId s0).2 t.cfg va needFetch false = (.ok m, s1) → m.peer = none → m.record = none → m.pa % 128 = va % 128 →
         NothingOut s1 (l1Core t.cfg va) (m.pa / 128) →
         let y := drainLine s1 (l1Core t.cfg va) (m.pa / 128)
         let line := m.pa / 128 * 128
         homeTake y false line 128 = (some bs, s2) →
         ((∀ w, w < 32 → tblGet y.own (line / 4 + w) = none) → PlainBytes y line 128 → bs = Memory.reads y.mem line 128) ∧
         ∃ s3 t3 o l, exec i s = .next (stepOn s3 u) ∧ tblGet s3.teams u = some t3 ∧ LateAdded t t3 o s.nextId c.reads ∧ o.wait = .none ∧
           WritesLate o d n (lanesFor t d (lanesOn t)) (fun _ => v) 0 ∧ l ∈ (s3.core t.cfg.core).fetchLines ∧ l.vline = va / 128 ∧ l.ctx = t.cfg.ctx ∧
           l.pline = m.pa / 128 ∧ ∀ k, k < 128 → lineByte l.data k = nthD bs k 0)))

/-- CARD, CWAIT and CPOLL (R87, R88, R293, R294): a card that R87 accepts is PENDING under the team's next ticket, one it refuses is a CARD trap; CWAIT waits while
PENDING, traps on FAULTED with the ticket as detail, and acquires on COMPLETE; CPOLL gives the status. R87 accepts a card whose reserved fields are zero, whose
counts are as its kind needs, whose rows and completion word lie in its regions, and whose regions are placed and keep reads apart from writes; a region of a window
is placed where the window check of R76 passes for the submitter. CARD's release and CWAIT's acquire are done in the same step
(log 5); which checks come before the acquire is the model's reading (log 33); the readings in the check of a card are those of logs 27, 82 and 83. -/
def Obligations.CardsAreAcceptedAndAwaited : Prop :=
  ∀ (s : State) (u : Nat) (t : Team) (c : Clause) (d a : Sel), Issuing s u t c → slicePending t = false → flagCount t c.reads ≠ 63 →
    (∀ s1 s2 s3 bs t3, Legal (.card d a) t true anyType [dst d 1, src a 2] → isSreg d = true → ReleasePasses s u t s1 → cardsPending s1 u < 64 →
      checkRun s1 t (readVal t c.lit 0 a 2) 256 256 needR true = (.ok, s2) → readRun s2 u t (readVal t c.lit 0 a 2) 256 = (some bs, s3) →
      tblGet s3.teams u = some t3 →
      let bits : BitVec 2048 := BitVec.ofNat 2048 (natOfBytes bs)
      let k := if t.tickets = 0xFFFFFFFF then 1 else t.tickets + 1
      (¬ CardGood (window s3 t) bits → exec (.card d a) s = .next (takeTrap s3 u (trapOf .card (lanesExec t)))) ∧
      (CardGood (window s3 t) bits → ∃ s4 t4 card, exec (.card d a) s = .next (stepOn s4 u) ∧ tblGet s4.teams u = some t4 ∧ t4.tickets = k ∧
        s4.cards = s3.cards ++ [card] ∧ card.bits = bits ∧ card.status = 1 ∧ card.started = false ∧ card.ticket = k ∧ card.team = some u ∧
        t4.cards.getLast? = some { ticket := k, status := 1 })) ∧
    (Legal (.cwait a) t false anyType [src a 1] →
      let k := readVal t c.lit 0 a 1
      (cardStatus t k = 1 → exec (.cwait a) s = .next (s.setTeam u { t with wait := .held })) ∧
      (cardStatus t k = 2 →
        exec (.cwait a) s = .next (takeTrap s u { trapOf .card (lanesExec t) with detail := BitVec.ofNat 32 k })) ∧
      (∀ s1, cardStatus t k = 0 → AcquirePasses s u t s1 → exec (.cwait a) s = .next (stepOn s1 u))) ∧
    (Legal (.cpoll d a) t true anyType [dst d 1, src a 1] → Unpoisoned t [dst d 1, src a 1] (lanesOn t) →
      CompletesLate (.cpoll d a) s u t c.reads (lanesOn t) d 1 (fun _ => cardStatus t (readVal t c.lit 0 a 1)) 0) ∧
    (∀ va n core off, va < 2 ^ 64 →
      (window s t va n = .no ↔ va / 2 ^ 44 % 2 ^ 8 < 0xFE) ∧ (window s t va n = .at core off ↔ InScratch s t va n core off))

/-! ## Paths, calls, traps (R177 to R190, R314 to R322, R331 to R335) -/

/-- R178: a team that goes on at a header position of no rejoin of its frame stands there, w0 to w3 gone; at the rejoin of its frame's top entry, or with EXEC
empty, it pops the entry: MODE and EXEC are the entry's, less the slots no longer LIVE, and it goes on at PC for PEND and at REJOIN for JOIN; a branch pops the
entries in hardware, and with none in the frame stack that is all (R192; where its bytes are stored, they are as log 19 writes them). BRA, BRC and BRU
(R177, R226, R316): the target is the clause header plus four times the signed 16-bit offset; BRC sends the lanes of EXEC whose mask bit is set, the others fall
through; with both nonempty JOIN and PEND are pushed and the taken lanes run first; past the frame stack's size it is a FRAME trap. -/
def Obligations.PathsBranchAndRejoin : Prop :=
  (∀ (t : Team) (pc : Nat),
     (arrives (standsAt t pc) = false → goTo t pc = standsAt t pc) ∧
     (∀ e rest, t.reconv = e :: rest → ownEntries (standsAt t pc) = true → t.exec = 0 ∨ e.rejoin = pc % 2 ^ 52 →
       let t1 := { standsAt t pc with reconv := rest, mode := e.mode, exec := e.mask &&& t.frame, pc := if e.pend then e.pc else e.rejoin }
       arrives t1 = false → goTo t pc = t1) ∧
     (t.spilledEntries = 0 → goOn t pc = goTo t pc)) ∧
  (∀ (s : State) (u : Nat) (t : Team) (c : Clause) (m : Nat) (a : Sel) (hm : m < 8), Issuing s u t c →
     let target := branchTo c (c.lit.toNat % 2 ^ 16)
     let rejoin := branchTo c (c.lit.toNat / 2 ^ 16)
     let next := (c.header + 4 * (c.words.length + 1)) % 2 ^ 52
     let taken := t.exec &&& (masksOf t)[m] &&& t.frame
     let fall := t.exec &&& ~~~ taken
     let split (x : Team) : Team := { x with
       reconv := { pend := true, mask := fall, pc := next, rejoin := rejoin, mode := t.mode } ::
         { pend := false, mask := t.exec, pc := rejoin, rejoin := rejoin, mode := t.mode } :: x.reconv }
     (Instr.bra.wellFormed = true → exec .bra s = .next (s.setTeam u (goOn t target))) ∧
     (Legal (.bru a) t false anyType [src a 1] →
       exec (.bru a) s = .next (s.setTeam u (goOn t (if readVal t c.lit 0 a 1 ≠ 0 then target else next)))) ∧
     ((Instr.brc m).wellFormed = true →
       (taken = 0 → exec (.brc m) s = .next (s.setTeam u (goOn t next))) ∧
       (taken ≠ 0 → fall = 0 → exec (.brc m) s = .next (s.setTeam u (goOn t target))) ∧
       (taken ≠ 0 → fall ≠ 0 → t.cfg.fssize < frameUse (fitStacks (split t)) → Traps (.brc m) s u .frame (lanesExec t)) ∧
       (∀ s1, taken ≠ 0 → fall ≠ 0 → frameUse (fitStacks (split t)) ≤ t.cfg.fssize →
         framePushed s u t (fun x => .ok (goTo { split x with exec := taken } target)) = some s1 → exec (.brc m) s = .next s1)))

/-- CALL (R180 to R187, R317): with the flags zero the callee begins after its two header words; a SAME call gives its lanes their arguments in v0 upward, EXEC
and the LIVE slots are the calling lanes; what R180's checks refuse traps with nothing changed. A WIDEN call's first round gives the first callers each an
aligned group of n FREE slots, the lowest groups first: LIVE and in EXEC, registers and mask bits zero but for the caller's arguments in v0 upward, SUBIDX the
place in the group and NWIDE n; where no group is FREE the callers' frames are spilled, and then the highest inactive slots until one is. A GATHER call folds
its callers into the lowest FREE slot, or the lowest caller's, spilled: SUBIDX 0, NWIDE their number, v0 upward the first caller's arguments, and a gather frame
with the arguments of each, no result set. That the caller's other lanes are HELD is the model's reading of R184 (log 18); the bytes of a frame stack that
spills are as log 19 writes them. -/
def Obligations.CallsBeginTheirCallee : Prop :=
  ∀ (s : State) (u : Nat) (t : Team) (c : Clause) (vd va : Nat) (w0 w1 : Word) (h : FnHdr), Issuing s u t c → Quiet s u t →
    Legal (.call (.v vd) (.v va)) t false anyType [named (.v vd) 1, named (.v va) 1] → c.target = [w0, w1] → fnHeader w0 w1 = some h →
    Unpoisoned t [src (.v va) h.narg] t.exec →
    let target := (BitVec.ofNat 52 c.header + (c.lit.signExtend 52 <<< 2)).toNat
    let i := Instr.call (.v vd) (.v va)
    (∀ k, tryCall t h target vd va t.exec (clauseEnd c) [] = .error k → Traps i s u k t.exec) ∧
    (∀ t1 s1, tryCall t h target vd va t.exec (clauseEnd c) [] = .ok t1 →
      framePushed s u t (fun x => tryCall x h target vd va x.exec (clauseEnd c) []) = some s1 → exec i s = .next s1) ∧
    (t.cfg.budget < h.vbudget → Traps i s u .budget t.exec) ∧
    (∀ t1, h.rule = .same → t.handler = none → tryCall t h target vd va t.exec (clauseEnd c) [] = .ok t1 →
      t1.pc = (target + 8) % 2 ^ 52 ∧ t1.clause = none ∧ t1.exec = t.exec ∧ t1.frame = t.exec ∧ t1.held = t.held ||| (t.frame &&& ~~~ t.exec) ∧
      t1.mode = t.mode ∧ t1.reconv = t.reconv ∧ t1.calls.length = t.calls.length + 1 ∧ t1.calls.drop 1 = t.calls ∧
      (∀ k j, k ∈ slotsOf t.cfg.capacity t.exec → j < h.narg → regOf t1 k (.v j) = regOf t k (.v (va + j))) ∧
      (∀ k j, k ∉ slotsOf t.cfg.capacity t.exec → j < 192 → regOf t1 k (.v j) = regOf t k (.v j))) ∧
    (∀ t1, h.rule ≠ .same → t.handler = none → t.cfg.capacity ≤ 1024 → t.spent &&& (t.frame ||| t.held) = 0 →
        tryCall t h target vd va t.exec (clauseEnd c) [] = .ok t1 →
      let cap := t.cfg.capacity
      let callers := slotsOf cap t.exec
      let unused (k : Nat) : Bool := decide (k < cap) && !t.frame.getLsbD k && !t.held.getLsbD k && !t.spent.getLsbD k
      let begun (k : Nat) (arg : Nat → Word) : Prop := (∀ j, j < 192 → regOf t1 k (.v j) = if j < h.narg then arg j else 0) ∧
        ∀ (m : Nat) (hm : m < 8), t1.masks[m].getLsbD k = false
      ∃ r, t1.calls = r :: t.calls ∧ t1.pc = (target + 8) % 2 ^ 52 ∧ t1.clause = none ∧ t1.mode = t.mode ∧ t1.reconv = t.reconv ∧ t1.exec = t1.frame ∧
        r.retPc = clauseEnd c ∧ r.exec = t.exec ∧ r.frame = t.frame ∧ r.mode = t.mode ∧ r.nwide = t.nwide ∧ r.subidx = t.subidx ∧ r.vd = vd ∧ r.nret = h.nret ∧
        (∀ k, k < 1024 → t1.held.getLsbD k = ((t.held.getLsbD k || t.frame.getLsbD k) && !(r.spilled.map LaneFrame.slot).contains k)) ∧
        (∀ k j, t1.held.getLsbD k = true → j < 192 → regOf t1 k (.v j) = regOf t k (.v j)) ∧
        (∀ f ∈ r.spilled, f.regs.length = t.cfg.budget ∧ (∀ j, j < t.cfg.budget → nthD f.regs j 0 = regOf t f.slot (.v j)) ∧
          ∀ (m : Nat) (hm : m < 8), f.bits.getLsbD m = t.masks[m].getLsbD f.slot) ∧
        (h.rule = .widen →
          let inactive := (slotsOf cap ((t.frame ||| t.held) &&& ~~~ t.exec)).reverse
          let spills (m : Nat) : List Nat := if m = 0 then [] else callers ++ inactive.take (m - 1)
          let list (m : Nat) : List Nat := ((List.range (cap / h.n)).map (fun k => h.n * k)).filter (fun f =>
            (List.range h.n).all (fun j => unused (f + j) || (spills m).contains (f + j)))
          t1.nwide = h.n ∧ ∃ m, list m ≠ [] ∧ (∀ p, p < m → list p = []) ∧ r.spilled.map LaneFrame.slot = spills m ∧
            (∀ k, t1.frame.getLsbD k = true ↔ ∃ (i j x f : Nat), callers[i]? = some x ∧ (list m)[i]? = some f ∧ j < h.n ∧ k = f + j) ∧
            ∀ (i j x f : Nat), callers[i]? = some x → (list m)[i]? = some f → j < h.n →
              tblGetD t1.subidx (f + j) 0 = j ∧ begun (f + j) (fun a => regOf t x (.v (va + a)))) ∧
        (h.rule = .gather → ∃ k g, t1.frame = slotMask k ∧ tblGetD t1.subidx k 0 = 0 ∧ t1.nwide = callers.length ∧ r.gather = some g ∧
          (unused k = true ∧ (∀ j, j < k → unused j = false) ∧ r.spilled = [] ∨
            (∀ j, unused j = false) ∧ callers.head? = some k ∧ r.spilled.map LaneFrame.slot = [k]) ∧
          (∀ x, callers.head? = some x → begun k (fun a => regOf t x (.v (va + a)))) ∧
          g.callers = callers ∧ g.narg = h.narg ∧ g.nret = h.nret ∧ g.results = [] ∧
          ∀ (i x j : Nat), callers[i]? = some x → j < h.narg → g.args[i * h.narg + j]? = some (regOf t x (.v (va + j)))))

/-- CALLI (R189, R318): the header of every lane's target is fetched and every group's call judged before any group runs; then the group of the lowest target
address begins and the others follow it. The bytes of a frame stack that spills are as log 19 writes them. -/
def Obligations.CalliRunsItsGroupsInOrder : Prop :=
  ∀ (s : State) (u : Nat) (t : Team) (c : Clause) (vd va : Nat) (b : Sel), Issuing s u t c → Quiet s u t →
    Legal (.calli (.v vd) (.v va) b) t false anyType [named (.v vd) 1, named (.v va) 1, named b 2] → t.retry = none →
    let x : Issue := { u := u, t := t, lit := c.lit, active := t.exec, whole := t.exec, exec := t.exec }
    let f := calliFetches x b (calliLanes x b) s
    let groups := calliGroups f.1
    (∀ l ∈ f.1, ∃ w0 w1, l.2 = .ok w0 w1) → (∀ g ∈ groups, groupFails x vd va (clauseEnd c) g = none) →
    ∀ g rest w h s1, groups = g :: rest → g.2.1 = some w → fnHeader w.1 w.2 = some h →
      let later : List CalliGroup := rest.filterMap (fun y => y.2.1.map (fun v => { target := y.1, header := v, lanes := y.2.2 }))
      framePushed f.2 u t (fun y => match beginCall y h g.1 vd va g.2.2 (clauseEnd c) later with
        | none => .error .width
        | some t1 => .ok t1) = some s1 →
      exec (.calli (.v vd) (.v va) b) s = .next s1

/-- RET and EXIT (R178, R182, R185 to R188, R319, R322): RET waits for the flags, its lanes leave their frame and the results of a SAME callee are copied; EXIT's lanes
leave for good, an EXIT that ends a round, a gather call or a CALLI's group before another waiting for the flags as RET does (log 29); a frame whose lanes have all
left completes, and the entry frame's completion retires the team. A WIDEN round that completes leaves in vd upward of each of its callers the fold by REDOP of the
values of the caller's group in the tree of R129, an exited lane giving the identity, FIRST the first lane's, under the MODE in force; the next callers' round then
begins, or after the last the caller's frame goes on; a TYPE that R130 or R185 refuses is an ILLEGAL_TYPE trap. A GATHER callee that completes leaves in vd + j
of each caller what GRET set for it, else its own vj, 0 where it exited. The bytes of a frame stack that spills are read and stored as log 19 says. -/
def Obligations.ReturnsAndExitsLeaveTheirFrame : Prop :=
  ∀ (s : State) (u : Nat) (t : Team) (c : Clause), Issuing s u t c →
    let gone := exitLanes t t.exec
    (∀ k rest s1, Instr.ret.wellFormed = true → Quiet s u t → t.calls = k :: rest → handlerFrame t = false → Unpoisoned t [src (.v 0) k.nret] t.exec →
      poisonedResults (goTo (returnLanes t k t.exec) (clauseEnd c)) = 0 →
      framePushed s u t (fun x => settle t.mode (recordAt s u) (goTo (returnAll x) (clauseEnd c))) = some s1 → exec .ret s = .next s1) ∧
    (∀ t3 s1, Instr.exit.wellFormed = true → poisonedResults (goTo gone (clauseEnd c)) = 0 → settle t.mode (recordAt s u) (goTo gone (clauseEnd c)) = .ok t3 →
      endsRound t.mode (recordAt s u) (goTo gone (clauseEnd c)) = false ∨ Quiet s u t →
      framePushed s u t (fun x => settle t.mode (recordAt s u) (goTo (exitAll x) (clauseEnd c))) = some s1 → exec .exit s = .next s1) ∧
    (∀ i, i = .ret ∧ Quiet s u t ∨ i = .exit → i.wellFormed = true → t.calls = [] → t.reconv = [] → t.handler = none →
      ∃ t3, exec i s = .next (s.setTeam u t3) ∧ t3.wait = .retiring ∧ t3.exec = 0 ∧ t3.frame = t.frame &&& ~~~ t.exec ∧ t3.vregs = t.vregs ∧ t3.sregs = t.sregs) ∧
    (Instr.ret.wellFormed = true → Quiet s u t → handlerFrame t = true → Traps .ret s u .illegalOp t.exec) ∧
    (∀ (mode : Word) (r : Option TrapRec) (y : Team) (k : CallRec) (rest : List CallRec), y.exec = 0 → ownEntries y = false → y.handler = none →
      y.captured = none → y.calls = k :: rest → k.vd + k.nret ≤ y.cfg.budget → y.cfg.budget ≤ 192 →
      let ty := modeType mode
      let n := typeRegs ty
      let back (z : Team) : Prop := z.pc = k.retPc % 2 ^ 52 ∧ z.exec = k.exec ∧ z.frame = k.frame ∧ z.mode = k.mode ∧ z.nwide = k.nwide ∧ z.subidx = k.subidx ∧
        z.calls = rest ∧ z.reconv = y.reconv ∧
        ∀ j, j < 1024 → z.held.getLsbD j = ((y.held.getLsbD j || (k.spilled.map LaneFrame.slot).contains j) && !k.frame.getLsbD j)
      let last : Prop := k.exec ≠ 0 ∧ k.calli = [] ∧ ∀ e ∈ y.reconv, e.rejoin ≠ k.retPc % 2 ^ 52
      (∀ d ring, k.rule = .widen → k.width = 2 ^ d → k.roundCallers.Nodup → (k.spilled.map LaneFrame.slot).Nodup →
        (∀ f ∈ k.spilled, f.regs.length = y.cfg.budget) →
        let node : Option Node := [none, some .add, some .min, some .max, some .and, some .or, some .union][k.redop]?.getD none
        (n = 2 ∧ k.nret % 2 = 1 ∨ (∃ o, node = some o ∧ nodeType o ty = false) → settle mode r y = .error .illegalType) ∧
        ((n = 2 → k.nret % 2 = 0) → (∀ o, node = some o → nodeType o ty = true) →
          (node = some .add → isRingType ty = true → RingReady y (modeRing mode) (ty - 11) ring) →
          let input (o g i j : Nat) : Nat :=
            if y.frame.getLsbD (g + j) = true then numOf y (g + j) (.v (n * i)) n % 2 ^ (elemWidth ty * elemCount ty) else o
          let result (g i : Nat) : Nat × BitVec 5 := match node with
            | none => (input 0 g i 0, 0)
            | some o => treeOf (nodeOp o mode (if o = .add ∧ isRingType ty = true then some ring else none)) d (input (identity o mode) g i)
          let kept (x j : Nat) : Word := match k.spilled.find? (fun f => decide (f.slot = x)) with
            | some f => nthD f.regs j 0
            | none => regOf y x (.v j)
          let lands (z : Team) : Prop := z.fpst = y.fpst ||| flagsOf ((k.roundCallers.zip k.groups).map Prod.snd) (fun g =>
              flagsOf (List.range (k.nret / n)) (fun i => (result g i).2)) ∧ (∀ (i x g : Nat), k.roundCallers[i]? = some x → k.groups[i]? = some g → ∀ j, j < 192 →
              if k.vd ≤ j ∧ j < k.vd + k.nret then numOf z x (.v (k.vd + n * ((j - k.vd) / n))) n = (result g ((j - k.vd) / n)).1 % 2 ^ (32 * n)
              else regOf z x (.v j) = kept x j)
          (k.callers.length ≤ k.next → last → ∃ z, settle mode r y = .ok z ∧ back z ∧ lands z) ∧
          (k.next < k.callers.length → k.spilled = [] → (∀ g ∈ k.groups, ∀ x ∈ k.callers ++ k.roundCallers, ¬ (g ≤ x ∧ x < g + k.width)) → k.groups.Nodup →
            (∀ g ∈ k.groups, g + k.width ≤ 1024 ∧ ∀ f ∈ k.groups, f = g ∨ f + k.width ≤ g ∨ g + k.width ≤ f) → k.groups ≠ [] → k.va + k.narg ≤ y.cfg.budget →
            ∃ z, settle mode r y = .ok z ∧ lands z ∧ z.pc = k.entry % 2 ^ 52 ∧ z.exec = z.frame ∧ z.mode = k.mode ∧ z.nwide = k.width ∧
              (∀ j, z.frame.getLsbD j = true ↔ ∃ (i p x g : Nat), k.callers[k.next + i]? = some x ∧ k.groups[i]? = some g ∧ p < k.width ∧ j = g + p) ∧
              ∀ (i p x g : Nat), k.callers[k.next + i]? = some x → k.groups[i]? = some g → p < k.width → tblGetD z.subidx (g + p) 0 = p ∧
                ∀ j, j < 192 → regOf z (g + p) (.v j) = if j < k.narg then regOf z x (.v (k.va + j)) else 0))) ∧
      (∀ g slot, k.rule = .gather → k.gather = some g → k.round = slotMask slot → slot < y.cfg.capacity → y.cfg.capacity ≤ 1024 → g.nret = k.nret →
        g.callers.Nodup → (k.spilled = [] ∧ (∀ x ∈ g.callers, x ≠ slot) ∨ ∃ f, k.spilled = [f] ∧ f.slot = slot ∧ f.regs.length = y.cfg.budget) → last →
        ∃ z, settle mode r y = .ok z ∧ back z ∧ ∀ (i x j : Nat), g.callers[i]? = some x → j < k.nret →
          regOf z x (.v (k.vd + j)) = (tblGet g.results (i * g.nret + j)).getD (if y.frame.getLsbD slot = true then regOf y slot (.v j) else 0)))

/-- ARG and GRET (R187, R188, R320, R321) act on the gather frame of the innermost call that is not SAME: ARG reads argument b of caller a, 0 beyond the frame;
GRET sets result d of caller a, and stores it even where it is there already; outside a gather call each is ILLEGAL_OP. The frame is the one found in the frame
stack (R116; log 19), which an ARG reads where a lane names an argument of it. -/
def Obligations.GatherArgumentsAndResults : Prop :=
  ∀ (s : State) (u : Nat) (t : Team) (c : Clause) (d a b : Sel), Issuing s u t c →
    let V (k : Nat) (x : Sel) : Nat := readVal t c.lit k x 1
    (Legal (.arg d a b) t false anyType [dst d 1, src a 1, src b 1] → Unpoisoned t [dst d 1, src a 1, src b 1] (lanesOn t) →
      (gatherCall t.calls = none → Traps (.arg d a b) s u .illegalOp (lanesExec t)) ∧
      (∀ g0, gatherCall t.calls = some g0 →
        let names (k : Nat) : Prop := V k a < g0.callers.length ∧ V k b < g0.narg
        ((∀ k ∈ lanesFor t d (lanesOn t), ¬ names k) → Completes (.arg d a b) s u t (lanesOn t) d 1 (fun _ => 0) 0) ∧
        (∀ g s1 bs s2 t2, (∃ k ∈ lanesFor t d (lanesOn t), names k) → checkRun s t t.cfg.fsbase (frameImage t).length 1 needR true = (.ok, s1) →
          readRun s1 u t t.cfg.fsbase (frameImage t).length = (some bs, s2) → tblGet s2.teams u = some t2 →
          gatherCall (reloadImage t2 bs).calls = some g →
          ∃ t1, exec (.arg d a b) s = .next (stepOn (s2.setTeam u t1) u) ∧ Wrote t2 t1 d 1 (lanesFor t2 d (lanesOn t)) (fun k =>
            if V k a < g.callers.length ∧ V k b < g.narg then ((g.args[V k a * g.narg + V k b]?).getD 0).toNat else 0) 0))) ∧
    (Legal (.gret d a b) t false anyType [src d 1, src a 1, src b 1] → Unpoisoned t [src d 1, src a 1, src b 1] (lanesOn t) →
      (gatherCall t.calls = none → Traps (.gret d a b) s u .illegalOp (lanesExec t)) ∧
      (∀ g0 s1, gatherCall t.calls = some g0 →
        let out (g : GatherFrame) : Tbl Word := (slotsOf t.cfg.capacity (lanesOn t)).foldl (fun (r : Tbl Word) k =>
          if V k a < g.callers.length ∧ V k d < g.nret then tblSet r (V k a * g.nret + V k d) (BitVec.ofNat 32 (V k b)) else r) g.results
        let stores : Bool := (slotsOf t.cfg.capacity (lanesOn t)).any (fun k => decide (V k a < g0.callers.length ∧ V k d < g0.nret))
        framePushedAs stores s u t (fun x =>
          let g := (gatherCall x.calls).getD g0
          .ok { x with calls := setGather { g with results := out g } x.calls }) = some s1 → exec (.gret d a b) s = .next (stepOn s1 u)))

/-- Taking a trap (R332, R333, R380): a team whose flags are zero enters the launch's handler: EXEC is the faulted mask, MODE is unchanged, w0 to w3 are zero,
s24 to s31 hold the class, the detail, the PC, the word, 0 and the record's address, every other s register and every v register is unchanged, and the record
holds the class, the detail, PC, WORD, MODE, both depths, the kind of frame, s24 to s31, the three masks, the addresses, and w0 to w3 of the lanes of EXEC
(R380, R381); that it is kept beside memory, at the place the model gives it, is the model's choice (log 10). What the trapping instruction would have tried
again at a slice (R42) is tried no more. Without a handler the team halts; a trap inside the handler halts it as a double trap. TRAP and BKPT (R331): a trap of
class SOFTWARE or BREAKPOINT at the instruction, faulted mask and pending EXEC, the operand its detail. YIELD (R335): the clause ends there, the team goes
behind its equals; with no ready PENDING team in its core it keeps its place. -/
def Obligations.TrapsEnterTheHandler : Prop :=
  (∀ (s : State) (u : Nat) (t : Team) (i : TrapInfo) (c : Clause), tblGet s.teams u = some t → t.clause = some c →
    (∀ pc a, t.handler = none → Quiet s u t → t.cfg.handler = some pc → tblGet s.areas u = some a → i.clauseLevel = false →
      ∃ t1 r, takeTrap s u i = ({ dropTries s u with areas := tblSet s.areas u { a with record := some r } } : State).setTeam u t1 ∧
        t1.exec = i.faulted ∧ t1.mode = t.mode ∧ t1.pc = pc ∧ t1.clause = none ∧ t1.wregs = [] ∧ t1.wait = .none ∧ t1.vregs = t.vregs ∧ t1.masks = t.masks ∧
        t1.reconv = t.reconv ∧ t1.calls = t.calls ∧ t1.frame = t.frame ∧
        t1.sregs[24] = BitVec.ofNat 32 (classCode i.cls) ∧ t1.sregs[25] = i.detail ∧ t1.sregs[26] = BitVec.ofNat 32 c.header ∧
        t1.sregs[27] = BitVec.ofNat 32 (c.header / 2 ^ 32) ∧ t1.sregs[28] = BitVec.ofNat 32 c.idx ∧ t1.sregs[29] = 0 ∧
        t1.sregs[30] = BitVec.ofNat 32 (recordBase u) ∧ t1.sregs[31] = BitVec.ofNat 32 (recordBase u / 2 ^ 32) ∧
        (∀ (k : Nat) (hk : k < 24), t1.sregs[k] = t.sregs[k]) ∧
        r.cls = classCode i.cls ∧ r.detail = i.detail ∧ r.pc = c.header ∧ r.word = c.idx ∧ r.mode = t.mode ∧ r.rdepth = t.reconv.length ∧
        r.cdepth = t.calls.length ∧ r.sregs = t.sregs.toList.drop 24 ∧ r.faulted = i.faulted ∧ r.exec = t.exec ∧ r.pending = i.pending ∧ r.addr = i.addr ∧
        r.wregs = t.wregs.filter (fun w => t.exec.getLsbD (w.1 / 4)) ∧ r.frame = frameCode t) ∧
    (t.handler = none → Quiet s u t → t.cfg.handler = none → ∃ t1, tblGet (takeTrap s u i).teams u = some t1 ∧ t1.wait = .halting ∧ t1.halt =
      some (classCode i.cls, 0, i.detail, c.header)) ∧
    (∀ a r, t.handler.isSome = true → tblGet s.areas u = some a → a.record = some r → ∃ t1, takeTrap s u i = (dropTries s u).setTeam u t1 ∧ t1.wait = .halting ∧
      t1.halt = some (r.cls, classCode i.cls, i.detail, c.header)) ∧
    ({ dropTries s u with unitWait := s.unitWait } : State) = s ∧ ∀ w, w ∈ (dropTries s u).unitWait ↔ w ∈ s.unitWait ∧ (w.who = u → w.op = .feed ∨ triesAgain w = false)) ∧
  (∀ (s : State) (u : Nat) (t : Team) (c : Clause) (a : Sel) (i : Instr) (k : TrapClass), (i, k) ∈ [(Instr.trap a, TrapClass.software), (.bkpt a, .brk)] →
     Issuing s u t c → Legal i t false anyType [src a 1] →
     exec i s = .next (takeTrap s u
       { cls := k, detail := BitVec.ofNat 32 (readVal t c.lit 0 a 1), faulted := t.exec, pending := t.exec, addr := [], clauseLevel := false })) ∧
  (∀ (s : State) (u : Nat) (t : Team) (c : Clause), Issuing s u t c → Instr.yield.wellFormed = true →
     let s1 := ({ s with nextId := s.nextId + 1 } : State).setTeam u { goOn t (clauseEnd c) with order := s.nextId }
     (firstPending s1 t.cfg.core = none → exec .yield s = .next s1) ∧
     (∀ v w, firstPending s1 t.cfg.core = some (v, w) → t.active = true → t.cfg.prio ≤ w.cfg.prio →
       exec .yield s = .next (activate (deactivate s1 u) v)))

/-- ERET (R334): in a handler at the stacks' depths of the record, s24 to s31, w0 to w3, MODE and EXEC are those of the trapping path, less the lanes that
exited; RETRY performs the trapping instruction for the pending lanes, SKIP goes on after it, NEXT at the word after the clause. Outside a handler, or with
a mode above 2, it is ILLEGAL_OP. The bytes of a frame stack that spills are read as log 19 says. -/
def Obligations.EretResumesTheTrappingPath : Prop :=
  ∀ (s : State) (u : Nat) (t : Team) (c : Clause) (a : Sel), Issuing s u t c → Legal (.eret a) t false anyType [src a 1] →
    let mode := readVal t c.lit 0 a 1
    (t.handler = none → Traps (.eret a) s u .illegalOp (lanesExec t)) ∧ (2 < mode → Traps (.eret a) s u .illegalOp (lanesExec t)) ∧
    (∀ r k s1, t.handler.isSome = true → recordAt s u = some r → mode ≤ 2 → t.trapClause = some k → t.calls.length = r.cdepth → t.reconv.length = r.rdepth →
      k.idx ≠ 0 → r.exec &&& t.frame ≠ 0 →
      let back := { leaveHandler t r with clause := some k, pc := k.header, trapClause := none }
      let t1 := resumeAt (leaveHandler t r) r mode
      (mode = 2 → t1 = goTo back (clauseEnd k)) ∧
      (mode = 0 → r.pending &&& (r.exec &&& t.frame) ≠ 0 → t1 = { back with retry := some (r.pending &&& (r.exec &&& t.frame)) }) ∧
      (mode = 1 ∨ mode = 0 ∧ r.pending &&& (r.exec &&& t.frame) = 0 → t1 = stepTeam back) ∧
      (t1.exec ≠ 0 → framePushed s u t (fun x => settle r.mode (some r) (resumeAt (leaveHandler x r) r mode)) = some s1 → exec (.eret a) s = .next s1)) ∧
    (∀ r, t.calls.length = r.cdepth → t.reconv.length = r.rdepth → r.sregs.length = 8 →
      let l := leaveHandler t r
      l.mode = r.mode ∧ l.exec = r.exec &&& t.frame ∧ l.wregs = r.wregs ∧ l.handler = none ∧ l.vregs = t.vregs ∧ l.masks = t.masks ∧ l.reconv = t.reconv ∧
      l.calls = t.calls ∧ (∀ (j : Nat) (hj : j < 8) (hr : j < r.sregs.length), l.sregs[24 + j] = r.sregs[j]) ∧ ∀ (j : Nat) (hj : j < 24), l.sregs[j] = t.sregs[j])

/-! ## The matrix unit (R154 to R170, R299 to R312) -/

/-- R36 and R154: a K-step adds to element (i, j) the exact sum over k of mA(i, k) × mB(k, j); a merge into an accumulator element saturates to the signed 64-bit
range and says so. -/
def Obligations.ProductsAccumulateExactly : Prop :=
  (∀ (sums : List Int) (a b : List (List Int)), sums.length = 1024 → a.length = 32 → b.length = 32 → (∀ r ∈ a, r.length = 32) → (∀ r ∈ b, r.length = 32) →
    (addStep sums a b).length = 1024 ∧ ∀ i j, i < 32 → j < 32 →
      nthD (addStep sums a b) (32 * i + j) 0 = nthD sums (32 * i + j) 0 + ((List.range 32).map (fun k => nthD (nthD a i []) k 0 * nthD (nthD b k []) j 0)).sum) ∧
  (∀ x y : Int, (BitVec.ofNat 64 (addSat x y).1).toInt = max (-(2 : Int) ^ 63) (min ((2 : Int) ^ 63 - 1) (x + y)) ∧
    ((addSat x y).2 = true ↔ x + y < -(2 : Int) ^ 63 ∨ (2 : Int) ^ 63 ≤ x + y))

/-- MLOOP, MBATCH and MWAIT (R156 to R166, R299 to R304): an MLOOP whose checks pass is queued with the operands of its block, or waits while the queue is full;
MBATCH gives the open MLOOPs the next number, in an s register; MWAIT waits for the batches it awaits, its s registers captured (log 14), reports a batch's fault
once with the batch's number as detail, the batch marked reported and nothing else of the team changed, and acquires in the same step (log 5). -/
def Obligations.MatrixLoopsAndBatches : Prop :=
  ∀ (s : State) (u : Nat) (t : Team) (c : Clause) (k : Nat) (a : Sel), Issuing s u t c →
    let x := issueOfTeam u t c.lit
    let core := t.cfg.core
    (Legal (.mloop a) t false anyType [named a 1] → slicePending t = false →
      (blockReg a 20 = none → Traps (.mloop a) s u .illegalOp (lanesExec t)) ∧
      (∀ b s1, blockReg a 20 = some b →
        runChecks (loopChecks x (loopOf x b s.nextId) (blockWord x (b + 8))) { s with nextId := s.nextId + 1 } = (.ok, s1) →
        (16 ≤ (s1.core core).sequencer.length → exec (.mloop a) s = .next (holdAt s1 u)) ∧
        ((s1.core core).sequencer.length < 16 → ∃ s2, exec (.mloop a) s = .next (stepOn s2 u) ∧ ∃ l ∈ (s2.core core).sequencer,
          l.id = s.nextId ∧ l.team = u ∧ l.abase = readVal t c.lit 0 (.s b) 2 ∧ l.bbase = readVal t c.lit 0 (.s (b + 2)) 2 ∧
          l.acc = readVal t c.lit 0 (.s (b + 4)) 2 ∧ l.hdr = readVal t c.lit 0 (.s (b + 6)) 2 ∧ l.ksteps = readVal t c.lit 0 (.s (b + 8)) 1 ∧
          l.tile = t.mode.getLsbD 16))) ∧
    (∀ hk : k < 32, Legal (.mbatch (.s k)) t false anyType [dst (.s k) 1] → (t.batches.filter (fun b => decide (b.loops ≠ []))).length < 64 →
      let n := if t.batchNum = 0xFFFFFFFF then 1 else t.batchNum + 1
      ∃ s1 t0, exec (.mbatch (.s k)) s = .next (stepOn s1 u) ∧ tblGet s1.teams u = some t0 ∧ t0.batchNum = n ∧ t0.openLoops = [] ∧ t0.sregs[k] = BitVec.ofNat 32 n ∧
        (∀ (j : Nat) (hj : j < 32), j ≠ k → t0.sregs[j] = t.sregs[j]) ∧
        ∃ b, t0.batches.getLast? = some b ∧ b.num = n ∧ b.loops = (t.openLoops.filter (fun o => !o.served)).map OpenLoop.id) ∧
    (isSreg a = false → Legal (.mbatch a) t false anyType [dst a 1] → Traps (.mbatch a) s u .illegalOp (lanesExec t)) ∧
    (Legal (.mwait a) t false anyType [named a 1] →
      let bs := awaitedBatches t (readVal t c.lit 0 a 1)
      ((∃ b ∈ bs, b.loops ≠ []) → exec (.mwait a) s = .next (s.setTeam u { t with wait := .held, captured := some (capture t) })) ∧
      (∀ b, (∀ b ∈ bs, b.loops = []) → bs.find? (fun b => decide (b.fault ≠ 0) && !b.reported) = some b →
        let t1 := { t with batches := t.batches.map (fun x => if x.num = b.num then { x with reported := true } else x) }
        exec (.mwait a) s =
          .next (takeTrap (s.setTeam u t1) u { trapOf (if b.fault = 2 then .integrity else .scale) t.exec with detail := BitVec.ofNat 32 b.num })) ∧
      (∀ s1, (∀ b ∈ bs, b.loops = []) → (∀ b ∈ bs, b.fault = 0 ∨ b.reported = true) → AcquirePasses s u t s1 → exec (.mwait a) s = .next (stepOn s1 u)))

/-- MDRAIN, MQUANT and MZERO (R167 to R169, R305 to R312): with the checks of their rules passed and the team's MLOOPs served, MDRAIN reads tile, header and
scales, clears them when asked, and writes its rows, each element the exact value of R167 rounded once, or the block of R155 of those values; MQUANT reads 32
rows of FP32 and writes the block of their quantised mantissas, plane by plane and tile by tile, with the exponent chosen or forced, NV where one is a NaN;
MZERO writes 8,192 zero bytes and 8 zero bytes of header. That every output byte is written in the instruction's own step is the model's choice (log 5), and so
is the exponent of a tile whose largest magnitude is 2^127 or more (log 31). The bytes of an exponent group that R155 calls ignored are written as free values
(log 104). -/
def Obligations.AccumulatorDrainsAndClears : Prop :=
  ∀ (s : State) (u : Nat) (t : Team) (c : Clause) (a b : Sel), Issuing s u t c → slicePending t = false →
    let x := issueOfTeam u t c.lit
    let w := (t.mode.extractLsb 15 13).toNat + 1
    (∀ k s1 rs cs s2 s3 rb rc, Legal (.mdrain a) t false anyType [named a 1] → blockReg a 20 = some k →
      let d := drainOf x k
      runChecks (drainChecks x d w) s = (.ok, s1) → teamLoops s1 u = [] →
      let need := needTile true d.clear
      let pa := accumPa s1 t.cfg d.acc need
      let hp := accumPa s1 t.cfg d.hdr need
      scaleBytes (drainTile s1 u d.acc pa d.hdr hp) x d.rscale = (some rs, s2) → scaleBytes s2 x d.cscale = (some cs, s3) →
      let hj := recallJudged s3 false hp 8
      let tj := recallJudged hj.2 false pa 8192
      hj.1 = false → tj.1 = false → homeRead tj.2 hp 8 = rb → homeRead rb.2 pa 8192 = rc →
      let p := if d.fmt = 2 then freePad rc.2 else ([], rc.2)
      let o := drainRows x d rb.1 rc.1 rs cs p.1
      let cleared := if d.clear then homeWrite (homeWrite p.2 pa (List.replicate 8192 0)) hp (List.replicate 8 0) else p.2
      let written := o.1.foldl (fun z r => writeRun z u (lowestOf t) t r.1 r.2) cleared
      exec (.mdrain a) s = .next (stepOn (settleStores (written.updTeam u (fun t1 => { t1 with fpst := t1.fpst ||| o.2 })) u t.cfg) u)) ∧
    (∀ k s1, Legal (.mquant a) t false anyType [named a 1] → blockReg a 24 = some k →
      let src := readVal t c.lit 0 (.s k) 2
      let dest := readVal t c.lit 0 (.s (k + 2)) 2
      let stride := (BitVec.ofNat 32 (readVal t c.lit 0 (.s (k + 4)) 1)).toInt
      let ctrl := readVal t c.lit 0 (.s (k + 5)) 1
      runChecks (quantChecks x src dest ctrl stride w) s = (.ok, s1) →
      let row (i : Nat) : Option (List Byte) := (readRun s1 u t ((src : Int) + (i : Int) * stride).toNat 128).1
      (∀ i, i < 32 → (row i).isSome = true) →
      let val (i j : Nat) : FpVal := scaleVal (modeFtz t.mode) ((row i).getD []) j
      let force : Option Nat := if ctrl.testBit 4 then some (ctrl / 256 % 256) else none
      let p := freePad s1
      let b := blockOf p.1 (t.mode.getLsbD 16) (ctrl.testBit 3) false 0 w force val
      let e := b.2 ||| (if (List.range 32).any (fun i => (List.range 32).any (fun j => isNan (val i j))) then fpNV else 0)
      b.1.length = blockBytes w ∧
      exec (.mquant a) s = .next (stepOn (settleStores ((writeRun p.2 u (lowestOf t) t dest b.1).updTeam u (fun t1 =>
        { t1 with fpst := t1.fpst ||| e })) u t.cfg) u)) ∧
    (∀ (y : Issue) (d : Drain) (h tile : Nat) (rs cs pad : List Byte), modeRnd y.t.mode ≤ 4 → d.ctrl % 4 ≠ 3 →
      let ftz := modeFtz y.t.mode
      let scale (bs : List Byte) (i : Nat) : Nat := flushed ftz fmtFp32 (natOfBytes ((bs.drop (4 * i)).take 4))
      let o := drainRows y d h tile rs cs pad
      ∃ (V : Nat → Nat → FpVal) (E : Nat → Nat → BitVec 5),
        (∀ i j, i < 32 → j < 32 → DrainsTo h (BitVec.ofNat 64 (tile / 2 ^ (64 * (32 * i + j)))).toInt i j (scale rs i) (scale cs j) (V i j) (E i j)) ∧
        (d.ctrl % 4 < 2 →
          let f := if d.ctrl % 4 = 0 then fmtFp32 else fmtBf16
          ∃ g : Nat → Nat → Nat × BitVec 5, (∀ i j, i < 32 → j < 32 → RoundsValue f (modeRnd y.t.mode) ftz (V i j) (g i j)) ∧ o.1.length = 32 ∧
            (∀ i : Nat, i < 32 → o.1[i]? = some (((d.out : Int) + (i : Int) * d.ostride).toNat, (List.range 32).flatMap (fun j => bytesOf (f.width / 8) (g i j).1))) ∧
            o.2 = flagsOf (List.range 1024) (fun k => E (k / 32) (k % 32) ||| (g (k / 32) (k % 32)).2)) ∧
        (d.ctrl % 4 = 2 →
          let b := blockOf pad (y.t.mode.getLsbD 16) (d.ctrl.testBit 3) true (modeRnd y.t.mode) ((y.t.mode.extractLsb 15 13).toNat + 1)
            (if d.ctrl.testBit 4 then some (d.ctrl / 256 % 256) else none) V
          o.1 = [(d.out, b.1)] ∧ o.2 = flagsOf (List.range 1024) (fun k => E (k / 32) (k % 32)) ||| b.2)) ∧
    (∀ (pad : List Byte) (tile tr zeroed : Bool) (rnd width : Nat) (force : Option Nat) (val : Nat → Nat → FpVal), pad.length = 16 → 0 < width → width ≤ 8 →
      let T := if tile then 16 else 32
      let n := if tile then 2 else 1
      let xs (a b : Nat) : List FpVal := (List.range T).flatMap (fun i => (List.range T).map (fun j => val (T * a + i) (T * b + j)))
      let e (a b : Nat) : Nat := if (xs a b).any isNan then 0xFF else force.getD (chooseExp (xs a b))
      let q (i j : Nat) : Int × BitVec 5 :=
        if (xs (i / T) (j / T)).any isNan || (zeroed && decide (e (i / T) (j / T) = 0xFF)) then (0, 0)
        else quantise rnd width (e (i / T) (j / T)) (val i j)
      let place (a b : Nat) : Nat := if tr then n * b + a else n * a + b
      let r := blockOf pad tile tr zeroed rnd width force val
      r.1.length = 128 * width + 16 ∧ (∀ a b, a < n → b < n → nthD r.1 (128 * width + place a b) 0 = BitVec.ofNat 8 (e a b)) ∧
      (∀ i j p, i < 32 → j < 32 → p < width →
        let k := if tr then T * (j % T) + i % T else T * (i % T) + j % T
        (nthD r.1 (T * T / 8 * (width * place (i / T) (j / T) + p) + k / 8) 0).getLsbD (k % 8) = (BitVec.ofInt width (q i j).1).getLsbD p) ∧
      r.2 = flagsOf (List.range 1024) (fun k => (q (k / 32) (k % 32)).2)) ∧
    (∀ (rnd width e : Nat) (v : FpVal), rnd ≤ 4 → 0 < width → width ≤ 8 →
      let low : Int := -(2 ^ (width - 1))
      let top : Int := 2 ^ (width - 1) - 1
      match v with
      | .nan _ => quantise rnd width e v = (0, 0)
      | .inf n => quantise rnd width e v = (if n then low else top, fpOF ||| fpNX)
      | .fin n m k =>
        let y := finOf false m k / (2 : ℚ) ^ ((e : Int) - 127 - ((width : Int) - 1))
        ∃ z : Nat, (goesUp rnd (n = true) ⌊y⌋₊ (y = ⌊y⌋₊) ((⌊y⌋₊ : ℚ) + 1 / 2 < y) (y = (⌊y⌋₊ : ℚ) + 1 / 2) → z = ⌊y⌋₊ + 1) ∧
          (¬ goesUp rnd (n = true) ⌊y⌋₊ (y = ⌊y⌋₊) ((⌊y⌋₊ : ℚ) + 1 / 2 < y) (y = (⌊y⌋₊ : ℚ) + 1 / 2) → z = ⌊y⌋₊) ∧
          let signed : Int := if n then -(z : Int) else z
          quantise rnd width e v = (max low (min top signed),
            if signed < low ∨ top < signed then fpOF ||| fpNX else if y = ⌊y⌋₊ then 0 else fpNX)) ∧
    (∀ xs : List FpVal,
      let covers (e : Nat) : Prop := ∀ x ∈ xs, ∃ n m k, x = .fin n m k ∧ finOf false m k < (2 : ℚ) ^ ((e : Int) - 127)
      (xs.any isNan = true → chooseExp xs = 0xFF) ∧
      (xs.any isNan = false → (∀ e, e ≤ 0xFE → covers e → (∀ e1, e1 < e → ¬ covers e1) → chooseExp xs = e) ∧
        ((∀ e, e ≤ 0xFE → ¬ covers e) → chooseExp xs = 0xFE))) ∧
    (Legal (.mzero a b) t false anyType [named a 1, named b 1] →
      (evenSreg a = false ∨ evenSreg b = false → Traps (.mzero a b) s u .illegalOp (lanesExec t)) ∧
      (∀ s1, evenSreg a = true → evenSreg b = true →
        let acc := readVal t c.lit 0 a 2
        let hdr := readVal t c.lit 0 b 2
        let need := needTile false true
        let pa := accumPa s1 t.cfg acc need
        runChecks [demand (decide (acc % 8192 = 0) && decide (hdr % 64 = 0) && headerPlaced acc hdr) .align, pagesOf t.cfg need anyPage acc 8192,
          pagesOf t.cfg need anyPage hdr 64, pagesOf t.cfg need accumPage acc 8192, pagesOf t.cfg need accumPage hdr 64] s = (.ok, s1) →
        (∀ l ∈ teamLoops s1 u, l.accPa ≠ pa) →
        exec (.mzero a b) s =
          .next (stepOn (homeWrite (homeWrite s1 pa (List.replicate 8192 0)) (accumPa s1 t.cfg hdr need) (List.replicate 8 0)) u)))

/-! ## Cohorts, feed queues, layers (R194, R195, R323 to R330, R352) -/

/-- JOIN, LEAVE and BAR (R42, R194, R195, R323, R324): JOIN counts a team once, LEAVE takes it and its arrival away; each goes on at once, applied now, or later
where it waits at the slice. BAR of a member releases, arrives and parks, its release done in the same step (log 5); of another team it is ILLEGAL_OP. After every
operation a cohort whose members have all arrived ends its generation: GEN is one more, ARRIVED is 0, and every parked team is woken, acquires and goes on; a saved
one does so when it is restored. -/
def Obligations.CohortsMeetAtTheirBarrier : Prop :=
  (∀ (s : State) (u : Nat) (t : Team) (c : Clause) (a : Sel) (m : Mapping) (s1 : State), Issuing s u t c → slicePending t = false → evenSreg a = true →
    unitReach s t.cfg (readVal t c.lit 0 a 2) 64 = (.ok m, s1) →
    let joined := s1.updTeam u (fun t1 => { t1 with cohorts := if m.pa ∈ t1.cohorts then t1.cohorts else t1.cohorts ++ [m.pa] })
    let left := s1.updTeam u (fun t1 => { t1 with cohorts := t1.cohorts.filter (fun p => decide (p ≠ m.pa)) })
    let op (k : UnitOp) (id : Nat) : UnitWait := { table := .cohort, op := k, who := u, pa := m.pa, id := id }
    (Legal (.join a) t false anyType [src a 2] →
      (∀ s2, unitGate joined (op .join joined.nextId) = some s2 → exec (.join a) s = .next (stepOn (joinAt s2 u m.pa) u)) ∧
      (unitGate joined (op .join joined.nextId) = none → exec (.join a) s = .next (stepOn (unitHold joined (op .join joined.nextId)) u))) ∧
    (Legal (.leave a) t false anyType [src a 2] →
      (∀ s2, unitGate left (op .leave left.nextId) = some s2 → exec (.leave a) s = .next (stepOn (leaveAt s2 u m.pa) u)) ∧
      (unitGate left (op .leave left.nextId) = none → exec (.leave a) s = .next (stepOn (unitHold left (op .leave left.nextId)) u)))) ∧
  (∀ (s : State) (u : Nat) (t : Team) (c : Clause) (a : Sel) (pa : Nat) (s1 s2 : State), Issuing s u t c → slicePending t = false → evenSreg a = true →
    Legal (.bar a) t false anyType [src a 2] → UnitFound .bar s u t (readVal t c.lit 0 a 2) pa s1 →
    unitGate s1 { table := .cohort, op := .bar, who := u, pa := pa, id := 0 } = some s2 →
    (u ∉ (cohortAt s2 pa).1.teams → exec (.bar a) s = .next (takeTrap s2 u (trapOf .illegalOp (lanesExec t)))) ∧
    (∀ s3, u ∈ (cohortAt s2 pa).1.teams → ReleasePasses s2 u t s3 → exec (.bar a) s = .next (arriveAt s3 u pa))) ∧
  (∀ (z : State) (u pa : Nat) (c : Cohort), tblGet z.cohorts pa = some c →
    let Becomes (y : State) (c1 : Cohort) (z1 : State) : Prop :=
      (c1.members = 0 ∨ c1.arrived ≠ c1.members → z1 = { y with cohorts := tblSet y.cohorts pa c1 }) ∧
      (c1.members ≠ 0 → c1.arrived = c1.members → z1 = c1.parkedTeams.foldl wakeBar
        { y with cohorts := tblSet y.cohorts pa { c1 with gen := c1.gen + 1, arrived := 0, parkedTeams := [] } })
    Becomes z (if u ∈ c.teams then c else { c with members := c.members + 1, teams := c.teams ++ [u] }) (joinAt z u pa) ∧
    Becomes z (if u ∈ c.teams then
        { c with
          members := c.members - 1, teams := c.teams.filter (fun v => decide (v ≠ u)), parkedTeams := c.parkedTeams.filter (fun v => decide (v ≠ u)),
          arrived := if u ∈ c.parkedTeams then c.arrived - 1 else c.arrived }
      else c) (leaveAt z u pa) ∧
    (∀ t, tblGet z.teams u = some t → Becomes (z.setTeam u { t with wait := .bar pa c.gen.toNat false })
      { c with arrived := c.arrived + 1, parkedTeams := c.parkedTeams ++ [u] } (arriveAt z u pa))) ∧
  (∀ (z : State) (v pa gen : Nat) (t : Team), tblGet z.teams v = some t → t.wait = .bar pa gen false →
    (t.saved = true → wakeBar z v = z.setTeam v { t with wait := .bar pa gen true }) ∧
    (∀ z1, t.saved = false → AcquirePasses (z.setTeam v { t with wait := .none }) v { t with wait := .none } z1 → wakeBar z v = stepOn z1 v))

/-- QPOP and QPUSH (R42, R325, R326, R352): with its turn at the unit, QPOP puts the team's request behind those that wait, and the unit serves them from the oldest
record; QPUSH releases, in the same step (log 5), reads its record, and appends it, its answer 1, or 0 when the queue is full; where the address holds no descriptor
each is a QUEUE trap. -/
def Obligations.FeedQueuesPopAndPush : Prop :=
  ∀ (s : State) (u : Nat) (t : Team) (c : Clause) (d a b : Sel) (pa : Nat), Issuing s u t c → slicePending t = false → flagCount t c.reads ≠ 63 →
    let op (k : UnitOp) : UnitWait := { table := .queue, op := k, who := u, pa := pa, id := 0 }
    (∀ s1 s2, Legal (.qpop d a) t true anyType [dst d (if isSreg d then 16 else 1), src a 2] → UnitFound .qpop s u t (readVal t c.lit 0 a 2) pa s1 →
      unitGate s1 (op .qpop) = some s2 →
      (∀ s3, queueAt s2 t.cfg.ctx pa = (none, s3) → exec (.qpop d a) s = .next (takeTrap s3 u (trapOf .queue (lanesExec t)))) ∧
      (∀ q s3, queueAt s2 t.cfg.ctx pa = (some q, s3) → ∃ o : LateOp, o.id = s3.nextId ∧ o.flag = c.reads ∧ o.wait = .qpop pa ∧
        exec (.qpop d a) s = .next (stepOn (serveQueue (setQueue (({ s3 with nextId := s3.nextId + 1 } : State).updTeam u (fun t1 =>
          raiseFlag { t1 with late := t1.late ++ [o] } c.reads)) pa { q with requests := q.requests ++ [(u, s3.nextId)] }) pa) u))) ∧
    (Legal (.qpush d a b) t true anyType [dst d 1, src a 2, src b 2] →
      (isSreg d = false → Traps (.qpush d a b) s u .illegalOp (lanesExec t)) ∧
      (∀ s1 s2 s3 s4, isSreg d = true → ReleasePasses s u t s1 → checkRun s1 t (readVal t c.lit 0 b 2) 64 64 needR true = (.ok, s2) →
        UnitFound .qpush s2 u t (readVal t c.lit 0 a 2) pa s3 → unitGate s3 (op .qpush) = some s4 →
        (∀ s5, queueAt s4 t.cfg.ctx pa = (none, s5) → exec (.qpush d a b) s = .next (takeTrap s5 u (trapOf .queue (lanesExec t)))) ∧
        (∀ q s5 bs s6, queueAt s4 t.cfg.ctx pa = (some q, s5) → readRun s5 u t (readVal t c.lit 0 b 2) 64 = (some bs, s6) →
          let p := appendRecord s6 none t.cfg.core (some t.cfg.launch) pa q bs
          (p.1 = .full → exec (.qpush d a b) s =
            .next (stepOn (answerLate (startLate p.2 u c.reads id).2 u p.2.nextId d 0) u)) ∧
          (∀ s7, p.1 = .done s7 → exec (.qpush d a b) s = .next (stepOn (answerLate (startLate s7 u c.reads id).2 u s7.nextId d 1) u)))))

/-- LWAIT, LDONE and LSTAT (R42, R327 to R330): a layer word that names no layer of the team's model slot is ILLEGAL_OP with the word as detail; with its turn at
the unit of the flag, LWAIT on a RESIDENT layer acquires and pins it, on a FAILED one it is a SWAP trap, on an ABSENT or ARRIVING one it asks for it and parks the
team, on an EVICTING one it parks; past 16 layers, or 255 pins on one, it is ILLEGAL_OP with the word as detail; LDONE removes one of the team's pins, and without
one it is discarded and counted; LSTAT gives the state and the pins. The registers captured when LWAIT parks are log 14, the acquire done in the same step log 5, the
order of LWAIT's checks log 33. -/
def Obligations.LayersArePinnedAndReleased : Prop :=
  ∀ (s : State) (u : Nat) (t : Team) (c : Clause) (d a : Sel), Issuing s u t c →
    let w := readVal t c.lit 0 a 1
    let pins := (tblGet t.pins w).getD 0
    let bad (i : Instr) : Prop := exec i s = .next (takeTrap s u { trapOf .illegalOp t.exec with detail := BitVec.ofNat 32 w })
    (layerOf s t w = none → slicePending t = false → (Legal (.lwait a) t false anyType [src a 1] → bad (.lwait a)) ∧
      (Legal (.ldone a) t false anyType [src a 1] → bad (.ldone a))) ∧
    (layerOf s t w = none → flagCount t c.reads ≠ 63 → Legal (.lstat d a) t true anyType [dst d 1, src a 1] → bad (.lstat d a)) ∧
    (∀ ms k l, layerOf s t w = some (ms, k, l) →
      let op (o : UnitOp) (id : Nat) : UnitWait := { table := .flag, op := o, who := u, pa := flagPa s ms k, id := id }
      (Legal (.lwait a) t false anyType [src a 1] → slicePending t = false → (pins = 0 → t.pins.length < 16) → pins < 255 →
        ∀ s0, unitGate s (op .lwait 0) = some s0 →
        (∀ s1, l.state = 2 → AcquirePasses s0 u t s1 →
          exec (.lwait a) s = .next (stepOn ((pinLayer s1 ms k).updTeam u (fun t1 => { t1 with pins := tblSet t1.pins w (pins + 1) })) u)) ∧
        (l.state = 4 → exec (.lwait a) s = .next (takeTrap s0 u { trapOf .swap t.exec with detail := BitVec.ofNat 32 w })) ∧
        (l.state = 0 ∨ l.state = 1 → ((tblGet s0.models ms).map ModelCtx.unload).getD false = false →
          exec (.lwait a) s = .next ((requestLayer s0 ms k true).updTeam u (fun t1 => { t1 with wait := .lwait ms k, captured := some (capture t1) }))) ∧
        (l.state = 3 →
          exec (.lwait a) s = .next (s0.updTeam u (fun t1 => { t1 with wait := .lwait ms k, captured := some (capture t1) })))) ∧
      (Legal (.lwait a) t false anyType [src a 1] → slicePending t = false → (pins = 0 ∧ 16 ≤ t.pins.length) ∨ 255 ≤ pins → bad (.lwait a)) ∧
      (Legal (.ldone a) t false anyType [src a 1] → slicePending t = false →
        (unitGate s (op .ldone s.nextId) = none → exec (.ldone a) s = .next (stepOn (unitHold s (op .ldone s.nextId)) u)) ∧
        (∀ s0, unitGate s (op .ldone s.nextId) = some s0 →
          (pins = 0 → exec (.ldone a) s = .next (stepOn (countDiscard s0 (flagPa s0 ms k)) u)) ∧
          (1 < pins → exec (.ldone a) s =
            .next (stepOn ((unpinLayer s0 ms k).updTeam u (fun t1 => { t1 with pins := tblSet t1.pins w (pins - 1) })) u)) ∧
          (pins = 1 → exec (.ldone a) s = .next (stepOn ((unpinLayer s0 ms k).updTeam u (fun t1 => { t1 with pins := tblErase t1.pins w })) u)))) ∧
      (Legal (.lstat d a) t true anyType [dst d 1, src a 1] → Unpoisoned t [dst d 1, src a 1] (lanesOn t) → flagCount t c.reads ≠ 63 →
        ∀ s0, unitGate s (op .lstat s.nextId) = some s0 →
        CompletesLateFrom (.lstat d a) s s0 u t c.reads (lanesOn t) d 1 (fun _ => l.state + 2 ^ 16 * min l.pins 65535) 0))

/-! ## Steps without an instruction word: teams and clauses (R114, R117, R118, R146, R172, R332, R349 to R360, R384, R394) -/

/-- CLAUSE_START, LATE_RESULT, RING_TABLE_BUILT, TRAP_ENTRY, SCORE_HALVING (R114, R146, R172, R174, R176, R332, R356, R357): an ACTIVE team that its core's
issue logic chooses and whose next clause is fetched whole, with its WAIT flags at zero and its permit, takes the issue slot at the clause's first word, w0 to
w3 zero, the places of the core's active set that are due having changed hands first (R355); in a clause it goes on, and one held at an instruction tries it
again; a ready late operation of a team that is not saved writes its result and lowers its flag, and some lanes' values may arrive before (R176); a trap that
waited for the flags enters its handler; the scores of a core's teams halve. -/
def Obligations.ClausesBeginAndResultsArrive : Prop :=
  ∀ (s : State) (u : Nat) (t : Team), s.trust.halted = false → tblGet s.teams u = some t →
    (t.saved = false → t.wait = .none ∨ t.wait = .held → ∀ t0, tblGet (settlePlaces s t.cfg.core).teams u = some t0 →
      t0.active = false ∨ chosen (settlePlaces s t.cfg.core) u t0 = false → exec (.clauseStart u) s = .next (settlePlaces s t.cfg.core)) ∧
    (t.saved = false → t.active = true → settlePlaces s t.cfg.core = s → chosen s u t = true →
      (t.wait = .none ∨ t.wait = .held → t.clause.isSome = true →
        exec (.clauseStart u) s = .next { s.setTeam u { t with wait := .none } with cur := some u }) ∧
      (∀ h s1 c mem s2, t.wait = .none → t.clause = none → arrives t = false → codeWord s t.cfg t.pc = (.ok h, s1) → isHeader h = true →
        waitClear t (hdrWait h) = true → t.integrity = [] → openingWaits s1 t = false → fetchClause s1 t.cfg t.pc = (.ok c mem, s2) →
        (mem = false ∨ t.permit = true ∨ permitFor s2 u t = true) →
        let s3 := s2.updTeam u (fun x => { x with clause := some c, pc := t.pc, wregs := [], permit := mem, captured := none })
        c.header = t.pc ∧ c.idx = 1 ∧ exec (.clauseStart u) s = .next { s3 with cur := some u })) ∧
    (∀ o, t.late.find? (fun x => decide (x.id = o.id)) = some o → lateReady t o = true → t.saved = false →
      exec (.lateResult u (.all o.id)) s = .next (s.setTeam u (finishLate t o)) ∧
      (∀ lanes, o.mask = none → (∀ w ∈ o.vwrites, w.2.1 < 192) → ∃ t1, exec (.lateResult u (.lanes o.id lanes)) s = .next (s.setTeam u t1) ∧
        (∀ k r, r < 192 → regOf t1 k (.v r) =
          match if lanes.getLsbD k then (o.vwrites.filter (fun w => decide (w.1 = k) && decide (w.2.1 = r))).getLast? else none with
          | some w => w.2.2
          | none => regOf t k (.v r)) ∧
        t1.late = t.late.map (fun x => if x.id = o.id then
          { x with vwrites := x.vwrites.filter (fun w => !lanes.getLsbD w.1), came := x.came ||| lanes } else x) ∧
        t1.sregs = t.sregs ∧ t1.wregs = t.wregs ∧ t1.fpst = t.fpst ∧ ({ bare t1 with late := t.late } : Team) = bare t) ∧
      (∀ k, o.build = some k → (∀ x ∈ t.late, x.build = some k → x.id = o.id) →
        exec (.ringTableBuilt u k) s = .next (s.setTeam u (finishLate t o)))) ∧
    (∀ i, t.pendTrap = some i → Quiet s u t → exec (.trapEntry u) s = .next (enterTrap s u i)) ∧
    (∀ c, ∃ s1, exec (.scoreHalving c) s = .next s1 ∧ ({ s1 with teams := [] } : State) = { s with teams := [] } ∧
      tblGet s1.teams u = some (if t.cfg.core = c then { t with score := t.score / 2 } else t))

/-- TEAM_PLACE, TEAM_RETIRE, TEAM_HALT, TEAM_SAVE, TEAM_RESTORE (R117, R118, R349, R351, R358 to R360, R384): a placed team starts as R117 says on zeroed
scratchpad; a team with nothing under way retires, one that halts leaves its entry in the completion ring; a save keeps all of the team, that of the first of those
the distributor wants saved, or of one that SAVE_TEAM messages name, each of which is then answered OK; a restore brings it back. What a team sent reaches home in
the step of its halt (log 5); a saved team's state is kept in the team, the bytes of its save area being free (log 21); that one save answers every message, and
holds the team where one of them says HOLD, is the model's choice (log 98). -/
def Obligations.TeamsArePlacedSavedAndRetired : Prop :=
  ∀ (s : State), s.trust.halted = false →
    (∀ id core base l, (launchOrder s).findSome? (fun l => (placeFor s l.1 l.2).map (fun p => (l.1, p))) = some (id, core, base, l) → ∃ s1 t0,
      exec .teamPlace s = .next s1 ∧ tblGet s1.teams s.nextId = some t0 ∧ s1.lastCore = some core ∧
      tblGet s1.launches id = some { l with placed := l.placed + 1 } ∧ t0.cfg.teamid = l.placed ∧ t0.cfg.core = core ∧ t0.cfg.spbase = base ∧
      t0.pc = l.entry ∧ t0.clause = none ∧ t0.exec = lowMask l.lanes ∧ t0.frame = lowMask l.lanes ∧ t0.held = 0 ∧ t0.spent = 0 ∧ t0.vregs = [] ∧ t0.wregs = [] ∧
      t0.mode = launchMode ∧ t0.fpst = 0 ∧ t0.reconv = [] ∧ t0.calls = [] ∧ t0.nwide = 1 ∧ flagsClear t0 = true ∧ (∀ (k : Nat) (hk : k < 8), t0.masks[k] = 0) ∧
      t0.sregs[0] = BitVec.ofNat 32 l.args ∧ t0.sregs[1] = BitVec.ofNat 32 (l.args / 2 ^ 32) ∧ t0.sregs[2] = BitVec.ofNat 32 l.teams ∧
      t0.sregs[3] = BitVec.ofNat 32 l.lanes ∧ (∀ (k : Nat) (hk : k < 32), 4 ≤ k → t0.sregs[k] = 0) ∧
      ∀ p, base ≤ p → p < base + scratchSize l.scratch → Memory.read (s1.core core).scratch p = 0) ∧
    (∀ u t, tblGet s.teams u = some t →
      (t.wait = .retiring → Quiet s u t → (∀ c ∈ teamCores t.cfg, ∀ e ∈ (s.core c).out, e.team ≠ u) → ∃ s1, exec (.teamRetire u) s = .next s1 ∧
        tblGet s1.teams u = none) ∧
      (∀ c1 c2 d pc l, t.halt = some (c1, c2, d, pc) →
        let s1 := drainTeam s u t.cfg
        tblGet s1.launches t.cfg.launch = some l →
        exec (.teamHalt u) s = .next (settleRings (pushEntry (removeTeam s1 u t) l.ring
          { seq := l.seq, kind := 1, cls := c1, cls2 := c2, type := 1, teamid := t.cfg.teamid, core := t.cfg.core, detail := d.toNat, pc := pc })) ∧
        tblGet (removeTeam s1 u t).teams u = none) ∧
      (savePoint t = true → (wantedSaves s).head? = some u → (∀ w ∈ s.waiting, isSaveMsg w.msg = false) → Quiet s u t →
        (∀ l ∈ (s.core t.cfg.core).sequencer, l.team ≠ u) → allocationRead s u t = false → ∃ s1 t1, exec (.teamSave u) s = .next s1 ∧
        tblGet s1.teams u = some t1 ∧ t1.saved = true ∧ t1.hold = false ∧ t1.active = false ∧ t1.permit = false ∧ s1.cur ≠ some u ∧
        { t1 with saved := false, hold := t.hold, active := t.active, permit := t.permit, savedScratch := t.savedScratch, savedPoison := t.savedPoison } = t) ∧
      (let asks (w : Waiting) : Prop := isSaveMsg w.msg = true ∧ namesTeam s w.msg t = true
       savePoint t = true → (∃ w ∈ s.waiting, asks w) → Quiet s u t → (∀ l ∈ (s.core t.cfg.core).sequencer, l.team ≠ u) → allocationRead s u t = false → ∃ s1 t1,
        exec (.teamSave u) s = .next s1 ∧ tblGet s1.teams u = some t1 ∧ t1.saved = true ∧ (t1.hold = true ↔ ∃ w ∈ s.waiting, asks w ∧ msgField w.msg 8 1 % 2 = 1) ∧
        ∀ w ∈ s.waiting, asks w → w ∉ s1.waiting ∧ ∃ x ∈ s1.sent, x.dest = w.msg.sender ∧ x.op = w.msg.op ∧ x.sub = w.msg.sub ∧ x.tag = w.msg.tag ∧ x.status = stOk) ∧
      (canReturn s t = true → t.late = [] → t.wait = .none → ∃ s1, exec (.teamRestore u) s = .next s1 ∧
        tblGet s1.teams u = some { t with saved := false, score := 0, stopped := [], savedScratch := [], savedPoison := [], order := s.nextId } ∧ s1.mem = s.mem ∧
        (s1.core t.cfg.core).sequencer = (s.core t.cfg.core).sequencer ++ t.stopped))

/-- FAULT_RESOLUTION and FAULT_RECORD_CONSUME (R70, R379, R394): every access of an OPEN record is walked again, and a page not present in a demand range takes
a frame, for which the record waits where the pool has none; with the rest marked, by the permission it lacks or as an address that is not there, the PAGES
value handled is kept for the CONSUMED write; pages left to a host that takes faults are put to it in one FAULT_NOTICE; the CONSUMED write of a record whose
PAGES have changed leaves it OPEN, to be handled again; else the record is FREE. That each access is judged by its own need, and by its half of a page, is the model's
reading (log 54). -/
def Obligations.FaultRecordsAreResolvedAndConsumed : Prop :=
  (∀ (z : State) (ctx : Nat) (a : Access),
    let va := 32768 * a.half
    (isRecordVa va = true → resolveAccess z ctx a = (recordFate z ctx a, z) ∧
      ((∃ x ∈ z.areas, x.2.ctx = ctx ∧ recordBase x.1 / 32768 = a.half) →
        recordFate z ctx a = if a.need.w = true ∨ a.need.x = true then .left .permission else .resolved) ∧
      ((∀ x ∈ z.areas, x.2.ctx = ctx → recordBase x.1 / 32768 ≠ a.half) → recordFate z ctx a = .left .invalidAddr)) ∧
    (∀ z1, isRecordVa va = false →
      (∀ e pa low, walk z ctx va = (.leaf e pa low, z1) →
        let lacks : Prop := (a.need.r = true ∧ bits e 2 2 = 0) ∨ (a.need.w = true ∧ bits e 3 3 = 0) ∨ (a.need.x = true ∧ bits e 4 4 = 0)
        (lacks → resolveAccess z ctx a = (.left .permission, z1)) ∧ (¬ lacks → resolveAccess z ctx a = (.resolved, z1))) ∧
      (walk z ctx va = (.notPresent, z1) →
        (demandOf z1 ctx va = none → resolveAccess z ctx a = (.left .invalidAddr, z1)) ∧
        (∀ d, demandOf z1 ctx va = some d → (mapDemand z1 ctx va d = none → resolveAccess z ctx a = (.waits, z1)) ∧
          ∀ z2, mapDemand z1 ctx va d = some z2 → resolveAccess z ctx a = (.resolved, z2))))) ∧
  ∀ (s : State) (cl ix : Nat) (r : FaultRec), s.trust.halted = false → (s.cluster cl).recs[ix]? = some r → r.state = 1 →
    (∀ s1 r1 ms, r.handled = none → r.notice = false → resolveAll r.ctx (recordAccesses r) s = ((ms, false), s1) → (s1.cluster cl).recs[ix]? = some r1 →
      ((∀ m ∈ ms, isRecordVa (32768 * m.1.half) = true) ∨ (∀ b, tblGet s1.ctxs r.ctx = some b → b.hostFault = false) →
        exec (.faultResolution cl ix) s = .next (setRec s1 cl ix { r1 with handled := some r.pages, marks := ms })) ∧
      (∀ b, (∃ m ∈ ms, isRecordVa (32768 * m.1.half) = false) → tblGet s1.ctxs r.ctx = some b → b.hostFault = true →
        ∃ s2, exec (.faultResolution cl ix) s = .next s2 ∧
          s2.sent = s1.sent ++ [{ dest := b.endpoint, op := 7, sub := 0, ctx := r.ctx, tag := 0, status := 0, length := 16, addr := r.block * 2 ^ 22,
                                  payload := bytesOf 16 (recordWord r) }] ∧
          ∃ r2, (s2.cluster cl).recs[ix]? = some r2 ∧ r2.notice = true ∧ r2.state = r1.state ∧ r2.pages = r1.pages ∧
            r2.accs = ms.map Prod.fst)) ∧
    (∀ s1, r.handled = none → r.notice = false → (resolveAll r.ctx (recordAccesses r) s).1.2 = true → (resolveAll r.ctx (recordAccesses r) s).2 = s1 →
      ((s1.cluster cl).recs[ix]?).isSome = true → exec (.faultResolution cl ix) s = .next s1) ∧
    (∀ p, r.handled = some p →
      (p ≠ r.pages → exec (.faultRecordConsume cl ix) s = .next (setRec s cl ix { r with handled := none, marks := [], notice := false })) ∧
      (p = r.pages → cl ≠ sconceUnit → NoneParked s → s.cards = [] → s.rings = [] → s.queues = [] → s.waiting = [] →
        ∃ s1, exec (.faultRecordConsume cl ix) s = .next s1 ∧ (s1.cluster cl).recs[ix]? = some FaultRec.reset ∧
          (∀ j, j ≠ ix → (s1.cluster cl).recs[j]? = (s.cluster cl).recs[j]?) ∧ ({ s1 with clusters := [] } : State) = { s with clusters := [] }))

/-! ## Steps without an instruction word: caches, slices, translation, soft errors (R27 to R42, R49, R67, R201, R385) -/

/-- REGISTRATION, REGISTRATION_ACK, HOME_WRITE_ACKNOWLEDGMENT, ATOMIC_BATCH, RECALL, L1_EVICTION (R31 to R35, R39, R40, R49, R201): an entry of a core's queue
that is the oldest for its line is served at home: a registration makes the core the owner and is acknowledged, a store's bytes are written, an atomic leaves
its new element; a line that is poisoned once the words that other cores own are home (R19, R34, R385) is INTEGRITY for the team of a store that does not cover
it; one that covers it is served whole, and the poison goes; an acknowledgment sets the owned bit; a recall brings the dirty bytes home and takes the ownership;
an evicted line leaves no word owned. -/
def Obligations.WorkReachesItsHome : Prop :=
  ∀ (s : State) (c : Nat), s.trust.halted = false →
    (∀ ix e, (s.core c).out[ix]? = some e → firstOfLine s c ix = true →
      let s0 := s.updCore c (fun x => { x with out := dropNth x.out ix })
      let L := entryLine e
      let whole : Bool := storeCovers (s.core c).out e.instr L
      let mine (x : OutEntry) : Prop := x ∈ (s.core c).out ∧ x.instr = e.instr ∧ entryLine x = L
      let cleared (s1 : State) : Prop := linePoisoned s1 L = false ∧ ∀ x ∈ (s1.core c).out, ¬ (x.instr = e.instr ∧ entryLine x = L)
      (∀ w m, e.work = .registration w m → whole = false →
        let z := crossLines (recallOthers s0 c [w]) (128 * L) 128
        (linePoisoned z L = false → unitObject s (4 * w) = none → ∃ s1, exec (.registration c ix) s = .next s1 ∧
          tblGet s1.own w = some c ∧ { team := e.team, word := w : Ack } ∈ (s1.core c).acks) ∧
        (∀ t, linePoisoned z L = true → tblGet z.teams e.team = some t → ∃ s1 t1, exec (.registration c ix) s = .next s1 ∧
          tblGet s1.teams e.team = some t1 ∧ ∃ h ∈ t1.integrity, h.rel = true ∧ h.slot = e.slot ∧ h.va = e.va)) ∧
      (whole = true → (∀ x, mine x → ∃ w m, x.work = .registration w m ∧ unitObject s (4 * w) = none) → ∃ s1, exec (.registration c ix) s = .next s1 ∧
        cleared s1 ∧ ∀ x w m, mine x → x.work = .registration w m → tblGet s1.own w = some c ∧ { team := x.team, word := w : Ack } ∈ (s1.core c).acks) ∧
      (∀ pa bs, e.work = .homeWrite pa bs → pa % 128 + bs.length ≤ 128 → whole = false →
        let z := recallJudged (invalidateOwn s0 c pa bs.length) false pa bs.length
        (z.1 = false → PlainBytes s pa bs.length → ∃ s1, exec (.homeWriteAcknowledgment c ix) s = .next s1 ∧
          (∀ k, k < bs.length → Memory.read s1.mem (pa + k) = nthD bs k 0) ∧ ∀ k, k < bs.length → tblGet s1.own ((pa + k) / 4) = none) ∧
        (z.1 = true → exec (.homeWriteAcknowledgment c ix) s = .next (holdIntegrity z.2 e.team none true e.slot e.va))) ∧
      (whole = true → PlainBytes s (128 * L) 128 → (∀ x, mine x → ∃ pa bs, x.work = .homeWrite pa bs ∧ pa % 128 + bs.length ≤ 128) → ∃ s1,
        exec (.homeWriteAcknowledgment c ix) s = .next s1 ∧ cleared s1 ∧ ∀ k, k < 128 → tblGet s1.own (32 * L + k / 4) = none ∧
          ∃ x pa bs, mine x ∧ x.work = .homeWrite pa bs ∧ pa ≤ 128 * L + k ∧ 128 * L + k < pa + bs.length ∧
            Memory.read s1.mem (128 * L + k) = nthD bs (128 * L + k - pa) 0) ∧
      (∀ b a, e.work = .batch b → b.peer = false → b.lanes = [a] →
        let z := recallJudged (invalidateOwn s0 c a.pa b.size) false a.pa b.size
        z.1 = false → PlainBytes s a.pa b.size → ∃ s1, exec (.atomicBatch c ix) s = .next s1 ∧
          natOfBytes (Memory.reads s1.mem a.pa b.size) =
            atomOp b.op b.ty b.size (natOfBytes (homeBytes z.2 a.pa b.size)) a.y a.cmp % 2 ^ (8 * b.size))) ∧
    (∀ ix a k l, (s.core c).acks[ix]? = some a → tblGet s.own a.word = some c → l1ByPline (s.core c) (a.word / 32) = some (k, l) →
      exec (.registrationAck c ix) s = .next (setL1 (s.updCore c (fun x => { x with acks := dropNth x.acks ix })) c k
        { l with owned := l.owned ||| runMask 32 (a.word % 32) 1 })) ∧
    (∀ w, ∃ s1, exec (.recallWord w) s = .next s1 ∧ tblGet s1.own w = none ∧
      ∀ k l, tblGet s.own w = some c → l1ByPline (s.core c) (w / 32) = some (k, l) → ∀ i, i < 4 →
        Memory.read s1.mem (4 * w + i) = if l.dirty.getLsbD (4 * (w % 32) + i) then lineByte l.data (4 * (w % 32) + i) else Memory.read s.mem (4 * w + i)) ∧
    (∀ ix l, (s.core c).l1[ix]? = some l → ∃ s1, exec (.l1Eviction c ix) s = .next s1 ∧ (s1.core c).l1.length + 1 = (s.core c).l1.length ∧
      (s1.core c).victims.getLast? = some { vline := l.vline, ctx := l.ctx, team := l.team } ∧ ∀ i, i < 32 → tblGet s1.own (32 * l.pline + i) ≠ some c)

/-- WAYPART_RAISE, WAYPART_LOWER, WAYPART_CHANGE_COMPLETE, TINVAL_WRITE, INVALIDATION_COMPLETE, UNIT_RECORD_FREED, SOFT_ERROR (R19, R22, R27 to R29, R42, R55,
R59, R67, R385, R410): a change of a window takes its new size, sets BUSY and leaves the bytes it adds or removes zero, but for objects at which an operation
waits for a unit record, which goes on (R29); one that may not be taken does nothing; its end clears BUSY and counts in GEN. An invalidation takes the covered
entries out of every unit and the covered lines out of every first level, BUSY until its translated accesses are home. An operation that waited for a unit
record is applied once it can have one. A soft error poisons what it hits: a register, a scratchpad word, a line at home; state that cannot be corrected halts
the team; a corrected one is counted; bits that the code miscorrects change while the line keeps its check value. Every DRAM address has its channel, its place
there and its home slice. A walk reads one entry a level, records the page it does not find or may not use, and else maps the page, its accessed bit set and its
dirty bit for a write. That the bytes a raise adds are zero at its start and that an access to them ends the change is the model's choice (log 53); so is the
Sconce's own unit, the sixty-fifth (log 34). -/
def Obligations.SlicesTranslationsAndSoftErrors : Prop :=
  ∀ (s : State), s.trust.halted = false →
    (∀ g ways, waysWritable s g ways = true →
      let old := (s.slice g).ways
      let changes (s1 : State) : Prop := (s1.slice g).ways = ways ∧ (s1.slice g).busy = true ∧ (s1.slice g).old = old ∧ (s1.slice g).gen = (s.slice g).gen
      (old < ways → ∃ s1, exec (.waypartRaise g ways) s = .next s1 ∧ changes s1 ∧
        ∀ a, windowBase g + windowSize old ≤ a → a < windowBase g + windowSize ways → Memory.read s1.mem a = 0) ∧
      (ways < old → ∃ s1, exec (.waypartLower g ways) s = .next s1 ∧ changes s1 ∧
        ∀ a, windowBase g + windowSize ways ≤ a → a < windowBase g + windowSize old → (∀ w ∈ s.unitWait, ¬ (w.pa ≤ a ∧ a < w.pa + 64)) →
          Memory.read s1.mem a = 0)) ∧
    (∀ g ways, waysWritable s g ways = false → exec (.waypartRaise g ways) s = .next s ∧ exec (.waypartLower g ways) s = .next s) ∧
    (∀ g, (s.slice g).busy = true → removedInFlight s g = false → ∃ s1, exec (.waypartChangeComplete g) s = .next s1 ∧
      s1.slice g = { s.slice g with busy := false, gen := (s.slice g).gen + 1 }) ∧
    (∀ v : DWord, bits v.toNat 0 0 = 1 → (rangeOf v).scope ≠ 3 → (∀ cl, cl < 65 → bits (s.cluster cl).tinval.toNat 1 1 = 0) → ∃ s1,
      exec (.tinvalWrite v) s = .next s1 ∧
      (∀ cl, cl < 64 → bits (s1.cluster cl).tinval.toNat 1 1 = 1 ∧ (s1.cluster cl).tlb = (s.cluster cl).tlb.filter (fun e => !tlbMeets (rangeOf v) e)) ∧
      ∀ c, c < 512 → ∀ l ∈ (s1.core c).l1, (rangeOf v).meets l.ctx (l.vline / 512) (l.vline / 512) = false) ∧
    (∀ cl, bits (s.cluster cl).tinval.toNat 1 1 = 1 → translatedInFlight s cl = false → ∃ s1, exec (.invalidationComplete cl) s = .next s1 ∧
      bits (s1.cluster cl).tinval.toNat 1 1 = 0) ∧
    (∀ w s1, s.unitWait = [w] → unitGate s w = some s1 →
      (w.op = .join → exec (.unitRecordFreed (homeSlice w.pa)) s = .next (joinAt s1 w.who w.pa)) ∧
      (w.op = .leave → exec (.unitRecordFreed (homeSlice w.pa)) s = .next (leaveAt s1 w.who w.pa)) ∧
      (∀ ms k l, flagAt s1 w.pa = some (ms, k, l) →
        (w.op = .ldone → exec (.unitRecordFreed (homeSlice w.pa)) s = .next (ldoneAt s1 w.who ms k)) ∧
        (w.op = .lstat → exec (.unitRecordFreed (homeSlice w.pa)) s = .next (answerLstat s1 w.who w.id (lstatWord l))))) ∧
    (∀ w, s.unitWait = [w] → unitGate s w = none → exec (.unitRecordFreed (homeSlice w.pa)) s = .next s) ∧
    (∀ u t, tblGet s.teams u = some t →
      (∀ k r, k < t.cfg.capacity → r < t.cfg.budget → 192 * k + r ∉ t.poisonV →
        exec (.softError (.vreg u k r)) s = .next (s.setTeam u { t with poisonV := t.poisonV ++ [192 * k + r] })) ∧
      (t.wait ≠ .halting → ∃ s1 t1, exec (.softError (.teamState u)) s = .next s1 ∧ tblGet s1.teams u = some t1 ∧ t1.wait = .halting ∧
        t1.halt = some (classCode .integrity, 0, 0, (t.clause.map Clause.header).getD t.pc))) ∧
    (∀ c, c < 512 → exec (.softError (.corrected c)) s = .next (s.updCore c (fun x => { x with errors := x.errors + 1 })) ∧
      ∀ w, w < 196608 → w ∉ (s.core c).poisonScratch → exec (.softError (.scratch c w)) s =
        .next (s.updCore c (fun x => { x with poisonScratch := x.poisonScratch ++ [w] }))) ∧
    (∀ place, let pa := placePa place
      isDram pa = true ∨ isWindowPa pa = true →
      exec (.softError (.homeCorrected place)) s =
        .next (s.setSlice (homeSlice pa) { s.slice (homeSlice pa) with errors := (s.slice (homeSlice pa)).errors + 1 }) ∧
      (∃ s1, exec (.softError (.homeError place)) s = .next s1 ∧ linePoisoned s1 (pa / 128) = true ∧ s1.mem = s.mem) ∧
      ∀ flips, ∃ s1, exec (.softError (.homeFlip place flips)) s = .next s1 ∧ lineCheck s1 (pa / 128) = lineCheck s (pa / 128) ∧
        natOfBytes (Memory.reads s1.mem (pa / 8 * 8) 8) = (natOfBytes (Memory.reads s.mem (pa / 8 * 8) 8)).xor flips.toNat) ∧
    (∀ pa, isDram pa = true → dramAddress (bits pa 38 37) (channelOf pa) (localOf pa) = pa ∧ channelOf pa < 128 ∧ localOf pa < 805306368 ∧
      homeSlice pa = 64 * bits pa 38 37 + channelOf pa / 2) ∧
    (∀ core ctx va n b, tblGet s.ctxs ctx = some b → va < 2 ^ 52 → isRecordVa va = false → (s.cluster (core / 8)).tlb.find? (entryFor ctx va) = none →
      let p0 := b.root + 8 * bits va 51 46
      let r0 := homeRead s p0 8
      let p1 := 512 * bits r0.1 47 9 + 8 * bits va 45 34
      let r1 := homeRead r0.2 p1 8
      let p2 := 512 * bits r1.1 47 9 + 8 * bits va 33 22
      let r2 := homeRead r1.2 p2 8
      let p3 := 512 * bits r2.1 47 9 + 8 * bits va 21 16
      let r3 := homeRead r2.2 p3 8
      let e := r3.1
      isDram p0 = true → isDram p1 = true → isDram p2 = true → isDram p3 = true → TableEntry r0.1 0 → TableEntry r1.1 1 → TableEntry r2.1 2 →
      (e % 2 = 0 → translate s core ctx va n = (.page, recordFault r3.2 (core / 8) ctx va n 0)) ∧
      (PageLeaf e → isDram (65536 * bits e 47 16 + va % 65536) = true →
        let lacks : Prop := (n.r = true ∧ bits e 2 2 = 0) ∨ (n.w = true ∧ bits e 3 3 = 0) ∨ (n.x = true ∧ bits e 4 4 = 0)
        (lacks → translate s core ctx va n = (.bad .permission, recordFault r3.2 (core / 8) ctx va n 1)) ∧
        (¬ lacks → PlainBytes r3.2 p3 8 → ∃ s1 x, translate s core ctx va n =
            (.ok { pa := 65536 * bits e 47 16 + va % 65536, r := decide (bits e 2 2 = 1), w := decide (bits e 3 3 = 1), policy := policyOf (bits e 7 6),
                   peer := none, layer := none, record := none }, s1) ∧
          natOfBytes (Memory.reads s1.mem p3 8) = e ||| 2 ^ 10 ||| (if n.w then 2 ^ 11 else 0) ∧ x ∈ (s1.cluster (core / 8)).tlb ∧ x.ctx = ctx ∧
          x.vbase = va / 65536 * 65536 ∧ x.bits = 16 ∧ x.pbase = 65536 * bits e 47 16 ∧ x.dirty = (n.w || decide (bits e 11 11 = 1)))))

/-! ## Steps without an instruction word: engines, the matrix unit, layers (R86 to R91, R159 to R166, R369 to R372) -/

/-- CARD_START, CARD_COMPLETE, MLOOP_START, MLOOP_FLUSH (R83 to R86, R89, R91, R159, R161, R162, R371): a card whose order allows it and whose layers are
RESIDENT pins them and starts; done, it is COMPLETE, or FAULTED, and one held at a page keeps where it stands. A row writes its source's bytes, the pattern of a
FILL, or the planes of a PLANE_T tile transposed; a card in its submitter's scratchpad writes its rows in order, each from the bytes as they then are, and last
its completion word. The sequencer runs the next MLOOP, one K-step after another: of a K-step whose blocks can be read, each element's partial sum gains the
exact products of the mantissas in the two blocks, and the chain is the exponents in the blocks of the first K-step, a mismatch where a pair of tiles of one row
or column block, or a later K-step, differs. A flush merges its sums, records the chain in an unused header, and sets MISMATCH instead where the chains differ.
That a card and an MLOOP do their work in one step is the model's choice (logs 23, 30), and so is that a flush onto a poisoned tile or header, or onto bytes
that have left a window, merges nothing (logs 48, 76), and that a card reads the physical scratchpad bytes its submitter
had, whoever holds them then (log 67). -/
def Obligations.CardsAndFlushesRun : Prop :=
  ∀ (s : State), s.trust.halted = false →
    (∀ i c, s.cards.find? (fun d => decide (d.id = i)) = some c →
      (cardReady s c = true →
        let ls := footLayers s c.ctx ((cardPlaces c).1 ++ (cardPlaces c).2)
        ls.all (fun l => decide (layerState s l.1 l.2 = some 2)) = true →
        exec (.cardStart i) s = .next (updCard (pinAll s ls) i (fun d => { d with started := true, pins := ls }))) ∧
      (∀ s1 c1, c.started = true → c.status = 1 →
        (∀ bs, runCard s c = (.ok bs, c1, s1) → ∃ s2, exec (.cardComplete i) s = .next s2 ∧ ∀ d ∈ s2.cards, d.id = i → d.status = 0) ∧
        (∀ p, runCard s c = (.fault p, c1, s1) → exec (.cardComplete i) s = .next (updCard s1 i (fun _ => c1))) ∧
        (runCard s c = (.bad, c1, s1) → ∃ s2, exec (.cardComplete i) s = .next s2 ∧ ∀ d ∈ s2.cards, d.id = i → d.status = 2)) ∧
      (∀ (a b : Nat × Nat → Nat) (e : Nat), c.started = true → c.status = 1 → c.row = 0 → c.got = [] → c.put = 0 → c.pins = [] →
        s.rings = [] → (s.core c.core).poisonScratch = [] →
        let n := cardLen c.bits
        let inWindow (va off k : Nat) : Prop := va = 0xFF00000000000 + off ∧ off + k ≤ 2 ^ 32
        (∀ k ∈ cardRows c.bits, (cardKind c.bits ≠ 1 → inWindow (cardSrcRow c.bits k.1 k.2) (a k) n) ∧ inWindow (cardDstRow c.bits k.1 k.2) (b k) n) →
        (cardComp c.bits ≠ 0 → inWindow (cardComp c.bits) e 8) →
        let m := (cardRows c.bits).foldl (fun (m : Memory) k => Memory.writes m (c.spbase + b k) (rowBytes c (Memory.reads m (c.spbase + a k) n)))
          (s.core c.core).scratch
        ∃ s2, exec (.cardComplete i) s = .next s2 ∧ s2.mem = s.mem ∧ (s2.core c.core).scratch =
          if cardComp c.bits = 0 then m else Memory.writes m (c.spbase + e) (bytesOf 8 (cardField c.bits 0x58 8)))) ∧
    (∀ (c : Card) (src : List Byte),
      (cardKind c.bits = 0 → rowBytes c src = src) ∧
      (cardKind c.bits = 1 → (rowBytes c src).length = cardLen c.bits ∧
        ∀ k, k < cardLen c.bits → nthD (rowBytes c src) k 0 = BitVec.ofNat 8 (cardField c.bits 0x18 8 / 2 ^ (8 * (k % 8)))) ∧
      (cardKind c.bits = 2 → let t := cardEdge c.bits
        src.length = cardWidth c.bits * (t * t / 8) → (rowBytes c src).length = src.length ∧
        ∀ q i j, q < cardWidth c.bits → i < t → j < t → runBit (rowBytes c src) (t * t * q + t * i + j) = runBit src (t * t * q + t * j + i))) ∧
    (∀ c l, nextLoop s (s.core c).sequencer [] = some l →
      let r := runLoop s l l.ksteps true
      exec (.mloopStart c) s = .next (r.2.updCore c (fun x =>
        { x with sequencer := x.sequencer.filter (fun k => decide (k.id ≠ l.id)), flushes := x.flushes ++ [r.1] }))) ∧
    (∀ (l : MLoop) (last : Bool),
      runLoop s l 0 last =
        ({ loop := l, sums := List.replicate 1024 0, ea0 := 0, ea1 := 0, eb0 := 0, eb1 := 0, mismatch := false, poisoned := false, last := last }, s) ∧
      ∀ n, runLoop s l (n + 1) last = loopStep (runLoop s l n last).2 (runLoop s l n last).1 n) ∧
    (∀ (f : Flush) (k a b : Nat) (A B : List Byte),
      let l := f.loop
      let w (lo : Nat) : Nat := bitsAt l.srcw.toNat (lo + 2) lo + 1
      (a : Int) = l.abase + k * l.astep → (b : Int) = l.bbase + k * l.bstep → f.sums.length = 1024 →
      BlockAt s l false a (w 14 * 128 + 16) A → BlockAt s l true b (w 17 * 128 + 16) B →
      let ta := l.srcw.getLsbD 20
      let tb := l.srcw.getLsbD 21
      let at_ (i : Nat) : Nat := if l.tile then i else 0
      let ea (i p : Nat) : Nat := exponentAt l.tile ta (w 14) A (at_ i) (at_ p)
      let eb (p j : Nat) : Nat := exponentAt l.tile tb (w 17) B (at_ p) (at_ j)
      let g := (loopStep s f k).1
      g.loop = l ∧ g.last = f.last ∧ g.poisoned = f.poisoned ∧ g.sums.length = 1024 ∧
      (∀ i j, i < 32 → j < 32 → nthD g.sums (32 * i + j) 0 = nthD f.sums (32 * i + j) 0 +
        ((List.range 32).map (fun p => mantissaAt l.tile ta (w 14) A i p * mantissaAt l.tile tb (w 17) B p j)).sum) ∧
      (k = 0 → g.ea0 = ea 0 0 ∧ g.ea1 = ea 1 0 ∧ g.eb0 = eb 0 0 ∧ g.eb1 = eb 0 1) ∧
      (k ≠ 0 → g.ea0 = f.ea0 ∧ g.ea1 = f.ea1 ∧ g.eb0 = f.eb0 ∧ g.eb1 = f.eb1) ∧
      (g.mismatch = true ↔ f.mismatch = true ∨ ea 0 0 ≠ ea 0 1 ∨ ea 1 0 ≠ ea 1 1 ∨ eb 0 0 ≠ eb 1 0 ∨ eb 0 1 ≠ eb 1 1 ∨
        g.ea0 ≠ ea 0 0 ∨ g.ea1 ≠ ea 1 0 ∨ g.eb0 ≠ eb 0 0 ∨ g.eb1 ≠ eb 0 1)) ∧
    (∀ c f rest, (s.core c).flushes = f :: rest →
      let s0 := s.updCore c (fun x => { x with flushes := rest })
      let p := recallJudged s0 false f.loop.hdrPa 8
      let q := recallJudged p.2 false f.loop.accPa 8192
      let h := homeRead q.2 f.loop.hdrPa 8
      let gone := beyondWindow s0 f.loop.accPa || beyondWindow s0 f.loop.hdrPa
      let poisoned := f.poisoned || gone || p.1 || q.1
      let differs : Prop := f.mismatch = true ∨ (h.1 % 2 = 1 ∧ headerChain h.1 ≠ chainOf f)
      (poisoned = true → exec (.mloopFlush c) s = .next (loopServed q.2 f.loop 2 f.last)) ∧
      (poisoned = false → differs →
        exec (.mloopFlush c) s = .next (loopServed (homeWrite h.2 f.loop.hdrPa (bytesOf 8 (h.1 ||| 4))) f.loop 1 f.last)) ∧
      (poisoned = false → ¬ differs →
        let t := homeRead h.2 f.loop.accPa 8192
        let es := (List.range 1024).map (fun k => addSat (sextInt 64 (t.1 / 2 ^ (64 * k) % 2 ^ 64)) (nthD f.sums k 0))
        let h1 := (if h.1 % 2 = 1 then h.1 else chainOf f + 1 + bits h.1 2 1 * 2) ||| (if es.any Prod.snd then 2 else 0)
        exec (.mloopFlush c) s =
          .next (loopServed (homeWrite (homeWrite t.2 f.loop.accPa (es.flatMap (fun e => bytesOf 8 e.1))) f.loop.hdrPa (bytesOf 8 h1)) f.loop 0 f.last)))

/-- LAYER_LOAD_START, LAYER_ARRIVED, LAYER_LOAD_FAILED, LAYER_EVICTED (R369, R370, R372): a request takes its frames and its load begins; a layer whose bytes
match CHECK turns RESIDENT and LOADS counts; a failed one turns FAILED and the context counts it; an evicted one turns ABSENT and its frames return. Which free
frames a request takes is the model's choice (log 13). -/
def Obligations.LayersArriveFailAndLeave : Prop :=
  ∀ (s : State), s.trust.halted = false → (∀ m ∈ s.models, m.2.unload = false) → NoneParked s → s.rings = [] → s.puts = [] →
    (∀ kind r l, (∀ d ∈ s.loads, (getLayer s d.mslot d.layer).map Layer.srckind ≠ some kind) → nextRequest s kind = some r →
      getLayer s r.mslot r.layer = some l → l.size / 65536 ≤ frameCount s.weightGiven → l.size / 65536 ≤ frameCount s.weightFree →
      let f := takeFrames (l.size / 65536) s.weightFree
      exec (.layerLoadStart kind) s = .next (askPieces { s with
        weightFree := f.2, requests := s.requests.filter (fun x => !(decide (x.mslot = r.mslot) && decide (x.layer = r.layer))),
        loads := s.loads ++ [{ mslot := r.mslot, layer := r.layer, frames := f.1, pieces := [], tags := [] }] } r.mslot r.layer)) ∧
    (∀ ms k m l d bs ls s1 l1, tblGet s.models ms = some m → getLayer s ms k = some l → loadOf s ms k = some d →
      judgeLoad s ms k m l d = (.resident bs ls, s1) → getLayer s1 ms k = some l1 → NoneParked s1 → ∃ s2 l2, exec (.layerArrived ms k) s = .next s2 ∧
        getLayer s2 ms k = some l2 ∧ l2.state = 2 ∧ l2.loads = l1.loads + 1 ∧ l2.frames = d.frames ∧
        s2.loads = s1.loads.filter (fun x => decide (x ≠ d))) ∧
    (∀ ms k m l why, tblGet s.models ms = some m → getLayer s ms k = some l → l.state = 1 → (loadOf s ms k).isSome = true → why = 1 ∨ why = 3 → ∃ s2 l2 m2,
      exec (.layerLoadFailed ms k why) s = .next s2 ∧ getLayer s2 ms k = some l2 ∧ l2.state = 4 ∧ loadOf s2 ms k = none ∧ tblGet s2.models ms = some m2 ∧
      m2.failcount = m.failcount + 1 ∧ (m.firstfail = 0xFFFF → m2.firstfail = k ∧ m2.failwhy = why) ∧
      (m.firstfail ≠ 0xFFFF → m2.firstfail = m.firstfail ∧ m2.failwhy = m.failwhy)) ∧
    (∀ ms k l, getLayer s ms k = some l → l.state = 3 → tinvalBusy s = false → ∃ s2, exec (.layerEvicted ms k) s = .next s2 ∧
      getLayer s2 ms k = some { l with state := 0, frames := [] } ∧ s2.weightFree = s.weightFree ++ l.frames.map (fun f => (f, 1)))

/-! ## Command rings (R340 to R348, R353, R361 to R367) -/

/-- LAUNCH, FEED, CARD, SIGNAL, WAIT, WAIT_SATISFIED, FENCE, NOTIFY_RECORD, COMPLETION_RPTR_REREAD (R340 to R348, R353): a packet that a check of R342 refuses
halts its ring with that STATUS; one that passes and starts moves RPTR by its length and is in flight: a launch is the distributor's, a card is accepted, a
SIGNAL's word is stored, a WAIT polls until COND holds, a FENCE is done; a FEED appends its records in order, each when its queue has a record of the slice's
table (R42); a notify record makes its ring's WPTR read, tried again while its page is waited for. The DETAIL of a halt for which the spec states none is free
(log 35); an object that cannot be read halts with BAD_FIELD (log 43), and so does a card that names a scratchpad window (log 68). -/
def Obligations.PacketsStartInOrder : Prop :=
  (∀ (s : State) (k : Nat) (e : Instr) (ty st : Nat) (d : Option Nat) (s1 : State), s.trust.halted = false → (e, ty) ∈ packetSteps k →
    nextPacket s k = (.halt st d, s1) → exec e s = .next (haltWith s1 k st d)) ∧
  (∀ (s : State) (k : Nat) (bs : List Byte) (r : CmdRing), tblGet s.rings k = some r → ∃ r1, tblGet (passPacket s k bs).rings k = some r1 ∧
    r1 = { r with rptr := r.rptr + bs.length, seq := (r.seq + 1) % 2 ^ 32 }) ∧
  (∀ (s : State) (k : Nat) (r : CmdRing) (bs : List Byte) (s1 : State),
    let va := pf bs 0x08 8
    (PacketReady s k 9 r bs s1 → exec (.fencePacket k) s = .next (startFlight (passPacket s1 k bs) k (flightOf bs))) ∧
    (∀ m s2, PacketReady s k 4 r bs s1 → sconceReach s1 (some (.ring k)) r.ctx va needW = (.ok m, s2) → m.peer = none → m.record = none → exec (.signal k) s =
      .next (startFlight (passPacket (homeWrite s2 m.pa (bytesOf 8 (pf bs 0x10 8))) k bs) k (flightOf bs))) ∧
    (∀ s2, PacketReady s k 4 r bs s1 → sconceReach s1 (some (.ring k)) r.ctx va needW = (.fail, s2) → exec (.signal k) s = .next (haltRing s2 k haltFault 0x08)) ∧
    (∀ m s2, PacketReady s k 5 r bs s1 → sconceReach s1 (some (.ring k)) r.ctx va needR = (.ok m, s2) → m.peer = none → m.record = none → ∃ s3 r3,
      exec (.wait k) s = .next s3 ∧ tblGet s3.rings k = some r3 ∧ r3.rptr = r.rptr + bs.length ∧
      r3.busy = .wait (flightOf bs) va (.home m.pa) (BitVec.ofNat 64 (pf bs 0x10 8)) (pf bs 0x18 8)) ∧
    (∀ s2 s3, PacketReady s k 1 r bs s1 → launchHeader s1 (some (.ring k)) r.ctx va (pf bs 0x44 1) = (.ok, s2) →
      (pf bs 0x18 8 = 0 → s3 = s2) → (pf bs 0x18 8 ≠ 0 → launchHeader s2 (some (.ring k)) r.ctx (pf bs 0x18 8) (pf bs 0x44 1) = (.ok, s3)) →
      (∀ ms, (launchOf k r bs).model = some ms → (slotOf s1 k ms).isSome = true) →
      let p := passPacket s3 k bs
      exec (.launch k) s = .next (startFlight { p with nextId := p.nextId + 1, launches := tblSet p.launches p.nextId (launchOf k r bs) } k
        { flightOf bs with launch := some p.nextId })) ∧
    (∀ s2, PacketReady s k 1 r bs s1 → launchHeader s1 (some (.ring k)) r.ctx va (pf bs 0x44 1) = (.bad, s2) → exec (.launch k) s = .next (haltFree s2 k haltField)) ∧
    (∀ m q s2 s3, PacketReady s k 2 r bs s1 → sconceReach s1 (some (.ring k)) r.ctx va needW = (.ok m, s2) → m.peer = none → m.record = none →
      queueAt s2 r.ctx m.pa = (some q, s3) → ∃ s4 r4, exec (.feed k) s = .next s4 ∧ tblGet s4.rings k = some r4 ∧ r4.rptr = r.rptr + bs.length ∧
      r4.busy = .feed (flightOf bs) m.pa (feedRecords bs)) ∧
    (∀ cs s2, PacketReady s k 3 r bs s1 → sconceRead s1 (some (.ring k)) r.ctx va 256 = (.ok cs, s2) →
      let c : BitVec 2048 := BitVec.ofNat 2048 (natOfBytes cs)
      let good : Prop := CardGood (fun va _ => if isWindowVa va then .out else .no) c
      (¬ good → exec (.cardPacket k) s = .next (haltFree s2 k haltField)) ∧
      (good → ∃ s3, exec (.cardPacket k) s = .next s3 ∧ ∃ x ∈ s3.cards, x.bits = c ∧ x.ctx = r.ctx ∧ x.status = 1 ∧ x.started = false ∧
        x.team = none ∧ x.ring = some (k, pktSeq bs)))) ∧
  (∀ (s : State) (k : Nat) (r : CmdRing), s.trust.halted = false → tblGet s.rings k = some r →
    (∀ f va p v c q s1, r.busy = .wait f va p v c → pollWord s p = (q, s1) →
      (∀ x, q = some x → condHolds c x v.toNat = true → exec (.waitSatisfied k) s = .next (endBusy s1 k f)) ∧
      (∀ x, q = some x → condHolds c x v.toNat = false → exec (.waitSatisfied k) s = .next s1) ∧
      (q = none → exec (.waitSatisfied k) s = .next (waitLost s1 k f)) ∧
      (∀ pa, p = .home pa → beyondWindow s pa = false →
        let z := recallRange s true pa 8
        s1 = z ∧ q = if poisonedRange z pa 8 then none else some (natOfBytes (homeBytes z pa 8)))) ∧
    (∀ f pa b rest, r.busy = .feed f pa (b :: rest) →
      let e : UnitWait := { table := .queue, op := .feed, who := k, pa := pa, id := 0 }
      (unitGate s e = none → exec (.feed k) s = .next (unitHold s e)) ∧
      (∀ x s0 s1 s2 s3, unitGate s e = some s0 → queueAt s0 r.ctx pa = (some x, s1) → appendRecord s1 (some (.ring k)) sconceCore none pa x b = (.done s2, s3) →
        exec (.feed k) s = .next (if rest = [] then endBusy s2 k f else updRing1 s2 k (fun r => { r with busy := .feed f pa rest })))) ∧
    (k ∈ s.wptrReads → exec (.notifyRecord k) s = .next (readWptr s k)) ∧
    (∀ bs l s1 j, k ∉ s.wptrReads → popRecord s (some (.ring k)) r.ctx r.notifyq = (.ok bs l, s1) →
      s1.rings.find? (fun j => decide (j.2.ctx = r.ctx) && decide (j.2.rcb = pf bs 0 8)) = some j → exec (.notifyRecord k) s = .next (readWptr s1 j.1)) ∧
    (∀ bs s1, r.entries ≠ [] → sconceRead s (some (.ring k)) r.ctx (r.comp + 0x18) 8 = (.ok bs, s1) →
      let p := natOfBytes bs
      let bad : Prop := p % 32 ≠ 0 ∨ compWptrOf s r < p ∨ p < r.compRptr
      (bad → r.status = 0 → exec (.completionRptrReread k) s = .next (haltFree s1 k haltOverrun)) ∧
      (¬ bad → exec (.completionRptrReread k) s =
        .next (flushEntries k r.entries.length (updRing1 s1 k (fun r => { r with compRptr := p }))))))

/-- MODEL_LOAD, UNLOAD, MODEL_PRIO, LAYER_PREFETCH (R361 to R367): MODEL_LOAD binds a free slot to a descriptor and a layer table that keep their rules, every
layer ABSENT; UNLOAD begins the teardown of a slot of its ring and stays in flight until it is done; MODEL_PRIO replaces the three fields; LAYER_PREFETCH
requests its layers in ascending order at lookahead rank. A slot in use, or of another ring, halts the ring. -/
def Obligations.ModelPacketsActOnTheirSlot : Prop :=
  ∀ (s : State) (k : Nat) (r : CmdRing) (bs : List Byte) (s1 : State),
    (PacketReady s k 6 r bs s1 → isUnload bs = false →
      let desc := pf bs 0x08 8
      let ms := bits (pf bs 0x10 8) 3 0
      ((tblGet s1.models ms).isSome = true → exec (.modelLoad k) s = .next (haltRing s1 k haltField 0x10)) ∧
      (∀ d s2 tb s3 ls fs s4, tblGet s1.models ms = none → sconceRead s1 (some (.ring k)) r.ctx desc 64 = (.ok d, s2) → modelDescOk r d = true →
        let n := pf d 4 2
        pf d 0x20 8 % 64 = 0 → capFor r otMemory (permRead + permWrite) (pf d 8 8) (32 * n) = true →
        capFor r otMemory (permRead + permWrite) (pf d 0x10 8) (8 * n) = true →
        (pf d 0x20 8 ≠ 0 → capFor r otFeed (permRead + permWrite) (pf d 0x20 8) 64 = true) →
        sconceRead s2 (some (.ring k)) r.ctx (pf d 8 8) (32 * n) = (.ok tb, s3) → layerTable n tb = some ls →
        flagAddrs (some (.ring k)) r.ctx (pf d 0x10 8) (List.range n) s3 = (.ok fs, s4) →
        exec (.modelLoad k) s = .next (startFlight (passPacket (bindModel s4 k ms desc r d ls fs) k bs) k (flightOf bs)) ∧
        (∀ l ∈ ls, l.state = 0 ∧ l.pins = 0 ∧ l.loads = 0) ∧ ∃ m, tblGet (bindModel s4 k ms desc r d ls fs).models ms = some m ∧ m.ring = k ∧
          m.layers = ls ∧ m.prio = pf d 6 1 ∧ m.eclass = pf d 7 1 ∧ m.lookahead = pf d 0x1F 1 ∧ m.failcount = 0 ∧ m.firstfail = 0xFFFF ∧ m.failwhy = 0 ∧
          m.unload = false)) ∧
    (PacketReady s k 6 r bs s1 → isUnload bs = true →
      let ms := bits (pf bs 0x10 8) 3 0
      (slotOf s1 k ms = none → exec (.modelUnload k) s = .next (haltRing s1 k haltField 0x10)) ∧
      ((slotOf s1 k ms).isSome = true → exec (.modelUnload k) s =
        .next (startFlight (passPacket (startUnload s1 ms) k bs) k { flightOf bs with mslot := some ms }))) ∧
    (∀ m, PacketReady s k 7 r bs s1 →
      let w := pf bs 0x08 8
      let ms := bits w 3 0
      (slotOf s1 k ms = some m → exec (.modelPrio k) s = .next (startFlight (passPacket
        { s1 with models := tblSet s1.models ms { m with prio := bits w 13 8, eclass := bits w 17 16, lookahead := bits w 23 20 } } k bs) k (flightOf bs))) ∧
      (slotOf s1 k ms = none → exec (.modelPrio k) s = .next (haltRing s1 k haltField 0x08))) ∧
    (∀ m, PacketReady s k 8 r bs s1 →
      let w := pf bs 0x08 8
      let ms := bits w 3 0
      let ks := (List.range (bits w 39 28)).map (fun i => bits w 27 16 + i)
      slotOf s1 k ms = some m →
      (m.layers.length < bits w 27 16 + bits w 39 28 → exec (.layerPrefetch k) s = .next (haltRing s1 k haltField 0x08)) ∧
      (bits w 27 16 + bits w 39 28 ≤ m.layers.length → exec (.layerPrefetch k) s = .next (startFlight (passPacket (ks.foldl (fun z j =>
        requestLayer z ms j false) (if bits w 40 40 = 1 then ks.foldl (fun z j => resetFailed z ms j) s1 else s1)) k bs) k (flightOf bs))))

/-! ## Urfel messages (R390 to R395, R406, R407) -/

/-- COMMAND_APPEND, MEM_WRITE, MEM_READ, HOST_READ, ATTEST, a reserved OP or SUB (R390 to R392, R395, R406, R407): a message that is not admitted is dropped and
counted; a bad header, or a payload that its SUB does not have, is answered BAD_MESSAGE; MEM_WRITE writes all of its bytes or none; COMMAND_APPEND writes its
bytes at WPTR and then WPTR; a peer's refusal is answered FAULT with nothing written (R397); ATTEST is answered to any endpoint, with BAD_MESSAGE where its
LENGTH is 1 to 31 or above 64. The model's choices: LENGTH of a MEM_READ is the bytes it asks for (log 39); a field out of range of EXPERT_BUF or GATE_LOAD is
BAD_MESSAGE (log 57); ATTEST is served once the device has booted (log 59). -/
def Obligations.MessagesAreAnswered : Prop :=
  ∀ (s : State) (m : UrfelMsg) (rest : List UrfelMsg),
    let s1 : State := { s with inbox := rest }
    (AtHead s m rest → ∀ e p, (e, p) ∈ messageKinds → p m = true →
      (¬ Admitted s m → exec e s = .next { s1 with refusals := s.refusals + 1 }) ∧
      (Admitted s m → headerBad m = true → exec e s = .next (answerMsg s1 m stBadMessage []))) ∧
    (AtHead s m rest → Admitted s m → headerBad m = false → ∀ e sub len good, (e, sub, len, good) ∈ manageTable → isManage sub m = true →
      m.length ≠ len ∨ good m = false → exec e s = .next (answerMsg s1 m stBadMessage [])) ∧
    (AtHead s m rest → Admitted s m → headerBad m = false →
      (isReservedMsg m = true → exec .reservedUrfelMessage s = .next (answerMsg s1 m stBadMessage [])) ∧
      (∀ x off s2, m.op = 2 → sconceCheck s1 (some (.msg m)) m.ctx m.addr m.length needW = ((x, off), s2) →
        (∀ y b s3, x = .ok y → putRun s2 m.ctx m.addr m.payload = (b, s3) → exec .memWrite s = .next (answerMsg s3 m (if b then stOk else stFault) []) ∧
          (b = true → s3 = putNow (peersRefuse s2 m.ctx (linePieces m.addr m.payload.length)).2 m.ctx m.addr m.payload) ∧
          (b = false → s3 = (peersRefuse s2 m.ctx (linePieces m.addr m.payload.length)).2)) ∧
        (x = .fail → exec .memWrite s = .next (answerMsg s2 m stFault [])) ∧ (∀ c, x = .wait c → exec .memWrite s = .next (waitMsg s2 m (some c)))) ∧
      (∀ b s2, m.op = 3 → sconceReadAs needR false s1 (some (.msg m)) m.ctx m.addr m.length = (b, s2) →
        (∀ bs, b = .ok bs → exec .memRead s = .next (answerMsg s2 m stOk bs)) ∧ (∀ off, b = .fail off → exec .memRead s = .next (answerMsg s2 m stFault [])) ∧
        (∀ c, b = .wait c → exec .memRead s = .next (waitMsg s2 m (some c)))) ∧
      (∀ s2, m.op = 6 → (takePiece s1 m = (true, s2) → exec .hostRead s = .next s2) ∧
        (takePiece s1 m = (false, s2) → exec .hostRead s = .next { s2 with refusals := s2.refusals + 1 })) ∧
      (m.op = 1 →
        (m.rod = false → exec .commandAppend s = .next (answerMsg s1 m stBadMessage [])) ∧
        (m.rod = true → ringAt s1 m.ctx m.addr = none → exec .commandAppend s = .next (answerMsg s1 m stDenied [])) ∧
        (∀ k r wb s2 s3, m.rod = true → ringAt s1 m.ctx m.addr = some (k, r) → appendWaits s1 m = none →
          sconceRead s1 (some (.msg m)) r.ctx (r.rcb + 0x10) 8 = (.ok wb, s2) →
          let w := natOfBytes wb
          let runs := ringRuns r 4 w m.length
          checkRuns (some (.msg m)) r.ctx ((r.rcb + 0x10, 0, 8) :: runs) s2 = (none, s3) →
          let p := peersRefuse s3 r.ctx (((r.rcb + 0x10, 0, 8) :: runs).flatMap (fun x => linePieces x.1 x.2.2))
          let s4 := runs.foldl (fun z x => putNow z r.ctx x.1 ((m.payload.drop (x.2.1 - w)).take x.2.2)) p.2
          (p.1 = true → exec .commandAppend s = .next (answerMsg p.2 m stFault [])) ∧
          (p.1 = false → exec .commandAppend s =
            .next (readWptr (answerMsg (putNow s4 r.ctx (r.rcb + 0x10) (bytesOf 8 (w + m.length))) m stOk []) k))))) ∧
    (∀ kept n, s.inbox = m :: rest → s.trust.booted = true → m.op = 4 → trimAttest 64 rest = (kept, n) →
      let s2 : State := { s with inbox := kept, refusals := s.refusals + n }
      let good : Prop := m.status = 0 ∧ m.sub = 0 ∧ m.payload.length = m.length
      let e := if m.length = 0 then Instr.attestCertificate else .attestReport
      (¬ good → exec e s = .next (answerMsg s2 m stBadMessage [])) ∧
      (good → s.trust.identityKey = false → exec e s = .next (answerMsg s2 m stDenied [])) ∧
      (good → s.trust.identityKey = true → m.length = 0 → exec .attestCertificate s = .next (answerMsg s2 m stOk (Config.certificate.take 7424))) ∧
      (good → s.trust.identityKey = true → (1 ≤ m.length ∧ m.length ≤ 31) ∨ 65 ≤ m.length →
        exec .attestReport s = .next (answerMsg s2 m stBadMessage [])) ∧
      (good → s.trust.identityKey = true → 32 ≤ m.length → m.length ≤ 64 → exec .attestReport s = .next (answerMsg s2 m stOk (report s.trust m.payload))))

/-- RING_CREATE to FAULT_REPLY (R27, R67, R337, R339, R346, R360, R393, R394, R396 to R398, R401): each with the effect of its row, and DENIED where the row
denies it. The model's choices: SLICE_WINDOW makes the WAYS writes itself (log 55), a buffer that is defined anew keeps its slots in use and its requests (log
58), and the DETAIL of a halt for which the spec states none is free (log 35). -/
def Obligations.ManagementMessagesTakeEffect : Prop :=
  ∀ (s : State) (m : UrfelMsg) (rest : List UrfelMsg),
    let s1 : State := { s with inbox := rest }
    let F (off n : Nat) : Nat := msgField m off n
    let ok (z : State) : State := answerMsg z m stOk []
    let denied : State := answerMsg s1 m stDenied []
    (∀ d s2 c s3, ManageReady s m rest 1 m.length (fun _ => true) → m.length % 16 = 0 → 0 < m.length → m.length ≤ 256 → m.addr % 64 = 0 →
      let caps := (List.range (m.length / 16)).map (fun i => capOf ((m.payload.drop (16 * i)).take 16))
      let cs := caps.filterMap id
      caps.all Option.isSome = true → sconceRead s1 (some (.msg m)) m.ctx m.addr 64 = (.ok d, s2) → rcbOk d m.ctx true = true → pf d 0x20 8 % 64 = 0 →
      sconceRead s2 (some (.msg m)) m.ctx (pf d 0x20 8) 64 = (.ok c, s3) → rcbOk c m.ctx false = true →
      (cs.take 1).any (fun x => x.covers otCommand m.addr 64 && x.covers otCommand (pf d 0 8) (pf d 8 4)) = true →
      cs.any (fun x => x.covers otCompletion (pf d 0x20 8) 64 && x.covers otCompletion (pf c 0 8) (pf c 8 4)) = true →
      (∀ k ∈ s3.rings, k.2.ctx = m.ctx → k.2.rcb ≠ m.addr ∧ k.2.comp ≠ m.addr ∧ k.2.rcb ≠ pf d 0x20 8) → compWptrOf s3 (newRing m cs d c) = 0 →
      ∃ s4 r, exec .ringCreate s = .next s4 ∧
        tblGet s4.rings s3.rings.length = some r ∧ r.ctx = m.ctx ∧ r.rcb = m.addr ∧ r.base = pf d 0 8 ∧ r.size = pf d 8 4 ∧ r.caps = cs ∧ r.seq = 0 ∧
        r.status = (if pf c 0x18 8 % 32 = 0 ∧ pf c 0x18 8 ≤ pf c 0x10 8 then 0 else haltOverrun) ∧ r.wptr = pf d 0x18 8 ∧ r.rptr = pf d 0x18 8 ∧
        r.flight = []) ∧
    (ManageReady s m rest 2 0 (fun _ => true) →
      (ringAt s1 m.ctx m.addr = none → exec .ringResume s = .next denied) ∧
      (∀ k r, ringAt s1 m.ctx m.addr = some (k, r) → (r.status = 0 → exec .ringResume s = .next denied) ∧ (r.status ≠ 0 → exec .ringResume s =
        .next (readWptr (ok (sconcePut (updRing1 s1 k (fun r => { r with status := 0 })) r.ctx (r.rcb + 0x28) (bytesOf 4 0))) k)))) ∧
    (ManageReady s m rest 3 0 (fun _ => true) →
      (ringAt s1 m.ctx m.addr = none → exec .ringHalt s = .next denied) ∧
      (∀ k r, ringAt s1 m.ctx m.addr = some (k, r) →
        (r.status ≠ 0 → exec .ringHalt s = .next (ok s1)) ∧
        (r.status = 0 → ∀ s2, s2 = haltFree s1 k haltHost →
          (putWaits s2 r.ctx (r.rcb + 0x28) = false → exec .ringHalt s = .next (ok s2)) ∧
          (putWaits s2 r.ctx (r.rcb + 0x28) = true → exec .ringHalt s = .next (waitMsg s2 m none))))) ∧
    (ManageReady s m rest 4 8 poolGood →
      let g := (m.addr / 65536, F 0 4)
      let taken : Prop := ∃ x ∈ s.weightGiven ++ s.demandGiven, rangesMeet g x = true
      (framesInDram g.1 g.2 = false ∨ taken → exec .poolGive s = .next denied) ∧
      (framesInDram g.1 g.2 = true → ¬ taken →
        (F 4 1 = 0 → exec .poolGive s = .next (ok { s1 with weightGiven := s.weightGiven ++ [g], weightFree := s.weightFree ++ [g] })) ∧
        (F 4 1 = 1 → exec .poolGive s = .next (ok { s1 with demandGiven := s.demandGiven ++ [g], demandFree := s.demandFree ++ [g] })))) ∧
    (ManageReady s m rest 5 8 bindGood →
      let other : Prop := ∃ b, tblGet s.ctxs m.ctx = some b ∧ b.endpoint ≠ m.sender
      (other → exec .ctxBind s = .next denied) ∧ (¬ other → m.addr = 0 → ctxInUse s m.ctx = true → exec .ctxBind s = .next denied) ∧
      (¬ other → m.addr = 0 → ctxInUse s m.ctx = false → exec .ctxBind s = .next (ok { s1 with ctxs := tblErase s.ctxs m.ctx })) ∧
      (¬ other → m.addr ≠ 0 → isDram m.addr = true → exec .ctxBind s = .next (ok { s1 with
        ctxs := tblSet s.ctxs m.ctx { root := m.addr, endpoint := m.sender, hostFault := decide (F 0 1 = 1) } }))) ∧
    (ManageReady s m rest 6 32 peerGood → exec .peerSet s =
      .next (ok { s1 with peers := tblSet s.peers m.addr (BitVec.ofNat 256 (natOfBytes m.payload)) })) ∧
    (ManageReady s m rest 7 16 exportGood → exec .exportSet s =
      .next (ok { s1 with exports := tblSet s.exports m.addr (BitVec.ofNat 128 (natOfBytes m.payload)) })) ∧
    (ManageReady s m rest 8 8 gateGood →
      let free : Prop := gateBusy s1 (F 0 1) = false ∧ (dispatchModel s1 (F 1 1) m.ctx).isSome = true
      (¬ free → exec .gateLoad s = .next denied) ∧
      (∀ bs s2, free → sconceRead s1 (some (.msg m)) m.ctx m.addr (2 * F 2 2 * F 4 4) = (.ok bs, s2) → exec .gateLoad s = .next (ok { s2 with
        gates := tblSet s2.gates (F 0 1) { ctx := m.ctx, mslot := F 1 1, experts := F 2 2, d := F 4 4,
                                            weights := (List.range (F 2 2 * F 4 4)).map (fun i => BitVec.ofNat 16 (pf bs (2 * i) 2)) } }))) ∧
    (ManageReady s m rest 9 32 bufGood →
      let old := tblGet s.buffers (F 0 2)
      let b : ExpertBuf :=
        { ctx := m.ctx, mslot := F 2 1, ofmt := F 3 1, slots := F 4 4, d := F 8 4, dout := F 12 4, base := m.addr, recordq := F 16 8, returnq := F 24 8,
          used := (old.map ExpertBuf.used).getD [], requests := (old.map ExpertBuf.requests).getD [], routes := (old.map ExpertBuf.routes).getD [] }
      (dispatchModel s1 (F 2 1) m.ctx = none → exec .expertBuf s = .next denied) ∧
      ((dispatchModel s1 (F 2 1) m.ctx).isSome = true → exec .expertBuf s =
        .next (ok (askLate { s1 with buffers := tblSet s.buffers (F 0 2) b } (F 0 2))))) ∧
    (ManageReady s m rest 10 16 saveGood →
      (namedTeam s1 m = none → exec .saveTeam s = .next denied) ∧
      (∀ u t, namedTeam s1 m = some (u, t) →
        (t.cfg.fuse = true ∨ t.cfg.savebase = 0 ∨ t.saved = true → exec .saveTeam s = .next denied) ∧
        (t.cfg.fuse = false → t.cfg.savebase ≠ 0 → t.saved = false → exec .saveTeam s = .next (waitMsg s1 m none)))) ∧
    (ManageReady s m rest 11 8 windowGood →
      let gs := (List.range (F 2 2)).map (fun i => F 0 2 + i)
      let s2 := gs.foldl (fun z g => lowerWays (raiseWays z g (F 4 1)) g (F 4 1)) s1
      let done : Prop := ∀ g ∈ gs, (s2.slice g).busy = false ∧ (s2.slice g).ways = F 4 1
      (done → exec .sliceWindow s = .next (ok s2)) ∧ (¬ done → exec .sliceWindow s = .next (waitMsg s2 m none))) ∧
    (ManageReady s m rest 12 16 (fun m => saveGood m && decide (msgField m 8 1 = 0)) →
      (namedTeam s1 m = none → exec .restoreTeam s = .next denied) ∧
      (∀ u t, namedTeam s1 m = some (u, t) →
        (t.saved = true → t.hold = true → exec .restoreTeam s = .next (ok (s1.setTeam u { t with hold := false }))) ∧
        (t.saved = false ∨ t.hold = false → exec .restoreTeam s = .next denied))) ∧
    (ManageReady s m rest 13 8 invalidateGood →
      (tinvalBusy s1 = true → exec .invalidate s = .next (waitMsg s1 m none)) ∧
      (tinvalBusy s1 = false → exec .invalidate s =
        .next (waitMsg (writeTinval s1 (tinvalWord (F 4 1) m.ctx (bits m.addr 51 16) (F 0 4))) m (some .units)))) ∧
    (ManageReady s m rest 14 16 demandGood →
      let key := 16 * m.ctx + F 8 1
      let hits (b k : Nat) : Prop := m.addr < b + k ∧ b < m.addr + F 0 8
      let taken : Prop := (∃ d ∈ s.demand, d.1 / 16 = m.ctx ∧ d.1 ≠ key ∧ hits d.2.base d.2.len) ∨ hits (0xFD * 2 ^ 44) (2 ^ 44)
      (F 0 8 = 0 → exec .demandSet s = .next (ok { s1 with demand := tblErase s.demand key })) ∧
      (F 0 8 ≠ 0 → taken → exec .demandSet s = .next denied) ∧
      (F 0 8 ≠ 0 → ¬ taken → exec .demandSet s = .next (ok { s1 with
        demand := tblSet s.demand key { base := m.addr, len := F 0 8, policy := F 9 1, r := decide (F 10 1 % 2 = 1), w := decide (2 ≤ F 10 1) } }))) ∧
    (ManageReady s m rest 15 16 replyGood →
      let mine (n : Notice) : Bool := decide (n.ctx = m.ctx) && decide (n.block * 2 ^ 22 = m.addr)
      (s.notices.find? mine = none → exec .faultReply s = .next denied) ∧
      (∀ n r, s.notices.find? mine = some n → (s.cluster n.cluster).recs[n.ix]? = some r →
        let z := ok { s1 with notices := s.notices.erase n }
        let handled : FaultRec := { r with notice := false, handled := some (BitVec.ofNat 64 (F 0 8)) }
        (F 8 1 = 0 → ∀ l z1, replayMarks n.ctx (recordAccesses r) z = (l, z1) → exec .faultReply s = .next (setRec z1 n.cluster n.ix { handled with marks := l })) ∧
        (F 8 1 = 1 ∨ F 8 1 = 2 → ∃ l, exec .faultReply s = .next (setRec z n.cluster n.ix { handled with marks := l }) ∧
          ∀ a c, (a, c) ∈ l ↔ a ∈ recordAccesses r ∧ (n.pages.getLsbD (a.page % 64) = true → c = if F 8 1 = 1 then TrapClass.invalidAddr else .permission) ∧
            (n.pages.getLsbD (a.page % 64) = false → isRecordVa (32768 * a.half) = true ∧ recordFate s n.ctx a = .left c))))

/-! ## The fabric (R388, R389, R396 to R403) -/

/-- PORT_DOWN, PORT_TRAINED, PEER_ACCESS, TRANSPORT_GIVES_UP (R389, R395, R397, R410): a port leaves and joins the set; a peer is served at home within the
export table, and refused elsewhere or at a line that is poisoned once it is home; an abandoned request fails its load or reads as a poisoned line: of a load
from a peer, the lane is reported and its registers stay as they were (R276). That a change of WAYS takes effect in one step, which an access to its bytes ends
first, is the model's reading (log 53). -/
def Obligations.PeersAndPorts : Prop :=
  ∀ (s : State),
    (∀ p, p < 16 → (∃ s1, exec (.portDown p) s = .next s1 ∧ ({ s1 with ports := s.ports } : State) = s ∧
        ∀ q, q < 16 → s1.ports.getLsbD q = (s.ports.getLsbD q && decide (q ≠ p))) ∧
      (∃ s1, exec (.portTrained p) s = .next s1 ∧ ({ s1 with ports := s.ports } : State) = s ∧
        ∀ q, q < 16 → s1.ports.getLsbD q = (s.ports.getLsbD q || decide (q = p)))) ∧
    (s.trust.halted = false → ∀ p : PeerReq,
      let n := opBytes p.op
      let s0 := settleWindow s p.pa
      (exported s p = false ∨ physical s p.pa n = false → exec (.peerAccess p) s = .next (answerPeer s .refused)) ∧
      (exported s p = true → physical s p.pa n = true →
        (∀ k, p.op = .read k →
          let s1 := recallRange s0 false p.pa k
          exec (.peerAccess p) s = .next (answerPeer s1 (if poisonedRange s1 p.pa k then .refused else .data (homeBytes s1 p.pa k)))) ∧
        (∀ bs, p.op = .write bs → exec (.peerAccess p) s = .next (answerPeer (arriveWrite s0 p.pa bs) .ok)) ∧
        (∀ op k ty y c, p.op = .atomic op k ty y c →
          let r := recallRange s0 false p.pa k
          let x := homeBytes r p.pa k
          (poisonedRange r p.pa k = true → exec (.peerAccess p) s = .next (answerPeer r .refused)) ∧
          (poisonedRange r p.pa k = false → exec (.peerAccess p) s = .next (answerPeer (homeWrite r p.pa
            (bytesOf k (atomOp op ty k (natOfBytes x) (y.toNat % 2 ^ (8 * k)) (c.toNat % 2 ^ (8 * k))))) (.data x)))))) ∧
    (s.trust.halted = false →
      (∀ ms k l, loadOf s ms k = some l → l.tags ≠ [] → exec (.transportGivesUp (.hostRead ms k)) s = .next (failLayer s ms k 1)) ∧
      (∀ ms k l, (loadOf s ms k).isSome = true → getLayer s ms k = some l → l.srckind = 1 →
        exec (.transportGivesUp (.peerLayer ms k)) s = .next (failLayer s ms k 1)) ∧
      (∀ u t o slot, tblGet s.teams u = some t → o ∈ t.late → o.came.getLsbD slot = false → (∃ p ∈ o.peers, p.1 = slot ∧ p ∉ o.poisoned) → ∃ s1 t1 o1,
        exec (.transportGivesUp (.peerLoad u o.id slot)) s = .next s1 ∧ tblGet s1.teams u = some t1 ∧ o1 ∈ t1.late ∧ o1.id = o.id ∧
        (∀ p ∈ o.peers, p.1 = slot → p ∈ o1.poisoned) ∧ (∀ p, p.1 ≠ slot → (p ∈ o1.poisoned ↔ p ∈ o.poisoned)) ∧
        o1.vwrites = o.vwrites.filter (fun w => decide (w.1 ≠ slot)) ∧ { t1 with late := t.late } = t) ∧
      (∀ c ix e pa bs, (s.core c).out[ix]? = some e → e.work = .peerWrite pa bs → firstOfLine s c ix = true →
        exec (.transportGivesUp (.peerStore c ix)) s =
          .next (holdIntegrity (s.updCore c (fun x => { x with out := dropNth x.out ix })) e.team none true e.slot e.va)))

/-- DISPATCH_JOB, SLOT_REQUEST, SLOT_GRANT, EXPERT_PAYLOAD, RETURN_RECORD, COMBINE, GRANT_CANCEL (R388, R398 to R403): a record in range becomes a job, one with
a field out of range stores all ones at COMPADDR; each token of a job that is not pre-empted is scored and routed; requests, a peer's among them, get free slots
in order of arrival; a granted payload goes into its slot with its record, the tokens of a job to one buffer in ascending order; the outputs come back and free
the slot; a token whose outputs are all there is combined, the last one with COMPVAL. Which free slot is taken (log 13), in which form a peer's requests and
payloads reach this device (log 58), and that one engine serves the jobs of the package (log 78) are the model's choices. A logit is the exact sum rounded once,
a NaN or an infinity deciding before (log 60); the K experts are those of the highest logits, ties to the lower index, in ascending order; where a selected
logit is not finite every weight is the canonical NaN, and equal logits give 1/K rounded once (the weights of unequal ones: log 8); an output element is the sum
of the weighted outputs in that order, each step rounded to FP32. -/
def Obligations.ExpertsServeTheirTokens : Prop :=
  ∀ (s : State), s.trust.halted = false →
    (∀ ms m, tblGet s.models ms = some m → m.unload = false → m.dispq ≠ 0 →
      let going (j : Nat × Job) : Bool := decide (j.2.mslot = ms) && !j.2.done && decide (j.2.next < j.2.ntok)
      (∀ bs l s1, s.jobs.find? going = none → popRecord s (some (.dispatch ms)) m.ctx m.dispq = (.ok bs l, s1) →
        (jobOk s1 ms bs = true →
          exec (.dispatchJob ms) s = .next { s1 with nextId := s1.nextId + 1, jobs := tblSet s1.jobs s1.nextId (jobOf ms m.ctx l bs) }) ∧
        (∀ s2, jobOk s1 ms bs = false → putOrWait s1 (.dispatch ms) m.ctx (pf bs 0x20 8) (bytesOf 8 (2 ^ 64 - 1)) = (true, s2) → exec (.dispatchJob ms) s = .next s2)) ∧
      (∀ j x, s.jobs.find? going = some (j, x) → jobPaused s x = true → exec (.dispatchJob ms) s = .next s) ∧
      (∀ j x g bs s1 xs s2 y off s3, s.jobs.find? going = some (j, x) → jobPaused s x = false → (∀ c ∈ x.copies, c.state ≠ 2) →
        tblGet s.gates x.gate = some g →
        sconceRead s (some (.job j)) x.ctx (x.tokens + 2 * g.d * x.next) (2 * g.d) = (.ok bs, s1) →
        let sel := scoreToken g ((List.range g.d).map (fun i => BitVec.ofNat 16 (pf bs (2 * i) 2))) x.k
        xtableWords (some (.job j)) x.ctx x.xtable (sel.map Prod.fst) s1 = (.ok xs, s2) → sconceCheck s2 (some (.job j)) x.ctx (x.route + 64 * x.next) 64 needW = ((.ok y, off), s3) →
        let s4 := sconcePut s3 x.ctx (x.route + 64 * x.next) (routeRecord x.next x.k sel)
        let a := askSlots j x.copies.length (newCopies x.next sel xs) s4
        exec (.dispatchJob ms) s = .next { a.2 with jobs := tblSet a.2.jobs j { x with next := x.next + 1, copies := x.copies ++ a.1 } })) ∧
    (∀ ctx buf b k, bufOf s ctx buf = some b → (List.range b.slots).find? (fun i => !b.used.contains i) = some k →
      (∀ j ix rest x c, b.requests = .job j ix :: rest → copyAt s j ix = some (x, c) → ∃ s1 b1 x1, exec (.slotRequest ctx (.waiting buf)) s = .next s1 ∧
        tblGet s1.buffers buf = some b1 ∧ b1.requests = rest ∧ b1.used = b.used ++ [k] ∧ tblGet b1.routes k = some (.job j ix) ∧
        copyAt s1 j ix = some (x1, { c with state := 2, slot := k })) ∧
      (∀ tag, b.requests = [] → ∃ s1 b1, exec (.slotRequest ctx (.peer buf tag)) s = .next s1 ∧ tblGet s1.buffers buf = some b1 ∧ b1.requests = [] ∧
        b1.used = b.used ++ [k] ∧ tblGet b1.routes k = some (.peer tag false) ∧ s1.peerAnswers = s.peerAnswers ++ [.granted tag buf k])) ∧
    (∀ ctx buf b tag, bufOf s ctx buf = some b → (List.range b.slots).find? (fun i => !b.used.contains i) = none → ∃ s1 b1,
      exec (.slotRequest ctx (.peer buf tag)) s = .next s1 ∧ tblGet s1.buffers buf = some b1 ∧ b1 = { b with requests := b.requests ++ [.peer tag false] }) ∧
    (∀ j ix x c, copyAt s j ix = some (x, c) → x.done = false → waitsTurn x c 3 = false → (c.peer = none ∧ c.state = 2) ∨ (c.peer.isSome = true ∧ c.state = 1) →
      jobPaused s x = false ∨ tokenLeaves x c.token = true → ∃ s1 x1, exec (.slotGrant j ix) s = .next s1 ∧ copyAt s1 j ix = some (x1, { c with state := 3 })) ∧
    (∀ j ix x c b g bs s1 y off s2 s3 s4, copyAt s j ix = some (x, c) → waitsTurn x c 4 = false → tblGet s.buffers c.buf = some b → c.state = 3 → c.peer = none →
      tblGet s.gates x.gate = some g → g.d = b.d → sconceRead s (some (.job j)) x.ctx (x.tokens + 2 * b.d * c.token) (2 * b.d) = (.ok bs, s1) →
      sconceCheck s1 (some (.job j)) b.ctx (slotVa b c.slot) (2 * b.d) needW = ((.ok y, off), s2) → putRun s2 b.ctx (slotVa b c.slot) bs = (true, s3) →
      pushTo s3 (some (.job j)) b.ctx b.recordq (dispatchRecord b c.buf c.slot c.token c.weight) = (true, s4) →
      exec (.expertPayload (.own j) ix) s = .next (setCopy s4 j ix (fun c => { c with state := 4 }))) ∧
    (∀ buf b slot token weight bs tag y off s1 s2 s3, tblGet s.buffers buf = some b → tblGet b.routes slot = some (.peer tag false) → bs.length = 2 * b.d →
      sconceCheck s (some (.payload buf slot)) b.ctx (slotVa b slot) (2 * b.d) needW = ((.ok y, off), s1) →
      putRun s1 b.ctx (slotVa b slot) bs = (true, s2) →
      pushTo s2 (some (.payload buf slot)) b.ctx b.recordq (dispatchRecord b buf slot token weight) = (true, s3) →
      exec (.expertPayload (.peer buf token weight bs) slot) s =
        .next { s3 with buffers := tblSet s3.buffers buf { b with routes := tblSet b.routes slot (.peer tag true) } }) ∧
    (∀ ctx buf b bs l s1 ys s2, bufOf s ctx buf = some b → popRecord s (some (.returns buf)) b.ctx b.returnq = (.ok bs l, s1) →
      let k := pf bs 0 4
      sconceRead s1 (some (.returns buf)) b.ctx (slotVa b k + 2 * b.d) (b.dout * (if b.ofmt = 0 then 4 else 2)) = (.ok ys, s2) →
      (∀ j ix, tblGet b.routes k = some (.job j ix) → exec (.returnRecord ctx buf) s = .next (setCopy (freeSlot s2 buf k) j ix (fun c =>
        if c.state = 4 then { c with state := 5, output := slotOutputs b ys } else c))) ∧
      (∀ tag d, tblGet b.routes k = some (.peer tag d) →
        exec (.returnRecord ctx buf) s = .next (answerPeer (freeSlot s2 buf k) (.outputs tag (slotOutputs b ys))))) ∧
    (∀ j x token, tblGet s.jobs j = some x → x.done = false → jobPaused s x = false → token ∉ x.combined → token < x.next →
      let mine := x.copies.filter (fun c => decide (c.token = token))
      let n := ((mine.head?).map (fun c => c.output.length)).getD 0
      let w := if x.ofmt = 0 then 4 else 2
      let bs := (List.range n).flatMap (fun i => bytesOf w (combineElem x.ofmt mine i))
      let va := x.out + n * w * token
      (∀ c ∈ mine, c.peer = none ∧ c.state = 5) →
      (∀ y off s1, x.combined.length + 1 ≠ x.ntok → sconceCheck s (some (.job j)) x.ctx va (n * w) needW = ((.ok y, off), s1) → ∃ x1,
        exec (.combine j token) s = .next { sconcePut s1 x.ctx va bs with jobs := tblSet (sconcePut s1 x.ctx va bs).jobs j x1 } ∧
        x1.combined = x.combined ++ [token]) ∧
      (∀ y off s1 y1 off1 s2, x.combined.length + 1 = x.ntok → sconceCheck s (some (.job j)) x.ctx va (n * w) needW = ((.ok y, off), s1) →
        sconceCheck s1 (some (.job j)) x.ctx x.compaddr 8 needW = ((.ok y1, off1), s2) →
        let s3 := sconcePut s2 x.ctx va bs
        exec (.combine j token) s =
          .next (settleRings { (putOrWait s3 (.job j) x.ctx x.compaddr (bytesOf 8 x.compval.toNat)).2 with jobs := tblErase s3.jobs j }))) ∧
    (∀ ctx buf k b, bufOf s ctx buf = some b →
      (∀ j ix x c, tblGet b.routes k = some (.job j ix) → copyAt s j ix = some (x, c) → c.state = 6 →
        exec (.grantCancel ctx buf k) s = .next (settleRings (setCopy (freeSlot s buf k) j ix (fun c => { c with state := 5 })))) ∧
      (∀ tag, tblGet b.routes k = some (.peer tag false) → exec (.grantCancel ctx buf k) s = .next (freeSlot s buf k))) ∧
    (∀ x g : List (BitVec 16), x.length = g.length →
      let a (i : Nat) : Nat := (nthD x i 0).toNat
      let b (i : Nat) : Nat := (nthD g i 0).toNat
      let f := fmtBf16
      let p (i : Nat) : Bool := negOf f (a i) != negOf f (b i)
      let inf (n : Bool) : Prop := ∃ i, i < x.length ∧ (InfCode f (a i) ∨ InfCode f (b i)) ∧ p i = n
      let nan : Prop := (∃ i, i < x.length ∧ (NanCode f (a i) ∨ NanCode f (b i) ∨ (InfCode f (a i) ∧ ZeroCode f (b i)) ∨ (ZeroCode f (a i) ∧ InfCode f (b i)))) ∨
        (inf true ∧ inf false)
      let q : ℚ := ∑ i ∈ Finset.range x.length, valueOf f (a i) * valueOf f (b i)
      (nan → logit x g = fmtFp32.nan) ∧ (∀ n, ¬ nan → inf n → logit x g = fpSign fmtFp32 n + fmtFp32.infBits) ∧
      (¬ nan → ¬ inf true → ¬ inf false → (q = 0 → logit x g = 0) ∧ (q ≠ 0 → ∃ r, RoundsTo fmtFp32 0 q r ∧ logit x g = r.1))) ∧
    (∀ (g : Gate) (x : List (BitVec 16)) (k : Nat), 0 < k → k ≤ g.experts →
      let l (e : Nat) : Nat := logit x ((g.weights.drop (e * g.d)).take g.d)
      let rank (e : Nat) : WithBot EReal := if fmtFp32.infBits < l e % fmtFp32.signBit then ⊥ else (lineOf fmtFp32 (l e) : WithBot EReal)
      let sel := scoreToken g x k
      sel.length = k ∧ (sel.map Prod.fst).Pairwise (· < ·) ∧ (∀ y ∈ sel, y.1 < g.experts) ∧
      (∀ y ∈ sel, ∀ e, e < g.experts → e ∉ sel.map Prod.fst → rank e < rank y.1 ∨ (rank e = rank y.1 ∧ y.1 < e)) ∧
      ((∃ y ∈ sel, ¬ Finite fmtFp32 (l y.1)) → ∀ y ∈ sel, y.2 = fmtFp32.nan) ∧
      ((∀ y ∈ sel, Finite fmtFp32 (l y.1)) → (∀ y ∈ sel, ∀ z ∈ sel, valueOf fmtFp32 (l y.1) = valueOf fmtFp32 (l z.1)) →
        ∀ y ∈ sel, ∃ r, RoundsTo fmtFp32 0 (1 / (k : ℚ)) r ∧ y.2 = r.1)) ∧
    (∀ (ofmt i : Nat) (cs : List Copy), ∃ (acc : Nat → Nat) (r : Nat × BitVec 5), acc 0 = fmtFp32.signBit ∧
      (∀ n c, cs[n]? = some c → acc (n + 1) =
        (fpFmaV fmtFp32 0 (fpDecode fmtFp32 c.weight.toNat) (fpDecode fmtFp32 (nthD c.output i 0).toNat) (fpDecode fmtFp32 (acc n))).1) ∧
      RoundsValue fmtBf16 0 false (fpDecode fmtFp32 (acc cs.length)) r ∧ combineElem ofmt cs i = if ofmt = 0 then acc cs.length else r.1)

/-! ## Trust and power (R404, R405, R411 to R413, R415) -/

/-- RESET, the alarms, POWER_THROTTLE and POWER_UNTHROTTLE (R404, R405, R411 to R413, R415): a boot from good images measures the fuses with the ROM's version,
the images and the provisioning record into M0 to M5. That memory is kept, what each digest covers and that every failed copy raises one alarm is the model's
reading (log 45), and which form of ML-DSA-87 checks an image is presumed (log 93); an image with no good copy stops it; an alarm of HALT stops the device, one
of ERASE zeroes the keys; the clock moves by 250 MHz between 2 and 4 GHz. -/
def Obligations.BootAlarmsAndClock : Prop :=
  ∀ (s : State),
    (∀ f : BootFlash, ∃ s1, exec (.reset f) s = .next s1 ∧ s1.mem = s.mem ∧ s1.teams = [] ∧ s1.rings = [] ∧ s1.slices = [] ∧
      s1.trust.booted = true ∧ s1.trust.meas[0] = extend 0 (sha3 (f.fuses ++ Config.romVersion)) ∧ s1.trust.meas[6] = 0 ∧ s1.trust.meas[7] = 0) ∧
    (∀ (f : BootFlash) (a b c d : BootImage × BootImage), f.images = [a, b, c, d] → (∀ x ∈ f.images, imageOk x.1 = true) → ∃ s1, exec (.reset f) s = .next s1 ∧
      s1.trust.bootFail = false ∧ s1.trust.alarms = 0 ∧ s1.trust.halted = false ∧ s1.trust.erased = s.trust.erased ∧ s1.trust.identityKey = !s.trust.erased ∧
      (∀ (k : Nat) (hk : k < 4), s1.trust.meas[k + 1] = extend 0 (sha3 (((f.images[k]?).map (fun x => x.1.fields ++ x.1.body)).getD []))) ∧
      s1.trust.meas[5] = extend 0 (sha3 f.provisioning) ∧ s1.trust.admitted = Config.admittedEndpoints f.provisioning) ∧
    (∀ (f : BootFlash) (x : BootImage × BootImage) (rest : List (BootImage × BootImage)), f.images = x :: rest → imageOk x.1 = false → imageOk x.2 = false →
      ∃ s1, exec (.reset f) s = .next s1 ∧ s1.trust.bootFail = true ∧ s1.trust.alarms = 2 ∧ s1.trust.lastAlarm = 8) ∧
    (∀ e code default, (e, code, default) ∈ alarmTable → ∃ t, exec e s = .next { s with trust := t } ∧
      let level := max default (nthD s.trust.levels code 0)
      t.lastAlarm = code ∧ t.log.getLast? = some code ∧ t.log.length = max s.trust.log.length (min 256 (s.trust.log.length + 1)) ∧
      t.alarms.toNat = min (s.trust.alarms.toNat + 1) (2 ^ 32 - 1) ∧ t.halted = (s.trust.halted || decide (1 ≤ level)) ∧
      t.identityKey = (s.trust.identityKey && decide (level < 2)) ∧ t.erased = (s.trust.erased || decide (2 ≤ level)) ∧ t.meas = s.trust.meas) ∧
    (8 ≤ s.trust.clock → s.trust.clock ≤ 16 →
      exec .powerThrottle s = .next { s with trust := { s.trust with clock := max 8 (s.trust.clock - 1) } } ∧
      exec .powerUnthrottle s = .next { s with trust := { s.trust with clock := min 16 (s.trust.clock + 1) } })

/-! ## The machine as a whole (R27, R172, R217 to R221, R228 to R231, R405, R411) -/

/-- Reset (R27, R405): no slice has a window, WAYS, BUSY and GEN are 0; M0 to M7 are zero; no team is placed; memory lists nothing, so that every byte reads 0
(log 1), and the invariants of the model hold. -/
def Obligations.ResetLeavesTheInvariant : Prop :=
  (∀ g, (State.reset.slice g).ways = 0 ∧ (State.reset.slice g).busy = false ∧ (State.reset.slice g).gen = 0) ∧
  (∀ (k : Nat) (hk : k < 8), State.reset.trust.meas[k] = 0) ∧ State.reset.teams = [] ∧ (∀ a, Memory.read State.reset.mem a = 0) ∧
  Canonical State.reset ∧ WaysLegal State.reset

/-- A step with nothing on the agenda issues the next word of the clause in progress (R171, R221): it is exec of the instruction that the word decodes to; a word
that is none takes ILLEGAL_OP with EXEC as its faulted mask (R219, R231). The team must be one that the issue logic chooses, and it goes behind its equals in the
round-robin (R356). A completed instruction moves its team past the word and its literal, and at the end of the clause to the word after it (R225). An event on the
agenda is taken as it stands (log 3). -/
def Obligations.StepsRunTheDecodedInstruction : Prop :=
  (∀ (s : State) (u : Nat) (t : Team) (c : Clause) (w : Word), s.agenda = [] → Issuing s u t c → t.active = true → chosen s u t = true →
    c.words[c.idx - 1]? = some w →
    let s0 : State := if hasEqual s u t then ({ s with nextId := s.nextId + 1 } : State).setTeam u { t with order := s.nextId } else s
    (∀ i, decode w = .ok i → step s = exec i s0) ∧ (∀ e, decode w = .error e → step s = .next (takeTrap s0 u (trapOf .illegalOp t.exec)))) ∧
  (∀ (s : State) (u : Nat) (t : Team) (c : Clause), tblGet s.teams u = some t → t.clause = some c →
    let k := c.idx + (if ownsLiteral c.word then 2 else 1)
    ∃ t1, tblGet (stepOn s u).teams u = some t1 ∧ (k ≤ c.words.length → t1.clause = some { c with idx := k } ∧ t1.exec = t.exec) ∧
      (c.words.length < k → t1 = goOn t (clauseEnd c))) ∧
  (∀ (s : State) (e : Instr) (rest : List Instr), s.agenda = e :: rest → e.isWord = false → step s = exec e { s with agenda := rest })

/-- Words written out from the encodings of the spec and what they decode to (R217 to R221, R228, R230): a few of each part of the map, and three that are no
instruction or a reserved one. -/
def Obligations.WordsDecodeAsTheMapSays : Prop :=
  (∀ p ∈ ([(0x00000000, .nop), (0x010AC500, .mov (.v 10) (.s 5)), (0x1002F0E5, .add (.v 2) .lit .laneid), (0x29420405, .cmp 8 2 (.v 4) (.v 5)),
      (0x30BF00E4, .fadd (.v 191) (.v 0) .zero), (0x58020406, .rsadd (.v 2) (.v 4) (.v 6))] : List (Word × Instr)), decode p.1 = .ok p.2) ∧
  (∀ p ∈ ([(0x77DF0100, .redadd (.s 31) (.v 1)), (0x8903C0E8, .mset 3 (.s 0) .nwide), (0x90E304C1, .ld (.w 3) (.v 4) (.s 1)),
      (0xA00202E0, .aadd (.v 2) (.v 2) (.w 0)), (0xBB000000, .release), (0xC3C0C200, .card (.s 0) (.s 2)),
      (0xD000C400, .mloop (.s 4))] : List (Word × Instr)), decode p.1 = .ok p.2) ∧
  (∀ p ∈ ([(0xE00000F0, .bra), (0xE10001F0, .brc 1), (0xE200C3F0, .bru (.s 3)), (0xE31008F0, .call (.v 16) (.v 8)),
      (0xF1C0C2C4, .qpush (.s 0) (.s 2) (.s 4)), (0xF500EA00, .trap .coreid)] : List (Word × Instr)), decode p.1 = .ok p.2) ∧
  decode 0x00000001 = .error .unusedFieldNonzero ∧ decode 0xE0000000 = .error .litFieldMissing ∧ decode 0x0A123456 = .ok (.reservedOpcode 0x0A123456)

/-- The checks of R231 that come before an instruction acts: a field outside its kind is ILLEGAL_OP for every instruction (R219), with EXEC as faulted mask; a
reserved opcode is ILLEGAL_OP, whatever its fields hold (R230); of the integer instructions, an operand that check 3 refuses is ILLEGAL_OP before a TYPE that is not
accepted is ILLEGAL_TYPE. Every step of the machine answers a next state; HALT (R411): a halted device issues no word and takes no step but RESET, messages,
ports, alarms and the clock. Which registers check 3 looks at under a TYPE that is not accepted, and what a halted device still does, are readings of the model
(logs 41, 61). -/
def Obligations.ChecksComeFirstAndHaltStops : Prop :=
  (∀ (s : State) (u : Nat) (t : Team) (c : Clause) (i : Instr), Issuing s u t c → i.isWord = true → i.wellFormed = false → Traps i s u .illegalOp t.exec) ∧
  (∀ (s : State) (u : Nat) (t : Team) (c : Clause) (w : Word), Issuing s u t c → reservedOp (opField w) = true →
    Traps (.reservedOpcode w) s u .illegalOp (lanesExec t)) ∧
  (∀ (s : State) (u : Nat) (t : Team) (c : Clause) (d a b : Sel) (i : Instr) (g : Nat → Bool → Nat → Nat → Nat), (i, g) ∈ integerBinary d a b →
    Issuing s u t c → i.wellFormed = true →
    let n := typeRegs (modeType t.mode)
    let fits : Bool := opndsOk t.cfg.budget false [dst d n, src a n, src b n]
    (fits = false → Traps i s u .illegalOp t.exec) ∧ (fits = true → isIntType (modeType t.mode) = false → Traps i s u .illegalType t.exec)) ∧
  (∀ s : State, ∃ s1, step s = .next s1) ∧
  (∀ (s : State) (i : Instr), s.trust.halted = true →
    (i.isWord = true → exec i s = .next s) ∧
    (i.isWord = false → (∀ f, i ≠ .reset f) → ∃ s1, exec i s = .next s1 ∧ s1.trust.halted = true ∧
      ({ s1 with trust := s.trust, ports := s.ports, inbox := s.inbox, sent := s.sent, refusals := s.refusals } : State) = s))

/-- Encoding and decoding agree (R217 to R219, R228): every well-formed instruction that has a word encodes to one that decodes to it, with every operand at every
value its kind accepts; only an instruction with a word encodes. -/
def Obligations.DecodingReversesEncoding : Prop :=
  ∀ i : Instr, (i.isWord = true → i.wellFormed = true → ∃ w, encode i = some w ∧ decode w = .ok i) ∧ (i.isWord = false → encode i = none)

/-- Every step keeps the invariants of the model: home memory and every scratchpad stay in canonical form (log 1), and no slice has a window beyond the four sizes of
R27. -/
def Obligations.StepsKeepTheInvariant : Prop :=
  ∀ s s1 : State, Canonical s → WaysLegal s → step s = .next s1 → Canonical s1 ∧ WaysLegal s1
end

