-- ==== Sys2Proof/Laws/Tables.lean ====
section
/-! SUPPORT. What reading gives after writing, for the sparse tables, the masks and the memories, and the canonical form of a memory. -/

namespace Sys2Proof.Machine

/-! ## Tables -/

@[simp] theorem tblGet_tblSet_self {α : Type} (t : Tbl α) (a : Nat) (y : α) : tblGet (tblSet t a y) a = some y := by
  induction t with
  | nil => simp [tblSet, tblGet]
  | cons e rest ih =>
    obtain ⟨k, x⟩ := e
    simp only [tblSet]
    split
    · simp [tblGet]
    · split
      · simp [tblGet]
      · rename_i h1 h2
        simp [tblGet, Ne.symm h2, ih]

theorem tblGet_tblSet_ne {α : Type} (t : Tbl α) {a b : Nat} (y : α) (h : b ≠ a) : tblGet (tblSet t a y) b = tblGet t b := by
  induction t with
  | nil => simp [tblSet, tblGet, Ne.symm h]
  | cons e rest ih =>
    obtain ⟨k, x⟩ := e
    simp only [tblSet]
    split
    · simp [tblGet, Ne.symm h]
    · split
      · rename_i h1 h2
        subst h2
        simp [tblGet, Ne.symm h]
      · simp [tblGet, ih]

@[simp] theorem tblGet_tblErase_self {α : Type} (t : Tbl α) (a : Nat) : tblGet (tblErase t a) a = none := by
  induction t with
  | nil => rfl
  | cons e rest ih =>
    obtain ⟨k, x⟩ := e
    by_cases h : k = a
    · subst h; simpa [tblErase] using ih
    · simp only [tblErase, ne_eq, decide_not] at ih
      simp [tblErase, tblGet, h, ih]

theorem tblGet_tblErase_ne {α : Type} (t : Tbl α) {a b : Nat} (h : b ≠ a) : tblGet (tblErase t a) b = tblGet t b := by
  induction t with
  | nil => rfl
  | cons e rest ih =>
    obtain ⟨k, x⟩ := e
    simp only [tblErase, ne_eq, decide_not] at ih
    by_cases hk : k = a
    · subst hk
      simp [tblErase, tblGet, Ne.symm h, ih]
    · simp [tblErase, tblGet, hk, ih]

@[simp] theorem wordGet_wordSet_self (t : Tbl Word) (a : Nat) (w : Word) : wordGet (wordSet t a w) a = w := by
  unfold wordSet wordGet tblGetD
  split
  · simp_all
  · simp

theorem wordGet_wordSet_ne (t : Tbl Word) {a b : Nat} (w : Word) (h : b ≠ a) : wordGet (wordSet t a w) b = wordGet t b := by
  unfold wordSet wordGet tblGetD
  split
  · rw [tblGet_tblErase_ne t h]
  · rw [tblGet_tblSet_ne t w h]

/-! ## Slots of a mask -/

theorem mem_slotsOf {c : Nat} {m : Mask} {k : Nat} : k ∈ slotsOf c m ↔ k < c ∧ m.getLsbD k = true := by simp [slotsOf]

theorem nodup_slotsOf (c : Nat) (m : Mask) : (slotsOf c m).Nodup := List.nodup_range.filter _

/-! ## Memories -/

theorem Memory.read_put_self (m : Memory) (a : Nat) (b : Byte) : Memory.read (Memory.put m a b) a = b := by
  induction m with
  | nil => simp [Memory.put, Memory.read]
  | cons e rest ih =>
    obtain ⟨k, c⟩ := e
    simp only [Memory.put]
    split
    · simp [Memory.read]
    · split
      · simp [Memory.read]
      · rename_i h1 h2
        simp [Memory.read, Ne.symm h2, ih]

theorem Memory.read_put_ne (m : Memory) {a x : Nat} (b : Byte) (h : x ≠ a) : Memory.read (Memory.put m a b) x = Memory.read m x := by
  induction m with
  | nil => simp [Memory.put, Memory.read, Ne.symm h]
  | cons e rest ih =>
    obtain ⟨k, c⟩ := e
    simp only [Memory.put]
    split
    · simp [Memory.read, Ne.symm h]
    · split
      · rename_i h1 h2
        subst h2
        simp [Memory.read, Ne.symm h]
      · simp [Memory.read, ih]

theorem Memory.read_filter (m : Memory) (p : Nat → Bool) (x : Nat) :
    Memory.read (m.filter (fun c => p c.1)) x = if p x then Memory.read m x else Memory.unlisted := by
  induction m with
  | nil => simp [Memory.read]
  | cons e rest ih =>
    obtain ⟨k, c⟩ := e
    by_cases hk : k = x
    · subst hk
      by_cases hp : p k <;> simp_all [List.filter, Memory.read]
    · by_cases hp : p k <;> simp_all [List.filter, Memory.read]

/-- Reading a byte after writing it (memory law). -/
@[simp] theorem Memory.read_write_self (m : Memory) (a : Nat) (b : Byte) : Memory.read (Memory.write m a b) a = b := by
  unfold Memory.write
  split
  · rename_i h
    rw [Memory.read_filter m (fun k => decide (k ≠ a)), h]
    simp
  · exact Memory.read_put_self m a b

/-- A write leaves every other byte alone (memory law). -/
theorem Memory.read_write_ne (m : Memory) {a x : Nat} (b : Byte) (h : x ≠ a) : Memory.read (Memory.write m a b) x = Memory.read m x := by
  unfold Memory.write
  split
  · rw [Memory.read_filter m (fun k => decide (k ≠ a))]
    simp [h]
  · exact Memory.read_put_ne m b h

/-- What a run of bytes written reads as. -/
theorem Memory.read_writes (m : Memory) (a : Nat) (bs : List Byte) (x : Nat) :
    Memory.read (Memory.writes m a bs) x = if a ≤ x ∧ x < a + bs.length then nthD bs (x - a) 0 else Memory.read m x := by
  induction bs generalizing m a with
  | nil => simp [Memory.writes]
  | cons b rest ih =>
    simp only [Memory.writes, ih, List.length_cons]
    by_cases h1 : x = a
    · subst h1
      simp [nthD]
    · rw [Memory.read_write_ne m b h1]
      by_cases h2 : a + 1 ≤ x ∧ x < a + 1 + rest.length
      · have h3 : a ≤ x ∧ x < a + (rest.length + 1) := ⟨by omega, by omega⟩
        have h4 : x - a = (x - (a + 1)) + 1 := by omega
        simp only [h2, h3, and_self, if_true, h4, nthD, List.getElem?_cons_succ]
      · have h3 : ¬ (a ≤ x ∧ x < a + (rest.length + 1)) := by omega
        rw [if_neg h2, if_neg h3]

/-- What a zeroed run reads as. -/
theorem Memory.read_zero (m : Memory) (a n x : Nat) :
    Memory.read (Memory.zero m a n) x = if a ≤ x ∧ x < a + n then 0 else Memory.read m x := by
  unfold Memory.zero
  rw [Memory.read_filter m (fun k => decide (k < a) || decide (a + n ≤ k))]
  by_cases h : a ≤ x ∧ x < a + n
  · simp [h, Nat.not_lt.mpr h.1, Nat.not_le.mpr h.2, Memory.unlisted]
  · have : x < a ∨ a + n ≤ x := by omega
    simp [h, this]

/-! ## The canonical form -/

theorem Memory.wfFrom_mono {a b : Nat} (h : b ≤ a) {m : Memory} (hm : Memory.wfFrom a m = true) : Memory.wfFrom b m = true := by
  cases m with
  | nil => rfl
  | cons e rest =>
    obtain ⟨k, c⟩ := e
    simp only [Memory.wfFrom, Bool.and_eq_true, decide_eq_true_eq] at hm ⊢
    exact ⟨⟨by omega, hm.1.2⟩, hm.2⟩

theorem Memory.wfFrom_filter (p : Host.Cell → Bool) {a : Nat} {m : Memory} (hm : Memory.wfFrom a m = true) : Memory.wfFrom a (m.filter p) = true := by
  induction m generalizing a with
  | nil => rfl
  | cons e rest ih =>
    obtain ⟨k, c⟩ := e
    simp only [Memory.wfFrom, Bool.and_eq_true, decide_eq_true_eq] at hm
    by_cases hp : p (k, c)
    · simp only [List.filter_cons, hp, if_true, Memory.wfFrom, Bool.and_eq_true, decide_eq_true_eq]
      exact ⟨hm.1, ih hm.2⟩
    · simp only [List.filter_cons, hp]
      exact ih (Memory.wfFrom_mono (by omega) hm.2)

theorem Memory.wf_filter (p : Host.Cell → Bool) {m : Memory} (hm : Memory.wf m = true) : Memory.wf (m.filter p) = true := Memory.wfFrom_filter p hm

theorem Memory.wfFrom_put {lo a : Nat} (hlo : lo ≤ a) {b : Byte} (hb : b ≠ Memory.unlisted) {m : Memory} (hm : Memory.wfFrom lo m = true) :
    Memory.wfFrom lo (Memory.put m a b) = true := by
  induction m generalizing lo with
  | nil => simp [Memory.put, Memory.wfFrom, hlo, hb]
  | cons e rest ih =>
    obtain ⟨k, c⟩ := e
    simp only [Memory.wfFrom, Bool.and_eq_true, decide_eq_true_eq] at hm
    simp only [Memory.put]
    split
    · rename_i h
      simp only [Memory.wfFrom, Bool.and_eq_true, decide_eq_true_eq]
      exact ⟨⟨hlo, hb⟩, ⟨by omega, hm.1.2⟩, hm.2⟩
    · split
      · rename_i h1 h2
        subst h2
        simp only [Memory.wfFrom, Bool.and_eq_true, decide_eq_true_eq]
        exact ⟨⟨hlo, hb⟩, hm.2⟩
      · simp only [Memory.wfFrom, Bool.and_eq_true, decide_eq_true_eq]
        exact ⟨hm.1, ih (by omega) hm.2⟩

/-- A byte written keeps the canonical form. -/
theorem Memory.wf_write {m : Memory} (hm : Memory.wf m = true) (a : Nat) (b : Byte) : Memory.wf (Memory.write m a b) = true := by
  unfold Memory.write
  split
  · exact Memory.wf_filter _ hm
  · rename_i h
    exact Memory.wfFrom_put (Nat.zero_le a) h hm

/-- Bytes written keep the canonical form. -/
theorem Memory.wf_writes {m : Memory} (hm : Memory.wf m = true) (a : Nat) (bs : List Byte) : Memory.wf (Memory.writes m a bs) = true := by
  induction bs generalizing m a with
  | nil => exact hm
  | cons b rest ih => exact ih (Memory.wf_write hm a b) (a + 1)

/-- A run zeroed keeps the canonical form. -/
theorem Memory.wf_zero {m : Memory} (hm : Memory.wf m = true) (a n : Nat) : Memory.wf (Memory.zero m a n) = true := Memory.wf_filter _ hm

/-- A fold of writes keeps the canonical form. -/
theorem Memory.wf_foldl {β : Type} {f : Memory → β → Memory} (hf : ∀ m b, Memory.wf m = true → Memory.wf (f m b) = true) (l : List β) {m : Memory}
    (hm : Memory.wf m = true) : Memory.wf (l.foldl f m) = true := by
  induction l generalizing m with
  | nil => exact hm
  | cons b rest ih => exact ih (hf m b hm)

/-- Two memories in canonical form that read alike are the same data. -/
theorem Memory.ext_of_wfFrom {a : Nat} {m n : Memory} (hm : Memory.wfFrom a m = true) (hn : Memory.wfFrom a n = true)
    (h : ∀ x, Memory.read m x = Memory.read n x) : m = n := by
  have low : ∀ (l : Memory) (b x : Nat), Memory.wfFrom b l = true → x < b → Memory.read l x = Memory.unlisted := by
    intro l
    induction l with
    | nil => intros; rfl
    | cons e rest ih =>
      intro b x hw hx
      obtain ⟨k, c⟩ := e
      simp only [Memory.wfFrom, Bool.and_eq_true, decide_eq_true_eq] at hw
      have : ¬ k = x := by omega
      simp only [Memory.read, this, if_false]
      exact ih (k + 1) x hw.2 (by omega)
  induction m generalizing a n with
  | nil =>
    cases n with
    | nil => rfl
    | cons e rest =>
      obtain ⟨k, c⟩ := e
      simp only [Memory.wfFrom, Bool.and_eq_true, decide_eq_true_eq] at hn
      have := h k
      simp [Memory.read] at this
      exact absurd this.symm hn.1.2
  | cons e rest ih =>
    obtain ⟨k, c⟩ := e
    cases n with
    | nil =>
      simp only [Memory.wfFrom, Bool.and_eq_true, decide_eq_true_eq] at hm
      have := h k
      simp [Memory.read] at this
      exact absurd this hm.1.2
    | cons e' rest' =>
      obtain ⟨k', c'⟩ := e'
      have hm' := hm
      have hn' := hn
      simp only [Memory.wfFrom, Bool.and_eq_true, decide_eq_true_eq] at hm hn
      have hk : k = k' := by
        rcases Nat.lt_trichotomy k k' with hlt | heq | hgt
        · have h1 := h k
          have h2 := low ((k', c') :: rest') k' k (by simp only [Memory.wfFrom, Bool.and_eq_true, decide_eq_true_eq]; exact ⟨⟨Nat.le_refl _, hn.1.2⟩, hn.2⟩) hlt
          rw [h2] at h1
          simp [Memory.read] at h1
          exact absurd h1 hm.1.2
        · exact heq
        · have h1 := h k'
          have h2 := low ((k, c) :: rest) k k' (by simp only [Memory.wfFrom, Bool.and_eq_true, decide_eq_true_eq]; exact ⟨⟨Nat.le_refl _, hm.1.2⟩, hm.2⟩) hgt
          rw [h2] at h1
          simp [Memory.read] at h1
          exact absurd h1.symm hn.1.2
      subst hk
      have hc : c = c' := by simpa [Memory.read] using h k
      subst hc
      have : rest = rest' := by
        refine ih hm.2 hn.2 (fun x => ?_)
        by_cases hx : k = x
        · subst hx
          rw [low rest (k + 1) k hm.2 (by omega), low rest' (k + 1) k hn.2 (by omega)]
        · simpa [Memory.read, hx] using h x
      rw [this]

/-- Equal memories are equal data. -/
theorem Memory.ext_of_wf {m n : Memory} (hm : Memory.wf m = true) (hn : Memory.wf n = true) (h : ∀ x, Memory.read m x = Memory.read n x) : m = n :=
  Memory.ext_of_wfFrom hm hn h

end Sys2Proof.Machine
end

