-- ==== Sys2Proof/Laws/State.lean ====
section
/-! SUPPORT. What each update of the state does to each field: the field written, every other field as before. -/

namespace Sys2Proof.Machine

/-! ## State.setTeam -/

@[simp] theorem State.setTeam_teams (s : State) (u : Nat) (t : Team) : (s.setTeam u t).teams = tblSet s.teams u t := rfl
@[simp] theorem State.setTeam_areas (s : State) (u : Nat) (t : Team) : (s.setTeam u t).areas = s.areas := rfl
@[simp] theorem State.setTeam_cores (s : State) (u : Nat) (t : Team) : (s.setTeam u t).cores = s.cores := rfl
@[simp] theorem State.setTeam_mem (s : State) (u : Nat) (t : Team) : (s.setTeam u t).mem = s.mem := rfl
@[simp] theorem State.setTeam_own (s : State) (u : Nat) (t : Team) : (s.setTeam u t).own = s.own := rfl
@[simp] theorem State.setTeam_poison (s : State) (u : Nat) (t : Team) : (s.setTeam u t).poison = s.poison := rfl
@[simp] theorem State.setTeam_checks (s : State) (u : Nat) (t : Team) : (s.setTeam u t).checks = s.checks := rfl
@[simp] theorem State.setTeam_locks (s : State) (u : Nat) (t : Team) : (s.setTeam u t).locks = s.locks := rfl
@[simp] theorem State.setTeam_cohorts (s : State) (u : Nat) (t : Team) : (s.setTeam u t).cohorts = s.cohorts := rfl
@[simp] theorem State.setTeam_queues (s : State) (u : Nat) (t : Team) : (s.setTeam u t).queues = s.queues := rfl
@[simp] theorem State.setTeam_unitWait (s : State) (u : Nat) (t : Team) : (s.setTeam u t).unitWait = s.unitWait := rfl
@[simp] theorem State.setTeam_unitRecs (s : State) (u : Nat) (t : Team) : (s.setTeam u t).unitRecs = s.unitRecs := rfl
@[simp] theorem State.setTeam_puts (s : State) (u : Nat) (t : Team) : (s.setTeam u t).puts = s.puts := rfl
@[simp] theorem State.setTeam_wptrReads (s : State) (u : Nat) (t : Team) : (s.setTeam u t).wptrReads = s.wptrReads := rfl
@[simp] theorem State.setTeam_asks (s : State) (u : Nat) (t : Team) : (s.setTeam u t).asks = s.asks := rfl
@[simp] theorem State.setTeam_slices (s : State) (u : Nat) (t : Team) : (s.setTeam u t).slices = s.slices := rfl
@[simp] theorem State.setTeam_clusters (s : State) (u : Nat) (t : Team) : (s.setTeam u t).clusters = s.clusters := rfl
@[simp] theorem State.setTeam_ctxs (s : State) (u : Nat) (t : Team) : (s.setTeam u t).ctxs = s.ctxs := rfl
@[simp] theorem State.setTeam_demand (s : State) (u : Nat) (t : Team) : (s.setTeam u t).demand = s.demand := rfl
@[simp] theorem State.setTeam_cards (s : State) (u : Nat) (t : Team) : (s.setTeam u t).cards = s.cards := rfl
@[simp] theorem State.setTeam_orphans (s : State) (u : Nat) (t : Team) : (s.setTeam u t).orphans = s.orphans := rfl
@[simp] theorem State.setTeam_rings (s : State) (u : Nat) (t : Team) : (s.setTeam u t).rings = s.rings := rfl
@[simp] theorem State.setTeam_launches (s : State) (u : Nat) (t : Team) : (s.setTeam u t).launches = s.launches := rfl
@[simp] theorem State.setTeam_lastCore (s : State) (u : Nat) (t : Team) : (s.setTeam u t).lastCore = s.lastCore := rfl
@[simp] theorem State.setTeam_models (s : State) (u : Nat) (t : Team) : (s.setTeam u t).models = s.models := rfl
@[simp] theorem State.setTeam_requests (s : State) (u : Nat) (t : Team) : (s.setTeam u t).requests = s.requests := rfl
@[simp] theorem State.setTeam_loads (s : State) (u : Nat) (t : Team) : (s.setTeam u t).loads = s.loads := rfl
@[simp] theorem State.setTeam_weightGiven (s : State) (u : Nat) (t : Team) : (s.setTeam u t).weightGiven = s.weightGiven := rfl
@[simp] theorem State.setTeam_weightFree (s : State) (u : Nat) (t : Team) : (s.setTeam u t).weightFree = s.weightFree := rfl
@[simp] theorem State.setTeam_demandGiven (s : State) (u : Nat) (t : Team) : (s.setTeam u t).demandGiven = s.demandGiven := rfl
@[simp] theorem State.setTeam_demandFree (s : State) (u : Nat) (t : Team) : (s.setTeam u t).demandFree = s.demandFree := rfl
@[simp] theorem State.setTeam_notices (s : State) (u : Nat) (t : Team) : (s.setTeam u t).notices = s.notices := rfl
@[simp] theorem State.setTeam_ports (s : State) (u : Nat) (t : Team) : (s.setTeam u t).ports = s.ports := rfl
@[simp] theorem State.setTeam_refusals (s : State) (u : Nat) (t : Team) : (s.setTeam u t).refusals = s.refusals := rfl
@[simp] theorem State.setTeam_peers (s : State) (u : Nat) (t : Team) : (s.setTeam u t).peers = s.peers := rfl
@[simp] theorem State.setTeam_exports (s : State) (u : Nat) (t : Team) : (s.setTeam u t).exports = s.exports := rfl
@[simp] theorem State.setTeam_gates (s : State) (u : Nat) (t : Team) : (s.setTeam u t).gates = s.gates := rfl
@[simp] theorem State.setTeam_buffers (s : State) (u : Nat) (t : Team) : (s.setTeam u t).buffers = s.buffers := rfl
@[simp] theorem State.setTeam_jobs (s : State) (u : Nat) (t : Team) : (s.setTeam u t).jobs = s.jobs := rfl
@[simp] theorem State.setTeam_trust (s : State) (u : Nat) (t : Team) : (s.setTeam u t).trust = s.trust := rfl
@[simp] theorem State.setTeam_inbox (s : State) (u : Nat) (t : Team) : (s.setTeam u t).inbox = s.inbox := rfl
@[simp] theorem State.setTeam_waiting (s : State) (u : Nat) (t : Team) : (s.setTeam u t).waiting = s.waiting := rfl
@[simp] theorem State.setTeam_sent (s : State) (u : Nat) (t : Team) : (s.setTeam u t).sent = s.sent := rfl
@[simp] theorem State.setTeam_peerAnswers (s : State) (u : Nat) (t : Team) : (s.setTeam u t).peerAnswers = s.peerAnswers := rfl
@[simp] theorem State.setTeam_agenda (s : State) (u : Nat) (t : Team) : (s.setTeam u t).agenda = s.agenda := rfl
@[simp] theorem State.setTeam_cur (s : State) (u : Nat) (t : Team) : (s.setTeam u t).cur = s.cur := rfl
@[simp] theorem State.setTeam_fresh (s : State) (u : Nat) (t : Team) : (s.setTeam u t).fresh = s.fresh := rfl
@[simp] theorem State.setTeam_nextId (s : State) (u : Nat) (t : Team) : (s.setTeam u t).nextId = s.nextId := rfl

/-! ## State.setCore -/

@[simp] theorem State.setCore_teams (s : State) (c : Nat) (x : Core) : (s.setCore c x).teams = s.teams := rfl
@[simp] theorem State.setCore_areas (s : State) (c : Nat) (x : Core) : (s.setCore c x).areas = s.areas := rfl
@[simp] theorem State.setCore_cores (s : State) (c : Nat) (x : Core) : (s.setCore c x).cores = tblSet s.cores c x := rfl
@[simp] theorem State.setCore_mem (s : State) (c : Nat) (x : Core) : (s.setCore c x).mem = s.mem := rfl
@[simp] theorem State.setCore_own (s : State) (c : Nat) (x : Core) : (s.setCore c x).own = s.own := rfl
@[simp] theorem State.setCore_poison (s : State) (c : Nat) (x : Core) : (s.setCore c x).poison = s.poison := rfl
@[simp] theorem State.setCore_checks (s : State) (c : Nat) (x : Core) : (s.setCore c x).checks = s.checks := rfl
@[simp] theorem State.setCore_locks (s : State) (c : Nat) (x : Core) : (s.setCore c x).locks = s.locks := rfl
@[simp] theorem State.setCore_cohorts (s : State) (c : Nat) (x : Core) : (s.setCore c x).cohorts = s.cohorts := rfl
@[simp] theorem State.setCore_queues (s : State) (c : Nat) (x : Core) : (s.setCore c x).queues = s.queues := rfl
@[simp] theorem State.setCore_unitWait (s : State) (c : Nat) (x : Core) : (s.setCore c x).unitWait = s.unitWait := rfl
@[simp] theorem State.setCore_unitRecs (s : State) (c : Nat) (x : Core) : (s.setCore c x).unitRecs = s.unitRecs := rfl
@[simp] theorem State.setCore_puts (s : State) (c : Nat) (x : Core) : (s.setCore c x).puts = s.puts := rfl
@[simp] theorem State.setCore_wptrReads (s : State) (c : Nat) (x : Core) : (s.setCore c x).wptrReads = s.wptrReads := rfl
@[simp] theorem State.setCore_asks (s : State) (c : Nat) (x : Core) : (s.setCore c x).asks = s.asks := rfl
@[simp] theorem State.setCore_slices (s : State) (c : Nat) (x : Core) : (s.setCore c x).slices = s.slices := rfl
@[simp] theorem State.setCore_clusters (s : State) (c : Nat) (x : Core) : (s.setCore c x).clusters = s.clusters := rfl
@[simp] theorem State.setCore_ctxs (s : State) (c : Nat) (x : Core) : (s.setCore c x).ctxs = s.ctxs := rfl
@[simp] theorem State.setCore_demand (s : State) (c : Nat) (x : Core) : (s.setCore c x).demand = s.demand := rfl
@[simp] theorem State.setCore_cards (s : State) (c : Nat) (x : Core) : (s.setCore c x).cards = s.cards := rfl
@[simp] theorem State.setCore_orphans (s : State) (c : Nat) (x : Core) : (s.setCore c x).orphans = s.orphans := rfl
@[simp] theorem State.setCore_rings (s : State) (c : Nat) (x : Core) : (s.setCore c x).rings = s.rings := rfl
@[simp] theorem State.setCore_launches (s : State) (c : Nat) (x : Core) : (s.setCore c x).launches = s.launches := rfl
@[simp] theorem State.setCore_lastCore (s : State) (c : Nat) (x : Core) : (s.setCore c x).lastCore = s.lastCore := rfl
@[simp] theorem State.setCore_models (s : State) (c : Nat) (x : Core) : (s.setCore c x).models = s.models := rfl
@[simp] theorem State.setCore_requests (s : State) (c : Nat) (x : Core) : (s.setCore c x).requests = s.requests := rfl
@[simp] theorem State.setCore_loads (s : State) (c : Nat) (x : Core) : (s.setCore c x).loads = s.loads := rfl
@[simp] theorem State.setCore_weightGiven (s : State) (c : Nat) (x : Core) : (s.setCore c x).weightGiven = s.weightGiven := rfl
@[simp] theorem State.setCore_weightFree (s : State) (c : Nat) (x : Core) : (s.setCore c x).weightFree = s.weightFree := rfl
@[simp] theorem State.setCore_demandGiven (s : State) (c : Nat) (x : Core) : (s.setCore c x).demandGiven = s.demandGiven := rfl
@[simp] theorem State.setCore_demandFree (s : State) (c : Nat) (x : Core) : (s.setCore c x).demandFree = s.demandFree := rfl
@[simp] theorem State.setCore_notices (s : State) (c : Nat) (x : Core) : (s.setCore c x).notices = s.notices := rfl
@[simp] theorem State.setCore_ports (s : State) (c : Nat) (x : Core) : (s.setCore c x).ports = s.ports := rfl
@[simp] theorem State.setCore_refusals (s : State) (c : Nat) (x : Core) : (s.setCore c x).refusals = s.refusals := rfl
@[simp] theorem State.setCore_peers (s : State) (c : Nat) (x : Core) : (s.setCore c x).peers = s.peers := rfl
@[simp] theorem State.setCore_exports (s : State) (c : Nat) (x : Core) : (s.setCore c x).exports = s.exports := rfl
@[simp] theorem State.setCore_gates (s : State) (c : Nat) (x : Core) : (s.setCore c x).gates = s.gates := rfl
@[simp] theorem State.setCore_buffers (s : State) (c : Nat) (x : Core) : (s.setCore c x).buffers = s.buffers := rfl
@[simp] theorem State.setCore_jobs (s : State) (c : Nat) (x : Core) : (s.setCore c x).jobs = s.jobs := rfl
@[simp] theorem State.setCore_trust (s : State) (c : Nat) (x : Core) : (s.setCore c x).trust = s.trust := rfl
@[simp] theorem State.setCore_inbox (s : State) (c : Nat) (x : Core) : (s.setCore c x).inbox = s.inbox := rfl
@[simp] theorem State.setCore_waiting (s : State) (c : Nat) (x : Core) : (s.setCore c x).waiting = s.waiting := rfl
@[simp] theorem State.setCore_sent (s : State) (c : Nat) (x : Core) : (s.setCore c x).sent = s.sent := rfl
@[simp] theorem State.setCore_peerAnswers (s : State) (c : Nat) (x : Core) : (s.setCore c x).peerAnswers = s.peerAnswers := rfl
@[simp] theorem State.setCore_agenda (s : State) (c : Nat) (x : Core) : (s.setCore c x).agenda = s.agenda := rfl
@[simp] theorem State.setCore_cur (s : State) (c : Nat) (x : Core) : (s.setCore c x).cur = s.cur := rfl
@[simp] theorem State.setCore_fresh (s : State) (c : Nat) (x : Core) : (s.setCore c x).fresh = s.fresh := rfl
@[simp] theorem State.setCore_nextId (s : State) (c : Nat) (x : Core) : (s.setCore c x).nextId = s.nextId := rfl

/-! ## State.updCore -/

@[simp] theorem State.updCore_teams (s : State) (c : Nat) (f : Core → Core) : (s.updCore c f).teams = s.teams := rfl
@[simp] theorem State.updCore_areas (s : State) (c : Nat) (f : Core → Core) : (s.updCore c f).areas = s.areas := rfl
@[simp] theorem State.updCore_cores (s : State) (c : Nat) (f : Core → Core) : (s.updCore c f).cores = tblSet s.cores c (f (s.core c)) := rfl
@[simp] theorem State.updCore_mem (s : State) (c : Nat) (f : Core → Core) : (s.updCore c f).mem = s.mem := rfl
@[simp] theorem State.updCore_own (s : State) (c : Nat) (f : Core → Core) : (s.updCore c f).own = s.own := rfl
@[simp] theorem State.updCore_poison (s : State) (c : Nat) (f : Core → Core) : (s.updCore c f).poison = s.poison := rfl
@[simp] theorem State.updCore_checks (s : State) (c : Nat) (f : Core → Core) : (s.updCore c f).checks = s.checks := rfl
@[simp] theorem State.updCore_locks (s : State) (c : Nat) (f : Core → Core) : (s.updCore c f).locks = s.locks := rfl
@[simp] theorem State.updCore_cohorts (s : State) (c : Nat) (f : Core → Core) : (s.updCore c f).cohorts = s.cohorts := rfl
@[simp] theorem State.updCore_queues (s : State) (c : Nat) (f : Core → Core) : (s.updCore c f).queues = s.queues := rfl
@[simp] theorem State.updCore_unitWait (s : State) (c : Nat) (f : Core → Core) : (s.updCore c f).unitWait = s.unitWait := rfl
@[simp] theorem State.updCore_unitRecs (s : State) (c : Nat) (f : Core → Core) : (s.updCore c f).unitRecs = s.unitRecs := rfl
@[simp] theorem State.updCore_puts (s : State) (c : Nat) (f : Core → Core) : (s.updCore c f).puts = s.puts := rfl
@[simp] theorem State.updCore_wptrReads (s : State) (c : Nat) (f : Core → Core) : (s.updCore c f).wptrReads = s.wptrReads := rfl
@[simp] theorem State.updCore_asks (s : State) (c : Nat) (f : Core → Core) : (s.updCore c f).asks = s.asks := rfl
@[simp] theorem State.updCore_slices (s : State) (c : Nat) (f : Core → Core) : (s.updCore c f).slices = s.slices := rfl
@[simp] theorem State.updCore_clusters (s : State) (c : Nat) (f : Core → Core) : (s.updCore c f).clusters = s.clusters := rfl
@[simp] theorem State.updCore_ctxs (s : State) (c : Nat) (f : Core → Core) : (s.updCore c f).ctxs = s.ctxs := rfl
@[simp] theorem State.updCore_demand (s : State) (c : Nat) (f : Core → Core) : (s.updCore c f).demand = s.demand := rfl
@[simp] theorem State.updCore_cards (s : State) (c : Nat) (f : Core → Core) : (s.updCore c f).cards = s.cards := rfl
@[simp] theorem State.updCore_orphans (s : State) (c : Nat) (f : Core → Core) : (s.updCore c f).orphans = s.orphans := rfl
@[simp] theorem State.updCore_rings (s : State) (c : Nat) (f : Core → Core) : (s.updCore c f).rings = s.rings := rfl
@[simp] theorem State.updCore_launches (s : State) (c : Nat) (f : Core → Core) : (s.updCore c f).launches = s.launches := rfl
@[simp] theorem State.updCore_lastCore (s : State) (c : Nat) (f : Core → Core) : (s.updCore c f).lastCore = s.lastCore := rfl
@[simp] theorem State.updCore_models (s : State) (c : Nat) (f : Core → Core) : (s.updCore c f).models = s.models := rfl
@[simp] theorem State.updCore_requests (s : State) (c : Nat) (f : Core → Core) : (s.updCore c f).requests = s.requests := rfl
@[simp] theorem State.updCore_loads (s : State) (c : Nat) (f : Core → Core) : (s.updCore c f).loads = s.loads := rfl
@[simp] theorem State.updCore_weightGiven (s : State) (c : Nat) (f : Core → Core) : (s.updCore c f).weightGiven = s.weightGiven := rfl
@[simp] theorem State.updCore_weightFree (s : State) (c : Nat) (f : Core → Core) : (s.updCore c f).weightFree = s.weightFree := rfl
@[simp] theorem State.updCore_demandGiven (s : State) (c : Nat) (f : Core → Core) : (s.updCore c f).demandGiven = s.demandGiven := rfl
@[simp] theorem State.updCore_demandFree (s : State) (c : Nat) (f : Core → Core) : (s.updCore c f).demandFree = s.demandFree := rfl
@[simp] theorem State.updCore_notices (s : State) (c : Nat) (f : Core → Core) : (s.updCore c f).notices = s.notices := rfl
@[simp] theorem State.updCore_ports (s : State) (c : Nat) (f : Core → Core) : (s.updCore c f).ports = s.ports := rfl
@[simp] theorem State.updCore_refusals (s : State) (c : Nat) (f : Core → Core) : (s.updCore c f).refusals = s.refusals := rfl
@[simp] theorem State.updCore_peers (s : State) (c : Nat) (f : Core → Core) : (s.updCore c f).peers = s.peers := rfl
@[simp] theorem State.updCore_exports (s : State) (c : Nat) (f : Core → Core) : (s.updCore c f).exports = s.exports := rfl
@[simp] theorem State.updCore_gates (s : State) (c : Nat) (f : Core → Core) : (s.updCore c f).gates = s.gates := rfl
@[simp] theorem State.updCore_buffers (s : State) (c : Nat) (f : Core → Core) : (s.updCore c f).buffers = s.buffers := rfl
@[simp] theorem State.updCore_jobs (s : State) (c : Nat) (f : Core → Core) : (s.updCore c f).jobs = s.jobs := rfl
@[simp] theorem State.updCore_trust (s : State) (c : Nat) (f : Core → Core) : (s.updCore c f).trust = s.trust := rfl
@[simp] theorem State.updCore_inbox (s : State) (c : Nat) (f : Core → Core) : (s.updCore c f).inbox = s.inbox := rfl
@[simp] theorem State.updCore_waiting (s : State) (c : Nat) (f : Core → Core) : (s.updCore c f).waiting = s.waiting := rfl
@[simp] theorem State.updCore_sent (s : State) (c : Nat) (f : Core → Core) : (s.updCore c f).sent = s.sent := rfl
@[simp] theorem State.updCore_peerAnswers (s : State) (c : Nat) (f : Core → Core) : (s.updCore c f).peerAnswers = s.peerAnswers := rfl
@[simp] theorem State.updCore_agenda (s : State) (c : Nat) (f : Core → Core) : (s.updCore c f).agenda = s.agenda := rfl
@[simp] theorem State.updCore_cur (s : State) (c : Nat) (f : Core → Core) : (s.updCore c f).cur = s.cur := rfl
@[simp] theorem State.updCore_fresh (s : State) (c : Nat) (f : Core → Core) : (s.updCore c f).fresh = s.fresh := rfl
@[simp] theorem State.updCore_nextId (s : State) (c : Nat) (f : Core → Core) : (s.updCore c f).nextId = s.nextId := rfl

/-! ## State.setSlice -/

@[simp] theorem State.setSlice_teams (s : State) (g : Nat) (x : Slice) : (s.setSlice g x).teams = s.teams := rfl
@[simp] theorem State.setSlice_areas (s : State) (g : Nat) (x : Slice) : (s.setSlice g x).areas = s.areas := rfl
@[simp] theorem State.setSlice_cores (s : State) (g : Nat) (x : Slice) : (s.setSlice g x).cores = s.cores := rfl
@[simp] theorem State.setSlice_mem (s : State) (g : Nat) (x : Slice) : (s.setSlice g x).mem = s.mem := rfl
@[simp] theorem State.setSlice_own (s : State) (g : Nat) (x : Slice) : (s.setSlice g x).own = s.own := rfl
@[simp] theorem State.setSlice_poison (s : State) (g : Nat) (x : Slice) : (s.setSlice g x).poison = s.poison := rfl
@[simp] theorem State.setSlice_checks (s : State) (g : Nat) (x : Slice) : (s.setSlice g x).checks = s.checks := rfl
@[simp] theorem State.setSlice_locks (s : State) (g : Nat) (x : Slice) : (s.setSlice g x).locks = s.locks := rfl
@[simp] theorem State.setSlice_cohorts (s : State) (g : Nat) (x : Slice) : (s.setSlice g x).cohorts = s.cohorts := rfl
@[simp] theorem State.setSlice_queues (s : State) (g : Nat) (x : Slice) : (s.setSlice g x).queues = s.queues := rfl
@[simp] theorem State.setSlice_unitWait (s : State) (g : Nat) (x : Slice) : (s.setSlice g x).unitWait = s.unitWait := rfl
@[simp] theorem State.setSlice_unitRecs (s : State) (g : Nat) (x : Slice) : (s.setSlice g x).unitRecs = s.unitRecs := rfl
@[simp] theorem State.setSlice_puts (s : State) (g : Nat) (x : Slice) : (s.setSlice g x).puts = s.puts := rfl
@[simp] theorem State.setSlice_wptrReads (s : State) (g : Nat) (x : Slice) : (s.setSlice g x).wptrReads = s.wptrReads := rfl
@[simp] theorem State.setSlice_asks (s : State) (g : Nat) (x : Slice) : (s.setSlice g x).asks = s.asks := rfl
@[simp] theorem State.setSlice_slices (s : State) (g : Nat) (x : Slice) : (s.setSlice g x).slices = tblSet s.slices g x := rfl
@[simp] theorem State.setSlice_clusters (s : State) (g : Nat) (x : Slice) : (s.setSlice g x).clusters = s.clusters := rfl
@[simp] theorem State.setSlice_ctxs (s : State) (g : Nat) (x : Slice) : (s.setSlice g x).ctxs = s.ctxs := rfl
@[simp] theorem State.setSlice_demand (s : State) (g : Nat) (x : Slice) : (s.setSlice g x).demand = s.demand := rfl
@[simp] theorem State.setSlice_cards (s : State) (g : Nat) (x : Slice) : (s.setSlice g x).cards = s.cards := rfl
@[simp] theorem State.setSlice_orphans (s : State) (g : Nat) (x : Slice) : (s.setSlice g x).orphans = s.orphans := rfl
@[simp] theorem State.setSlice_rings (s : State) (g : Nat) (x : Slice) : (s.setSlice g x).rings = s.rings := rfl
@[simp] theorem State.setSlice_launches (s : State) (g : Nat) (x : Slice) : (s.setSlice g x).launches = s.launches := rfl
@[simp] theorem State.setSlice_lastCore (s : State) (g : Nat) (x : Slice) : (s.setSlice g x).lastCore = s.lastCore := rfl
@[simp] theorem State.setSlice_models (s : State) (g : Nat) (x : Slice) : (s.setSlice g x).models = s.models := rfl
@[simp] theorem State.setSlice_requests (s : State) (g : Nat) (x : Slice) : (s.setSlice g x).requests = s.requests := rfl
@[simp] theorem State.setSlice_loads (s : State) (g : Nat) (x : Slice) : (s.setSlice g x).loads = s.loads := rfl
@[simp] theorem State.setSlice_weightGiven (s : State) (g : Nat) (x : Slice) : (s.setSlice g x).weightGiven = s.weightGiven := rfl
@[simp] theorem State.setSlice_weightFree (s : State) (g : Nat) (x : Slice) : (s.setSlice g x).weightFree = s.weightFree := rfl
@[simp] theorem State.setSlice_demandGiven (s : State) (g : Nat) (x : Slice) : (s.setSlice g x).demandGiven = s.demandGiven := rfl
@[simp] theorem State.setSlice_demandFree (s : State) (g : Nat) (x : Slice) : (s.setSlice g x).demandFree = s.demandFree := rfl
@[simp] theorem State.setSlice_notices (s : State) (g : Nat) (x : Slice) : (s.setSlice g x).notices = s.notices := rfl
@[simp] theorem State.setSlice_ports (s : State) (g : Nat) (x : Slice) : (s.setSlice g x).ports = s.ports := rfl
@[simp] theorem State.setSlice_refusals (s : State) (g : Nat) (x : Slice) : (s.setSlice g x).refusals = s.refusals := rfl
@[simp] theorem State.setSlice_peers (s : State) (g : Nat) (x : Slice) : (s.setSlice g x).peers = s.peers := rfl
@[simp] theorem State.setSlice_exports (s : State) (g : Nat) (x : Slice) : (s.setSlice g x).exports = s.exports := rfl
@[simp] theorem State.setSlice_gates (s : State) (g : Nat) (x : Slice) : (s.setSlice g x).gates = s.gates := rfl
@[simp] theorem State.setSlice_buffers (s : State) (g : Nat) (x : Slice) : (s.setSlice g x).buffers = s.buffers := rfl
@[simp] theorem State.setSlice_jobs (s : State) (g : Nat) (x : Slice) : (s.setSlice g x).jobs = s.jobs := rfl
@[simp] theorem State.setSlice_trust (s : State) (g : Nat) (x : Slice) : (s.setSlice g x).trust = s.trust := rfl
@[simp] theorem State.setSlice_inbox (s : State) (g : Nat) (x : Slice) : (s.setSlice g x).inbox = s.inbox := rfl
@[simp] theorem State.setSlice_waiting (s : State) (g : Nat) (x : Slice) : (s.setSlice g x).waiting = s.waiting := rfl
@[simp] theorem State.setSlice_sent (s : State) (g : Nat) (x : Slice) : (s.setSlice g x).sent = s.sent := rfl
@[simp] theorem State.setSlice_peerAnswers (s : State) (g : Nat) (x : Slice) : (s.setSlice g x).peerAnswers = s.peerAnswers := rfl
@[simp] theorem State.setSlice_agenda (s : State) (g : Nat) (x : Slice) : (s.setSlice g x).agenda = s.agenda := rfl
@[simp] theorem State.setSlice_cur (s : State) (g : Nat) (x : Slice) : (s.setSlice g x).cur = s.cur := rfl
@[simp] theorem State.setSlice_fresh (s : State) (g : Nat) (x : Slice) : (s.setSlice g x).fresh = s.fresh := rfl
@[simp] theorem State.setSlice_nextId (s : State) (g : Nat) (x : Slice) : (s.setSlice g x).nextId = s.nextId := rfl

/-! ## State.setCluster -/

@[simp] theorem State.setCluster_teams (s : State) (c : Nat) (x : Cluster) : (s.setCluster c x).teams = s.teams := rfl
@[simp] theorem State.setCluster_areas (s : State) (c : Nat) (x : Cluster) : (s.setCluster c x).areas = s.areas := rfl
@[simp] theorem State.setCluster_cores (s : State) (c : Nat) (x : Cluster) : (s.setCluster c x).cores = s.cores := rfl
@[simp] theorem State.setCluster_mem (s : State) (c : Nat) (x : Cluster) : (s.setCluster c x).mem = s.mem := rfl
@[simp] theorem State.setCluster_own (s : State) (c : Nat) (x : Cluster) : (s.setCluster c x).own = s.own := rfl
@[simp] theorem State.setCluster_poison (s : State) (c : Nat) (x : Cluster) : (s.setCluster c x).poison = s.poison := rfl
@[simp] theorem State.setCluster_checks (s : State) (c : Nat) (x : Cluster) : (s.setCluster c x).checks = s.checks := rfl
@[simp] theorem State.setCluster_locks (s : State) (c : Nat) (x : Cluster) : (s.setCluster c x).locks = s.locks := rfl
@[simp] theorem State.setCluster_cohorts (s : State) (c : Nat) (x : Cluster) : (s.setCluster c x).cohorts = s.cohorts := rfl
@[simp] theorem State.setCluster_queues (s : State) (c : Nat) (x : Cluster) : (s.setCluster c x).queues = s.queues := rfl
@[simp] theorem State.setCluster_unitWait (s : State) (c : Nat) (x : Cluster) : (s.setCluster c x).unitWait = s.unitWait := rfl
@[simp] theorem State.setCluster_unitRecs (s : State) (c : Nat) (x : Cluster) : (s.setCluster c x).unitRecs = s.unitRecs := rfl
@[simp] theorem State.setCluster_puts (s : State) (c : Nat) (x : Cluster) : (s.setCluster c x).puts = s.puts := rfl
@[simp] theorem State.setCluster_wptrReads (s : State) (c : Nat) (x : Cluster) : (s.setCluster c x).wptrReads = s.wptrReads := rfl
@[simp] theorem State.setCluster_asks (s : State) (c : Nat) (x : Cluster) : (s.setCluster c x).asks = s.asks := rfl
@[simp] theorem State.setCluster_slices (s : State) (c : Nat) (x : Cluster) : (s.setCluster c x).slices = s.slices := rfl
@[simp] theorem State.setCluster_clusters (s : State) (c : Nat) (x : Cluster) : (s.setCluster c x).clusters = tblSet s.clusters c x := rfl
@[simp] theorem State.setCluster_ctxs (s : State) (c : Nat) (x : Cluster) : (s.setCluster c x).ctxs = s.ctxs := rfl
@[simp] theorem State.setCluster_demand (s : State) (c : Nat) (x : Cluster) : (s.setCluster c x).demand = s.demand := rfl
@[simp] theorem State.setCluster_cards (s : State) (c : Nat) (x : Cluster) : (s.setCluster c x).cards = s.cards := rfl
@[simp] theorem State.setCluster_orphans (s : State) (c : Nat) (x : Cluster) : (s.setCluster c x).orphans = s.orphans := rfl
@[simp] theorem State.setCluster_rings (s : State) (c : Nat) (x : Cluster) : (s.setCluster c x).rings = s.rings := rfl
@[simp] theorem State.setCluster_launches (s : State) (c : Nat) (x : Cluster) : (s.setCluster c x).launches = s.launches := rfl
@[simp] theorem State.setCluster_lastCore (s : State) (c : Nat) (x : Cluster) : (s.setCluster c x).lastCore = s.lastCore := rfl
@[simp] theorem State.setCluster_models (s : State) (c : Nat) (x : Cluster) : (s.setCluster c x).models = s.models := rfl
@[simp] theorem State.setCluster_requests (s : State) (c : Nat) (x : Cluster) : (s.setCluster c x).requests = s.requests := rfl
@[simp] theorem State.setCluster_loads (s : State) (c : Nat) (x : Cluster) : (s.setCluster c x).loads = s.loads := rfl
@[simp] theorem State.setCluster_weightGiven (s : State) (c : Nat) (x : Cluster) : (s.setCluster c x).weightGiven = s.weightGiven := rfl
@[simp] theorem State.setCluster_weightFree (s : State) (c : Nat) (x : Cluster) : (s.setCluster c x).weightFree = s.weightFree := rfl
@[simp] theorem State.setCluster_demandGiven (s : State) (c : Nat) (x : Cluster) : (s.setCluster c x).demandGiven = s.demandGiven := rfl
@[simp] theorem State.setCluster_demandFree (s : State) (c : Nat) (x : Cluster) : (s.setCluster c x).demandFree = s.demandFree := rfl
@[simp] theorem State.setCluster_notices (s : State) (c : Nat) (x : Cluster) : (s.setCluster c x).notices = s.notices := rfl
@[simp] theorem State.setCluster_ports (s : State) (c : Nat) (x : Cluster) : (s.setCluster c x).ports = s.ports := rfl
@[simp] theorem State.setCluster_refusals (s : State) (c : Nat) (x : Cluster) : (s.setCluster c x).refusals = s.refusals := rfl
@[simp] theorem State.setCluster_peers (s : State) (c : Nat) (x : Cluster) : (s.setCluster c x).peers = s.peers := rfl
@[simp] theorem State.setCluster_exports (s : State) (c : Nat) (x : Cluster) : (s.setCluster c x).exports = s.exports := rfl
@[simp] theorem State.setCluster_gates (s : State) (c : Nat) (x : Cluster) : (s.setCluster c x).gates = s.gates := rfl
@[simp] theorem State.setCluster_buffers (s : State) (c : Nat) (x : Cluster) : (s.setCluster c x).buffers = s.buffers := rfl
@[simp] theorem State.setCluster_jobs (s : State) (c : Nat) (x : Cluster) : (s.setCluster c x).jobs = s.jobs := rfl
@[simp] theorem State.setCluster_trust (s : State) (c : Nat) (x : Cluster) : (s.setCluster c x).trust = s.trust := rfl
@[simp] theorem State.setCluster_inbox (s : State) (c : Nat) (x : Cluster) : (s.setCluster c x).inbox = s.inbox := rfl
@[simp] theorem State.setCluster_waiting (s : State) (c : Nat) (x : Cluster) : (s.setCluster c x).waiting = s.waiting := rfl
@[simp] theorem State.setCluster_sent (s : State) (c : Nat) (x : Cluster) : (s.setCluster c x).sent = s.sent := rfl
@[simp] theorem State.setCluster_peerAnswers (s : State) (c : Nat) (x : Cluster) : (s.setCluster c x).peerAnswers = s.peerAnswers := rfl
@[simp] theorem State.setCluster_agenda (s : State) (c : Nat) (x : Cluster) : (s.setCluster c x).agenda = s.agenda := rfl
@[simp] theorem State.setCluster_cur (s : State) (c : Nat) (x : Cluster) : (s.setCluster c x).cur = s.cur := rfl
@[simp] theorem State.setCluster_fresh (s : State) (c : Nat) (x : Cluster) : (s.setCluster c x).fresh = s.fresh := rfl
@[simp] theorem State.setCluster_nextId (s : State) (c : Nat) (x : Cluster) : (s.setCluster c x).nextId = s.nextId := rfl

/-! ## takeId -/

@[simp] theorem takeId_teams (s : State) : (takeId s).2.teams = s.teams := rfl
@[simp] theorem takeId_areas (s : State) : (takeId s).2.areas = s.areas := rfl
@[simp] theorem takeId_cores (s : State) : (takeId s).2.cores = s.cores := rfl
@[simp] theorem takeId_mem (s : State) : (takeId s).2.mem = s.mem := rfl
@[simp] theorem takeId_own (s : State) : (takeId s).2.own = s.own := rfl
@[simp] theorem takeId_poison (s : State) : (takeId s).2.poison = s.poison := rfl
@[simp] theorem takeId_checks (s : State) : (takeId s).2.checks = s.checks := rfl
@[simp] theorem takeId_locks (s : State) : (takeId s).2.locks = s.locks := rfl
@[simp] theorem takeId_cohorts (s : State) : (takeId s).2.cohorts = s.cohorts := rfl
@[simp] theorem takeId_queues (s : State) : (takeId s).2.queues = s.queues := rfl
@[simp] theorem takeId_unitWait (s : State) : (takeId s).2.unitWait = s.unitWait := rfl
@[simp] theorem takeId_unitRecs (s : State) : (takeId s).2.unitRecs = s.unitRecs := rfl
@[simp] theorem takeId_puts (s : State) : (takeId s).2.puts = s.puts := rfl
@[simp] theorem takeId_wptrReads (s : State) : (takeId s).2.wptrReads = s.wptrReads := rfl
@[simp] theorem takeId_asks (s : State) : (takeId s).2.asks = s.asks := rfl
@[simp] theorem takeId_slices (s : State) : (takeId s).2.slices = s.slices := rfl
@[simp] theorem takeId_clusters (s : State) : (takeId s).2.clusters = s.clusters := rfl
@[simp] theorem takeId_ctxs (s : State) : (takeId s).2.ctxs = s.ctxs := rfl
@[simp] theorem takeId_demand (s : State) : (takeId s).2.demand = s.demand := rfl
@[simp] theorem takeId_cards (s : State) : (takeId s).2.cards = s.cards := rfl
@[simp] theorem takeId_orphans (s : State) : (takeId s).2.orphans = s.orphans := rfl
@[simp] theorem takeId_rings (s : State) : (takeId s).2.rings = s.rings := rfl
@[simp] theorem takeId_launches (s : State) : (takeId s).2.launches = s.launches := rfl
@[simp] theorem takeId_lastCore (s : State) : (takeId s).2.lastCore = s.lastCore := rfl
@[simp] theorem takeId_models (s : State) : (takeId s).2.models = s.models := rfl
@[simp] theorem takeId_requests (s : State) : (takeId s).2.requests = s.requests := rfl
@[simp] theorem takeId_loads (s : State) : (takeId s).2.loads = s.loads := rfl
@[simp] theorem takeId_weightGiven (s : State) : (takeId s).2.weightGiven = s.weightGiven := rfl
@[simp] theorem takeId_weightFree (s : State) : (takeId s).2.weightFree = s.weightFree := rfl
@[simp] theorem takeId_demandGiven (s : State) : (takeId s).2.demandGiven = s.demandGiven := rfl
@[simp] theorem takeId_demandFree (s : State) : (takeId s).2.demandFree = s.demandFree := rfl
@[simp] theorem takeId_notices (s : State) : (takeId s).2.notices = s.notices := rfl
@[simp] theorem takeId_ports (s : State) : (takeId s).2.ports = s.ports := rfl
@[simp] theorem takeId_refusals (s : State) : (takeId s).2.refusals = s.refusals := rfl
@[simp] theorem takeId_peers (s : State) : (takeId s).2.peers = s.peers := rfl
@[simp] theorem takeId_exports (s : State) : (takeId s).2.exports = s.exports := rfl
@[simp] theorem takeId_gates (s : State) : (takeId s).2.gates = s.gates := rfl
@[simp] theorem takeId_buffers (s : State) : (takeId s).2.buffers = s.buffers := rfl
@[simp] theorem takeId_jobs (s : State) : (takeId s).2.jobs = s.jobs := rfl
@[simp] theorem takeId_trust (s : State) : (takeId s).2.trust = s.trust := rfl
@[simp] theorem takeId_inbox (s : State) : (takeId s).2.inbox = s.inbox := rfl
@[simp] theorem takeId_waiting (s : State) : (takeId s).2.waiting = s.waiting := rfl
@[simp] theorem takeId_sent (s : State) : (takeId s).2.sent = s.sent := rfl
@[simp] theorem takeId_peerAnswers (s : State) : (takeId s).2.peerAnswers = s.peerAnswers := rfl
@[simp] theorem takeId_agenda (s : State) : (takeId s).2.agenda = s.agenda := rfl
@[simp] theorem takeId_cur (s : State) : (takeId s).2.cur = s.cur := rfl
@[simp] theorem takeId_fresh (s : State) : (takeId s).2.fresh = s.fresh := rfl
@[simp] theorem takeId_nextId (s : State) : (takeId s).2.nextId = s.nextId + 1 := rfl

/-! ## drawWord -/

@[simp] theorem drawWord_teams (s : State) : (drawWord s).2.teams = s.teams := rfl
@[simp] theorem drawWord_areas (s : State) : (drawWord s).2.areas = s.areas := rfl
@[simp] theorem drawWord_cores (s : State) : (drawWord s).2.cores = s.cores := rfl
@[simp] theorem drawWord_mem (s : State) : (drawWord s).2.mem = s.mem := rfl
@[simp] theorem drawWord_own (s : State) : (drawWord s).2.own = s.own := rfl
@[simp] theorem drawWord_poison (s : State) : (drawWord s).2.poison = s.poison := rfl
@[simp] theorem drawWord_checks (s : State) : (drawWord s).2.checks = s.checks := rfl
@[simp] theorem drawWord_locks (s : State) : (drawWord s).2.locks = s.locks := rfl
@[simp] theorem drawWord_cohorts (s : State) : (drawWord s).2.cohorts = s.cohorts := rfl
@[simp] theorem drawWord_queues (s : State) : (drawWord s).2.queues = s.queues := rfl
@[simp] theorem drawWord_unitWait (s : State) : (drawWord s).2.unitWait = s.unitWait := rfl
@[simp] theorem drawWord_unitRecs (s : State) : (drawWord s).2.unitRecs = s.unitRecs := rfl
@[simp] theorem drawWord_puts (s : State) : (drawWord s).2.puts = s.puts := rfl
@[simp] theorem drawWord_wptrReads (s : State) : (drawWord s).2.wptrReads = s.wptrReads := rfl
@[simp] theorem drawWord_asks (s : State) : (drawWord s).2.asks = s.asks := rfl
@[simp] theorem drawWord_slices (s : State) : (drawWord s).2.slices = s.slices := rfl
@[simp] theorem drawWord_clusters (s : State) : (drawWord s).2.clusters = s.clusters := rfl
@[simp] theorem drawWord_ctxs (s : State) : (drawWord s).2.ctxs = s.ctxs := rfl
@[simp] theorem drawWord_demand (s : State) : (drawWord s).2.demand = s.demand := rfl
@[simp] theorem drawWord_cards (s : State) : (drawWord s).2.cards = s.cards := rfl
@[simp] theorem drawWord_orphans (s : State) : (drawWord s).2.orphans = s.orphans := rfl
@[simp] theorem drawWord_rings (s : State) : (drawWord s).2.rings = s.rings := rfl
@[simp] theorem drawWord_launches (s : State) : (drawWord s).2.launches = s.launches := rfl
@[simp] theorem drawWord_lastCore (s : State) : (drawWord s).2.lastCore = s.lastCore := rfl
@[simp] theorem drawWord_models (s : State) : (drawWord s).2.models = s.models := rfl
@[simp] theorem drawWord_requests (s : State) : (drawWord s).2.requests = s.requests := rfl
@[simp] theorem drawWord_loads (s : State) : (drawWord s).2.loads = s.loads := rfl
@[simp] theorem drawWord_weightGiven (s : State) : (drawWord s).2.weightGiven = s.weightGiven := rfl
@[simp] theorem drawWord_weightFree (s : State) : (drawWord s).2.weightFree = s.weightFree := rfl
@[simp] theorem drawWord_demandGiven (s : State) : (drawWord s).2.demandGiven = s.demandGiven := rfl
@[simp] theorem drawWord_demandFree (s : State) : (drawWord s).2.demandFree = s.demandFree := rfl
@[simp] theorem drawWord_notices (s : State) : (drawWord s).2.notices = s.notices := rfl
@[simp] theorem drawWord_ports (s : State) : (drawWord s).2.ports = s.ports := rfl
@[simp] theorem drawWord_refusals (s : State) : (drawWord s).2.refusals = s.refusals := rfl
@[simp] theorem drawWord_peers (s : State) : (drawWord s).2.peers = s.peers := rfl
@[simp] theorem drawWord_exports (s : State) : (drawWord s).2.exports = s.exports := rfl
@[simp] theorem drawWord_gates (s : State) : (drawWord s).2.gates = s.gates := rfl
@[simp] theorem drawWord_buffers (s : State) : (drawWord s).2.buffers = s.buffers := rfl
@[simp] theorem drawWord_jobs (s : State) : (drawWord s).2.jobs = s.jobs := rfl
@[simp] theorem drawWord_trust (s : State) : (drawWord s).2.trust = s.trust := rfl
@[simp] theorem drawWord_inbox (s : State) : (drawWord s).2.inbox = s.inbox := rfl
@[simp] theorem drawWord_waiting (s : State) : (drawWord s).2.waiting = s.waiting := rfl
@[simp] theorem drawWord_sent (s : State) : (drawWord s).2.sent = s.sent := rfl
@[simp] theorem drawWord_peerAnswers (s : State) : (drawWord s).2.peerAnswers = s.peerAnswers := rfl
@[simp] theorem drawWord_agenda (s : State) : (drawWord s).2.agenda = s.agenda := rfl
@[simp] theorem drawWord_cur (s : State) : (drawWord s).2.cur = s.cur := rfl
@[simp] theorem drawWord_fresh (s : State) : (drawWord s).2.fresh = s.fresh + 1 := rfl
@[simp] theorem drawWord_nextId (s : State) : (drawWord s).2.nextId = s.nextId := rfl

/-! ## What the accessors read after an update -/

theorem State.team_setTeam_self (s : State) (u : Nat) (t : Team) : tblGet (s.setTeam u t).teams u = some t := by simp
theorem State.team_setTeam_ne (s : State) {u v : Nat} (t : Team) (h : v ≠ u) : tblGet (s.setTeam u t).teams v = tblGet s.teams v := by
  simp [tblGet_tblSet_ne s.teams t h]
@[simp] theorem State.core_setTeam (s : State) (u : Nat) (t : Team) (c : Nat) : (s.setTeam u t).core c = s.core c := rfl
@[simp] theorem State.core_setCore_self (s : State) (c : Nat) (x : Core) : (s.setCore c x).core c = x := by simp [State.core, tblGetD]
theorem State.core_setCore_ne (s : State) {c d : Nat} (x : Core) (h : d ≠ c) : (s.setCore c x).core d = s.core d := by
  simp [State.core, tblGetD, tblGet_tblSet_ne s.cores x h]
@[simp] theorem State.slice_setSlice_self (s : State) (g : Nat) (x : Slice) : (s.setSlice g x).slice g = x := by simp [State.slice, tblGetD]
theorem State.slice_setSlice_ne (s : State) {g h : Nat} (x : Slice) (hg : h ≠ g) : (s.setSlice g x).slice h = s.slice h := by
  simp [State.slice, tblGetD, tblGet_tblSet_ne s.slices x hg]
@[simp] theorem State.cluster_setCluster_self (s : State) (c : Nat) (x : Cluster) : (s.setCluster c x).cluster c = x := by
  simp [State.cluster, tblGetD]
theorem State.cluster_setCluster_ne (s : State) {c d : Nat} (x : Cluster) (h : d ≠ c) : (s.setCluster c x).cluster d = s.cluster d := by
  simp [State.cluster, tblGetD, tblGet_tblSet_ne s.clusters x h]
/-- A team that exists, changed. -/
theorem State.updTeam_of_some {s : State} {u : Nat} {t : Team} (h : tblGet s.teams u = some t) (f : Team → Team) : s.updTeam u f = s.setTeam u (f t) := by
  simp [State.updTeam, h]
/-- A team that does not exist is not changed. -/
theorem State.updTeam_of_none {s : State} {u : Nat} (h : tblGet s.teams u = none) (f : Team → Team) : s.updTeam u f = s := by simp [State.updTeam, h]

/-! ## Updates of a team -/

@[simp] theorem orFpst_cfg (t : Team) (e : BitVec 5) : (orFpst t e).cfg = t.cfg := rfl
@[simp] theorem orFpst_pc (t : Team) (e : BitVec 5) : (orFpst t e).pc = t.pc := rfl
@[simp] theorem orFpst_clause (t : Team) (e : BitVec 5) : (orFpst t e).clause = t.clause := rfl
@[simp] theorem orFpst_vregs (t : Team) (e : BitVec 5) : (orFpst t e).vregs = t.vregs := rfl
@[simp] theorem orFpst_sregs (t : Team) (e : BitVec 5) : (orFpst t e).sregs = t.sregs := rfl
@[simp] theorem orFpst_wregs (t : Team) (e : BitVec 5) : (orFpst t e).wregs = t.wregs := rfl
@[simp] theorem orFpst_exec (t : Team) (e : BitVec 5) : (orFpst t e).exec = t.exec := rfl
@[simp] theorem orFpst_masks (t : Team) (e : BitVec 5) : (orFpst t e).masks = t.masks := rfl
@[simp] theorem orFpst_frame (t : Team) (e : BitVec 5) : (orFpst t e).frame = t.frame := rfl
@[simp] theorem orFpst_held (t : Team) (e : BitVec 5) : (orFpst t e).held = t.held := rfl
@[simp] theorem orFpst_spent (t : Team) (e : BitVec 5) : (orFpst t e).spent = t.spent := rfl
@[simp] theorem orFpst_mode (t : Team) (e : BitVec 5) : (orFpst t e).mode = t.mode := rfl
@[simp] theorem orFpst_flags (t : Team) (e : BitVec 5) : (orFpst t e).flags = t.flags := rfl
@[simp] theorem orFpst_fpst (t : Team) (e : BitVec 5) : (orFpst t e).fpst = t.fpst ||| e := rfl
@[simp] theorem orFpst_reconv (t : Team) (e : BitVec 5) : (orFpst t e).reconv = t.reconv := rfl
@[simp] theorem orFpst_calls (t : Team) (e : BitVec 5) : (orFpst t e).calls = t.calls := rfl
@[simp] theorem orFpst_spilledEntries (t : Team) (e : BitVec 5) : (orFpst t e).spilledEntries = t.spilledEntries := rfl
@[simp] theorem orFpst_spilledCalls (t : Team) (e : BitVec 5) : (orFpst t e).spilledCalls = t.spilledCalls := rfl
@[simp] theorem orFpst_subidx (t : Team) (e : BitVec 5) : (orFpst t e).subidx = t.subidx := rfl
@[simp] theorem orFpst_nwide (t : Team) (e : BitVec 5) : (orFpst t e).nwide = t.nwide := rfl
@[simp] theorem orFpst_handles (t : Team) (e : BitVec 5) : (orFpst t e).handles = t.handles := rfl
@[simp] theorem orFpst_rings (t : Team) (e : BitVec 5) : (orFpst t e).rings = t.rings := rfl
@[simp] theorem orFpst_late (t : Team) (e : BitVec 5) : (orFpst t e).late = t.late := rfl
@[simp] theorem orFpst_integrity (t : Team) (e : BitVec 5) : (orFpst t e).integrity = t.integrity := rfl
@[simp] theorem orFpst_poisonV (t : Team) (e : BitVec 5) : (orFpst t e).poisonV = t.poisonV := rfl
@[simp] theorem orFpst_wait (t : Team) (e : BitVec 5) : (orFpst t e).wait = t.wait := rfl
@[simp] theorem orFpst_parked (t : Team) (e : BitVec 5) : (orFpst t e).parked = t.parked := rfl
@[simp] theorem orFpst_captured (t : Team) (e : BitVec 5) : (orFpst t e).captured = t.captured := rfl
@[simp] theorem orFpst_retry (t : Team) (e : BitVec 5) : (orFpst t e).retry = t.retry := rfl
@[simp] theorem orFpst_marked (t : Team) (e : BitVec 5) : (orFpst t e).marked = t.marked := rfl
@[simp] theorem orFpst_kept (t : Team) (e : BitVec 5) : (orFpst t e).kept = t.kept := rfl
@[simp] theorem orFpst_handler (t : Team) (e : BitVec 5) : (orFpst t e).handler = t.handler := rfl
@[simp] theorem orFpst_trapClause (t : Team) (e : BitVec 5) : (orFpst t e).trapClause = t.trapClause := rfl
@[simp] theorem orFpst_pendTrap (t : Team) (e : BitVec 5) : (orFpst t e).pendTrap = t.pendTrap := rfl
@[simp] theorem orFpst_halt (t : Team) (e : BitVec 5) : (orFpst t e).halt = t.halt := rfl
@[simp] theorem orFpst_tickets (t : Team) (e : BitVec 5) : (orFpst t e).tickets = t.tickets := rfl
@[simp] theorem orFpst_cards (t : Team) (e : BitVec 5) : (orFpst t e).cards = t.cards := rfl
@[simp] theorem orFpst_batchNum (t : Team) (e : BitVec 5) : (orFpst t e).batchNum = t.batchNum := rfl
@[simp] theorem orFpst_openLoops (t : Team) (e : BitVec 5) : (orFpst t e).openLoops = t.openLoops := rfl
@[simp] theorem orFpst_batches (t : Team) (e : BitVec 5) : (orFpst t e).batches = t.batches := rfl
@[simp] theorem orFpst_pins (t : Team) (e : BitVec 5) : (orFpst t e).pins = t.pins := rfl
@[simp] theorem orFpst_cohorts (t : Team) (e : BitVec 5) : (orFpst t e).cohorts = t.cohorts := rfl
@[simp] theorem orFpst_active (t : Team) (e : BitVec 5) : (orFpst t e).active = t.active := rfl
@[simp] theorem orFpst_order (t : Team) (e : BitVec 5) : (orFpst t e).order = t.order := rfl
@[simp] theorem orFpst_score (t : Team) (e : BitVec 5) : (orFpst t e).score = t.score := rfl
@[simp] theorem orFpst_permit (t : Team) (e : BitVec 5) : (orFpst t e).permit = t.permit := rfl
@[simp] theorem orFpst_stopped (t : Team) (e : BitVec 5) : (orFpst t e).stopped = t.stopped := rfl
@[simp] theorem orFpst_saved (t : Team) (e : BitVec 5) : (orFpst t e).saved = t.saved := rfl
@[simp] theorem orFpst_hold (t : Team) (e : BitVec 5) : (orFpst t e).hold = t.hold := rfl
@[simp] theorem orFpst_savedScratch (t : Team) (e : BitVec 5) : (orFpst t e).savedScratch = t.savedScratch := rfl
@[simp] theorem orFpst_savedPoison (t : Team) (e : BitVec 5) : (orFpst t e).savedPoison = t.savedPoison := rfl

@[simp] theorem raiseFlag_cfg (t : Team) (k : Nat) : (raiseFlag t k).cfg = t.cfg := by unfold raiseFlag; split <;> rfl
@[simp] theorem raiseFlag_pc (t : Team) (k : Nat) : (raiseFlag t k).pc = t.pc := by unfold raiseFlag; split <;> rfl
@[simp] theorem raiseFlag_clause (t : Team) (k : Nat) : (raiseFlag t k).clause = t.clause := by unfold raiseFlag; split <;> rfl
@[simp] theorem raiseFlag_vregs (t : Team) (k : Nat) : (raiseFlag t k).vregs = t.vregs := by unfold raiseFlag; split <;> rfl
@[simp] theorem raiseFlag_sregs (t : Team) (k : Nat) : (raiseFlag t k).sregs = t.sregs := by unfold raiseFlag; split <;> rfl
@[simp] theorem raiseFlag_wregs (t : Team) (k : Nat) : (raiseFlag t k).wregs = t.wregs := by unfold raiseFlag; split <;> rfl
@[simp] theorem raiseFlag_exec (t : Team) (k : Nat) : (raiseFlag t k).exec = t.exec := by unfold raiseFlag; split <;> rfl
@[simp] theorem raiseFlag_masks (t : Team) (k : Nat) : (raiseFlag t k).masks = t.masks := by unfold raiseFlag; split <;> rfl
@[simp] theorem raiseFlag_frame (t : Team) (k : Nat) : (raiseFlag t k).frame = t.frame := by unfold raiseFlag; split <;> rfl
@[simp] theorem raiseFlag_held (t : Team) (k : Nat) : (raiseFlag t k).held = t.held := by unfold raiseFlag; split <;> rfl
@[simp] theorem raiseFlag_spent (t : Team) (k : Nat) : (raiseFlag t k).spent = t.spent := by unfold raiseFlag; split <;> rfl
@[simp] theorem raiseFlag_mode (t : Team) (k : Nat) : (raiseFlag t k).mode = t.mode := by unfold raiseFlag; split <;> rfl
@[simp] theorem raiseFlag_fpst (t : Team) (k : Nat) : (raiseFlag t k).fpst = t.fpst := by unfold raiseFlag; split <;> rfl
@[simp] theorem raiseFlag_reconv (t : Team) (k : Nat) : (raiseFlag t k).reconv = t.reconv := by unfold raiseFlag; split <;> rfl
@[simp] theorem raiseFlag_calls (t : Team) (k : Nat) : (raiseFlag t k).calls = t.calls := by unfold raiseFlag; split <;> rfl
@[simp] theorem raiseFlag_spilledEntries (t : Team) (k : Nat) : (raiseFlag t k).spilledEntries = t.spilledEntries := by unfold raiseFlag; split <;> rfl
@[simp] theorem raiseFlag_spilledCalls (t : Team) (k : Nat) : (raiseFlag t k).spilledCalls = t.spilledCalls := by unfold raiseFlag; split <;> rfl
@[simp] theorem raiseFlag_subidx (t : Team) (k : Nat) : (raiseFlag t k).subidx = t.subidx := by unfold raiseFlag; split <;> rfl
@[simp] theorem raiseFlag_nwide (t : Team) (k : Nat) : (raiseFlag t k).nwide = t.nwide := by unfold raiseFlag; split <;> rfl
@[simp] theorem raiseFlag_handles (t : Team) (k : Nat) : (raiseFlag t k).handles = t.handles := by unfold raiseFlag; split <;> rfl
@[simp] theorem raiseFlag_rings (t : Team) (k : Nat) : (raiseFlag t k).rings = t.rings := by unfold raiseFlag; split <;> rfl
@[simp] theorem raiseFlag_late (t : Team) (k : Nat) : (raiseFlag t k).late = t.late := by unfold raiseFlag; split <;> rfl
@[simp] theorem raiseFlag_integrity (t : Team) (k : Nat) : (raiseFlag t k).integrity = t.integrity := by unfold raiseFlag; split <;> rfl
@[simp] theorem raiseFlag_poisonV (t : Team) (k : Nat) : (raiseFlag t k).poisonV = t.poisonV := by unfold raiseFlag; split <;> rfl
@[simp] theorem raiseFlag_wait (t : Team) (k : Nat) : (raiseFlag t k).wait = t.wait := by unfold raiseFlag; split <;> rfl
@[simp] theorem raiseFlag_parked (t : Team) (k : Nat) : (raiseFlag t k).parked = t.parked := by unfold raiseFlag; split <;> rfl
@[simp] theorem raiseFlag_captured (t : Team) (k : Nat) : (raiseFlag t k).captured = t.captured := by unfold raiseFlag; split <;> rfl
@[simp] theorem raiseFlag_retry (t : Team) (k : Nat) : (raiseFlag t k).retry = t.retry := by unfold raiseFlag; split <;> rfl
@[simp] theorem raiseFlag_marked (t : Team) (k : Nat) : (raiseFlag t k).marked = t.marked := by unfold raiseFlag; split <;> rfl
@[simp] theorem raiseFlag_kept (t : Team) (k : Nat) : (raiseFlag t k).kept = t.kept := by unfold raiseFlag; split <;> rfl
@[simp] theorem raiseFlag_handler (t : Team) (k : Nat) : (raiseFlag t k).handler = t.handler := by unfold raiseFlag; split <;> rfl
@[simp] theorem raiseFlag_trapClause (t : Team) (k : Nat) : (raiseFlag t k).trapClause = t.trapClause := by unfold raiseFlag; split <;> rfl
@[simp] theorem raiseFlag_pendTrap (t : Team) (k : Nat) : (raiseFlag t k).pendTrap = t.pendTrap := by unfold raiseFlag; split <;> rfl
@[simp] theorem raiseFlag_halt (t : Team) (k : Nat) : (raiseFlag t k).halt = t.halt := by unfold raiseFlag; split <;> rfl
@[simp] theorem raiseFlag_tickets (t : Team) (k : Nat) : (raiseFlag t k).tickets = t.tickets := by unfold raiseFlag; split <;> rfl
@[simp] theorem raiseFlag_cards (t : Team) (k : Nat) : (raiseFlag t k).cards = t.cards := by unfold raiseFlag; split <;> rfl
@[simp] theorem raiseFlag_batchNum (t : Team) (k : Nat) : (raiseFlag t k).batchNum = t.batchNum := by unfold raiseFlag; split <;> rfl
@[simp] theorem raiseFlag_openLoops (t : Team) (k : Nat) : (raiseFlag t k).openLoops = t.openLoops := by unfold raiseFlag; split <;> rfl
@[simp] theorem raiseFlag_batches (t : Team) (k : Nat) : (raiseFlag t k).batches = t.batches := by unfold raiseFlag; split <;> rfl
@[simp] theorem raiseFlag_pins (t : Team) (k : Nat) : (raiseFlag t k).pins = t.pins := by unfold raiseFlag; split <;> rfl
@[simp] theorem raiseFlag_cohorts (t : Team) (k : Nat) : (raiseFlag t k).cohorts = t.cohorts := by unfold raiseFlag; split <;> rfl
@[simp] theorem raiseFlag_active (t : Team) (k : Nat) : (raiseFlag t k).active = t.active := by unfold raiseFlag; split <;> rfl
@[simp] theorem raiseFlag_order (t : Team) (k : Nat) : (raiseFlag t k).order = t.order := by unfold raiseFlag; split <;> rfl
@[simp] theorem raiseFlag_score (t : Team) (k : Nat) : (raiseFlag t k).score = t.score := by unfold raiseFlag; split <;> rfl
@[simp] theorem raiseFlag_permit (t : Team) (k : Nat) : (raiseFlag t k).permit = t.permit := by unfold raiseFlag; split <;> rfl
@[simp] theorem raiseFlag_stopped (t : Team) (k : Nat) : (raiseFlag t k).stopped = t.stopped := by unfold raiseFlag; split <;> rfl
@[simp] theorem raiseFlag_saved (t : Team) (k : Nat) : (raiseFlag t k).saved = t.saved := by unfold raiseFlag; split <;> rfl
@[simp] theorem raiseFlag_hold (t : Team) (k : Nat) : (raiseFlag t k).hold = t.hold := by unfold raiseFlag; split <;> rfl
@[simp] theorem raiseFlag_savedScratch (t : Team) (k : Nat) : (raiseFlag t k).savedScratch = t.savedScratch := by unfold raiseFlag; split <;> rfl
@[simp] theorem raiseFlag_savedPoison (t : Team) (k : Nat) : (raiseFlag t k).savedPoison = t.savedPoison := by unfold raiseFlag; split <;> rfl

@[simp] theorem lowerFlag_cfg (t : Team) (k : Nat) : (lowerFlag t k).cfg = t.cfg := by unfold lowerFlag; split <;> rfl
@[simp] theorem lowerFlag_pc (t : Team) (k : Nat) : (lowerFlag t k).pc = t.pc := by unfold lowerFlag; split <;> rfl
@[simp] theorem lowerFlag_clause (t : Team) (k : Nat) : (lowerFlag t k).clause = t.clause := by unfold lowerFlag; split <;> rfl
@[simp] theorem lowerFlag_vregs (t : Team) (k : Nat) : (lowerFlag t k).vregs = t.vregs := by unfold lowerFlag; split <;> rfl
@[simp] theorem lowerFlag_sregs (t : Team) (k : Nat) : (lowerFlag t k).sregs = t.sregs := by unfold lowerFlag; split <;> rfl
@[simp] theorem lowerFlag_wregs (t : Team) (k : Nat) : (lowerFlag t k).wregs = t.wregs := by unfold lowerFlag; split <;> rfl
@[simp] theorem lowerFlag_exec (t : Team) (k : Nat) : (lowerFlag t k).exec = t.exec := by unfold lowerFlag; split <;> rfl
@[simp] theorem lowerFlag_masks (t : Team) (k : Nat) : (lowerFlag t k).masks = t.masks := by unfold lowerFlag; split <;> rfl
@[simp] theorem lowerFlag_frame (t : Team) (k : Nat) : (lowerFlag t k).frame = t.frame := by unfold lowerFlag; split <;> rfl
@[simp] theorem lowerFlag_held (t : Team) (k : Nat) : (lowerFlag t k).held = t.held := by unfold lowerFlag; split <;> rfl
@[simp] theorem lowerFlag_spent (t : Team) (k : Nat) : (lowerFlag t k).spent = t.spent := by unfold lowerFlag; split <;> rfl
@[simp] theorem lowerFlag_mode (t : Team) (k : Nat) : (lowerFlag t k).mode = t.mode := by unfold lowerFlag; split <;> rfl
@[simp] theorem lowerFlag_fpst (t : Team) (k : Nat) : (lowerFlag t k).fpst = t.fpst := by unfold lowerFlag; split <;> rfl
@[simp] theorem lowerFlag_reconv (t : Team) (k : Nat) : (lowerFlag t k).reconv = t.reconv := by unfold lowerFlag; split <;> rfl
@[simp] theorem lowerFlag_calls (t : Team) (k : Nat) : (lowerFlag t k).calls = t.calls := by unfold lowerFlag; split <;> rfl
@[simp] theorem lowerFlag_spilledEntries (t : Team) (k : Nat) : (lowerFlag t k).spilledEntries = t.spilledEntries := by unfold lowerFlag; split <;> rfl
@[simp] theorem lowerFlag_spilledCalls (t : Team) (k : Nat) : (lowerFlag t k).spilledCalls = t.spilledCalls := by unfold lowerFlag; split <;> rfl
@[simp] theorem lowerFlag_subidx (t : Team) (k : Nat) : (lowerFlag t k).subidx = t.subidx := by unfold lowerFlag; split <;> rfl
@[simp] theorem lowerFlag_nwide (t : Team) (k : Nat) : (lowerFlag t k).nwide = t.nwide := by unfold lowerFlag; split <;> rfl
@[simp] theorem lowerFlag_handles (t : Team) (k : Nat) : (lowerFlag t k).handles = t.handles := by unfold lowerFlag; split <;> rfl
@[simp] theorem lowerFlag_rings (t : Team) (k : Nat) : (lowerFlag t k).rings = t.rings := by unfold lowerFlag; split <;> rfl
@[simp] theorem lowerFlag_late (t : Team) (k : Nat) : (lowerFlag t k).late = t.late := by unfold lowerFlag; split <;> rfl
@[simp] theorem lowerFlag_integrity (t : Team) (k : Nat) : (lowerFlag t k).integrity = t.integrity := by unfold lowerFlag; split <;> rfl
@[simp] theorem lowerFlag_poisonV (t : Team) (k : Nat) : (lowerFlag t k).poisonV = t.poisonV := by unfold lowerFlag; split <;> rfl
@[simp] theorem lowerFlag_wait (t : Team) (k : Nat) : (lowerFlag t k).wait = t.wait := by unfold lowerFlag; split <;> rfl
@[simp] theorem lowerFlag_parked (t : Team) (k : Nat) : (lowerFlag t k).parked = t.parked := by unfold lowerFlag; split <;> rfl
@[simp] theorem lowerFlag_captured (t : Team) (k : Nat) : (lowerFlag t k).captured = t.captured := by unfold lowerFlag; split <;> rfl
@[simp] theorem lowerFlag_retry (t : Team) (k : Nat) : (lowerFlag t k).retry = t.retry := by unfold lowerFlag; split <;> rfl
@[simp] theorem lowerFlag_marked (t : Team) (k : Nat) : (lowerFlag t k).marked = t.marked := by unfold lowerFlag; split <;> rfl
@[simp] theorem lowerFlag_kept (t : Team) (k : Nat) : (lowerFlag t k).kept = t.kept := by unfold lowerFlag; split <;> rfl
@[simp] theorem lowerFlag_handler (t : Team) (k : Nat) : (lowerFlag t k).handler = t.handler := by unfold lowerFlag; split <;> rfl
@[simp] theorem lowerFlag_trapClause (t : Team) (k : Nat) : (lowerFlag t k).trapClause = t.trapClause := by unfold lowerFlag; split <;> rfl
@[simp] theorem lowerFlag_pendTrap (t : Team) (k : Nat) : (lowerFlag t k).pendTrap = t.pendTrap := by unfold lowerFlag; split <;> rfl
@[simp] theorem lowerFlag_halt (t : Team) (k : Nat) : (lowerFlag t k).halt = t.halt := by unfold lowerFlag; split <;> rfl
@[simp] theorem lowerFlag_tickets (t : Team) (k : Nat) : (lowerFlag t k).tickets = t.tickets := by unfold lowerFlag; split <;> rfl
@[simp] theorem lowerFlag_cards (t : Team) (k : Nat) : (lowerFlag t k).cards = t.cards := by unfold lowerFlag; split <;> rfl
@[simp] theorem lowerFlag_batchNum (t : Team) (k : Nat) : (lowerFlag t k).batchNum = t.batchNum := by unfold lowerFlag; split <;> rfl
@[simp] theorem lowerFlag_openLoops (t : Team) (k : Nat) : (lowerFlag t k).openLoops = t.openLoops := by unfold lowerFlag; split <;> rfl
@[simp] theorem lowerFlag_batches (t : Team) (k : Nat) : (lowerFlag t k).batches = t.batches := by unfold lowerFlag; split <;> rfl
@[simp] theorem lowerFlag_pins (t : Team) (k : Nat) : (lowerFlag t k).pins = t.pins := by unfold lowerFlag; split <;> rfl
@[simp] theorem lowerFlag_cohorts (t : Team) (k : Nat) : (lowerFlag t k).cohorts = t.cohorts := by unfold lowerFlag; split <;> rfl
@[simp] theorem lowerFlag_active (t : Team) (k : Nat) : (lowerFlag t k).active = t.active := by unfold lowerFlag; split <;> rfl
@[simp] theorem lowerFlag_order (t : Team) (k : Nat) : (lowerFlag t k).order = t.order := by unfold lowerFlag; split <;> rfl
@[simp] theorem lowerFlag_score (t : Team) (k : Nat) : (lowerFlag t k).score = t.score := by unfold lowerFlag; split <;> rfl
@[simp] theorem lowerFlag_permit (t : Team) (k : Nat) : (lowerFlag t k).permit = t.permit := by unfold lowerFlag; split <;> rfl
@[simp] theorem lowerFlag_stopped (t : Team) (k : Nat) : (lowerFlag t k).stopped = t.stopped := by unfold lowerFlag; split <;> rfl
@[simp] theorem lowerFlag_saved (t : Team) (k : Nat) : (lowerFlag t k).saved = t.saved := by unfold lowerFlag; split <;> rfl
@[simp] theorem lowerFlag_hold (t : Team) (k : Nat) : (lowerFlag t k).hold = t.hold := by unfold lowerFlag; split <;> rfl
@[simp] theorem lowerFlag_savedScratch (t : Team) (k : Nat) : (lowerFlag t k).savedScratch = t.savedScratch := by unfold lowerFlag; split <;> rfl
@[simp] theorem lowerFlag_savedPoison (t : Team) (k : Nat) : (lowerFlag t k).savedPoison = t.savedPoison := by unfold lowerFlag; split <;> rfl

@[simp] theorem writeMask_cfg (t : Team) (m : Nat) (x : Mask) : (writeMask t m x).cfg = t.cfg := by unfold writeMask; split <;> rfl
@[simp] theorem writeMask_pc (t : Team) (m : Nat) (x : Mask) : (writeMask t m x).pc = t.pc := by unfold writeMask; split <;> rfl
@[simp] theorem writeMask_clause (t : Team) (m : Nat) (x : Mask) : (writeMask t m x).clause = t.clause := by unfold writeMask; split <;> rfl
@[simp] theorem writeMask_vregs (t : Team) (m : Nat) (x : Mask) : (writeMask t m x).vregs = t.vregs := by unfold writeMask; split <;> rfl
@[simp] theorem writeMask_sregs (t : Team) (m : Nat) (x : Mask) : (writeMask t m x).sregs = t.sregs := by unfold writeMask; split <;> rfl
@[simp] theorem writeMask_wregs (t : Team) (m : Nat) (x : Mask) : (writeMask t m x).wregs = t.wregs := by unfold writeMask; split <;> rfl
@[simp] theorem writeMask_exec (t : Team) (m : Nat) (x : Mask) : (writeMask t m x).exec = t.exec := by unfold writeMask; split <;> rfl
@[simp] theorem writeMask_frame (t : Team) (m : Nat) (x : Mask) : (writeMask t m x).frame = t.frame := by unfold writeMask; split <;> rfl
@[simp] theorem writeMask_held (t : Team) (m : Nat) (x : Mask) : (writeMask t m x).held = t.held := by unfold writeMask; split <;> rfl
@[simp] theorem writeMask_spent (t : Team) (m : Nat) (x : Mask) : (writeMask t m x).spent = t.spent := by unfold writeMask; split <;> rfl
@[simp] theorem writeMask_mode (t : Team) (m : Nat) (x : Mask) : (writeMask t m x).mode = t.mode := by unfold writeMask; split <;> rfl
@[simp] theorem writeMask_flags (t : Team) (m : Nat) (x : Mask) : (writeMask t m x).flags = t.flags := by unfold writeMask; split <;> rfl
@[simp] theorem writeMask_fpst (t : Team) (m : Nat) (x : Mask) : (writeMask t m x).fpst = t.fpst := by unfold writeMask; split <;> rfl
@[simp] theorem writeMask_reconv (t : Team) (m : Nat) (x : Mask) : (writeMask t m x).reconv = t.reconv := by unfold writeMask; split <;> rfl
@[simp] theorem writeMask_calls (t : Team) (m : Nat) (x : Mask) : (writeMask t m x).calls = t.calls := by unfold writeMask; split <;> rfl
@[simp] theorem writeMask_spilledEntries (t : Team) (m : Nat) (x : Mask) : (writeMask t m x).spilledEntries = t.spilledEntries := by unfold writeMask; split <;> rfl
@[simp] theorem writeMask_spilledCalls (t : Team) (m : Nat) (x : Mask) : (writeMask t m x).spilledCalls = t.spilledCalls := by unfold writeMask; split <;> rfl
@[simp] theorem writeMask_subidx (t : Team) (m : Nat) (x : Mask) : (writeMask t m x).subidx = t.subidx := by unfold writeMask; split <;> rfl
@[simp] theorem writeMask_nwide (t : Team) (m : Nat) (x : Mask) : (writeMask t m x).nwide = t.nwide := by unfold writeMask; split <;> rfl
@[simp] theorem writeMask_handles (t : Team) (m : Nat) (x : Mask) : (writeMask t m x).handles = t.handles := by unfold writeMask; split <;> rfl
@[simp] theorem writeMask_rings (t : Team) (m : Nat) (x : Mask) : (writeMask t m x).rings = t.rings := by unfold writeMask; split <;> rfl
@[simp] theorem writeMask_late (t : Team) (m : Nat) (x : Mask) : (writeMask t m x).late = t.late := by unfold writeMask; split <;> rfl
@[simp] theorem writeMask_integrity (t : Team) (m : Nat) (x : Mask) : (writeMask t m x).integrity = t.integrity := by unfold writeMask; split <;> rfl
@[simp] theorem writeMask_poisonV (t : Team) (m : Nat) (x : Mask) : (writeMask t m x).poisonV = t.poisonV := by unfold writeMask; split <;> rfl
@[simp] theorem writeMask_wait (t : Team) (m : Nat) (x : Mask) : (writeMask t m x).wait = t.wait := by unfold writeMask; split <;> rfl
@[simp] theorem writeMask_parked (t : Team) (m : Nat) (x : Mask) : (writeMask t m x).parked = t.parked := by unfold writeMask; split <;> rfl
@[simp] theorem writeMask_captured (t : Team) (m : Nat) (x : Mask) : (writeMask t m x).captured = t.captured := by unfold writeMask; split <;> rfl
@[simp] theorem writeMask_retry (t : Team) (m : Nat) (x : Mask) : (writeMask t m x).retry = t.retry := by unfold writeMask; split <;> rfl
@[simp] theorem writeMask_marked (t : Team) (m : Nat) (x : Mask) : (writeMask t m x).marked = t.marked := by unfold writeMask; split <;> rfl
@[simp] theorem writeMask_kept (t : Team) (m : Nat) (x : Mask) : (writeMask t m x).kept = t.kept := by unfold writeMask; split <;> rfl
@[simp] theorem writeMask_handler (t : Team) (m : Nat) (x : Mask) : (writeMask t m x).handler = t.handler := by unfold writeMask; split <;> rfl
@[simp] theorem writeMask_trapClause (t : Team) (m : Nat) (x : Mask) : (writeMask t m x).trapClause = t.trapClause := by unfold writeMask; split <;> rfl
@[simp] theorem writeMask_pendTrap (t : Team) (m : Nat) (x : Mask) : (writeMask t m x).pendTrap = t.pendTrap := by unfold writeMask; split <;> rfl
@[simp] theorem writeMask_halt (t : Team) (m : Nat) (x : Mask) : (writeMask t m x).halt = t.halt := by unfold writeMask; split <;> rfl
@[simp] theorem writeMask_tickets (t : Team) (m : Nat) (x : Mask) : (writeMask t m x).tickets = t.tickets := by unfold writeMask; split <;> rfl
@[simp] theorem writeMask_cards (t : Team) (m : Nat) (x : Mask) : (writeMask t m x).cards = t.cards := by unfold writeMask; split <;> rfl
@[simp] theorem writeMask_batchNum (t : Team) (m : Nat) (x : Mask) : (writeMask t m x).batchNum = t.batchNum := by unfold writeMask; split <;> rfl
@[simp] theorem writeMask_openLoops (t : Team) (m : Nat) (x : Mask) : (writeMask t m x).openLoops = t.openLoops := by unfold writeMask; split <;> rfl
@[simp] theorem writeMask_batches (t : Team) (m : Nat) (x : Mask) : (writeMask t m x).batches = t.batches := by unfold writeMask; split <;> rfl
@[simp] theorem writeMask_pins (t : Team) (m : Nat) (x : Mask) : (writeMask t m x).pins = t.pins := by unfold writeMask; split <;> rfl
@[simp] theorem writeMask_cohorts (t : Team) (m : Nat) (x : Mask) : (writeMask t m x).cohorts = t.cohorts := by unfold writeMask; split <;> rfl
@[simp] theorem writeMask_active (t : Team) (m : Nat) (x : Mask) : (writeMask t m x).active = t.active := by unfold writeMask; split <;> rfl
@[simp] theorem writeMask_order (t : Team) (m : Nat) (x : Mask) : (writeMask t m x).order = t.order := by unfold writeMask; split <;> rfl
@[simp] theorem writeMask_score (t : Team) (m : Nat) (x : Mask) : (writeMask t m x).score = t.score := by unfold writeMask; split <;> rfl
@[simp] theorem writeMask_permit (t : Team) (m : Nat) (x : Mask) : (writeMask t m x).permit = t.permit := by unfold writeMask; split <;> rfl
@[simp] theorem writeMask_stopped (t : Team) (m : Nat) (x : Mask) : (writeMask t m x).stopped = t.stopped := by unfold writeMask; split <;> rfl
@[simp] theorem writeMask_saved (t : Team) (m : Nat) (x : Mask) : (writeMask t m x).saved = t.saved := by unfold writeMask; split <;> rfl
@[simp] theorem writeMask_hold (t : Team) (m : Nat) (x : Mask) : (writeMask t m x).hold = t.hold := by unfold writeMask; split <;> rfl
@[simp] theorem writeMask_savedScratch (t : Team) (m : Nat) (x : Mask) : (writeMask t m x).savedScratch = t.savedScratch := by unfold writeMask; split <;> rfl
@[simp] theorem writeMask_savedPoison (t : Team) (m : Nat) (x : Mask) : (writeMask t m x).savedPoison = t.savedPoison := by unfold writeMask; split <;> rfl

@[simp] theorem writeWord_cfg (t : Team) (k : Nat) (x : Sel) (w : Word) : (writeWord t k x w).cfg = t.cfg := by
  unfold writeWord; split <;> (try split) <;> rfl
@[simp] theorem writeWord_pc (t : Team) (k : Nat) (x : Sel) (w : Word) : (writeWord t k x w).pc = t.pc := by
  unfold writeWord; split <;> (try split) <;> rfl
@[simp] theorem writeWord_clause (t : Team) (k : Nat) (x : Sel) (w : Word) : (writeWord t k x w).clause = t.clause := by
  unfold writeWord; split <;> (try split) <;> rfl
@[simp] theorem writeWord_exec (t : Team) (k : Nat) (x : Sel) (w : Word) : (writeWord t k x w).exec = t.exec := by
  unfold writeWord; split <;> (try split) <;> rfl
@[simp] theorem writeWord_masks (t : Team) (k : Nat) (x : Sel) (w : Word) : (writeWord t k x w).masks = t.masks := by
  unfold writeWord; split <;> (try split) <;> rfl
@[simp] theorem writeWord_frame (t : Team) (k : Nat) (x : Sel) (w : Word) : (writeWord t k x w).frame = t.frame := by
  unfold writeWord; split <;> (try split) <;> rfl
@[simp] theorem writeWord_held (t : Team) (k : Nat) (x : Sel) (w : Word) : (writeWord t k x w).held = t.held := by
  unfold writeWord; split <;> (try split) <;> rfl
@[simp] theorem writeWord_spent (t : Team) (k : Nat) (x : Sel) (w : Word) : (writeWord t k x w).spent = t.spent := by
  unfold writeWord; split <;> (try split) <;> rfl
@[simp] theorem writeWord_mode (t : Team) (k : Nat) (x : Sel) (w : Word) : (writeWord t k x w).mode = t.mode := by
  unfold writeWord; split <;> (try split) <;> rfl
@[simp] theorem writeWord_flags (t : Team) (k : Nat) (x : Sel) (w : Word) : (writeWord t k x w).flags = t.flags := by
  unfold writeWord; split <;> (try split) <;> rfl
@[simp] theorem writeWord_fpst (t : Team) (k : Nat) (x : Sel) (w : Word) : (writeWord t k x w).fpst = t.fpst := by
  unfold writeWord; split <;> (try split) <;> rfl
@[simp] theorem writeWord_reconv (t : Team) (k : Nat) (x : Sel) (w : Word) : (writeWord t k x w).reconv = t.reconv := by
  unfold writeWord; split <;> (try split) <;> rfl
@[simp] theorem writeWord_calls (t : Team) (k : Nat) (x : Sel) (w : Word) : (writeWord t k x w).calls = t.calls := by
  unfold writeWord; split <;> (try split) <;> rfl
@[simp] theorem writeWord_spilledEntries (t : Team) (k : Nat) (x : Sel) (w : Word) : (writeWord t k x w).spilledEntries = t.spilledEntries := by
  unfold writeWord; split <;> (try split) <;> rfl
@[simp] theorem writeWord_spilledCalls (t : Team) (k : Nat) (x : Sel) (w : Word) : (writeWord t k x w).spilledCalls = t.spilledCalls := by
  unfold writeWord; split <;> (try split) <;> rfl
@[simp] theorem writeWord_subidx (t : Team) (k : Nat) (x : Sel) (w : Word) : (writeWord t k x w).subidx = t.subidx := by
  unfold writeWord; split <;> (try split) <;> rfl
@[simp] theorem writeWord_nwide (t : Team) (k : Nat) (x : Sel) (w : Word) : (writeWord t k x w).nwide = t.nwide := by
  unfold writeWord; split <;> (try split) <;> rfl
@[simp] theorem writeWord_handles (t : Team) (k : Nat) (x : Sel) (w : Word) : (writeWord t k x w).handles = t.handles := by
  unfold writeWord; split <;> (try split) <;> rfl
@[simp] theorem writeWord_rings (t : Team) (k : Nat) (x : Sel) (w : Word) : (writeWord t k x w).rings = t.rings := by
  unfold writeWord; split <;> (try split) <;> rfl
@[simp] theorem writeWord_late (t : Team) (k : Nat) (x : Sel) (w : Word) : (writeWord t k x w).late = t.late := by
  unfold writeWord; split <;> (try split) <;> rfl
@[simp] theorem writeWord_integrity (t : Team) (k : Nat) (x : Sel) (w : Word) : (writeWord t k x w).integrity = t.integrity := by
  unfold writeWord; split <;> (try split) <;> rfl
@[simp] theorem writeWord_wait (t : Team) (k : Nat) (x : Sel) (w : Word) : (writeWord t k x w).wait = t.wait := by
  unfold writeWord; split <;> (try split) <;> rfl
@[simp] theorem writeWord_parked (t : Team) (k : Nat) (x : Sel) (w : Word) : (writeWord t k x w).parked = t.parked := by
  unfold writeWord; split <;> (try split) <;> rfl
@[simp] theorem writeWord_captured (t : Team) (k : Nat) (x : Sel) (w : Word) : (writeWord t k x w).captured = t.captured := by
  unfold writeWord; split <;> (try split) <;> rfl
@[simp] theorem writeWord_retry (t : Team) (k : Nat) (x : Sel) (w : Word) : (writeWord t k x w).retry = t.retry := by
  unfold writeWord; split <;> (try split) <;> rfl
@[simp] theorem writeWord_marked (t : Team) (k : Nat) (x : Sel) (w : Word) : (writeWord t k x w).marked = t.marked := by
  unfold writeWord; split <;> (try split) <;> rfl
@[simp] theorem writeWord_kept (t : Team) (k : Nat) (x : Sel) (w : Word) : (writeWord t k x w).kept = t.kept := by
  unfold writeWord; split <;> (try split) <;> rfl
@[simp] theorem writeWord_handler (t : Team) (k : Nat) (x : Sel) (w : Word) : (writeWord t k x w).handler = t.handler := by
  unfold writeWord; split <;> (try split) <;> rfl
@[simp] theorem writeWord_trapClause (t : Team) (k : Nat) (x : Sel) (w : Word) : (writeWord t k x w).trapClause = t.trapClause := by
  unfold writeWord; split <;> (try split) <;> rfl
@[simp] theorem writeWord_pendTrap (t : Team) (k : Nat) (x : Sel) (w : Word) : (writeWord t k x w).pendTrap = t.pendTrap := by
  unfold writeWord; split <;> (try split) <;> rfl
@[simp] theorem writeWord_halt (t : Team) (k : Nat) (x : Sel) (w : Word) : (writeWord t k x w).halt = t.halt := by
  unfold writeWord; split <;> (try split) <;> rfl
@[simp] theorem writeWord_tickets (t : Team) (k : Nat) (x : Sel) (w : Word) : (writeWord t k x w).tickets = t.tickets := by
  unfold writeWord; split <;> (try split) <;> rfl
@[simp] theorem writeWord_cards (t : Team) (k : Nat) (x : Sel) (w : Word) : (writeWord t k x w).cards = t.cards := by
  unfold writeWord; split <;> (try split) <;> rfl
@[simp] theorem writeWord_batchNum (t : Team) (k : Nat) (x : Sel) (w : Word) : (writeWord t k x w).batchNum = t.batchNum := by
  unfold writeWord; split <;> (try split) <;> rfl
@[simp] theorem writeWord_openLoops (t : Team) (k : Nat) (x : Sel) (w : Word) : (writeWord t k x w).openLoops = t.openLoops := by
  unfold writeWord; split <;> (try split) <;> rfl
@[simp] theorem writeWord_batches (t : Team) (k : Nat) (x : Sel) (w : Word) : (writeWord t k x w).batches = t.batches := by
  unfold writeWord; split <;> (try split) <;> rfl
@[simp] theorem writeWord_pins (t : Team) (k : Nat) (x : Sel) (w : Word) : (writeWord t k x w).pins = t.pins := by
  unfold writeWord; split <;> (try split) <;> rfl
@[simp] theorem writeWord_cohorts (t : Team) (k : Nat) (x : Sel) (w : Word) : (writeWord t k x w).cohorts = t.cohorts := by
  unfold writeWord; split <;> (try split) <;> rfl
@[simp] theorem writeWord_active (t : Team) (k : Nat) (x : Sel) (w : Word) : (writeWord t k x w).active = t.active := by
  unfold writeWord; split <;> (try split) <;> rfl
@[simp] theorem writeWord_order (t : Team) (k : Nat) (x : Sel) (w : Word) : (writeWord t k x w).order = t.order := by
  unfold writeWord; split <;> (try split) <;> rfl
@[simp] theorem writeWord_score (t : Team) (k : Nat) (x : Sel) (w : Word) : (writeWord t k x w).score = t.score := by
  unfold writeWord; split <;> (try split) <;> rfl
@[simp] theorem writeWord_permit (t : Team) (k : Nat) (x : Sel) (w : Word) : (writeWord t k x w).permit = t.permit := by
  unfold writeWord; split <;> (try split) <;> rfl
@[simp] theorem writeWord_stopped (t : Team) (k : Nat) (x : Sel) (w : Word) : (writeWord t k x w).stopped = t.stopped := by
  unfold writeWord; split <;> (try split) <;> rfl
@[simp] theorem writeWord_saved (t : Team) (k : Nat) (x : Sel) (w : Word) : (writeWord t k x w).saved = t.saved := by
  unfold writeWord; split <;> (try split) <;> rfl
@[simp] theorem writeWord_hold (t : Team) (k : Nat) (x : Sel) (w : Word) : (writeWord t k x w).hold = t.hold := by
  unfold writeWord; split <;> (try split) <;> rfl
@[simp] theorem writeWord_savedScratch (t : Team) (k : Nat) (x : Sel) (w : Word) : (writeWord t k x w).savedScratch = t.savedScratch := by
  unfold writeWord; split <;> (try split) <;> rfl
@[simp] theorem writeWord_savedPoison (t : Team) (k : Nat) (x : Sel) (w : Word) : (writeWord t k x w).savedPoison = t.savedPoison := by
  unfold writeWord; split <;> (try split) <;> rfl

end Sys2Proof.Machine
end

