-- ==== Sys2Proof/Laws/Registers.lean ====
section
/-! SUPPORT. Writing registers: a result of n registers in a list of lanes leaves each lane's value there and everything else as it was. -/

namespace Sys2Proof.Machine

theorem Sel.plus_zero (x : Sel) : Sel.plus x 0 = x := by cases x <;> rfl

theorem Sel.plus_plus (x : Sel) (a b : Nat) : Sel.plus (Sel.plus x a) b = Sel.plus x (a + b) := by cases x <;> simp [Sel.plus, Nat.add_assoc]

@[simp] theorem isSreg_plus (x : Sel) (j : Nat) : isSreg (Sel.plus x j) = isSreg x := by cases x <;> rfl

theorem Sel.plus_ne {x : Sel} (hx : isReg x = true) {i j : Nat} (h : i ≠ j) : Sel.plus x i ≠ Sel.plus x j := by
  cases x <;> simp_all [Sel.plus, isReg, isVorW, isSreg]

theorem isReg_of_isDst {x : Sel} (h : x.isDst = true) : isReg x = true := by cases x <;> simp_all [Sel.isDst, isReg, isVorW, isSreg]

/-- A register written holds the word. -/
theorem regOf_writeWord_self (t : Team) (k : Nat) {x : Sel} (hx : x.isDst = true) (w : Word) : regOf (writeWord t k x w) k x = w := by
  cases x <;> simp_all [Sel.isDst, regOf, writeWord]

/-- Every other register keeps its word. -/
theorem regOf_writeWord_other (t : Team) {k k' : Nat} {x y : Sel} (hx : x.isDst = true) (hy : y.isDst = true) (w : Word)
    (h : y = x → isSreg x = false ∧ k' ≠ k) : regOf (writeWord t k x w) k' y = regOf t k' y := by
  cases x with
  | v a =>
    cases y with
    | v b =>
      simp only [Sel.isDst, decide_eq_true_eq] at hx hy
      simp only [regOf, writeWord]
      apply wordGet_wordSet_ne
      intro he
      have hk : k' = k := by omega
      have hb : b = a := by omega
      exact (h (by rw [hb])).2 hk
    | _ => simp_all [regOf, writeWord, Sel.isDst]
  | s a =>
    cases y with
    | s b =>
      have hne : b ≠ a := by
        intro he
        have := (h (by rw [he])).1
        simp [isSreg] at this
      simp only [Sel.isDst, decide_eq_true_eq] at hx hy
      simp [regOf, writeWord, hx, hy, Vector.getElem_set_ne, Ne.symm hne]
    | _ => simp_all [regOf, writeWord, Sel.isDst]
  | w a =>
    cases y with
    | w b =>
      simp only [Sel.isDst, decide_eq_true_eq] at hx hy
      simp only [regOf, writeWord]
      apply wordGet_wordSet_ne
      intro he
      have hk : k' = k := by omega
      have hb : b = a := by omega
      exact (h (by rw [hb])).2 hk
    | _ => simp_all [regOf, writeWord, Sel.isDst]
  | _ => simp_all [Sel.isDst]

theorem mem_poisonV_writeWord (t : Team) (k : Nat) (x : Sel) (w : Word) (p : Nat) :
    p ∈ (writeWord t k x w).poisonV ↔ p ∈ t.poisonV ∧ ∀ r, x = .v r → p ≠ 192 * k + r := by
  cases x with
  | s a => by_cases h : a < 32 <;> simp [writeWord, h]
  | _ => simp [writeWord]

theorem bare_writeWord (t : Team) (k : Nat) (x : Sel) (w : Word) : bare (writeWord t k x w) = bare t := by
  cases x with
  | s a => by_cases h : a < 32 <;> simp [writeWord, h, bare]
  | _ => rfl

theorem fpst_writeVal (t : Team) (k : Nat) (d : Sel) (n v : Nat) : (writeVal t k d n v).fpst = t.fpst := by
  induction n generalizing t d v with
  | zero => rfl
  | succ n ih => simp only [writeVal]; rw [ih, writeWord_fpst]

/-- The n registers from d exist. -/
def RegsExist (d : Sel) (n : Nat) : Prop := ∀ j, j < n → (Sel.plus d j).isDst = true

theorem RegsExist.tail {d : Sel} {n : Nat} (h : RegsExist d (n + 1)) : RegsExist (Sel.plus d 1) n := fun j hj => by
  rw [Sel.plus_plus]; exact h (1 + j) (by omega)

theorem RegsExist.head {d : Sel} {n : Nat} (h : RegsExist d (n + 1)) : d.isDst = true := by simpa [Sel.plus_zero] using h 0 (by omega)

theorem regOf_writeVal_other (t : Team) {k k' : Nat} {y : Sel} (hy : y.isDst = true) (n : Nat) {d : Sel} (hd : RegsExist d n) (v : Nat)
    (h : ∀ j, j < n → y = Sel.plus d j → isSreg d = false ∧ k' ≠ k) : regOf (writeVal t k d n v) k' y = regOf t k' y := by
  induction n generalizing t d v with
  | zero => rfl
  | succ n ih =>
    simp only [writeVal]
    rw [ih _ hd.tail]
    · apply regOf_writeWord_other t hd.head hy
      intro he
      exact h 0 (by omega) (by rw [Sel.plus_zero]; exact he)
    · intro j hj he
      rw [Sel.plus_plus] at he
      rw [isSreg_plus]
      exact h (1 + j) (by omega) he

theorem numOf_writeVal_self (t : Team) (k : Nat) (n : Nat) {d : Sel} (hd : RegsExist d n) (v : Nat) :
    numOf (writeVal t k d n v) k d n = v % 2 ^ (32 * n) := by
  induction n generalizing t d v with
  | zero => simp [numOf, Nat.mod_one]
  | succ n ih =>
    simp only [writeVal, numOf]
    rw [ih _ hd.tail, regOf_writeVal_other _ hd.head n hd.tail, regOf_writeWord_self t k hd.head]
    · rw [BitVec.toNat_ofNat, ← Nat.mod_mul, ← Nat.pow_add, Nat.mul_succ, Nat.add_comm]
    · intro j hj he
      rw [Sel.plus_plus] at he
      exact absurd ((Sel.plus_zero d).trans he) (Sel.plus_ne (isReg_of_isDst hd.head) (by omega))

theorem numOf_congr {t u : Team} {k : Nat} {d : Sel} {n : Nat} (h : ∀ j, j < n → regOf t k (Sel.plus d j) = regOf u k (Sel.plus d j)) :
    numOf t k d n = numOf u k d n := by
  induction n generalizing d with
  | zero => rfl
  | succ n ih =>
    simp only [numOf]
    have h0 : regOf t k d = regOf u k d := by simpa [Sel.plus_zero] using h 0 (by omega)
    rw [h0, ih (fun j hj => by rw [Sel.plus_plus]; exact h (1 + j) (by omega))]

theorem mem_poisonV_writeVal (t : Team) (k : Nat) (d : Sel) (n v p : Nat) :
    p ∈ (writeVal t k d n v).poisonV ↔ p ∈ t.poisonV ∧ ∀ j, j < n → ∀ r, Sel.plus d j = .v r → p ≠ 192 * k + r := by
  induction n generalizing t d v with
  | zero => simp [writeVal]
  | succ n ih =>
    simp only [writeVal]
    rw [ih, mem_poisonV_writeWord]
    constructor
    · rintro ⟨⟨h1, h2⟩, h3⟩
      refine ⟨h1, fun j hj r he => ?_⟩
      cases j with
      | zero => exact h2 r (by rw [Sel.plus_zero] at he; exact he)
      | succ j => exact h3 j (by omega) r (by rw [Sel.plus_plus, Nat.add_comm]; exact he)
    · rintro ⟨h1, h2⟩
      refine ⟨⟨h1, fun r he => h2 0 (by omega) r (by rw [Sel.plus_zero]; exact he)⟩, fun j hj r he => ?_⟩
      exact h2 (1 + j) (by omega) r (by rw [← Sel.plus_plus]; exact he)

theorem bare_writeVal (t : Team) (k : Nat) (d : Sel) (n v : Nat) : bare (writeVal t k d n v) = bare t := by
  induction n generalizing t d v with
  | zero => rfl
  | succ n ih => simp only [writeVal]; rw [ih, bare_writeWord]

theorem bare_orFpst (t : Team) (e : BitVec 5) : bare (orFpst t e) = bare t := rfl

@[simp] theorem regOf_orFpst (t : Team) (e : BitVec 5) (k : Nat) (x : Sel) : regOf (orFpst t e) k x = regOf t k x := by cases x <;> rfl

/-- A result written in the lanes of a list, each once: for an s destination there is one lane. -/
theorem wrote_writeLanes (t : Team) {d : Sel} {n : Nat} (hd : RegsExist d n) (f : Nat → Nat × BitVec 5) (lanes : List Nat) (hn : lanes.Nodup)
    (hs : isSreg d = true → lanes.length ≤ 1) :
    Wrote t (writeLanes t d n lanes f) d n lanes (fun k => (f k).1) (lanes.foldl (fun e k => e ||| (f k).2) 0) := by
  have key : ∀ (lanes : List Nat) (t0 : Team) (e0 : BitVec 5), lanes.Nodup → (isSreg d = true → lanes.length ≤ 1) → t0.fpst = t.fpst ||| e0 →
      (∀ k ∈ lanes, numOf (writeLanes t0 d n lanes f) k d n = (f k).1 % 2 ^ (32 * n)) ∧
      (∀ slot r, r.isDst = true → ¬ Covers d n lanes slot r → regOf (writeLanes t0 d n lanes f) slot r = regOf t0 slot r) ∧
      (∀ p, p ∈ (writeLanes t0 d n lanes f).poisonV ↔ p ∈ t0.poisonV ∧ ∀ k ∈ lanes, ∀ j, j < n → ∀ r, Sel.plus d j = .v r → p ≠ 192 * k + r) ∧
      (writeLanes t0 d n lanes f).fpst = t.fpst ||| lanes.foldl (fun e k => e ||| (f k).2) e0 ∧
      bare (writeLanes t0 d n lanes f) = bare t0 := by
    intro lanes
    induction lanes with
    | nil => intro t0 e0 _ _ h; simp [writeLanes, h]
    | cons k rest ih =>
      intro t0 e0 hn hs h0
      have hstep : writeLanes t0 d n (k :: rest) f = writeLanes (orFpst (writeVal t0 k d n (f k).1) (f k).2) d n rest f := rfl
      have hnd := List.nodup_cons.mp hn
      have hsr : isSreg d = true → rest = [] := fun h => by
        have := hs h
        simp only [List.length_cons] at this
        exact List.eq_nil_of_length_eq_zero (by omega)
      obtain ⟨i1, i2, i3, i4, i5⟩ := ih (orFpst (writeVal t0 k d n (f k).1) (f k).2) (e0 ||| (f k).2) hnd.2
        (fun h => by rw [hsr h]; simp) (by rw [orFpst_fpst, fpst_writeVal, h0, BitVec.or_assoc])
      rw [hstep]
      refine ⟨?_, ?_, ?_, ?_, ?_⟩
      · intro k' hk'
        rcases List.mem_cons.mp hk' with rfl | hm
        · have hcong : numOf (writeLanes (orFpst (writeVal t0 k' d n (f k').1) (f k').2) d n rest f) k' d n
              = numOf (writeVal t0 k' d n (f k').1) k' d n := by
            refine numOf_congr (fun j hj => ?_)
            by_cases hsd : isSreg d = true
            · rw [hsr hsd]; simp [writeLanes]
            · rw [i2 k' _ (hd j hj) (fun hc => by
                rcases hc.1 with hc | hc
                · exact hsd hc
                · exact hnd.1 hc), regOf_orFpst]
          rw [hcong]
          exact numOf_writeVal_self t0 k' n hd _
        · exact i1 k' hm
      · intro slot r hr hc
        rw [i2 slot r hr (fun hx => hc ⟨hx.1.imp id (fun h => List.mem_cons_of_mem _ h), hx.2⟩), regOf_orFpst]
        refine regOf_writeVal_other t0 hr n hd _ (fun j hj he => ?_)
        constructor
        · cases hsd : isSreg d
          · rfl
          · exact absurd ⟨Or.inl hsd, j, hj, he⟩ hc
        · intro hk
          exact hc ⟨Or.inr (by simp [hk]), j, hj, he⟩
      · intro p
        rw [i3, orFpst_poisonV, mem_poisonV_writeVal]
        constructor
        · rintro ⟨⟨h1, h2⟩, h3⟩
          refine ⟨h1, fun k' hk' => ?_⟩
          rcases List.mem_cons.mp hk' with rfl | hm
          · exact h2
          · exact h3 k' hm
        · rintro ⟨h1, h2⟩
          exact ⟨⟨h1, h2 k (by simp)⟩, fun k' hk' => h2 k' (List.mem_cons_of_mem _ hk')⟩
      · rw [i4]; rfl
      · rw [i5, bare_orFpst, bare_writeVal]
  obtain ⟨h1, h2, h3, h4, h5⟩ := key lanes t 0 hn hs (by simp)
  exact ⟨h1, h2, h3, h4, h5⟩

/-- The registers of an operand that has passed check 3 exist (R104): n is 1, 2, 4 or 8, so that an aligned group below v192 ends below it. -/
theorem regsExist_of_opndOk {budget : Nat} {d : Sel} {n : Nat} (hd : d.isDst = true) (hn : n ∣ 8) (h : opndOk budget (dst d n) = true) : RegsExist d n := by
  intro j hj
  have hn8 : n ≤ 8 := Nat.le_of_dvd (by omega) hn
  have hcases : n = 1 ∨ n = 2 ∨ n = 4 ∨ n = 8 := by
    interval_cases n <;> omega
  cases d with
  | v k =>
    have h' : (decide (k + n ≤ budget) && decide (k % n = 0)) = true := h
    simp only [Sel.isDst, Bool.and_eq_true, decide_eq_true_eq] at h' hd
    simp only [Sel.plus, Sel.isDst, decide_eq_true_eq]
    rcases hcases with rfl | rfl | rfl | rfl <;> omega
  | s k =>
    have h' : (decide (k + n ≤ 32) && decide (k % n = 0)) = true := h
    simp only [Bool.and_eq_true, decide_eq_true_eq] at h'
    simp only [Sel.plus, Sel.isDst, decide_eq_true_eq]
    omega
  | w k =>
    have h' : (decide (k % n = 0) && decide (k + n ≤ 4) && decide (n ≤ 2)) = true := h
    simp only [Bool.and_eq_true, decide_eq_true_eq] at h'
    simp only [Sel.plus, Sel.isDst, decide_eq_true_eq]
    omega
  | _ => simp [Sel.isDst] at hd

theorem nodup_lanesFor (t : Team) (d : Sel) (m : Mask) : (lanesFor t d m).Nodup := by
  unfold lanesFor
  split
  · simp
  · exact nodup_slotsOf _ _

theorem length_lanesFor (t : Team) (d : Sel) (m : Mask) (h : isSreg d = true) : (lanesFor t d m).length ≤ 1 := by simp [lanesFor, h]

/-! ## The captured registers (R377) -/

theorem sregsOf_fresh {t : Team} (h : t.captured = none) : sregsOf t = t.sregs := by simp [sregsOf, h]
theorem vregsOf_fresh {t : Team} (h : t.captured = none) : vregsOf t = t.vregs := by simp [vregsOf, h]
theorem masksOf_fresh {t : Team} (h : t.captured = none) : masksOf t = t.masks := by simp [masksOf, h]

/-- Keeping the registers changes nothing of what an instruction reads, and keeping them twice is keeping them once. -/
@[simp] theorem sregsOf_kept (t : Team) : sregsOf { t with captured := some (capture t) } = sregsOf t := rfl
@[simp] theorem vregsOf_kept (t : Team) : vregsOf { t with captured := some (capture t) } = vregsOf t := rfl
@[simp] theorem masksOf_kept (t : Team) : masksOf { t with captured := some (capture t) } = masksOf t := rfl
@[simp] theorem capture_kept (t : Team) : capture { t with captured := some (capture t) } = capture t := rfl

end Sys2Proof.Machine
end

