-- ==== Sys2Proof/Laws/Issue.lean ====
section
/-! SUPPORT. The issue of an instruction: what exec of an instruction word comes to once the checks of R231 are passed, and where it traps instead. -/

namespace Sys2Proof.Machine

@[simp] theorem flagCount_none (t : Team) : flagCount t 15 = 0 := rfl

/-- An instruction that has passed checks 2 to 4 and waits for no flag goes on. -/
theorem gate_go {i : Instr} {f : Form} {t : Team} {c : Clause} (h : Legal i t f.late f.types (f.ops (modeType t.mode)))
    (hm : f.mem = true → slicePending t = false) (hf : flagCount t (countFlag c f.cls) ≠ 63) : gate i f t c = .go := by
  have h1 : (f.mem && slicePending t) = false := by
    cases hmem : f.mem
    · rfl
    · simpa using hm hmem
  simp [gate, h.fields, h.operands, h.type, h1, hf]

/-- Fields or operands that check 2 or 3 refuses are ILLEGAL_OP. -/
theorem gate_illegalOp {i : Instr} {f : Form} {t : Team} {c : Clause}
    (h : i.wellFormed = false ∨ opndsOk t.cfg.budget f.late (f.ops (modeType t.mode)) = false) : gate i f t c = .trap .illegalOp := by
  unfold gate
  rcases h with h | h
  · simp [h]
  · cases hw : i.wellFormed <;> simp [h]

/-- A TYPE that check 4 refuses is ILLEGAL_TYPE. -/
theorem gate_illegalType {i : Instr} {f : Form} {t : Team} {c : Clause} (hw : i.wellFormed = true)
    (ho : opndsOk t.cfg.budget f.late (f.ops (modeType t.mode)) = true) (ht : f.types (modeType t.mode) = false) : gate i f t c = .trap .illegalType := by
  simp [gate, hw, ho, ht]

/-- The issue of a word by the team that holds the slot. -/
theorem issue_eq {s : State} {u : Nat} {t : Team} {c : Clause} (h : Issuing s u t c) (i : Instr) (f : Form) (body : State → Issue → Eff) :
    issue i f body s = issueAt i f body s u t c := by
  simp [issue, h.running, h.slot, h.team, h.clause, h.ready]

/-- An instruction that has passed its checks is performed. -/
theorem issue_go {s : State} {u : Nat} {t : Team} {c : Clause} (h : Issuing s u t c) {i : Instr} {f : Form} (body : State → Issue → Eff)
    (hg : gate i f t c = .go) : issue i f body s = perform f body s u t c := by
  rw [issue_eq h]
  simp [issueAt, hg]

/-- An instruction that fails a check traps. -/
theorem issue_trap {s : State} {u : Nat} {t : Team} {c : Clause} (h : Issuing s u t c) {i : Instr} {f : Form} (body : State → Issue → Eff) {k : TrapClass}
    (hg : gate i f t c = .trap k) : issue i f body s = .next (takeTrap s u (trapOf k t.exec)) := by
  rw [issue_eq h]
  simp [issueAt, hg]

/-- With no poisoned source an instruction is its body on its lanes (R385). -/
theorem perform_clean {f : Form} {body : State → Issue → Eff} {s : State} {u : Nat} {t : Team} {c : Clause}
    (hp : Unpoisoned t (f.ops (modeType t.mode)) (issueOf f u t c).active) :
    perform f body s u t c = finish u (body s (issueOf f u t c)) := by
  have h : (issueOf f u t c).active &&& ~~~ (0 : Mask) = (issueOf f u t c).active := by
    rw [show (0 : Mask) = 0#1024 from rfl, BitVec.not_zero, BitVec.and_allOnes]
  unfold Unpoisoned at hp
  unfold perform
  simp only [hp, withPoison, if_true, h]

@[simp] theorem issueOf_t (f : Form) (u : Nat) (t : Team) (c : Clause) : (issueOf f u t c).t = t := by
  unfold issueOf; cases t.retry <;> rfl
@[simp] theorem issueOf_u (f : Form) (u : Nat) (t : Team) (c : Clause) : (issueOf f u t c).u = u := by
  unfold issueOf; cases t.retry <;> rfl
@[simp] theorem issueOf_lit (f : Form) (u : Nat) (t : Team) (c : Clause) : (issueOf f u t c).lit = c.lit := by
  unfold issueOf; cases t.retry <;> rfl

theorem issueOf_active (f : Form) (hf : f.allExec = false) (u : Nat) (t : Team) (c : Clause) : (issueOf f u t c).active = lanesOn t := by
  unfold issueOf lanesOn
  cases t.retry <;> simp [hf]

theorem issueOf_active_exec (f : Form) (hf : f.allExec = true) (u : Nat) (t : Team) (c : Clause) : (issueOf f u t c).active = lanesExec t := by
  unfold issueOf lanesExec
  cases t.retry <;> simp [hf]

theorem issueOf_exec (f : Form) (u : Nat) (t : Team) (c : Clause) : (issueOf f u t c).exec = lanesExec t := by
  unfold issueOf lanesExec
  cases t.retry <;> rfl

/-- The destination of a form that check 3 has passed. -/
theorem opndOk_of_opndsOk {budget : Nat} {late : Bool} {os : List Opnd} (h : opndsOk budget late os = true) {o : Opnd} (ho : o ∈ os) :
    opndOk budget o = true := by
  simp only [opndsOk, Bool.and_eq_true] at h
  exact List.all_eq_true.mp h.1.1 o ho

/-- THE RESULT OF A LANE INSTRUCTION: the team goes on to the next word with the result written in each of its lanes, and nothing else changed. -/
theorem lane_result {s : State} {u : Nat} {t : Team} (d : Sel) (n : Nat) (m : Mask) (f : Nat → Nat × BitVec 5) (hd : RegsExist d n)
    (x : Issue) (hx : x.u = u) (ht : x.t = t) :
    ∃ t1, finish u (laneEff d n m f s x) = .next (stepOn (s.setTeam u t1) u) ∧
      Wrote t t1 d n (lanesFor t d m) (fun k => (f k).1) ((lanesFor t d m).foldl (fun e k => e ||| (f k).2) 0) := by
  subst hx ht
  exact ⟨_, rfl, wrote_writeLanes _ hd f _ (nodup_lanesFor _ _ _) (length_lanesFor _ _ _)⟩

end Sys2Proof.Machine
end

