-- ==== Sys2Proof/Laws/Memory.lean ====
section
/-! SUPPORT. Every memory operation keeps the canonical form (log 1): the operations on one memory, and those on the state at home and in a scratchpad. -/

namespace Sys2Proof.Machine

/-! ## One memory -/

/-- A dirty word merged keeps the canonical form. -/
theorem wf_mergeDirty {m : Memory} (hm : Memory.wf m = true) (l : L1Line) (wi : Nat) : Memory.wf (mergeDirty m l wi) = true := by
  unfold mergeDirty
  refine Memory.wf_foldl (fun m k h => ?_) _ hm
  split
  · exact Memory.wf_write h _ _
  · exact h

theorem Memory.wfFrom_append {a : Nat} {m n : Memory} (hm : Memory.wfFrom a m = true) (b : Nat) (hab : a ≤ b) (hk : ∀ c ∈ m, c.1 < b)
    (hn : Memory.wfFrom b n = true) : Memory.wfFrom a (m ++ n) = true := by
  induction m generalizing a with
  | nil => exact Memory.wfFrom_mono hab hn
  | cons e rest ih =>
    obtain ⟨k, c⟩ := e
    simp only [Memory.wfFrom, Bool.and_eq_true, decide_eq_true_eq] at hm
    simp only [List.cons_append, Memory.wfFrom, Bool.and_eq_true, decide_eq_true_eq]
    exact ⟨hm.1, ih hm.2 (hk _ List.mem_cons_self) (fun x hx => hk x (List.mem_cons_of_mem _ hx))⟩

theorem Memory.wfFrom_of_le {a b : Nat} {m : Memory} (hm : Memory.wfFrom a m = true) (h : ∀ c ∈ m, b ≤ c.1) : Memory.wfFrom b m = true := by
  cases m with
  | nil => rfl
  | cons e rest =>
    obtain ⟨k, c⟩ := e
    simp only [Memory.wfFrom, Bool.and_eq_true, decide_eq_true_eq] at hm ⊢
    exact ⟨⟨h _ List.mem_cons_self, hm.1.2⟩, hm.2⟩

/-- A run of bytes as cells. -/
theorem Memory.wfFrom_run (a : Nat) (ks : List Nat) (bs : List Byte) (lo : Nat) (hs : ks.Pairwise (· < ·)) (hlo : ∀ k ∈ ks, lo ≤ a + k) :
    Memory.wfFrom lo ((ks.zip bs).filterMap (fun p => if p.2 = Memory.unlisted then none else some (a + p.1, p.2))) = true := by
  induction ks generalizing bs lo with
  | nil => rfl
  | cons k rest ih =>
    cases bs with
    | nil => rfl
    | cons b bs =>
      have hr := List.pairwise_cons.mp hs
      simp only [List.zip_cons_cons, List.filterMap_cons]
      split
      · exact ih bs lo hr.2 (fun x hx => hlo x (List.mem_cons_of_mem _ hx))
      · rename_i h
        split at h
        · simp at h
        · rename_i hb
          simp only [Option.some.injEq] at h
          subst h
          simp only [Memory.wfFrom, Bool.and_eq_true, decide_eq_true_eq]
          exact ⟨⟨hlo k List.mem_cons_self, hb⟩, ih bs _ hr.2 (fun x hx => by have := hr.1 x hx; omega)⟩

/-- A run of bytes put in place of what the range held keeps the canonical form. -/
theorem wf_splice {m : Memory} (hm : Memory.wf m = true) (a : Nat) (bs : List Byte) : Memory.wf (Memory.splice m a bs) = true := by
  unfold Memory.splice Memory.wf
  rw [List.append_assoc]
  refine Memory.wfFrom_append (Memory.wfFrom_filter _ hm) a (Nat.zero_le a) (by simp) ?_
  refine Memory.wfFrom_append ?_ (a + bs.length) (by omega) ?_ ?_
  · exact Memory.wfFrom_run a _ bs a List.pairwise_lt_range (by simp)
  · intro c hc
    simp only [List.mem_filterMap] at hc
    obtain ⟨p, hp, hq⟩ := hc
    split at hq
    · simp at hq
    · simp only [Option.some.injEq] at hq
      have := List.mem_range.mp (List.of_mem_zip hp).1
      subst hq
      simpa using this
  · exact Memory.wfFrom_of_le (Memory.wfFrom_filter _ hm) (by simp)

/-! ## The state -/

theorem mem_tblSet {α : Type} {t : Tbl α} {a : Nat} {y : α} {e : Nat × α} (h : e ∈ tblSet t a y) : e ∈ t ∨ e = (a, y) := by
  induction t with
  | nil => simpa [tblSet] using h
  | cons x rest ih =>
    obtain ⟨k, z⟩ := x
    simp only [tblSet] at h
    split at h
    · rcases List.mem_cons.mp h with h | h
      · exact .inr h
      · exact .inl h
    · split at h
      · rcases List.mem_cons.mp h with h | h
        · exact .inr h
        · exact .inl (List.mem_cons_of_mem _ h)
      · rcases List.mem_cons.mp h with h | h
        · exact .inl (h ▸ List.mem_cons_self)
        · rcases ih h with h | h
          · exact .inl (List.mem_cons_of_mem _ h)
          · exact .inr h

theorem mem_of_tblGet {α : Type} {t : Tbl α} {a : Nat} {y : α} (h : tblGet t a = some y) : (a, y) ∈ t := by
  induction t with
  | nil => simp [tblGet] at h
  | cons x rest ih =>
    obtain ⟨k, z⟩ := x
    simp only [tblGet] at h
    split at h
    · simp_all
    · exact List.mem_cons_of_mem _ (ih h)

/-- Home memory and every core unchanged: the form is kept. -/
theorem Canonical.of_eq {s t : State} (h : Canonical s) (hm : t.mem = s.mem) (hc : t.cores = s.cores) : Canonical t := by
  unfold Canonical at *
  rw [hm, hc]
  exact h

theorem Canonical.core {s : State} (h : Canonical s) (c : Nat) : Memory.wf (s.core c).scratch = true := by
  simp only [State.core, tblGetD]
  cases hg : tblGet s.cores c with
  | none => rfl
  | some x => exact h.2 _ (mem_of_tblGet hg)

theorem Canonical.setCore {s : State} (h : Canonical s) (c : Nat) {x : Core} (hx : Memory.wf x.scratch = true) : Canonical (s.setCore c x) :=
  ⟨h.1, fun e he => (mem_tblSet he).elim (h.2 e) (fun h => h ▸ hx)⟩

/-- A core changed in a way that keeps its scratchpad. -/
theorem Canonical.updCore {s : State} (h : Canonical s) (c : Nat) {f : Core → Core} (hf : ∀ x, Memory.wf x.scratch = true → Memory.wf (f x).scratch = true) :
    Canonical (s.updCore c f) := h.setCore c (hf _ (h.core c))

theorem Canonical.setMem {s : State} (h : Canonical s) {m : List Host.Cell} (hm : Memory.wf m = true) : Canonical { s with mem := m } := ⟨hm, h.2⟩

/-- A fold of steps that each keep the form. -/
theorem Canonical.foldl {β : Type} {f : State → β → State} (hf : ∀ s b, Canonical s → Canonical (f s b)) (l : List β) {s : State} (h : Canonical s) :
    Canonical (l.foldl f s) := by
  induction l generalizing s with
  | nil => exact h
  | cons b rest ih => exact ih (hf s b h)

/-- A recall keeps the form. -/
theorem Canonical.recallWord {s : State} (h : Canonical s) (pull : Bool) (w : Nat) : Canonical (recallWord s pull w) := by
  unfold Machine.recallWord
  split
  · exact h
  · split
    · exact h.of_eq rfl rfl
    · rename_i c _ _ k l _
      exact Canonical.updCore (f := fun x => { x with l1 := setNth x.l1 k _ }) (s := { s with own := _, mem := _, checks := _, poison := _ })
        ⟨wf_mergeDirty h.1 l (w % 32), h.2⟩ c (fun x hx => hx)

/-- A crossing poisons lines and changes no byte (R410). -/
theorem Canonical.crossLines {s : State} (h : Canonical s) (pa n : Nat) : Canonical (crossLines s pa n) := by
  unfold Machine.crossLines
  split
  · exact ⟨h.1, h.2⟩
  · exact h

theorem Canonical.recallRange {s : State} (h : Canonical s) (pull : Bool) (pa n : Nat) : Canonical (recallRange s pull pa n) :=
  (Canonical.foldl (fun _ _ h => h.recallWord pull _) _ h).crossLines pa n

/-- Check values formed afresh, or carried, are no byte (R409). -/
theorem Canonical.renewChecks {s : State} (h : Canonical s) (pa n : Nat) : Canonical (renewChecks s pa n) := ⟨h.1, h.2⟩
theorem Canonical.carryCheck {s : State} (h : Canonical s) (p : Nat) (v : Word) : Canonical (carryCheck s p v) := ⟨h.1, h.2⟩

theorem Canonical.dropIdle {s : State} (h : Canonical s) (a : Nat) : Canonical (dropIdle s a) := by
  unfold Machine.dropIdle
  split
  · exact ⟨Memory.wf_writes h.1 _ _, h.2⟩
  · exact h

/-- Bytes written at home keep the form. -/
theorem Canonical.homeWriteBytes {s : State} (h : Canonical s) (pa : Nat) (bs : List Byte) : Canonical (homeWriteBytes s pa bs) := by
  have h1 := Canonical.foldl (fun s k h => h.dropIdle (pa + k)) (List.range bs.length) h
  unfold Machine.homeWriteBytes
  have hm : ∀ z : State, Canonical z → Memory.wf ((List.range bs.length).foldl (fun m k => if discarded z (pa + k) then m else
      Memory.write m (pa + k) (nthD bs k 0)) z.mem) = true := fun z hz => Memory.wf_foldl (fun m k h => by
    split
    · exact h
    · exact Memory.wf_write h _ _) _ hz.1
  simp only
  split
  · exact ⟨hm _ h1, h1.2⟩
  · exact ⟨hm _ h1, h1.2⟩

theorem Canonical.homeWrite {s : State} (h : Canonical s) (pa : Nat) (bs : List Byte) : Canonical (homeWrite s pa bs) :=
  (h.recallRange false pa _).homeWriteBytes pa bs

theorem Canonical.homeRead {s : State} (h : Canonical s) (pa n : Nat) : Canonical (homeRead s pa n).2 := h.recallRange false pa n
theorem Canonical.homeLoad {s : State} (h : Canonical s) (pa n : Nat) : Canonical (homeLoad s pa n).2 := h.recallRange true pa n

/-- A unit record written back to its object keeps the form (R42). -/
theorem Canonical.spillRecord {s : State} (h : Canonical s) (r : UnitTable × Nat) : Canonical (spillRecord s r) := by
  unfold Machine.spillRecord
  have h1 : Canonical { s with unitRecs := s.unitRecs.filter (fun x => decide (x ≠ r)) } := ⟨h.1, h.2⟩
  split
  · exact ((h1.crossLines _ _).setMem (Memory.wf_writes (h1.crossLines _ _).1 _ _)).renewChecks _ _
  · exact h1

/-- Bytes of a message or of a unit of the Plinth, with their check values, keep the form (R409). -/
theorem Canonical.arriveWrite {s : State} (h : Canonical s) (pa : Nat) (bs : List Byte) : Canonical (arriveWrite s pa bs) := by
  unfold Machine.arriveWrite
  simp only
  split
  · exact (h.homeWrite pa bs).carryCheck _ _
  · exact h.homeWrite pa bs

/-- Scratchpad bytes written keep the form. -/
theorem Canonical.scratchWrite {s : State} (h : Canonical s) (c p : Nat) (bs : List Byte) : Canonical (scratchWrite s c p bs) :=
  h.updCore c (fun _ hx => Memory.wf_writes hx p bs)

/-- A range that gets new contents keeps the form. -/
theorem Canonical.scrub {s : State} (h : Canonical s) (pa n : Nat) : Canonical (scrub s pa n) := by
  refine ⟨Memory.wf_zero h.1 pa n, fun e he => ?_⟩
  simp only [Machine.scrub, List.mem_map] at he
  obtain ⟨c, hc, rfl⟩ := he
  exact h.2 c hc

theorem Canonical.placeBytes {s : State} (h : Canonical s) (pa : Nat) (bs : List Byte) : Canonical (placeBytes s pa bs) :=
  (h.scrub pa _).setMem (wf_splice (h.scrub pa _).1 pa bs)

end Sys2Proof.Machine
end

