-- ==== Sys2Proof/Laws/PerInstr.lean ====
section
/-! SUPPORT. Encoding and decoding agree, instruction by instruction (R217 to R219, R228): the word of a well-formed instruction decodes to it. -/

namespace Sys2Proof.Laws.RoundTrip

/-- A word of the instruction, with every operand at a value its kind accepts, decodes to the instruction. -/
def Statement (i : Instr) : Prop := i.wellFormed = true → ∀ w, encode i = some w → decode w = .ok i

/-! ## Fields -/

/-- A selector fits a field, and the field reads back as it. -/
def Fits (x : Sel) : Prop := x.toField < 256 ∧ Sel.ofField x.toField = x

theorem fits_v {n : Nat} (h : n < 192) : Fits (.v n) := ⟨by simp only [Sel.toField]; omega, by simp [Sel.toField, Sel.ofField, h]⟩

theorem fits_s {n : Nat} (h : n < 32) : Fits (.s n) :=
  ⟨by simp only [Sel.toField]; omega, by
    have h1 : ¬ 0xC0 + n < 0xC0 := by omega
    have h2 : 0xC0 + n < 0xE0 := by omega
    simp only [Sel.toField, Sel.ofField, if_neg h1, if_pos h2, Nat.add_sub_cancel_left]⟩

theorem fits_w {n : Nat} (h : n < 4) : Fits (.w n) :=
  ⟨by simp only [Sel.toField]; omega, by
    have h1 : ¬ 0xE0 + n < 0xC0 := by omega
    have h2 : ¬ 0xE0 + n < 0xE0 := by omega
    have h3 : 0xE0 + n < 0xE4 := by omega
    simp only [Sel.toField, Sel.ofField, if_neg h1, if_neg h2, if_pos h3, Nat.add_sub_cancel_left]⟩

theorem src {x : Sel} (h : x.isSrc = true) : Fits x := by
  cases x with
  | v n => exact fits_v (of_decide_eq_true h)
  | s n => exact fits_s (of_decide_eq_true h)
  | w n => exact fits_w (of_decide_eq_true h)
  | rsvd n => exact Bool.noConfusion h
  | _ => exact ⟨by decide, by decide⟩

theorem dst {x : Sel} (h : x.isDst = true) : Fits x := src (by cases x <;> first | exact h | exact Bool.noConfusion h)

theorem usrc {x : Sel} (h : x.isUsrc = true) : Fits x := src (by cases x <;> first | exact h | rfl | exact Bool.noConfusion h)

theorem usrcNoLit {x : Sel} (h : x.isUsrcNoLit = true) : Fits x := usrc ((Bool.and_eq_true _ _).mp h).1

theorem vreg {x : Sel} (h : x.isVreg = true) : Fits x := src (by cases x <;> first | exact h | exact Bool.noConfusion h)

theorem mask {m : Nat} (h : maskField m = true) : m < 256 := by
  have : m < 8 := of_decide_eq_true h
  omega

theorem cond {c m : Nat} (h : condField c m = true) : c * 8 + m < 256 ∧ (c * 8 + m) / 8 = c ∧ (c * 8 + m) % 8 = m := by
  simp only [condField, Bool.and_eq_true, decide_eq_true_eq] at h
  omega

theorem and2 {a b : Bool} (h : (a && b) = true) : a = true ∧ b = true := (Bool.and_eq_true _ _).mp h

theorem and3 {a b c : Bool} (h : (a && b && c) = true) : (a = true ∧ b = true) ∧ c = true := ⟨and2 (and2 h).1, (and2 h).2⟩

theorem same1 {α : Type} (f : α → Instr) {x y : α} (h : x = y) : (Except.ok (f x) : Except DecodeError Instr) = .ok (f y) := h ▸ rfl

theorem same2 {α β : Type} (f : α → β → Instr) {x y : α} {x1 y1 : β} (h : x = y) (h1 : x1 = y1) :
    (Except.ok (f x x1) : Except DecodeError Instr) = .ok (f y y1) := h ▸ h1 ▸ rfl

theorem same3 {α β γ : Type} (f : α → β → γ → Instr) {x y : α} {x1 y1 : β} {x2 y2 : γ} (h : x = y) (h1 : x1 = y1) (h2 : x2 = y2) :
    (Except.ok (f x x1 x2) : Except DecodeError Instr) = .ok (f y y1 y2) := h ▸ h1 ▸ h2 ▸ rfl

theorem same4 {α β γ δ : Type} (f : α → β → γ → δ → Instr) {x y : α} {x1 y1 : β} {x2 y2 : γ} {x3 y3 : δ} (h : x = y) (h1 : x1 = y1) (h2 : x2 = y2)
    (h3 : x3 = y3) : (Except.ok (f x x1 x2 x3) : Except DecodeError Instr) = .ok (f y y1 y2 y3) := h ▸ h1 ▸ h2 ▸ h3 ▸ rfl

/-- The four fields of an assembled word are the ones it was assembled from (R217). -/
theorem fields {op d a b : Nat} (h1 : op < 256) (h2 : d < 256) (h3 : a < 256) (h4 : b < 256) :
    opField (assemble op d a b) = op ∧ dField (assemble op d a b) = d ∧ aField (assemble op d a b) = a ∧ bField (assemble op d a b) = b := by
  have hn : (assemble op d a b).toNat = op * 2 ^ 24 + d * 2 ^ 16 + a * 2 ^ 8 + b := by
    simp only [assemble, BitVec.toNat_ofNat]
    omega
  simp only [opField, dField, aField, bField, hn]
  omega

/-- A word is judged by its four fields. -/
theorem word {i : Instr} {op d a b : Nat} (h1 : op < 256) (h2 : d < 256) (h3 : a < 256) (h4 : b < 256)
    (h : ∀ w, opField w = op → dField w = d → aField w = a → bField w = b → decode w = .ok i) {w : Word} (he : some (assemble op d a b) = some w) :
    decode w = .ok i := by
  cases he
  obtain ⟨e1, e2, e3, e4⟩ := fields h1 h2 h3 h4
  exact h _ e1 e2 e3 e4

/-- A step that has no word. -/
theorem none {i : Instr} (h : encode i = Option.none) : Statement i := fun _ w he => by
  rw [h] at he
  cases he

/-! ## The instruction words -/

theorem nop : Statement (.nop) := fun hw _ he => by
  exact word (by decide) (by decide) (by decide) (by decide) (fun _ h1 h2 h3 h4 => by unfold decode; rw [h1, h2, h3, h4]; exact rfl) he

theorem mov (d : Sel) (a : Sel) : Statement (.mov d a) := fun hw _ he => by
  have hw := and2 hw; exact word (by decide) (dst hw.1).1 (src hw.2).1 (by decide) (fun _ h1 h2 h3 h4 => by unfold decode; rw [h1, h2, h3, h4]; exact same2 Instr.mov (dst hw.1).2 (src hw.2).2) he

theorem mov2 (d : Sel) (a : Sel) : Statement (.mov2 d a) := fun hw _ he => by
  have hw := and2 hw; exact word (by decide) (dst hw.1).1 (src hw.2).1 (by decide) (fun _ h1 h2 h3 h4 => by unfold decode; rw [h1, h2, h3, h4]; exact same2 Instr.mov2 (dst hw.1).2 (src hw.2).2) he

theorem mov4 (d : Sel) (a : Sel) : Statement (.mov4 d a) := fun hw _ he => by
  have hw := and2 hw; exact word (by decide) (dst hw.1).1 (src hw.2).1 (by decide) (fun _ h1 h2 h3 h4 => by unfold decode; rw [h1, h2, h3, h4]; exact same2 Instr.mov4 (dst hw.1).2 (src hw.2).2) he

theorem sel (d : Sel) (a : Sel) (b : Sel) : Statement (.sel d a b) := fun hw _ he => by
  have hw := and3 hw; exact word (by decide) (dst hw.1.1).1 (src hw.1.2).1 (src hw.2).1 (fun _ h1 h2 h3 h4 => by unfold decode; rw [h1, h2, h3, h4]; exact same3 Instr.sel (dst hw.1.1).2 (src hw.1.2).2 (src hw.2).2) he

theorem setmode (a : Sel) : Statement (.setmode a) := fun hw _ he => by
  exact word (by decide) (by decide) (usrc hw).1 (by decide) (fun _ h1 h2 h3 h4 => by unfold decode; rw [h1, h2, h3, h4]; exact same1 Instr.setmode (usrc hw).2) he

theorem getmode (d : Sel) : Statement (.getmode d) := fun hw _ he => by
  exact word (by decide) (dst hw).1 (by decide) (by decide) (fun _ h1 h2 h3 h4 => by unfold decode; rw [h1, h2, h3, h4]; exact same1 Instr.getmode (dst hw).2) he

theorem rdsr (d : Sel) (a : Sel) : Statement (.rdsr d a) := fun hw _ he => by
  have hw := and2 hw; exact word (by decide) (dst hw.1).1 (usrc hw.2).1 (by decide) (fun _ h1 h2 h3 h4 => by unfold decode; rw [h1, h2, h3, h4]; exact same2 Instr.rdsr (dst hw.1).2 (usrc hw.2).2) he

theorem unif (d : Sel) (a : Sel) : Statement (.unif d a) := fun hw _ he => by
  have hw := and2 hw; exact word (by decide) (dst hw.1).1 (src hw.2).1 (by decide) (fun _ h1 h2 h3 h4 => by unfold decode; rw [h1, h2, h3, h4]; exact same2 Instr.unif (dst hw.1).2 (src hw.2).2) he

theorem wrsr (a : Sel) (b : Sel) : Statement (.wrsr a b) := fun hw _ he => by
  have hw := and2 hw; exact word (by decide) (by decide) (usrc hw.1).1 (usrc hw.2).1 (fun _ h1 h2 h3 h4 => by unfold decode; rw [h1, h2, h3, h4]; exact same2 Instr.wrsr (usrc hw.1).2 (usrc hw.2).2) he

theorem add (d : Sel) (a : Sel) (b : Sel) : Statement (.add d a b) := fun hw _ he => by
  have hw := and3 hw; exact word (by decide) (dst hw.1.1).1 (src hw.1.2).1 (src hw.2).1 (fun _ h1 h2 h3 h4 => by unfold decode; rw [h1, h2, h3, h4]; exact same3 Instr.add (dst hw.1.1).2 (src hw.1.2).2 (src hw.2).2) he

theorem sub (d : Sel) (a : Sel) (b : Sel) : Statement (.sub d a b) := fun hw _ he => by
  have hw := and3 hw; exact word (by decide) (dst hw.1.1).1 (src hw.1.2).1 (src hw.2).1 (fun _ h1 h2 h3 h4 => by unfold decode; rw [h1, h2, h3, h4]; exact same3 Instr.sub (dst hw.1.1).2 (src hw.1.2).2 (src hw.2).2) he

theorem mul (d : Sel) (a : Sel) (b : Sel) : Statement (.mul d a b) := fun hw _ he => by
  have hw := and3 hw; exact word (by decide) (dst hw.1.1).1 (src hw.1.2).1 (src hw.2).1 (fun _ h1 h2 h3 h4 => by unfold decode; rw [h1, h2, h3, h4]; exact same3 Instr.mul (dst hw.1.1).2 (src hw.1.2).2 (src hw.2).2) he

theorem mulhi (d : Sel) (a : Sel) (b : Sel) : Statement (.mulhi d a b) := fun hw _ he => by
  have hw := and3 hw; exact word (by decide) (dst hw.1.1).1 (src hw.1.2).1 (src hw.2).1 (fun _ h1 h2 h3 h4 => by unfold decode; rw [h1, h2, h3, h4]; exact same3 Instr.mulhi (dst hw.1.1).2 (src hw.1.2).2 (src hw.2).2) he

theorem mad (d : Sel) (a : Sel) (b : Sel) : Statement (.mad d a b) := fun hw _ he => by
  have hw := and3 hw; exact word (by decide) (dst hw.1.1).1 (src hw.1.2).1 (src hw.2).1 (fun _ h1 h2 h3 h4 => by unfold decode; rw [h1, h2, h3, h4]; exact same3 Instr.mad (dst hw.1.1).2 (src hw.1.2).2 (src hw.2).2) he

theorem abs (d : Sel) (a : Sel) : Statement (.abs d a) := fun hw _ he => by
  have hw := and2 hw; exact word (by decide) (dst hw.1).1 (src hw.2).1 (by decide) (fun _ h1 h2 h3 h4 => by unfold decode; rw [h1, h2, h3, h4]; exact same2 Instr.abs (dst hw.1).2 (src hw.2).2) he

theorem neg (d : Sel) (a : Sel) : Statement (.neg d a) := fun hw _ he => by
  have hw := and2 hw; exact word (by decide) (dst hw.1).1 (src hw.2).1 (by decide) (fun _ h1 h2 h3 h4 => by unfold decode; rw [h1, h2, h3, h4]; exact same2 Instr.neg (dst hw.1).2 (src hw.2).2) he

theorem min (d : Sel) (a : Sel) (b : Sel) : Statement (.min d a b) := fun hw _ he => by
  have hw := and3 hw; exact word (by decide) (dst hw.1.1).1 (src hw.1.2).1 (src hw.2).1 (fun _ h1 h2 h3 h4 => by unfold decode; rw [h1, h2, h3, h4]; exact same3 Instr.min (dst hw.1.1).2 (src hw.1.2).2 (src hw.2).2) he

theorem max (d : Sel) (a : Sel) (b : Sel) : Statement (.max d a b) := fun hw _ he => by
  have hw := and3 hw; exact word (by decide) (dst hw.1.1).1 (src hw.1.2).1 (src hw.2).1 (fun _ h1 h2 h3 h4 => by unfold decode; rw [h1, h2, h3, h4]; exact same3 Instr.max (dst hw.1.1).2 (src hw.1.2).2 (src hw.2).2) he

theorem div (d : Sel) (a : Sel) (b : Sel) : Statement (.div d a b) := fun hw _ he => by
  have hw := and3 hw; exact word (by decide) (dst hw.1.1).1 (src hw.1.2).1 (src hw.2).1 (fun _ h1 h2 h3 h4 => by unfold decode; rw [h1, h2, h3, h4]; exact same3 Instr.div (dst hw.1.1).2 (src hw.1.2).2 (src hw.2).2) he

theorem rem (d : Sel) (a : Sel) (b : Sel) : Statement (.rem d a b) := fun hw _ he => by
  have hw := and3 hw; exact word (by decide) (dst hw.1.1).1 (src hw.1.2).1 (src hw.2).1 (fun _ h1 h2 h3 h4 => by unfold decode; rw [h1, h2, h3, h4]; exact same3 Instr.rem (dst hw.1.1).2 (src hw.1.2).2 (src hw.2).2) he

theorem shl (d : Sel) (a : Sel) (b : Sel) : Statement (.shl d a b) := fun hw _ he => by
  have hw := and3 hw; exact word (by decide) (dst hw.1.1).1 (src hw.1.2).1 (src hw.2).1 (fun _ h1 h2 h3 h4 => by unfold decode; rw [h1, h2, h3, h4]; exact same3 Instr.shl (dst hw.1.1).2 (src hw.1.2).2 (src hw.2).2) he

theorem shr (d : Sel) (a : Sel) (b : Sel) : Statement (.shr d a b) := fun hw _ he => by
  have hw := and3 hw; exact word (by decide) (dst hw.1.1).1 (src hw.1.2).1 (src hw.2).1 (fun _ h1 h2 h3 h4 => by unfold decode; rw [h1, h2, h3, h4]; exact same3 Instr.shr (dst hw.1.1).2 (src hw.1.2).2 (src hw.2).2) he

theorem rot (d : Sel) (a : Sel) (b : Sel) : Statement (.rot d a b) := fun hw _ he => by
  have hw := and3 hw; exact word (by decide) (dst hw.1.1).1 (src hw.1.2).1 (src hw.2).1 (fun _ h1 h2 h3 h4 => by unfold decode; rw [h1, h2, h3, h4]; exact same3 Instr.rot (dst hw.1.1).2 (src hw.1.2).2 (src hw.2).2) he

theorem and (d : Sel) (a : Sel) (b : Sel) : Statement (.and d a b) := fun hw _ he => by
  have hw := and3 hw; exact word (by decide) (dst hw.1.1).1 (src hw.1.2).1 (src hw.2).1 (fun _ h1 h2 h3 h4 => by unfold decode; rw [h1, h2, h3, h4]; exact same3 Instr.and (dst hw.1.1).2 (src hw.1.2).2 (src hw.2).2) he

theorem or (d : Sel) (a : Sel) (b : Sel) : Statement (.or d a b) := fun hw _ he => by
  have hw := and3 hw; exact word (by decide) (dst hw.1.1).1 (src hw.1.2).1 (src hw.2).1 (fun _ h1 h2 h3 h4 => by unfold decode; rw [h1, h2, h3, h4]; exact same3 Instr.or (dst hw.1.1).2 (src hw.1.2).2 (src hw.2).2) he

theorem xor (d : Sel) (a : Sel) (b : Sel) : Statement (.xor d a b) := fun hw _ he => by
  have hw := and3 hw; exact word (by decide) (dst hw.1.1).1 (src hw.1.2).1 (src hw.2).1 (fun _ h1 h2 h3 h4 => by unfold decode; rw [h1, h2, h3, h4]; exact same3 Instr.xor (dst hw.1.1).2 (src hw.1.2).2 (src hw.2).2) he

theorem not (d : Sel) (a : Sel) : Statement (.not d a) := fun hw _ he => by
  have hw := and2 hw; exact word (by decide) (dst hw.1).1 (src hw.2).1 (by decide) (fun _ h1 h2 h3 h4 => by unfold decode; rw [h1, h2, h3, h4]; exact same2 Instr.not (dst hw.1).2 (src hw.2).2) he

theorem andn (d : Sel) (a : Sel) (b : Sel) : Statement (.andn d a b) := fun hw _ he => by
  have hw := and3 hw; exact word (by decide) (dst hw.1.1).1 (src hw.1.2).1 (src hw.2).1 (fun _ h1 h2 h3 h4 => by unfold decode; rw [h1, h2, h3, h4]; exact same3 Instr.andn (dst hw.1.1).2 (src hw.1.2).2 (src hw.2).2) he

theorem popc (d : Sel) (a : Sel) : Statement (.popc d a) := fun hw _ he => by
  have hw := and2 hw; exact word (by decide) (dst hw.1).1 (src hw.2).1 (by decide) (fun _ h1 h2 h3 h4 => by unfold decode; rw [h1, h2, h3, h4]; exact same2 Instr.popc (dst hw.1).2 (src hw.2).2) he

theorem clz (d : Sel) (a : Sel) : Statement (.clz d a) := fun hw _ he => by
  have hw := and2 hw; exact word (by decide) (dst hw.1).1 (src hw.2).1 (by decide) (fun _ h1 h2 h3 h4 => by unfold decode; rw [h1, h2, h3, h4]; exact same2 Instr.clz (dst hw.1).2 (src hw.2).2) he

theorem ctz (d : Sel) (a : Sel) : Statement (.ctz d a) := fun hw _ he => by
  have hw := and2 hw; exact word (by decide) (dst hw.1).1 (src hw.2).1 (by decide) (fun _ h1 h2 h3 h4 => by unfold decode; rw [h1, h2, h3, h4]; exact same2 Instr.ctz (dst hw.1).2 (src hw.2).2) he

theorem brev (d : Sel) (a : Sel) : Statement (.brev d a) := fun hw _ he => by
  have hw := and2 hw; exact word (by decide) (dst hw.1).1 (src hw.2).1 (by decide) (fun _ h1 h2 h3 h4 => by unfold decode; rw [h1, h2, h3, h4]; exact same2 Instr.brev (dst hw.1).2 (src hw.2).2) he

theorem bfe (d : Sel) (a : Sel) (b : Sel) : Statement (.bfe d a b) := fun hw _ he => by
  have hw := and3 hw; exact word (by decide) (dst hw.1.1).1 (src hw.1.2).1 (src hw.2).1 (fun _ h1 h2 h3 h4 => by unfold decode; rw [h1, h2, h3, h4]; exact same3 Instr.bfe (dst hw.1.1).2 (src hw.1.2).2 (src hw.2).2) he

theorem bfi (d : Sel) (a : Sel) (b : Sel) : Statement (.bfi d a b) := fun hw _ he => by
  have hw := and3 hw; exact word (by decide) (dst hw.1.1).1 (src hw.1.2).1 (src hw.2).1 (fun _ h1 h2 h3 h4 => by unfold decode; rw [h1, h2, h3, h4]; exact same3 Instr.bfi (dst hw.1.1).2 (src hw.1.2).2 (src hw.2).2) he

theorem cmp (c : Nat) (m : Nat) (a : Sel) (b : Sel) : Statement (.cmp c m a b) := fun hw _ he => by
  have hw := and3 hw; exact word (by decide) (cond hw.1.1).1 (src hw.1.2).1 (src hw.2).1 (fun _ h1 h2 h3 h4 => by unfold decode; rw [h1, h2, h3, h4]; exact same4 Instr.cmp (cond hw.1.1).2.1 (cond hw.1.1).2.2 (src hw.1.2).2 (src hw.2).2) he

theorem lea0 (d : Sel) (a : Sel) (b : Sel) : Statement (.lea0 d a b) := fun hw _ he => by
  have hw := and3 hw; exact word (by decide) (dst hw.1.1).1 (src hw.1.2).1 (src hw.2).1 (fun _ h1 h2 h3 h4 => by unfold decode; rw [h1, h2, h3, h4]; exact same3 Instr.lea0 (dst hw.1.1).2 (src hw.1.2).2 (src hw.2).2) he

theorem lea2 (d : Sel) (a : Sel) (b : Sel) : Statement (.lea2 d a b) := fun hw _ he => by
  have hw := and3 hw; exact word (by decide) (dst hw.1.1).1 (src hw.1.2).1 (src hw.2).1 (fun _ h1 h2 h3 h4 => by unfold decode; rw [h1, h2, h3, h4]; exact same3 Instr.lea2 (dst hw.1.1).2 (src hw.1.2).2 (src hw.2).2) he

theorem lea3 (d : Sel) (a : Sel) (b : Sel) : Statement (.lea3 d a b) := fun hw _ he => by
  have hw := and3 hw; exact word (by decide) (dst hw.1.1).1 (src hw.1.2).1 (src hw.2).1 (fun _ h1 h2 h3 h4 => by unfold decode; rw [h1, h2, h3, h4]; exact same3 Instr.lea3 (dst hw.1.1).2 (src hw.1.2).2 (src hw.2).2) he

theorem fadd (d : Sel) (a : Sel) (b : Sel) : Statement (.fadd d a b) := fun hw _ he => by
  have hw := and3 hw; exact word (by decide) (dst hw.1.1).1 (src hw.1.2).1 (src hw.2).1 (fun _ h1 h2 h3 h4 => by unfold decode; rw [h1, h2, h3, h4]; exact same3 Instr.fadd (dst hw.1.1).2 (src hw.1.2).2 (src hw.2).2) he

theorem fsub (d : Sel) (a : Sel) (b : Sel) : Statement (.fsub d a b) := fun hw _ he => by
  have hw := and3 hw; exact word (by decide) (dst hw.1.1).1 (src hw.1.2).1 (src hw.2).1 (fun _ h1 h2 h3 h4 => by unfold decode; rw [h1, h2, h3, h4]; exact same3 Instr.fsub (dst hw.1.1).2 (src hw.1.2).2 (src hw.2).2) he

theorem fmul (d : Sel) (a : Sel) (b : Sel) : Statement (.fmul d a b) := fun hw _ he => by
  have hw := and3 hw; exact word (by decide) (dst hw.1.1).1 (src hw.1.2).1 (src hw.2).1 (fun _ h1 h2 h3 h4 => by unfold decode; rw [h1, h2, h3, h4]; exact same3 Instr.fmul (dst hw.1.1).2 (src hw.1.2).2 (src hw.2).2) he

theorem fma (d : Sel) (a : Sel) (b : Sel) : Statement (.fma d a b) := fun hw _ he => by
  have hw := and3 hw; exact word (by decide) (dst hw.1.1).1 (src hw.1.2).1 (src hw.2).1 (fun _ h1 h2 h3 h4 => by unfold decode; rw [h1, h2, h3, h4]; exact same3 Instr.fma (dst hw.1.1).2 (src hw.1.2).2 (src hw.2).2) he

theorem fnma (d : Sel) (a : Sel) (b : Sel) : Statement (.fnma d a b) := fun hw _ he => by
  have hw := and3 hw; exact word (by decide) (dst hw.1.1).1 (src hw.1.2).1 (src hw.2).1 (fun _ h1 h2 h3 h4 => by unfold decode; rw [h1, h2, h3, h4]; exact same3 Instr.fnma (dst hw.1.1).2 (src hw.1.2).2 (src hw.2).2) he

theorem fmin (d : Sel) (a : Sel) (b : Sel) : Statement (.fmin d a b) := fun hw _ he => by
  have hw := and3 hw; exact word (by decide) (dst hw.1.1).1 (src hw.1.2).1 (src hw.2).1 (fun _ h1 h2 h3 h4 => by unfold decode; rw [h1, h2, h3, h4]; exact same3 Instr.fmin (dst hw.1.1).2 (src hw.1.2).2 (src hw.2).2) he

theorem fmax (d : Sel) (a : Sel) (b : Sel) : Statement (.fmax d a b) := fun hw _ he => by
  have hw := and3 hw; exact word (by decide) (dst hw.1.1).1 (src hw.1.2).1 (src hw.2).1 (fun _ h1 h2 h3 h4 => by unfold decode; rw [h1, h2, h3, h4]; exact same3 Instr.fmax (dst hw.1.1).2 (src hw.1.2).2 (src hw.2).2) he

theorem fabs (d : Sel) (a : Sel) : Statement (.fabs d a) := fun hw _ he => by
  have hw := and2 hw; exact word (by decide) (dst hw.1).1 (src hw.2).1 (by decide) (fun _ h1 h2 h3 h4 => by unfold decode; rw [h1, h2, h3, h4]; exact same2 Instr.fabs (dst hw.1).2 (src hw.2).2) he

theorem fneg (d : Sel) (a : Sel) : Statement (.fneg d a) := fun hw _ he => by
  have hw := and2 hw; exact word (by decide) (dst hw.1).1 (src hw.2).1 (by decide) (fun _ h1 h2 h3 h4 => by unfold decode; rw [h1, h2, h3, h4]; exact same2 Instr.fneg (dst hw.1).2 (src hw.2).2) he

theorem frint (d : Sel) (a : Sel) : Statement (.frint d a) := fun hw _ he => by
  have hw := and2 hw; exact word (by decide) (dst hw.1).1 (src hw.2).1 (by decide) (fun _ h1 h2 h3 h4 => by unfold decode; rw [h1, h2, h3, h4]; exact same2 Instr.frint (dst hw.1).2 (src hw.2).2) he

theorem fldexp (d : Sel) (a : Sel) (b : Sel) : Statement (.fldexp d a b) := fun hw _ he => by
  have hw := and3 hw; exact word (by decide) (dst hw.1.1).1 (src hw.1.2).1 (src hw.2).1 (fun _ h1 h2 h3 h4 => by unfold decode; rw [h1, h2, h3, h4]; exact same3 Instr.fldexp (dst hw.1.1).2 (src hw.1.2).2 (src hw.2).2) he

theorem fclass (d : Sel) (a : Sel) : Statement (.fclass d a) := fun hw _ he => by
  have hw := and2 hw; exact word (by decide) (dst hw.1).1 (src hw.2).1 (by decide) (fun _ h1 h2 h3 h4 => by unfold decode; rw [h1, h2, h3, h4]; exact same2 Instr.fclass (dst hw.1).2 (src hw.2).2) he

theorem fdiv (d : Sel) (a : Sel) (b : Sel) : Statement (.fdiv d a b) := fun hw _ he => by
  have hw := and3 hw; exact word (by decide) (dst hw.1.1).1 (src hw.1.2).1 (src hw.2).1 (fun _ h1 h2 h3 h4 => by unfold decode; rw [h1, h2, h3, h4]; exact same3 Instr.fdiv (dst hw.1.1).2 (src hw.1.2).2 (src hw.2).2) he

theorem fsqrt (d : Sel) (a : Sel) : Statement (.fsqrt d a) := fun hw _ he => by
  have hw := and2 hw; exact word (by decide) (dst hw.1).1 (src hw.2).1 (by decide) (fun _ h1 h2 h3 h4 => by unfold decode; rw [h1, h2, h3, h4]; exact same2 Instr.fsqrt (dst hw.1).2 (src hw.2).2) he

theorem frcp (d : Sel) (a : Sel) : Statement (.frcp d a) := fun hw _ he => by
  have hw := and2 hw; exact word (by decide) (dst hw.1).1 (src hw.2).1 (by decide) (fun _ h1 h2 h3 h4 => by unfold decode; rw [h1, h2, h3, h4]; exact same2 Instr.frcp (dst hw.1).2 (src hw.2).2) he

theorem frsq (d : Sel) (a : Sel) : Statement (.frsq d a) := fun hw _ he => by
  have hw := and2 hw; exact word (by decide) (dst hw.1).1 (src hw.2).1 (by decide) (fun _ h1 h2 h3 h4 => by unfold decode; rw [h1, h2, h3, h4]; exact same2 Instr.frsq (dst hw.1).2 (src hw.2).2) he

theorem fexp2 (d : Sel) (a : Sel) : Statement (.fexp2 d a) := fun hw _ he => by
  have hw := and2 hw; exact word (by decide) (dst hw.1).1 (src hw.2).1 (by decide) (fun _ h1 h2 h3 h4 => by unfold decode; rw [h1, h2, h3, h4]; exact same2 Instr.fexp2 (dst hw.1).2 (src hw.2).2) he

theorem flog2 (d : Sel) (a : Sel) : Statement (.flog2 d a) := fun hw _ he => by
  have hw := and2 hw; exact word (by decide) (dst hw.1).1 (src hw.2).1 (by decide) (fun _ h1 h2 h3 h4 => by unfold decode; rw [h1, h2, h3, h4]; exact same2 Instr.flog2 (dst hw.1).2 (src hw.2).2) he

theorem fsin (d : Sel) (a : Sel) : Statement (.fsin d a) := fun hw _ he => by
  have hw := and2 hw; exact word (by decide) (dst hw.1).1 (src hw.2).1 (by decide) (fun _ h1 h2 h3 h4 => by unfold decode; rw [h1, h2, h3, h4]; exact same2 Instr.fsin (dst hw.1).2 (src hw.2).2) he

theorem fcos (d : Sel) (a : Sel) : Statement (.fcos d a) := fun hw _ he => by
  have hw := and2 hw; exact word (by decide) (dst hw.1).1 (src hw.2).1 (by decide) (fun _ h1 h2 h3 h4 => by unfold decode; rw [h1, h2, h3, h4]; exact same2 Instr.fcos (dst hw.1).2 (src hw.2).2) he

theorem ftanh (d : Sel) (a : Sel) : Statement (.ftanh d a) := fun hw _ he => by
  have hw := and2 hw; exact word (by decide) (dst hw.1).1 (src hw.2).1 (by decide) (fun _ h1 h2 h3 h4 => by unfold decode; rw [h1, h2, h3, h4]; exact same2 Instr.ftanh (dst hw.1).2 (src hw.2).2) he

theorem fdot2 (d : Sel) (a : Sel) (b : Sel) : Statement (.fdot2 d a b) := fun hw _ he => by
  have hw := and3 hw; exact word (by decide) (dst hw.1.1).1 (src hw.1.2).1 (src hw.2).1 (fun _ h1 h2 h3 h4 => by unfold decode; rw [h1, h2, h3, h4]; exact same3 Instr.fdot2 (dst hw.1.1).2 (src hw.1.2).2 (src hw.2).2) he

theorem cvti (d : Sel) (a : Sel) : Statement (.cvti d a) := fun hw _ he => by
  have hw := and2 hw; exact word (by decide) (dst hw.1).1 (src hw.2).1 (by decide) (fun _ h1 h2 h3 h4 => by unfold decode; rw [h1, h2, h3, h4]; exact same2 Instr.cvti (dst hw.1).2 (src hw.2).2) he

theorem cvtn (d : Sel) (a : Sel) : Statement (.cvtn d a) := fun hw _ he => by
  have hw := and2 hw; exact word (by decide) (dst hw.1).1 (src hw.2).1 (by decide) (fun _ h1 h2 h3 h4 => by unfold decode; rw [h1, h2, h3, h4]; exact same2 Instr.cvtn (dst hw.1).2 (src hw.2).2) he

theorem cvtl (d : Sel) (a : Sel) : Statement (.cvtl d a) := fun hw _ he => by
  have hw := and2 hw; exact word (by decide) (dst hw.1).1 (src hw.2).1 (by decide) (fun _ h1 h2 h3 h4 => by unfold decode; rw [h1, h2, h3, h4]; exact same2 Instr.cvtl (dst hw.1).2 (src hw.2).2) he

theorem cvtf (d : Sel) (a : Sel) : Statement (.cvtf d a) := fun hw _ he => by
  have hw := and2 hw; exact word (by decide) (dst hw.1).1 (src hw.2).1 (by decide) (fun _ h1 h2 h3 h4 => by unfold decode; rw [h1, h2, h3, h4]; exact same2 Instr.cvtf (dst hw.1).2 (src hw.2).2) he

theorem cvtd (d : Sel) (a : Sel) : Statement (.cvtd d a) := fun hw _ he => by
  have hw := and2 hw; exact word (by decide) (dst hw.1).1 (src hw.2).1 (by decide) (fun _ h1 h2 h3 h4 => by unfold decode; rw [h1, h2, h3, h4]; exact same2 Instr.cvtd (dst hw.1).2 (src hw.2).2) he

theorem cvtb (d : Sel) (a : Sel) : Statement (.cvtb d a) := fun hw _ he => by
  have hw := and2 hw; exact word (by decide) (dst hw.1).1 (src hw.2).1 (by decide) (fun _ h1 h2 h3 h4 => by unfold decode; rw [h1, h2, h3, h4]; exact same2 Instr.cvtb (dst hw.1).2 (src hw.2).2) he

theorem cvth (d : Sel) (a : Sel) : Statement (.cvth d a) := fun hw _ he => by
  have hw := and2 hw; exact word (by decide) (dst hw.1).1 (src hw.2).1 (by decide) (fun _ h1 h2 h3 h4 => by unfold decode; rw [h1, h2, h3, h4]; exact same2 Instr.cvth (dst hw.1).2 (src hw.2).2) he

theorem pack2 (d : Sel) (a : Sel) (b : Sel) : Statement (.pack2 d a b) := fun hw _ he => by
  have hw := and3 hw; exact word (by decide) (dst hw.1.1).1 (src hw.1.2).1 (src hw.2).1 (fun _ h1 h2 h3 h4 => by unfold decode; rw [h1, h2, h3, h4]; exact same3 Instr.pack2 (dst hw.1.1).2 (src hw.1.2).2 (src hw.2).2) he

theorem rsadd (d : Sel) (a : Sel) (b : Sel) : Statement (.rsadd d a b) := fun hw _ he => by
  have hw := and3 hw; exact word (by decide) (dst hw.1.1).1 (src hw.1.2).1 (src hw.2).1 (fun _ h1 h2 h3 h4 => by unfold decode; rw [h1, h2, h3, h4]; exact same3 Instr.rsadd (dst hw.1.1).2 (src hw.1.2).2 (src hw.2).2) he

theorem rssub (d : Sel) (a : Sel) (b : Sel) : Statement (.rssub d a b) := fun hw _ he => by
  have hw := and3 hw; exact word (by decide) (dst hw.1.1).1 (src hw.1.2).1 (src hw.2).1 (fun _ h1 h2 h3 h4 => by unfold decode; rw [h1, h2, h3, h4]; exact same3 Instr.rssub (dst hw.1.1).2 (src hw.1.2).2 (src hw.2).2) he

theorem rsmul (d : Sel) (a : Sel) (b : Sel) : Statement (.rsmul d a b) := fun hw _ he => by
  have hw := and3 hw; exact word (by decide) (dst hw.1.1).1 (src hw.1.2).1 (src hw.2).1 (fun _ h1 h2 h3 h4 => by unfold decode; rw [h1, h2, h3, h4]; exact same3 Instr.rsmul (dst hw.1.1).2 (src hw.1.2).2 (src hw.2).2) he

theorem rsdiv (d : Sel) (a : Sel) (b : Sel) : Statement (.rsdiv d a b) := fun hw _ he => by
  have hw := and3 hw; exact word (by decide) (dst hw.1.1).1 (src hw.1.2).1 (src hw.2).1 (fun _ h1 h2 h3 h4 => by unfold decode; rw [h1, h2, h3, h4]; exact same3 Instr.rsdiv (dst hw.1.1).2 (src hw.1.2).2 (src hw.2).2) he

theorem rsneg (d : Sel) (a : Sel) : Statement (.rsneg d a) := fun hw _ he => by
  have hw := and2 hw; exact word (by decide) (dst hw.1).1 (src hw.2).1 (by decide) (fun _ h1 h2 h3 h4 => by unfold decode; rw [h1, h2, h3, h4]; exact same2 Instr.rsneg (dst hw.1).2 (src hw.2).2) he

theorem rsrcp (d : Sel) (a : Sel) : Statement (.rsrcp d a) := fun hw _ he => by
  have hw := and2 hw; exact word (by decide) (dst hw.1).1 (src hw.2).1 (by decide) (fun _ h1 h2 h3 h4 => by unfold decode; rw [h1, h2, h3, h4]; exact same2 Instr.rsrcp (dst hw.1).2 (src hw.2).2) he

theorem rssqr (d : Sel) (a : Sel) : Statement (.rssqr d a) := fun hw _ he => by
  have hw := and2 hw; exact word (by decide) (dst hw.1).1 (src hw.2).1 (by decide) (fun _ h1 h2 h3 h4 => by unfold decode; rw [h1, h2, h3, h4]; exact same2 Instr.rssqr (dst hw.1).2 (src hw.2).2) he

theorem rsunion (d : Sel) (a : Sel) (b : Sel) : Statement (.rsunion d a b) := fun hw _ he => by
  have hw := and3 hw; exact word (by decide) (dst hw.1.1).1 (src hw.1.2).1 (src hw.2).1 (fun _ h1 h2 h3 h4 => by unfold decode; rw [h1, h2, h3, h4]; exact same3 Instr.rsunion (dst hw.1.1).2 (src hw.1.2).2 (src hw.2).2) he

theorem rsisect (d : Sel) (a : Sel) (b : Sel) : Statement (.rsisect d a b) := fun hw _ he => by
  have hw := and3 hw; exact word (by decide) (dst hw.1.1).1 (src hw.1.2).1 (src hw.2).1 (fun _ h1 h2 h3 h4 => by unfold decode; rw [h1, h2, h3, h4]; exact same3 Instr.rsisect (dst hw.1.1).2 (src hw.1.2).2 (src hw.2).2) he

theorem rshull (d : Sel) (a : Sel) : Statement (.rshull d a) := fun hw _ he => by
  have hw := and2 hw; exact word (by decide) (dst hw.1).1 (src hw.2).1 (by decide) (fun _ h1 h2 h3 h4 => by unfold decode; rw [h1, h2, h3, h4]; exact same2 Instr.rshull (dst hw.1).2 (src hw.2).2) he

theorem rslo (d : Sel) (a : Sel) : Statement (.rslo d a) := fun hw _ he => by
  have hw := and2 hw; exact word (by decide) (dst hw.1).1 (src hw.2).1 (by decide) (fun _ h1 h2 h3 h4 => by unfold decode; rw [h1, h2, h3, h4]; exact same2 Instr.rslo (dst hw.1).2 (src hw.2).2) he

theorem rshi (d : Sel) (a : Sel) : Statement (.rshi d a) := fun hw _ he => by
  have hw := and2 hw; exact word (by decide) (dst hw.1).1 (src hw.2).1 (by decide) (fun _ h1 h2 h3 h4 => by unfold decode; rw [h1, h2, h3, h4]; exact same2 Instr.rshi (dst hw.1).2 (src hw.2).2) he

theorem rsconv (d : Sel) (a : Sel) (b : Sel) : Statement (.rsconv d a b) := fun hw _ he => by
  have hw := and3 hw; exact word (by decide) (dst hw.1.1).1 (src hw.1.2).1 (usrc hw.2).1 (fun _ h1 h2 h3 h4 => by unfold decode; rw [h1, h2, h3, h4]; exact same3 Instr.rsconv (dst hw.1.1).2 (src hw.1.2).2 (usrc hw.2).2) he

theorem ringld (a : Sel) (b : Sel) : Statement (.ringld a b) := fun hw _ he => by
  have hw := and2 hw; exact word (by decide) (by decide) (usrc hw.1).1 (usrc hw.2).1 (fun _ h1 h2 h3 h4 => by unfold decode; rw [h1, h2, h3, h4]; exact same2 Instr.ringld (usrc hw.1).2 (usrc hw.2).2) he

theorem ringq (d : Sel) (a : Sel) : Statement (.ringq d a) := fun hw _ he => by
  have hw := and2 hw; exact word (by decide) (dst hw.1).1 (src hw.2).1 (by decide) (fun _ h1 h2 h3 h4 => by unfold decode; rw [h1, h2, h3, h4]; exact same2 Instr.ringq (dst hw.1).2 (src hw.2).2) he

theorem shfl (d : Sel) (a : Sel) (b : Sel) : Statement (.shfl d a b) := fun hw _ he => by
  have hw := and3 hw; exact word (by decide) (dst hw.1.1).1 (src hw.1.2).1 (src hw.2).1 (fun _ h1 h2 h3 h4 => by unfold decode; rw [h1, h2, h3, h4]; exact same3 Instr.shfl (dst hw.1.1).2 (src hw.1.2).2 (src hw.2).2) he

theorem shflx (d : Sel) (a : Sel) (b : Sel) : Statement (.shflx d a b) := fun hw _ he => by
  have hw := and3 hw; exact word (by decide) (dst hw.1.1).1 (src hw.1.2).1 (src hw.2).1 (fun _ h1 h2 h3 h4 => by unfold decode; rw [h1, h2, h3, h4]; exact same3 Instr.shflx (dst hw.1.1).2 (src hw.1.2).2 (src hw.2).2) he

theorem shflup (d : Sel) (a : Sel) (b : Sel) : Statement (.shflup d a b) := fun hw _ he => by
  have hw := and3 hw; exact word (by decide) (dst hw.1.1).1 (src hw.1.2).1 (src hw.2).1 (fun _ h1 h2 h3 h4 => by unfold decode; rw [h1, h2, h3, h4]; exact same3 Instr.shflup (dst hw.1.1).2 (src hw.1.2).2 (src hw.2).2) he

theorem shfldn (d : Sel) (a : Sel) (b : Sel) : Statement (.shfldn d a b) := fun hw _ he => by
  have hw := and3 hw; exact word (by decide) (dst hw.1.1).1 (src hw.1.2).1 (src hw.2).1 (fun _ h1 h2 h3 h4 => by unfold decode; rw [h1, h2, h3, h4]; exact same3 Instr.shfldn (dst hw.1.1).2 (src hw.1.2).2 (src hw.2).2) he

theorem voteany (d : Sel) (a : Sel) : Statement (.voteany d a) := fun hw _ he => by
  have hw := and2 hw; exact word (by decide) (dst hw.1).1 (src hw.2).1 (by decide) (fun _ h1 h2 h3 h4 => by unfold decode; rw [h1, h2, h3, h4]; exact same2 Instr.voteany (dst hw.1).2 (src hw.2).2) he

theorem voteall (d : Sel) (a : Sel) : Statement (.voteall d a) := fun hw _ he => by
  have hw := and2 hw; exact word (by decide) (dst hw.1).1 (src hw.2).1 (by decide) (fun _ h1 h2 h3 h4 => by unfold decode; rw [h1, h2, h3, h4]; exact same2 Instr.voteall (dst hw.1).2 (src hw.2).2) he

theorem ballot (d : Sel) (a : Sel) : Statement (.ballot d a) := fun hw _ he => by
  have hw := and2 hw; exact word (by decide) (dst hw.1).1 (src hw.2).1 (by decide) (fun _ h1 h2 h3 h4 => by unfold decode; rw [h1, h2, h3, h4]; exact same2 Instr.ballot (dst hw.1).2 (src hw.2).2) he

theorem redadd (d : Sel) (a : Sel) : Statement (.redadd d a) := fun hw _ he => by
  have hw := and2 hw; exact word (by decide) (dst hw.1).1 (src hw.2).1 (by decide) (fun _ h1 h2 h3 h4 => by unfold decode; rw [h1, h2, h3, h4]; exact same2 Instr.redadd (dst hw.1).2 (src hw.2).2) he

theorem redmin (d : Sel) (a : Sel) : Statement (.redmin d a) := fun hw _ he => by
  have hw := and2 hw; exact word (by decide) (dst hw.1).1 (src hw.2).1 (by decide) (fun _ h1 h2 h3 h4 => by unfold decode; rw [h1, h2, h3, h4]; exact same2 Instr.redmin (dst hw.1).2 (src hw.2).2) he

theorem redmax (d : Sel) (a : Sel) : Statement (.redmax d a) := fun hw _ he => by
  have hw := and2 hw; exact word (by decide) (dst hw.1).1 (src hw.2).1 (by decide) (fun _ h1 h2 h3 h4 => by unfold decode; rw [h1, h2, h3, h4]; exact same2 Instr.redmax (dst hw.1).2 (src hw.2).2) he

theorem redor (d : Sel) (a : Sel) : Statement (.redor d a) := fun hw _ he => by
  have hw := and2 hw; exact word (by decide) (dst hw.1).1 (src hw.2).1 (by decide) (fun _ h1 h2 h3 h4 => by unfold decode; rw [h1, h2, h3, h4]; exact same2 Instr.redor (dst hw.1).2 (src hw.2).2) he

theorem redun (d : Sel) (a : Sel) : Statement (.redun d a) := fun hw _ he => by
  have hw := and2 hw; exact word (by decide) (dst hw.1).1 (src hw.2).1 (by decide) (fun _ h1 h2 h3 h4 => by unfold decode; rw [h1, h2, h3, h4]; exact same2 Instr.redun (dst hw.1).2 (src hw.2).2) he

theorem scanadd (d : Sel) (a : Sel) : Statement (.scanadd d a) := fun hw _ he => by
  have hw := and2 hw; exact word (by decide) (dst hw.1).1 (src hw.2).1 (by decide) (fun _ h1 h2 h3 h4 => by unfold decode; rw [h1, h2, h3, h4]; exact same2 Instr.scanadd (dst hw.1).2 (src hw.2).2) he

theorem confd (d : Sel) (a : Sel) : Statement (.confd d a) := fun hw _ he => by
  have hw := and2 hw; exact word (by decide) (dst hw.1).1 (src hw.2).1 (by decide) (fun _ h1 h2 h3 h4 => by unfold decode; rw [h1, h2, h3, h4]; exact same2 Instr.confd (dst hw.1).2 (src hw.2).2) he

theorem xfence : Statement (.xfence) := fun hw _ he => by
  exact word (by decide) (by decide) (by decide) (by decide) (fun _ h1 h2 h3 h4 => by unfold decode; rw [h1, h2, h3, h4]; exact rfl) he

theorem keyadd (d : Sel) (a : Sel) (b : Sel) : Statement (.keyadd d a b) := fun hw _ he => by
  have hw := and3 hw; exact word (by decide) (dst hw.1.1).1 (src hw.1.2).1 (src hw.2).1 (fun _ h1 h2 h3 h4 => by unfold decode; rw [h1, h2, h3, h4]; exact same3 Instr.keyadd (dst hw.1.1).2 (src hw.1.2).2 (src hw.2).2) he

theorem mand (d : Nat) (a : Nat) (b : Nat) : Statement (.mand d a b) := fun hw _ he => by
  have hw := and3 hw; exact word (by decide) (mask hw.1.1) (mask hw.1.2) (mask hw.2) (fun _ h1 h2 h3 h4 => by unfold decode; rw [h1, h2, h3, h4]; exact same3 Instr.mand rfl rfl rfl) he

theorem mor (d : Nat) (a : Nat) (b : Nat) : Statement (.mor d a b) := fun hw _ he => by
  have hw := and3 hw; exact word (by decide) (mask hw.1.1) (mask hw.1.2) (mask hw.2) (fun _ h1 h2 h3 h4 => by unfold decode; rw [h1, h2, h3, h4]; exact same3 Instr.mor rfl rfl rfl) he

theorem mxor (d : Nat) (a : Nat) (b : Nat) : Statement (.mxor d a b) := fun hw _ he => by
  have hw := and3 hw; exact word (by decide) (mask hw.1.1) (mask hw.1.2) (mask hw.2) (fun _ h1 h2 h3 h4 => by unfold decode; rw [h1, h2, h3, h4]; exact same3 Instr.mxor rfl rfl rfl) he

theorem mnot (d : Nat) (a : Nat) : Statement (.mnot d a) := fun hw _ he => by
  have hw := and2 hw; exact word (by decide) (mask hw.1) (mask hw.2) (by decide) (fun _ h1 h2 h3 h4 => by unfold decode; rw [h1, h2, h3, h4]; exact same2 Instr.mnot rfl rfl) he

theorem mandn (d : Nat) (a : Nat) (b : Nat) : Statement (.mandn d a b) := fun hw _ he => by
  have hw := and3 hw; exact word (by decide) (mask hw.1.1) (mask hw.1.2) (mask hw.2) (fun _ h1 h2 h3 h4 => by unfold decode; rw [h1, h2, h3, h4]; exact same3 Instr.mandn rfl rfl rfl) he

theorem mmov (d : Nat) (a : Nat) : Statement (.mmov d a) := fun hw _ he => by
  have hw := and2 hw; exact word (by decide) (mask hw.1) (mask hw.2) (by decide) (fun _ h1 h2 h3 h4 => by unfold decode; rw [h1, h2, h3, h4]; exact same2 Instr.mmov rfl rfl) he

theorem mpopc (d : Sel) (a : Nat) : Statement (.mpopc d a) := fun hw _ he => by
  have hw := and2 hw; exact word (by decide) (dst hw.1).1 (mask hw.2) (by decide) (fun _ h1 h2 h3 h4 => by unfold decode; rw [h1, h2, h3, h4]; exact same2 Instr.mpopc (dst hw.1).2 rfl) he

theorem mfirst (d : Sel) (a : Nat) : Statement (.mfirst d a) := fun hw _ he => by
  have hw := and2 hw; exact word (by decide) (dst hw.1).1 (mask hw.2) (by decide) (fun _ h1 h2 h3 h4 => by unfold decode; rw [h1, h2, h3, h4]; exact same2 Instr.mfirst (dst hw.1).2 rfl) he

theorem mget (d : Sel) (a : Nat) (b : Sel) : Statement (.mget d a b) := fun hw _ he => by
  have hw := and3 hw; exact word (by decide) (dst hw.1.1).1 (mask hw.1.2) (usrc hw.2).1 (fun _ h1 h2 h3 h4 => by unfold decode; rw [h1, h2, h3, h4]; exact same3 Instr.mget (dst hw.1.1).2 rfl (usrc hw.2).2) he

theorem mset (d : Nat) (a : Sel) (b : Sel) : Statement (.mset d a b) := fun hw _ he => by
  have hw := and3 hw; exact word (by decide) (mask hw.1.1) (usrc hw.1.2).1 (usrc hw.2).1 (fun _ h1 h2 h3 h4 => by unfold decode; rw [h1, h2, h3, h4]; exact same3 Instr.mset rfl (usrc hw.1.2).2 (usrc hw.2).2) he

theorem msave (d : Nat) (a : Sel) : Statement (.msave d a) := fun hw _ he => by
  have hw := and2 hw; exact word (by decide) (mask hw.1) (usrc hw.2).1 (by decide) (fun _ h1 h2 h3 h4 => by unfold decode; rw [h1, h2, h3, h4]; exact same2 Instr.msave rfl (usrc hw.2).2) he

theorem mload (d : Nat) (a : Sel) : Statement (.mload d a) := fun hw _ he => by
  have hw := and2 hw; exact word (by decide) (mask hw.1) (usrc hw.2).1 (by decide) (fun _ h1 h2 h3 h4 => by unfold decode; rw [h1, h2, h3, h4]; exact same2 Instr.mload rfl (usrc hw.2).2) he

theorem mall (d : Nat) : Statement (.mall d) := fun hw _ he => by
  exact word (by decide) (mask hw) (by decide) (by decide) (fun _ h1 h2 h3 h4 => by unfold decode; rw [h1, h2, h3, h4]; exact same1 Instr.mall rfl) he

theorem ld (d : Sel) (a : Sel) (b : Sel) : Statement (.ld d a b) := fun hw _ he => by
  have hw := and3 hw; exact word (by decide) (dst hw.1.1).1 (src hw.1.2).1 (src hw.2).1 (fun _ h1 h2 h3 h4 => by unfold decode; rw [h1, h2, h3, h4]; exact same3 Instr.ld (dst hw.1.1).2 (src hw.1.2).2 (src hw.2).2) he

theorem ldb (d : Sel) (a : Sel) (b : Sel) : Statement (.ldb d a b) := fun hw _ he => by
  have hw := and3 hw; exact word (by decide) (dst hw.1.1).1 (src hw.1.2).1 (src hw.2).1 (fun _ h1 h2 h3 h4 => by unfold decode; rw [h1, h2, h3, h4]; exact same3 Instr.ldb (dst hw.1.1).2 (src hw.1.2).2 (src hw.2).2) he

theorem ldh (d : Sel) (a : Sel) (b : Sel) : Statement (.ldh d a b) := fun hw _ he => by
  have hw := and3 hw; exact word (by decide) (dst hw.1.1).1 (src hw.1.2).1 (src hw.2).1 (fun _ h1 h2 h3 h4 => by unfold decode; rw [h1, h2, h3, h4]; exact same3 Instr.ldh (dst hw.1.1).2 (src hw.1.2).2 (src hw.2).2) he

theorem st (d : Sel) (a : Sel) (b : Sel) : Statement (.st d a b) := fun hw _ he => by
  have hw := and3 hw; exact word (by decide) (src hw.1.1).1 (src hw.1.2).1 (src hw.2).1 (fun _ h1 h2 h3 h4 => by unfold decode; rw [h1, h2, h3, h4]; exact same3 Instr.st (src hw.1.1).2 (src hw.1.2).2 (src hw.2).2) he

theorem stb (d : Sel) (a : Sel) (b : Sel) : Statement (.stb d a b) := fun hw _ he => by
  have hw := and3 hw; exact word (by decide) (src hw.1.1).1 (src hw.1.2).1 (src hw.2).1 (fun _ h1 h2 h3 h4 => by unfold decode; rw [h1, h2, h3, h4]; exact same3 Instr.stb (src hw.1.1).2 (src hw.1.2).2 (src hw.2).2) he

theorem sth (d : Sel) (a : Sel) (b : Sel) : Statement (.sth d a b) := fun hw _ he => by
  have hw := and3 hw; exact word (by decide) (src hw.1.1).1 (src hw.1.2).1 (src hw.2).1 (fun _ h1 h2 h3 h4 => by unfold decode; rw [h1, h2, h3, h4]; exact same3 Instr.sth (src hw.1.1).2 (src hw.1.2).2 (src hw.2).2) he

theorem ldw (d : Sel) (a : Sel) (b : Sel) : Statement (.ldw d a b) := fun hw _ he => by
  have hw := and3 hw; exact word (by decide) (dst hw.1.1).1 (src hw.1.2).1 (src hw.2).1 (fun _ h1 h2 h3 h4 => by unfold decode; rw [h1, h2, h3, h4]; exact same3 Instr.ldw (dst hw.1.1).2 (src hw.1.2).2 (src hw.2).2) he

theorem stw (d : Sel) (a : Sel) (b : Sel) : Statement (.stw d a b) := fun hw _ he => by
  have hw := and3 hw; exact word (by decide) (src hw.1.1).1 (src hw.1.2).1 (src hw.2).1 (fun _ h1 h2 h3 h4 => by unfold decode; rw [h1, h2, h3, h4]; exact same3 Instr.stw (src hw.1.1).2 (src hw.1.2).2 (src hw.2).2) he

theorem sld (d : Sel) (a : Sel) (b : Sel) : Statement (.sld d a b) := fun hw _ he => by
  have hw := and3 hw; exact word (by decide) (dst hw.1.1).1 (src hw.1.2).1 (src hw.2).1 (fun _ h1 h2 h3 h4 => by unfold decode; rw [h1, h2, h3, h4]; exact same3 Instr.sld (dst hw.1.1).2 (src hw.1.2).2 (src hw.2).2) he

theorem sst (d : Sel) (a : Sel) (b : Sel) : Statement (.sst d a b) := fun hw _ he => by
  have hw := and3 hw; exact word (by decide) (src hw.1.1).1 (src hw.1.2).1 (src hw.2).1 (fun _ h1 h2 h3 h4 => by unfold decode; rw [h1, h2, h3, h4]; exact same3 Instr.sst (src hw.1.1).2 (src hw.1.2).2 (src hw.2).2) he

theorem pref (a : Sel) (b : Sel) : Statement (.pref a b) := fun hw _ he => by
  have hw := and2 hw; exact word (by decide) (by decide) (src hw.1).1 (src hw.2).1 (fun _ h1 h2 h3 h4 => by unfold decode; rw [h1, h2, h3, h4]; exact same2 Instr.pref (src hw.1).2 (src hw.2).2) he

theorem reshint (a : Sel) (b : Sel) : Statement (.reshint a b) := fun hw _ he => by
  have hw := and2 hw; exact word (by decide) (by decide) (src hw.1).1 (src hw.2).1 (fun _ h1 h2 h3 h4 => by unfold decode; rw [h1, h2, h3, h4]; exact same2 Instr.reshint (src hw.1).2 (src hw.2).2) he

theorem aadd (d : Sel) (a : Sel) (b : Sel) : Statement (.aadd d a b) := fun hw _ he => by
  have hw := and3 hw; exact word (by decide) (dst hw.1.1).1 (src hw.1.2).1 (src hw.2).1 (fun _ h1 h2 h3 h4 => by unfold decode; rw [h1, h2, h3, h4]; exact same3 Instr.aadd (dst hw.1.1).2 (src hw.1.2).2 (src hw.2).2) he

theorem amin (d : Sel) (a : Sel) (b : Sel) : Statement (.amin d a b) := fun hw _ he => by
  have hw := and3 hw; exact word (by decide) (dst hw.1.1).1 (src hw.1.2).1 (src hw.2).1 (fun _ h1 h2 h3 h4 => by unfold decode; rw [h1, h2, h3, h4]; exact same3 Instr.amin (dst hw.1.1).2 (src hw.1.2).2 (src hw.2).2) he

theorem amax (d : Sel) (a : Sel) (b : Sel) : Statement (.amax d a b) := fun hw _ he => by
  have hw := and3 hw; exact word (by decide) (dst hw.1.1).1 (src hw.1.2).1 (src hw.2).1 (fun _ h1 h2 h3 h4 => by unfold decode; rw [h1, h2, h3, h4]; exact same3 Instr.amax (dst hw.1.1).2 (src hw.1.2).2 (src hw.2).2) he

theorem aand (d : Sel) (a : Sel) (b : Sel) : Statement (.aand d a b) := fun hw _ he => by
  have hw := and3 hw; exact word (by decide) (dst hw.1.1).1 (src hw.1.2).1 (src hw.2).1 (fun _ h1 h2 h3 h4 => by unfold decode; rw [h1, h2, h3, h4]; exact same3 Instr.aand (dst hw.1.1).2 (src hw.1.2).2 (src hw.2).2) he

theorem aor (d : Sel) (a : Sel) (b : Sel) : Statement (.aor d a b) := fun hw _ he => by
  have hw := and3 hw; exact word (by decide) (dst hw.1.1).1 (src hw.1.2).1 (src hw.2).1 (fun _ h1 h2 h3 h4 => by unfold decode; rw [h1, h2, h3, h4]; exact same3 Instr.aor (dst hw.1.1).2 (src hw.1.2).2 (src hw.2).2) he

theorem axor (d : Sel) (a : Sel) (b : Sel) : Statement (.axor d a b) := fun hw _ he => by
  have hw := and3 hw; exact word (by decide) (dst hw.1.1).1 (src hw.1.2).1 (src hw.2).1 (fun _ h1 h2 h3 h4 => by unfold decode; rw [h1, h2, h3, h4]; exact same3 Instr.axor (dst hw.1.1).2 (src hw.1.2).2 (src hw.2).2) he

theorem axchg (d : Sel) (a : Sel) (b : Sel) : Statement (.axchg d a b) := fun hw _ he => by
  have hw := and3 hw; exact word (by decide) (dst hw.1.1).1 (src hw.1.2).1 (src hw.2).1 (fun _ h1 h2 h3 h4 => by unfold decode; rw [h1, h2, h3, h4]; exact same3 Instr.axchg (dst hw.1.1).2 (src hw.1.2).2 (src hw.2).2) he

theorem acas (d : Sel) (a : Sel) (b : Sel) : Statement (.acas d a b) := fun hw _ he => by
  have hw := and3 hw; exact word (by decide) (dst hw.1.1).1 (src hw.1.2).1 (src hw.2).1 (fun _ h1 h2 h3 h4 => by unfold decode; rw [h1, h2, h3, h4]; exact same3 Instr.acas (dst hw.1.1).2 (src hw.1.2).2 (src hw.2).2) he

theorem acasw (d : Sel) (a : Sel) (b : Sel) : Statement (.acasw d a b) := fun hw _ he => by
  have hw := and3 hw; exact word (by decide) (dst hw.1.1).1 (src hw.1.2).1 (src hw.2).1 (fun _ h1 h2 h3 h4 => by unfold decode; rw [h1, h2, h3, h4]; exact same3 Instr.acasw (dst hw.1.1).2 (src hw.1.2).2 (src hw.2).2) he

theorem afadd (d : Sel) (a : Sel) (b : Sel) : Statement (.afadd d a b) := fun hw _ he => by
  have hw := and3 hw; exact word (by decide) (dst hw.1.1).1 (src hw.1.2).1 (src hw.2).1 (fun _ h1 h2 h3 h4 => by unfold decode; rw [h1, h2, h3, h4]; exact same3 Instr.afadd (dst hw.1.1).2 (src hw.1.2).2 (src hw.2).2) he

theorem afmin (d : Sel) (a : Sel) (b : Sel) : Statement (.afmin d a b) := fun hw _ he => by
  have hw := and3 hw; exact word (by decide) (dst hw.1.1).1 (src hw.1.2).1 (src hw.2).1 (fun _ h1 h2 h3 h4 => by unfold decode; rw [h1, h2, h3, h4]; exact same3 Instr.afmin (dst hw.1.1).2 (src hw.1.2).2 (src hw.2).2) he

theorem afmax (d : Sel) (a : Sel) (b : Sel) : Statement (.afmax d a b) := fun hw _ he => by
  have hw := and3 hw; exact word (by decide) (dst hw.1.1).1 (src hw.1.2).1 (src hw.2).1 (fun _ h1 h2 h3 h4 => by unfold decode; rw [h1, h2, h3, h4]; exact same3 Instr.afmax (dst hw.1.1).2 (src hw.1.2).2 (src hw.2).2) he

theorem stadd (d : Sel) (a : Sel) (b : Sel) : Statement (.stadd d a b) := fun hw _ he => by
  have hw := and3 hw; exact word (by decide) (src hw.1.1).1 (src hw.1.2).1 (src hw.2).1 (fun _ h1 h2 h3 h4 => by unfold decode; rw [h1, h2, h3, h4]; exact same3 Instr.stadd (src hw.1.1).2 (src hw.1.2).2 (src hw.2).2) he

theorem stmin (d : Sel) (a : Sel) (b : Sel) : Statement (.stmin d a b) := fun hw _ he => by
  have hw := and3 hw; exact word (by decide) (src hw.1.1).1 (src hw.1.2).1 (src hw.2).1 (fun _ h1 h2 h3 h4 => by unfold decode; rw [h1, h2, h3, h4]; exact same3 Instr.stmin (src hw.1.1).2 (src hw.1.2).2 (src hw.2).2) he

theorem stmax (d : Sel) (a : Sel) (b : Sel) : Statement (.stmax d a b) := fun hw _ he => by
  have hw := and3 hw; exact word (by decide) (src hw.1.1).1 (src hw.1.2).1 (src hw.2).1 (fun _ h1 h2 h3 h4 => by unfold decode; rw [h1, h2, h3, h4]; exact same3 Instr.stmax (src hw.1.1).2 (src hw.1.2).2 (src hw.2).2) he

theorem stand (d : Sel) (a : Sel) (b : Sel) : Statement (.stand d a b) := fun hw _ he => by
  have hw := and3 hw; exact word (by decide) (src hw.1.1).1 (src hw.1.2).1 (src hw.2).1 (fun _ h1 h2 h3 h4 => by unfold decode; rw [h1, h2, h3, h4]; exact same3 Instr.stand (src hw.1.1).2 (src hw.1.2).2 (src hw.2).2) he

theorem stor (d : Sel) (a : Sel) (b : Sel) : Statement (.stor d a b) := fun hw _ he => by
  have hw := and3 hw; exact word (by decide) (src hw.1.1).1 (src hw.1.2).1 (src hw.2).1 (fun _ h1 h2 h3 h4 => by unfold decode; rw [h1, h2, h3, h4]; exact same3 Instr.stor (src hw.1.1).2 (src hw.1.2).2 (src hw.2).2) he

theorem stxor (d : Sel) (a : Sel) (b : Sel) : Statement (.stxor d a b) := fun hw _ he => by
  have hw := and3 hw; exact word (by decide) (src hw.1.1).1 (src hw.1.2).1 (src hw.2).1 (fun _ h1 h2 h3 h4 => by unfold decode; rw [h1, h2, h3, h4]; exact same3 Instr.stxor (src hw.1.1).2 (src hw.1.2).2 (src hw.2).2) he

theorem stfadd (d : Sel) (a : Sel) (b : Sel) : Statement (.stfadd d a b) := fun hw _ he => by
  have hw := and3 hw; exact word (by decide) (src hw.1.1).1 (src hw.1.2).1 (src hw.2).1 (fun _ h1 h2 h3 h4 => by unfold decode; rw [h1, h2, h3, h4]; exact same3 Instr.stfadd (src hw.1.1).2 (src hw.1.2).2 (src hw.2).2) he

theorem stfmin (d : Sel) (a : Sel) (b : Sel) : Statement (.stfmin d a b) := fun hw _ he => by
  have hw := and3 hw; exact word (by decide) (src hw.1.1).1 (src hw.1.2).1 (src hw.2).1 (fun _ h1 h2 h3 h4 => by unfold decode; rw [h1, h2, h3, h4]; exact same3 Instr.stfmin (src hw.1.1).2 (src hw.1.2).2 (src hw.2).2) he

theorem stfmax (d : Sel) (a : Sel) (b : Sel) : Statement (.stfmax d a b) := fun hw _ he => by
  have hw := and3 hw; exact word (by decide) (src hw.1.1).1 (src hw.1.2).1 (src hw.2).1 (fun _ h1 h2 h3 h4 => by unfold decode; rw [h1, h2, h3, h4]; exact same3 Instr.stfmax (src hw.1.1).2 (src hw.1.2).2 (src hw.2).2) he

theorem qlock (d : Sel) (a : Sel) : Statement (.qlock d a) := fun hw _ he => by
  have hw := and2 hw; exact word (by decide) (dst hw.1).1 (usrc hw.2).1 (by decide) (fun _ h1 h2 h3 h4 => by unfold decode; rw [h1, h2, h3, h4]; exact same2 Instr.qlock (dst hw.1).2 (usrc hw.2).2) he

theorem qunlock (a : Sel) : Statement (.qunlock a) := fun hw _ he => by
  exact word (by decide) (by decide) (usrc hw).1 (by decide) (fun _ h1 h2 h3 h4 => by unfold decode; rw [h1, h2, h3, h4]; exact same1 Instr.qunlock (usrc hw).2) he

theorem release : Statement (.release) := fun hw _ he => by
  exact word (by decide) (by decide) (by decide) (by decide) (fun _ h1 h2 h3 h4 => by unfold decode; rw [h1, h2, h3, h4]; exact rfl) he

theorem acquire : Statement (.acquire) := fun hw _ he => by
  exact word (by decide) (by decide) (by decide) (by decide) (fun _ h1 h2 h3 h4 => by unfold decode; rw [h1, h2, h3, h4]; exact rfl) he

theorem fence : Statement (.fence) := fun hw _ he => by
  exact word (by decide) (by decide) (by decide) (by decide) (fun _ h1 h2 h3 h4 => by unfold decode; rw [h1, h2, h3, h4]; exact rfl) he

theorem fetch (d : Sel) (a : Sel) (b : Sel) : Statement (.fetch d a b) := fun hw _ he => by
  have hw := and3 hw; exact word (by decide) (dst hw.1.1).1 (usrc hw.1.2).1 (src hw.2).1 (fun _ h1 h2 h3 h4 => by unfold decode; rw [h1, h2, h3, h4]; exact same3 Instr.fetch (dst hw.1.1).2 (usrc hw.1.2).2 (src hw.2).2) he

theorem fetch2 (d : Sel) (a : Sel) (b : Sel) : Statement (.fetch2 d a b) := fun hw _ he => by
  have hw := and3 hw; exact word (by decide) (dst hw.1.1).1 (usrc hw.1.2).1 (src hw.2).1 (fun _ h1 h2 h3 h4 => by unfold decode; rw [h1, h2, h3, h4]; exact same3 Instr.fetch2 (dst hw.1.1).2 (usrc hw.1.2).2 (src hw.2).2) he

theorem hbind (a : Sel) (b : Sel) : Statement (.hbind a b) := fun hw _ he => by
  have hw := and2 hw; exact word (by decide) (by decide) (usrc hw.1).1 (usrc hw.2).1 (fun _ h1 h2 h3 h4 => by unfold decode; rw [h1, h2, h3, h4]; exact same2 Instr.hbind (usrc hw.1).2 (usrc hw.2).2) he

theorem card (d : Sel) (a : Sel) : Statement (.card d a) := fun hw _ he => by
  have hw := and2 hw; exact word (by decide) (dst hw.1).1 (usrc hw.2).1 (by decide) (fun _ h1 h2 h3 h4 => by unfold decode; rw [h1, h2, h3, h4]; exact same2 Instr.card (dst hw.1).2 (usrc hw.2).2) he

theorem cwait (a : Sel) : Statement (.cwait a) := fun hw _ he => by
  exact word (by decide) (by decide) (usrc hw).1 (by decide) (fun _ h1 h2 h3 h4 => by unfold decode; rw [h1, h2, h3, h4]; exact same1 Instr.cwait (usrc hw).2) he

theorem cpoll (d : Sel) (a : Sel) : Statement (.cpoll d a) := fun hw _ he => by
  have hw := and2 hw; exact word (by decide) (dst hw.1).1 (usrc hw.2).1 (by decide) (fun _ h1 h2 h3 h4 => by unfold decode; rw [h1, h2, h3, h4]; exact same2 Instr.cpoll (dst hw.1).2 (usrc hw.2).2) he

theorem isect (d : Sel) (a : Sel) (b : Sel) : Statement (.isect d a b) := fun hw _ he => by
  have hw := and3 hw; exact word (by decide) (dst hw.1.1).1 (src hw.1.2).1 (src hw.2).1 (fun _ h1 h2 h3 h4 => by unfold decode; rw [h1, h2, h3, h4]; exact same3 Instr.isect (dst hw.1.1).2 (src hw.1.2).2 (src hw.2).2) he

theorem merge (d : Sel) (a : Sel) (b : Sel) : Statement (.merge d a b) := fun hw _ he => by
  have hw := and3 hw; exact word (by decide) (dst hw.1.1).1 (src hw.1.2).1 (src hw.2).1 (fun _ h1 h2 h3 h4 => by unfold decode; rw [h1, h2, h3, h4]; exact same3 Instr.merge (dst hw.1.1).2 (src hw.1.2).2 (src hw.2).2) he

theorem mpsplit (d : Sel) (a : Sel) (b : Sel) : Statement (.mpsplit d a b) := fun hw _ he => by
  have hw := and3 hw; exact word (by decide) (dst hw.1.1).1 (src hw.1.2).1 (src hw.2).1 (fun _ h1 h2 h3 h4 => by unfold decode; rw [h1, h2, h3, h4]; exact same3 Instr.mpsplit (dst hw.1.1).2 (src hw.1.2).2 (src hw.2).2) he

theorem mloop (a : Sel) : Statement (.mloop a) := fun hw _ he => by
  exact word (by decide) (by decide) (usrc hw).1 (by decide) (fun _ h1 h2 h3 h4 => by unfold decode; rw [h1, h2, h3, h4]; exact same1 Instr.mloop (usrc hw).2) he

theorem mbatch (d : Sel) : Statement (.mbatch d) := fun hw _ he => by
  exact word (by decide) (dst hw).1 (by decide) (by decide) (fun _ h1 h2 h3 h4 => by unfold decode; rw [h1, h2, h3, h4]; exact same1 Instr.mbatch (dst hw).2) he

theorem mwait (a : Sel) : Statement (.mwait a) := fun hw _ he => by
  exact word (by decide) (by decide) (usrc hw).1 (by decide) (fun _ h1 h2 h3 h4 => by unfold decode; rw [h1, h2, h3, h4]; exact same1 Instr.mwait (usrc hw).2) he

theorem mdrain (a : Sel) : Statement (.mdrain a) := fun hw _ he => by
  exact word (by decide) (by decide) (usrc hw).1 (by decide) (fun _ h1 h2 h3 h4 => by unfold decode; rw [h1, h2, h3, h4]; exact same1 Instr.mdrain (usrc hw).2) he

theorem mquant (a : Sel) : Statement (.mquant a) := fun hw _ he => by
  exact word (by decide) (by decide) (usrc hw).1 (by decide) (fun _ h1 h2 h3 h4 => by unfold decode; rw [h1, h2, h3, h4]; exact same1 Instr.mquant (usrc hw).2) he

theorem mzero (a : Sel) (b : Sel) : Statement (.mzero a b) := fun hw _ he => by
  have hw := and2 hw; exact word (by decide) (by decide) (usrc hw.1).1 (usrc hw.2).1 (fun _ h1 h2 h3 h4 => by unfold decode; rw [h1, h2, h3, h4]; exact same2 Instr.mzero (usrc hw.1).2 (usrc hw.2).2) he

theorem bra : Statement (.bra) := fun hw _ he => by
  exact word (by decide) (by decide) (by decide) (by decide) (fun _ h1 h2 h3 h4 => by unfold decode; rw [h1, h2, h3, h4]; exact rfl) he

theorem brc (a : Nat) : Statement (.brc a) := fun hw _ he => by
  exact word (by decide) (by decide) (mask hw) (by decide) (fun _ h1 h2 h3 h4 => by unfold decode; rw [h1, h2, h3, h4]; exact same1 Instr.brc rfl) he

theorem bru (a : Sel) : Statement (.bru a) := fun hw _ he => by
  exact word (by decide) (by decide) (usrcNoLit hw).1 (by decide) (fun _ h1 h2 h3 h4 => by unfold decode; rw [h1, h2, h3, h4]; exact same1 Instr.bru (usrcNoLit hw).2) he

theorem call (d : Sel) (a : Sel) : Statement (.call d a) := fun hw _ he => by
  have hw := and2 hw; exact word (by decide) (vreg hw.1).1 (vreg hw.2).1 (by decide) (fun _ h1 h2 h3 h4 => by unfold decode; rw [h1, h2, h3, h4]; exact same2 Instr.call (vreg hw.1).2 (vreg hw.2).2) he

theorem calli (d : Sel) (a : Sel) (b : Sel) : Statement (.calli d a b) := fun hw _ he => by
  have hw := and3 hw; exact word (by decide) (vreg hw.1.1).1 (vreg hw.1.2).1 (vreg hw.2).1 (fun _ h1 h2 h3 h4 => by unfold decode; rw [h1, h2, h3, h4]; exact same3 Instr.calli (vreg hw.1.1).2 (vreg hw.1.2).2 (vreg hw.2).2) he

theorem ret : Statement (.ret) := fun hw _ he => by
  exact word (by decide) (by decide) (by decide) (by decide) (fun _ h1 h2 h3 h4 => by unfold decode; rw [h1, h2, h3, h4]; exact rfl) he

theorem arg (d : Sel) (a : Sel) (b : Sel) : Statement (.arg d a b) := fun hw _ he => by
  have hw := and3 hw; exact word (by decide) (dst hw.1.1).1 (src hw.1.2).1 (src hw.2).1 (fun _ h1 h2 h3 h4 => by unfold decode; rw [h1, h2, h3, h4]; exact same3 Instr.arg (dst hw.1.1).2 (src hw.1.2).2 (src hw.2).2) he

theorem gret (d : Sel) (a : Sel) (b : Sel) : Statement (.gret d a b) := fun hw _ he => by
  have hw := and3 hw; exact word (by decide) (src hw.1.1).1 (src hw.1.2).1 (src hw.2).1 (fun _ h1 h2 h3 h4 => by unfold decode; rw [h1, h2, h3, h4]; exact same3 Instr.gret (src hw.1.1).2 (src hw.1.2).2 (src hw.2).2) he

theorem exit : Statement (.exit) := fun hw _ he => by
  exact word (by decide) (by decide) (by decide) (by decide) (fun _ h1 h2 h3 h4 => by unfold decode; rw [h1, h2, h3, h4]; exact rfl) he

theorem join (a : Sel) : Statement (.join a) := fun hw _ he => by
  exact word (by decide) (by decide) (usrc hw).1 (by decide) (fun _ h1 h2 h3 h4 => by unfold decode; rw [h1, h2, h3, h4]; exact same1 Instr.join (usrc hw).2) he

theorem leave (a : Sel) : Statement (.leave a) := fun hw _ he => by
  exact word (by decide) (by decide) (usrc hw).1 (by decide) (fun _ h1 h2 h3 h4 => by unfold decode; rw [h1, h2, h3, h4]; exact same1 Instr.leave (usrc hw).2) he

theorem bar (a : Sel) : Statement (.bar a) := fun hw _ he => by
  exact word (by decide) (by decide) (usrc hw).1 (by decide) (fun _ h1 h2 h3 h4 => by unfold decode; rw [h1, h2, h3, h4]; exact same1 Instr.bar (usrc hw).2) he

theorem qpop (d : Sel) (a : Sel) : Statement (.qpop d a) := fun hw _ he => by
  have hw := and2 hw; exact word (by decide) (dst hw.1).1 (usrc hw.2).1 (by decide) (fun _ h1 h2 h3 h4 => by unfold decode; rw [h1, h2, h3, h4]; exact same2 Instr.qpop (dst hw.1).2 (usrc hw.2).2) he

theorem qpush (d : Sel) (a : Sel) (b : Sel) : Statement (.qpush d a b) := fun hw _ he => by
  have hw := and3 hw; exact word (by decide) (dst hw.1.1).1 (usrc hw.1.2).1 (usrc hw.2).1 (fun _ h1 h2 h3 h4 => by unfold decode; rw [h1, h2, h3, h4]; exact same3 Instr.qpush (dst hw.1.1).2 (usrc hw.1.2).2 (usrc hw.2).2) he

theorem lwait (a : Sel) : Statement (.lwait a) := fun hw _ he => by
  exact word (by decide) (by decide) (usrc hw).1 (by decide) (fun _ h1 h2 h3 h4 => by unfold decode; rw [h1, h2, h3, h4]; exact same1 Instr.lwait (usrc hw).2) he

theorem ldone (a : Sel) : Statement (.ldone a) := fun hw _ he => by
  exact word (by decide) (by decide) (usrc hw).1 (by decide) (fun _ h1 h2 h3 h4 => by unfold decode; rw [h1, h2, h3, h4]; exact same1 Instr.ldone (usrc hw).2) he

theorem lstat (d : Sel) (a : Sel) : Statement (.lstat d a) := fun hw _ he => by
  have hw := and2 hw; exact word (by decide) (dst hw.1).1 (usrc hw.2).1 (by decide) (fun _ h1 h2 h3 h4 => by unfold decode; rw [h1, h2, h3, h4]; exact same2 Instr.lstat (dst hw.1).2 (usrc hw.2).2) he

theorem trap (a : Sel) : Statement (.trap a) := fun hw _ he => by
  exact word (by decide) (by decide) (usrcNoLit hw).1 (by decide) (fun _ h1 h2 h3 h4 => by unfold decode; rw [h1, h2, h3, h4]; exact same1 Instr.trap (usrcNoLit hw).2) he

theorem eret (a : Sel) : Statement (.eret a) := fun hw _ he => by
  exact word (by decide) (by decide) (usrcNoLit hw).1 (by decide) (fun _ h1 h2 h3 h4 => by unfold decode; rw [h1, h2, h3, h4]; exact same1 Instr.eret (usrcNoLit hw).2) he

theorem bkpt (a : Sel) : Statement (.bkpt a) := fun hw _ he => by
  exact word (by decide) (by decide) (usrcNoLit hw).1 (by decide) (fun _ h1 h2 h3 h4 => by unfold decode; rw [h1, h2, h3, h4]; exact same1 Instr.bkpt (usrcNoLit hw).2) he

theorem yield : Statement (.yield) := fun hw _ he => by
  exact word (by decide) (by decide) (by decide) (by decide) (fun _ h1 h2 h3 h4 => by unfold decode; rw [h1, h2, h3, h4]; exact rfl) he

/-- A reserved opcode decodes to itself (R228, R230). -/
theorem reservedOpcode (word : Word) : Statement (.reservedOpcode word) := fun hw w he => by
  cases he
  have hr : reservedOp (opField word) = true := hw
  have hlt : opField word < 256 := by
    have := word.isLt
    simp only [opField]
    omega
  unfold decode
  revert hr hlt
  generalize opField word = n
  intro hr hlt
  interval_cases n <;> first
    | exact absurd hr (by decide)
    | rfl

/-! ## The steps that have no word -/

theorem clauseStart (team : Nat) : Statement (.clauseStart team) := none rfl
theorem scoreHalving (core : Nat) : Statement (.scoreHalving core) := none rfl
theorem lateResult (team : Nat) (op : LatePart) : Statement (.lateResult team op) := none rfl
theorem ringTableBuilt (team slot : Nat) : Statement (.ringTableBuilt team slot) := none rfl
theorem registration (core ix : Nat) : Statement (.registration core ix) := none rfl
theorem registrationAck (core ix : Nat) : Statement (.registrationAck core ix) := none rfl
theorem recallWord (word : Nat) : Statement (.recallWord word) := none rfl
theorem l1Eviction (core ix : Nat) : Statement (.l1Eviction core ix) := none rfl
theorem atomicBatch (core ix : Nat) : Statement (.atomicBatch core ix) := none rfl
theorem unitRecordFreed (slice : Nat) : Statement (.unitRecordFreed slice) := none rfl
theorem faultResolution (cluster rec : Nat) : Statement (.faultResolution cluster rec) := none rfl
theorem faultRecordConsume (cluster rec : Nat) : Statement (.faultRecordConsume cluster rec) := none rfl
theorem tinvalWrite (v : DWord) : Statement (.tinvalWrite v) := none rfl
theorem invalidationComplete (cluster : Nat) : Statement (.invalidationComplete cluster) := none rfl
theorem waypartRaise (slice ways : Nat) : Statement (.waypartRaise slice ways) := none rfl
theorem waypartLower (slice ways : Nat) : Statement (.waypartLower slice ways) := none rfl
theorem waypartChangeComplete (slice : Nat) : Statement (.waypartChangeComplete slice) := none rfl
theorem cardStart (card : Nat) : Statement (.cardStart card) := none rfl
theorem cardComplete (card : Nat) : Statement (.cardComplete card) := none rfl
theorem mloopStart (core : Nat) : Statement (.mloopStart core) := none rfl
theorem mloopFlush (core : Nat) : Statement (.mloopFlush core) := none rfl
theorem layerLoadStart (kind : Nat) : Statement (.layerLoadStart kind) := none rfl
theorem layerArrived (mslot layer : Nat) : Statement (.layerArrived mslot layer) := none rfl
theorem layerLoadFailed (mslot layer why : Nat) : Statement (.layerLoadFailed mslot layer why) := none rfl
theorem layerEvicted (mslot layer : Nat) : Statement (.layerEvicted mslot layer) := none rfl
theorem teamPlace : Statement (.teamPlace) := none rfl
theorem teamRetire (team : Nat) : Statement (.teamRetire team) := none rfl
theorem teamHalt (team : Nat) : Statement (.teamHalt team) := none rfl
theorem teamSave (team : Nat) : Statement (.teamSave team) := none rfl
theorem teamRestore (team : Nat) : Statement (.teamRestore team) := none rfl
theorem trapEntry (team : Nat) : Statement (.trapEntry team) := none rfl
theorem softError (site : SoftSite) : Statement (.softError site) := none rfl
theorem notifyRecord (ring : Nat) : Statement (.notifyRecord ring) := none rfl
theorem launch (ring : Nat) : Statement (.launch ring) := none rfl
theorem feed (ring : Nat) : Statement (.feed ring) := none rfl
theorem cardPacket (ring : Nat) : Statement (.cardPacket ring) := none rfl
theorem signal (ring : Nat) : Statement (.signal ring) := none rfl
theorem wait (ring : Nat) : Statement (.wait ring) := none rfl
theorem waitSatisfied (ring : Nat) : Statement (.waitSatisfied ring) := none rfl
theorem modelLoad (ring : Nat) : Statement (.modelLoad ring) := none rfl
theorem modelUnload (ring : Nat) : Statement (.modelUnload ring) := none rfl
theorem modelPrio (ring : Nat) : Statement (.modelPrio ring) := none rfl
theorem layerPrefetch (ring : Nat) : Statement (.layerPrefetch ring) := none rfl
theorem fencePacket (ring : Nat) : Statement (.fencePacket ring) := none rfl
theorem commandAppend : Statement (.commandAppend) := none rfl
theorem memWrite : Statement (.memWrite) := none rfl
theorem memRead : Statement (.memRead) := none rfl
theorem attestCertificate : Statement (.attestCertificate) := none rfl
theorem attestReport : Statement (.attestReport) := none rfl
theorem hostRead : Statement (.hostRead) := none rfl
theorem ringCreate : Statement (.ringCreate) := none rfl
theorem ringResume : Statement (.ringResume) := none rfl
theorem ringHalt : Statement (.ringHalt) := none rfl
theorem poolGive : Statement (.poolGive) := none rfl
theorem ctxBind : Statement (.ctxBind) := none rfl
theorem peerSet : Statement (.peerSet) := none rfl
theorem exportSet : Statement (.exportSet) := none rfl
theorem gateLoad : Statement (.gateLoad) := none rfl
theorem expertBuf : Statement (.expertBuf) := none rfl
theorem saveTeam : Statement (.saveTeam) := none rfl
theorem sliceWindow : Statement (.sliceWindow) := none rfl
theorem restoreTeam : Statement (.restoreTeam) := none rfl
theorem invalidate : Statement (.invalidate) := none rfl
theorem demandSet : Statement (.demandSet) := none rfl
theorem faultReply : Statement (.faultReply) := none rfl
theorem peerAccess (p : PeerReq) : Statement (.peerAccess p) := none rfl
theorem portDown (port : Nat) : Statement (.portDown port) := none rfl
theorem dispatchJob (mslot : Nat) : Statement (.dispatchJob mslot) := none rfl
theorem slotRequest (ctx : Nat) (ask : SlotAsk) : Statement (.slotRequest ctx ask) := none rfl
theorem slotGrant (job ix : Nat) : Statement (.slotGrant job ix) := none rfl
theorem expertPayload (site : PayloadSite) (ix : Nat) : Statement (.expertPayload site ix) := none rfl
theorem returnRecord (ctx buf : Nat) : Statement (.returnRecord ctx buf) := none rfl
theorem combine (job token : Nat) : Statement (.combine job token) := none rfl
theorem reset (flash : BootFlash) : Statement (.reset flash) := none rfl
theorem voltageOutOfWindow : Statement (.voltageOutOfWindow) := none rfl
theorem clockOutOfRange : Statement (.clockOutOfRange) := none rfl
theorem junction105c : Statement (.junction105c) := none rfl
theorem junction115c : Statement (.junction115c) := none rfl
theorem tamper : Statement (.tamper) := none rfl
theorem integrityFaultBurst : Statement (.integrityFaultBurst) := none rfl
theorem keyMisuse : Statement (.keyMisuse) := none rfl
theorem powerThrottle : Statement (.powerThrottle) := none rfl
theorem powerUnthrottle : Statement (.powerUnthrottle) := none rfl
theorem reservedUrfelMessage : Statement (.reservedUrfelMessage) := none rfl
theorem portTrained (port : Nat) : Statement (.portTrained port) := none rfl
theorem transportGivesUp (site : LostRequest) : Statement (.transportGivesUp site) := none rfl
theorem completionRptrReread (ring : Nat) : Statement (.completionRptrReread ring) := none rfl
theorem homeWriteAcknowledgment (core ix : Nat) : Statement (.homeWriteAcknowledgment core ix) := none rfl
theorem grantCancel (ctx buf slot : Nat) : Statement (.grantCancel ctx buf slot) := none rfl

end Sys2Proof.Laws.RoundTrip
end

