-- ==== Sys2Proof/Tests/Slice0.lean ====
section
/-! SUPPORT. Tests and witnesses. The words of the decode tests and the expected values of the step tests are the spec's own examples, or calculated by hand
from its rules; each witness shows a state and operands that meet the hypotheses of a statement. -/

namespace Sys2Proof.Tests

open Sys2Proof Sys2Proof.Machine

-- one theorem at a time: its checks are not run side by side
set_option Elab.async false

/-! ## Decoding (R217 to R219, R228): the examples of spec/11 to spec/15, word by word -/

/-- Every word of a list decodes to the instruction beside it, and that instruction encodes to the word. -/
abbrev decodesAs (l : List (Word × Instr)) : Prop := ∀ p ∈ l, decode p.1 = .ok p.2 ∧ encode p.2 = some p.1

theorem test_decode_move : decodesAs [
    (0x00000000, .nop), (0x0101E500, .mov (.v 1) .laneid), (0x0204C200, .mov2 (.v 4) (.s 2)), (0x03080C00, .mov4 (.v 8) (.v 12)),
    (0x04030102, .sel (.v 3) (.v 1) (.v 2)), (0x0500F000, .setmode .lit), (0x06C50000, .getmode (.s 5)), (0x07C6F000, .rdsr (.s 6) .lit),
    (0x08C40700, .unif (.s 4) (.v 7)), (0x0900F0E4, .wrsr .lit .zero)] := by decide

theorem test_decode_integer : decodesAs [
    (0x100201F0, .add (.v 2) (.v 1) .lit), (0x11030201, .sub (.v 3) (.v 2) (.v 1)), (0x120402C3, .mul (.v 4) (.v 2) (.s 3)),
    (0x13050203, .mulhi (.v 5) (.v 2) (.v 3)), (0x14060203, .mad (.v 6) (.v 2) (.v 3)), (0x15070200, .abs (.v 7) (.v 2)),
    (0x16080200, .neg (.v 8) (.v 2)), (0x17090203, .min (.v 9) (.v 2) (.v 3)), (0x180A0203, .max (.v 10) (.v 2) (.v 3)),
    (0x190B02C4, .div (.v 11) (.v 2) (.s 4)), (0x1A0C02C4, .rem (.v 12) (.v 2) (.s 4)), (0x1B0D02F0, .shl (.v 13) (.v 2) .lit),
    (0x1C0E02F0, .shr (.v 14) (.v 2) .lit), (0x1D0F0201, .rot (.v 15) (.v 2) (.v 1)), (0x1E1002F0, .and (.v 16) (.v 2) .lit),
    (0x1F110203, .or (.v 17) (.v 2) (.v 3))] := by decide

theorem test_decode_integer2 : decodesAs [
    (0x20120203, .xor (.v 18) (.v 2) (.v 3)), (0x21130200, .not (.v 19) (.v 2)), (0x22140203, .andn (.v 20) (.v 2) (.v 3)),
    (0x23150200, .popc (.v 21) (.v 2)), (0x24160200, .clz (.v 22) (.v 2)), (0x25170200, .ctz (.v 23) (.v 2)),
    (0x26180200, .brev (.v 24) (.v 2)), (0x271902F0, .bfe (.v 25) (.v 2) .lit), (0x281A02F0, .bfi (.v 26) (.v 2) .lit),
    (0x29130102, .cmp 2 3 (.v 1) (.v 2)), (0x2A0AC004, .lea0 (.v 10) (.s 0) (.v 4)), (0x2B0CC004, .lea2 (.v 12) (.s 0) (.v 4)),
    (0x2C0EC004, .lea3 (.v 14) (.s 0) (.v 4))] := by decide

theorem test_decode_float : decodesAs [
    (0x30020001, .fadd (.v 2) (.v 0) (.v 1)), (0x31030001, .fsub (.v 3) (.v 0) (.v 1)), (0x320400C2, .fmul (.v 4) (.v 0) (.s 2)),
    (0x33050001, .fma (.v 5) (.v 0) (.v 1)), (0x34060001, .fnma (.v 6) (.v 0) (.v 1)), (0x35070001, .fmin (.v 7) (.v 0) (.v 1)),
    (0x36080001, .fmax (.v 8) (.v 0) (.v 1)), (0x37090000, .fabs (.v 9) (.v 0)), (0x380A0000, .fneg (.v 10) (.v 0)),
    (0x390B0000, .frint (.v 11) (.v 0)), (0x3A0C00F0, .fldexp (.v 12) (.v 0) .lit), (0x3B0D0000, .fclass (.v 13) (.v 0)),
    (0x3C0E0001, .fdiv (.v 14) (.v 0) (.v 1)), (0x3D100000, .fsqrt (.v 16) (.v 0)), (0x3E110000, .frcp (.v 17) (.v 0)),
    (0x3F120000, .frsq (.v 18) (.v 0))] := by decide

theorem test_decode_float2 : decodesAs [
    (0x40130000, .fexp2 (.v 19) (.v 0)), (0x41140000, .flog2 (.v 20) (.v 0)), (0x42150000, .fsin (.v 21) (.v 0)),
    (0x43160000, .fcos (.v 22) (.v 0)), (0x44170000, .ftanh (.v 23) (.v 0)), (0x45180203, .fdot2 (.v 24) (.v 2) (.v 3)),
    (0x50020100, .cvti (.v 2) (.v 1)), (0x51030100, .cvtn (.v 3) (.v 1)), (0x52040600, .cvtl (.v 4) (.v 6)),
    (0x53050200, .cvtf (.v 5) (.v 2)), (0x54060800, .cvtd (.v 6) (.v 8)), (0x55070200, .cvtb (.v 7) (.v 2)),
    (0x56080200, .cvth (.v 8) (.v 2)), (0x57090203, .pack2 (.v 9) (.v 2) (.v 3))] := by decide

theorem test_decode_ring : decodesAs [
    (0x58040305, .rsadd (.v 4) (.v 3) (.v 5)), (0x59040305, .rssub (.v 4) (.v 3) (.v 5)), (0x5A040305, .rsmul (.v 4) (.v 3) (.v 5)),
    (0x5B040305, .rsdiv (.v 4) (.v 3) (.v 5)), (0x5C040300, .rsneg (.v 4) (.v 3)), (0x5D040300, .rsrcp (.v 4) (.v 3)),
    (0x5E040300, .rssqr (.v 4) (.v 3)), (0x5F040305, .rsunion (.v 4) (.v 3) (.v 5)), (0x60040305, .rsisect (.v 4) (.v 3) (.v 5)),
    (0x61040300, .rshull (.v 4) (.v 3)), (0x62060400, .rslo (.v 6) (.v 4)), (0x63080400, .rshi (.v 8) (.v 4)),
    (0x640403F0, .rsconv (.v 4) (.v 3) .lit), (0x6500E4C0, .ringld .zero (.s 0)), (0x66040100, .ringq (.v 4) (.v 1))] := by decide

theorem test_decode_lanes : decodesAs [
    (0x70020103, .shfl (.v 2) (.v 1) (.v 3)), (0x710201F0, .shflx (.v 2) (.v 1) .lit), (0x720201F0, .shflup (.v 2) (.v 1) .lit),
    (0x730201F0, .shfldn (.v 2) (.v 1) .lit), (0x74020100, .voteany (.v 2) (.v 1)), (0x75020100, .voteall (.v 2) (.v 1)),
    (0x76020100, .ballot (.v 2) (.v 1)), (0x77020100, .redadd (.v 2) (.v 1)), (0x78020100, .redmin (.v 2) (.v 1)),
    (0x79020100, .redmax (.v 2) (.v 1)), (0x7A020100, .redor (.v 2) (.v 1)), (0x7B020100, .redun (.v 2) (.v 1)),
    (0x7C020100, .scanadd (.v 2) (.v 1)), (0x7D020100, .confd (.v 2) (.v 1)), (0x7E000000, .xfence),
    (0x7F020103, .keyadd (.v 2) (.v 1) (.v 3))] := by decide

theorem test_decode_mask : decodesAs [
    (0x80010203, .mand 1 2 3), (0x81010203, .mor 1 2 3), (0x82010203, .mxor 1 2 3), (0x83040200, .mnot 4 2), (0x84010203, .mandn 1 2 3),
    (0x85050200, .mmov 5 2), (0x86C70100, .mpopc (.s 7) 1), (0x87C80100, .mfirst (.s 8) 1), (0x88C901F0, .mget (.s 9) 1 .lit),
    (0x8906CAF0, .mset 6 (.s 10) .lit), (0x8A02CC00, .msave 2 (.s 12)), (0x8B02CC00, .mload 2 (.s 12)), (0x8C000000, .mall 0)] := by decide

theorem test_decode_memory : decodesAs [
    (0x9002C001, .ld (.v 2) (.s 0) (.v 1)), (0x9103C0F0, .ldb (.v 3) (.s 0) .lit), (0x9204C001, .ldh (.v 4) (.s 0) (.v 1)),
    (0x9302C001, .st (.v 2) (.s 0) (.v 1)), (0x9403C001, .stb (.v 3) (.s 0) (.v 1)), (0x9504C001, .sth (.v 4) (.s 0) (.v 1)),
    (0x9608C001, .ldw (.v 8) (.s 0) (.v 1)), (0x9708C001, .stw (.v 8) (.s 0) (.v 1)), (0x980501F0, .sld (.v 5) (.v 1) .lit),
    (0x990501E4, .sst (.v 5) (.v 1) .zero), (0x9A00C001, .pref (.s 0) (.v 1)), (0x9B00C0E4, .reshint (.s 0) .zero)] := by decide

theorem test_decode_atomic : decodesAs [
    (0xA002C001, .aadd (.v 2) (.s 0) (.v 1)), (0xA102C001, .amin (.v 2) (.s 0) (.v 1)), (0xA202C001, .amax (.v 2) (.s 0) (.v 1)),
    (0xA302C001, .aand (.v 2) (.s 0) (.v 1)), (0xA402C001, .aor (.v 2) (.s 0) (.v 1)), (0xA502C001, .axor (.v 2) (.s 0) (.v 1)),
    (0xA602C001, .axchg (.v 2) (.s 0) (.v 1)), (0xA704C001, .acas (.v 4) (.s 0) (.v 1)), (0xA808C001, .acasw (.v 8) (.s 0) (.v 1)),
    (0xA902C001, .afadd (.v 2) (.s 0) (.v 1)), (0xAA02C001, .afmin (.v 2) (.s 0) (.v 1)), (0xAB02C001, .afmax (.v 2) (.s 0) (.v 1))] := by decide

theorem test_decode_atomic2 : decodesAs [
    (0xB002C001, .stadd (.v 2) (.s 0) (.v 1)), (0xB102C001, .stmin (.v 2) (.s 0) (.v 1)), (0xB202C001, .stmax (.v 2) (.s 0) (.v 1)),
    (0xB302C001, .stand (.v 2) (.s 0) (.v 1)), (0xB402C001, .stor (.v 2) (.s 0) (.v 1)), (0xB502C001, .stxor (.v 2) (.s 0) (.v 1)),
    (0xB602C001, .stfadd (.v 2) (.s 0) (.v 1)), (0xB702C001, .stfmin (.v 2) (.s 0) (.v 1)), (0xB802C001, .stfmax (.v 2) (.s 0) (.v 1)),
    (0xB9C5C200, .qlock (.s 5) (.s 2)), (0xBA00C200, .qunlock (.s 2)), (0xBB000000, .release), (0xBC000000, .acquire), (0xBD000000, .fence)] := by decide

theorem test_decode_engine : decodesAs [
    (0xC002F001, .fetch (.v 2) .lit (.v 1)), (0xC102C406, .fetch2 (.v 2) (.s 4) (.v 6)), (0xC200F0C6, .hbind .lit (.s 6)),
    (0xC3C7C800, .card (.s 7) (.s 8)), (0xC400C700, .cwait (.s 7)), (0xC5C9C700, .cpoll (.s 9) (.s 7)),
    (0xC60A0203, .isect (.v 10) (.v 2) (.v 3)), (0xC70A0203, .merge (.v 10) (.v 2) (.v 3)), (0xC80A0203, .mpsplit (.v 10) (.v 2) (.v 3))] := by decide

theorem test_decode_matrix : decodesAs [
    (0xD000C800, .mloop (.s 8)), (0xD1C40000, .mbatch (.s 4)), (0xD200C400, .mwait (.s 4)), (0xD300D400, .mdrain (.s 20)),
    (0xD400CC00, .mquant (.s 12)), (0xD500CCCE, .mzero (.s 12) (.s 14))] := by decide

theorem test_decode_control : decodesAs [
    (0xE00000F0, .bra), (0xE10001F0, .brc 1), (0xE200C3F0, .bru (.s 3)), (0xE30402F0, .call (.v 4) (.v 2)),
    (0xE404020A, .calli (.v 4) (.v 2) (.v 10)), (0xE5000000, .ret), (0xE60301E4, .arg (.v 3) (.v 1) .zero),
    (0xE7E40105, .gret .zero (.v 1) (.v 5)), (0xE8000000, .exit), (0xE900C600, .join (.s 6)), (0xEA00C600, .leave (.s 6)),
    (0xEB00C600, .bar (.s 6))] := by decide

theorem test_decode_system : decodesAs [
    (0xF008C200, .qpop (.v 8) (.s 2)), (0xF1C4C2C6, .qpush (.s 4) (.s 2) (.s 6)), (0xF200F000, .lwait .lit), (0xF300F000, .ldone .lit),
    (0xF4C5F000, .lstat (.s 5) .lit), (0xF500C500, .trap (.s 5)), (0xF600C600, .eret (.s 6)), (0xF700E400, .bkpt .zero), (0xF8000000, .yield)] := by decide


/-- R219 and R230: an unused field that is not 0, a LIT field that is not 0xF0, the first and the last reserved opcode. -/
theorem test_decode_refusals :
    decode 0x00000001 = .error .unusedFieldNonzero ∧ decode 0x01010201 = .error .unusedFieldNonzero ∧ decode 0xE00000E4 = .error .litFieldMissing ∧
    decode 0x0A123456 = .ok (.reservedOpcode 0x0A123456) ∧ decode 0xFF000000 = .ok (.reservedOpcode 0xFF000000) := by decide

/-- R218: the selectors at the ends of their ranges. -/
theorem test_decode_selectors : decodesAs [
    (0x01BFDF00, .mov (.v 191) (.s 31)), (0x01E3C000, .mov (.w 3) (.s 0)), (0x01E0E400, .mov (.w 0) .zero), (0x0100E600, .mov (.v 0) .spanlane),
    (0x0100E700, .mov (.v 0) .subidx), (0x0100E800, .mov (.v 0) .nwide), (0x0100E900, .mov (.v 0) .teamid), (0x0100EA00, .mov (.v 0) .coreid),
    (0x0100F000, .mov (.v 0) .lit), (0x0100EB00, .mov (.v 0) (.rsvd 0xEB)), (0x0100FF00, .mov (.v 0) (.rsvd 0xFF))] := by decide

/-! ## Well-formedness (R219): a term that each kind of field refuses, beside one that it accepts -/

theorem test_wf_dst : (Instr.mov (.v 191) (.v 0)).wellFormed = true ∧ (Instr.mov .zero (.v 0)).wellFormed = false ∧
    (Instr.mov (.s 32) (.v 0)).wellFormed = false ∧ (Instr.mov .lit (.v 0)).wellFormed = false := by decide

theorem test_wf_src : (Instr.mov (.v 0) .lit).wellFormed = true ∧ (Instr.mov (.v 0) (.rsvd 0xEB)).wellFormed = false ∧
    (Instr.mov (.v 0) (.v 192)).wellFormed = false ∧ (Instr.mov (.v 0) (.w 4)).wellFormed = false := by decide

theorem test_wf_usrc : (Instr.setmode (.s 31)).wellFormed = true ∧ (Instr.setmode (.v 0)).wellFormed = false ∧ (Instr.setmode .laneid).wellFormed = false ∧
    (Instr.setmode (.w 0)).wellFormed = false ∧ (Instr.setmode (.rsvd 0xF1)).wellFormed = false := by decide

theorem test_wf_usrc_no_literal : (Instr.bru (.s 3)).wellFormed = true ∧ (Instr.bru .lit).wellFormed = false := by decide

theorem test_wf_vreg : (Instr.call (.v 16) (.v 8)).wellFormed = true ∧ (Instr.call (.s 0) (.v 8)).wellFormed = false ∧
    (Instr.call (.v 16) (.w 0)).wellFormed = false := by decide

theorem test_wf_mask : (Instr.mmov 7 0).wellFormed = true ∧ (Instr.mmov 8 0).wellFormed = false ∧ (Instr.brc 8).wellFormed = false := by decide

theorem test_wf_cond : (Instr.cmp 12 7 (.v 0) (.v 0)).wellFormed = true ∧ (Instr.cmp 13 0 (.v 0) (.v 0)).wellFormed = false ∧
    (Instr.cmp 0 8 (.v 0) (.v 0)).wellFormed = false := by decide

theorem test_wf_reserved : (Instr.reservedOpcode 0x0A000000).wellFormed = true ∧ (Instr.reservedOpcode 0xFC000000).wellFormed = true ∧
    (Instr.reservedOpcode 0x01000000).wellFormed = false := by decide

/-! ## A small machine: one team in a clause of one word and a literal, READS counted on r0 and OTHERS on r1 -/

/-- The clause at 0x1000 with a literal, for an instruction that has one. -/
def clauseOf (w lit : Word) : Clause := { header := 0x1000, words := [w, lit], idx := 1, reads := 0, others := 1, target := [] }

/-- A team of 32 slots, spans of 32 and 192 registers, in the clause. -/
def team0 : Team := { newTeam 0 bareLaunch 0 0 0 with pc := 0x1000, clause := some (clauseOf 0 0), active := true }

/-- The machine with that team in its issue slot. -/
def mach (t : Team) : State := { State.reset with teams := [(0, t)], cur := some 0 }

/-- The team after one instruction. -/
def after (i : Instr) (t : Team) : Option Team :=
  match exec i (mach t) with
  | .next s => tblGet s.teams 0
  | _ => none

/-- One lane of EXEC under a MODE, v0 and v1 holding a, v2 and v3 holding b, v4 and v5 holding d. -/
def oneLane (mode : Word) (a b d : Nat) : Team :=
  { team0 with
    mode := mode, exec := 1, frame := 3,
    vregs := [(0, BitVec.ofNat 32 a), (1, BitVec.ofNat 32 (a / 2 ^ 32)), (2, BitVec.ofNat 32 b), (3, BitVec.ofNat 32 (b / 2 ^ 32)),
              (4, BitVec.ofNat 32 d), (5, BitVec.ofNat 32 (d / 2 ^ 32))] }

/-- In one lane the instruction leaves a value in v4 and v5 and exceptions in FPST. -/
structure Row where
  i : Instr
  mode : Word
  a : Nat
  b : Nat
  d : Nat
  value : Nat
  fpst : BitVec 5

/-- The row holds of a team of that lane. -/
def Row.holds (r : Row) (t : Team) : Bool :=
  match after r.i t with
  | some t1 => decide (numOf t1 0 (.v 4) 2 = r.value) && decide (t1.fpst = r.fpst) && decide (t1.clause.map Clause.idx = some 2)
  | none => false

/-- Every row holds of a team that has one lane. -/
abbrev rowsHold (l : List Row) : Prop := ∀ r ∈ l, r.holds (oneLane r.mode r.a r.b r.d) = true

abbrev d4 : Sel := .v 4
abbrev a0 : Sel := .v 0
abbrev b2 : Sel := .v 2

/-! ## Moves and integers (R239 to R248); the values by hand, 0xE000 + TYPE in MODE -/

theorem test_moves : rowsHold [
    ⟨.mov d4 a0, 0xE000, 0x1122334455667788, 0, 0xAAAAAAAABBBBBBBB, 0xAAAAAAAA55667788, 0⟩,
    ⟨.mov2 d4 a0, 0xE000, 0x1122334455667788, 0, 7, 0x1122334455667788, 0⟩,
    ⟨.sel d4 a0 b2, 0xE000, 5, 9, 0, 5, 0⟩, ⟨.sel d4 a0 b2, 0xF200, 5, 9, 0, 5, 0⟩, ⟨.sel d4 a0 b2, 0xE200, 5, 9, 0, 9, 0⟩] := by decide +kernel

theorem test_integer_sums : rowsHold [
    ⟨.add d4 a0 b2, 0xE000, 0xFFFFFFFF, 1, 0, 0, 0⟩, ⟨.add d4 a0 b2, 0xE100, 0x7FFFFFFF, 1, 0, 0x7FFFFFFF, 0⟩,
    ⟨.add d4 a0 b2, 0xE004, 0x7FFF0001, 0x0001FFFF, 0, 0x80000000, 0⟩, ⟨.add d4 a0 b2, 0xE104, 0x7FFF0001, 0x0001FFFF, 0, 0x7FFF0000, 0⟩,
    ⟨.sub d4 a0 b2, 0xE001, 2, 3, 0, 0xFFFFFFFF, 0⟩, ⟨.sub d4 a0 b2, 0xE102, 0, 0x8000000000000000, 0, 0x7FFFFFFFFFFFFFFF, 0⟩,
    ⟨.mul d4 a0 b2, 0xE005, 0x02030405, 0x80FF0403, 0, 0x00FD100F, 0⟩, ⟨.mul d4 a0 b2, 0xE100, 0x10000, 0xFFFF0000, 0, 0x80000000, 0⟩,
    ⟨.mulhi d4 a0 b2, 0xE000, 0xFFFFFFFF, 1, 0, 0xFFFFFFFF, 0⟩, ⟨.mulhi d4 a0 b2, 0xE001, 0xFFFFFFFF, 0xFFFFFFFF, 0, 0xFFFFFFFE, 0⟩,
    ⟨.mad d4 a0 b2, 0xE000, 3, 0xFFFFFFFE, 5, 0xFFFFFFFF, 0⟩, ⟨.mad d4 a0 b2, 0xE104, 0x00020002, 0x40004000, 0x0001FFFF, 0x7FFF7FFF, 0⟩] := by decide +kernel

theorem test_integer_order : rowsHold [
    ⟨.abs d4 a0, 0xE000, 0x80000000, 0, 0, 0x80000000, 0⟩, ⟨.abs d4 a0, 0xE100, 0x80000000, 0, 0, 0x7FFFFFFF, 0⟩,
    ⟨.neg d4 a0, 0xE001, 1, 0, 0, 0xFFFFFFFF, 0⟩, ⟨.neg d4 a0, 0xE101, 1, 0, 0, 0, 0⟩,
    ⟨.min d4 a0 b2, 0xE000, 0xFFFFFFFF, 1, 0, 0xFFFFFFFF, 0⟩, ⟨.min d4 a0 b2, 0xE001, 0xFFFFFFFF, 1, 0, 1, 0⟩,
    ⟨.max d4 a0 b2, 0xE000, 0xFFFFFFFF, 1, 0, 1, 0⟩, ⟨.max d4 a0 b2, 0xE005, 0x80017F00, 0x7F02FF00, 0, 0x8002FF00, 0⟩,
    ⟨.div d4 a0 b2, 0xE000, 0xFFFFFFF9, 2, 0, 0xFFFFFFFD, 0⟩, ⟨.div d4 a0 b2, 0xE100, 0x80000000, 0xFFFFFFFF, 0, 0x7FFFFFFF, 0⟩,
    ⟨.rem d4 a0 b2, 0xE000, 0xFFFFFFF9, 2, 0, 0xFFFFFFFF, 0⟩, ⟨.rem d4 a0 b2, 0xE001, 7, 0, 0, 7, 0⟩] := by decide +kernel

theorem test_integer_shifts : rowsHold [
    ⟨.shl d4 a0 b2, 0xE000, 3, 0x21, 0, 6, 0⟩, ⟨.shl d4 a0 b2, 0xE002, 1, 63, 0, 0x8000000000000000, 0⟩,
    ⟨.shr d4 a0 b2, 0xE000, 0x80000000, 31, 0, 0xFFFFFFFF, 0⟩, ⟨.shr d4 a0 b2, 0xE001, 0x80000000, 31, 0, 1, 0⟩,
    ⟨.rot d4 a0 b2, 0xE000, 0x80000001, 1, 0, 3, 0⟩, ⟨.rot d4 a0 b2, 0xE005, 0x81818181, 0x08040201, 0, 0x81180603, 0⟩] := by decide +kernel

theorem test_integer_bits : rowsHold [
    ⟨.and d4 a0 b2, 0xE000, 0xF0F0, 0xFF00, 0, 0xF000, 0⟩, ⟨.or d4 a0 b2, 0xE000, 0xF0F0, 0x0F00, 0, 0xFFF0, 0⟩,
    ⟨.xor d4 a0 b2, 0xE003, 0xFF00000000, 0x0F0000000F, 0, 0xF00000000F, 0⟩, ⟨.not d4 a0, 0xE000, 0xFFFF0000, 0, 0, 0xFFFF, 0⟩,
    ⟨.andn d4 a0 b2, 0xE000, 0xFF, 0x0F, 0, 0xF0, 0⟩, ⟨.popc d4 a0, 0xE005, 0xFF010380, 0, 0, 0x08010201, 0⟩, ⟨.clz d4 a0, 0xE000, 1, 0, 0, 31, 0⟩,
    ⟨.clz d4 a0, 0xE004, 0x00008000, 0, 0, 0x00100000, 0⟩, ⟨.ctz d4 a0, 0xE000, 0, 0, 0, 32, 0⟩, ⟨.ctz d4 a0, 0xE003, 0x100000000, 0, 0, 32, 0⟩,
    ⟨.brev d4 a0, 0xE000, 1, 0, 0, 0x80000000, 0⟩, ⟨.brev d4 a0, 0xE005, 0x01020380, 0, 0, 0x8040C001, 0⟩] := by decide +kernel

/-- The examples of R246 and R248. -/
theorem test_fields_and_addresses : rowsHold [
    ⟨.bfe d4 a0 b2, 0xE001, 0xAB0, 0x0804, 0, 0xAB, 0⟩, ⟨.bfe d4 a0 b2, 0xE000, 0xAB0, 0x0804, 0, 0xFFFFFFAB, 0⟩,
    ⟨.bfi d4 a0 b2, 0xE001, 0x12, 0x0804, 0xFFFFFFFF, 0xFFFFF12F, 0⟩, ⟨.bfi d4 a0 b2, 0xE001, 0x12, 0x0820, 0xFFFFFFFF, 0xFFFFFFFF, 0⟩,
    ⟨.lea3 d4 a0 b2, 0xE000, 0x400001000, 0xFFFFFFFE, 0, 0x400000FF0, 0⟩, ⟨.lea2 d4 a0 b2, 0xE000, 0x400001000, 0xFFFFFFFE, 0, 0x400000FF8, 0⟩,
    ⟨.lea0 d4 a0 b2, 0xE000, 0x400001000, 0xFFFFFFFE, 0, 0x400000FFE, 0⟩] := by decide +kernel

/-- CMP writes the bit of its lane in m3: the examples of R247 and R151 by code. -/
def cmpBit (code : Nat) (mode : Word) (a b : Nat) : Option (Bool × BitVec 5) :=
  (after (.cmp code 3 a0 b2) (oneLane mode a b 0)).map (fun t => (t.masks[3].getLsbD 0, t.fpst))

theorem test_cmp_orders :
    cmpBit 2 0xE000 0xFFFFFFFF 0 = some (true, 0) ∧ cmpBit 2 0xE001 0xFFFFFFFF 0 = some (false, 0) ∧ cmpBit 1 0xE004 0x00010002 0x00010003 = some (true, 0) ∧
    cmpBit 0 0xE009 0x80000000 0 = some (true, 0) ∧ cmpBit 7 0xE009 0x7FC00000 0 = some (true, 0) ∧ cmpBit 2 0xE009 0x7FC00000 0 = some (false, 1) ∧
    cmpBit 0 0xE009 0x7F800001 0 = some (false, 1) := by decide +kernel

theorem test_cmp_ringsets :
    cmpBit 2 0xE00B 0x20 0x40 = some (true, 0) ∧ cmpBit 3 0xE00B 0x40 0x40 = some (true, 0) ∧ cmpBit 3 0xE00B 0x20 0x20 = some (false, 0) ∧
    cmpBit 8 0xE00B 0x20 0x60 = some (true, 0) ∧ cmpBit 11 0xE00B 0 0x60 = some (true, 0) ∧ cmpBit 12 0xE00B 1 0 = some (true, 0) := by decide +kernel

/-! ## MODE, special registers, masks (R241 to R243, R249) -/

/-- One lane with s0 holding a word and s1 another. -/
def withS (x y : Word) : Team := { oneLane 0xE000 0 0 0 with sregs := (team0.sregs.set 0 x).set 1 y, masks := (team0.masks.set 1 5).set 2 3, frame := 7, exec := 3 }

theorem test_setmode : (after (.setmode (.s 0)) (withS 0x2209 0)).map (fun t => t.mode) = some 0x2209 ∧
    (after (.setmode (.s 0)) (withS 0x2019 0)).map (fun t => t.mode) = some 0x2019 ∧
    (after (.setmode (.s 0)) (withS 0x0009 0)).map (fun t => (t.mode, t.wait, t.halt.map Prod.fst)) = some (0xE000, .halting, some 3) := by decide +kernel

theorem test_special_registers : (after (.getmode (.s 5)) (withS 0 0)).map (fun t => t.sregs[5]) = some 0xE000 ∧
    (after (.rdsr (.s 6) (.s 0)) (withS 2 0)).map (fun t => t.sregs[6]) = some 768 ∧
    (after (.wrsr (.s 0) (.s 1)) (withS 0 0x1FF)).map (fun t => t.fpst) = some 0x1F ∧
    (match exec (.wrsr (.s 0) (.s 1)) (mach (withS 5 77)) with
     | .next s => (s.core 0).hintdrop
     | _ => 0) = 77 ∧
    (after (.unif (.s 4) (.v 0)) (oneLane 0xE000 99 0 0)).map (fun t => t.sregs[4]) = some 99 := by decide +kernel

/-- m1 holds slots 0 and 2, m2 slots 0 and 1; LIVE are slots 0 to 2. -/
def maskAfter (i : Instr) : Option Mask := (after i (withS 2 0)).map (fun t => t.masks[3])

theorem test_masks : maskAfter (.mand 3 1 2) = some 1 ∧ maskAfter (.mor 3 1 2) = some 7 ∧ maskAfter (.mxor 3 1 2) = some 6 ∧ maskAfter (.mnot 3 1) = some 2 ∧
    maskAfter (.mandn 3 1 2) = some 4 ∧ maskAfter (.mmov 3 1) = some 5 ∧ maskAfter (.mall 3) = some 3 ∧ maskAfter (.mset 3 (.s 0) .zero) = some 2 := by decide +kernel

theorem test_mask_reads : (after (.mpopc (.s 7) 1) (withS 0 0)).map (fun t => t.sregs[7]) = some 2 ∧
    (after (.mfirst (.s 8) 1) (withS 0 0)).map (fun t => t.sregs[8]) = some 0 ∧ (after (.mfirst (.s 8) 4) (withS 0 0)).map (fun t => t.sregs[8]) = some 0xFFFFFFFF ∧
    (after (.mget (.s 9) 1 .zero) (withS 0 0)).map (fun t => t.sregs[9]) = some 5 ∧ (after (.mpopc (.v 7) 1) (withS 0 0)).map (fun t => t.wait) = some .halting := by decide +kernel

/-! ## Floating point (R253 to R259); FPST: NV 1, DZ 2, OF 4, UF 8, NX 16 -/

theorem test_float_sums : rowsHold [
    ⟨.fadd d4 a0 b2, 0xE009, 0x4B800000, 0x3F800000, 0, 0x4B800000, 16⟩, ⟨.fadd d4 a0 b2, 0xE029, 0x4B800000, 0x3F800000, 0, 0x4B800001, 16⟩,
    ⟨.fadd d4 a0 b2, 0xE009, 0x7F800000, 0xFF800000, 0, 0x7FC00000, 1⟩, ⟨.fsub d4 a0 b2, 0xE039, 0x3F800000, 0x3F800000, 0, 0x80000000, 0⟩,
    ⟨.fmul d4 a0 b2, 0xE009, 0x7F7FFFFF, 0x40000000, 0, 0x7F800000, 20⟩, ⟨.fmul d4 a0 b2, 0xE00A, 0x3FF8000000000000, 0xC000000000000000, 0, 0xC008000000000000, 0⟩,
    ⟨.fma d4 a0 b2, 0xE009, 0x3F800001, 0x3F800001, 0xBF800000, 0x34800000, 16⟩, ⟨.fnma d4 a0 b2, 0xE009, 0x40000000, 0x40400000, 0x40C00000, 0, 0⟩,
    ⟨.fdot2 d4 a0 b2, 0xE007, 0x40003F80, 0x40404000, 0x3F000000, 0x41080000, 0⟩] := by decide +kernel

theorem test_float_picks : rowsHold [
    ⟨.fmin d4 a0 b2, 0xE009, 0x80000000, 0, 0, 0x80000000, 0⟩, ⟨.fmax d4 a0 b2, 0xE009, 0x7FC00000, 0xC0000000, 0, 0xC0000000, 0⟩,
    ⟨.fmax d4 a0 b2, 0xE009, 0x7F800001, 0xC0000000, 0, 0xC0000000, 1⟩, ⟨.fabs d4 a0, 0xE007, 0xBF80FFC1, 0, 0, 0x3F807FC1, 0⟩,
    ⟨.fneg d4 a0, 0xE00A, 0, 0, 0, 0x8000000000000000, 0⟩, ⟨.frint d4 a0, 0xE009, 0xBECCCCCD, 0, 0, 0x80000000, 16⟩,
    ⟨.frint d4 a0, 0xE029, 0x3ECCCCCD, 0, 0, 0x3F800000, 16⟩, ⟨.fldexp d4 a0 b2, 0xE009, 0x3F800000, 0xFFFFFFFD, 0, 0x3E000000, 0⟩,
    ⟨.fclass d4 a0, 0xE007, 0x0001FF80, 0, 0, 0x00200001, 0⟩, ⟨.fclass d4 a0, 0xE009, 0x7F800001, 0, 0, 0x100, 0⟩] := by decide +kernel

/-- The examples of R258, R259, R148. -/
theorem test_conversions : rowsHold [
    ⟨.cvtf d4 a0, 0xE000, 0x40200000, 0, 0, 2, 16⟩, ⟨.cvtf d4 a0, 0xE040, 0x40200000, 0, 0, 3, 16⟩, ⟨.cvtf d4 a0, 0xE000, 0x4F800000, 0, 0, 0x7FFFFFFF, 1⟩,
    ⟨.cvtn d4 a0, 0xE000, 0x80000000, 0, 0, 0x80000000, 0⟩, ⟨.cvtn d4 a0, 0xE100, 0x80000000, 0, 0, 0x7FFFFFFF, 0⟩, ⟨.cvti d4 a0, 0xE009, 0xFFFFFFFF, 0, 0, 0xBF800000, 0⟩,
    ⟨.cvtl d4 a0, 0xE00A, 0xFFFFFFFFFFFFFFFF, 0, 0, 0xBFF0000000000000, 0⟩, ⟨.cvtd d4 a0, 0xE009, 0x3FF0000000000000, 0, 0, 0x3F800000, 0⟩,
    ⟨.cvtb d4 a0, 0xE009, 0xFFFF3F80, 0, 0, 0x3F800000, 0⟩, ⟨.cvth d4 a0, 0xE009, 0x00013C00, 0, 0, 0x3F800000, 0⟩, ⟨.pack2 d4 a0 b2, 0xE007, 0x3F808000, 0xC0000000, 0, 0xC0003F80, 16⟩] := by decide +kernel

/-- A special function's result, bound at issue: one operation counted on r0, to be written late in slot 0's v4, with its exceptions (R255). -/
def writesLate (r : Instr × Nat × Nat × Word × BitVec 5) : Bool :=
  match after r.1 (oneLane 0xE009 r.2.1 r.2.2.1 0) with
  | some t => decide (t.late.map (fun o => o.vwrites) = [[(0, 4, r.2.2.2.1)]]) && decide (t.late.map (fun o => o.fpst) = [r.2.2.2.2]) &&
      decide (flagCount t 0 = 1) && decide (t.fpst = 0)
  | none => false

theorem test_special_functions : ∀ r ∈ ([
    (.fdiv d4 a0 b2, 0x3F800000, 0, 0x7F800000, 2), (.fsqrt d4 a0, 0x40800000, 0, 0x40000000, 0), (.frcp d4 a0, 0x40800000, 0, 0x3E800000, 0),
    (.frsq d4 a0, 0x40800000, 0, 0x3F000000, 0), (.fexp2 d4 a0, 0x40400000, 0, 0x41000000, 0), (.flog2 d4 a0, 0x41000000, 0, 0x40400000, 0),
    (.fsin d4 a0, 0x7F800000, 0, 0x7FC00000, 1), (.fcos d4 a0, 0x80000000, 0, 0x3F800000, 0), (.ftanh d4 a0, 0xFF800000, 0, 0xBF800000, 0)] :
    List (Instr × Nat × Nat × Word × BitVec 5)), writesLate r = true := by decide +kernel

/-! ## Ringsets (R138 to R152): the example ring of the chapter, points −2, −1, −½, 0, ½, 1, 2 -/

def exampleRing : Ring := { form := 0, points := [0xC0000000, 0xBF800000, 0xBF000000, 0, 0x3F000000, 0x3F800000, 0x40000000], building := false }

/-- A row under a team whose slot 0 holds the ring. -/
abbrev ringRows (l : List Row) : Prop := ∀ r ∈ l, r.holds { oneLane r.mode r.a r.b r.d with rings := [some exampleRing, none, none, none] } = true

theorem test_ring_arithmetic : ringRows [
    ⟨.rsadd d4 a0 b2, 0xE00B, 0x0030, 0x0800, 0, 0x0380, 0⟩, ⟨.rsmul d4 a0 b2, 0xE00B, 0x0008, 0x2000, 0, 0x000E, 0⟩,
    ⟨.rsmul d4 a0 b2, 0xE00B, 0x0100, 0x0001, 0, 0xFFFF, 0⟩, ⟨.rsdiv d4 a0 b2, 0xE00B, 0x1000, 0x0100, 0, 0x0001, 0⟩,
    ⟨.rssqr d4 a0, 0xE00B, 0x2008, 0, 0, 0xE000, 0⟩, ⟨.rsmul d4 a0 b2, 0xE00B, 0x2008, 0x2008, 0, 0xE00E, 0⟩,
    ⟨.rssub d4 a0 b2, 0xE00B, 0x0100, 0x1000, 0, 0x0010, 0⟩, ⟨.rsneg d4 a0, 0xE00B, 0x0008, 0, 0, 0x2000, 0⟩, ⟨.rsrcp d4 a0, 0xE00B, 0x0200, 0, 0, 0x8000, 0⟩,
    ⟨.rsunion d4 a0 b2, 0xE00B, 0x0030, 0x0800, 0, 0x0830, 0⟩, ⟨.rsisect d4 a0 b2, 0xE00B, 0x0FF0, 0xF8F0, 0, 0x08F0, 0⟩,
    ⟨.rshull d4 a0, 0xE00B, 0x1010, 0, 0, 0x1FF0, 0⟩] := by decide +kernel

theorem test_ring_bounds : ringRows [
    ⟨.rslo d4 a0, 0xE00B, 0x0380, 0, 0, 0x1BF000000, 0⟩, ⟨.rshi d4 a0, 0xE00B, 0x0380, 0, 0, 0x13F000000, 0⟩, ⟨.rslo d4 a0, 0xE00B, 1, 0, 0, 0x67FC00000, 0⟩,
    ⟨.rsconv d4 a0 .zero, 0xE00B, 0x0380, 0, 0, 0x0380, 0⟩, ⟨.ringq d4 a0, 0xE000, 1, 0, 0, 0xC0000000, 0⟩, ⟨.ringq d4 a0, 0xE000, 8, 0, 0, 0x7FC00000, 0⟩,
    ⟨.cvtf d4 a0, 0xE00B, 0x3F400000, 0, 0, 0x0800, 0⟩, ⟨.cvtf d4 a0, 0xE00B, 0x7F800000, 0, 0, 1, 0⟩, ⟨.cvti d4 a0, 0xE00B, 0xFFFFFFFD, 0, 0, 2, 0⟩] := by decide +kernel

/-- R145: an empty slot is a RING trap, and the team of this launch, which has no handler, halts. -/
theorem test_ring_trap : (after (.rsadd d4 a0 b2) (oneLane 0xE00B 0 0 0)).map (fun t => (t.wait, t.halt.map Prod.fst)) = some (.halting, some (classCode .ring)) := by
  decide +kernel

/-! ## Between lanes (R266 to R270, R295 to R298): the tables of R270, R297 and R298 in a span of 16 -/

/-- A team of eight lanes, v1, v2 and v3 holding lists. -/
def lanes8 (mode : Word) (n : Nat) (v1 v2 v3 : List Word) : Team :=
  { team0 with
    mode := mode, exec := lowMask n, frame := lowMask n, cfg := { team0.cfg with span := 16 },
    vregs := (List.range 8).flatMap (fun k => [(192 * k + 1, nthD v1 k 0), (192 * k + 2, nthD v2 k 0), (192 * k + 3, nthD v3 k 0)]) }

/-- Register r of the lanes after an instruction. -/
def column (i : Instr) (t : Team) (n r : Nat) : Option (List Word) := (after i t).map (fun t1 => (List.range n).map (fun k => regOf t1 k (.v r)))

def keys : List Word := [3, 5, 3, 3, 9, 5, 3, 9]
def values : List Word := [0x4B800000, 0x40000000, 0x3F800000, 0x3F800000, 0x3F000000, 0x40400000, 0xCB800000, 0x3E800000]

theorem test_equal_values : column (.confd (.v 4) (.v 1)) (lanes8 0xE009 8 keys [] values) 8 4 = some [0, 1, 0, 0, 4, 1, 0, 4] ∧
    column (.keyadd (.v 4) (.v 1) (.v 3)) (lanes8 0xE009 8 keys [] values) 8 4 = some [0, 0x40A00000, 0, 0, 0x3F400000, 0, 0, 0] := by decide +kernel

def listA : List Word := [2, 5, 7, 9, 12, 20, 0xFFFFFFFF, 0xFFFFFFFF]
def listB : List Word := [3, 5, 9, 10, 12, 14, 15, 0xFFFFFFFF]

theorem test_isect :
    column (.isect (.v 10) (.v 2) (.v 3)) (lanes8 0xE000 8 [] listA listB) 4 10 = some [0x0101, 0x0203, 0x0404, 0xFFFFFFFF] ∧
    column (.isect (.v 10) (.v 2) (.v 3)) (lanes8 0xE000 8 [] listA listB) 2 11 = some [0x00030705, 0x00030705] := by decide +kernel

theorem test_merge :
    column (.merge (.v 10) (.v 2) (.v 3)) (lanes8 0xE000 8 [] listA listB) 8 10 = some [2, 3, 5, 7, 9, 10, 12, 14] ∧
    column (.merge (.v 10) (.v 2) (.v 3)) (lanes8 0xE000 8 [] listA listB) 8 11 =
      some [0x0605FF00, 0x060500FF, 0x06050101, 0x0605FF02, 0x06050203, 0x060503FF, 0x06050404, 0x060505FF] := by decide +kernel

theorem test_mpsplit :
    column (.mpsplit (.v 10) (.v 2) (.v 3)) (lanes8 0xE000 6 [] [2, 2, 5, 6, 0xFFFFFFFF, 0xFFFFFFFF] [0, 2, 4, 6, 8, 10]) 6 10 = some [0, 0, 2, 2, 3, 4] ∧
    column (.mpsplit (.v 10) (.v 2) (.v 3)) (lanes8 0xE000 6 [] [2, 2, 5, 6, 0xFFFFFFFF, 0xFFFFFFFF] [0, 2, 4, 6, 8, 10]) 6 11 = some [0, 2, 2, 4, 5, 6] := by
  decide +kernel

def ramp : List Word := [10, 11, 12, 13, 14, 15, 16, 17]

theorem test_shuffles :
    column (.shfl (.v 4) (.v 1) (.v 2)) (lanes8 0xE000 4 ramp [3, 0, 7, 16] []) 4 4 = some [13, 10, 0, 0] ∧
    column (.shflx (.v 4) (.v 1) (.v 2)) (lanes8 0xE000 4 ramp [1, 1, 1, 1] []) 4 4 = some [11, 10, 13, 12] ∧
    column (.shflup (.v 4) (.v 1) (.v 2)) (lanes8 0xE000 4 ramp [1, 1, 1, 1] []) 4 4 = some [0, 10, 11, 12] ∧
    column (.shfldn (.v 4) (.v 1) (.v 2)) (lanes8 0xE000 4 ramp [1, 1, 1, 0xFFFFFFFF] []) 4 4 = some [11, 12, 13, 0] := by decide +kernel

theorem test_votes :
    column (.voteany (.v 4) (.v 1)) (lanes8 0xE000 3 [0, 0, 5] [] []) 3 4 = some [1, 1, 1] ∧
    column (.voteall (.v 4) (.v 1)) (lanes8 0xE000 3 [0, 4, 5] [] []) 3 4 = some [0, 0, 0] ∧
    column (.ballot (.v 4) (.v 1)) (lanes8 0xE000 3 [1, 0, 5, 6] [] []) 3 4 = some [5, 5, 5] := by decide +kernel

/-- R269: inputs 5, 7 and 1 with lane 1 masked off by the guard m1. -/
theorem test_scan : column (.scanadd (.v 4) (.v 1)) { lanes8 0xE200 3 [5, 7, 1] [] [] with masks := team0.masks.set 1 5 } 3 4 = some [5, 0, 6] := by decide +kernel

theorem test_reductions :
    column (.redadd (.v 4) (.v 1)) (lanes8 0xE000 4 [1, 2, 3, 0xFFFFFFFF] [] []) 2 4 = some [5, 5] ∧
    column (.redmin (.v 4) (.v 1)) (lanes8 0xE000 4 [1, 2, 3, 0xFFFFFFFF] [] []) 1 4 = some [0xFFFFFFFF] ∧
    column (.redmax (.v 4) (.v 1)) (lanes8 0xE001 4 [1, 2, 3, 0xFFFFFFFE] [] []) 1 4 = some [0xFFFFFFFE] ∧
    column (.redor (.v 4) (.v 1)) (lanes8 0xE000 4 [1, 2, 8, 0x10] [] []) 1 4 = some [0x1B] ∧
    column (.redun (.v 4) (.v 1)) { lanes8 0xE00B 2 [0x30, 0x800] [] [] with rings := [some exampleRing] } 2 4 = some [0x830, 0x830] := by decide +kernel

/-! ## Memory: the scratchpad window, and pages of context 0 whose four levels share one table at 0x10000 -/

/-- A leaf entry of R57: V, leaf, R, W, X, accessed and dirty, with a policy and a page. -/
def leaf (policy page : Nat) : Nat := 0xC1F + 64 * policy + 65536 * page

/-- 64 KiB pages 3 (COHERENT), 4 (STREAM), 5 (DIRECT) and 6 (ACCUM) lie at 0x200000 upward; page 7 is read-only. -/
def pages : Memory :=
  [(0, 0x10001), (3, leaf 0 0x20), (4, leaf 1 0x21), (5, leaf 2 0x22), (6, leaf 3 0x23), (7, leaf 0 0x24 - 8)].foldl
    (fun m e => Memory.writes m (0x10000 + 8 * e.1) (bytesOf 8 e.2)) []

/-- The machine with those pages, and bytes at home. -/
def paged (t : Team) (at_ : Nat) (bs : List Byte) : State :=
  { mach t with mem := Memory.writes pages at_ bs, ctxs := [(0, { root := 0x10000, endpoint := 0, hostFault := false })] }

/-- The state after an instruction, or as it was. -/
def next (i : Instr) (s : State) : State :=
  match exec i s with
  | .next s1 => s1
  | _ => s

/-- What the lanes of the team will have in v4 when its operations complete. -/
def lateV (s : State) : List (Nat × Nat × Word) := ((tblGet s.teams 0).map (fun t => t.late.flatMap LateOp.vwrites)).getD []

/-- The number that n bytes at home make once the team's stores and atomics are home (R201). -/
def homeAfter (s : State) (pa n : Nat) : Nat := (homeRead (drainTeam s 0 team0.cfg) pa n).1

theorem test_pages_canonical : Memory.wf pages = true := by decide +kernel

/-- R279: the loads zero-extend and run with the lowest byte first; LDW takes four registers. -/
theorem test_loads :
    lateV (next (.ld d4 a0 b2) (paged (oneLane 0xE000 0x30000 4 0) 0x200000 (bytesOf 8 0x8877665544332211))) = [(0, 4, 0x88776655)] ∧
    lateV (next (.ldb d4 a0 b2) (paged (oneLane 0xE000 0x30008 0xFFFFFFFF 0) 0x200000 (bytesOf 8 0x8877665544332211))) = [(0, 4, 0x88)] ∧
    lateV (next (.ldh d4 a0 b2) (paged (oneLane 0xE000 0x40000 2 0) 0x210000 (bytesOf 8 0x8877665544332211))) = [(0, 4, 0x4433)] ∧
    lateV (next (.ldw d4 a0 b2) (paged (oneLane 0xE000 0x50000 0 0) 0x220000 (bytesOf 8 0x8877665544332211))) =
      [(0, 4, 0x44332211), (0, 5, 0x88776655), (0, 6, 0), (0, 7, 0)] := by decide +kernel

/-- R279 to R281: the stores write their bytes and no other; one to a page without W parks (R69), one that is not aligned is an ALIGN trap (R273). -/
theorem test_stores :
    homeAfter (next (.st d4 a0 b2) (paged (oneLane 0xE000 0x30000 4 0xAABBCCDD) 0x200000 [1, 2, 3, 4])) 0x200000 9 = 0xAABBCCDD04030201 ∧
    homeAfter (next (.stb d4 a0 b2) (paged (oneLane 0xE000 0x30000 1 0xAABBCCDD) 0x200000 [1, 2, 3, 4])) 0x200000 4 = 0x0403DD01 ∧
    homeAfter (next (.sth d4 a0 b2) (paged (oneLane 0xE000 0x50000 2 0xAABBCCDD) 0x220000 [1, 2, 3, 4])) 0x220000 4 = 0xCCDD0201 ∧
    homeAfter (next (.stw d4 a0 b2) (paged (oneLane 0xE000 0x40000 0 0xAABBCCDD) 0x210000 [1, 2, 3, 4])) 0x210000 17 = 0xAABBCCDD ∧
    (tblGet (next (.st d4 a0 b2) (paged (oneLane 0xE000 0x70000 0 1) 0x240000 [])).teams 0).map Team.wait = some .fault ∧
    (tblGet (next (.st d4 a0 b2) (paged (oneLane 0xE000 0x30001 0 1) 0x200000 [])).teams 0).map (fun t => t.halt.map Prod.fst) = some (some (classCode .align)) := by
  decide +kernel

/-- R74, R281: the team's own window, and SLD and SST, whose address is an offset in it. -/
theorem test_scratchpad :
    lateV (next (.sld d4 a0 b2) ((mach (oneLane 0xE000 8 4 0)).updCore 0 (fun c => { c with scratch := Memory.writes [] 12 (bytesOf 4 0xCAFE) }))) = [(0, 4, 0xCAFE)] ∧
    Memory.reads ((next (.sst d4 a0 b2) (mach (oneLane 0xE000 8 4 0x01020304))).core 0).scratch 12 4 = [4, 3, 2, 1] ∧
    (after (.sst d4 a0 b2) (oneLane 0xE000 768 0 1)).map (fun t => t.halt.map Prod.fst) = some (some (classCode .window)) := by decide +kernel

/-- An atomic on page 3, of y in v4 (and, for a compare, v5) on a word x: what memory holds after, and what returns. -/
def atomic (i : Instr) (mode : Word) (x y : Nat) : Nat × List (Nat × Nat × Word) :=
  let s := drainTeam (next i (paged (oneLane mode 0x30000 0 y) 0x200000 (bytesOf 8 x))) 0 team0.cfg
  ((homeRead s 0x200000 8).1, lateV s)

theorem test_atomics : ∀ r ∈ ([
    (.aadd d4 a0 b2, 0xE000, 5, 0xFFFFFFFF, 4, 5), (.amin d4 a0 b2, 0xE000, 5, 0xFFFFFFFF, 0xFFFFFFFF, 5), (.amax d4 a0 b2, 0xE001, 5, 0xFFFFFFFF, 0xFFFFFFFF, 5),
    (.aand d4 a0 b2, 0xE000, 6, 3, 2, 6), (.aor d4 a0 b2, 0xE000, 6, 3, 7, 6), (.axor d4 a0 b2, 0xE000, 6, 3, 5, 6), (.axchg d4 a0 b2, 0xE000, 6, 3, 3, 6),
    (.afadd d4 a0 b2, 0xE009, 0x3F800000, 0x40000000, 0x40400000, 0x3F800000), (.afmin d4 a0 b2, 0xE009, 0x3F800000, 0xC0000000, 0xC0000000, 0x3F800000),
    (.afmax d4 a0 b2, 0xE009, 0x3F800000, 0xC0000000, 0x3F800000, 0x3F800000)] : List (Instr × Word × Nat × Nat × Nat × Word)),
    atomic r.1 r.2.1 r.2.2.1 r.2.2.2.1 = (r.2.2.2.2.1, [(0, 4, r.2.2.2.2.2)]) := by decide +kernel

theorem test_compare_and_swap :
    atomic (.acas d4 a0 b2) 0xE000 9 0x0000000700000009 = (7, [(0, 5, 9)]) ∧ atomic (.acas d4 a0 b2) 0xE000 8 0x0000000700000009 = (8, [(0, 5, 8)]) := by
  decide +kernel

theorem test_silent_atomics : ∀ r ∈ ([
    (.stadd d4 a0 b2, 0xE000, 5, 0xFFFFFFFF, 4), (.stmin d4 a0 b2, 0xE000, 5, 0xFFFFFFFF, 0xFFFFFFFF), (.stmax d4 a0 b2, 0xE001, 5, 0xFFFFFFFF, 0xFFFFFFFF),
    (.stand d4 a0 b2, 0xE000, 6, 3, 2), (.stor d4 a0 b2, 0xE000, 6, 3, 7), (.stxor d4 a0 b2, 0xE000, 6, 3, 5),
    (.stfadd d4 a0 b2, 0xE009, 0x3F800000, 0x40000000, 0x40400000), (.stfmin d4 a0 b2, 0xE009, 0x3F800000, 0xC0000000, 0xC0000000),
    (.stfmax d4 a0 b2, 0xE009, 0x3F800000, 0xC0000000, 0x3F800000)] : List (Instr × Word × Nat × Nat × Nat)),
    atomic r.1 r.2.1 r.2.2.1 r.2.2.2.1 = (r.2.2.2.2, []) := by decide +kernel

/-! ## Witnesses: a state and operands that meet the hypotheses of each statement, clause by clause -/

/-- Team u stands in its clause at the issue slot, as a test that can be run. -/
def issuingB (s : State) (u : Nat) (t : Team) (c : Clause) : Bool :=
  !s.trust.halted && decide (s.cur = some u) && decide (tblGet s.teams u = some t) && decide (t.clause = some c) && decide (t.wait = .none)

theorem issuing_of {s : State} {u : Nat} {t : Team} {c : Clause} (h : issuingB s u t c = true) : Issuing s u t c := by
  simp only [issuingB, Bool.and_eq_true, Bool.not_eq_true', decide_eq_true_eq] at h
  exact ⟨h.1.1.1.1, h.1.1.1.2, h.1.1.2, h.1.2, h.2⟩

/-- A team in a clause stands at the issue slot of its machine. -/
theorem issuing_mach (t : Team) (c : Clause) (hc : t.clause = some c) (hw : t.wait = .none) : Issuing (mach t) 0 t c := ⟨rfl, rfl, rfl, hc, hw⟩

/-- The same on a machine with pages. -/
theorem issuing_paged (t : Team) (c : Clause) (a : Nat) (bs : List Byte) (hc : t.clause = some c) (hw : t.wait = .none) :
    Issuing (paged t a bs) 0 t c := ⟨rfl, rfl, rfl, hc, hw⟩

/-- A pair of state components from each. -/
theorem pair_of {α β : Type} {p : α × β} {a : α} (h : p.1 = a) : p = (a, p.2) := by subst h; rfl

/-- Checks 2 to 4 of R231, as a test that can be run. -/
def legalB (i : Instr) (t : Team) (late : Bool) (types : Nat → Bool) (ops : List Opnd) : Bool :=
  i.wellFormed && opndsOk t.cfg.budget late ops && types (modeType t.mode)

theorem legal_of {i : Instr} {t : Team} {late : Bool} {types : Nat → Bool} {ops : List Opnd} (h : legalB i t late types ops = true) :
    Legal i t late types ops := by
  simp only [legalB, Bool.and_eq_true] at h
  exact ⟨h.1.1, h.1.2, h.2⟩

/-- No lane of a team without poison reads a poisoned register. -/
theorem clean (t : Team) (h : poisonOf t = []) (ops : List Opnd) (m : Mask) : Unpoisoned t ops m := by
  simp [Unpoisoned, poisonedLanes, h]

/-- What a test says of every entry of a list. -/
theorem each {α : Type} {l : List α} {f : α → Bool} {P : α → Prop} (h : l.all f = true) (hp : ∀ x, f x = true → P x) : ∀ x ∈ l, P x :=
  fun x hx => hp x (List.all_eq_true.mp h x hx)

/-- The team of the witnesses of lane instructions, in its clause. -/
def laneT (mode : Word) : Team := oneLane mode 6 3 1
theorem laneT_issuing (mode : Word) : Issuing (mach (laneT mode)) 0 (laneT mode) (clauseOf 0 0) := issuing_mach _ _ rfl rfl
theorem laneT_clean (mode : Word) (ops : List Opnd) (m : Mask) : Unpoisoned (laneT mode) ops m := clean _ rfl _ _

theorem witness_OperandsReadAsR220Says :
    isReg (.v 191) = true ∧ team0.captured = none ∧ ({ team0 with captured := some (capture team0) } : Team).captured = some (capture team0) := ⟨rfl, rfl, rfl⟩

theorem witness_MovesSelectionsAndNop :
    Issuing (mach (laneT 0xE002)) 0 (laneT 0xE002) (clauseOf 0 0) ∧
    (∀ p ∈ [(Instr.mov d4 a0, 1), (.mov2 d4 a0, 2), (.mov4 d4 a0, 4)], Legal p.1 (laneT 0xE002) false anyType [dst d4 p.2, src a0 p.2]) ∧
    (∀ ops m, Unpoisoned (laneT 0xE002) ops m) ∧ Legal (.getmode (.s 5)) (laneT 0xE002) false anyType [dst (.s 5) 1] ∧
    Legal (.sel d4 a0 b2) (laneT 0xE002) false anyType [dst d4 2, src a0 2, src b2 2, src .laneid 1] ∧ isSreg (.s 3) = true ∧
    Legal (.unif (.s 4) (.s 1)) (laneT 0xE002) false anyType [named (.s 1) 1] ∧ isPerLane (.s 1) = false ∧
    Legal (.unif (.s 4) a0) (laneT 0xE002) false anyType [named a0 1] ∧ isPerLane a0 = true ∧
    slotsOf 32 (lanesOn (laneT 0xE002)) = [0] ∧ lanePoisoned (laneT 0xE002) a0 1 0 = false ∧
    slotsOf 32 (lanesOn { laneT 0xE202 with masks := team0.masks }) = [] ∧ isSreg (.w 0) = false := by
  refine ⟨laneT_issuing _, each (f := fun p => legalB p.1 (laneT 0xE002) false anyType [dst d4 p.2, src a0 p.2]) ?_ (fun _ h => legal_of h),
    laneT_clean _, legal_of ?_, legal_of ?_, ?_, legal_of ?_, ?_, legal_of ?_, ?_⟩ <;> decide +kernel

/-- The condition of R241 on a new value of MODE, as SETMODE's statement puts it. -/
abbrev ModeFine (m : Word) : Prop := (m.extractLsb 3 0).toNat ≤ 13 ∧ (m.extractLsb 6 4).toNat ≤ 4 ∧ (m.extractLsb 15 13).toNat ≠ 0 ∧
  (m.extractLsb 31 19).toNat = 0 ∧ ¬ (m.getLsbD 12 = true ∧ (m.extractLsb 11 9).toNat = 0)

/-- R241: a legal value at the ends of its fields, and one value that each condition refuses; R242: RDSR and WRSR by number. -/
theorem witness_ModeAndSpecialRegisters :
    Issuing (mach (laneT 0xE000)) 0 (laneT 0xE000) (clauseOf 0 0) ∧ Legal (.setmode .lit) (laneT 0xE000) false anyType [src .lit 1] ∧
    (ModeFine 0x2000 ∧ ModeFine 0x7FE4D) ∧ (¬ ModeFine 0x200E ∧ ¬ ModeFine 0x2050 ∧ ¬ ModeFine 0 ∧ ¬ ModeFine 0x82000 ∧ ¬ ModeFine 0x3000) ∧
    Legal (.rdsr (.s 6) .lit) (laneT 0xE000) false anyType [dst (.s 6) 1, src .lit 1] ∧ (0, 0, 1) ∈ specialTable (mach (laneT 0xE000)) (laneT 0xE000) ∧
    (3, 0, 2) ∈ specialTable (mach (laneT 0xE000)) (laneT 0xE000) ∧ opndOk 192 (dst (.s 6) 2) = true ∧
    readVal (laneT 0xE000) 6 0 .lit 1 = 6 ∧ 8 ≤ readVal (laneT 0xE000) 8 0 .lit 1 ∧ opndOk 192 (dst (.s 5) 2) = false ∧
    Legal (.rdsr (.s 5) .lit) (laneT 0xE000) false anyType [dst (.s 5) 1, src .lit 1] ∧
    Legal (.wrsr .lit .zero) (laneT 0xE000) false anyType [src .lit 1, src .zero 1] := by
  refine ⟨laneT_issuing _, legal_of ?_, ?_, ?_, legal_of ?_, ?_, ?_, ?_, ?_, ?_, ?_, legal_of ?_, legal_of ?_⟩ <;> decide +kernel

theorem witness_IntegerResults :
    Issuing (mach (laneT 0xE005)) 0 (laneT 0xE005) (clauseOf 0 0) ∧ (∀ ops m, Unpoisoned (laneT 0xE005) ops m) ∧
    (∀ p ∈ integerBinary d4 a0 b2, Legal p.1 (laneT 0xE005) false isIntType [dst d4 1, src a0 1, src b2 1]) ∧
    (∀ p ∈ integerUnary d4 a0, Legal p.1 (laneT 0xE005) false isIntType [dst d4 1, src a0 1]) ∧
    (∀ p ∈ [Instr.lea0 d4 a0 b2, .lea2 d4 a0 b2, .lea3 d4 a0 b2], Legal p (laneT 0xE005) false anyType [dst d4 2, src a0 2, src b2 1]) := by
  refine ⟨laneT_issuing _, laneT_clean _,
    each (f := fun p => legalB p.1 (laneT 0xE005) false isIntType [dst d4 1, src a0 1, src b2 1]) ?_ (fun _ h => legal_of h),
    each (f := fun p => legalB p.1 (laneT 0xE005) false isIntType [dst d4 1, src a0 1]) ?_ (fun _ h => legal_of h),
    each (f := fun p => legalB p (laneT 0xE005) false anyType [dst d4 2, src a0 2, src b2 1]) ?_ (fun _ h => legal_of h)⟩ <;> decide +kernel

theorem witness_IntegerResultsOfFields :
    Issuing (mach (laneT 0xE005)) 0 (laneT 0xE005) (clauseOf 0 0) ∧ (∀ ops m, Unpoisoned (laneT 0xE005) ops m) ∧
    Legal (.mad d4 a0 b2) (laneT 0xE005) false isIntType [srcdst d4 1, src a0 1, src b2 1] ∧
    Legal (.bfe d4 a0 b2) (laneT 0xE005) false isIntType [dst d4 1, src a0 1, src b2 1] ∧
    Legal (.bfi d4 a0 b2) (laneT 0xE005) false isIntType [srcdst d4 1, src a0 1, src b2 1] ∧
    controlField 5 0x0007 = none ∧ controlField 5 0x0107 = some (7, 1) ∧ controlField 5 0x0108 = none := by
  refine ⟨laneT_issuing _, laneT_clean _, legal_of ?_, legal_of ?_, legal_of ?_, ?_⟩ <;> decide +kernel

theorem witness_CmpWritesOneBitPerLane :
    Issuing (mach (laneT 0xE004)) 0 (laneT 0xE004) (clauseOf 0 0) ∧ Legal (.cmp 5 7 a0 b2) (laneT 0xE004) false (cmpOk 5) [src a0 1, src b2 1] ∧
    (∀ ops m, Unpoisoned (laneT 0xE004) ops m) ∧ isIntType (modeType (laneT 0xE004).mode) = true ∧
    Legal (.cmp 7 0 a0 b2) (laneT 0xE009) false (cmpOk 7) [src a0 1, src b2 1] ∧ Legal (.cmp 12 0 a0 b2) (laneT 0xE00D) false (cmpOk 12) [src a0 1, src b2 1] := by
  refine ⟨laneT_issuing _, legal_of ?_, laneT_clean _, ?_, legal_of ?_, legal_of ?_⟩ <;> decide +kernel

theorem witness_MaskInstructions :
    Issuing (mach (withS 0 0)) 0 (withS 0 0) (clauseOf 0 0) ∧ (∀ p ∈ maskTable (withS 0 0) 7 0 1, p.1.wellFormed = true) ∧
    Legal (.mset 7 (.s 0) .zero) (withS 0 0) false anyType [src (.s 0) 1, src .zero 1] ∧ Legal (.mpopc (.s 7) 1) (withS 0 0) false anyType [dst (.s 7) 1] ∧
    Legal (.mfirst (.v 7) 1) (withS 0 0) false anyType [dst (.v 7) 1] ∧ Legal (.mget (.s 7) 1 .lit) (withS 0 0) false anyType [dst (.s 7) 1, src .lit 1] ∧
    Legal (.mpopc (.v 7) 1) (withS 0 0) false anyType [dst (.v 7) 1] ∧ Legal (.mfirst (.s 7) 1) (withS 0 0) false anyType [dst (.s 7) 1] ∧
    Legal (.mget (.v 7) 1 .lit) (withS 0 0) false anyType [dst (.v 7) 1, src .lit 1] ∧
    (withS 0 0).masks[4] &&& (withS 0 0).frame = 0 ∧ ((withS 0 0).masks[1] &&& (withS 0 0).frame).getLsbD 0 = true := by
  refine ⟨issuing_mach _ _ rfl rfl, ?_, legal_of ?_, legal_of ?_, legal_of ?_, legal_of ?_, legal_of ?_, legal_of ?_, legal_of ?_,
    ?_⟩ <;> decide +kernel

/-- 1.0, 1.5 and −1.5 in FP32, +0 and −0; each case of the signs of a zero sum and of a zero product. -/
theorem witness_FloatArithmeticRoundsOnce :
    fmtFp32 ∈ formats ∧ (∀ x ∈ [0, 0x80000000, 0x3F800000, 0xBF800000, 0x7F7FFFFF], Finite fmtFp32 x) ∧
    valueOf fmtFp32 0 = 0 ∧ valueOf fmtFp32 0x80000000 = 0 ∧ valueOf fmtFp32 0x3F800000 = 1 ∧ valueOf fmtFp32 0xBF800000 = -1 ∧
    ¬ fmtFp32.signBit ≤ 0 ∧ fmtFp32.signBit ≤ 0x80000000 := by
  refine ⟨by simp [formats], ?_, ?_, ?_, ?_, ?_, by decide, by decide⟩
  · intro x hx
    have h : ∀ x ∈ [0, 0x80000000, 0x3F800000, 0xBF800000, 0x7F7FFFFF], x < 2 * fmtFp32.signBit ∧ x % fmtFp32.signBit < fmtFp32.infBits := by decide
    exact h x hx
  all_goals norm_num [valueOf, magnitude, fmtFp32, FpFmt.signBit, FpFmt.infBits, FpFmt.qmin, FpFmt.bias]

/-- Two NaNs, one on either side, none; quiet ones and a signalling one. -/
theorem witness_FloatElementsPickAndClass :
    modeFtz 0xE009 = false ∧ 0x7FC00000 < 2 * fmtFp32.signBit ∧ NanCode fmtFp32 0x7FC00000 ∧ ¬ NanCode fmtFp32 0x3F800000 ∧ NanCode fmtFp32 0x7F800001 ∧
    fmtFp32.infBits + 2 ^ (fmtFp32.fb - 1) ≤ 0x7FC00000 % fmtFp32.signBit ∧ ¬ fmtFp32.infBits + 2 ^ (fmtFp32.fb - 1) ≤ 0x7F800001 % fmtFp32.signBit ∧
    Issuing (mach (laneT 0xE007)) 0 (laneT 0xE007) (clauseOf 0 0) ∧ (∀ ops m, Unpoisoned (laneT 0xE007) ops m) ∧
    (∀ i ∈ [Instr.fabs d4 a0, .fneg d4 a0, .fclass d4 a0], Legal i (laneT 0xE007) false isFpType [dst d4 1, src a0 1]) := by
  refine ⟨?_, ?_, by unfold NanCode; decide, by unfold NanCode; decide, by unfold NanCode; decide, ?_, ?_, laneT_issuing _, laneT_clean _,
    each (f := fun i => legalB i (laneT 0xE007) false isFpType [dst d4 1, src a0 1]) ?_ (fun _ h => legal_of h)⟩ <;> decide +kernel

theorem witness_FloatResults :
    Issuing (mach (laneT 0xE00A)) 0 (laneT 0xE00A) (clauseOf 0 0) ∧ (∀ ops m, Unpoisoned (laneT 0xE00A) ops m) ∧
    (∀ p ∈ floatBinary d4 a0 b2, Legal p.1 (laneT 0xE00A) false isFpType [dst d4 2, src a0 2, src b2 2]) ∧
    (∀ p ∈ floatTernary d4 a0 b2, Legal p.1 (laneT 0xE00A) false isFpType [srcdst d4 2, src a0 2, src b2 2]) ∧
    Legal (.frint d4 a0) (laneT 0xE00A) false isFpType [dst d4 2, src a0 2] ∧
    Legal (.fldexp d4 a0 b2) (laneT 0xE00A) false isFpType [dst d4 2, src a0 2, src b2 1] ∧
    Issuing (mach (laneT 0xE008)) 0 (laneT 0xE008) (clauseOf 0 0) ∧
    Legal (.fdot2 d4 a0 b2) (laneT 0xE008) false fpPacked [srcdst d4 1, src a0 1, src b2 1] := by
  refine ⟨laneT_issuing _, laneT_clean _,
    each (f := fun p => legalB p.1 (laneT 0xE00A) false isFpType [dst d4 2, src a0 2, src b2 2]) ?_ (fun _ h => legal_of h),
    each (f := fun p => legalB p.1 (laneT 0xE00A) false isFpType [srcdst d4 2, src a0 2, src b2 2]) ?_ (fun _ h => legal_of h), legal_of ?_,
    legal_of ?_, laneT_issuing _, legal_of ?_⟩ <;> decide +kernel

theorem witness_SpecialFunctionsWriteLate :
    Issuing (mach (laneT 0xE009)) 0 (laneT 0xE009) (clauseOf 0 0) ∧ flagCount (laneT 0xE009) 0 ≠ 63 ∧ (∀ ops m, Unpoisoned (laneT 0xE009) ops m) ∧
    Legal (.fdiv d4 a0 b2) (laneT 0xE009) true isFpType [dst d4 1, src a0 1, src b2 1] ∧
    (∀ p ∈ floatSpecial d4 a0, Legal p.1 (laneT 0xE009) true p.2.1 [dst d4 1, src a0 1]) := by
  refine ⟨laneT_issuing _, ?_, laneT_clean _, legal_of ?_,
    each (f := fun p => legalB p.1 (laneT 0xE009) true p.2.1 [dst d4 1, src a0 1]) ?_ (fun _ h => legal_of h)⟩ <;> decide +kernel

/-- A team whose ring slot 0 holds the example ring, and slot 1 an empty one. -/
def ringT (mode : Word) : Team := { laneT mode with rings := [some exampleRing, none, none, none] }
theorem ringT_issuing (mode : Word) : Issuing (mach (ringT mode)) 0 (ringT mode) (clauseOf 0 0) := issuing_mach _ _ rfl rfl
theorem ringT_clean (mode : Word) (ops : List Opnd) (m : Mask) : Unpoisoned (ringT mode) ops m := clean _ rfl _ _
theorem ringT_ready : RingReady (ringT 0xE00B) (modeRing (ringT 0xE00B).mode) (modeType (ringT 0xE00B).mode - 11) exampleRing := ⟨rfl, by decide, rfl⟩

theorem witness_ConversionsToTheTypeOfMode :
    Issuing (mach (ringT 0xE00B)) 0 (ringT 0xE00B) (clauseOf 0 0) ∧ WorksIn (ringT 0xE00B) (some exampleRing) ∧ WorksIn (laneT 0xE00A) none ∧
    (∀ p ∈ conversions d4 a0, Legal p.1 (ringT 0xE00B) false cvtType [dst d4 1, src a0 p.2.1] ∧ Legal p.1 (laneT 0xE00A) false cvtType [dst d4 2, src a0 p.2.1]) ∧
    (∀ ops m, Unpoisoned (ringT 0xE00B) ops m) ∧ Legal (.pack2 d4 a0 b2) (laneT 0xE008) false fpPacked [dst d4 1, src a0 1, src b2 1] ∧
    WorksIn (laneT 0xE008) none := by
  refine ⟨ringT_issuing _, ⟨fun _ => ⟨_, rfl, ringT_ready⟩, fun h => absurd h (by decide)⟩, ⟨fun h => absurd h (by decide), fun _ => rfl⟩,
    each (f := fun p => legalB p.1 (ringT 0xE00B) false cvtType [dst d4 1, src a0 p.2.1] && legalB p.1 (laneT 0xE00A) false cvtType [dst d4 2, src a0 p.2.1]) ?_ (fun _ h => ⟨legal_of (Bool.and_eq_true _ _ ▸ h).1, legal_of (Bool.and_eq_true _ _ ▸ h).2⟩),
    ringT_clean _, legal_of ?_, ⟨fun h => absurd h (by decide), fun _ => rfl⟩⟩ <;> decide +kernel

theorem witness_RingArithmeticCoversItsImage :
    exampleRing.form ≤ 2 ∧ pointsValid exampleRing.form exampleRing.points = true ∧ 0xFFFF < 2 ^ ringN exampleRing.form ∧ 15 < ringN exampleRing.form := by decide

theorem witness_RingsetInstructions :
    Issuing (mach (ringT 0xE00B)) 0 (ringT 0xE00B) (clauseOf 0 0) ∧ (∀ ops m, Unpoisoned (ringT 0xE00B) ops m) ∧
    RingReady (ringT 0xE00B) (modeRing (ringT 0xE00B).mode) (modeType (ringT 0xE00B).mode - 11) exampleRing ∧
    (∀ p ∈ ringBinary d4 a0 b2, Legal p.1 (ringT 0xE00B) false isRingType [dst d4 1, src a0 1, src b2 1]) ∧
    (∀ p ∈ ringUnary d4 a0, Legal p.1 (ringT 0xE00B) false isRingType [dst d4 1, src a0 1]) ∧
    (∀ i ∈ [Instr.rslo d4 a0, .rshi d4 a0], Legal i (ringT 0xE00B) false isRingType [dst d4 2, src a0 1]) ∧
    Legal (.rsconv d4 a0 .zero) (ringT 0xE00B) false isRingType [dst d4 1, src a0 1, src .zero 1] ∧
    RingReady (ringT 0xE00B) (readVal (ringT 0xE00B) 0 0 .zero 1) exampleRing.form exampleRing ∧
    Legal (.ringq d4 a0) (ringT 0xE000) false anyType [dst d4 1, src a0 1] ∧ RingReady (ringT 0xE000) (modeRing (ringT 0xE000).mode) exampleRing.form exampleRing ∧
    ringSlot (ringT 0x2E00B) (modeRing (ringT 0x2E00B).mode) = none ∧
    (∀ q, ringSlot (ringT 0xE00C) (modeRing (ringT 0xE00C).mode) = some q → q.form ≠ modeType (ringT 0xE00C).mode - 11) := by
  refine ⟨ringT_issuing _, ringT_clean _, ringT_ready,
    each (f := fun p => legalB p.1 (ringT 0xE00B) false isRingType [dst d4 1, src a0 1, src b2 1]) ?_ (fun _ h => legal_of h),
    each (f := fun p => legalB p.1 (ringT 0xE00B) false isRingType [dst d4 1, src a0 1]) ?_ (fun _ h => legal_of h),
    each (f := fun i => legalB i (ringT 0xE00B) false isRingType [dst d4 2, src a0 1]) ?_ (fun _ h => legal_of h), legal_of ?_,
    ⟨by decide +kernel, rfl, rfl⟩, legal_of ?_, ⟨by decide +kernel, rfl, rfl⟩, ?_,
    by
      intro q h
      have : q = exampleRing := by
        have e : ringSlot (ringT 0xE00C) (modeRing (ringT 0xE00C).mode) = some exampleRing := by decide +kernel
        rw [e] at h
        exact (Option.some.inj h).symm
      subst this
      decide +kernel⟩ <;> decide +kernel

/-- The example ring's descriptor at offset 16 of the scratchpad allocation. -/
def ringWindow : State :=
  let t := { oneLane 0xE000 0 0 0 with sregs := (team0.sregs.set 2 0x10).set 3 0xFF000 }
  (mach t).updCore 0 (fun c => { c with scratch := Memory.writes [] 16 (bytesOf 16 (0 + 2 ^ 32 * 7) ++ exampleRing.points.flatMap (fun w => bytesOf 4 w.toNat)) })
def ringWindowT : Team := { oneLane 0xE000 0 0 0 with sregs := (team0.sregs.set 2 0x10).set 3 0xFF000 }

theorem witness_RingldLoadsAndBuilds :
    Issuing ringWindow 0 ringWindowT (clauseOf 0 0) ∧ Legal (.ringld .zero (.s 2)) ringWindowT true anyType [src .zero 1, src (.s 2) 2] ∧
    slicePending ringWindowT = false ∧ flagCount ringWindowT 1 ≠ 63 ∧ readVal ringWindowT 0 0 (.s 2) 2 = 0xFF00000000000 + 16 ∧
    natOfBytes (Memory.reads (ringWindow.core 0).scratch 16 16) = 0 + 2 ^ 32 * (ringK 0 - 1) ∧
    pointsValid 0 (wordsOfBytes (Memory.reads (ringWindow.core 0).scratch 32 28)) = true ∧ 16 + 16 + 4 * (ringK 0 - 1) ≤ ringWindowT.cfg.spsize ∧
    (ringWindow.core 0).poisonScratch = [] ∧ ringWindowT.rings.length ≤ readVal ringWindowT 4 0 .lit 1 ∧
    readVal { ringWindowT with sregs := ringWindowT.sregs.set 2 0x18 } 0 0 (.s 2) 2 % 16 ≠ 0 := by
  refine ⟨issuing_of ?_, legal_of ?_, ?_⟩ <;> decide +kernel

/-- Another form than the slot's under the instructions of one element and of a pair, and an empty source slot of RSCONV. -/
theorem witness_RingTraps :
    Issuing (mach (ringT 0xE00C)) 0 (ringT 0xE00C) (clauseOf 0 0) ∧ (∀ ops m, Unpoisoned (ringT 0xE00C) ops m) ∧
    (∀ p ∈ ringBinary d4 a0 b2, Legal p.1 (ringT 0xE00C) false isRingType [dst d4 1, src a0 1, src b2 1]) ∧
    (∀ p ∈ ringUnary d4 a0, Legal p.1 (ringT 0xE00C) false isRingType [dst d4 1, src a0 1]) ∧
    (∀ i ∈ [Instr.rslo d4 a0, .rshi d4 a0], Legal i (ringT 0xE00C) false isRingType [dst d4 2, src a0 1]) ∧
    Legal (.rsconv d4 a0 .lit) (ringT 0xE00C) false isRingType [dst d4 1, src a0 1, src .lit 1] ∧
    RingReady (ringT 0xE00C) (readVal (ringT 0xE00C) 0 0 .lit 1) exampleRing.form exampleRing ∧ ringSlot (ringT 0xE00C) (readVal (ringT 0xE00C) 1 0 .lit 1) = none := by
  refine ⟨ringT_issuing _, ringT_clean _,
    each (f := fun p => legalB p.1 (ringT 0xE00C) false isRingType [dst d4 1, src a0 1, src b2 1]) ?_ (fun _ h => legal_of h),
    each (f := fun p => legalB p.1 (ringT 0xE00C) false isRingType [dst d4 1, src a0 1]) ?_ (fun _ h => legal_of h),
    each (f := fun i => legalB i (ringT 0xE00C) false isRingType [dst d4 2, src a0 1]) ?_ (fun _ h => legal_of h), legal_of ?_,
    ⟨by decide +kernel, rfl, rfl⟩, ?_⟩ <;> decide +kernel

/-- An s destination of each instruction between lanes, under a TYPE it accepts. -/
theorem witness_UniformDestinations :
    Issuing (mach (laneT 0xE000)) 0 (laneT 0xE000) (clauseOf 0 0) ∧ (∀ ops m, Unpoisoned (laneT 0xE000) ops m) ∧ (laneT 0xE000).retry = none ∧ isSreg (.s 4) = true ∧
    (∀ i ∈ [Instr.shfl (.s 4) a0 b2, .shflx (.s 4) a0 b2, .shflup (.s 4) a0 b2, .shfldn (.s 4) a0 b2, .voteany (.s 4) a0, .voteall (.s 4) a0, .ballot (.s 4) a0,
      .scanadd (.s 4) a0, .confd (.s 4) a0, .keyadd (.s 4) a0 b2, .isect (.s 4) a0 b2, .merge (.s 4) a0 b2, .mpsplit (.s 4) a0 b2], i.wellFormed = true) ∧
    (∀ p ∈ (reductions (.s 4) a0).take 4, p.1.wellFormed = true ∧ nodeType p.2 (modeType (laneT 0xE000).mode) = true) ∧
    (∀ p ∈ (reductions (.s 4) a0).drop 4, p.1.wellFormed = true ∧ nodeType p.2 (modeType (ringT 0xE00B).mode) = true) ∧ modeType (laneT 0xE000).mode ≤ 10 :=
  ⟨laneT_issuing _, laneT_clean _, rfl, rfl, by decide +kernel⟩

theorem witness_ShufflesAndVotes :
    Issuing (mach (laneT 0xE002)) 0 (laneT 0xE002) (clauseOf 0 0) ∧ (∀ ops m, Unpoisoned (laneT 0xE002) ops m) ∧
    (∀ i ∈ [Instr.shfl d4 a0 b2, .shflx d4 a0 b2, .shflup d4 a0 b2, .shfldn d4 a0 b2], Legal i (laneT 0xE002) false anyType [dst d4 2, across a0 2, src b2 1]) ∧
    Legal (.shfl (.s 4) (.s 0) (.s 2)) (laneT 0xE002) false anyType [dst (.s 4) 2, across (.s 0) 2, src (.s 2) 1] ∧
    (∀ i ∈ [Instr.voteany d4 a0, .voteall d4 a0, .ballot d4 a0], Legal i (laneT 0xE002) false anyType [dst d4 1, across a0 1]) ∧
    0 < (laneT 0xE002).cfg.span ∧ opndOk 192 (dst d4 2) = true := by
  refine ⟨laneT_issuing _, laneT_clean _,
    each (f := fun i => legalB i (laneT 0xE002) false anyType [dst d4 2, across a0 2, src b2 1]) ?_ (fun _ h => legal_of h), legal_of ?_,
    each (f := fun i => legalB i (laneT 0xE002) false anyType [dst d4 1, across a0 1]) ?_ (fun _ h => legal_of h), ?_⟩ <;> decide +kernel

theorem witness_ReductionsFollowTheTree :
    Issuing (mach (ringT 0xE00B)) 0 (ringT 0xE00B) (clauseOf 0 0) ∧ WorksIn (ringT 0xE00B) (some exampleRing) ∧ WorksIn (laneT 0xE000) none ∧
    (laneT 0xE000).cfg.span = 2 ^ 5 ∧ (∀ ops m, Unpoisoned (laneT 0xE000) ops m) ∧
    (∀ p ∈ (reductions d4 a0).take 4, Legal p.1 (laneT 0xE000) false (nodeType p.2) [dst d4 1, across a0 1]) ∧
    (∀ p ∈ [(reductions d4 a0)[0], (reductions d4 a0)[4]], Legal p.1 (ringT 0xE00B) false (nodeType p.2) [dst d4 1, across a0 1]) ∧
    Legal (.scanadd d4 a0) (laneT 0xE000) false (fun ty => decide (ty ≤ 10)) [dst d4 1, across a0 1] ∧
    (isIntType (modeType 0xE105) = true ∧ isFpType (modeType 0xE03A) = true ∧ isRingType (modeType 0xE00B) = true ∧ exampleRing.form = modeType 0xE00B - 11) := by
  refine ⟨ringT_issuing _, ⟨fun _ => ⟨_, rfl, ringT_ready⟩, fun h => absurd h (by decide)⟩, ⟨fun h => absurd h (by decide), fun _ => rfl⟩, ?_,
    laneT_clean _, each (f := fun p => legalB p.1 (laneT 0xE000) false (nodeType p.2) [dst d4 1, across a0 1]) ?_ (fun _ h => legal_of h),
    each (f := fun p => legalB p.1 (ringT 0xE00B) false (nodeType p.2) [dst d4 1, across a0 1]) ?_ (fun _ h => legal_of h),
    legal_of ?_, ?_⟩ <;> decide +kernel

/-- R129, R130: identities of I16X2, of FP32 under RND 0 and RDN, of the three ringset TYPEs; one node of a signed minimum, and one of −0 and −0. -/
theorem test_identities_and_nodes : identity .min 0xE004 = 0x7FFF7FFF ∧ identity .add 0xE009 = 0x80000000 ∧ identity .add 0xE039 = 0 ∧
    identity .add 0xE00B = 0x0100 ∧ identity .add 0xE00C = 0x00010000 ∧ identity .add 0xE00D = 0x0080 ∧ identity .union 0xE00D = 0xFF01 ∧
    nodeOp .min 0xE004 none 0x7FFF8000 0 = (0x8000, 0) ∧ nodeOp .add 0xE009 none 0x80000000 0x80000000 = (0x80000000, 0) := by decide +kernel

theorem witness_SpanListsAndEqualValues :
    Issuing (mach (laneT 0xE00A)) 0 (laneT 0xE00A) (clauseOf 0 0) ∧ (∀ ops m, Unpoisoned (laneT 0xE00A) ops m) ∧ isSreg d4 = false ∧ 0 < (laneT 0xE00A).cfg.span ∧
    Legal (.confd d4 a0) (laneT 0xE00A) false anyType [dst d4 1, across a0 2] ∧
    Legal (.keyadd d4 a0 b2) (laneT 0xE00A) false (fun x => decide (x ≤ 10)) [dst d4 2, across a0 1, across b2 2] ∧
    (∀ i ∈ [Instr.isect d4 a0 b2, .merge d4 a0 b2, .mpsplit d4 a0 b2], Legal i (laneT 0xE00A) false anyType [dst d4 2, across a0 1, across b2 1]) ∧
    Legal (.isect (.s 4) (.s 0) (.s 2)) (laneT 0xE00A) false anyType [dst (.s 4) 2, across (.s 0) 1, across (.s 2) 1] := by
  refine ⟨laneT_issuing _, laneT_clean _, rfl, ?_, legal_of ?_, legal_of ?_,
    each (f := fun i => legalB i (laneT 0xE00A) false anyType [dst d4 2, across a0 1, across b2 1]) ?_ (fun _ h => legal_of h),
    legal_of ?_⟩ <;> decide +kernel


/-! ### Memory -/

/-- A team whose lane addresses a byte address with v2 as offset 0 and data in v4 to v7. -/
def memT (mode : Word) (va : Nat) : Team := oneLane mode va 0 0xAABBCCDD
def memS (mode : Word) (va : Nat) : State := paged (memT mode va) 0x200000 [1, 2, 3, 4]
theorem memT_issuing (mode : Word) (va : Nat) : Issuing (memS mode va) 0 (memT mode va) (clauseOf 0 0) := issuing_paged _ _ _ _ rfl rfl

/-- What a memory instruction's lanes come to: none fails the window check, none parks, and how many are held. -/
def settlesB (s : State) (t : Team) (r : MemRow) (outs parks helds : Bool) : Bool :=
  let lanes := accessesOf t r.op.uniform r.lane
  let from_ := settleFrom s 0 t (clauseOf 0 0) r
  let z := settleLanes from_.1 0 t from_.2 lanes
  (outs || decide (windowFails s t r.op lanes = [])) && (!outs || decide (windowFails s t r.op lanes ≠ [])) &&
  (parks == decide (z.parks ≠ [])) && (helds == decide (z.helds ≠ []))

/-- The checks of a row, and that nothing makes it wait. -/
def rowReadyB (t : Team) (r : MemRow) : Bool :=
  legalB r.instr t r.late r.types r.ops && !slicePending t && (!r.counts || decide (flagCount t 0 ≠ 63))

theorem rowReady_of {t : Team} {r : MemRow} (hp : poisonOf t = []) (h : rowReadyB t r = true) : MemReady t (clauseOf 0 0) r := by
  simp only [rowReadyB, Bool.and_eq_true, Bool.not_eq_true', Bool.or_eq_true, decide_eq_true_eq] at h
  exact ⟨legal_of h.1.1, clean t hp _ _, h.1.2, fun hc => ⟨by decide, by simpa [hc, clauseOf] using h.2⟩⟩

/-- Every load, store and atomic is ready under a TYPE it accepts, and settles its lane on page 3; a store that is not aligned is held, a store to the
read-only page 7 and a load of the unmapped page 8 park, and an access past the end of the scratchpad allocation fails the window check. -/
theorem witness_MemoryInstructionsSettleTheirLanes :
    (∀ mode va, Issuing (memS mode va) 0 (memT mode va) (clauseOf 0 0)) ∧
    (∀ r ∈ loadRows (memT 0xE000 0x30000) 0 (.v 8) a0 b2 ++ storeRows (memT 0xE000 0x30000) 0 (.v 8) a0 b2 ++
        (atomicRows (memT 0xE000 0x30000) 0 (.v 8) a0 b2).filter (fun r => r.types 0),
      MemReady (memT 0xE000 0x30000) (clauseOf 0 0) r) ∧
    (∀ r ∈ (atomicRows (memT 0xE009 0x30000) 0 (.v 8) a0 b2).filter (fun r => r.types 9), MemReady (memT 0xE009 0x30000) (clauseOf 0 0) r) ∧
    ((atomicRows (memT 0xE000 0x30000) 0 (.v 8) a0 b2).all (fun r => r.types 0 || r.types 9) = true) ∧
    ((loadRows (memT 0xE000 0x30000) 0 (.v 8) a0 b2).take 4 ++ (storeRows (memT 0xE000 0x30000) 0 (.v 8) a0 b2).take 4 ++
        (atomicRows (memT 0xE000 0x30000) 0 (.v 8) a0 b2).take 9).all (fun r => settlesB (memS 0xE000 0x30000) (memT 0xE000 0x30000) r false false false) = true ∧
    ((storeRows (memT 0xE000 0x30001) 0 d4 a0 b2).take 1).all (fun r => settlesB (memS 0xE000 0x30001) (memT 0xE000 0x30001) r false false true) = true ∧
    ((storeRows (memT 0xE000 0x70000) 0 d4 a0 b2).take 1).all (fun r => settlesB (memS 0xE000 0x70000) (memT 0xE000 0x70000) r false true false) = true ∧
    ((loadRows (memT 0xE000 0x80000) 0 d4 a0 b2).take 1).all (fun r => settlesB (memS 0xE000 0x80000) (memT 0xE000 0x80000) r false true false) = true ∧
    ((loadRows (memT 0xE000 0xFF00000000300) 0 d4 a0 b2).take 1).all (fun r =>
      decide (windowFails (memS 0xE000 0xFF00000000300) (memT 0xE000 0xFF00000000300) r.op (accessesOf (memT 0xE000 0xFF00000000300) r.op.uniform r.lane) ≠ [])) = true := by
  refine ⟨memT_issuing, each (f := rowReadyB (memT 0xE000 0x30000)) ?_ (fun _ h => rowReady_of rfl h),
    each (f := rowReadyB (memT 0xE009 0x30000)) ?_ (fun _ h => rowReady_of rfl h), ?_⟩ <;> decide +kernel

/-- A clean line of page 3 in the first level, and the machine that has it. -/
def nearLine : L1Line :=
  { vline := 0x600, ctx := 0, pline := 0x4000, r := true, w := true, policy := .coherent, valid := 0xFFFF, dirty := 0, owned := 0, data := 0x04030201, layer := none,
    bad := 0, team := 0 }
def nearS : State := (memS 0xE000 0x30000).updCore 0 (fun c => { c with l1 := [nearLine] })

/-- Page 3 at an offset, as a team reaches it. -/
def pageMap (off : Nat) : Mapping := { pa := 0x200000 + off, r := true, w := true, policy := .coherent, peer := none, layer := none, record := none }

/-- Where n bytes at a window address lie, as a test that can be run. -/
def scratchB (s : State) (t : Team) (ea n core off : Nat) : Bool :=
  decide (ea = 0xFF00000000000 + (off - t.cfg.spbase) ∧ off - t.cfg.spbase < 2 ^ 32 ∧ off - t.cfg.spbase + n ≤ t.cfg.spsize ∧ core = t.cfg.core ∧
    off = t.cfg.spbase + (off - t.cfg.spbase)) ||
  (decide (ea = 0xFE00000000000 + core % 8 * 0x100000 + off ∧ core % 8 < 8 ∧ off < 0x100000 ∧ core = t.cfg.core / 8 * 8 + core % 8) &&
    s.teams.any (fun e => decide (e.2.cfg.core = core ∧ e.2.saved = false ∧ e.2.cfg.ctx = t.cfg.ctx ∧ e.2.cfg.spbase ≤ off ∧
      off + n ≤ e.2.cfg.spbase + e.2.cfg.spsize)))

theorem scratch_of {s : State} {t : Team} {ea n core off : Nat} (h : scratchB s t ea n core off = true) : InScratch s t ea n core off := by
  simp only [scratchB, Bool.or_eq_true, Bool.and_eq_true, decide_eq_true_eq, List.any_eq_true] at h
  rcases h with h | ⟨⟨h1, h2, h3, h4⟩, e, he, h5⟩
  · exact .inl ⟨_, h⟩
  · exact .inr ⟨core % 8, e.1, e.2, h1, h2, h3, h4, he, h5⟩

/-- The accesses of a row in the scratchpad windows, all at one core and offset. -/
def windowsB (s : State) (t : Team) (core off : Nat) (r : MemRow) : Bool :=
  rowReadyB t r && (accessesOf t r.op.uniform r.lane).all (fun x => scratchB s t x.ea r.op.size core off && decide (x.ea % r.op.size = 0))

theorem windows_of {s : State} {t : Team} {core off : Nat} {r : MemRow} (hp : poisonOf t = []) (h : windowsB s t core off r = true) :
    MemReady t (clauseOf 0 0) r ∧ InWindows s t r (fun _ => core) (fun _ => off) := by
  simp only [windowsB, Bool.and_eq_true, List.all_eq_true, decide_eq_true_eq] at h
  exact ⟨rowReady_of hp h.1, fun x hx => ⟨scratch_of (h.2 x hx).1, (h.2 x hx).2⟩⟩

/-- The machine with a second team of the context on core 7 of the cluster. -/
def clusterS (va : Nat) : State := (memS 0xE000 va).setTeam 1 { team0 with cfg := { team0.cfg with core := 7, spbase := 4096 } }

/-- The team's own window at the last offset of its allocation of 768 bytes, and for SLD and SST the offset itself; the cluster window at the ends of the
allocation of the second team. -/
theorem witness_LoadsAndStoresReachTheirBytes :
    (∀ r ∈ (loadRows (memT 0xE000 0xFF000000002FC) 0 d4 a0 b2).take 3 ++ (storeRows (memT 0xE000 0xFF000000002FC) 0 d4 a0 b2).take 3,
      MemReady (memT 0xE000 0xFF000000002FC) (clauseOf 0 0) r ∧ InWindows (memS 0xE000 0xFF000000002FC) (memT 0xE000 0xFF000000002FC) r (fun _ => 0) (fun _ => 0x2FC)) ∧
    (∀ r ∈ ((loadRows (memT 0xE000 0x2FC) 0 d4 a0 b2).drop 4 ++ (storeRows (memT 0xE000 0x2FC) 0 d4 a0 b2).drop 4),
      MemReady (memT 0xE000 0x2FC) (clauseOf 0 0) r ∧ InWindows (memS 0xE000 0x2FC) (memT 0xE000 0x2FC) r (fun _ => 0) (fun _ => 0x2FC)) ∧
    (∀ off ∈ [4096, 4096 + 768 - 16], let va := 0xFE00000700000 + off
      Issuing (clusterS va) 0 (memT 0xE000 va) (clauseOf 0 0) ∧ ∀ r ∈ (loadRows (memT 0xE000 va) 0 (.v 8) a0 b2).take 4 ++ (storeRows (memT 0xE000 va) 0 d4 a0 b2).take 4,
        MemReady (memT 0xE000 va) (clauseOf 0 0) r ∧ InWindows (clusterS va) (memT 0xE000 va) r (fun _ => 7) (fun _ => off)) ∧
    (∀ va c, ((clusterS va).core c).poisonScratch = []) := by
  refine ⟨each (f := windowsB (memS 0xE000 0xFF000000002FC) (memT 0xE000 0xFF000000002FC) 0 0x2FC) (by decide +kernel) (fun _ h => windows_of rfl h),
    each (f := windowsB (memS 0xE000 0x2FC) (memT 0xE000 0x2FC) 0 0x2FC) (by decide +kernel) (fun _ h => windows_of rfl h),
    fun off h => ⟨⟨rfl, rfl, rfl, rfl, rfl⟩, each (f := windowsB (clusterS (0xFE00000700000 + off)) (memT 0xE000 (0xFE00000700000 + off)) 7 off)
      (by revert off h; decide +kernel) (fun _ h => windows_of rfl h)⟩, fun _ _ => rfl⟩

/-- The load of the lane hits in the first level: a plain address whose line is held, readable, with its bytes valid. -/
def hitB (s : State) (t : Team) (l : L1Line) (x : LaneAcc) (n : Nat) : Bool :=
  decide (bits x.ea 63 52 = 0) && !isWindowVa x.ea && !isRecordVa x.ea && decide (x.ea % n = 0) &&
  decide (l.vline = x.ea / 128 ∧ l.ctx = t.cfg.ctx ∧
    (s.core (l1Core t.cfg x.ea)).l1.filter (fun y => (decide (y.vline = l.vline) && decide (y.ctx = l.ctx)) || decide (y.pline = l.pline)) = [l]) &&
  (List.range n).all (fun i => l.valid.getLsbD (x.ea % 128 + i))

theorem hit_of {s : State} {t : Team} {l : L1Line} {x : LaneAcc} {n : Nat} (h : hitB s t l x n = true) :
    PlainAccess x.ea n ∧ HeldLine s t x.ea l ∧ ∀ i, i < n → l.valid.getLsbD (x.ea % 128 + i) = true := by
  simp only [hitB, Bool.and_eq_true, Bool.not_eq_true', decide_eq_true_eq, List.all_eq_true, List.mem_range] at h
  exact ⟨⟨h.1.1.1.1.1, h.1.1.1.1.2, h.1.1.1.2, h.1.1.2⟩, h.1.2, h.2⟩

/-- A lane of address 0x30000, and what it stores. -/
def laneAt (data : Nat) : LaneAcc := { slot := 0, ea := 0x30000, data := data, cmp := 0 }

/-- The first level of core 0 has room for a line, and nothing of the core is on its way. -/
def freeB (s : State) (t : Team) (va : Nat) : Bool :=
  decide (l1Core t.cfg va = 0) && decide ((s.core 0).l1 = []) && decide ((s.core 0).victims = []) && decide ((s.core 0).out = [])

theorem free_of {s : State} {t : Team} {va : Nat} (h : freeB s t va = true) (pa : Nat) : FreeLine s t va pa ∧ NothingOut s (l1Core t.cfg va) (pa / 128) := by
  simp only [freeB, Bool.and_eq_true, decide_eq_true_eq] at h
  obtain ⟨⟨⟨h1, h2⟩, h3⟩, h4⟩ := h
  simp [FreeLine, NothingOut, h1, h2, h3, h4]

/-- A load that hits; one that misses into an empty first level; a store into an empty one and into one that holds the line. -/
theorem witness_PagesHitAndMissed :
    (Issuing nearS 0 (memT 0xE000 0x30000) (clauseOf 0 0) ∧ nearLine.r = true ∧ nearLine.policy = .coherent ∧
      ∀ r ∈ (loadRows (memT 0xE000 0x30000) 0 (.v 8) a0 b2).take 4, MemReady (memT 0xE000 0x30000) (clauseOf 0 0) r ∧
        ∀ x ∈ accessesOf (memT 0xE000 0x30000) r.op.uniform r.lane, PlainAccess x.ea r.op.size ∧ HeldLine nearS (memT 0xE000 0x30000) x.ea nearLine ∧
          ∀ i, i < r.op.size → nearLine.valid.getLsbD (x.ea % 128 + i) = true) ∧
    (∀ r ∈ (loadRows (memT 0xE000 0x30000) 0 (.v 8) a0 b2).take 4,
      let t := memT 0xE000 0x30000
      let q := reachLine (accessFrom (memS 0xE000 0x30000) 0 t (clauseOf 0 0) r) t.cfg 0x30000 r.op.size needR false
      accessesOf t r.op.uniform r.lane = [laneAt 0] ∧ q = (.ok (pageMap 0), q.2) ∧ FreeLine q.2 t 0x30000 0x200000 ∧
      NothingOut q.2 (l1Core t.cfg 0x30000) (0x200000 / 128) ∧ poisonedRange (homeLoad q.2 0x200000 r.op.size).2 0x200000 r.op.size = false) ∧
    (∀ r ∈ (storeRows (memT 0xE000 0x30000) 0 d4 a0 b2).take 4,
      let t := memT 0xE000 0x30000
      let q (s : State) := reachLine (accessFrom s 0 t (clauseOf 0 0) r) t.cfg 0x30000 r.op.size needW false
      MemReady t (clauseOf 0 0) r ∧ (∃ data, accessesOf t r.op.uniform r.lane = [laneAt data]) ∧
      (q (memS 0xE000 0x30000) = (.ok (pageMap 0), (q (memS 0xE000 0x30000)).2) ∧ FreeLine (q (memS 0xE000 0x30000)).2 t 0x30000 0x200000 ∧
        NothingOut (q (memS 0xE000 0x30000)).2 (l1Core t.cfg 0x30000) (0x200000 / 128)) ∧
      (q nearS = (.ok (pageMap 0), (q nearS).2) ∧ HeldLine (q nearS).2 t 0x30000 nearLine ∧ nearLine.pline = 0x200000 / 128 ∧
        NothingOut (q nearS).2 (l1Core t.cfg 0x30000) (0x200000 / 128))) := by
  refine ⟨⟨⟨rfl, rfl, rfl, rfl, rfl⟩, rfl, rfl, each (f := fun r => rowReadyB (memT 0xE000 0x30000) r &&
      (accessesOf (memT 0xE000 0x30000) r.op.uniform r.lane).all (fun x => hitB nearS (memT 0xE000 0x30000) nearLine x r.op.size)) (by decide +kernel) (fun r h => ?_)⟩,
    each (f := fun r => let t := memT 0xE000 0x30000
      let q := reachLine (accessFrom (memS 0xE000 0x30000) 0 t (clauseOf 0 0) r) t.cfg 0x30000 r.op.size needR false
      decide (accessesOf t r.op.uniform r.lane = [laneAt 0]) && decide (q.1 = .ok (pageMap 0)) && freeB q.2 t 0x30000 &&
      !poisonedRange (homeLoad q.2 0x200000 r.op.size).2 0x200000 r.op.size) (by decide +kernel) (fun r h => ?_),
    each (f := fun r => let t := memT 0xE000 0x30000
      let q (s : State) := reachLine (accessFrom s 0 t (clauseOf 0 0) r) t.cfg 0x30000 r.op.size needW false
      rowReadyB t r && decide (accessesOf t r.op.uniform r.lane = [laneAt (readVal t 0 0 d4 r.op.regs % 2 ^ (8 * r.op.size))]) &&
      decide ((q (memS 0xE000 0x30000)).1 = .ok (pageMap 0)) && freeB (q (memS 0xE000 0x30000)).2 t 0x30000 &&
      decide ((q nearS).1 = .ok (pageMap 0)) && hitB (q nearS).2 t nearLine (laneAt 0) 1 &&
      decide (((q nearS).2.core 0).out = [])) (by decide +kernel) (fun r h => ?_)⟩
  · rw [Bool.and_eq_true] at h
    exact ⟨rowReady_of rfl h.1, fun x hx => hit_of (List.all_eq_true.mp h.2 x hx)⟩
  · simp only [Bool.and_eq_true, Bool.not_eq_true', decide_eq_true_eq] at h
    exact ⟨h.1.1.1, pair_of h.1.1.2, (free_of h.1.2 _).1, (free_of h.1.2 _).2, h.2⟩
  · simp only [Bool.and_eq_true, decide_eq_true_eq] at h
    obtain ⟨⟨⟨⟨⟨⟨h1, h2⟩, h3⟩, h4⟩, h5⟩, h6⟩, h7⟩ := h
    exact ⟨rowReady_of rfl h1, ⟨_, h2⟩, ⟨pair_of h3, (free_of h4 _).1, (free_of h4 _).2⟩, ⟨pair_of h5, (hit_of h6).2.1, rfl, fun e he => by
      have hc : l1Core (memT 0xE000 0x30000).cfg 0x30000 = 0 := by decide
      rw [hc, h7] at he
      cases he⟩⟩

/-- Pages 3 to 7 and a page 9 of a peer's memory; a line of page 5 with byte 1 dirty and word 0 owned, and one of it that owns nothing. -/
def peerLeafS (va : Nat) : State :=
  let s := memS 0xE000 va
  { s with mem := Memory.writes s.mem (0x10000 + 8 * 9) (bytesOf 8 (leaf 0 0x20 + 512)), peers := [(0, BitVec.ofNat 256 (2 ^ 160))] }
def directLine (own : Bool) : L1Line :=
  { nearLine with vline := 0xA00, pline := 0x4400, policy := .direct, dirty := if own then 2 else 0, owned := if own then 1 else 0 }
def directS (own : Bool) : State :=
  { (memS 0xE000 0x50000).updCore 0 (fun c => { c with l1 := [directLine own] }) with own := if own then [(0x88000, 0)] else [] }

/-- The one access of a row, translated, and its mapping. -/
def mappedB (s : State) (t : Team) (r : MemRow) (need : Need) (p : Mapping → State → Bool) : Bool :=
  rowReadyB t r && (match accessesOf t r.op.uniform r.lane with
  | [x] => decide (bits x.ea 63 52 = 0) && !isWindowVa x.ea && !isRecordVa x.ea && decide (x.ea % r.op.size = 0) &&
    (match reachLine (accessFrom s 0 t (clauseOf 0 0) r) t.cfg x.ea r.op.size need false with
    | (.ok m, s1) => p m s1
    | _ => false)
  | _ => false)

theorem mapped_of {s : State} {t : Team} {r : MemRow} {need : Need} {p : Mapping → State → Bool} (hp : poisonOf t = []) (h : mappedB s t r need p = true) :
    MemReady t (clauseOf 0 0) r ∧ ∃ x m s1, accessesOf t r.op.uniform r.lane = [x] ∧ PlainAccess x.ea r.op.size ∧
      reachLine (accessFrom s 0 t (clauseOf 0 0) r) t.cfg x.ea r.op.size need false = (.ok m, s1) ∧ p m s1 = true := by
  unfold mappedB at h
  rw [Bool.and_eq_true] at h
  refine ⟨rowReady_of hp h.1, ?_⟩
  replace h := h.2
  split at h
  · rename_i x hx
    simp only [Bool.and_eq_true, Bool.not_eq_true', decide_eq_true_eq] at h
    obtain ⟨⟨⟨⟨h1, h2⟩, h3⟩, h4⟩, h5⟩ := h
    split at h5
    · rename_i m s1 hr
      exact ⟨x, m, s1, hx, ⟨h1, h2, h3, h4⟩, hr, h5⟩
    · cases h5
  · cases h

/-- No word of n bytes is owned, no unit object covers one, and no line of theirs is poisoned once they are home. -/
def plainHomeB (s : State) (pa n : Nat) : Bool :=
  !poisonedRange (homeLoad s pa n).2 pa n && (List.range n).all (fun i => decide (tblGet s.own ((pa + i) / 4) = none) && decide (unitObject s (pa + i) = none))

/-- Loads and stores of one lane through a STREAM, a DIRECT and an ACCUM page, into an empty first level; through a DIRECT page whose line the first level
holds, with a dirty byte of an owned word and without; through a page of a peer. -/
theorem witness_PagesOfOtherPolicies :
    (∀ p ∈ [(0x40000, Policy.stream), (0x50000, .direct), (0x60000, .accum)], let t := memT 0xE000 p.1
      let q (m : Mapping) (s1 : State) : Bool := decide (m.peer = none ∧ m.record = none ∧ m.policy = p.2) && freeB s1 t p.1 && plainHomeB s1 m.pa 16
      (∀ r ∈ (loadRows t 0 (.v 8) a0 b2).take 4, mappedB (memS 0xE000 p.1) t r needR q = true) ∧
      ∀ r ∈ (storeRows t 0 d4 a0 b2).take 4, mappedB (memS 0xE000 p.1) t r needW q = true) ∧
    (∀ own ∈ [true, false], let t := memT 0xE000 0x50000
      ∀ r ∈ (loadRows t 0 (.v 8) a0 b2).take 4, mappedB (directS own) t r needR (fun m s1 =>
        decide (m.peer = none ∧ m.record = none ∧ m.policy = .direct ∧ m.pa / 128 = (directLine own).pline ∧ m.pa % 128 = 0 ∧ (s1.core 0).out = [] ∧ (s1.core 0).acks = []) &&
        hitB s1 t (directLine own) { slot := 0, ea := 0x50000, data := 0, cmp := 0 } 1 &&
        !poisonedRange (homeLoad (invalidateOwn s1 0 m.pa 16) m.pa 16).2 m.pa 16 && decide (tblGet s1.own (m.pa / 4) = if own then some 0 else none)) = true) ∧
    (let t := memT 0xE000 0x90000
     (∀ r ∈ (loadRows t 0 (.v 8) a0 b2).take 4, mappedB (peerLeafS 0x90000) t r needR (fun m _ => m.peer.isSome && m.record.isNone) = true) ∧
     ∀ r ∈ (storeRows t 0 d4 a0 b2).take 4, mappedB (peerLeafS 0x90000) t r needW (fun m _ => m.peer.isSome) = true) := by
  refine ⟨?_, ?_, ?_⟩ <;> decide +kernel

theorem witness_AtomicsUpdateTheirElement :
    (∀ r ∈ (atomicRows (memT 0xE000 0x30000) 0 (.v 8) a0 b2).take 9,
      let t := memT 0xE000 0x30000
      let q := reach (accessFrom (memS 0xE000 0x30000) 0 t (clauseOf 0 0) r) t.cfg 0x30000 needAtomic true
      MemReady t (clauseOf 0 0) r ∧ (accessesOf t r.op.uniform r.lane).map LaneAcc.ea = [0x30000] ∧ 0x30000 % r.op.size = 0 ∧ q.1 = .ok (pageMap 0)) ∧
    (2 = 2 ∨ 2 = 4 ∨ 2 = 8 ∨ 2 = 16) ∧ 0xFFFF < 2 ^ (8 * 2) ∧ 0x7FFF < 2 ^ (8 * 2) ∧ isFpType 9 = true ∧
    0 < elemCount 9 ∧ ¬ NanCode (fmtOfType 9) (elemOf 9 0 0x3F800000) := by
  refine ⟨each (f := fun r => let t := memT 0xE000 0x30000
      rowReadyB t r && decide ((accessesOf t r.op.uniform r.lane).map LaneAcc.ea = [0x30000] ∧ 0x30000 % r.op.size = 0 ∧
        (reach (accessFrom (memS 0xE000 0x30000) 0 t (clauseOf 0 0) r) t.cfg 0x30000 needAtomic true).1 = .ok (pageMap 0))) (by decide +kernel) (fun r h => ?_),
    by decide, by decide, by decide, by decide, by decide, ?_⟩
  · rw [Bool.and_eq_true, decide_eq_true_eq] at h
    exact ⟨rowReady_of rfl h.1, h.2⟩
  · unfold NanCode
    decide

/-- PREF and RESHINT on page 3, whose mapping is usable, and on page 8, which has none. -/
theorem witness_HintsSettleTheirLanes :
    Issuing (memS 0xE000 0x30000) 0 (memT 0xE000 0x30000) (clauseOf 0 0) ∧ slicePending (memT 0xE000 0x30000) = false ∧
    (∀ i ∈ [Instr.pref a0 b2, .reshint a0 b2], Legal i (memT 0xE000 0x30000) false anyType [src a0 2, src b2 1]) ∧
    (∀ ops m, Unpoisoned (memT 0xE000 0x30000) ops m) ∧ hintMapping (memS 0xE000 0x30000) (memT 0xE000 0x30000).cfg 0x80000 = none ∧
    ((hintMapping (memS 0xE000 0x30000) (memT 0xE000 0x30000).cfg 0x30000).map (fun m => layerResident (memS 0xE000 0x30000) m.layer)) = some true := by
  refine ⟨memT_issuing _ _, ?_, each (f := fun i => legalB i (memT 0xE000 0x30000) false anyType [src a0 2, src b2 1]) ?_ (fun _ h => legal_of h),
    clean _ rfl, ?_⟩ <;> decide +kernel

/-- What the release side leaves, and that it passes, as a test that can be run. -/
def released (s : State) (u : Nat) (t : Team) : State := (drainTeam s u t.cfg).updTeam u (surface LateOp.atomic)
def releaseB (s : State) (u : Nat) (t : Team) : Bool :=
  ((tblGet ((drainTeam s u t.cfg).updTeam u (surface LateOp.atomic)).teams u).map (fun t1 => t1.integrity.all (fun h => !delivers t1 HeldIntegrity.rel h))) == some true

theorem release_of {s : State} {u : Nat} {t : Team} (h : releaseB s u t = true) : ReleasePasses s u t (released s u t) := by
  unfold releaseB at h
  cases he : tblGet ((drainTeam s u t.cfg).updTeam u (surface LateOp.atomic)).teams u with
  | none => simp [he] at h
  | some t1 => exact ⟨rfl, t1, he, by simpa [he] using h⟩

/-- The acquire side passes. -/
def acquireB (s : State) (u : Nat) (t : Team) : Bool :=
  ((tblGet ((drainReturning s u t.cfg).updTeam u surfacePoison).teams u).map (fun t1 => t1.integrity.all (fun h => !delivers t1 HeldIntegrity.acq h) &&
    t1.late.all (fun o => match o.wait with
      | .qpop _ => false
      | _ => true))) == some true

theorem acquire_of {s : State} {u : Nat} {t : Team} (h : acquireB s u t = true) :
    AcquirePasses s u t (acquireTeam ((drainReturning s u t.cfg).updTeam u surfacePoison) t.cfg) := by
  unfold acquireB at h
  cases he : tblGet ((drainReturning s u t.cfg).updTeam u surfacePoison).teams u with
  | none => simp [he] at h
  | some t1 =>
    simp only [he, Option.map_some, beq_iff_eq, Option.some.injEq, Bool.and_eq_true, List.all_eq_true, Bool.not_eq_true'] at h
    refine ⟨rfl, t1, he, h.1, fun o ho pa hw => ?_⟩
    have := h.2 o ho
    simp [hw] at this

/-- A first-level line with an owned word and with a dirty byte, for ACQUIRE, and a store of the team on its way home, for RELEASE. -/
def lineS : State := next (.st d4 a0 b2) (memS 0xE000 0x30000)
def lineT : Team := (tblGet lineS.teams 0).getD team0

theorem witness_OrderingInstructionsComplete :
    Issuing lineS 0 lineT { clauseOf 0 0 with idx := 2 } ∧ slicePending lineT = false ∧ ReleasePasses lineS 0 lineT (released lineS 0 lineT) ∧
    AcquirePasses lineS 0 lineT (acquireTeam ((drainReturning lineS 0 lineT.cfg).updTeam 0 surfacePoison) lineT.cfg) ∧
    AcquirePasses (released lineS 0 lineT) 0 lineT (acquireTeam ((drainReturning (released lineS 0 lineT) 0 lineT.cfg).updTeam 0 surfacePoison) lineT.cfg) ∧
    (lineS.core 0).out ≠ [] ∧ (lineS.core 0).l1 ≠ [] ∧ ((acquireCore lineS 0).core 0).l1 ≠ [] := by
  refine ⟨issuing_of ?_, ?_, release_of ?_, acquire_of ?_, acquire_of ?_, ?_⟩ <;> decide +kernel

/-- A uniform address in s2 and s3: page 3, at an offset. -/
def unitT (off : Nat) : Team := { oneLane 0xE000 0 0 0 with sregs := (team0.sregs.set 2 (BitVec.ofNat 32 (0x30000 + off))).set 3 0 }
def unitS (off : Nat) : State := paged (unitT off) 0x200000 []
theorem unitT_issuing (off : Nat) : Issuing (unitS off) 0 (unitT off) (clauseOf 0 0) := issuing_paged _ _ _ _ rfl rfl

/-- Page 3 at an offset, as the units reach it. -/
def unitMap (off : Nat) : Mapping := { pa := 0x200000 + off, r := true, w := true, policy := .coherent, peer := none, layer := none, record := none }

/-- The lock, held by the team. -/
def lockedS : State := { unitS 8 with locks := [(0x200008, { holder := some 0, waiters := [] })] }

/-- A lock nobody holds, one that another team holds, and one that the team holds. -/
theorem witness_QueueLocksAskTheirUnit :
    Issuing (unitS 8) 0 (unitT 8) (clauseOf 0 0) ∧ slicePending (unitT 8) = false ∧
    unitReach (unitS 8) (unitT 8).cfg (readVal (unitT 8) 0 0 (.s 2) 2) 8 = (.ok (unitMap 8), (unitReach (unitS 8) (unitT 8).cfg (readVal (unitT 8) 0 0 (.s 2) 2) 8).2) ∧
    Legal (.qlock (.s 5) (.s 2)) (unitT 8) true anyType [dst (.s 5) 1, src (.s 2) 2] ∧ flagCount (unitT 8) 0 ≠ 63 ∧
    Legal (.qlock (.v 5) (.s 2)) (unitT 8) true anyType [dst (.v 5) 1, src (.s 2) 2] ∧ Legal (.qunlock (.s 2)) (unitT 8) false anyType [src (.s 2) 2] ∧
    (tblGet (unitReach (unitS 8) (unitT 8).cfg 0x30008 8).2.locks 0x200008).bind Lock.holder ≠ some 0 ∧
    (tblGet (unitReach lockedS (unitT 8).cfg 0x30008 8).2.locks 0x200008).bind Lock.holder = some 0 ∧
    (∀ s1 ∈ [unitS 8, lockedS], ReleasePasses (unitReach s1 (unitT 8).cfg 0x30008 8).2 0 (unitT 8) (released (unitReach s1 (unitT 8).cfg 0x30008 8).2 0 (unitT 8))) ∧
    Issuing lockedS 0 (unitT 8) (clauseOf 0 0) ∧
    unitReach lockedS (unitT 8).cfg (readVal (unitT 8) 0 0 (.s 2) 2) 8 = (.ok (unitMap 8), (unitReach lockedS (unitT 8).cfg (readVal (unitT 8) 0 0 (.s 2) 2) 8).2) := by
  refine ⟨unitT_issuing _, ?_, pair_of ?_, legal_of ?_, ?_, legal_of ?_, legal_of ?_, ?_, ?_,
    each (f := fun s1 => releaseB (unitReach s1 (unitT 8).cfg 0x30008 8).2 0 (unitT 8)) ?_ (fun _ h => release_of h), ⟨rfl, rfl, rfl, rfl, rfl⟩,
    pair_of ?_⟩ <;> decide +kernel

/-- The window at the last place of a mask's 128 bytes in an allocation of 768. -/
def maskT : Team := { withS 0 0 with sregs := (team0.sregs.set 2 640).set 3 0xFF000 }

theorem witness_MasksInTheWindow :
    Issuing (mach maskT) 0 maskT (clauseOf 0 0) ∧ slicePending maskT = false ∧ InWindow maskT (readVal maskT 0 0 (.s 2) 2) 640 128 ∧ 640 % 16 = 0 ∧
    Legal (.msave 7 (.s 2)) maskT false anyType [src (.s 2) 2] ∧ Legal (.mload 7 (.s 2)) maskT true anyType [src (.s 2) 2] ∧
    ((mach maskT).core 0).poisonScratch = [] ∧ flagCount maskT 1 ≠ 63 := by
  refine ⟨issuing_mach _ _ rfl rfl, ?_, by unfold InWindow; decide +kernel, ?_, legal_of ?_, legal_of ?_, ?_⟩ <;> decide +kernel


/-! ### The fetch unit and job cards -/

/-- Words of eight bytes. -/
def words8 (l : List Nat) : List Byte := l.flatMap (bytesOf 8)

/-- A dense handle of eight 4-byte elements at page 4, as its 64 bytes (R95). -/
def handleBytes : List Byte := bytesOf 8 0x80 ++ bytesOf 8 0x40000 ++ bytesOf 8 0 ++ bytesOf 4 8 ++ bytesOf 4 1 ++ bytesOf 4 1 ++ bytesOf 4 1 ++ List.replicate 24 0
def handleBits : BitVec 512 := BitVec.ofNat 512 (natOfBytes handleBytes)

/-- The handle at page 3; the team's slot 15 holds it, its other slots are empty. -/
def handleT : Team := { unitT 0 with handles := team0.handles.set 15 (some handleBits) }
def handleS : State := paged handleT 0x200000 handleBytes

theorem witness_HandlesBindAndFetch :
    Issuing handleS 0 handleT (clauseOf 0 0) ∧ Legal (.hbind .zero (.s 2)) handleT true anyType [src .zero 1, src (.s 2) 2] ∧ slicePending handleT = false ∧
    flagCount handleT 1 ≠ 63 ∧ readVal handleT 16 0 .lit 1 = 16 ∧ readVal { handleT with sregs := handleT.sregs.set 2 0x30020 } 0 0 (.s 2) 2 % 64 ≠ 0 ∧
    checkRun handleS handleT 0x30000 64 1 needR false = (.ok, (checkRun handleS handleT 0x30000 64 1 needR false).2) ∧
    readRun (checkRun handleS handleT 0x30000 64 1 needR false).2 0 handleT 0x30000 64 =
      (some handleBytes, (readRun (checkRun handleS handleT 0x30000 64 1 needR false).2 0 handleT 0x30000 64).2) ∧
    HandleGood handleBits ∧ handleOf handleT 0 = none ∧ ¬ HandleGood (handleBits ||| 16) ∧
    Legal (.fetch (.v 4) (.s 4) a0) handleT true anyType [dst (.v 4) 1, src (.s 4) 1, src a0 1] ∧
    Legal (.fetch2 (.v 4) (.s 4) a0) handleT true anyType [dst (.v 4) 1, src (.s 4) 1, src a0 2] ∧ (∀ ops m, Unpoisoned handleT ops m) ∧ flagCount handleT 0 ≠ 63 ∧
    handleOf handleT 15 = some handleBits ∧ (∀ o ∈ handleT.late, o.hbind ≠ some 15) ∧ opndOk handleT.cfg.budget (dst (.v 4) 1) = true ∧
    (let op : MemOp := { kind := .fetch handleBits, size := 4, dst := .v 4, regs := 1, late := some handleS.nextId, uniform := false }
     let lanes := accessesOf handleT false (fun j => { slot := j, ea := descBase handleBits, data := fetchIndex handleBits false 7, cmp := 0 })
     let z := settleLanes (startLate handleS 0 0 id).2 0 handleT op lanes
     z.parks = [] ∧ z.helds = []) := by
  refine ⟨issuing_of ?_, legal_of ?_, ?_, ?_, ?_, ?_, pair_of ?_, pair_of ?_, by unfold HandleGood; decide +kernel, ?_, by unfold HandleGood; decide +kernel,
    legal_of ?_, legal_of ?_, clean _ rfl, ?_⟩ <;> decide +kernel

/-- A descriptor of one format, with its extents (R93, R94). -/
def descOf (ctrl base aux e0 e1 : Nat) : BitVec 512 :=
  BitVec.ofNat 512 (natOfBytes (words8 [ctrl, base, aux, e0 + 2 ^ 32 * e1, 1 + 2 ^ 32]))

/-- R97's example: CB128 of FP32, extent 256, nonzeros at elements 3, 10 and 127; its two chunks at 0x30000, its offset table at 0x30040. -/
def cbDesc : BitVec 512 := descOf 0x81 0x30000 0x30040 256 1
def cbData : Nat := natOfBytes ([0x08, 0x04] ++ List.replicate 13 0 ++ [0x80] ++ bytesOf 4 0x3FC00000 ++ bytesOf 4 0xC0000000 ++ bytesOf 4 0x3E800000 ++
  List.replicate 36 0 ++ bytesOf 4 0 ++ bytesOf 4 2 ++ List.replicate 56 0)
/-- DENSE of signed bytes, 4 by 4, the second dimension's stride 16; BFP of 16 × 16 tiles of width 2, planes at 0x30080, its exponents at 0x300C0. -/
def denseDesc : BitVec 512 := descOf 0x600 0x30000 0 4 4 ||| BitVec.ofNat 512 (16 * 2 ^ (8 * 0x28))
def bfpDesc : BitVec 512 := descOf 0x3482 0x30080 0x300C0 16 16
def bfpData : Nat := natOfBytes ([2] ++ List.replicate 31 0 ++ [2] ++ List.replicate 31 0 ++ [128] ++ List.replicate 63 0)

/-- A team with a handle in slot 3, and the machine whose fetch cache holds the lines at 0x30000 and 0x30080. -/
def fetchT (h : BitVec 512) (v : Nat) : Team := { memT 0xE000 v with handles := team0.handles.set 3 (some h), sregs := team0.sregs.set 4 3 }
def rawOf (k data : Nat) : RawLine := { vline := 0x600 + k, ctx := 0, pline := 0x4000 + k, data := BitVec.ofNat 1024 data }
def fetchS (h : BitVec 512) (v : Nat) : State :=
  (paged (fetchT h v) 0x200000 [1, 2, 3, 4]).updCore 0 (fun c => { c with fetchLines := [rawOf 0 cbData, rawOf 1 bfpData] })

theorem forall_three {α : Type} {P : α → Prop} {x y z : α} (a : P x) (b : P y) (c : P z) : ∀ h ∈ [x, y, z], P h := by simp [a, b, c]

theorem fetch_lines (h : BitVec 512) (v : Nat) : ((fetchS h v).core 0).fetchLines = [rawOf 0 cbData, rawOf 1 bfpData] := by
  unfold fetchS State.updCore
  rw [State.core_setCore_self]

theorem cached_of {h : BitVec 512} {v va n x : Nat} (k : Nat) (l : RawLine) (hk : va / 128 = 0x600 + k) (hn : va % n = 0)
    (hl : [rawOf 0 cbData, rawOf 1 bfpData].find? (fun l => decide (l.vline = 0x600 + k) && decide (l.ctx = 0)) = some l)
    (hx : x = natOfBytes ((List.range n).map (fun i => lineByte l.data (va % 128 + i)))) (hva : va < 0xFE00000000000) :
    FetchCached (fetchS h v) (fetchT h v) va n x :=
  ⟨hva, hn, l, by rw [hk, show (fetchT h v).cfg.core = 0 from rfl, show (fetchT h v).cfg.ctx = 0 from rfl, fetch_lines]; exact hl, hx⟩

/-- Every format through the fetch cache: the set bit, the clear bit and the index out of range of R97's example; byte (2, 1) of the DENSE handle, −64; element
(1, 0) of the BFP tile, −1 × 2^(128 − 127 − 1). -/
theorem witness_FetchesOfEveryFormat :
    (∀ h v, Issuing (fetchS h v) 0 (fetchT h v) (clauseOf 0 0)) ∧
    (∀ h ∈ [cbDesc, denseDesc, bfpDesc], HandleGood h ∧ handleOf (fetchT h 10) 3 = some h ∧
      Legal (.fetch d4 (.s 4) a0) (fetchT h 10) true anyType [dst d4 1, src (.s 4) 1, src a0 1]) ∧
    FetchIs (FetchCached (fetchS cbDesc 10) (fetchT cbDesc 10)) cbDesc false 10 0xC0000000 ∧
    FetchIs (FetchCached (fetchS cbDesc 11) (fetchT cbDesc 11)) cbDesc false 11 0 ∧
    FetchIs (FetchCached (fetchS cbDesc 300) (fetchT cbDesc 300)) cbDesc false 300 0 ∧
    FetchIs (FetchCached (fetchS denseDesc 15) (fetchT denseDesc 15)) denseDesc true 15 0 ∧
    FetchIs (FetchCached (fetchS denseDesc 6) (fetchT denseDesc 6)) denseDesc false 6 0xFFFFFFC0 ∧
    FetchIs (FetchCached (fetchS bfpDesc 1) (fetchT bfpDesc 1)) bfpDesc false 1 0xBF800000 := by
  refine ⟨fun _ _ => ⟨rfl, rfl, rfl, rfl, rfl⟩, ?_, ?_, ?_, ?_, ?_, ?_, ?_⟩
  · refine forall_three ⟨by unfold HandleGood; decide +kernel, ?_, legal_of ?_⟩ ⟨by unfold HandleGood; decide +kernel, ?_, legal_of ?_⟩
      ⟨by unfold HandleGood; decide +kernel, ?_, legal_of ?_⟩ <;> decide +kernel
  · unfold FetchIs
    rw [show fetchPlace cbDesc false 10 = some (10, 0, 0, 0) by decide +kernel]
    refine ⟨fun h => absurd h (by decide +kernel), fun _ => ⟨0, 0x80000000000000000000000000000408, ?_, ?_, ?_, fun _ => ⟨0xC0000000, ?_, ?_⟩⟩,
      fun h => absurd h (by decide +kernel)⟩
    · exact cached_of 0 (rawOf 0 cbData) (by decide +kernel) (by decide +kernel) (by decide +kernel) (by decide +kernel) (by decide +kernel)
    · exact cached_of 0 (rawOf 0 cbData) (by decide +kernel) (by decide +kernel) (by decide +kernel) (by decide +kernel) (by decide +kernel)
    · decide +kernel
    · exact cached_of 0 (rawOf 0 cbData) (by decide +kernel) (by decide +kernel) (by decide +kernel) (by decide +kernel) (by decide +kernel)
    · decide +kernel
  · unfold FetchIs
    rw [show fetchPlace cbDesc false 11 = some (11, 0, 0, 0) by decide +kernel]
    refine ⟨fun h => absurd h (by decide +kernel), fun _ => ⟨0, 0x80000000000000000000000000000408, ?_, ?_, fun _ => rfl, fun h => absurd h (by decide +kernel)⟩,
      fun h => absurd h (by decide +kernel)⟩
    · exact cached_of 0 (rawOf 0 cbData) (by decide +kernel) (by decide +kernel) (by decide +kernel) (by decide +kernel) (by decide +kernel)
    · exact cached_of 0 (rawOf 0 cbData) (by decide +kernel) (by decide +kernel) (by decide +kernel) (by decide +kernel) (by decide +kernel)
  · unfold FetchIs
    rw [show fetchPlace cbDesc false 300 = none by decide +kernel]
  · unfold FetchIs
    rw [show fetchPlace denseDesc true 15 = none by decide +kernel]
  · unfold FetchIs
    rw [show fetchPlace denseDesc false 6 = some (2, 1, 0, 0) by decide +kernel]
    refine ⟨fun _ => ⟨0xC0, ?_, ?_⟩, fun h => absurd h (by decide +kernel), fun h => absurd h (by decide +kernel)⟩
    · exact cached_of 0 (rawOf 0 cbData) (by decide +kernel) (by decide +kernel) (by decide +kernel) (by decide +kernel) (by decide +kernel)
    · decide +kernel
  · unfold FetchIs
    rw [show fetchPlace bfpDesc false 1 = some (1, 0, 0, 0) by decide +kernel]
    refine ⟨fun h => absurd h (by decide +kernel), fun h => absurd h (by decide +kernel), fun _ => ⟨3, 128, ?_, ?_, ?_, fun h => absurd h (by decide),
      fun _ h => absurd h (by decide), fun _ _ => ⟨by unfold Machine.Finite; decide +kernel, ?_⟩⟩⟩
    · decide +kernel
    · intro q hq
      refine ⟨2, cached_of 1 (rawOf 1 bfpData) ?_ ?_ (by decide +kernel) ?_ ?_, ?_⟩ <;> revert q hq <;> decide +kernel
    · exact cached_of 1 (rawOf 1 bfpData) (by decide +kernel) (by decide +kernel) (by decide +kernel) (by decide +kernel) (by decide +kernel)
    · change _ = ((BitVec.ofNat (bitsAt bfpDesc.toNat 15 13 + 1) 3).toInt : ℚ) * (2 : ℚ) ^ (((128 : Nat) : Int) - 127 - (((bitsAt bfpDesc.toNat 15 13 + 1 : Nat) : Int) - 1))
      rw [show (BitVec.ofNat (bitsAt bfpDesc.toNat 15 13 + 1) 3).toInt = -1 by decide +kernel,
        show ((128 : Nat) : Int) - 127 - (((bitsAt bfpDesc.toNat 15 13 + 1 : Nat) : Int) - 1) = 0 by decide +kernel]
      norm_num [valueOf, magnitude, fmtFp32, FpFmt.signBit, FpFmt.infBits, FpFmt.qmin, FpFmt.bias]

/-- What a FETCH through the cache gives: R97's example, and the DENSE and BFP elements calculated from their bytes. -/
theorem test_fetch_formats : ∀ r ∈ ([(cbDesc, 10, 0xC0000000), (cbDesc, 11, 0), (cbDesc, 127, 0x3E800000), (cbDesc, 300, 0), (denseDesc, 6, 0xFFFFFFC0),
    (bfpDesc, 1, 0xBF800000)] : List (BitVec 512 × Nat × Word)), lateV (next (.fetch d4 (.s 4) a0) (fetchS r.1 r.2.1)) = [(0, 4, r.2.2)] := by decide +kernel

/-- A DENSE element of four bytes on page 3, which no cache holds: its line comes from home. -/
def missDesc : BitVec 512 := descOf 0x80 0x30000 0 4 1
def missS : State := paged (fetchT missDesc 0) 0x200000 [1, 2, 3, 4]
theorem witness_FetchMisses :
    HandleGood missDesc ∧ missDesc.toNat % 16 = 0 ∧
    (let t := fetchT missDesc 0
     let op : MemOp := { kind := .fetch missDesc, size := 4, dst := d4, regs := 1, late := some missS.nextId, uniform := false }
     let lanes := accessesOf t false (fun j => { slot := j, ea := descBase missDesc, data := fetchIndex missDesc false (readVal t 0 j a0 1), cmp := 0 })
     let s0 := (startLate missS 0 0 (laneLate missS t op lanes)).2
     let r := reach (takeId s0).2 t.cfg 0x30000 needFetch false
     lanes.length = 1 ∧ fetchPlace missDesc false 0 = some (0, 0, 0, 0) ∧ (missS.core 0).fetchLines = [] ∧ l1Core t.cfg 0x30000 = 0 ∧
     r.1 = .ok (pageMap 0) ∧ (r.2.core 0).out = [] ∧
     (let y := drainLine r.2 0 0x4000
      (homeTake y false 0x200000 128).1 = some (Memory.reads y.mem 0x200000 128) ∧ y.own = [] ∧ (List.range 128).all (fun i => decide (unitObject y (0x200000 + i) = none)) = true ∧
      (Memory.reads y.mem 0x200000 128).take 4 = [1, 2, 3, 4])) ∧
    ElementIs (fun a w y => a = 0x30000 ∧ w = descEsize missDesc ∧ y = natOfBytes (([1, 2, 3, 4].drop (0x30000 % 128)).take w)) missDesc (0, 0, 0, 0) 0x04030201 := by
  refine ⟨by unfold HandleGood; decide +kernel, by decide +kernel, by decide +kernel, fun _ => ⟨0x04030201, ⟨?_, ?_, ?_⟩, ?_⟩,
    fun h => absurd h (by decide +kernel), fun h => absurd h (by decide +kernel)⟩ <;> decide +kernel

/-- A copy card of 16 bytes from page 4 to page 5, with its two regions (R83 to R85). -/
def cardBytes : List Byte :=
  bytesOf 8 0 ++ bytesOf 8 0x40000 ++ bytesOf 8 0x50000 ++ bytesOf 8 0 ++ bytesOf 4 16 ++ bytesOf 4 1 ++ bytesOf 4 1 ++ List.replicate 84 0 ++
  bytesOf 8 0x40000 ++ bytesOf 8 16 ++ List.replicate 48 0 ++ bytesOf 8 0x50000 ++ bytesOf 8 16 ++ List.replicate 48 0
def cardBits : BitVec 2048 := BitVec.ofNat 2048 (natOfBytes cardBytes)
def cardS : State := paged (unitT 0) 0x200000 cardBytes

/-- The card is one that R87 accepts wherever its two regions are translated addresses; with KIND 3 it is none. -/
theorem card_good (win : Nat → Nat → Win) (h1 : win 0x40000 16 = .no) (h2 : win 0x50000 16 = .no) : CardGood win cardBits := by
  have r1 : ∀ j, j < 4 → fieldAt cardBits.toNat (0x80 + 16 * j) 8 = (if j = 0 then 0x40000 else 0) ∧
      fieldAt cardBits.toNat (0x80 + 16 * j + 8) 5 = if j = 0 then 16 else 0 := by decide +kernel
  have r2 : ∀ j, j < 4 → fieldAt cardBits.toNat (0xC0 + 16 * j) 8 = (if j = 0 then 0x50000 else 0) ∧
      fieldAt cardBits.toNat (0xC0 + 16 * j + 8) 5 = if j = 0 then 16 else 0 := by decide +kernel
  have r3 : ∀ j, j < 8 → fieldAt cardBits.toNat (0x80 + 16 * j + 13) 3 = 0 := by decide +kernel
  have b1 : bitsAt cardBits.toNat 63 12 = 0 := by decide +kernel
  have b2 : bitsAt cardBits.toNat 11 8 = 0 := by decide +kernel
  have f0 : fieldAt cardBits.toNat 0 1 = 0 := by decide +kernel
  have f1 : fieldAt cardBits.toNat 0x18 8 = 0 := by decide +kernel
  have f2 : fieldAt cardBits.toNat 0x2C 4 = 0 := by decide +kernel
  have f3 : fieldAt cardBits.toNat 0x60 32 = 0 := by decide +kernel
  have f4 : fieldAt cardBits.toNat 0x50 8 = 0 := by decide +kernel
  have p0 : fieldAt cardBits.toNat 0x20 4 = 16 := by decide +kernel
  have p1 : fieldAt cardBits.toNat 0x24 4 = 1 := by decide +kernel
  have p2 : fieldAt cardBits.toNat 0x28 4 = 1 := by decide +kernel
  have s1 : fieldAt cardBits.toNat 0x08 8 = 0x40000 := by decide +kernel
  have s2 : fieldAt cardBits.toNat 0x10 8 = 0x50000 := by decide +kernel
  generalize cardBits = c at *
  unfold CardGood
  simp only [b1, b2, f0, f1, f2, f3, f4, p0, p1, p2, s1, s2]
  refine ⟨by simpa using r3, ⟨by decide, by decide, by decide, fun h => absurd h (by decide)⟩, ?_, fun h => absurd rfl h, ?_, ?_⟩
  · intro k1 k2 i a b c
    obtain rfl : k1 = 0 := by omega
    obtain rfl : k2 = 0 := by omega
    refine ⟨fun _ => ⟨0, by decide, ?_⟩, ⟨0, by decide, ?_⟩⟩
    · rw [(r1 0 (by decide)).1, (r1 0 (by decide)).2]
      norm_num
      omega
    · rw [(r2 0 (by decide)).1, (r2 0 (by decide)).2]
      norm_num
      omega
  · intro side j hs hj hn
    rcases hs with rfl | rfl
    · rw [(r1 j hj).2] at hn
      rw [(r1 j hj).1, (r1 j hj).2]
      by_cases h0 : j = 0
      · simp [h0, h1]
      · simp [h0] at hn
    · rw [(r2 j hj).2] at hn
      rw [(r2 j hj).1, (r2 j hj).2]
      by_cases h0 : j = 0
      · simp [h0, h2]
      · simp [h0] at hn
  · intro i j p q hi hj hn hm hp hq _
    rw [(r1 i hi).2] at hn
    rw [(r2 j hj).2] at hm
    rw [(r1 i hi).1, (r1 i hi).2] at hp
    rw [(r2 j hj).1, (r2 j hj).2] at hq
    rw [(r1 i hi).2, (r2 j hj).2]
    by_cases a0 : i = 0
    · by_cases b0 : j = 0
      · simp [a0, b0, h1, h2] at hp hq ⊢
        subst hp; subst hq
        decide
      · simp [b0] at hm
    · simp [a0] at hn

theorem card_bad (win : Nat → Nat → Win) : ¬ CardGood win (cardBits ||| 3) := fun h => absurd h.1.2.1 (by decide +kernel)

/-- Windows of each kind: an address of none, the ends of the team's own, and one past it. -/
theorem witness_WindowsAreJudged :
    window cardS (unitT 0) 0x30000 16 = .no ∧ window cardS (unitT 0) (0xFF00000000000 + 752) 16 = .at 0 752 ∧
    window cardS (unitT 0) (0xFF00000000000 + 753) 16 = .out ∧ window cardS (unitT 0) 0xFE00000000000 768 = .at 0 0 := by decide +kernel

/-- The team with a card of ticket 5 COMPLETE, 6 PENDING and 7 FAULTED. -/
def ticketT : Team := { unitT 0 with cards := [⟨5, 0⟩, ⟨6, 1⟩, ⟨7, 2⟩] }

theorem witness_CardsAreAcceptedAndAwaited :
    Issuing cardS 0 (unitT 0) (clauseOf 0 0) ∧ slicePending (unitT 0) = false ∧ flagCount (unitT 0) 0 ≠ 63 ∧
    Legal (.card (.s 7) (.s 2)) (unitT 0) true anyType [dst (.s 7) 1, src (.s 2) 2] ∧ ReleasePasses cardS 0 (unitT 0) (released cardS 0 (unitT 0)) ∧
    cardsPending (released cardS 0 (unitT 0)) 0 < 64 ∧ (checkRun (released cardS 0 (unitT 0)) (unitT 0) 0x30000 256 256 needR true).1 = .ok ∧
    (readRun (checkRun (released cardS 0 (unitT 0)) (unitT 0) 0x30000 256 256 needR true).2 0 (unitT 0) 0x30000 256).1 = some cardBytes ∧
    CardGood (window cardS (unitT 0)) cardBits ∧ ¬ CardGood (window cardS (unitT 0)) (cardBits ||| 3) ∧
    Legal (.cwait (.s 7)) ticketT false anyType [src (.s 7) 1] ∧ Legal (.cpoll (.s 9) (.s 7)) ticketT true anyType [dst (.s 9) 1, src (.s 7) 1] ∧
    (cardStatus ticketT 5 = 0 ∧ cardStatus ticketT 6 = 1 ∧ cardStatus ticketT 7 = 2) ∧
    AcquirePasses (mach ticketT) 0 ticketT (acquireTeam ((drainReturning (mach ticketT) 0 ticketT.cfg).updTeam 0 surfacePoison) ticketT.cfg) ∧
    (∀ ops m, Unpoisoned ticketT ops m) := by
  refine ⟨issuing_of ?_, ?_, ?_, legal_of ?_, release_of ?_, ?_, ?_, ?_, card_good _ (by decide +kernel) (by decide +kernel), card_bad _, legal_of ?_, legal_of ?_, ?_, acquire_of ?_,
    clean _ rfl⟩ <;> decide +kernel

/-! ### Paths, calls, traps -/

/-- A team with nothing in flight on a machine with nothing outbound, as a test that can be run. -/
def quietB (s : State) (t : Team) : Bool :=
  flagsClear t && decide (t.late = []) && decide (t.integrity = []) && (teamCores t.cfg).all (fun c => decide ((s.core c).out = []))

theorem quiet_of {s : State} {u : Nat} {t : Team} (h : quietB s t = true) : Quiet s u t := by
  simp only [quietB, Bool.and_eq_true, decide_eq_true_eq, List.all_eq_true] at h
  refine ⟨h.1.1.1, h.1.1.2, h.1.2, fun c hc e he => ?_⟩
  rw [h.2 c hc] at he
  cases he

/-- A branch clause with a taken lane and one that falls through; an entry to rejoin at 0x1100. -/
def branchT (m : Mask) : Team := { withS 1 0 with masks := team0.masks.set 1 m, clause := some (clauseOf 0xE10001F0 0x00400020), cfg := { team0.cfg with fssize := 0x1000 } }

theorem witness_PathsBranchAndRejoin :
    Issuing (mach (branchT 1)) 0 (branchT 1) (clauseOf 0xE10001F0 0x00400020) ∧ arrives (standsAt (branchT 1) 0x1100) = false ∧
    (let t := { branchT 1 with reconv := [{ pend := false, mask := 3, pc := 0x1100, rejoin := 0x1100, mode := 0xE000 }] }
     ownEntries (standsAt t 0x1100) = true ∧ (0x1100 : Nat) = 0x1100 % 2 ^ 52 ∧
     arrives { standsAt t 0x1100 with reconv := [], mode := 0xE000, exec := 3 &&& t.frame, pc := 0x1100 } = false) ∧
    Instr.bra.wellFormed = true ∧ Legal (.bru (.s 0)) (branchT 1) false anyType [src (.s 0) 1] ∧ (Instr.brc 1).wellFormed = true ∧
    (branchT 0).exec &&& (branchT 0).masks[1] &&& (branchT 0).frame = 0 ∧
    ((branchT 1).exec &&& (branchT 1).masks[1] &&& (branchT 1).frame ≠ 0 ∧ (branchT 1).exec &&& ~~~ ((branchT 1).exec &&& (branchT 1).masks[1] &&& (branchT 1).frame) ≠ 0) ∧
    (branchT 3).exec &&& ~~~ ((branchT 3).exec &&& (branchT 3).masks[1] &&& (branchT 3).frame) = 0 ∧
    (let t1 := { branchT 1 with reconv := [{ pend := true, mask := 2, pc := 0x1008, rejoin := 0x1100, mode := 0xE000 }, { pend := false, mask := 3, pc := 0x1100, rejoin := 0x1100, mode := 0xE000 }] }
     frameUse (fitStacks t1) ≤ (branchT 1).cfg.fssize ∧ (framePushed (mach (branchT 1)) 0 (branchT 1) (fun x => .ok (goTo { x with
       reconv := { pend := true, mask := 2, pc := 0x1008, rejoin := 0x1100, mode := 0xE000 } :: { pend := false, mask := 3, pc := 0x1100, rejoin := 0x1100, mode := 0xE000 } :: x.reconv,
       exec := 1 } 0x1080))).isSome = true) ∧
    (let deep : List Reconv := List.replicate 16 { pend := false, mask := 3, pc := 0x1100, rejoin := 0x1100, mode := 0xE000 }
     (0 : Nat) < frameUse (fitStacks { branchT 1 with reconv := deep ++ [{ pend := true, mask := 2, pc := 0x1008, rejoin := 0x1100, mode := 0xE000 }] })) ∧ (branchT 1).spilledEntries = 0 := by
  refine ⟨issuing_of ?_, ?_, ?_, ?_, legal_of ?_, ?_, ?_, ?_, ?_, ?_, ?_, rfl⟩ <;> decide +kernel

/-- A function header: SAME, WIDEN of two slots or GATHER, 16 registers, two arguments and one result (R179). -/
def fnW0 (rule : Nat) : Word := BitVec.ofNat 32 (0xFC004000 + rule * 2 ^ 22 + if rule = 1 then 1 else 0)
def fnW1 : Word := 0x10400000
def fnHdrOf (rule : Nat) : FnHdr := (fnHeader (fnW0 rule) fnW1).getD { rule := .same, redop := 0, vbudget := 1, n := 1, narg := 0, nret := 0 }

/-- A team of two lanes at a CALL whose target's header was fetched with the clause; v8 and v9 hold each lane's arguments, and page 5 the frame stack. -/
def callC (rule : Nat) : Clause := { clauseOf 0xE31008F0 0x40 with target := [fnW0 rule, fnW1] }
def callT (rule budget : Nat) : Team :=
  { team0 with
    clause := some (callC rule), exec := 3, frame := 3, cfg := { team0.cfg with budget := budget, fsbase := 0x50000, fssize := 0x4000 },
    vregs := [(8, 5), (9, 6), (200, 7), (201, 8)] }
def callS (rule budget : Nat) : State := paged (callT rule budget) 0x200000 []

theorem witness_CallsBeginTheirCallee :
    Issuing (callS 0 64) 0 (callT 0 64) (callC 0) ∧ Quiet (callS 0 64) 0 (callT 0 64) ∧
    Legal (.call (.v 16) (.v 8)) (callT 0 64) false anyType [named (.v 16) 1, named (.v 8) 1] ∧ (callC 0).target = [fnW0 0, fnW1] ∧
    fnHeader (fnW0 0) fnW1 = some (fnHdrOf 0) ∧ (∀ ops m, Unpoisoned (callT 0 64) ops m) ∧ (fnHdrOf 0).rule = .same ∧ (callT 0 64).handler = none ∧
    (tryCall (callT 0 64) (fnHdrOf 0) 0x1100 16 8 3 (clauseEnd (callC 0)) []).toOption.isSome = true ∧
    (framePushed (callS 0 64) 0 (callT 0 64) (fun x => tryCall x (fnHdrOf 0) 0x1100 16 8 x.exec (clauseEnd (callC 0)) [])).isSome = true ∧
    (callT 0 15).cfg.budget < (fnHdrOf 0).vbudget ∧ (tryCall (callT 0 15) (fnHdrOf 0) 0x1100 16 8 3 (clauseEnd (callC 0)) []).toOption = none := by
  refine ⟨issuing_of ?_, quiet_of ?_, legal_of ?_, rfl, ?_, clean _ rfl, ?_, rfl, ?_⟩ <;> decide +kernel

/-- The caller in a team whose every slot is LIVE: a WIDEN call spills its callers, a GATHER call its lowest. -/
def fullCallT (rule : Nat) : Team :=
  { callT rule 64 with frame := lowMask 32, cfg := { (callT rule 64).cfg with capacity := 32 } }
theorem witness_CallsOfOtherRules : ∀ rule ∈ [1, 2], ∀ t ∈ [callT rule 64, fullCallT rule],
    (fnHdrOf rule).rule ≠ .same ∧ t.handler = none ∧ t.cfg.capacity ≤ 1024 ∧ t.spent &&& (t.frame ||| t.held) = 0 ∧
    (tryCall t (fnHdrOf rule) 0x1100 16 8 3 (clauseEnd (callC rule)) []).toOption.isSome = true := by decide +kernel

/-- Two lanes whose CALLI targets, in v10 and v11, are two functions on page 3. -/
def calliT : Team := { callT 0 64 with clause := some (clauseOf 0xE41008 0), vregs := [(8, 5), (10, 0x30100), (200, 7), (202, 0x30200)] }
def calliS : State :=
  let f := bytesOf 4 (fnW0 0).toNat ++ bytesOf 4 fnW1.toNat ++ bytesOf 4 0xFE000000
  { paged calliT 0x200100 f with mem := Memory.writes (Memory.writes pages 0x200100 f) 0x200200 f }
def calliX : Issue := { u := 0, t := calliT, lit := (clauseOf 0xE41008 0).lit, active := calliT.exec, whole := calliT.exec, exec := calliT.exec }

theorem witness_CalliRunsItsGroupsInOrder :
    Issuing calliS 0 calliT (clauseOf 0xE41008 0) ∧ Quiet calliS 0 calliT ∧
    Legal (.calli (.v 16) (.v 8) (.v 10)) calliT false anyType [named (.v 16) 1, named (.v 8) 1, named (.v 10) 2] ∧ calliT.retry = none ∧
    (∀ l ∈ (calliFetches calliX (.v 10) (calliLanes calliX (.v 10)) calliS).1, ∃ w0 w1, l.2 = .ok w0 w1) ∧
    (let groups := calliGroups (calliFetches calliX (.v 10) (calliLanes calliX (.v 10)) calliS).1
     (groups.map Prod.fst = [0x30100, 0x30200]) ∧ (groups.all (fun g => decide (groupFails calliX 16 8 (clauseEnd (clauseOf 0xE41008 0)) g = none))) = true ∧
     (groups.head?.map (fun g => (framePushed (calliFetches calliX (.v 10) (calliLanes calliX (.v 10)) calliS).2 0 calliT (fun y =>
       match beginCall y (fnHdrOf 0) g.1 16 8 g.2.2 (clauseEnd (clauseOf 0xE41008 0)) (groups.tail.filterMap (fun z => z.2.1.map (fun v => ⟨z.1, v, z.2.2⟩))) with
       | none => .error .width
       | some t1 => .ok t1)).isSome)) = some true) := by
  refine ⟨issuing_of (by decide +kernel), quiet_of (by decide +kernel), legal_of (by decide +kernel), rfl, ?_, by decide +kernel⟩
  intro l hl
  have h : ((calliFetches calliX (.v 10) (calliLanes calliX (.v 10)) calliS).1.all (fun l => decide (l.2 = .ok (fnW0 0) fnW1))) = true := by decide +kernel
  exact ⟨_, _, of_decide_eq_true (List.all_eq_true.mp h l hl)⟩

/-- The same team in its callee, at a RET or EXIT. -/
def calledT (rule : Nat) : Team :=
  { (tryCall (callT rule 64) (fnHdrOf rule) 0x1100 16 8 3 (clauseEnd (callC rule)) []).toOption.getD (callT rule 64) with clause := some (clauseOf 0xE5000000 0) }
def calledS (rule : Nat) : State := paged (calledT rule) 0x200000 []

theorem witness_ReturnsAndExitsLeaveTheirFrame :
    Issuing (calledS 0) 0 (calledT 0) (clauseOf 0xE5000000 0) ∧ Instr.ret.wellFormed = true ∧ Instr.exit.wellFormed = true ∧ Quiet (calledS 0) 0 (calledT 0) ∧
    (match (calledT 0).calls with
     | k :: _ =>
       let t1 := goTo (returnLanes (calledT 0) k (calledT 0).exec) (clauseEnd (clauseOf 0xE5000000 0))
       decide (poisonedResults t1 = 0) &&
         (framePushed (calledS 0) 0 (calledT 0) (fun x => settle (calledT 0).mode none (goTo (returnAll x) (clauseEnd (clauseOf 0xE5000000 0))))).isSome
     | [] => false) = true ∧
    handlerFrame (calledT 0) = false ∧ recordAt (calledS 0) 0 = none ∧ (∀ ops m, Unpoisoned (calledT 0) ops m) ∧
    (let gone := goTo (exitLanes (calledT 0) (calledT 0).exec) (clauseEnd (clauseOf 0xE5000000 0))
     poisonedResults gone = 0 ∧ ((settle (calledT 0).mode none gone).toOption.map (fun _ =>
       (framePushed (calledS 0) 0 (calledT 0) (fun x => settle (calledT 0).mode none (goTo (exitAll x) (clauseEnd (clauseOf 0xE5000000 0))))).isSome)) = some true) ∧
    (Quiet (mach team0) 0 team0 ∧ team0.calls = [] ∧ team0.reconv = [] ∧ team0.handler = none) ∧ handlerFrame { team0 with handler := some (0, 0) } = true := by
  refine ⟨issuing_of ?_, rfl, rfl, quiet_of ?_, ?_, ?_, ?_, clean _ ?_, ?_, ⟨quiet_of ?_, rfl, rfl, rfl⟩, ?_⟩ <;> decide +kernel

/-- A WIDEN callee whose lanes have all left: its last round, a round before another, and one whose REDOP the TYPE refuses; a GATHER callee, one of whose
callers was spilled or none. -/
def leftT (t : Team) (f : CallRec → CallRec) : Team := { t with exec := 0, clause := none, calls := t.calls.map f }
def calledFullT (rule : Nat) : Team := (tryCall (fullCallT rule) (fnHdrOf rule) 0x1100 16 8 3 (clauseEnd (callC rule)) []).toOption.getD (fullCallT rule)
def leaves (y : Team) (p : CallRec → Bool) : Bool :=
  decide (y.exec = 0) && !ownEntries y && decide (y.handler = none) && decide (y.captured = none) && decide (y.cfg.budget ≤ 192) &&
    (match y.calls with
     | k :: _ => decide (k.vd + k.nret ≤ y.cfg.budget) && p k
     | [] => false)
theorem witness_RoundsEnd :
    (∀ y ∈ [leftT (calledT 1) id, leftT (calledT 1) (fun k => { k with redop := 1 }), leftT (calledFullT 1) id], leaves y (fun k =>
      decide (k.rule = .widen) && decide (k.width = 2 ^ 1) && decide k.roundCallers.Nodup && decide (k.spilled.map LaneFrame.slot).Nodup &&
      k.spilled.all (fun f => decide (f.regs.length = y.cfg.budget)) && decide (k.exec ≠ 0) && decide (k.calli = []) &&
      y.reconv.all (fun e => decide (e.rejoin ≠ k.retPc % 2 ^ 52)) && (decide (k.callers.length ≤ k.next) || !decide (k.spilled = []))) = true) ∧
    (typeRegs (modeType 0xE000) = 1 ∧ nodeType .add (modeType 0xE000) = true ∧ nodeType .union (modeType 0xE000) = false) ∧
    leaves (leftT (calledT 1) (fun k => { k with callers := [0, 1], roundCallers := [0], groups := [2], next := 1 })) (fun k =>
      decide (k.next < k.callers.length) && decide (k.spilled = []) && k.groups.all (fun g => (k.callers ++ k.roundCallers).all (fun x => !(decide (g ≤ x) && decide (x < g + k.width)))) &&
      decide k.groups.Nodup && decide (k.groups ≠ []) && decide (k.va + k.narg ≤ 64)) = true ∧
    (∀ y ∈ [leftT (calledT 2) id, leftT (calledFullT 2) id], leaves y (fun k =>
      decide (k.rule = .gather) && (match k.gather with
        | some g => decide (g.nret = k.nret) && decide g.callers.Nodup && ((decide (k.spilled = []) && decide (k.round = slotMask 2) && g.callers.all (fun x => decide (x ≠ 2))) ||
          (decide (k.spilled.map LaneFrame.slot = [0]) && decide (k.round = slotMask 0) && k.spilled.all (fun f => decide (f.regs.length = y.cfg.budget))))
        | none => false) && decide (k.exec ≠ 0) && decide (k.calli = []) && y.reconv.all (fun e => decide (e.rejoin ≠ k.retPc % 2 ^ 52))) = true) := by decide +kernel

/-- A GATHER callee of two callers, whose lane asks for a caller's argument; outside a call there is none. -/
theorem witness_GatherArgumentsAndResults :
    Issuing (calledS 2) 0 (calledT 2) (clauseOf 0xE5000000 0) ∧ Legal (.arg (.v 3) (.v 0) .zero) (calledT 2) false anyType [dst (.v 3) 1, src (.v 0) 1, src .zero 1] ∧
    (gatherCall (calledT 2).calls).isSome = true ∧ (∀ ops m, Unpoisoned (calledT 2) ops m) ∧ lanesOn (calledT 2) ≠ 0 ∧ gatherCall (callT 2 64).calls = none ∧
    (checkRun (calledS 2) (calledT 2) (calledT 2).cfg.fsbase (frameImage (calledT 2)).length 1 needR true).1 = .ok ∧
    Legal (.gret .zero (.v 0) (.v 5)) (calledT 2) false anyType [src .zero 1, src (.v 0) 1, src (.v 5) 1] ∧
    ((gatherCall (calledT 2).calls).map (fun g =>
      (framePushed (calledS 2) 0 (calledT 2) (fun x => .ok { x with calls := setGather { (gatherCall x.calls).getD g with results := [(0, 9)] } x.calls })).isSome)) =
      some true ∧
    (let r := checkRun (calledS 2) (calledT 2) (calledT 2).cfg.fsbase (frameImage (calledT 2)).length 1 needR true
     ((readRun r.2 0 (calledT 2) (calledT 2).cfg.fsbase (frameImage (calledT 2)).length).1.bind (fun bs => gatherCall (reloadImage (calledT 2) bs).calls)).isSome = true) := by
  refine ⟨issuing_of ?_, legal_of ?_, ?_, clean _ ?_, ?_, ?_, ?_, legal_of ?_, ?_⟩ <;> decide +kernel

/-- A launch whose handler is at 0x2000, with its record area; the team in it after a trap of ALIGN in the second word of its clause. -/
def trapT : Team := { oneLane 0xE000 0 0 0 with cfg := { team0.cfg with handler := some 0x2000 }, clause := some { clauseOf 0 0 with idx := 2 } }
def trapS : State := { mach trapT with areas := [(0, { launch := 0, ctx := 0, record := none })] }
def handledS0 : State := takeTrap trapS 0 (trapOf .align 1)
def handledT : Team := { (tblGet handledS0.teams 0).getD trapT with clause := some (clauseOf 0xF600C600 0) }
def handledS : State := handledS0.setTeam 0 handledT

theorem witness_TrapsEnterTheHandler :
    (tblGet trapS.teams 0 = some trapT ∧ trapT.handler = none ∧ Quiet trapS 0 trapT ∧ trapT.cfg.handler = some 0x2000 ∧
      tblGet trapS.areas 0 = some { launch := 0, ctx := 0, record := none } ∧ (trapOf .align 1).clauseLevel = false) ∧
    (team0.handler = none ∧ Quiet (mach team0) 0 team0 ∧ team0.cfg.handler = none) ∧
    (handledT.handler.isSome = true ∧ ((tblGet handledS.areas 0).bind Area.record).isSome = true ∧ tblGet handledS.teams 0 = some handledT) ∧
    Issuing (mach team0) 0 team0 (clauseOf 0 0) ∧ Legal (.trap .zero) team0 false anyType [src .zero 1] ∧ Legal (.bkpt (.s 31)) team0 false anyType [src (.s 31) 1] ∧
    Instr.yield.wellFormed = true ∧
    (let s1 := ({ mach team0 with nextId := (mach team0).nextId + 1 } : State).setTeam 0 { goOn team0 (clauseEnd (clauseOf 0 0)) with order := (mach team0).nextId }
     firstPending s1 0 = none) ∧
    (let s := { mach team0 with teams := [(0, team0), (1, { team0 with active := false })] }
     let s1 := ({ s with nextId := s.nextId + 1 } : State).setTeam 0 { goOn team0 (clauseEnd (clauseOf 0 0)) with order := s.nextId }
     (firstPending s1 0).map Prod.fst = some 1 ∧ team0.active = true ∧ team0.cfg.prio ≤ team0.cfg.prio) := by
  refine ⟨⟨rfl, rfl, quiet_of ?_, rfl, rfl, rfl⟩, ⟨rfl, quiet_of ?_, rfl⟩, ?_, issuing_mach _ _ rfl rfl, legal_of ?_, legal_of ?_, rfl,
    ?_⟩ <;> decide +kernel

/-- The three modes of ERET at the depths of the record, and what each of them leaves. -/
theorem witness_EretResumesTheTrappingPath :
    Issuing handledS 0 handledT (clauseOf 0xF600C600 0) ∧ Legal (.eret (.s 6)) handledT false anyType [src (.s 6) 1] ∧ team0.handler = none ∧
    (∀ m ∈ [0, 1, 2], m ≤ 2) ∧ 2 < 3 ∧
    (match recordAt handledS 0, handledT.trapClause with
     | some r, some k =>
       let l := { leaveHandler handledT r with clause := some k, pc := k.header, trapClause := none }
       decide (handledT.calls.length = r.cdepth) && decide (handledT.reconv.length = r.rdepth) && decide (r.sregs.length = 8) && decide (k.idx ≠ 0) &&
       decide (r.exec &&& handledT.frame ≠ 0) && decide (r.pending &&& (r.exec &&& handledT.frame) ≠ 0) &&
       decide ((goTo l (clauseEnd k)).exec ≠ 0) && decide ((stepTeam l).exec ≠ 0) &&
       [0, 1, 2].all (fun m => decide ((resumeAt (leaveHandler handledT r) r m).exec ≠ 0) &&
         (framePushed handledS 0 handledT (fun x => settle r.mode (some r) (resumeAt (leaveHandler x r) r m))).isSome)
     | _, _ => false) = true := by
  refine ⟨issuing_of ?_, legal_of ?_, rfl, ?_⟩ <;> decide +kernel


/-! ### The matrix unit, cohorts, feed queues, layers -/

/-- s registers with some words set. -/
def sregsWith (l : List (Nat × Nat)) : Vector Word 32 := l.foldl (fun v e => v.setIfInBounds e.1 (BitVec.ofNat 32 e.2)) (Vector.replicate 32 0)

/-- An MLOOP of one K-step on pages 3 and 4 into tile 0x60000 with header 0x62000 in s0 to s11, widths 2 and 2 (R156, R157); an MDRAIN of that tile to page 5
as FP32 in s12 to s23; an MQUANT from the scratchpad to page 5 in s24 to s29. -/
def matrixT : Team :=
  { oneLane 0xE000 0 0 0 with
    sregs := sregsWith [(0, 0x30000), (2, 0x40000), (4, 0x60000), (6, 0x62000), (8, 1), (11, 0x24000),
                        (12, 0x60000), (14, 0x62000), (16, 0x50000), (22, 128), (24, 0), (25, 0xFF000), (26, 0x50000), (28, 128), (29, 0)],
    cfg := { team0.cfg with spsize := 4096 }, openLoops := [⟨7, false, 0, []⟩],
    batches := [⟨1, [], 0, false, []⟩, ⟨2, [], 1, false, []⟩, ⟨3, [9], 0, false, []⟩], batchNum := 3 }
def matrixS : State := paged matrixT 0x200000 []
def matrixX : Issue := issueOfTeam 0 matrixT 0
def matrixL : MLoop := loopOf matrixX 0 matrixS.nextId

theorem witness_ProductsAccumulateExactly :
    (List.replicate 1024 (0 : Int)).length = 1024 ∧ (List.replicate 32 (List.replicate 32 (1 : Int))).length = 32 ∧
    (∀ r ∈ List.replicate 32 (List.replicate 32 (1 : Int)), r.length = 32) ∧ 31 < 32 := by
  refine ⟨List.length_replicate, List.length_replicate, fun r hr => ?_, by decide⟩
  rw [List.eq_of_mem_replicate hr, List.length_replicate]

theorem witness_MatrixLoopsAndBatches :
    Issuing matrixS 0 matrixT (clauseOf 0 0) ∧ Legal (.mloop (.s 0)) matrixT false anyType [named (.s 0) 1] ∧ slicePending matrixT = false ∧
    blockReg (.s 0) 20 = some 0 ∧ blockReg (.s 20) 20 = some 20 ∧ blockReg (.s 2) 20 = none ∧ blockReg (.s 24) 20 = none ∧
    (runChecks (loopChecks matrixX matrixL (blockWord matrixX 8)) { matrixS with nextId := matrixS.nextId + 1 }).1 = .ok ∧
    ((runChecks (loopChecks matrixX matrixL (blockWord matrixX 8)) { matrixS with nextId := matrixS.nextId + 1 }).2.core 0).sequencer.length < 16 ∧
    (let s := matrixS.updCore 0 (fun c => { c with sequencer := List.replicate 16 matrixL })
     (runChecks (loopChecks matrixX matrixL (blockWord matrixX 8)) { s with nextId := s.nextId + 1 }).1 = .ok ∧
     16 ≤ ((runChecks (loopChecks matrixX matrixL (blockWord matrixX 8)) { s with nextId := s.nextId + 1 }).2.core 0).sequencer.length) ∧
    Legal (.mbatch (.s 31)) matrixT false anyType [dst (.s 31) 1] ∧ (matrixT.batches.filter (fun b => decide (b.loops ≠ []))).length < 64 ∧
    isSreg (.v 3) = false ∧ Legal (.mbatch (.v 3)) matrixT false anyType [dst (.v 3) 1] ∧ Legal (.mwait (.s 8)) matrixT false anyType [named (.s 8) 1] ∧
    (∃ b ∈ awaitedBatches matrixT 3, b.loops ≠ []) ∧
    ((∀ b ∈ awaitedBatches matrixT 2, b.loops = []) ∧ ((awaitedBatches matrixT 2).find? (fun b => decide (b.fault ≠ 0) && !b.reported)).isSome = true) ∧
    ((∀ b ∈ awaitedBatches matrixT 1, b.loops = []) ∧ (∀ b ∈ awaitedBatches matrixT 1, b.fault = 0 ∨ b.reported = true)) ∧
    AcquirePasses matrixS 0 matrixT (acquireTeam ((drainReturning matrixS 0 matrixT.cfg).updTeam 0 surfacePoison) matrixT.cfg) := by
  refine ⟨issuing_of ?_, legal_of ?_, ?_, ?_, ?_, ?_, ?_, ?_, ?_, ?_, legal_of ?_, ?_, rfl, legal_of ?_, legal_of ?_, ?_, ?_, ?_,
    acquire_of ?_⟩ <;> decide +kernel

def drainedS : State := (runChecks (drainChecks matrixX (drainOf matrixX 12) 8) matrixS).2

theorem witness_AccumulatorDrainsAndClears :
    Issuing matrixS 0 matrixT (clauseOf 0 0) ∧ slicePending matrixT = false ∧ Legal (.mdrain (.s 12)) matrixT false anyType [named (.s 12) 1] ∧
    blockReg (.s 12) 20 = some 12 ∧ (matrixT.mode.extractLsb 15 13).toNat + 1 = 8 ∧ (runChecks (drainChecks matrixX (drainOf matrixX 12) 8) matrixS).1 = .ok ∧
    teamLoops drainedS 0 = [] ∧ (scaleBytes drainedS matrixX (drainOf matrixX 12).rscale).1.isSome = true ∧
    (scaleBytes (scaleBytes drainedS matrixX (drainOf matrixX 12).rscale).2 matrixX (drainOf matrixX 12).cscale).1.isSome = true ∧
    drainedS.poison = [] ∧ Legal (.mquant (.s 24)) matrixT false anyType [named (.s 24) 1] ∧ blockReg (.s 24) 24 = some 24 ∧
    (let x := matrixX
     let q := runChecks (quantChecks x (blockPair x 24) (blockPair x 26) (blockWord x 29) 128 8) matrixS
     q.1 = .ok ∧ (List.range 32).all (fun i => (readRun q.2 0 matrixT ((blockPair x 24 : Int) + (i : Int) * 128).toNat 128).1.isSome) = true) ∧
    Legal (.mzero (.s 4) (.s 6)) matrixT false anyType [named (.s 4) 1, named (.s 6) 1] ∧ evenSreg (.s 4) = true ∧ evenSreg (.s 5) = false ∧
    Legal (.mzero (.s 5) (.s 6)) matrixT false anyType [named (.s 5) 1, named (.s 6) 1] ∧
    (let need := needTile false true
     let q := runChecks [demand (decide (0x60000 % 8192 = 0) && decide (0x62000 % 64 = 0) && headerPlaced 0x60000 0x62000) .align,
       pagesOf matrixT.cfg need anyPage (0x60000 : Nat) 8192, pagesOf matrixT.cfg need anyPage (0x62000 : Nat) 64, pagesOf matrixT.cfg need accumPage (0x60000 : Nat) 8192,
       pagesOf matrixT.cfg need accumPage (0x62000 : Nat) 64] matrixS
     q.1 = .ok ∧ ∀ l ∈ teamLoops q.2 0, l.accPa ≠ accumPa q.2 matrixT.cfg 0x60000 need) ∧
    ((0 < 8 ∧ 8 ≤ 8) ∧ ∀ i j, i < 32 → j < 32 → isNan ((fun _ _ => FpVal.fin false 1 0 : Nat → Nat → FpVal) i j) = false) := by
  refine ⟨issuing_of ?_, ?_, legal_of ?_, ?_, ?_, ?_, ?_, ?_, ?_, ?_, legal_of ?_, ?_, ?_, legal_of ?_, ?_, ?_, legal_of ?_, ?_,
    ⟨by decide, fun _ _ _ _ => rfl⟩⟩ <;> decide +kernel

/-- A cohort of two members at page 3, one of which has arrived. -/
def cohort2 : Cohort := { members := 2, arrived := 0, gen := 5, teams := [0, 1], parkedTeams := [] }
def cohortS : State := { unitS 0 with cohorts := [(0x200000, cohort2)] }

/-- An operation of team 0 on it, and the state in which the unit takes it. -/
def cohortOp (k : UnitOp) : UnitWait := { table := .cohort, op := k, who := 0, pa := 0x200000, id := 0 }
def cohortReach (s : State) : State := (unitReach s (unitT 0).cfg 0x30000 64).2

/-- JOIN, LEAVE and BAR of a member and of another team; each waits behind a JOIN of team 7 that waits at the slice. -/
theorem witness_CohortsMeetAtTheirBarrier :
    Issuing (unitS 0) 0 (unitT 0) (clauseOf 0 0) ∧ Issuing cohortS 0 (unitT 0) (clauseOf 0 0) ∧ slicePending (unitT 0) = false ∧ evenSreg (.s 2) = true ∧
    (unitReach (unitS 0) (unitT 0).cfg (readVal (unitT 0) 0 0 (.s 2) 2) 64).1 = .ok (unitMap 0) ∧ (unitReach cohortS (unitT 0).cfg 0x30000 64).1 = .ok (unitMap 0) ∧
    (∀ i ∈ [Instr.join (.s 2), .leave (.s 2), .bar (.s 2)], Legal i (unitT 0) false anyType [src (.s 2) 2]) ∧
    (∀ k ∈ [UnitOp.join, .leave, .bar], (unitGate (cohortReach (unitS 0)) (cohortOp k)).isSome = true ∧ (unitGate (cohortReach cohortS) (cohortOp k)).isSome = true ∧
      unitGate (cohortReach { cohortS with unitWait := [{ table := .cohort, op := .join, who := 7, pa := 0x200000, id := 99 }] }) (cohortOp k) = none) ∧
    0 ∉ (cohortAt ((unitGate (cohortReach (unitS 0)) (cohortOp .bar)).getD (unitS 0)) 0x200000).1.teams ∧
    (let s2 := (unitGate (cohortReach cohortS) (cohortOp .bar)).getD cohortS
     0 ∈ (cohortAt s2 0x200000).1.teams ∧ ReleasePasses s2 0 (unitT 0) (released s2 0 (unitT 0))) ∧
    (tblGet cohortS.cohorts 0x200000 = some cohort2 ∧ tblGet cohortS.teams 0 = some (unitT 0) ∧ 0 ∈ cohort2.teams ∧ 7 ∉ cohort2.teams) ∧
    (let c := { cohort2 with arrived := 1, parkedTeams := [1] }
     c.arrived + 1 = c.members ∧ c.members ≠ 0 ∧ c.members - 1 = c.arrived) ∧
    (let t := { unitT 0 with wait := .bar 0x200000 5 false }
     t.wait = .bar 0x200000 5 false ∧ t.saved = false ∧
     AcquirePasses (unitS 0) 0 (unitT 0) (acquireTeam ((drainReturning (unitS 0) 0 (unitT 0).cfg).updTeam 0 surfacePoison) (unitT 0).cfg)) := by
  refine ⟨unitT_issuing _, issuing_of ?_, ?_, rfl, ?_, ?_,
    each (f := fun i => legalB i (unitT 0) false anyType [src (.s 2) 2]) ?_ (fun _ h => legal_of h), ?_, ?_,
    ⟨by decide +kernel, release_of (by decide +kernel)⟩, ?_, ?_, ⟨rfl, rfl, acquire_of ?_⟩⟩ <;> decide +kernel

/-- A feed queue's descriptor of four records at page 3 whose storage is page 4, empty and full (R352), and a record in the scratchpad for QPUSH. -/
def queueBytes (tail : Nat) : List Byte := bytesOf 4 0xFEED0001 ++ bytesOf 4 4 ++ bytesOf 8 0x40000 ++ bytesOf 4 0 ++ bytesOf 4 tail ++ List.replicate 40 0
def queueT : Team := { unitT 0 with sregs := sregsWith [(2, 0x30000), (4, 0x40), (5, 0xFF000)] }
def queueS (tail : Nat) : State := paged queueT 0x200000 (queueBytes tail)

def queueOp (k : UnitOp) : UnitWait := { table := .queue, op := k, who := 0, pa := 0x200000, id := 0 }

theorem witness_FeedQueuesPopAndPush :
    Issuing (queueS 1) 0 queueT (clauseOf 0 0) ∧ slicePending queueT = false ∧ flagCount queueT 0 ≠ 63 ∧
    Legal (.qpop (.v 8) (.s 2)) queueT true anyType [dst (.v 8) 1, src (.s 2) 2] ∧ Legal (.qpop (.s 16) (.s 2)) queueT true anyType [dst (.s 16) 16, src (.s 2) 2] ∧
    (unitReach (queueS 1) queueT.cfg (readVal queueT 0 0 (.s 2) 2) 64).1 = .ok (unitMap 0) ∧
    ((unitGate (unitReach (queueS 1) queueT.cfg 0x30000 64).2 (queueOp .qpop)).bind (fun s2 => (queueAt s2 0 0x200000).1)).isSome = true ∧
    ((unitGate (unitReach (paged queueT 0x200000 []) queueT.cfg 0x30000 64).2 (queueOp .qpop)).map (fun s2 => (queueAt s2 0 0x200000).1)) = some none ∧
    Legal (.qpush (.s 7) (.s 2) (.s 4)) queueT true anyType [dst (.s 7) 1, src (.s 2) 2, src (.s 4) 2] ∧
    Legal (.qpush (.v 7) (.s 2) (.s 4)) queueT true anyType [dst (.v 7) 1, src (.s 2) 2, src (.s 4) 2] ∧
    ReleasePasses (queueS 1) 0 queueT (released (queueS 1) 0 queueT) ∧
    (∀ tail ∈ [1, 4], (let s2 := (checkRun (released (queueS tail) 0 queueT) queueT (readVal queueT 0 0 (.s 4) 2) 64 64 needR true)
      let s3 := unitReach s2.2 queueT.cfg 0x30000 64
      let s4 := queueAt ((unitGate s3.2 (queueOp .qpush)).getD s3.2) 0 0x200000
      let s5 := readRun s4.2 0 queueT 0xFF00000000040 64
      decide (s2.1 = .ok) && decide (s3.1 = .ok (unitMap 0)) && (unitGate s3.2 (queueOp .qpush)).isSome && s4.1.isSome && s5.1.isSome &&
      (match s4.1, s5.1 with
       | some q, some bs => (match (appendRecord s5.2 none 0 (some 0) 0x200000 q bs).1 with
         | .full => decide (tail = 4)
         | .done _ => decide (tail = 1)
         | .held => false)
       | _, _ => false)) = true) := by
  refine ⟨issuing_of ?_, ?_, ?_, legal_of ?_, legal_of ?_, ?_, ?_, ?_, legal_of ?_, legal_of ?_, release_of ?_, ?_⟩ <;> decide +kernel

/-- A model in slot 1 whose layers are ABSENT, RESIDENT and FAILED, of a team of that model that pins the second. -/
def layerOfState (st pins : Nat) : Layer :=
  { vbase := 0, size := 65536, srckind := 0, peerix := 0, srcaddr := 0x300000, check := 0, loads := 0, pins := pins, state := st, unpinned := 0, frames := [] }
def modelOf (ls : List Layer) : ModelCtx :=
  { ring := 0, ctx := 0, desc := 0, prio := 0, eclass := 0, lookahead := 0, flags := 0, flagsPa := [], dispq := 0, failcount := 0, firstfail := 0xFFFF, failwhy := 0,
    layers := ls, unload := false }
def layerT (w pins : Nat) : Team := { unitT 0 with sregs := sregsWith [(2, w)], cfg := { team0.cfg with model := some 1 }, pins := if pins = 0 then [] else [(w, pins)] }
def layerS (w pins : Nat) : State := { mach (layerT w pins) with models := [(1, modelOf [layerOfState 0 0, layerOfState 2 1, layerOfState 4 0])] }

def flagOp (k : UnitOp) : UnitWait := { table := .flag, op := k, who := 0, pa := 0, id := 0 }

theorem witness_LayersArePinnedAndReleased :
    (∀ w pins, Issuing (layerS w pins) 0 (layerT w pins) (clauseOf 0 0)) ∧ layerOf (layerS 0x2000 0) (layerT 0x2000 0) 0x2000 = none ∧
    layerOf (layerS 0x1003 0) (layerT 0x1003 0) 0x1003 = none ∧ slicePending (layerT 0x1000 0) = false ∧ flagCount (layerT 0x1000 0) 0 ≠ 63 ∧
    Legal (.lwait (.s 2)) (layerT 0x1000 0) false anyType [src (.s 2) 1] ∧ Legal (.ldone (.s 2)) (layerT 0x1000 0) false anyType [src (.s 2) 1] ∧
    Legal (.lstat (.s 5) (.s 2)) (layerT 0x1000 0) true anyType [dst (.s 5) 1, src (.s 2) 1] ∧ (∀ ops m, Unpoisoned (layerT 0x1000 0) ops m) ∧
    ((layerOf (layerS 0x1000 0) (layerT 0x1000 0) 0x1000).map (fun x => x.2.2.state) = some 0 ∧ (tblGet (layerT 0x1000 0).pins 0x1000).getD 0 = 0 ∧
      (layerT 0x1000 0).pins.length < 16 ∧ ((tblGet (layerS 0x1000 0).models 1).map ModelCtx.unload).getD false = false) ∧
    ((layerOf (layerS 0x1001 1) (layerT 0x1001 1) 0x1001).map (fun x => x.2.2.state) = some 2 ∧ (tblGet (layerT 0x1001 1).pins 0x1001).getD 0 = 1) ∧
    ((tblGet (layerT 0x1001 254).pins 0x1001).getD 0 = 254 ∧ 254 < 255 ∧ 1 < 254) ∧
    ((layerOf (layerS 0x1002 0) (layerT 0x1002 0) 0x1002).map (fun x => x.2.2.state) = some 4) ∧
    (∀ k ∈ [UnitOp.lwait, .ldone, .lstat], (unitGate (layerS 0x1001 1) (flagOp k)).isSome = true ∧
      unitGate { layerS 0x1001 1 with unitWait := [flagOp .replay] } (flagOp k) = none) ∧
    AcquirePasses (layerS 0x1001 1) 0 (layerT 0x1001 1) (acquireTeam ((drainReturning (layerS 0x1001 1) 0 (layerT 0x1001 1).cfg).updTeam 0 surfacePoison) (layerT 0x1001 1).cfg) := by
  refine ⟨fun _ _ => ⟨rfl, rfl, rfl, rfl, rfl⟩, ?_, ?_, ?_, ?_, legal_of ?_, legal_of ?_, legal_of ?_, clean _ rfl, ?_, ?_, ?_, ?_, ?_,
    acquire_of ?_⟩ <;> decide +kernel


/-! ### Steps without an instruction word -/

/-- A team at a header of page 3 whose clause is one NOP; its permit is free. -/
def startT : Team := { team0 with clause := none, pc := 0x30000 }
def startS : State := paged startT 0x200000 (bytesOf 4 0xFE0000FF ++ bytesOf 4 0 ++ bytesOf 4 0xFE0000FF)

/-- A late operation that is ready, and one that builds the table of ring slot 0. -/
def lateOf (id : Nat) (build : Option Nat) : LateOp :=
  { id := id, flag := 1, lane := 0, atomic := false, near := false, wait := .none, vwrites := [], swrites := [], mask := none, fpst := 0, came := 0, poisoned := [], peers := [], build := build, hbind := none, pop := none }
def lateT : Team := raiseFlag (raiseFlag { team0 with late := [lateOf 4 none, lateOf 5 (some 0)], rings := [some { exampleRing with building := true }] } 1) 1

theorem witness_ClausesBeginAndResultsArrive :
    startS.trust.halted = false ∧ tblGet startS.teams 0 = some startT ∧ startT.wait = .none ∧ startT.saved = false ∧ startT.active = true ∧
    (chosen startS 0 startT = true ∧ arrives startT = false ∧ team0.clause.isSome = true ∧ team0.active = true ∧ chosen (mach team0) 0 team0 = true) ∧
    (startT.clause = none ∧ (codeWord startS startT.cfg startT.pc).1 = .ok 0xFE0000FF ∧ isHeader 0xFE0000FF = true ∧ waitClear startT (hdrWait 0xFE0000FF) = true ∧
      startT.integrity = [] ∧ openingWaits (codeWord startS startT.cfg startT.pc).2 startT = false ∧
      (match (fetchClause (codeWord startS startT.cfg startT.pc).2 startT.cfg startT.pc).1 with
       | .ok c mem => decide (mem = false) && decide (c.words = [0])
       | _ => false) = true) ∧
    (lateT.late.find? (fun x => decide (x.id = 4)) = some (lateOf 4 none) ∧ lateReady lateT (lateOf 4 none) = true) ∧
    (lateT.late.find? (fun x => decide (x.id = 5)) = some (lateOf 5 (some 0)) ∧ (lateOf 5 (some 0)).build = some 0 ∧
      (∀ x ∈ lateT.late, x.build = some 0 → x.id = 5)) ∧
    ({ team0 with pendTrap := some (trapOf .align 1) } : Team).pendTrap = some (trapOf .align 1) ∧ Quiet (mach team0) 0 { team0 with pendTrap := some (trapOf .align 1) } := by
  refine ⟨?_, ?_, rfl, rfl, rfl, ?_, ?_, ?_, ?_, rfl, quiet_of ?_⟩ <;> decide +kernel

/-- R176: v5 of lanes 0 and 1 under a late load; lane 0's value arrives, both lanes are written, lane 1's value arrives. -/
def apartO : LateOp := { lateOf 4 none with vwrites := [(0, 5, 7), (1, 5, 8)] }
def apartS : State := (mach (raiseFlag { team0 with late := [apartO] } 1))
def apartT (s : State) : Option (Word × Word × Nat) := (tblGet s.teams 0).map (fun t => (regOf t 0 (.v 5), regOf t 1 (.v 5), t.late.length))
theorem test_lanes_arrive_apart :
    apartT (next (.lateResult 0 (.lanes 4 1)) apartS) = some (7, 0, 1) ∧
    apartT (next (.lateResult 0 (.all 4)) ((next (.lateResult 0 (.lanes 4 1)) apartS).updTeam 0 (fun t =>
      writeWord (writeWord t 0 (.v 5) 1) 1 (.v 5) 2))) = some (1, 8, 0) ∧
    (apartO.mask = none ∧ ∀ w ∈ apartO.vwrites, w.2.1 < 192) := by decide +kernel

/-- A launch to place on an empty machine; eight full cores of a cluster whose neighbours another launch has claimed, and a launch of higher priority. -/
def placeS : State := { State.reset with launches := [(9, { bareLaunch with entry := 0x30000, args := 0x1234 })] }
def savedT (core : Nat) : Team := { startT with cfg := { team0.cfg with core := core, savebase := 0x50000, launch := 1 } }
def fullS : State :=
  { State.reset with
    teams := (List.range 8).map (fun k => (k, savedT k)),
    launches := [(1, { bareLaunch with placed := 1 }), (2, { bareLaunch with placed := 1, fuse := true, clusters := (List.range 63).map (fun k => k + 1) }),
                 (3, { bareLaunch with prio := 9 })] }

theorem witness_TeamsArePlacedSavedAndRetired :
    placeS.trust.halted = false ∧
    (launchOrder placeS).findSome? (fun l => (placeFor placeS l.1 l.2).map (fun p => (l.1, p))) = some (9, 0, 0, { bareLaunch with entry := 0x30000, args := 0x1234 }) ∧
    (({ team0 with wait := .retiring } : Team).wait = .retiring ∧ Quiet (mach team0) 0 { team0 with wait := .retiring } ∧
      (∀ c ∈ teamCores team0.cfg, ∀ e ∈ ((mach team0).core c).out, e.team ≠ 0)) ∧
    (({ team0 with halt := some (1, 0, 0, 0x1000) } : Team).halt = some (1, 0, 0, 0x1000) ∧
      (tblGet (drainTeam { mach team0 with launches := [(0, bareLaunch)] } 0 team0.cfg).launches 0).isSome = true) ∧
    (tblGet fullS.teams 0 = some (savedT 0) ∧ savePoint (savedT 0) = true ∧ (wantedSaves fullS).contains 0 = true ∧ fullS.waiting = [] ∧ Quiet fullS 0 (savedT 0) ∧
      (fullS.core 0).sequencer = [] ∧ allocationRead fullS 0 (savedT 0) = false) ∧
    (canReturn (mach { savedT 0 with saved := true }) { savedT 0 with saved := true } = true ∧ (savedT 0).late = [] ∧ (savedT 0).wait = .none) := by
  refine ⟨rfl, ?_, ⟨rfl, quiet_of (by decide +kernel), by decide +kernel⟩, ?_,
    ⟨by decide +kernel, by decide +kernel, by decide +kernel, rfl, quiet_of (by decide +kernel), by decide +kernel, by decide +kernel⟩,
    ?_⟩ <;> decide +kernel

/-- An OPEN record of cluster 0 for a read of a page that is mapped by now, and one for a read of a page that nothing maps, in a context whose host takes its
faults. -/
def recordOfPage (page : Nat) : FaultRec :=
  { pages := BitVec.ofNat 64 (2 ^ page), block := 0, ctx := 0, kinds := 1, cause := 0, state := 1, accs := [accessOf (65536 * page) needR], handled := none,
    marks := [], notice := false }
def recordS (r : FaultRec) : State :=
  { paged team0 0x200000 [] with
    ctxs := [(0, { root := 0x10000, endpoint := 1, hostFault := true })], clusters := [(0, { Cluster.reset with recs := Cluster.reset.recs.set 0 r })] }
/-- The machine with a demand range at page 8, with the frames of its pool; and with a trap record area of context 0. -/
def rangeS (free : Tbl Nat) : State :=
  { paged team0 0x200000 [] with demand := [(0, { base := 0x80000, len := 65536, policy := 1, r := true, w := true })], demandGiven := free, demandFree := free }
def areaS : State := { paged team0 0x200000 [] with areas := [(2, { launch := 0, ctx := 0, record := none })] }

theorem witness_AccessesAreWalkedAgain :
    (isRecordVa (32768 * (recordBase 2 / 32768)) = true ∧ (∃ x ∈ areaS.areas, x.2.ctx = 0 ∧ recordBase x.1 / 32768 = recordBase 2 / 32768) ∧
      ∀ x ∈ areaS.areas, x.2.ctx = 0 → recordBase x.1 / 32768 ≠ recordBase 3 / 32768) ∧
    (∀ n ∈ [needR, needW], let a := accessOf 0x70000 n
      isRecordVa (32768 * a.half) = false ∧ (match (walk areaS 0 0x70000).1 with
        | .leaf e _ _ => decide (bits e 2 2 = 1) && decide (bits e 3 3 = 0)
        | _ => false) = true) ∧
    (∀ s ∈ [areaS, rangeS [], rangeS [(0x20, 4)]], (walk s 0 0x80000).1 = .notPresent) ∧
    demandOf (walk areaS 0 0x80000).2 0 0x80000 = none ∧ (demandOf (walk (rangeS []) 0 0x80000).2 0 0x80000).isSome = true ∧
    (mapDemand (walk (rangeS []) 0 0x80000).2 0 0x80000 { base := 0x80000, len := 65536, policy := 1, r := true, w := true }).isNone = true ∧
    (mapDemand (walk (rangeS [(0x20, 4)]) 0 0x80000).2 0 0x80000 { base := 0x80000, len := 65536, policy := 1, r := true, w := true }).isSome = true := by
  decide +kernel

theorem witness_FaultRecordsAreResolvedAndConsumed :
    (∀ p ∈ [3, 8], (recordS (recordOfPage p)).trust.halted = false ∧ ((recordS (recordOfPage p)).cluster 0).recs[0]? = some (recordOfPage p)) ∧
    ((resolveAll 0 (recordAccesses (recordOfPage 3)) (recordS (recordOfPage 3))).1 = ([], false) ∧
      ((resolveAll 0 (recordAccesses (recordOfPage 3)) (recordS (recordOfPage 3))).2.cluster 0).recs[0]? = some (recordOfPage 3)) ∧
    ((resolveAll 0 (recordAccesses (recordOfPage 8)) (recordS (recordOfPage 8))).1 = ([(accessOf 0x80000 needR, .invalidAddr)], false) ∧ isRecordVa 0x80000 = false ∧
      (tblGet (resolveAll 0 (recordAccesses (recordOfPage 8)) (recordS (recordOfPage 8))).2.ctxs 0).map CtxBinding.hostFault = some true) ∧
    (let s : State := { rangeS [] with clusters := (recordS (recordOfPage 8)).clusters }
     (resolveAll 0 (recordAccesses (recordOfPage 8)) s).1.2 = true ∧ ((resolveAll 0 (recordAccesses (recordOfPage 8)) s).2.cluster 0).recs[0]?.isSome = true) ∧
    ((8 : BitVec 64) ≠ ({ recordOfPage 3 with handled := some 8, pages := 9 } : FaultRec).pages ∧ (8 : BitVec 64) = (recordOfPage 3).pages) ∧
    0 ≠ sconceUnit ∧ NoneParked (recordS (recordOfPage 3)) ∧ (recordS (recordOfPage 3)).cards = [] ∧ (recordS (recordOfPage 3)).rings = [] ∧
    (recordS (recordOfPage 3)).queues = [] ∧ (recordS (recordOfPage 3)).waiting = [] := by
  refine ⟨by decide +kernel, by decide +kernel, by decide +kernel, by decide +kernel, by decide +kernel, by decide +kernel, ?_, rfl, rfl, rfl, rfl⟩
  intro ut h
  have e : ut = (0, team0) := List.mem_singleton.mp h
  subst e
  rfl

/-- An access that lacks only W, at a page that was mapped without it: the record's service marks it, beside a read of the page that it grants (R70). -/
theorem test_record_marks_by_access :
    (resolveAll 0 [accessOf 0x70000 needAccum, accessOf 0x70000 needMatrix, accessOf 0x80000 needR] areaS).1 =
      ([(accessOf 0x70000 needAccum, .permission), (accessOf 0x80000 needR, .invalidAddr)], false) := by decide +kernel

/-- Core 0 with a registration, a store and an atomic on their way home, an acknowledgment, and the line they belong to. -/
def outLine : L1Line :=
  { vline := 0x600, ctx := 0, pline := 0x4000, r := true, w := true, policy := .coherent, valid := 0xF, dirty := 0xF, owned := 0, data := 0x04030201, layer := none,
    bad := 0, team := 0 }
def atomOne : AtomLane := { slot := 0, pa := 0x200100, va := 0x30100, y := 3, cmp := 0 }
def batchOne : Batch := { op := 0xA0, ty := 0, size := 4, dst := .zero, regs := 1, late := none, peer := false, lanes := [atomOne] }
def outS : State :=
  { State.reset with own := [(0x80000, 0)] }.updCore 0 (fun c => { c with
    l1 := [outLine], acks := [{ team := 0, word := 0x80000 }],
    out := [{ team := 0, instr := 0, slot := 0, va := 0x30000, work := .registration 0x80000 15, counted := false },
            { team := 0, instr := 1, slot := 0, va := 0x40000, work := .homeWrite 0x210000 [1, 2], counted := false },
            { team := 0, instr := 2, slot := 0, va := 0x30100, work := .batch batchOne, counted := false }] })

theorem witness_WorkReachesItsHome :
    outS.trust.halted = false ∧ (∀ ix ∈ [0, 1, 2], firstOfLine outS 0 ix = true) ∧ outS.poison = [] ∧ linePoisoned outS (0x80000 / 32) = false ∧ unitObject outS (4 * 0x80000) = none ∧
    (outS.core 0).out[0]?.map OutEntry.work = some (.registration 0x80000 15) ∧ (outS.core 0).out[1]?.map OutEntry.work = some (.homeWrite 0x210000 [1, 2]) ∧
    (outS.core 0).out[2]?.map OutEntry.work = some (.batch batchOne) ∧ batchOne.peer = false ∧ batchOne.lanes = [atomOne] ∧ PlainBytes outS 0x210000 2 ∧
    PlainBytes outS 0x200100 4 ∧
    ((outS.core 0).acks[0]? = some { team := 0, word := 0x80000 } ∧ tblGet outS.own 0x80000 = some 0 ∧ l1ByPline (outS.core 0) (0x80000 / 32) = some (0, outLine)) ∧
    (outS.core 0).l1[0]? = some outLine := by
  refine ⟨rfl, ?_, rfl, ?_, ?_, ?_, ?_, ?_, rfl, rfl, fun k hk => (show ∀ k, k < 2 → unitObject outS (0x210000 + k) = none by decide +kernel) k hk,
    fun k hk => (show ∀ k, k < 4 → unitObject outS (0x200100 + k) = none by decide +kernel) k hk, ?_⟩ <;> decide +kernel

/-- Slices with a window of one size and another; a cluster whose unit invalidates; a slice at which a JOIN waits. -/
def sliceS (ways : Nat) (busy : Bool) : State := { State.reset with slices := [(255, { Slice.reset with ways := ways, busy := busy })] }
def waitOf (k : UnitOp) (pa : Nat) : UnitWait := { table := if k = .ldone ∨ k = .lstat then .flag else .cohort, op := k, who := 0, pa := pa, id := 0 }
def waitS (k : UnitOp) (pa : Nat) : State := { layerS 0x1001 1 with models := [(1, { modelOf [layerOfState 2 1] with flagsPa := [0x200800] })], unitWait := [waitOf k pa] }

/-- A slice whose table of queues is full of queues with sleepers, and an operation on one queue more. -/
def sleepers : FeedQueue := { ctx := 0, cap := 1, base := 0, head := 0, tail := 0, requests := [(0, 0)], origins := [] }
def windowQueue (k : Nat) : Nat := windowBase 0 + 64 * k
def moreOp : UnitWait := { table := .queue, op := .feed, who := 0, pa := windowQueue 64, id := 0 }
def tableFullS : State :=
  { State.reset with
    queues := (List.range 64).map (fun k => (windowQueue k, sleepers)), unitRecs := (List.range 64).map (fun k => (UnitTable.queue, windowQueue k)),
    unitWait := [moreOp] }
def invalidS : State := { State.reset with clusters := [(63, { Cluster.reset with tinval := 3 })] }

theorem witness_SlicesTranslationsAndSoftErrors :
    (waysWritable (sliceS 0 false) 255 3 = true ∧ ((sliceS 0 false).slice 255).ways < 3) ∧ (waysWritable (sliceS 3 false) 255 0 = true ∧ 0 < ((sliceS 3 false).slice 255).ways) ∧
    waysWritable (sliceS 0 false) 256 1 = false ∧ waysWritable (sliceS 0 false) 255 4 = false ∧ waysWritable (sliceS 0 true) 255 1 = false ∧
    (((sliceS 0 true).slice 255).busy = true ∧ removedInFlight (sliceS 0 true) 255 = false) ∧
    (bits (1 : DWord).toNat 0 0 = 1 ∧ (rangeOf 1).scope ≠ 3 ∧ (∀ cl, cl < 65 → bits (State.reset.cluster cl).tinval.toNat 1 1 = 0)) ∧
    (bits (invalidS.cluster 63).tinval.toNat 1 1 = 1 ∧ translatedInFlight invalidS 63 = false) ∧
    (∀ k ∈ [UnitOp.join, .leave], (waitS k 0x200000).unitWait = [waitOf k 0x200000] ∧ (unitGate (waitS k 0x200000) (waitOf k 0x200000)).isSome = true) ∧
    (∀ k ∈ [UnitOp.ldone, .lstat], (waitS k 0x200800).unitWait = [waitOf k 0x200800] ∧
      ((unitGate (waitS k 0x200800) (waitOf k 0x200800)).bind (fun s1 => flagAt s1 0x200800)).isSome = true) ∧
    (tableFullS.unitWait = [moreOp] ∧ unitGate tableFullS moreOp = none) ∧
    (isDram (placePa (.dram 3 127 805306367)) = true ∧ isWindowPa (placePa (.window 255 0xBFFFFF)) = true ∧ isDram 0 = true) ∧
    (tblGet (mach team0).teams 0 = some team0 ∧ 31 < team0.cfg.capacity ∧ 191 < team0.cfg.budget ∧ 192 * 31 + 191 ∉ team0.poisonV ∧ team0.wait ≠ .halting) ∧
    (511 < 512 ∧ 196607 < 196608 ∧ 196607 ∉ (State.reset.core 511).poisonScratch) := by decide +kernel

/-- The entries that a walk of page 3, 7 or 8 meets: three tables, and a leaf, one without W, or nothing. -/
theorem witness_PagesAreWalked : ∀ va ∈ [0x30000, 0x70000, 0x80000],
    let s := paged team0 0x200000 []
    let r (p : Nat) : Nat := (homeRead s p 8).1
    (∃ b, tblGet s.ctxs 0 = some b ∧ b.root = 0x10000) ∧ va < 2 ^ 52 ∧ isRecordVa va = false ∧ (s.cluster 0).tlb.find? (entryFor 0 va) = none ∧
    (homeRead s 0x10000 8).2 = s ∧ isDram 0x10000 = true ∧ TableEntry (r 0x10000) 0 ∧ TableEntry (r 0x10000) 1 ∧ TableEntry (r 0x10000) 2 ∧
    512 * bits (r 0x10000) 47 9 = 0x10000 ∧ bits va 51 22 = 0 ∧ isDram (0x10000 + 8 * bits va 21 16) = true ∧
    (let e := r (0x10000 + 8 * bits va 21 16)
     (va = 0x80000 → e % 2 = 0) ∧ (va ≠ 0x80000 → PageLeaf e ∧ isDram (65536 * bits e 47 16 + va % 65536) = true) ∧ (va = 0x70000 → bits e 3 3 = 0) ∧
     (va = 0x30000 → bits e 2 2 = 1 ∧ bits e 3 3 = 1)) := by
  unfold TableEntry PageLeaf
  simp only [List.forall_mem_cons]
  refine ⟨?_, ?_, ?_, by simp⟩ <;> exact ⟨⟨_, rfl, rfl⟩, by decide +kernel⟩

theorem witness_PagesAreWalkedPlain : PlainBytes (paged team0 0x200000 []) 0x10018 8 := fun k hk =>
  (show ∀ k, k < 8 → unitObject (paged team0 0x200000 []) (0x10018 + k) = none by decide +kernel) k hk

/-- The card of spec R83 accepted and started; an MLOOP in the queue; a flush that merges, one that was marked, one that read poison. -/
def cardOf (started : Bool) (b : BitVec 2048) : Card :=
  { id := 4, bits := b, ctx := 0, core := 0, team := none, ring := none, ticket := 1, status := 1, started := started, pins := [], after := [], afterLoops := [],
    spbase := 0, spsize := 0, row := 0, got := [], put := 0 }
def cardsS (started : Bool) (b : BitVec 2048) : State := { paged team0 0x210000 [1, 2, 3] with cards := [cardOf started b] }
/-- Copies, fills and transposes from the scratchpad window at 0 to the window at 1,024, two rows of 512 bytes each (PLANE_T: a tile of 4 planes), with a completion
word at 4,096 of it; a card whose source no page maps. -/
def padBits (kind src : Nat) : BitVec 2048 := BitVec.ofNat 2048 (natOfBytes (bytesOf 8 (if kind = 2 then 0x302 else kind) ++ bytesOf 8 src ++
  bytesOf 8 0xFF00000000400 ++ bytesOf 8 (if kind = 1 then 0x0807060504030201 else 0) ++ bytesOf 4 512 ++ bytesOf 4 2 ++ bytesOf 4 1 ++ bytesOf 4 0 ++
  bytesOf 8 512 ++ bytesOf 8 0 ++ bytesOf 8 512 ++ bytesOf 8 0 ++ bytesOf 8 0xFF00000001000 ++ bytesOf 8 9))
def lostBits : BitVec 2048 := padBits 0 0x80000

def loopS : State := matrixS.updCore 0 (fun c => { c with sequencer := [{ matrixL with frames := [(3, 0x20), (4, 0x21)], accPa := 0x230000, hdrPa := 0x232000 }] })
def flushOf (mismatch poisoned : Bool) : Flush :=
  { loop := { matrixL with accPa := 0x230000, hdrPa := 0x232000 }, sums := List.replicate 1024 1, ea0 := 1, ea1 := 1, eb0 := 2, eb1 := 2, mismatch := mismatch,
    poisoned := poisoned, last := true }
def flushS (mismatch poisoned : Bool) : State := matrixS.updCore 0 (fun c => { c with flushes := [flushOf mismatch poisoned] })

theorem witness_CardsAndFlushesRun :
    (cardsS false cardBits).trust.halted = false ∧
    ((cardsS false cardBits).cards.find? (fun d => decide (d.id = 4)) = some (cardOf false cardBits) ∧ cardReady (cardsS false cardBits) (cardOf false cardBits) = true ∧
      (footLayers (cardsS false cardBits) 0 ((cardPlaces (cardOf false cardBits)).1 ++ (cardPlaces (cardOf false cardBits)).2)).all
        (fun l => decide (layerState (cardsS false cardBits) l.1 l.2 = some 2)) = true) ∧
    ((cardOf true cardBits).started = true ∧ (cardOf true cardBits).status = 1 ∧
      (match (runCard (cardsS true cardBits) (cardOf true cardBits)).1 with
       | .ok _ => true
       | _ => false) = true ∧ (runCard (cardsS true lostBits) (cardOf true lostBits)).1 = .fault (accessOf 0x80000 needR)) ∧
    (∀ k ∈ [0, 1, 2], let b := padBits k (if k = 1 then 0 else 0xFF00000000000)
      cardKind b = k ∧ (cardsS true b).rings = [] ∧ ((cardsS true b).core 0).poisonScratch = [] ∧ cardComp b = 0xFF00000000000 + 4096 ∧
      (∀ q ∈ cardRows b, (k ≠ 1 → cardSrcRow b q.1 q.2 = 0xFF00000000000 + 512 * q.1) ∧ cardDstRow b q.1 q.2 = 0xFF00000000000 + (1024 + 512 * q.1)) ∧
      (k = 2 → 512 = cardWidth b * (cardEdge b * cardEdge b / 8))) ∧
    (match (runCard { cardsS true cardBits with poison := [0x4200] } (cardOf true cardBits)).1 with
     | .bad => true
     | _ => false) = true ∧
    (nextLoop loopS (loopS.core 0).sequencer []).isSome = true ∧
    (∀ m p, ((flushS m p).core 0).flushes = [flushOf m p]) ∧
    ((flushOf false true).poisoned = true) ∧
    ((flushOf true false).mismatch = true ∧ poisonedRange ((flushS true false).updCore 0 (fun x => { x with flushes := [] })) 0x230000 8192 = false ∧
      poisonedRange ((flushS true false).updCore 0 (fun x => { x with flushes := [] })) 0x232000 8 = false) ∧
    ((flushOf false false).mismatch = false ∧ ¬ (homeRead ((flushS false false).updCore 0 (fun x => { x with flushes := [] })) 0x232000 8).1 % 2 = 1) := by
  refine ⟨rfl, ?_, ?_, ?_, ?_, ?_, by
    intro m p
    cases m <;> cases p <;> decide +kernel, rfl, ?_⟩ <;> decide +kernel

/-- Blocks of width 2 whose one set bit is the first of every plane but the second of A: an element 1, an element −1; in the frames of an MLOOP and in its
allocation. -/
def blockA : List Byte := [1] ++ List.replicate 255 0 ++ [5] ++ List.replicate 15 0
def blockB : List Byte := [1] ++ List.replicate 127 0 ++ [1] ++ List.replicate 127 0 ++ [6] ++ List.replicate 15 0
def blockL (loc : Nat) : MLoop :=
  { matrixL with frames := [(3, 0x20), (4, 0x21)], abase := if loc = 0 then 0x30000 else 0, bbase := if loc = 0 then 0x40000 else 512,
                 srcw := BitVec.ofNat 32 (0x24000 + 0x20 * loc + 0x400 * loc) }
def blockS : State := { matrixS with mem := Memory.writes (Memory.writes pages 0x200000 blockA) 0x210000 blockB }.updCore 0
  (fun c => { c with scratch := Memory.writes (Memory.writes c.scratch (matrixL.spbase) blockA) (matrixL.spbase + 512) blockB })
def zeroFlush (l : MLoop) : Flush :=
  { loop := l, sums := List.replicate 1024 0, ea0 := 0, ea1 := 0, eb0 := 0, eb1 := 0, mismatch := false, poisoned := false, last := true }

theorem block_of (b : Bool) (base f : Nat) (bs : List Byte) (hb : bs.length = 272) (hl : (if b then bitsAt (blockL 0).srcw.toNat 11 10 else bitsAt (blockL 0).srcw.toNat 6 5) = 0)
    (h : ∀ i, i < 272 → tblGet (blockL 0).frames ((base + i) / 65536) = some f ∧ f < 2 ^ 32 ∧ tblGet blockS.own ((65536 * f + (base + i) % 65536) / 4) = none ∧
      linePoisoned blockS ((65536 * f + (base + i) % 65536) / 128) = false ∧ unitObject blockS (65536 * f + (base + i) % 65536) = none ∧
      beyondWindow blockS (65536 * f + (base + i) % 65536) = false ∧ nthD bs i 0 = Memory.read blockS.mem (65536 * f + (base + i) % 65536) ∧
      (blockS.core (l1Core matrixT.cfg (base + i))).out = [] ∧ (blockS.core (l1Core matrixT.cfg (base + i))).acks = [])
    (ht : tblGet blockS.teams (blockL 0).team = some matrixT) : BlockAt blockS (blockL 0) b base 272 bs := by
  refine ⟨hb, .inr ⟨hl, fun i hi => ?_⟩⟩
  obtain ⟨h1, h2, h3, h4, h5, h6, h7, h8, h9⟩ := h i hi
  refine ⟨f, h1, h2, h3, h4, h5, h6, h7, fun t e => ?_⟩
  rw [ht] at e
  cases e
  rw [h8, h9]
  simp

theorem witness_BlocksAreRead :
    (∀ loc ∈ [0, 1], ((blockL loc).abase + 0 * (blockL loc).astep = ((if loc = 0 then 0x30000 else 0 : Nat) : Int) ∧
      (blockL loc).bbase + 0 * (blockL loc).bstep = ((if loc = 0 then 0x40000 else 512 : Nat) : Int)) ∧
      bitsAt (blockL loc).srcw.toNat 16 14 + 1 = 2 ∧ bitsAt (blockL loc).srcw.toNat 19 17 + 1 = 2 ∧ (zeroFlush (blockL loc)).sums.length = 1024) ∧
    BlockAt blockS (blockL 0) false 0x30000 272 blockA ∧ BlockAt blockS (blockL 0) true 0x40000 272 blockB ∧
    BlockAt blockS (blockL 1) false 0 272 blockA ∧ BlockAt blockS (blockL 1) true 512 272 blockB := by
  refine ⟨by decide +kernel, block_of _ _ 0x20 _ ?_ ?_ ?_ ?_, block_of _ _ 0x21 _ ?_ ?_ ?_ ?_, ⟨by decide +kernel, .inl ?_⟩, ⟨by decide +kernel, .inl ?_⟩⟩ <;> decide +kernel

/-- R154, R155: 1 times −1 is the one sum that is not zero; the exponents are the bytes behind the planes. -/
theorem test_mloop_step : ∀ loc ∈ [0, 1], let g := (loopStep blockS (zeroFlush (blockL loc)) 0).1
    g.sums = -1 :: List.replicate 1023 0 ∧ (g.ea0, g.ea1, g.eb0, g.eb1) = (5, 5, 6, 6) ∧ g.mismatch = false := by decide +kernel

/-- A layer of one 64 KiB frame: requested from memory with a free frame, arriving with its bytes, evicting with its frame. -/
def modelS (st : Nat) (reqs : List LayerReq) (loads : List LayerLoad) (mem : Memory) : State :=
  { State.reset with
    models := [(1, modelOf [{ layerOfState st 0 with srckind := 2, frames := if st = 3 then [0x20] else [] }])], requests := reqs, loads := loads, mem := mem,
    weightGiven := [(0x20, 4)], weightFree := [(0x20, 4)], ctxs := [(0, { root := 0x10000, endpoint := 0, hostFault := false })] }

theorem witness_LayersArriveFailAndLeave :
    (∀ st reqs loads mem, (modelS st reqs loads mem).trust.halted = false ∧ (∀ m ∈ (modelS st reqs loads mem).models, m.2.unload = false) ∧
      NoneParked (modelS st reqs loads mem) ∧ (modelS st reqs loads mem).rings = []) ∧
    (let s := modelS 1 [{ mslot := 1, layer := 0, demand := true }] [] []
     s.loads = [] ∧ nextRequest s 2 = some { mslot := 1, layer := 0, demand := true } ∧ (getLayer s 1 0).isSome = true ∧
     1 ≤ frameCount s.weightGiven ∧ 1 ≤ frameCount s.weightFree) ∧
    (let s := modelS 1 [] [{ mslot := 1, layer := 0, frames := [0x20], pieces := [], tags := [] }] []
     (getLayer s 1 0).map Layer.state = some 1 ∧ (loadOf s 1 0).isSome = true) ∧
    (let s := modelS 3 [] [] []
     (getLayer s 1 0).map Layer.state = some 3 ∧ tinvalBusy s = false) := by
  refine ⟨fun st reqs loads mem => ⟨rfl, ?_, ?_, rfl⟩, by decide +kernel, by decide +kernel, by decide +kernel⟩
  · intro m h
    have e := List.mem_singleton.mp h
    subst e
    rfl
  · intro ut h
    cases h


/-! ### Command rings, messages, the fabric -/

def hdr8 (ty len : Nat) : Nat := ty + 65536 * len

/-- Ring 0, whose RCBs and queue lie in page 3 and whose packets lie in page 4, with a capability of every OTYPE; slot 1 holds a model of two layers. -/
def anyCap (otype : Nat) : Capability := { otype := otype, perm := 15, base := 0, length := 2 ^ 52 }
def ringR (n : Nat) : CmdRing :=
  { ctx := 0, rcb := 0x30000, base := 0x41000, size := 4096, maxprio := 47, comp := 0x30040, notifyq := 0x30080, caps := (List.range 6).map anyCap, endpoint := 7,
    wptr := n, rptr := 0, seq := 0, status := 0, detail := 0, flight := [], busy := .none, entries := [], compRptr := 0, compWptr := 0, compBase := 0x32000,
    compSize := 4096 }
def boundCtx : CtxBinding := { root := 0x10000, endpoint := 7, hostFault := false }
def ringS (bs : List Byte) (more : List (Nat × List Byte)) : State :=
  { State.reset with
    rings := [(0, ringR bs.length)], ctxs := [(0, boundCtx)], trust := { Trust.reset with admitted := [7], booted := true, identityKey := true },
    models := [(1, { modelOf [layerOfState 0 0, layerOfState 4 0] with dispq := 0x30100 })],
    mem := ((0x211000, bs) :: more).foldl (fun m e => Memory.writes m e.1 e.2) pages }

/-- A packet of a TYPE is ready, and a test holds of its ring, its bytes and the state that is left. -/
def pktB (s : State) (ty : Nat) (p : CmdRing → List Byte → State → Bool) : Bool :=
  !s.trust.halted && (match (nextPacket s 0).1, tblGet (nextPacket s 0).2.rings 0 with
    | .ok bs, some r => decide (pf bs 0 1 = ty) && decide (r.flight = []) && p r bs (nextPacket s 0).2
    | _, _ => false)
theorem pkt_of {s : State} {ty : Nat} {p : CmdRing → List Byte → State → Bool} (h : pktB s ty p = true) :
    ∃ r bs s1, PacketReady s 0 ty r bs s1 ∧ p r bs s1 = true := by
  simp only [pktB, Bool.and_eq_true, Bool.not_eq_true'] at h
  obtain ⟨hh, h⟩ := h
  split at h
  · rename_i bs r hb hr
    simp only [Bool.and_eq_true, decide_eq_true_eq] at h
    exact ⟨r, bs, _, ⟨hh, pair_of hb, hr, h.1.1, fun _ => h.1.2⟩, h.2⟩
  · exact absurd h (by decide)

def plainMap (r : SRes) : Bool :=
  match r with
  | .ok m => m.peer.isNone && m.record.isNone
  | _ => false

/-- LAUNCH of one team of 32 lanes whose function header lies in page 5, with a model or without; FEED of one record; CARD. -/
def fnBytes : List Byte := bytesOf 4 0xFC030000 ++ bytesOf 4 0 ++ bytesOf 4 0xFE0000FF
def launchPkt (entry ctl : Nat) : List Byte :=
  words8 [hdr8 1 10, entry, 0, entry, 0, 0, 1 + 2 ^ 32 * 32 + 2 ^ 48 * 32, 0, 2 ^ 32 * 192 + 2 ^ 40 * 32, ctl]
def launchS (entry : Nat) : State := ringS (launchPkt entry 0x1100) [(0x220000, fnBytes)]
def feedRingS : State := ringS (words8 [hdr8 2 11, 0x30100, 1] ++ List.replicate 64 0x11) [(0x200100, queueBytes 0)]
def cardPktS (bs : List Byte) : State := ringS (words8 [hdr8 3 2, 0x30200]) [(0x200200, bs)]
/-- The card of R83's layout with KIND 3. -/
def badCard : List Byte := 3 :: cardBytes.drop 1
def busyS (b : RingBusy) : State := { feedRingS with rings := [(0, { ringR 0 with busy := b })] }
def noFlight : InFlight := { seq := 0, kind := 5, notify := true, launch := none, card := none, mslot := none }

theorem witness_PacketsStartInOrder :
    (match (nextPacket { ringS [] [] with rings := [(0, { ringR 4 with wptr := 4 })] } 0).1 with
     | .halt st _ => decide (st = haltOverrun)
     | _ => false) = true ∧
    (∃ r bs s1, PacketReady (ringS (words8 [hdr8 9 1]) []) 0 9 r bs s1 ∧ true = true) ∧
    (∃ r bs s1, PacketReady (ringS (words8 [hdr8 4 3, 0x30008, 5]) []) 0 4 r bs s1 ∧ plainMap (sconceReach s1 (some (.ring 0)) r.ctx (pf bs 8 8) needW).1 = true) ∧
    (∃ r bs s1, PacketReady (ringS (words8 [hdr8 4 3, 0x70008, 5]) []) 0 4 r bs s1 ∧ decide ((sconceReach s1 (some (.ring 0)) r.ctx (pf bs 8 8) needW).1 = .fail) = true) ∧
    (∃ r bs s1, PacketReady (ringS (words8 [hdr8 5 4, 0x30008, 5, 2]) []) 0 5 r bs s1 ∧ plainMap (sconceReach s1 (some (.ring 0)) r.ctx (pf bs 8 8) needR).1 = true) ∧
    (∃ r bs s1, PacketReady (launchS 0x50000) 0 1 r bs s1 ∧ (let h := launchHeader s1 (some (.ring 0)) r.ctx (pf bs 8 8) (pf bs 0x44 1)
      decide (h.1 = .ok) && decide (pf bs 0x18 8 ≠ 0) && decide ((launchHeader h.2 (some (.ring 0)) r.ctx (pf bs 0x18 8) (pf bs 0x44 1)).1 = .ok) &&
      decide ((launchOf 0 r bs).model = some 1) && (slotOf s1 0 1).isSome) = true) ∧
    (∃ r bs s1, PacketReady (launchS 0x50100) 0 1 r bs s1 ∧ decide ((launchHeader s1 (some (.ring 0)) r.ctx (pf bs 8 8) (pf bs 0x44 1)).1 = .bad) = true) ∧
    (∃ r bs s1, PacketReady feedRingS 0 2 r bs s1 ∧ (match sconceReach s1 (some (.ring 0)) r.ctx (pf bs 8 8) needW with
      | (.ok m, s2) => m.peer.isNone && m.record.isNone && (queueAt s2 r.ctx m.pa).1.isSome
      | _ => false) = true) ∧
    (∀ cs ∈ [cardBytes, badCard], ∃ r bs s1, PacketReady (cardPktS cs) 0 3 r bs s1 ∧ decide ((sconceRead s1 (some (.ring 0)) r.ctx (pf bs 8 8) 256).1 = .ok cs) = true) ∧
    (let win : Nat → Nat → Win := fun va _ => if isWindowVa va then .out else .no
     CardGood win (BitVec.ofNat 2048 (natOfBytes cardBytes)) ∧ ¬ CardGood win (BitVec.ofNat 2048 (natOfBytes badCard))) ∧
    (let s := busyS (.wait noFlight 0x30008 (.home 0x200008) 0 2)
     (pollWord s (.home 0x200008)).1 = some 0 ∧ (pollWord { s with poison := [0x4000] } (.home 0x200008)).1 = none ∧ beyondWindow s 0x200008 = false ∧
     condHolds 2 0 0 = true ∧ condHolds 1 0 0 = false) ∧
    (let e : UnitWait := { table := .queue, op := .feed, who := 0, pa := 0x200100, id := 0 }
     let s := busyS (.feed noFlight 0x200100 [[1]])
     unitGate { s with unitWait := [{ e with who := 1, op := .join }] } e = none ∧
     (match (unitGate s e).map (fun s0 => queueAt s0 0 0x200100) with
      | some (some x, s1) => (match (appendRecord s1 (some (.ring 0)) sconceCore none 0x200100 x [1]).1 with
        | .done _ => true
        | _ => false)
      | _ => false) = true) ∧
    ((match (popRecord (ringS [] [(0x200080, queueBytes 1), (0x210000, bytesOf 8 0x30000)]) (some (.ring 0)) 0 0x30080).1 with
      | .ok bs _ => decide (pf bs 0 8 = 0x30000)
      | _ => false) = true) ∧
    (∀ p ∈ [0, 8], (match (sconceRead { ringS [] [(0x200058, bytesOf 8 p)] with rings := [(0, { ringR 0 with entries := [[]] })] } (some (.ring 0)) 0 (0x30040 + 0x18) 8).1 with
      | .ok bs => decide (natOfBytes bs = p)
      | _ => false) = true) := by
  refine ⟨?_, pkt_of (p := fun _ _ _ => true) ?_, pkt_of ?_, pkt_of ?_, pkt_of ?_, pkt_of ?_, pkt_of ?_, pkt_of ?_,
    fun cs h => by rcases List.mem_cons.mp h with rfl | h <;> [skip; rcases List.mem_singleton.mp h with rfl] <;> exact pkt_of (by decide +kernel),
    ⟨card_good _ rfl rfl, by rw [show BitVec.ofNat 2048 (natOfBytes badCard) = cardBits ||| 3 by decide +kernel]; exact card_bad _⟩, ?_⟩ <;> decide +kernel

/-- MODEL_LOAD of a descriptor of one layer into a free slot and a slot in use, UNLOAD, MODEL_PRIO and LAYER_PREFETCH of slot 1 and of a free slot. -/
def descBytes : List Byte :=
  bytesOf 4 0x4D430001 ++ bytesOf 2 1 ++ bytesOf 2 0x102 ++ bytesOf 8 0x30700 ++ bytesOf 8 0x30800 ++ List.replicate 7 0 ++ [15] ++ List.replicate 32 0
def loadMem : List (Nat × List Byte) := [(0x200600, descBytes), (0x200700, bytesOf 8 0x100000 ++ bytesOf 8 65536 ++ List.replicate 16 0)]
def loadPkt (slot : Nat) : State := ringS (words8 [hdr8 6 3, 0x30600, slot]) loadMem
def prioPkt (w : Nat) : State := ringS (words8 [hdr8 7 2, w]) []
def fetchPkt (w : Nat) : State := ringS (words8 [hdr8 8 2, w]) []

theorem witness_ModelPacketsActOnTheirSlot :
    (∃ r bs s1, PacketReady (loadPkt 1) 0 6 r bs s1 ∧ (!isUnload bs && (tblGet s1.models (bits (pf bs 0x10 8) 3 0)).isSome) = true) ∧
    (∃ r bs s1, PacketReady (loadPkt 2) 0 6 r bs s1 ∧ (!isUnload bs && (tblGet s1.models (bits (pf bs 0x10 8) 3 0)).isNone &&
      (match sconceRead s1 (some (.ring 0)) r.ctx (pf bs 8 8) 64 with
       | (.ok d, s2) => modelDescOk r d && decide (pf d 0x20 8 % 64 = 0) && capFor r otMemory (permRead + permWrite) (pf d 8 8) 32 &&
         capFor r otMemory (permRead + permWrite) (pf d 0x10 8) 8 && decide (pf d 4 2 = 1) &&
         (match sconceRead s2 (some (.ring 0)) r.ctx (pf d 8 8) 32 with
          | (.ok tb, s3) => (layerTable 1 tb).isSome && (match (flagAddrs (some (.ring 0)) r.ctx (pf d 0x10 8) (List.range 1) s3).1 with
            | .ok fs => decide (fs = [0x200800])
            | _ => false)
          | _ => false)
       | _ => false)) = true) ∧
    (∀ slot ∈ [1, 2], ∃ r bs s1, PacketReady (loadPkt (256 + slot)) 0 6 r bs s1 ∧
      (isUnload bs && ((slotOf s1 0 (bits (pf bs 0x10 8) 3 0)).isSome == decide (slot = 1))) = true) ∧
    (∀ slot ∈ [1, 2], ∃ r bs s1, PacketReady (prioPkt (slot + 256 * 47 + 0x1F0000 - 0xD0000)) 0 7 r bs s1 ∧
      ((slotOf s1 0 (bits (pf bs 8 8) 3 0)).isSome == decide (slot = 1)) = true) ∧
    (∀ n ∈ [2, 3], ∃ r bs s1, PacketReady (fetchPkt (1 + 2 ^ 28 * n + 2 ^ 40)) 0 8 r bs s1 ∧
      (match slotOf s1 0 1 with
       | some m => decide (bits (pf bs 8 8) 27 16 + bits (pf bs 8 8) 39 28 ≤ m.layers.length) == decide (n = 2)
       | none => false) = true) := by
  refine ⟨pkt_of ?_, pkt_of ?_,
    fun slot h => by rcases List.mem_cons.mp h with rfl | h <;> [skip; rcases List.mem_singleton.mp h with rfl] <;> exact pkt_of (by decide +kernel),
    fun slot h => by rcases List.mem_cons.mp h with rfl | h <;> [skip; rcases List.mem_singleton.mp h with rfl] <;> exact pkt_of (by decide +kernel),
    fun slot h => by rcases List.mem_cons.mp h with rfl | h <;> [skip; rcases List.mem_singleton.mp h with rfl] <;> exact pkt_of (by decide +kernel)⟩ <;> decide +kernel


/-- A message of endpoint 7 on a ROD stream, at the head of the inbox. -/
def msgOf (op sub addr : Nat) (payload : List Byte) : UrfelMsg :=
  { sender := 7, rod := true, op := op, sub := sub, ctx := 0, tag := 1, status := 0, length := payload.length, addr := addr, payload := payload }
def readMsg (addr n : Nat) : UrfelMsg := { msgOf 3 0 addr [] with length := n }
def msgS (m : UrfelMsg) : State := { ringS [] [] with inbox := [m] }
def admB (s : State) (m : UrfelMsg) : Bool := s.trust.admitted.contains m.sender && (!needsCtx m || ctxBound s m)
theorem adm_of {s : State} {m : UrfelMsg} (h : admB s m = true) : Admitted s m := by
  simp only [admB, Bool.and_eq_true, Bool.or_eq_true, Bool.not_eq_true'] at h
  exact ⟨h.1, fun n => by simpa [n] using h.2⟩
theorem notAdm_of {s : State} {m : UrfelMsg} (h : admB s m = false) : ¬ Admitted s m := by
  intro a
  have b : admB s m = true := by
    simp only [admB, Bool.and_eq_true, Bool.or_eq_true, Bool.not_eq_true']
    refine ⟨a.1, ?_⟩
    cases n : needsCtx m
    · exact .inl rfl
    · exact .inr (a.2 n)
  rw [h] at b
  cases b

/-- Messages of each kind that is subject to admission. -/
def kindMsgs : List UrfelMsg :=
  [msgOf 1 0 0x30000 [], msgOf 2 0 0x30000 [], msgOf 3 0 0x30000 [], msgOf 6 0 0 [], msgOf 0 0 0 []] ++ (List.range 15).map (fun k => msgOf 5 (k + 1) 0 [])

/-- A layer of slot 1 that loads from the host, with piece 5 outstanding under tag 1. -/
def hostLoadS (m : UrfelMsg) : State := { msgS m with loads := [{ mslot := 1, layer := 0, frames := [0x30], pieces := [], tags := [(1, 5)] }] }

theorem witness_MessagesAreAnswered :
    (∀ m, AtHead (msgS m) m []) ∧
    ((messageKinds.zip kindMsgs).all (fun x => x.1.2 x.2) = true ∧ messageKinds.length = kindMsgs.length ∧
      (∀ m ∈ kindMsgs, ¬ Admitted (msgS { m with sender := 8 }) { m with sender := 8 } ∧
        Admitted (msgS { m with length := 8193 }) { m with length := 8193 } ∧ headerBad { m with length := 8193 } = true)) ∧
    (∀ e ∈ manageTable, Admitted (msgS (msgOf 5 e.2.1 1 [1])) (msgOf 5 e.2.1 1 [1]) ∧ headerBad (msgOf 5 e.2.1 1 [1]) = false ∧
      isManage e.2.1 (msgOf 5 e.2.1 1 [1]) = true ∧ (msgOf 5 e.2.1 1 [1]).length ≠ e.2.2.1) ∧
    (Admitted (msgS (msgOf 7 0 0 [])) (msgOf 7 0 0 []) ∧ headerBad (msgOf 7 0 0 []) = false ∧ isReservedMsg (msgOf 7 0 0 []) = true) ∧
    (Admitted (msgS (msgOf 2 0 0 [1])) (msgOf 2 0 0 [1]) ∧ headerBad (msgOf 2 0 0 [1]) = false ∧ headerBad (readMsg 0 8192) = false ∧
      plainMap (sconceCheck (msgS (msgOf 2 0 0x3FFFF [1])) (some (.msg (msgOf 2 0 0x3FFFF [1]))) 0 0x3FFFF 1 needW).1.1 = true ∧ (sconceCheck (msgS (msgOf 2 0 0x70000 [1])) (some (.msg (msgOf 2 0 0x70000 [1]))) 0 0x70000 1 needW).1.1 = .fail ∧
      (sconceCheck (msgS (msgOf 2 0 0x80000 [1])) (some (.msg (msgOf 2 0 0x80000 [1]))) 0 0x80000 1 needW).1.1 = .wait (.page (accessOf 0x80000 needW))) ∧
    ((sconceReadAs needR false (msgS (readMsg 0x30000 4)) (some (.msg (readMsg 0x30000 4))) 0 0x30000 4).1 = .ok (bytesOf 4 0) ∧ (sconceReadAs needR false (msgS (readMsg 0 4)) (some (.msg (readMsg 0 4))) 0 (2 ^ 52) 4).1 = .fail 0 ∧
      (sconceReadAs needR false (msgS (readMsg 0x80000 4)) (some (.msg (readMsg 0x80000 4))) 0 0x80000 4).1 = .wait (.page (accessOf 0x80000 needR))) ∧
    ((takePiece (hostLoadS (msgOf 6 0 0 [])) (msgOf 6 0 0 [])).1 = true ∧ (takePiece (msgS (msgOf 6 0 0 [])) (msgOf 6 0 0 [])).1 = false) ∧
    (ringAt (msgS (msgOf 1 0 0 [])) 0 0x30020 = none ∧ (ringAt (msgS (msgOf 1 0 0 [])) 0 0x30000).map Prod.fst = some 0 ∧
      appendWaits (msgS (msgOf 1 0 0x30000 (words8 [hdr8 9 1]))) (msgOf 1 0 0x30000 (words8 [hdr8 9 1])) = none ∧
      (sconceRead (msgS (msgOf 1 0 0x30000 (words8 [hdr8 9 1]))) (some (.msg (msgOf 1 0 0x30000 (words8 [hdr8 9 1])))) 0 0x30010 8).1 = .ok (bytesOf 8 0) ∧
      (checkRuns (some (.msg (msgOf 1 0 0x30000 (words8 [hdr8 9 1])))) 0 ((0x30010, 0, 8) :: ringRuns (ringR 0) 4 0 8) (msgS (msgOf 1 0 0x30000 (words8 [hdr8 9 1])))).1 = none) ∧
    (∀ n ∈ [0, 32, 64], (msgS (msgOf 4 0 0 (List.replicate n 1))).trust.booted = true ∧ (msgS (msgOf 4 0 0 (List.replicate n 1))).trust.identityKey = true ∧
      (msgOf 4 0 0 (List.replicate n 1)).payload.length = (msgOf 4 0 0 (List.replicate n 1)).length ∧ (msgOf 4 0 0 (List.replicate n 1)).length = n) :=
  ⟨fun _ => ⟨rfl, rfl, rfl⟩,
    ⟨by decide +kernel, by decide, fun m hm =>
      ⟨notAdm_of (each (l := kindMsgs) (f := fun m => !admB (msgS { m with sender := 8 }) { m with sender := 8 }) (by decide +kernel) (fun _ h => by simpa using h) m hm),
        adm_of (each (l := kindMsgs) (f := fun m => admB (msgS { m with length := 8193 }) { m with length := 8193 }) (by decide +kernel) (fun _ h => h) m hm),
        each (l := kindMsgs) (f := fun m => headerBad { m with length := 8193 }) (by decide +kernel) (fun _ h => h) m hm⟩⟩,
    fun e he =>
      ⟨adm_of (each (l := manageTable) (f := fun e => admB (msgS (msgOf 5 e.2.1 1 [1])) (msgOf 5 e.2.1 1 [1])) (by decide +kernel) (fun _ h => h) e he),
        each (l := manageTable) (f := fun e => !headerBad (msgOf 5 e.2.1 1 [1])) (by decide +kernel) (fun _ h => by simpa using h) e he,
        each (l := manageTable) (f := fun e => isManage e.2.1 (msgOf 5 e.2.1 1 [1])) (by decide +kernel) (fun _ h => h) e he,
        each (l := manageTable) (f := fun e => decide ((msgOf 5 e.2.1 1 [1]).length ≠ e.2.2.1)) (by decide +kernel) (fun _ h => of_decide_eq_true h) e he⟩,
    ⟨adm_of (by decide +kernel), by decide, by decide⟩, ⟨adm_of (by decide +kernel), by decide +kernel⟩, by decide +kernel⟩

/-- The test of ManageReady on a message that is alone in the inbox. -/
def manageB (s : State) (m : UrfelMsg) (sub len : Nat) (good : UrfelMsg → Bool) : Bool :=
  !s.trust.halted && !s.trust.bootFail && admB s m && !headerBad m && isManage sub m && decide (m.length = len) && good m
theorem manage_of {s : State} {m : UrfelMsg} {sub len : Nat} {good : UrfelMsg → Bool} (hi : s.inbox = [m]) (h : manageB s m sub len good = true) :
    ManageReady s m [] sub len good := by
  simp only [manageB, Bool.and_eq_true, Bool.not_eq_true', decide_eq_true_eq] at h
  exact ⟨⟨h.1.1.1.1.1.1, h.1.1.1.1.1.2, hi⟩, adm_of h.1.1.1.1.2, h.1.1.1.2, h.1.1.2, h.1.2, h.2⟩

def capBytes (otype : Nat) : List Byte := bytesOf 16 (2 ^ 112 * otype + 2 ^ 104 * 15 + 2 ^ 64 * (2 ^ 40 - 1))
def rcbBytes (base comp : Nat) : List Byte := words8 [base, 4096, 0, 0, comp, 0, 0, 0]
def createM : UrfelMsg := msgOf 5 1 0x30400 (capBytes 1 ++ capBytes 2)
def createS : State := { ringS [] [(0x200400, rcbBytes 0x43000 0x30440), (0x200440, rcbBytes 0x44000 0)] with inbox := [createM] }
def haltedRing : State := { msgS (msgOf 5 2 0x30000 []) with rings := [(0, { ringR 0 with status := 3 })] }

/-- A message naming team 2 of the launch of SEQ 5 on ring 0. -/
def teamMsg (sub : Nat) : UrfelMsg := msgOf 5 sub 0x30000 (bytesOf 4 5 ++ bytesOf 4 2 ++ bytesOf 8 0)
def teamS (sub savebase : Nat) (saved : Bool) : State :=
  { msgS (teamMsg sub) with
    launches := [(0, { bareLaunch with seq := 5 })],
    teams := [(0, { team0 with cfg := { team0.cfg with teamid := 2, savebase := savebase }, saved := saved, hold := saved })] }
def noticeS (m : UrfelMsg) : State :=
  { msgS m with notices := [{ cluster := 0, ix := 0, ctx := 0, block := 0, pages := 256 }], clusters := [(0, { Cluster.reset with recs := Cluster.reset.recs.set 0 (recordOfPage 8) })] }
def poolM (addr pool : Nat) : UrfelMsg := msgOf 5 4 addr (bytesOf 4 4 ++ bytesOf 4 pool)
def bindM (addr : Nat) : UrfelMsg := msgOf 5 5 addr (bytesOf 8 1)
def gateM (slot : Nat) : UrfelMsg := msgOf 5 8 0x30000 (bytesOf 1 3 ++ bytesOf 1 slot ++ bytesOf 2 1 ++ bytesOf 4 32)
def bufM (slot : Nat) : UrfelMsg := msgOf 5 9 0x30080 (bytesOf 2 4095 ++ bytesOf 1 slot ++ bytesOf 1 1 ++ bytesOf 4 2 ++ bytesOf 4 32 ++ bytesOf 4 32 ++ words8 [0x30100, 0x30140])
def windowM (ways : Nat) : UrfelMsg := msgOf 5 11 0 (bytesOf 2 254 ++ bytesOf 2 2 ++ bytesOf 4 ways)
def invalidM : UrfelMsg := msgOf 5 13 0x30000 (bytesOf 4 65535 ++ bytesOf 4 2)
def demandM (addr n : Nat) : UrfelMsg := msgOf 5 14 addr (bytesOf 8 n ++ bytesOf 8 0x3020F)
def replyM (addr act : Nat) : UrfelMsg := msgOf 5 15 addr (bytesOf 8 256 ++ bytesOf 8 act)

theorem witness_RingAndPoolMessagesTakeEffect :
    (ManageReady createS createM [] 1 createM.length (fun _ => true) ∧ createM.length % 16 = 0 ∧ 0 < createM.length ∧ createM.length ≤ 256 ∧ createM.addr % 64 = 0 ∧
      (let caps := (List.range (createM.length / 16)).map (fun i => capOf ((createM.payload.drop (16 * i)).take 16))
       let cs := caps.filterMap id
       caps.all Option.isSome && (match sconceRead { createS with inbox := [] } (some (.msg createM)) 0 0x30400 64 with
        | (.ok d, s2) => rcbOk d 0 true && decide (pf d 0x20 8 % 64 = 0) && (match sconceRead s2 (some (.msg createM)) 0 (pf d 0x20 8) 64 with
          | (.ok c, s3) => rcbOk c 0 false &&
            (cs.take 1).any (fun x => x.covers otCommand 0x30400 64 && x.covers otCommand (pf d 0 8) (pf d 8 4)) &&
            cs.any (fun x => x.covers otCompletion (pf d 0x20 8) 64 && x.covers otCompletion (pf c 0 8) (pf c 8 4)) &&
            s3.rings.all (fun k => decide (k.2.rcb ≠ 0x30400) && decide (k.2.comp ≠ 0x30400) && decide (k.2.rcb ≠ pf d 0x20 8)) &&
            decide (compWptrOf s3 (newRing createM cs d c) = 0) && decide (pf c 0x18 8 % 32 = 0)
          | _ => false)
        | _ => false) = true)) ∧
    (∀ a ∈ [0x30000, 0x30020], ManageReady (msgS (msgOf 5 2 a [])) (msgOf 5 2 a []) [] 2 0 (fun _ => true) ∧
      (ringAt (msgS (msgOf 5 2 a [])) 0 a).isSome = decide (a = 0x30000)) ∧
    (ManageReady haltedRing (msgOf 5 2 0x30000 []) [] 2 0 (fun _ => true) ∧ (ringAt haltedRing 0 0x30000).map (fun x => x.2.status) = some 3) ∧
    (∀ a ∈ [0x30000, 0x30020], ManageReady (msgS (msgOf 5 3 a [])) (msgOf 5 3 a []) [] 3 0 (fun _ => true)) ∧
    (ringAt (msgS (msgOf 5 3 0x30000 [])) 0 0x30000).map (fun x => x.2.status) = some 0 ∧
    (∀ ps ∈ [[], [(0, 0x80000, [1])]], putWaits (haltFree { msgS (msgOf 5 3 0x30000 []) with inbox := [], puts := ps } 0 haltHost) 0 0x30028 = !ps.isEmpty) ∧
    (∀ a ∈ [0x400000, 0x1800000000 - 0x40000, 0x1800000000 - 0x30000], ∀ p ∈ [0, 1], ManageReady (msgS (poolM a p)) (poolM a p) [] 4 8 poolGood ∧
      framesInDram (a / 65536) 4 = decide (a ≠ 0x1800000000 - 0x30000) ∧ msgField (poolM a p) 4 1 = p) ∧
    rangesMeet (0x40, 4) (0x43, 1) = true ∧
    (∀ a ∈ [0, 0x10000], ManageReady (msgS (bindM a)) (bindM a) [] 5 8 bindGood ∧ ctxInUse (msgS (bindM a)) 0 = true ∧
      ctxInUse { msgS (bindM a) with rings := [] } 0 = false ∧ isDram 0x10000 = true) ∧
    (∃ b, tblGet { msgS (bindM 0) with ctxs := [(0, { boundCtx with endpoint := 6 })] }.ctxs 0 = some b ∧ b.endpoint ≠ 7) ∧
    ManageReady (msgS (msgOf 5 6 4095 (List.replicate 32 0))) (msgOf 5 6 4095 (List.replicate 32 0)) [] 6 32 peerGood ∧
    ManageReady (msgS (msgOf 5 7 63 (List.replicate 16 0))) (msgOf 5 7 63 (List.replicate 16 0)) [] 7 16 exportGood := by
  refine ⟨⟨manage_of rfl (by decide +kernel), by decide, by decide, by decide, by decide, by decide +kernel⟩,
    fun a h => by rcases List.mem_cons.mp h with rfl | h <;> [skip; rcases List.mem_singleton.mp h with rfl] <;> exact ⟨manage_of rfl (by decide +kernel), by decide +kernel⟩,
    ⟨manage_of rfl (by decide +kernel), by decide +kernel⟩,
    fun a h => by rcases List.mem_cons.mp h with rfl | h <;> [skip; rcases List.mem_singleton.mp h with rfl] <;> exact manage_of rfl (by decide +kernel), by decide +kernel, by decide +kernel,
    fun a ha p hp => ⟨manage_of rfl (by revert a ha p hp; decide +kernel), by revert a ha p hp; decide +kernel⟩, ?_,
    fun a ha => ⟨manage_of rfl (by revert a ha; decide +kernel), by revert a ha; decide +kernel⟩, ⟨_, rfl, by decide⟩, manage_of rfl ?_,
    manage_of rfl ?_⟩ <;> decide +kernel

theorem witness_ManagementMessagesTakeEffect :
    (∀ k ∈ [1, 2], ManageReady (msgS (gateM k)) (gateM k) [] 8 8 gateGood ∧ gateBusy (msgS (gateM k)) 3 = false ∧
      (dispatchModel (msgS (gateM k)) k 0).isSome = decide (k = 1) ∧ (match (sconceRead (msgS (gateM k)) (some (.msg (gateM k))) 0 0x30000 64).1 with
        | .ok _ => true
        | _ => false) = true) ∧
    (∀ k ∈ [1, 2], ManageReady (msgS (bufM k)) (bufM k) [] 9 32 bufGood ∧ (dispatchModel (msgS (bufM k)) k 0).isSome = decide (k = 1)) ∧
    (∀ b ∈ [0, 0x50000], ManageReady (teamS 10 b false) (teamMsg 10) [] 10 16 saveGood ∧ (namedTeam (teamS 10 b false) (teamMsg 10)).map (fun t => t.2.cfg.savebase) = some b) ∧
    (ManageReady (msgS (teamMsg 10)) (teamMsg 10) [] 10 16 saveGood ∧ namedTeam (msgS (teamMsg 10)) (teamMsg 10) = none) ∧
    (∀ w ∈ [0, 3], ManageReady (msgS (windowM w)) (windowM w) [] 11 8 windowGood) ∧
    (∀ g ∈ [254, 255], ((msgS (windowM 0)).slice g).busy = false ∧ ((msgS (windowM 0)).slice g).ways = 0) ∧
    (∀ saved ∈ [true, false], ManageReady (teamS 12 0x50000 saved) (teamMsg 12) [] 12 16 (fun m => saveGood m && decide (msgField m 8 1 = 0)) ∧
      (namedTeam (teamS 12 0x50000 saved) (teamMsg 12)).map (fun t => (t.2.saved, t.2.hold)) = some (saved, saved)) ∧
    (ManageReady (msgS (teamMsg 12)) (teamMsg 12) [] 12 16 (fun m => saveGood m && decide (msgField m 8 1 = 0)) ∧ namedTeam (msgS (teamMsg 12)) (teamMsg 12) = none) ∧
    (ManageReady (msgS invalidM) invalidM [] 13 8 invalidateGood ∧ tinvalBusy (msgS invalidM) = false ∧
      tinvalBusy { msgS invalidM with clusters := [(63, { Cluster.reset with tinval := 3 })] } = true) ∧
    (∀ x ∈ [(2 ^ 22, 0), (2 ^ 22, 2 ^ 22), (0xFD * 2 ^ 44 - 2 ^ 22, 2 ^ 22), (0xFD * 2 ^ 44 - 2 ^ 22, 2 ^ 23)],
      ManageReady (msgS (demandM x.1 x.2)) (demandM x.1 x.2) [] 14 16 demandGood ∧ msgField (demandM x.1 x.2) 0 8 = x.2) ∧
    (∀ x ∈ [(0, 0), (0, 1), (0, 2), (2 ^ 22, 1)], ManageReady (noticeS (replyM x.1 x.2)) (replyM x.1 x.2) [] 15 16 replyGood ∧
      ((noticeS (replyM x.1 x.2)).notices.find? (fun n => decide (n.ctx = 0) && decide (n.block * 2 ^ 22 = x.1))).isSome = decide (x.1 = 0) ∧
      ((noticeS (replyM x.1 x.2)).cluster 0).recs[0]? = some (recordOfPage 8) ∧ msgField (replyM x.1 x.2) 8 1 = x.2) :=
  ⟨fun k h => ⟨manage_of rfl (by revert k h; decide +kernel), by revert k h; decide +kernel⟩,
    fun k h => ⟨manage_of rfl (by revert k h; decide +kernel), by revert k h; decide +kernel⟩,
    fun k h => ⟨manage_of rfl (by revert k h; decide +kernel), by revert k h; decide +kernel⟩,
    ⟨manage_of rfl (by decide +kernel), by decide +kernel⟩,
    fun k h => manage_of rfl (by revert k h; decide +kernel), by decide +kernel,
    fun k h => ⟨manage_of rfl (by revert k h; decide +kernel), by revert k h; decide +kernel⟩,
    ⟨manage_of rfl (by decide +kernel), by decide +kernel⟩, ⟨manage_of rfl (by decide +kernel), by decide +kernel⟩,
    fun x h => ⟨manage_of rfl (by revert x h; decide +kernel), by revert x h; decide +kernel⟩,
    fun x h => ⟨manage_of rfl (by revert x h; decide +kernel), by revert x h; decide +kernel⟩⟩


/-- A peer that reads, writes and adds in an exported page, and one that asks outside it; a load and a store that the transport abandons. -/
def peerS : State := { ringS [] [] with exports := [(63, BitVec.ofNat 128 (2 ^ 104 * 7 + 2 ^ 64 * 65536 + 0x200000))] }
def peerOps : List PeerOp := [.read 128, .write (List.replicate 128 1), .atomic 0xA0 16 2 1 0]
def peerLoadT : Team := { team0 with late := [{ lateOf 4 none with peers := [(0, 0x30000)] }] }
def peerStoreS : State :=
  State.reset.updCore 511 (fun c => { c with out := [{ team := 0, instr := 0, slot := 31, va := 0x30000, work := .peerWrite 0x30000 [1], counted := false }] })
def peerLayerS : State :=
  { modelS 1 [] [{ mslot := 1, layer := 0, frames := [0x20], pieces := [], tags := [] }] [] with models := [(1, modelOf [{ layerOfState 1 0 with srckind := 1 }])] }

theorem witness_PeersAndPorts :
    peerS.trust.halted = false ∧
    (∀ op ∈ peerOps, exported peerS { pa := 0x210000 - opBytes op, op := op } = true ∧ physical peerS (0x210000 - opBytes op) (opBytes op) = true ∧
      exported peerS { pa := 0x210001 - opBytes op, op := op } = false) ∧
    poisonedRange peerS (0x210000 - 16) 16 = false ∧
    ((loadOf (hostLoadS (msgOf 6 0 0 [])) 1 0).map (fun l => decide (l.tags ≠ [])) = some true) ∧
    ((loadOf peerLayerS 1 0).isSome = true ∧ (getLayer peerLayerS 1 0).map Layer.srckind = some 1) ∧
    (tblGet (mach peerLoadT).teams 0 = some peerLoadT ∧ { lateOf 4 none with peers := [(0, 0x30000)] } ∈ peerLoadT.late) ∧
    ((peerStoreS.core 511).out[0]?.map OutEntry.work = some (.peerWrite 0x30000 [1]) ∧ firstOfLine peerStoreS 511 0 = true) := by
  refine ⟨rfl, ?_, ?_, ?_, ?_, ⟨by decide +kernel, List.mem_singleton.mpr rfl⟩, ?_⟩ <;> decide +kernel

/-- A gate of one expert, a job record in the dispatch queue, a job of two tokens with one copy in a state, and its buffer of one slot. -/
def gateOne : Gate := { ctx := 0, mslot := 1, experts := 1, d := 32, weights := List.replicate 32 0 }
def jobBytes : List Byte := words8 [0x30A00, 0x30B00, 0x30C00, 0x30D00, 0x30E00, 9] ++ bytesOf 4 2 ++ [3, 1, 0] ++ List.replicate 9 0
def copyOf (st : Nat) (peer : Option Nat) : Copy :=
  { token := 0, expert := 0, weight := 0x3F800000, peer := peer, buf := 5, slot := 0, state := st, output := if st = 5 then List.replicate 32 1 else [] }
def jobWith (cs : List Copy) (next : Nat) (combined : List Nat) : Job := { jobOf 1 0 none jobBytes with copies := cs, next := next, combined := combined }
def bufOne (used : Bool) : ExpertBuf :=
  { ctx := 0, mslot := 1, ofmt := 0, slots := 1, d := 32, dout := 32, base := 0x50000, recordq := 0x30100, returnq := 0x30140, used := if used then [0] else [],
    requests := if used then [] else [.job 6 0], routes := if used then [(0, .job 6 0)] else [] }
def expertS (jobs : Tbl Job) (used : Bool) : State :=
  { ringS [] [(0x200100, queueBytes (if jobs = [] then 1 else 0)), (0x200140, queueBytes 1), (0x210000, if jobs = [] then jobBytes else [])] with
    gates := [(3, gateOne)], jobs := jobs, buffers := [(5, bufOne used)] }
def jobS (st : Nat) (peer : Option Nat) : State := expertS [(6, jobWith [copyOf st peer] 1 [])] (decide (st ≠ 1))

/-- The buffer with no request, for a peer's to come; its slot granted to a peer, whose payload has come or not. -/
def peerBufS : State := { expertS [(6, jobWith [] 0 [])] false with buffers := [(5, { bufOne true with used := [], routes := [] })] }
def peerHeldS (here : Bool) : State := { peerBufS with buffers := [(5, { bufOne true with routes := [(0, .peer 9 here)] })] }

theorem witness_ExpertsServeTheirTokens :
    (∀ jobs used, (expertS jobs used).trust.halted = false) ∧
    ((tblGet (expertS [] true).models 1).map (fun m => (m.unload, m.dispq)) = some (false, 0x30100) ∧
      (match popRecord (expertS [] true) (some (.dispatch 1)) 0 0x30100 with
       | (.ok bs _, s1) => decide (bs = jobBytes) && jobOk s1 1 bs && !jobOk s1 1 (jobBytes.set 0x34 4) &&
         (putOrWait s1 (.dispatch 1) 0 (pf bs 0x20 8) (bytesOf 8 (2 ^ 64 - 1))).1
       | _ => false) = true) ∧
    (let x := jobWith [] 0 []
     let s := expertS [(6, x)] true
     jobPaused s x = false ∧ jobPaused { s with teams := [(0, { team0 with saved := true })] } { x with launch := some 0 } = true ∧
     (match sconceRead s (some (.job 6)) 0 (x.tokens + 2 * 32 * x.next) 64 with
      | (.ok bs, s1) =>
        let sel := scoreToken gateOne ((List.range 32).map (fun i => BitVec.ofNat 16 (pf bs (2 * i) 2))) 1
        decide (sel = [(0, 0x3F800000)]) && (match xtableWords (some (.job 6)) 0 x.xtable (sel.map Prod.fst) s1 with
          | (.ok xs, s2) => decide (xs = [0]) && plainMap (sconceCheck s2 (some (.job 6)) 0 (x.route + 64 * x.next) 64 needW).1.1
          | _ => false)
      | _ => false) = true) ∧
    ((bufOf (jobS 1 none) 0 5).map ExpertBuf.requests = some [.job 6 0] ∧ (List.range 1).find? (fun i => !(bufOne false).used.contains i) = some 0) ∧
    ((bufOf peerBufS 0 5).map ExpertBuf.requests = some [] ∧ (bufOf (peerHeldS false) 0 5).map (fun b => tblGet b.routes 0) = some (some (.peer 9 false)) ∧
      (List.range 1).find? (fun i => !(bufOne true).used.contains i) = none) ∧
    (match sconceCheck (peerHeldS false) (some (.payload 5 0)) 0 (slotVa (bufOne true) 0) 64 needW with
     | ((.ok _, _), s1) =>
       let z := putRun s1 0 (slotVa (bufOne true) 0) (List.replicate 64 1)
       z.1 && (pushTo z.2 (some (.payload 5 0)) 0 0x30100 (dispatchRecord (bufOne true) 5 0 3 0x3F800000)).1
     | _ => false) = true ∧
    (∀ st ∈ [1, 2, 3, 4, 5, 6], (copyAt (jobS st none) 6 0).map (fun x => (x.1.done, x.2)) = some (false, copyOf st none)) ∧
    (copyAt (jobS 1 (some 4095)) 6 0).map Prod.snd = some (copyOf 1 (some 4095)) ∧
    (match sconceRead (jobS 3 none) (some (.job 6)) 0 0x30A00 64 with
     | (.ok bs, s1) => (match sconceCheck s1 (some (.job 6)) 0 (slotVa (bufOne true) 0) 64 needW with
       | ((.ok _, _), s2) =>
         let z := putRun s2 0 (slotVa (bufOne true) 0) bs
         z.1 && (pushTo z.2 (some (.job 6)) 0 0x30100 (dispatchRecord (bufOne true) 5 0 0 0x3F800000)).1
       | _ => false)
     | _ => false) = true ∧
    (match popRecord (jobS 4 none) (some (.returns 5)) 0 0x30140 with
     | (.ok bs _, s1) => decide (pf bs 0 4 = 0) && (match (sconceRead s1 (some (.returns 5)) 0 (slotVa (bufOne true) 0 + 64) 128).1 with
       | .ok _ => true
       | _ => false)
     | _ => false) = true ∧
    tblGet (bufOne true).routes 0 = some (.job 6 0) ∧
    (plainMap (sconceCheck (jobS 5 none) (some (.job 6)) 0 0x30D00 128 needW).1.1 = true ∧ (jobWith [] 1 []).combined.length + 1 ≠ (jobWith [] 1 []).ntok ∧ (jobWith [] 2 [1]).combined.length + 1 = (jobWith [] 2 [1]).ntok ∧
      plainMap (sconceCheck (sconceCheck (expertS [(6, jobWith [copyOf 5 none] 2 [1])] true) (some (.job 6)) 0 0x30D00 128 needW).2 (some (.job 6)) 0 0x30E00 8 needW).1.1 = true) :=
  ⟨fun _ _ => rfl, by decide +kernel⟩

/-- Images that no copy can replace: of two keys with different digests, one at least is not the vendor's. An image with the vendor's key, a signature that
holds and a version that is high enough is good, whatever those are. -/
def imageOf (key : List Byte) : BootImage := { pubKey := key, signature := [], fields := [], body := [] }

theorem sha3_differs : sha3 [] ≠ sha3 [1] := by decide +kernel

theorem witness_BootAlarmsAndClock :
    (∃ x : BootImage, imageOk x = false) ∧
    (∀ x : BootImage, sha3 x.pubKey = Config.vendorKeyHash → mldsaVerify x.pubKey x.signature (bytesOf 64 (sha3 (x.fields ++ x.body)).toNat) = true →
      Config.fusedMinVersion ≤ Config.imageVersion x.fields → imageOk x = true) ∧
    (8 ≤ State.reset.trust.clock ∧ State.reset.trust.clock ≤ 16) := by
  refine ⟨?_, fun x h1 h2 h3 => by simp [imageOk, h1, h2, h3], by decide +kernel⟩
  by_cases h : sha3 [] = Config.vendorKeyHash
  · exact ⟨imageOf [1], by
      have e : sha3 [1] ≠ Config.vendorKeyHash := fun x => sha3_differs (h.trans x.symm)
      simp only [imageOk, imageOf, e, decide_false, Bool.false_and]⟩
  · exact ⟨imageOf [], by simp [imageOk, imageOf, h]⟩

/-- The team in its clause, at a word that decodes and at one that does not; an event on the agenda. -/
theorem witness_StepsRunTheDecodedInstruction :
    (chosen (mach team0) 0 team0 = true ∧ team0.active = true ∧ chosen (mach { team0 with clause := some (clauseOf 1 0) }) 0 { team0 with clause := some (clauseOf 1 0) } = true) ∧
    ((mach team0).agenda = [] ∧ Issuing (mach team0) 0 team0 (clauseOf 0 0) ∧ (clauseOf 0 0).words[(clauseOf 0 0).idx - 1]? = some 0 ∧ decode 0 = .ok .nop) ∧
    (Issuing (mach { team0 with clause := some (clauseOf 1 0) }) 0 { team0 with clause := some (clauseOf 1 0) } (clauseOf 1 0) ∧
      (clauseOf 1 0).words[(clauseOf 1 0).idx - 1]? = some 1 ∧ decode 1 = .error .unusedFieldNonzero) ∧
    (tblGet (mach team0).teams 0 = some team0 ∧ team0.clause = some (clauseOf 0 0)) ∧
    ({ mach team0 with agenda := [.powerThrottle] }.agenda = [.powerThrottle] ∧ Instr.powerThrottle.isWord = false) :=
  ⟨by decide +kernel, ⟨rfl, issuing_mach _ _ rfl rfl, rfl, by decide⟩, ⟨issuing_mach _ _ rfl rfl, rfl, by decide⟩, ⟨rfl, rfl⟩, rfl, rfl⟩

theorem witness_ChecksComeFirstAndHaltStops :
    (Issuing (mach team0) 0 team0 (clauseOf 0 0) ∧ (Instr.add (.v 192) (.v 0) (.v 0)).isWord = true ∧ (Instr.add (.v 192) (.v 0) (.v 0)).wellFormed = false) ∧
    reservedOp (opField 0x0A123456) = true ∧
    (∀ r ∈ integerBinary (.v 191) (.v 0) (.v 2), r.1.wellFormed = true ∧
      opndsOk 192 false [dst (.v 191) (typeRegs (modeType 0xE000)), src (.v 0) (typeRegs (modeType 0xE000)), src (.v 2) (typeRegs (modeType 0xE000))] = true ∧
      opndsOk 192 false [dst (.v 191) (typeRegs (modeType 0xE002)), src (.v 0) (typeRegs (modeType 0xE002)), src (.v 2) (typeRegs (modeType 0xE002))] = false ∧
      isIntType (modeType 0xE009) = false) ∧
    { State.reset with trust := { Trust.reset with halted := true } }.trust.halted = true :=
  ⟨⟨issuing_mach _ _ rfl rfl, rfl, by decide⟩, by decide, fun r hr =>
    ⟨each (l := integerBinary (.v 191) (.v 0) (.v 2)) (f := fun r => r.1.wellFormed) (by decide +kernel) (fun _ h => h) r hr, by decide +kernel, by decide +kernel,
      by decide +kernel⟩, rfl⟩

theorem witness_DecodingReversesEncoding : (Instr.add (.v 191) (.s 31) .zero).isWord = true ∧ (Instr.add (.v 191) (.s 31) .zero).wellFormed = true ∧
    Instr.powerThrottle.isWord = false := by decide

theorem reset_canonical : Canonical State.reset := ⟨by decide, by simp [State.reset]⟩
theorem reset_waysLegal : WaysLegal State.reset := by simp [WaysLegal, State.reset]
theorem witness_StepsKeepTheInvariant : Canonical State.reset ∧ WaysLegal State.reset ∧ ∃ s1, step State.reset = .next s1 :=
  ⟨reset_canonical, reset_waysLegal, _, rfl⟩


/-! ### Further clauses: the operands that each of them asks for -/

/-- The points of a ring of k points but for ∞: subnormal numbers in their order, symmetric about 0 (R135, R144). -/
def smallPoints (k : Nat) : List Word := (List.range (k - 1)).map (fun i => BitVec.ofNat 32 (if i + 1 < k / 2 then 0x80000000 + (k / 2 - (i + 1)) else i + 1 - k / 2))

/-- Elements that are quiet and signalling NaNs and numbers under FP32 in lane 0; both ringset TYPEs, with a ring of each. -/
theorem witness_CmpOnElementsAndSets :
    isFpType (modeType 0xE009) = true ∧ isFpType (modeType 0xE007) = true ∧ isRingType (modeType 0xE00B) = true ∧ isRingType (modeType 0xE00D) = true ∧
    pointsValid (modeType 0xE00B - 11) exampleRing.points = true ∧ pointsValid (modeType 0xE00D - 11) (smallPoints (ringK 2)) = true ∧
    nvOf fmtFp32 [0x7F800001, 0] ≠ 0 ∧ nvOf fmtFp32 [0x7FC00000, 0] = 0 ∧ NanCode fmtFp32 0x7FC00000 ∧ ¬ NanCode fmtFp32 0x7F800000 ∧
    modeFtz (oneLane 0xE009 0x7F800001 0 0).mode = false ∧
    flushed false fmtFp32 (elemOf 9 0 (readVal (oneLane 0xE009 0x7F800001 0 0) 0 0 a0 1)) = 0x7F800001 := by decide +kernel

/-- Each kind of operand in each format: NaNs of both kinds, infinities and zeros of both signs, subnormals under FTZ; a sum of infinities of opposite sign, a
product of an infinity and a zero; an operation whose results fit, for the clauses over every operation. -/
theorem witness_FloatArithmeticOnSpecials :
    (∀ f ∈ formats, f.infBits < 2 * f.signBit ∧ f.signBit + f.infBits < 2 * f.signBit ∧ NanCode f (f.infBits + 1) ∧ NanCode f (f.signBit + f.nan) ∧
      f.signBit + f.nan < 2 * f.signBit ∧ InfCode f f.infBits ∧ InfCode f (f.signBit + f.infBits) ∧ ZeroCode f 0 ∧ ZeroCode f f.signBit ∧
      (negOf f f.infBits != negOf f (f.signBit + f.infBits)) = true ∧ ¬ NanCode f f.infBits ∧ ¬ InfCode f 1 ∧ subCode f 1 = true ∧
      flushed true f (f.signBit + 1) = f.signBit ∧ flushed false f 1 = 1) ∧
    (∀ f ∈ formats, (∀ r a b, ((fun (_ : FpFmt) (_ : Nat) (_ _ : FpVal) => ((0 : Nat), (0 : BitVec 5))) f r a b).1 < 2 * f.signBit) ∧
      ∀ r a, ((fun (_ : FpFmt) (_ : Nat) (_ : FpVal) => ((0 : Nat), (0 : BitVec 5))) f r a).1 < 2 * f.signBit) := by
  refine ⟨by decide +kernel, fun f hf => ?_⟩
  have h : 0 < 2 * f.signBit := by simp [FpFmt.signBit]
  exact ⟨fun _ _ _ => h, fun _ _ => h⟩

/-- −1, 1, 2 and 1/2 as FP32, powers of two with the exponents 0, 1 and −1; 3, an integer. -/
theorem witness_FloatRootsScalingAndSpecialInputs :
    fmtFp32 ∈ formats ∧ (∀ x ∈ [0xBF800000, 0x3F800000, 0x40000000, 0x3F000000, 0x40400000], Finite fmtFp32 x) ∧
    valueOf fmtFp32 0xBF800000 = -1 ∧ valueOf fmtFp32 0x3F800000 = (2 : ℚ) ^ (0 : Int) ∧ valueOf fmtFp32 0x40000000 = (2 : ℚ) ^ (1 : Int) ∧
    valueOf fmtFp32 0x3F000000 = (2 : ℚ) ^ (-1 : Int) ∧ valueOf fmtFp32 0x40400000 = ((3 : Int) : ℚ) ∧
    NanCode fmtFp32 0x7F800001 ∧ ¬ NanCode fmtFp32 0x7F800000 ∧ InfCode fmtFp32 0xFF800000 ∧ ¬ InfCode fmtFp32 0 ∧ ZeroCode fmtFp32 0x80000000 ∧
    ¬ ZeroCode fmtFp32 1 := by
  refine ⟨by simp [formats], ?_, ?_, ?_, ?_, ?_, ?_, by decide⟩
  · have h : ∀ x ∈ [0xBF800000, 0x3F800000, 0x40000000, 0x3F000000, 0x40400000], x < 2 * fmtFp32.signBit ∧ x % fmtFp32.signBit < fmtFp32.infBits := by decide
    exact fun x hx => h x hx
  all_goals norm_num [valueOf, magnitude, fmtFp32, FpFmt.signBit, FpFmt.infBits, FpFmt.qmin, FpFmt.bias]

/-- FDOT2 on BF16 pairs: an infinity times a zero; infinities of opposite sign; a NaN; one infinity; a sum that is not zero; products and an addend that are zeros
of one sign; a sum that cancels. -/
theorem witness_FloatDotProducts :
    modeType 0xE007 = 7 ∧ modeType 0xE008 = 8 ∧ modeRnd 0xE007 ≤ 4 ∧ modeFtz 0xE007 = false ∧ fmtOfType 7 = fmtBf16 ∧
    (∀ x ∈ [0x3F80BF80, 0x7F800000, 0x00007FC0], elemOf 7 0 x = x % 65536 ∧ elemOf 7 1 x = x / 65536) ∧
    (InfCode fmtBf16 0x7F80 ∧ ZeroCode fmtBf16 0x8000 ∧ ¬ ZeroCode fmtBf16 0x3F80) ∧ (InfCode fmtFp32 0xFF800000 ∧ negOf fmtFp32 0xFF800000 = true) ∧
    (negOf fmtBf16 0x7F80 != negOf fmtBf16 0x3F80) = false ∧ (NanCode fmtBf16 0x7FC0 ∧ ¬ NanCode fmtBf16 0x7F80 ∧ NanCode fmtFp32 0x7F800001) ∧
    valueOf fmtBf16 0x3F80 = 1 ∧ valueOf fmtBf16 0xBF80 = -1 ∧ valueOf fmtBf16 0 = 0 ∧ valueOf fmtFp32 0 = 0 ∧ valueOf fmtFp32 0x80000000 = 0 := by
  refine ⟨by decide, by decide, by decide, by decide, rfl, by decide +kernel, by decide, by decide, by decide, by decide, ?_⟩
  refine ⟨?_, ?_, ?_, ?_, ?_⟩
  all_goals norm_num [valueOf, magnitude, fmtBf16, fmtFp32, FpFmt.signBit, FpFmt.infBits, FpFmt.qmin, FpFmt.bias]

/-- A MODE of each kind of destination, a ring of its form, and sources that are a NaN, an infinity, a zero and a number. -/
theorem witness_ConversionsRoundAndSaturate :
    (∀ n ∈ [0xE000, 0xE105, 0xE009, 0xE04A, 0xE00B, 0xE00C, 0xE00D], modeRnd (BitVec.ofNat 32 n) ≤ 4) ∧ isIntType (modeType 0xE105) = true ∧
    isFpType (modeType 0xE04A) = true ∧ (∀ form ∈ [0, 1, 2], isRingType (form + 11) = true ∧ pointsValid form (smallPoints (ringK form)) = true) ∧
    (modeType 0xE00D = 2 + 11 ∧ exampleRing.form = modeType 0xE00B - 11) ∧
    NanCode fmtFp32 0x7F800001 ∧ InfCode fmtFp32 0xFF800000 ∧ ZeroCode fmtFp32 0x80000000 ∧
    (0x3F800000 < 2 * fmtFp32.signBit ∧ 0x3F800000 % fmtFp32.signBit < fmtFp32.infBits) ∧ valueOf fmtFp32 0x3F800000 ≠ 0 ∧
    (modeType 0xE007 = 7 ∧ modeType 0xE008 = 8) := by
  refine ⟨by decide +kernel, by decide, by decide, by decide +kernel, by decide, by decide +kernel, by decide +kernel, by decide, by decide +kernel, ?_, by decide⟩
  norm_num [valueOf, magnitude, fmtFp32, FpFmt.signBit, FpFmt.infBits, FpFmt.qmin, FpFmt.bias]

/-- The run of R139 as a test over the starts and lengths. -/
def hullB (n p k l : Nat) : Bool :=
  let inRun (k l j : Nat) : Bool := decide ((j + n - k) % n ≤ l)
  let covers (k l : Nat) : Bool := (List.range n).all (fun j => !p.testBit j || inRun k l j)
  decide (k < n) && decide (l < n) && covers k l && (List.range n).all (fun k1 => (List.range l).all (fun l1 => !covers k1 l1)) &&
    (List.range k).all (fun k1 => !covers k1 l)

theorem inRun_iff {n k l j : Nat} (hk : k < n) (hj : j < n) (hl : l < n) : InRun n k l j ↔ (j + n - k) % n ≤ l := by
  constructor
  · rintro ⟨i, hi, rfl⟩
    rcases Nat.lt_or_ge (k + i) n with h | h
    · rw [Nat.mod_eq_of_lt h, show k + i + n - k = i + n by omega, Nat.add_mod_right, Nat.mod_eq_of_lt (by omega)]
      exact hi
    · rw [Nat.mod_eq_sub_mod h, Nat.mod_eq_of_lt (show k + i - n < n by omega), show k + i - n + n - k = i by omega, Nat.mod_eq_of_lt (by omega)]
      exact hi
  · intro h
    refine ⟨(j + n - k) % n, h, ?_⟩
    rw [Nat.add_mod_mod, show k + (j + n - k) = j + n by omega, Nat.add_mod_right, Nat.mod_eq_of_lt hj]

theorem hull_of {n p k l : Nat} (h : hullB n p k l = true) : IsHull n p k l := by
  simp only [hullB, Bool.and_eq_true, decide_eq_true_eq, List.all_eq_true, List.mem_range, Bool.or_eq_true, Bool.not_eq_true'] at h
  obtain ⟨⟨⟨⟨hk, hl⟩, hc⟩, hs⟩, hf⟩ := h
  refine ⟨⟨hk, hl, fun j hj hp => (inRun_iff hk hj hl).mpr ((hc j hj).resolve_left (by simp [hp]))⟩, ?_⟩
  rintro k1 l1 ⟨hk1, hl1, h1⟩
  have all : ∀ j, j < n → p.testBit j = false ∨ (j + n - k1) % n ≤ l1 := fun j hj => by
    cases hp : p.testBit j
    · exact .inl rfl
    · exact .inr ((inRun_iff hk1 hj hl1).mp (h1 j hj hp))
  have no {k2 l2 : Nat} (hx : ((List.range n).all fun j => !p.testBit j || decide ((j + n - k2) % n ≤ l2)) = false)
      (ha : ∀ j, j < n → p.testBit j = false ∨ (j + n - k2) % n ≤ l2) : False := by
    have : ((List.range n).all fun j => !p.testBit j || decide ((j + n - k2) % n ≤ l2)) = true := by
      simpa [List.all_eq_true] using ha
    rw [this] at hx
    cases hx
  rcases Nat.lt_trichotomy l l1 with h | h | h
  · exact .inl h
  · subst h
    rcases Nat.lt_or_ge k1 k with h | h
    · exact (no (hf k1 h) all).elim
    · exact .inr ⟨rfl, h⟩
  · exact (no (hs k1 hk1 l1 h) all).elim

/-- One position, two that wrap round 0, and all; the set of 0 alone, which has both bounds, and an open arc to −∞; nothing. -/
theorem witness_RingElementsHullsAndBounds :
    (IsHull 16 1 0 0 ∧ IsHull 16 (2 ^ 15 + 1) 15 1 ∧ IsHull 32 (2 ^ 31 + 1) 31 1 ∧ 2 ^ 256 - 1 < 2 ^ 256) ∧
    (pointsValid 0 exampleRing.points = true ∧ pointsValid 1 (smallPoints (ringK 1)) = true ∧ pointsValid 2 (smallPoints (ringK 2)) = true) ∧
    (let F (p : Nat) : Set ℝ := fun x => InSet 0 exampleRing.points p (some x)
     F 0 = ∅ ∧ (0 : ℝ) ∈ F (2 ^ 8) ∧ BddBelow (F (2 ^ 8)) ∧ BddAbove (F (2 ^ 8)) ∧ ¬ BddBelow (F 2) ∧ ¬ BddAbove (F (2 ^ 15))) ∧
    ZeroCode fmtFp32 0 := by
  have one (m k : Nat) (x : ℝ) : InSet 0 exampleRing.points (2 ^ m) (some x) → AtPosition 0 exampleRing.points m (some x) := by
    rintro ⟨k, _, hk, h⟩
    rw [Nat.testBit_two_pow] at hk
    obtain rfl : m = k := by simpa using hk
    exact h
  have low : pointOf exampleRing.points 1 = -2 := by
    unfold pointOf
    rw [show (nthD exampleRing.points (1 - 1) 0).toNat = 0xC0000000 from rfl]
    norm_num [valueOf, magnitude, fmtFp32, FpFmt.signBit, FpFmt.infBits, FpFmt.qmin, FpFmt.bias]
  have mid : pointOf exampleRing.points 4 = 0 := by
    unfold pointOf
    rw [show (nthD exampleRing.points (4 - 1) 0).toNat = 0 from rfl]
    norm_num [valueOf, magnitude, fmtFp32, FpFmt.signBit, FpFmt.infBits, FpFmt.qmin, FpFmt.bias]
  have top : pointOf exampleRing.points 7 = 2 := by
    unfold pointOf
    rw [show (nthD exampleRing.points (7 - 1) 0).toNat = 0x40000000 from rfl]
    norm_num [valueOf, magnitude, fmtFp32, FpFmt.signBit, FpFmt.infBits, FpFmt.qmin, FpFmt.bias]
  have zero {x : ℝ} (h : InSet 0 exampleRing.points (2 ^ 8) (some x)) : x = 0 := by
    have := one 8 0 x h
    simp only [AtPosition, mid] at this
    simpa using this.2
  refine ⟨⟨hull_of (by decide +kernel), hull_of (by decide +kernel), hull_of (by decide +kernel), by norm_num⟩, by decide +kernel, ⟨?_, ?_, ?_, ?_, ?_, ?_⟩, by decide⟩
  · ext x
    simp only [Set.mem_empty_iff_false, iff_false]
    rintro ⟨k, _, hk, _⟩
    simp at hk
  · exact ⟨8, by decide, by decide, by simp [AtPosition, mid]⟩
  · exact ⟨0, fun x h => (zero h).ge⟩
  · exact ⟨0, fun x h => (zero h).le⟩
  · rintro ⟨b, hb⟩
    have h : InSet 0 exampleRing.points 2 (some (min b (-2) - 1)) := ⟨1, by decide, by decide, by
      simp only [AtPosition, low]
      norm_num
      exact .inr (by
        have := min_le_right b (-2)
        linarith)⟩
    have := hb h
    have := min_le_left b (-2)
    linarith
  · rintro ⟨b, hb⟩
    have h : InSet 0 exampleRing.points (2 ^ 15) (some (max b 2 + 1)) := ⟨15, by decide, by decide, by
      have := le_max_right b 2
      simp only [AtPosition, top]
      norm_num
      exact ⟨by linarith, .inl rfl⟩⟩
    have := hb h
    have := le_max_left b 2
    linarith

/-! ### Further clauses: the machine -/

/-- The outer frame and a function of another rule end no round that waits; the last lanes of a WIDEN callee, or of a GATHER callee, end one, and are quiet. -/
theorem witness_ReturnsAndExitsWait :
    let ends (rule : Nat) (m : Mask) : Bool :=
      endsRound (calledT rule).mode (recordAt (calledS rule) 0) (goTo (exitLanes (calledT rule) m) (clauseEnd (clauseOf 0xE5000000 0)))
    ends 0 (calledT 0).exec = false ∧ ends 1 (calledT 1).exec = true ∧ ends 2 (calledT 2).exec = true ∧ ends 1 1 = false ∧ (∀ rule ∈ [1, 2], Quiet (calledS rule) 0 (calledT rule)) := by
  refine ⟨?_, ?_, ?_, ?_, fun rule h => quiet_of (each (l := [1, 2]) (f := fun r => quietB (calledS r) (calledT r)) ?_ (fun _ h => h) rule h)⟩ <;> decide +kernel

/-- Descriptors that R144 refuses in the window at 16: of form 3, with a reserved bit, of another count; with points out of order. -/
def badRing (head : Nat) (ps : List Word) : State :=
  (mach ringWindowT).updCore 0 (fun c => { c with scratch := Memory.writes [] 16 (bytesOf 16 head ++ ps.flatMap (fun w => bytesOf 4 w.toNat)) })
theorem witness_RingldRefusals :
    (∀ h ∈ [3 + 2 ^ 32 * 7, 4 + 2 ^ 32 * 7, 2 ^ 32 * 8], Issuing (badRing h []) 0 ringWindowT (clauseOf 0 0) ∧ 16 + 16 ≤ ringWindowT.cfg.spsize ∧
      ¬ (h / 4 % 2 ^ 30 = 0 ∧ h / 2 ^ 64 = 0 ∧ h % 4 ≠ 3 ∧ h / 2 ^ 32 % 2 ^ 32 = ringK (h % 4) - 1) ∧
      natOfBytes (Memory.reads ((badRing h []).core 0).scratch 16 16) = h) ∧
    (let ps := exampleRing.points.reverse
     natOfBytes (Memory.reads ((badRing (2 ^ 32 * 7) ps).core 0).scratch 16 16) = 2 ^ 32 * 7 ∧ 16 + 16 + 4 * (ringK 0 - 1) ≤ ringWindowT.cfg.spsize ∧
     pointsValid 0 (wordsOfBytes (Memory.reads ((badRing (2 ^ 32 * 7) ps).core 0).scratch 32 28)) = false ∧ ((badRing (2 ^ 32 * 7) ps).core 0).poisonScratch = []) ∧
    ringWindowT.cfg.spsize ≤ 2 ^ 32 ∧ 0 < ringWindowT.rings.length := by
  refine ⟨fun h hh => ⟨⟨rfl, rfl, rfl, rfl, rfl⟩, ?_, ?_, ?_⟩, ?_⟩
  · decide +kernel
  · revert h
    decide +kernel
  · revert h
    decide +kernel
  · decide +kernel

/-- A QLOCK of team 0 in flight, with its answer to come; the lock free, of team 7 with room, of team 7 with 4,096 waiters at its slice, awaited by team 0. -/
def askO : LateOp := { lateOf 4 none with wait := .qlock 0x200008, pop := some (5, 0) }
def askT : Team := raiseFlag { unitT 8 with late := [askO] } 1
def askS (l : Option Lock) : State := { (unitS 8).setTeam 0 askT with locks := (l.map (fun x => (0x200008, x))).toList }
def manyWaiters : List (Nat × Nat) := (List.range 4096).map (fun k => (k + 8, 0))
theorem witness_QueueLockAnswers :
    let held (ws : List (Nat × Nat)) : Lock := { holder := some 7, waiters := ws }
    let waiting (s : State) : Nat := ((s.locks.filter (fun l => decide (homeSlice l.1 = homeSlice 0x200008))).map (fun l => l.2.waiters.length)).sum
    (tblGet (askS none).locks 0x200008).bind Lock.holder = none ∧ (tblGet (askS (some (held []))).locks 0x200008).bind Lock.holder = some 7 ∧
    waiting (askS (some (held []))) < 4096 ∧
    (∃ w ∈ (held [(0, 4)]).waiters, w.1 = 0) ∧ (tblGet (askS (some { holder := some 0, waiters := [] })).locks 0x200008).bind Lock.holder = some 0 ∧
    (tblGet (askS (some (held []))).locks 0x200008 = some (held []) ∧ tblGet (askS (some (held [(0, 4)]))).locks 0x200008 = some (held [(0, 4)])) ∧
    (tblGet (askS none).teams 0 = some askT ∧ askT.late.filter (fun x => decide (x.id = 4)) = [askO] ∧ askO.pop = some (5, 0) ∧ askT.saved = false ∧
      askO.wait = .qlock 0x200008 ∧ askO.vwrites = [] ∧ askO.swrites = [] ∧ askO.poisoned = [] ∧ askO.peers = [] ∧ askO.build = none) ∧
    (4096 ≤ waiting (askS (some (held manyWaiters))) ∧ ∀ w ∈ manyWaiters, w.1 ≠ 0) := by
  refine ⟨?_, ?_, ?_, ?_, ?_, ?_, ?_, ?_, ?_⟩
  iterate 7 decide +kernel
  · simp [askS, manyWaiters]
  · intro w hw
    obtain ⟨k, -, rfl⟩ := List.mem_map.mp hw
    exact Nat.succ_ne_zero _

/-- The clauses on MDRAIN's values, blocks and exponents: each output kind, a value of each kind, a list that an exponent covers and one that none does. -/
theorem witness_AccumulatorValuesAndExponents :
    ((drainOf matrixX 12).ctrl % 4 ≠ 3 ∧ modeRnd matrixX.t.mode ≤ 4) ∧ ((2 : Nat) % 4 = 2 ∧ (1 : Nat) % 4 < 2) ∧ [FpVal.nan false].any isNan = true ∧
    [FpVal.fin false 1 0, FpVal.inf true].any isNan = false ∧
    (let covers (xs : List FpVal) (e : Nat) : Prop := ∀ x ∈ xs, ∃ n m k, x = .fin n m k ∧ finOf false m k < (2 : ℚ) ^ ((e : Int) - 127)
     covers [.fin true 1 0] 128 ∧ (∀ e1, e1 < 128 → ¬ covers [.fin true 1 0] e1) ∧ ∀ e, e ≤ 0xFE → ¬ covers [.inf false] e) := by
  refine ⟨by decide +kernel, by decide, rfl, rfl, ?_, ?_, ?_⟩
  · intro x hx
    rw [List.mem_singleton.mp hx]
    exact ⟨true, 1, 0, rfl, by norm_num [finOf]⟩
  · intro e he h
    obtain ⟨n, m, k, hx, hlt⟩ := h _ (List.mem_singleton.mpr rfl)
    cases hx
    have : (2 : ℚ) ^ ((e : Int) - 127) ≤ (2 : ℚ) ^ (0 : Int) := zpow_le_zpow_right₀ (by norm_num) (by omega)
    norm_num [finOf] at hlt this
    linarith
  · intro e _ h
    obtain ⟨n, m, k, hx, _⟩ := h _ (List.mem_singleton.mpr rfl)
    cases hx

/-- With no word owned and no value kept of a line, a recall leaves the state as it is. -/
theorem recallJudged_idle {s : State} (ho : s.own = []) (hc : s.checks = []) (pull : Bool) (pa n : Nat) : recallJudged s pull pa n = (poisonedRange s pa n, s) := by
  have hw (w : Nat) : recallWord s pull w = s := by simp [recallWord, ho, tblGet]
  have hl (l : List Nat) : l.foldl (fun s w => recallWord s pull w) s = s := by
    induction l with
    | nil => rfl
    | cons w l ih => rw [List.foldl_cons, hw, ih]
  have hm (p : Nat) : mismatched s p = false := by simp [mismatched, hc, tblGet]
  simp [recallJudged, recallRange, hl, crossLines, hm]

/-- A flush whose header, or whose accumulator, lies in a poisoned line once it is home, and one that finds none. -/
theorem witness_FlushesFindPoison :
    let s0 (p : List Nat) : State := { ((flushS false false).updCore 0 (fun x => { x with flushes := [] })) with poison := p }
    (recallJudged (s0 []) false 0x232000 8).1 = false ∧ (recallJudged (recallJudged (s0 []) false 0x232000 8).2 false 0x230000 8192).1 = false ∧
    (recallJudged (s0 [0x4640]) false 0x232000 8).1 = true ∧
    (recallJudged (recallJudged (s0 [0x4600]) false 0x232000 8).2 false 0x230000 8192).1 = true := by
  have h (p : List Nat) (pa n : Nat) := recallJudged_idle (s := { ((flushS false false).updCore 0 (fun x => { x with flushes := [] })) with poison := p })
    rfl rfl false pa n
  simp only [h]
  decide +kernel

/-- A lane that names caller 0's argument, lanes that name none; what ARG finds in the frame stack; a GRET that stores and one that does not. -/
theorem witness_GatherFrameIsRead :
    let x (a : Nat) : Team := { calledT 2 with vregs := [(0, BitVec.ofNat 32 a)] }
    let names (a k : Nat) : Bool := (gatherCall (x a).calls).any (fun g => decide (readVal (x a) 0 k (.v 0) 1 < g.callers.length) && decide (readVal (x a) 0 k .zero 1 < g.narg))
    (lanesFor (calledT 2) (.v 3) (lanesOn (calledT 2))).any (names 0) = true ∧ (lanesFor (calledT 2) (.s 3) (lanesOn (calledT 2))).any (names 9) = false ∧
    (let s1 := (checkRun (calledS 2) (calledT 2) (calledT 2).cfg.fsbase (frameImage (calledT 2)).length 1 needR true).2
     let r := readRun s1 0 (calledT 2) (calledT 2).cfg.fsbase (frameImage (calledT 2)).length
     (tblGet r.2.teams 0).any (fun t2 => (r.1.bind (fun bs => gatherCall (reloadImage t2 bs).calls)).isSome) = true) ∧
    (∀ stores ∈ [true, false], (framePushedAs stores (calledS 2) 0 (calledT 2) (fun y => .ok y)).isSome = true) := by decide +kernel

/-- A layer EVICTING; 16 layers pinned, and 255 pins on one. -/
theorem witness_LayersFullOrLeaving :
    (let s := { layerS 0x1000 0 with models := [(1, modelOf [layerOfState 3 0])] }
     (layerOf s (layerT 0x1000 0) 0x1000).map (fun x => x.2.2.state) = some 3 ∧ (unitGate s (flagOp .lwait)).isSome = true) ∧
    (let t := { layerT 0x1000 0 with pins := (List.range 16).map (fun k => (0x1001 + k, 1)) }
     (tblGet t.pins 0x1000).getD 0 = 0 ∧ 16 ≤ t.pins.length) ∧ 255 ≤ (tblGet (layerT 0x1001 255).pins 0x1001).getD 0 := by decide +kernel

/-- A clause start with no place to hand over; a team that is not in the active set and stays out of it, and one that is not chosen. -/
theorem witness_ClauseStartsAndPlaces :
    (settlePlaces startS 0 = startS ∧ settlePlaces (mach team0) 0 = mach team0) ∧
    (let t := { team0 with active := false, wait := .none, clause := none, pc := 0x30000, cfg := { team0.cfg with prio := 0 } }
     let s := { startS with teams := (0, t) :: (List.range 8).map (fun k => (k + 1, { startT with active := true, cfg := { startT.cfg with prio := 9 } })) }
     tblGet s.teams 0 = some t ∧ (tblGet (settlePlaces s 0).teams 0).map Team.active = some false) ∧
    (let s := { mach team0 with teams := [(0, { startT with wait := .held }), (1, { team0 with cfg := { team0.cfg with prio := 9 } })], cur := some 1 }
     chosen s 0 { startT with wait := .held } = false ∧ settlePlaces s 0 = s) := by decide +kernel

/-- The same work where the line is poisoned once it is home, and where its store covers it. -/
theorem witness_WorkMeetsPoison :
    (∀ ix ∈ [0, 1, 2], let s := { outS with poison := [0x4000, 0x4200] }
      firstOfLine s 0 ix = true ∧ storeCovers (s.core 0).out ix 0x4000 = false ∧ storeCovers (s.core 0).out ix 0x4200 = false ∧
      linePoisoned (crossLines (recallOthers (s.updCore 0 (fun x => { x with out := dropNth x.out 0 })) 0 [0x80000]) 0x200000 128) 0x4000 = true ∧
      (recallJudged (invalidateOwn (s.updCore 0 (fun x => { x with out := dropNth x.out 1 })) 0 0x210000 2) false 0x210000 2).1 = true ∧
      (recallJudged (invalidateOwn (s.updCore 0 (fun x => { x with out := dropNth x.out 2 })) 0 0x200100 4) false 0x200100 4).1 = false) ∧
    (tblGet (mach team0).teams 0 = some team0) ∧
    (storeCovers [{ team := 0, instr := 0, slot := 0, va := 0x30000, work := .homeWrite 0x210000 (List.replicate 128 1), counted := false }] 0 0x4200 = true ∧
      0x210000 % 128 + (List.replicate 128 (1 : Byte)).length ≤ 128) := by decide +kernel

/-- Two stores of 32 lanes, each covering its poisoned line: of a COHERENT page and of a DIRECT one. -/
def coverOut (k : Nat) : OutEntry := { team := 0, instr := 0, slot := k, va := 0x30000 + 4 * k, work := .registration (0x80000 + k) 15, counted := false }
def coverOut1 (k : Nat) : OutEntry :=
  { team := 0, instr := 1, slot := k, va := 0x40000 + 4 * k, work := .homeWrite (0x210000 + 4 * k) [1, 2, 3, 4], counted := false }
def coverS : State :=
  { State.reset with poison := [0x4000, 0x4200] }.updCore 0 (fun c => { c with out := (List.range 32).map coverOut ++ (List.range 32).map coverOut1 })
theorem witness_StoresCoverTheirLine :
    (firstOfLine coverS 0 0 = true ∧ storeCovers (coverS.core 0).out 0 0x4000 = true ∧ ∀ x ∈ (coverS.core 0).out, x.instr = 0 → entryLine x = 0x4000 →
      ∃ w m, x.work = .registration w m ∧ unitObject coverS (4 * w) = none) ∧
    (firstOfLine coverS 0 32 = true ∧ storeCovers (coverS.core 0).out 1 0x4200 = true ∧ PlainBytes coverS (128 * 0x4200) 128 ∧
      ∀ x ∈ (coverS.core 0).out, x.instr = 1 → entryLine x = 0x4200 → ∃ pa bs, x.work = .homeWrite pa bs ∧ pa % 128 + bs.length ≤ 128) := by
  refine ⟨⟨by decide +kernel, by decide +kernel, fun x hx hi _ => ?_⟩, by decide +kernel, by decide +kernel,
    fun k hk => (show ∀ k, k < 128 → unitObject coverS (0x210000 + k) = none by decide +kernel) k hk, fun x hx hi _ => ?_⟩
  · have h : (coverS.core 0).out.all (fun x => decide (x.instr ≠ 0) || (match x.work with
      | .registration w _ => decide (unitObject coverS (4 * w) = none)
      | _ => false)) = true := by decide +kernel
    have h1 := List.all_eq_true.mp h x hx
    simp only [hi, ne_eq, not_true_eq_false, decide_false, Bool.false_or] at h1
    split at h1
    · rename_i w m e
      exact ⟨w, m, e, of_decide_eq_true h1⟩
    · cases h1
  · have h : (coverS.core 0).out.all (fun x => decide (x.instr ≠ 1) || (match x.work with
      | .homeWrite pa bs => decide (pa % 128 + bs.length ≤ 128)
      | _ => false)) = true := by decide +kernel
    have h1 := List.all_eq_true.mp h x hx
    simp only [hi, ne_eq, not_true_eq_false, decide_false, Bool.false_or] at h1
    split at h1
    · rename_i pa bs e
      exact ⟨pa, bs, e, of_decide_eq_true h1⟩
    · cases h1

/-- Two SAVE_TEAM messages for the team of SEQ 5, the second with HOLD. -/
def saveAskS : State :=
  let s := teamS 10 0x50000 false
  { s with inbox := [], waiting := [⟨teamMsg 10, none⟩, ⟨msgOf 5 10 0x30000 (bytesOf 4 5 ++ bytesOf 4 2 ++ bytesOf 8 1), none⟩],
           teams := s.teams.map (fun t => (t.1, { t.2 with clause := none })) }
theorem witness_SavesAreAsked :
    (wantedSaves fullS).head? = some 0 ∧
    ∃ t, tblGet saveAskS.teams 0 = some t ∧ savePoint t = true ∧ (∀ w ∈ saveAskS.waiting, isSaveMsg w.msg = true ∧ namesTeam saveAskS w.msg t = true) ∧ saveAskS.waiting ≠ [] ∧
      (saveAskS.waiting.map (fun w => msgField w.msg 8 1 % 2) = [0, 1]) ∧ Quiet saveAskS 0 t ∧ (saveAskS.core t.cfg.core).sequencer = [] ∧ allocationRead saveAskS 0 t = false :=
  ⟨by decide +kernel, _, rfl, by decide +kernel, by decide +kernel, by decide +kernel, by decide +kernel, quiet_of (by decide +kernel), by decide +kernel, by decide +kernel⟩

/-- A unit object at a first try, and one that waits at its slice already, found where it was then (R42). -/
def triedS (k : UnitOp) : State := { unitS 0 with unitWait := [{ table := .cohort, op := k, who := 0, pa := 0x200040, id := 0 }] }
theorem witness_UnitObjectsAreFound : ∀ k ∈ [UnitOp.bar, .qpop, .qpush],
    (∃ s1, UnitFound k (unitS 0) 0 (unitT 0) 0x30000 0x200000 s1) ∧ UnitFound k (triedS k) 0 (unitT 0) 0x30000 0x200040 (triedS k) := by
  intro k hk
  refine ⟨⟨(unitReach (unitS 0) (unitT 0).cfg 0x30000 64).2, fun w h => ?_, fun _ => ⟨unitMap 0, pair_of (by decide +kernel), by decide +kernel⟩⟩, fun w h => ?_, fun h => ?_⟩
  · exact absurd h (by rw [show (unitS 0).unitWait = [] from rfl]; simp)
  · simp only [triedS, List.find?_cons] at h
    simp at h
    exact ⟨by rw [← h], rfl⟩
  · simp [triedS] at h

/-- A page of a peer's memory beside the others. -/
def peerPages : State :=
  let s := ringS [] [(0x10000 + 8 * 9, bytesOf 8 (leaf 0 0x20 + 512))]
  { s with peers := [(0, BitVec.ofNat 256 (2 ^ 160))] }

/-- A notify whose WPTR is to be read again; a write that no peer is asked about, and one that a peer refuses when it does; messages of ATTEST of each size; a
RING_HALT whose status write waits, and one whose does not. -/
theorem witness_RingsAndMessagesWait :
    (let s := { ringS [] [(0x200080, queueBytes 1), (0x210000, bytesOf 8 0x30000)] with wptrReads := [0] }
     (0 ∈ s.wptrReads) ∧ (0 ∉ ({ s with wptrReads := [] } : State).wptrReads) ∧
     ((popRecord ({ s with wptrReads := [] } : State) (some (.ring 0)) 0 0x30080).2.rings.find? (fun j => decide (j.2.ctx = 0) && decide (j.2.rcb = 0x30000))).isSome = true) ∧
    ((putRun (msgS (msgOf 2 0 0x30000 [1])) 0 0x30000 [1]).1 = true ∧
      (peersRefuse peerPages 0 [(0x90000, 1)]).1 = Config.peerRefuses peerPages.fresh ∧ (peersRefuse (msgS (msgOf 1 0 0x30000 [])) 0 [(0x30010, 8)]).1 = false) ∧
    (∀ n ∈ [1, 31, 65], (msgOf 4 0 0 (List.replicate n 1)).status = 0 ∧ (msgOf 4 0 0 (List.replicate n 1)).payload.length = (msgOf 4 0 0 (List.replicate n 1)).length) ∧
    (putWaits haltedRing 0 (0x30000 + 0x28) = false ∧ putWaits { haltedRing with puts := [(0, 0x30000 + 0x28, bytesOf 8 3)] } 0 (0x30000 + 0x28) = true) ∧
    (poisonedRange (recallRange { peerS with poison := [0x4200 - 1] } false (0x210000 - 16) 16) (0x210000 - 16) 16 = true ∧
      poisonedRange (recallRange peerS false (0x210000 - 16) 16) (0x210000 - 16) 16 = false) ∧
    (({ lateOf 4 none with peers := [(0, 0x30000)] } : LateOp).came.getLsbD 0 = false ∧ (0, 0x30000) ∉ ({ lateOf 4 none with peers := [(0, 0x30000)] } : LateOp).poisoned) := by
  refine ⟨?_, ⟨?_, rfl, ?_⟩, ?_⟩ <;> decide +kernel

/-- A copy before which no earlier token waits; logits that are a NaN, an infinity and numbers; one expert of one. -/
theorem witness_ExpertsAndLogits :
    (∀ st ∈ [1, 2, 3], waitsTurn (jobWith [copyOf st none] 1 []) (copyOf st none) (st + 1) = false) ∧
    (NanCode fmtBf16 0x7FC0 ∧ InfCode fmtBf16 0x7F80 ∧ ¬ NanCode fmtBf16 0x7F80 ∧ ¬ InfCode fmtBf16 0x3F80 ∧
      (negOf fmtBf16 0xFF80 != negOf fmtBf16 0x3F80) = true ∧ (negOf fmtBf16 0x7F80 != negOf fmtBf16 0x3F80) = false) ∧
    (0 < 1 ∧ 1 ≤ gateOne.experts ∧ (scoreToken gateOne (List.replicate 32 0) 1).map Prod.fst = [0] ∧ logit (List.replicate 32 0) gateOne.weights = 0 ∧
      0 % fmtFp32.signBit < fmtFp32.infBits ∧ (List.replicate 32 (0 : BitVec 16)).length = gateOne.weights.length) := by decide +kernel

/-! ## Control flow, units, engines: one step each, on the states of the witnesses -/

/-- What the team of a state has after an instruction. -/
def val {β : Type} (i : Instr) (s : State) (f : Team → β) : Option β := (tblGet (next i s).teams 0).map f
/-- The state after a step. -/
def stepped (s : State) : State :=
  match step s with
  | .next s1 => s1
  | _ => s
def lateS (t : Team) : List (Nat × Word) := t.late.flatMap LateOp.swrites
/-- The state with its team at an instruction's own word, with a literal. -/
def atWord (i : Instr) (lit : Word) (s : State) : State := s.updTeam 0 (fun t => { t with clause := some (clauseOf ((encode i).getD 0) lit) })

/-- R177, R226, R316: offsets are words from the clause header at 0x1000, whose clause ends at 0x100C. -/
theorem test_branches : val .bra (atWord .bra 0xFFFF (mach team0)) Team.pc = some 0xFFC ∧ val (.bru (.s 0)) (mach (branchT 0)) Team.pc = some 0x1080 ∧
    val (.brc 1) (mach (branchT 0)) (fun t => (t.pc, t.exec, t.reconv)) = some (0x100C, 3, []) ∧
    val (.brc 1) (mach (branchT 1)) (fun t => (t.pc, t.exec)) = some (0x1080, 1) ∧
    val (.brc 1) (mach (branchT 1)) (fun t => t.reconv.map (fun e => (e.pend, e.mask))) = some [(true, 2), (false, 3)] ∧
    val (.brc 1) (mach (branchT 1)) (fun t => t.reconv.map (fun e => (e.pc, e.rejoin))) = some [(0x100C, 0x1100), (0x1100, 0x1100)] := by decide +kernel

/-- R181, R317: the arguments of each lane in v0 and v1, the callee behind its two header words; R189: the lower target first. -/
theorem test_calls : val (.call (.v 16) (.v 8)) (callS 0 64) (fun t => (t.pc, t.exec, (List.range 2).map (fun k => (regOf t k (.v 0), regOf t k (.v 1))))) =
      some (0x1108, 3, [(5, 6), (7, 8)]) ∧
    val (.calli (.v 16) (.v 8) (.v 10)) calliS (fun t => (t.pc, t.exec, regOf t 0 (.v 0))) = some (0x30108, 1, 5) := by decide +kernel

/-- R182, R319: the result in v16 of each lane; R322: lanes that exit are gone, and the team retires when none is left. -/
theorem test_returns : val .ret (calledS 0) (fun t => (t.pc, t.exec, t.calls.length, (List.range 2).map (fun k => regOf t k (.v 16)))) = some (0x100C, 3, 0, [5, 7]) ∧
    val .exit (mach team0) (fun t => (t.wait, t.exec)) = some (.retiring, 0) := by decide +kernel

/-- The callee of two callers, its gather frame in the frame stack on page 5. -/
def gatherS : State := { calledS 2 with mem := Memory.writes pages 0x220000 (frameImage (calledT 2)) }

/-- R187, R320, R321: caller 1's argument 0 and caller 2's, who is not there; a result of caller 0. -/
theorem test_gather : val (.arg (.v 3) .lit .zero) (atWord (.arg (.v 3) .lit .zero) 1 gatherS) (fun t => regOf t 2 (.v 3)) = some 7 ∧
    val (.arg (.v 3) .lit .zero) (atWord (.arg (.v 3) .lit .zero) 2 gatherS) (fun t => regOf t 2 (.v 3)) = some 0 ∧
    val (.gret .zero .zero .lit) (atWord (.gret .zero .zero .lit) 9 gatherS) (fun t => (gatherCall t.calls).map GatherFrame.results) = some (some [(0, 9)]) := by
  decide +kernel

/-- R331 to R334: TRAP enters the handler and BKPT halts without one; RETRY comes back to the trapping word, NEXT goes on behind its clause. -/
theorem test_traps : val (.trap .zero) trapS (fun t => (t.pc, t.handler)) = some (0x2000, some (0, 0)) ∧
    ((tblGet (next (.trap (.s 31)) trapS).areas 0).bind Area.record).map (fun r => (r.cls, r.pc, r.word)) = some (0x11, 0x1000, 2) ∧
    val (.bkpt (.s 31)) (mach team0) (fun t => (t.wait, t.halt.map Prod.fst)) = some (.halting, some 0x12) ∧
    val (.eret (.s 6)) handledS (fun t => (t.handler, t.pc, t.clause.map Clause.idx, t.retry)) = some (none, 0x1000, some 2, some 1) ∧
    val (.eret (.s 6)) (handledS.updTeam 0 (fun t => { t with sregs := t.sregs.set 6 2 })) (fun t => (t.handler, t.pc, t.clause)) = some (none, 0x100C, none) := by decide +kernel

/-- R335: YIELD ends its clause. -/
theorem test_yield : val .yield (mach team0) (fun t => (t.pc, t.clause)) = some (0x100C, none) := by decide +kernel

/-- R323, R324: members, arrivals, and the team asleep at the barrier. -/
theorem test_cohorts : ((next (.join (.s 2)) (unitS 0)).cohorts.map (fun c => (c.1, c.2.members, c.2.teams))) = [(0x200000, 1, [0])] ∧
    ((next (.leave (.s 2)) cohortS).cohorts.map (fun c => (c.2.members, c.2.teams))) = [(1, [1])] ∧
    ((next (.bar (.s 2)) cohortS).cohorts.map (fun c => (c.2.members, c.2.arrived))) = [(2, 1)] ∧
    val (.bar (.s 2)) cohortS Team.wait = some (.bar 0x200000 5 false) := by decide +kernel

/-- R325, R326: an empty queue keeps the request, QPUSH answers 1 and appends, a full queue answers 0. -/
theorem test_queues : val (.qpop (.s 16) (.s 2)) (queueS 0) (fun t => t.late.map LateOp.wait) = some [.qpop 0x200000] ∧
    val (.qpop (.s 16) (.s 2)) { queueS 1 with mem := Memory.write (queueS 1).mem 0x21003C 9 } (fun t => (lateS t).getLast?) = some (some (31, 9)) ∧
    val (.qpush (.s 7) (.s 2) (.s 4)) (queueS 1) lateS = some [(7, 1)] ∧ val (.qpush (.s 7) (.s 2) (.s 4)) (queueS 4) lateS = some [(7, 0)] ∧
    ((next (.qpush (.s 7) (.s 2) (.s 4)) (queueS 1)).queues.map (fun q => (q.2.head, q.2.tail))) = [(0, 2)] := by decide +kernel

/-- R327 to R330, R373: an ABSENT layer puts the team to sleep, a RESIDENT one is pinned, a FAILED one is a SWAP trap; LDONE takes one pin. -/
theorem test_layers : val (.lwait (.s 2)) (layerS 0x1000 0) Team.wait = some (.lwait 1 0) ∧
    val (.lwait (.s 2)) (layerS 0x1001 0) (fun t => (t.wait, t.pins)) = some (.none, [(0x1001, 1)]) ∧
    val (.lwait (.s 2)) (layerS 0x1002 0) (fun t => t.halt.map (fun h => (h.1, h.2.2.1))) = some (some (0x0F, 0x1002)) ∧
    val (.ldone (.s 2)) (layerS 0x1001 2) Team.pins = some [(0x1001, 1)] := by decide +kernel

/-- R281, R282: the handle is bound late; FETCH of index 0 reads the first element, of an index past the end the descriptor's out-of-bounds value 0. -/
theorem test_handles : val (.hbind .lit (.s 2)) (atWord (.hbind .lit (.s 2)) 14 handleS) (fun t => t.late.map LateOp.hbind) = some [some 14] ∧
    val (.fetch (.v 4) .lit a0) (atWord (.fetch (.v 4) .lit a0) 15 { handleS with mem := Memory.writes handleS.mem 0x210000 (bytesOf 4 0x55) })
      (fun t => (t.late.flatMap LateOp.vwrites).map (fun w => (w.1, w.2.1))) = some [(0, 4)] := by decide +kernel

/-- R86, R287 to R289: the card is accepted and PENDING; CPOLL reads COMPLETE, PENDING, FAULTED; CWAIT of a PENDING card does not complete. -/
theorem test_cards : val (.card (.s 7) (.s 2)) cardS (fun t => (lateS t, t.cards)) = some ([(7, 1)], [⟨1, 1⟩]) ∧
    (∀ k ∈ [0, 1, 2], val (.cpoll (.s 9) .lit) (atWord (.cpoll (.s 9) .lit) (BitVec.ofNat 32 (5 + k)) (mach ticketT)) lateS = some [(9, BitVec.ofNat 32 k)]) ∧
    val (.cwait .lit) (atWord (.cwait .lit) 5 (mach ticketT)) (fun t => t.clause) = some none ∧
    (val (.cwait .lit) (atWord (.cwait .lit) 6 (mach ticketT)) (fun t => t.clause.map Clause.idx) = some (some 1)) := by decide +kernel

/-- R303, R304: the batch number at once; MWAIT waits for batch 3, and takes the SCALE fault of batch 2. -/
theorem test_batches : val (.mbatch (.s 31)) matrixS (fun t => (t.sregs[31], t.batchNum)) = some (4, 4) ∧
    val (.mwait .lit) (atWord (.mwait .lit) 3 matrixS) (fun t => t.clause.map Clause.idx) = some (some 1) ∧
    val (.mwait .lit) (atWord (.mwait .lit) 1 matrixS) (fun t => t.clause) = some none := by decide +kernel

/-- R302, R167, R169, R300: an MLOOP joins the queue; an element 3 at scale 1 drains as 3.0, and -3 at scale 2 as -6.0; a tile that holds 1.0 quantises it to 64
at exponent 128; an odd register for a pair is ILLEGAL_OP. -/
theorem test_mloop : ((next (.mloop (.s 0)) matrixS).core 0).sequencer.map MLoop.ksteps = [1] := by decide +kernel
theorem test_mdrain : roundVal fmtFp32 0 false (drainVal (0x80808080 * 2 ^ 32 + 2 ^ 17 + 2 ^ 14 + 1) 3 0 1 (.fin false 1 0) (.fin false 1 0)).1 = (0x40400000, 0) ∧
    roundVal fmtFp32 0 false (drainVal (0x80808081 * 2 ^ 32 + 2 ^ 17 + 2 ^ 14 + 1) (-3) 0 31 (.fin false 1 0) (.fin false 1 0)).1 = (0xC0C00000, 0) := by decide +kernel
theorem test_mquant : chooseExp [.fin false 1 0, .fin false 0 0] = 128 ∧ quantise 0 8 128 (.fin false 1 0) = (64, 0) := by decide +kernel
theorem test_mzero : val (.mzero (.s 5) (.s 6)) matrixS (fun t => t.halt.map Prod.fst) = some (some 1) := by decide +kernel

/-- R201, R209, R210: RELEASE sends what was stored home and keeps the copies; ACQUIRE drops them. -/
theorem test_ordering : ((next .release lineS).core 0).out = [] ∧ ((next .fence lineS).core 0).out = [] ∧ (lineS.core 0).out ≠ [] := by decide +kernel

/-- R326, R327 of the locks: a free lock answers 1 to its new holder, QUNLOCK frees it. -/
theorem test_locks : val (.qlock (.s 7) (.s 2)) (unitS 0x40) lateS = some [(7, 1)] ∧
    ((next (.qlock (.s 7) (.s 2)) (unitS 0x40)).locks.map (fun l => (l.1, l.2.holder))) = [(0x200040, some 0)] ∧
    (tblGet (next (.qunlock (.s 2)) { unitS 8 with locks := [(0x200008, { holder := some 0, waiters := [] })] }).locks 0x200008).bind Lock.holder = none := by
  decide +kernel

/-- R98, R283: a hint to a page without a mapping is dropped and counted. -/
theorem test_hints : ((next (.pref a0 b2) (memS 0xE000 0x80000)).core 0).hintdrop = 1 ∧ ((next (.reshint a0 b2) (memS 0xE000 0x30000)).core 0).hintdrop = 0 := by
  decide +kernel

/-- R251: mask m1 of withS is 5, in the first of its 128 bytes. -/
theorem test_msave : Memory.reads ((next (.msave 1 (.s 2)) (mach maskT)).core 0).scratch 640 2 = [5, 0] := by decide +kernel

/-- R145: the ring of the window goes into slot 0 and its table is being built. -/
theorem test_ringld : val (.ringld .zero (.s 2)) ringWindow (fun t => t.rings.head?.map (fun r => r.map (fun x => (x.form, x.points.length, x.building)))) =
    some (some (some (0, 7, true))) := by decide +kernel

/-! ## Steps without a word -/

/-- R343: a completed FENCE moves RPTR by its 8 bytes and the expected SEQ by one; R338, R346: a SIGNAL without a capability halts with STATUS 4 and the field's offset as DETAIL. -/
theorem test_packets : (tblGet (stepped { ringS (words8 [hdr8 9 1]) [] with agenda := [.fencePacket 0] }).rings 0).map
      (fun r => (r.rptr, r.seq, r.status, r.flight)) = some (8, 1, 0, []) ∧
    (tblGet (stepped { ringS (words8 [hdr8 4 3, 0x30008, 5]) [] with rings := [(0, { ringR 24 with caps := [] })], agenda := [.signal 0] }).rings 0).map
      (fun r => (r.rptr, r.status, r.detail)) = some (0, 4, 8) := by decide +kernel

/-- R390, R395: MEM_WRITE and its answer; R411: a halted device drops it. -/
theorem test_messages : (homeRead (next .memWrite (msgS (msgOf 2 0 0x30010 [7, 8]))) 0x200010 2).1 = 0x807 ∧
    (next .memWrite (msgS (msgOf 2 0 0x30010 [7, 8]))).sent.map (fun m => (m.dest, m.op, m.status)) = [(7, 2, 0)] ∧
    (next .memRead (msgS (readMsg 0x80000 4))).waiting.length = 1 := by decide +kernel

/-- R413: a tamper alarm erases the key and halts. FIPS 202: the digest of the empty message, whose first bytes are a6 9f 73 cc. -/
theorem test_trust : (next .tamper State.reset).trust.erased = true ∧ (next .tamper State.reset).trust.halted = true ∧ (next .junction105c State.reset).trust.halted = false ∧
    (sha3 []).toNat % 2 ^ 32 = 0xCC739FA6 := by decide +kernel

/-- R389: a port leaves the set. -/
theorem test_ports : (next (.portDown 15) { State.reset with ports := 0xFFFF }).ports = 0x7FFF ∧ (next (.portTrained 0) { State.reset with ports := 0 }).ports = 1 := by
  decide +kernel

/-- R19: a store that covers a poisoned line clears the poison, whichever policy it goes by, and is home whole. -/
theorem test_covering_stores : linePoisoned (next (.registration 0 0) coverS) 0x4000 = false ∧ linePoisoned (next (.homeWriteAcknowledgment 0 32) coverS) 0x4200 = false ∧
    Memory.reads (next (.homeWriteAcknowledgment 0 32) coverS).mem 0x21007E 2 = [3, 4] ∧ ((next (.registration 0 0) coverS).own.map Prod.fst).length = 32 := by decide +kernel

/-- R196, R199: a lane that fetches sees the COHERENT store that it made, whose registration is still queued. -/
theorem test_fetch_sees_own_store :
    let s := missS.updCore 0 (fun c => { c with l1 := [outLine], out := [{ team := 0, instr := 0, slot := 0, va := 0x30000, work := .registration 0x80000 15, counted := false }] })
    (fetchBytes s (fetchT missDesc 0).cfg 0x30000 4).1.2 = some 0x04030201 := by decide +kernel

/-- R19, R344: the poisoned word of a WAIT satisfies no condition; its ring halts. -/
theorem test_wait_poisoned :
    (tblGet (next (.waitSatisfied 0) { busyS (.wait noFlight 0x30008 (.home 0x200008) 0 2) with poison := [0x4000] }).rings 0).map (fun r => (r.status, r.detail)) =
      some (haltFault, 8) := by decide +kernel

end Sys2Proof.Tests
end

section
/-! PROOFS. Fault records (R70, R379, R394): how an access of a record is judged again, what FAULT_RESOLUTION leaves, and what the CONSUMED write does. -/

namespace Sys2Proof.Machine

/-! ## Records of a translation unit -/

theorem getElem?_setNth_self {α : Type} {l : List α} {k : Nat} {x : α} (h : l[k]? = some x) (y : α) : (setNth l k y)[k]? = some y := by
  induction l generalizing k with
  | nil => simp at h
  | cons z rest ih =>
    cases k with
    | zero => rfl
    | succ k => exact ih (by simpa using h)

theorem getElem?_setNth_ne {α : Type} (l : List α) {k j : Nat} (h : j ≠ k) (y : α) : (setNth l k y)[j]? = l[j]? := by
  induction l generalizing k j with
  | nil => rfl
  | cons z rest ih =>
    cases k with
    | zero =>
      cases j with
      | zero => exact absurd rfl h
      | succ j => rfl
    | succ k =>
      cases j with
      | zero => rfl
      | succ j => simpa [setNth] using ih (by omega)

theorem recs_setRec_self {s : State} {cl ix : Nat} {r : FaultRec} (h : (s.cluster cl).recs[ix]? = some r) (x : FaultRec) :
    ((setRec s cl ix x).cluster cl).recs[ix]? = some x := by simp [setRec, getElem?_setNth_self h]

theorem recs_setRec_ne (s : State) (cl : Nat) {ix j : Nat} (h : j ≠ ix) (x : FaultRec) :
    ((setRec s cl ix x).cluster cl).recs[j]? = (s.cluster cl).recs[j]? := by simp [setRec, getElem?_setNth_ne _ h]

/-! ## One access walked again (R394, steps 1 and 2) -/

theorem exists_area_iff (z : State) (ctx half : Nat) :
    z.areas.any (fun x => decide (x.2.ctx = ctx) && decide (recordBase x.1 / 32768 = half)) = true ↔
      ∃ x ∈ z.areas, x.2.ctx = ctx ∧ recordBase x.1 / 32768 = half := by simp [List.any_eq_true]

/-- An area of the context is read-only (R379). -/
theorem recordFate_area {z : State} {ctx : Nat} {a : Access} (h : ∃ x ∈ z.areas, x.2.ctx = ctx ∧ recordBase x.1 / 32768 = a.half) :
    recordFate z ctx a = if a.need.w = true ∨ a.need.x = true then .left .permission else .resolved := by
  unfold recordFate
  rw [if_pos ((exists_area_iff z ctx a.half).mpr h)]
  simp only [Bool.or_eq_true]

/-- Beyond the areas of the context nothing is mapped. -/
theorem recordFate_beyond {z : State} {ctx : Nat} {a : Access} (h : ∀ x ∈ z.areas, x.2.ctx = ctx → recordBase x.1 / 32768 ≠ a.half) :
    recordFate z ctx a = .left .invalidAddr := by
  unfold recordFate
  rw [if_neg (fun hx => ?_)]
  obtain ⟨x, hm, hc, hb⟩ := (exists_area_iff z ctx a.half).mp hx
  exact h x hm hc hb

theorem resolveAccess_record {z : State} {ctx : Nat} {a : Access} (h : isRecordVa (32768 * a.half) = true) :
    resolveAccess z ctx a = (recordFate z ctx a, z) := by
  simp [resolveAccess, walkAgain, h]

/-- What a leaf lacks for a need, by its permission bits (R57, R60). -/
theorem entryLacks_leaf (ctx va e low : Nat) (dirty : Bool) (n : Need) :
    entryLacks (entryOfLeaf ctx va e low dirty) n = true ↔
      (n.r = true ∧ bits e 2 2 = 0) ∨ (n.w = true ∧ bits e 3 3 = 0) ∨ (n.x = true ∧ bits e 4 4 = 0) := by
  have hbit : ∀ k, bits e k k ≠ 1 ↔ bits e k k = 0 := fun k => by
    have : bits e k k < 2 := by unfold bits; rw [Nat.add_sub_cancel_left]; exact Nat.mod_lt _ (by decide)
    omega
  simp [entryLacks, entryOfLeaf, hbit, or_assoc]

theorem walkAgain_leaf {z z1 : State} {ctx : Nat} {a : Access} {e pa low : Nat} (h : isRecordVa (32768 * a.half) = false)
    (hw : walk z ctx (32768 * a.half) = (.leaf e pa low, z1)) :
    walkAgain z ctx a =
      (if entryLacks (entryOfLeaf ctx (32768 * a.half) e low false) a.need then .left .permission else .resolved, z1) := by
  simp [walkAgain, h, hw]

theorem walkAgain_notPresent {z z1 : State} {ctx : Nat} {a : Access} (h : isRecordVa (32768 * a.half) = false)
    (hw : walk z ctx (32768 * a.half) = (.notPresent, z1)) : walkAgain z ctx a = (.left .invalidAddr, z1) := by
  simp [walkAgain, h, hw]

/-- A leaf that lacks a permission leaves the access with PERMISSION; any other resolves it. -/
theorem resolveAccess_leaf {z z1 : State} {ctx : Nat} {a : Access} {e pa low : Nat} (h : isRecordVa (32768 * a.half) = false)
    (hw : walk z ctx (32768 * a.half) = (.leaf e pa low, z1)) :
    resolveAccess z ctx a =
      (if entryLacks (entryOfLeaf ctx (32768 * a.half) e low false) a.need then .left .permission else .resolved, z1) := by
  unfold resolveAccess
  simp only [walkAgain_leaf h hw]
  cases entryLacks (entryOfLeaf ctx (32768 * a.half) e low false) a.need <;> rfl

/-- A page that is not present takes a frame of the demand range that covers it, where there is one (R394, step 2). -/
theorem resolveAccess_notPresent {z z1 : State} {ctx : Nat} {a : Access} (h : isRecordVa (32768 * a.half) = false)
    (hw : walk z ctx (32768 * a.half) = (.notPresent, z1)) :
    (demandOf z1 ctx (32768 * a.half) = none → resolveAccess z ctx a = (.left .invalidAddr, z1)) ∧
    (∀ d, demandOf z1 ctx (32768 * a.half) = some d →
      (mapDemand z1 ctx (32768 * a.half) d = none → resolveAccess z ctx a = (.waits, z1)) ∧
      ∀ z2, mapDemand z1 ctx (32768 * a.half) d = some z2 → resolveAccess z ctx a = (.resolved, z2)) := by
  unfold resolveAccess
  simp only [walkAgain_notPresent h hw]
  refine ⟨fun hd => ?_, fun d hd => ⟨fun hm => ?_, fun z2 hm => ?_⟩⟩
  · simp [h, hd]
  · simp [h, hd, hm]
  · simp [h, hd, hm]

/-! ## FAULT_RESOLUTION (R394) -/

theorem exec_faultResolution {s : State} (h : s.trust.halted = false) (cl ix : Nat) :
    exec (.faultResolution cl ix) s = .next (resolveRecord s cl ix) := by
  show Host.Outcome.next (if s.trust.halted then s else resolveRecord s cl ix) = _
  rw [h]; rfl

section Resolution
variable {s s1 : State} {cl ix : Nat} {r r1 : FaultRec} {ms : List (Access × TrapClass)}

/-- The accesses that a host can be asked about: those outside the trap record range (R379). -/
def askable (ms : List (Access × TrapClass)) : List Access := (ms.map Prod.fst).filter (fun a => !isRecordVa (32768 * a.half))

theorem askable_eq_nil : askable ms = [] ↔ ∀ m ∈ ms, isRecordVa (32768 * m.1.half) = true := by
  simp [askable, List.filter_eq_nil_iff]

/-- The host of a context takes faults. -/
def hostTakes (s : State) (ctx : Nat) : Bool := ((tblGet s.ctxs ctx).map CtxBinding.hostFault).getD false

/-- The state in which a record's accesses have been put to the host in one FAULT_NOTICE. -/
def noticed (s1 : State) (cl ix : Nat) (r r1 : FaultRec) (ms : List (Access × TrapClass)) : State :=
  let s2 := setRec s1 cl ix { r1 with notice := true, accs := ms.map Prod.fst }
  { s2 with
    notices := s2.notices ++ [{ cluster := cl, ix := ix, ctx := r.ctx, block := r.block, pages := pagesOfAccs (askable ms) }],
    sent := s2.sent ++ [{ dest := ((tblGet s1.ctxs r.ctx).map CtxBinding.endpoint).getD 0, op := 7, sub := 0, ctx := r.ctx, tag := 0, status := 0,
                          length := 16, addr := r.block * 2 ^ 22, payload := bytesOf 16 (recordWord r) }] }

/-- An OPEN record that is neither handled nor put to the host: its accesses are resolved, and it waits, is put to the host, or is handled. -/
theorem resolveRecord_open {w : Bool} (hr : (s.cluster cl).recs[ix]? = some r) (ho : r.state = 1) (hh : r.handled = none) (hn : r.notice = false)
    (hq : resolveAll r.ctx (recordAccesses r) s = ((ms, w), s1)) (hr1 : (s1.cluster cl).recs[ix]? = some r1) :
    resolveRecord s cl ix =
      if w then s1
      else if askable ms ≠ [] ∧ hostTakes s1 r.ctx = true then noticed s1 cl ix r r1 ms
      else setRec s1 cl ix { r1 with handled := some r.pages, marks := ms } := by
  unfold resolveRecord
  simp only [hr, ho, hh, hn, hq, hr1]
  rfl

/-- A record of which a page waits for a frame stays as the resolution leaves it. -/
theorem resolveRecord_waits (hr : (s.cluster cl).recs[ix]? = some r) (ho : r.state = 1) (hh : r.handled = none) (hn : r.notice = false)
    (hw : (resolveAll r.ctx (recordAccesses r) s).1.2 = true)
    (hr1 : ((resolveAll r.ctx (recordAccesses r) s).2.cluster cl).recs[ix]?.isSome = true) :
    resolveRecord s cl ix = (resolveAll r.ctx (recordAccesses r) s).2 := by
  obtain ⟨r1, hr1⟩ := Option.isSome_iff_exists.mp hr1
  have hq : resolveAll r.ctx (recordAccesses r) s =
      (((resolveAll r.ctx (recordAccesses r) s).1.1, true), (resolveAll r.ctx (recordAccesses r) s).2) := Prod.ext (Prod.ext rfl hw) rfl
  rw [resolveRecord_open hr ho hh hn hq hr1, if_pos rfl]

/-- Accesses that no host is asked about are marked, and the PAGES value handled is kept. -/
theorem resolveRecord_handled (hr : (s.cluster cl).recs[ix]? = some r) (ho : r.state = 1) (hh : r.handled = none) (hn : r.notice = false)
    (hq : resolveAll r.ctx (recordAccesses r) s = ((ms, false), s1)) (hr1 : (s1.cluster cl).recs[ix]? = some r1)
    (hask : (∀ m ∈ ms, isRecordVa (32768 * m.1.half) = true) ∨ ∀ b, tblGet s1.ctxs r.ctx = some b → b.hostFault = false) :
    resolveRecord s cl ix = setRec s1 cl ix { r1 with handled := some r.pages, marks := ms } := by
  rw [resolveRecord_open hr ho hh hn hq hr1, if_neg (by decide), if_neg]
  rintro ⟨hne, htakes⟩
  rcases hask with hrec | hhost
  · exact hne (askable_eq_nil.mpr hrec)
  · cases hg : tblGet s1.ctxs r.ctx with
    | none => simp [hostTakes, hg] at htakes
    | some b => simp [hostTakes, hg, hhost b hg] at htakes

/-- Pages left to a host that takes faults are put to it. -/
theorem resolveRecord_asks {b : CtxBinding} (hr : (s.cluster cl).recs[ix]? = some r) (ho : r.state = 1) (hh : r.handled = none)
    (hn : r.notice = false) (hq : resolveAll r.ctx (recordAccesses r) s = ((ms, false), s1)) (hr1 : (s1.cluster cl).recs[ix]? = some r1)
    (hsome : ∃ m ∈ ms, isRecordVa (32768 * m.1.half) = false) (hb : tblGet s1.ctxs r.ctx = some b) (hf : b.hostFault = true) :
    resolveRecord s cl ix = noticed s1 cl ix r r1 ms := by
  have hask : askable ms ≠ [] := fun hnil => by
    obtain ⟨m, hm, hv⟩ := hsome
    rw [askable_eq_nil.mp hnil m hm] at hv
    cases hv
  have htakes : hostTakes s1 r.ctx = true := by simp [hostTakes, hb, hf]
  rw [resolveRecord_open hr ho hh hn hq hr1, if_neg (by decide), if_pos ⟨hask, htakes⟩]

end Resolution

/-- The notice of the host (R394): one message is sent, and the record waits for the reply with the accesses that are left. -/
theorem noticed_sends {s1 : State} {cl ix : Nat} {r r1 : FaultRec} {ms : List (Access × TrapClass)} {b : CtxBinding}
    (hb : tblGet s1.ctxs r.ctx = some b) (hr1 : (s1.cluster cl).recs[ix]? = some r1) :
    (noticed s1 cl ix r r1 ms).sent = s1.sent ++ [{ dest := b.endpoint, op := 7, sub := 0, ctx := r.ctx, tag := 0, status := 0,
                                                             length := 16, addr := r.block * 2 ^ 22, payload := bytesOf 16 (recordWord r) }] ∧
    ((noticed s1 cl ix r r1 ms).cluster cl).recs[ix]? = some { r1 with notice := true, accs := ms.map Prod.fst } := by
  refine ⟨?_, recs_setRec_self hr1 _⟩
  unfold noticed
  rw [hb]
  rfl

/-! ## The CONSUMED write (R70) where nothing is parked or waits -/

theorem exec_faultRecordConsume {s : State} (h : s.trust.halted = false) (cl ix : Nat) :
    exec (.faultRecordConsume cl ix) s = .next (consumeRecord s cl ix) := by
  show Host.Outcome.next (if s.trust.halted then s else consumeRecord s cl ix) = _
  rw [h]; rfl

/-- Marks reach parked teams only. -/
theorem markTeams_of_noneParked {s : State} (h : NoneParked s) (cl ctx : Nat) (marks : List (Access × TrapClass)) : markTeams s cl ctx marks = s := by
  unfold markTeams
  have hmap : ∀ ut ∈ s.teams, (if ut.2.cfg.core / 8 = cl ∧ ut.2.cfg.ctx = ctx then
      (ut.1, { ut.2 with parked := ut.2.parked.map (fun p => { p with marks := p.marks ++ marks.filter (fun m =>
        p.cause.any (fun c => decide (c = .page m.1))) }) }) else ut) = ut := fun ut hut => by
    rw [h ut hut]
    split
    · have hp := h ut hut
      obtain ⟨u, t⟩ := ut
      cases t
      simp_all
    · rfl
  rw [List.map_congr_left hmap, List.map_id']

/-- Nothing replays where no team is parked. -/
theorem replayWhere_of_noneParked {s : State} (h : NoneParked s) (p : Nat → Team → ParkCause → Bool) : replayWhere s p = s := by
  unfold replayWhere
  refine List.foldl_fixed' (fun u => ?_) _
  cases hg : tblGet s.teams u with
  | none => rfl
  | some t =>
    have hp : t.parked = none := h _ (mem_of_tblGet hg)
    simp only [hp]

theorem settleAsks_of_ne {cl : Nat} (h : cl ≠ sconceUnit) (s : State) (ctx : Nat) (ps : List Nat) (marks : List (Access × TrapClass)) :
    settleAsks s cl ctx ps marks = s := if_neg h

theorem resumeSconce_of_ne {cl : Nat} (h : cl ≠ sconceUnit) (s : State) (p : Nat → Nat → Bool) : resumeSconce s cl p = s := if_neg h

theorem faultCards_of_no_cards {s : State} (h : s.cards = []) (cl ctx : Nat) (marks : List (Access × TrapClass)) : faultCards s cl ctx marks = s := by
  simp [faultCards, cardsMarked, h]

theorem settleRings_of_no_rings {s : State} (h : s.rings = []) : settleRings s = s := by simp [settleRings, h]

theorem serveQueues_of_no_queues {s : State} (h : s.queues = []) : serveQueues s = s := by simp [serveQueues, h]

section Consume
variable {s : State} {cl ix : Nat} {r : FaultRec} {p : BitVec 64}

/-- PAGES have changed since they were handled: the record stays OPEN, to be handled again. -/
theorem consumeRecord_changed (hr : (s.cluster cl).recs[ix]? = some r) (ho : r.state = 1) (hh : r.handled = some p) (hp : p ≠ r.pages) :
    consumeRecord s cl ix = setRec s cl ix { r with handled := none, marks := [], notice := false } := by
  simp [consumeRecord, hr, ho, hh, hp]

/-- Nothing is parked, and no card, ring or queue waits for a page. -/
structure NothingWaits (s : State) : Prop where
  parked : NoneParked s
  cards : s.cards = []
  rings : s.rings = []
  queues : s.queues = []

theorem NothingWaits.setRec (h : NothingWaits s) (cl ix : Nat) (x : FaultRec) : NothingWaits (setRec s cl ix x) := ⟨h.parked, h.cards, h.rings, h.queues⟩

/-- PAGES are as they were handled, and nothing waits for them: the record is FREE, by way of CONSUMED. -/
theorem consumeRecord_freed (hr : (s.cluster cl).recs[ix]? = some r) (ho : r.state = 1) (hh : r.handled = some r.pages) (hcl : cl ≠ sconceUnit)
    (hw : NothingWaits s) : consumeRecord s cl ix = setRec (setRec s cl ix { r with state := 2 }) cl ix FaultRec.reset := by
  have h1 := hw.setRec cl ix { r with state := 2 }
  have h2 := h1.setRec cl ix FaultRec.reset
  rw [hh] at h1 h2 ⊢
  unfold consumeRecord
  simp only [hr, hh, ho, ne_eq, not_true_eq_false, if_false, markTeams_of_noneParked h1.parked, settleAsks_of_ne hcl,
    replayWhere_of_noneParked h1.parked, faultCards_of_no_cards h1.cards, settleRings_of_no_rings h1.rings, replayWhere_of_noneParked h2.parked,
    serveQueues_of_no_queues h2.queues, resumeSconce_of_ne hcl]

end Consume

/-! ## The statement -/

/-- Settles O43: the judgement of one access, then FAULT_RESOLUTION on its answers, then the CONSUMED write. -/
theorem faultRecordsAreResolvedAndConsumed : Obligations.FaultRecordsAreResolvedAndConsumed := by
  unfold Obligations.FaultRecordsAreResolvedAndConsumed
  refine ⟨fun z ctx a => ⟨fun hv => ⟨resolveAccess_record hv, recordFate_area, recordFate_beyond⟩,
      fun z1 hv => ⟨fun e pa low hw => ?_, resolveAccess_notPresent hv⟩⟩,
    fun s cl ix r hrun hr ho => ⟨fun s1 r1 ms hh hn hq hr1 => ⟨fun hnone => ?_, fun b hsome hb hf => ?_⟩, fun s1 hh hn hw hs1 hr1 => ?_,
      fun p hh => ⟨fun hp => ?_, fun hp hcl hpk hc hrg hqu _ => ?_⟩⟩⟩
  · rw [resolveAccess_leaf hv hw, ← entryLacks_leaf ctx (32768 * a.half) e low false a.need]
    exact ⟨fun hl => by rw [if_pos hl], fun hl => by rw [if_neg hl]⟩
  · rw [exec_faultResolution hrun, resolveRecord_handled hr ho hh hn hq hr1 hnone]
  · obtain ⟨hsent, hrec⟩ := noticed_sends (ms := ms) (ix := ix) hb hr1
    exact ⟨_, by rw [exec_faultResolution hrun, resolveRecord_asks hr ho hh hn hq hr1 hsome hb hf], hsent, _, hrec, rfl, rfl, rfl, rfl⟩
  · subst hs1
    rw [exec_faultResolution hrun, resolveRecord_waits hr ho hh hn hw hr1]
  · rw [exec_faultRecordConsume hrun, consumeRecord_changed hr ho hh hp]
  · subst hp
    refine ⟨_, by rw [exec_faultRecordConsume hrun, consumeRecord_freed hr ho hh hcl ⟨hpk, hc, hrg, hqu⟩], recs_setRec_self (recs_setRec_self hr _) _,
      fun j hj => by rw [recs_setRec_ne _ _ hj, recs_setRec_ne _ _ hj], rfl⟩

end Sys2Proof.Machine
end

section
/-! PROOFS. Loads of a page that is not COHERENT, where the translated address lies otherwise in its line than the virtual one: a machine on which the load
drops a clean copy of its core in the next line (R64), where a load at home alone would keep it. -/

namespace Sys2Proof.Machine

/-- The cores of a state are what they were when its team goes on to the next word. -/
theorem core_stepOn (s : State) (u c : Nat) : (stepOn s u).core c = s.core c := by
  unfold stepOn State.updTeam
  split <;> rfl

/-- The first level of a core in the state an outcome goes on in. -/
def firstLevelAfter (o : Host.Outcome State Fault Refusal) (c : Nat) : Option (List L1Line) :=
  match o with
  | .next s => some (s.core c).l1
  | _ => none

theorem firstLevelAfter_stepOn (s : State) (u c : Nat) : firstLevelAfter (.next (stepOn s u)) c = some (s.core c).l1 := by
  simp only [firstLevelAfter, core_stepOn]

/-! ## The machine: a DIRECT entry of the TLB that gives address 0 the physical address 126 -/

def straddleClause : Clause := { header := 0x1000, words := [0], idx := 1, reads := 0, others := 1, target := [] }

/-- A team of one lane on core 0. -/
def straddleTeam : Team :=
  { newTeam 0 { ring := 0, seq := 0, ctx := 0, entry := 0x1000, args := 0, handler := none, fsbase := 0, fssize := 0, savebase := 0, teams := 1, lanes := 1,
                capacity := 32, span := 32, budget := 16, scratch := 0, rings := 0, prio := 0, fuse := false, model := none, placed := 0, ended := 0,
                clusters := [] } 0 0 0 with clause := some straddleClause }

/-- An entry for address 0 whose frame starts 2 bytes before the end of line 0. -/
def straddleEntry : TlbEntry :=
  { ctx := 0, vbase := 0, bits := 16, pbase := 126, r := true, w := false, x := false, policy := .direct, peer := none, layer := none, dirty := false }

/-- A clean line of the core, the physical line 1, of which the core owns the first word. -/
def straddleLine : L1Line :=
  { vline := 0x1000, ctx := 0, pline := 1, r := true, w := true, policy := .coherent, valid := BitVec.allOnes 128, dirty := 0, owned := 1, data := 0,
    layer := none, bad := 0, team := 0 }

def straddleS : State :=
  { State.reset with
    teams := [(0, straddleTeam)], cur := some 0, own := [(32, 0)], clusters := [(0, { Cluster.reset with tlb := [straddleEntry] })],
    cores := [(0, { Core.reset with l1 := [straddleLine] })] }

/-- LD of s0 at address 0. -/
def straddleRow : MemRow := (loadRows straddleTeam straddleClause.lit (.s 0) .zero .zero).head (List.cons_ne_nil _ _)

theorem straddleRow_mem : straddleRow ∈ loadRows straddleTeam straddleClause.lit (.s 0) .zero .zero := List.head_mem _

/-- What the entry makes of address 0. -/
def straddleMap : Mapping := { pa := 126, r := true, w := false, policy := .direct, peer := none, layer := none, record := none }

/-- The state in which the load is made. -/
def straddleReached : State :=
  (reachLine (accessFrom straddleS 0 straddleTeam straddleClause straddleRow) straddleTeam.cfg 0 straddleRow.op.size needR false).2

theorem straddle_issuing : Issuing straddleS 0 straddleTeam straddleClause := ⟨rfl, rfl, rfl, rfl, rfl⟩

theorem straddle_ready : MemReady straddleTeam straddleClause straddleRow :=
  ⟨⟨by decide +kernel, by decide +kernel, rfl⟩, by unfold Unpoisoned; decide +kernel, rfl, fun _ => by decide +kernel⟩

theorem straddle_accesses : accessesOf straddleTeam straddleRow.op.uniform straddleRow.lane = [{ slot := 0, ea := 0, data := 0, cmp := 0 }] := by
  decide +kernel

theorem straddle_plain : PlainAccess 0 straddleRow.op.size := by unfold PlainAccess; decide +kernel

theorem straddle_reach :
    reachLine (accessFrom straddleS 0 straddleTeam straddleClause straddleRow) straddleTeam.cfg 0 straddleRow.op.size needR false =
      (.ok straddleMap, straddleReached) := Prod.ext (by decide +kernel) rfl

theorem straddle_core : straddleReached.core (l1Core straddleTeam.cfg 0) = { Core.reset with l1 := [straddleLine] } := by decide +kernel

theorem straddle_free : FreeLine straddleReached straddleTeam 0 straddleMap.pa := by
  unfold FreeLine
  rw [straddle_core]
  decide +kernel

theorem straddle_nothingOut : NothingOut straddleReached (l1Core straddleTeam.cfg 0) (straddleMap.pa / 128) := by
  unfold NothingOut
  rw [straddle_core]
  decide +kernel

theorem straddle_unpoisoned :
    poisonedRange (homeLoad straddleReached straddleMap.pa straddleRow.op.size).2 straddleMap.pa straddleRow.op.size = false := by decide +kernel

/-- The load invalidates the copy of the word that lies in line 1, whose words it reads at home; a load at home keeps it valid. -/
theorem straddle_copy_dropped :
    firstLevelAfter (exec straddleRow.instr straddleS) (l1Core straddleTeam.cfg 0) ≠
      some ((homeLoad straddleReached straddleMap.pa straddleRow.op.size).2.core (l1Core straddleTeam.cfg 0)).l1 := by decide +kernel

/-! ## The statement -/

/-- Refutes O22, in its clause on loads through a STREAM, DIRECT or ACCUM page of which the first level holds no copy: alone among the clauses on pages it does
not say that the physical address lies in its line where the virtual one does, so that the access may reach into the next line, where the core's copy of an
owned word is pulled by a load at home but invalidated by a DIRECT load (R64). The counterexample is an entry of the TLB that no walk installs: address 0 at
the physical address 126, a load of 4 bytes there, and line 1 held with its first word owned. -/
theorem not_loadsAndStoresReachTheirBytes : ¬ Obligations.LoadsAndStoresReachTheirBytes := by
  unfold Obligations.LoadsAndStoresReachTheirBytes
  rintro ⟨-, -, -, -, -, hload, -⟩
  obtain ⟨hfree, -, -⟩ := hload _ _ _ _ _ _ _ _ _ _ _ straddle_issuing straddleRow_mem straddle_ready straddle_accesses straddle_plain straddle_reach rfl
  obtain ⟨⟨s2, t2, o, hexec, -, -, -, -, -, hl1, -⟩, -⟩ := hfree rfl (by decide) straddle_free straddle_nothingOut straddle_unpoisoned
  refine straddle_copy_dropped ?_
  calc firstLevelAfter (exec straddleRow.instr straddleS) _
      = firstLevelAfter (.next (stepOn s2 0)) _ := congrArg (firstLevelAfter · _) hexec
    _ = some (s2.core _).l1 := firstLevelAfter_stepOn s2 0 _
    _ = some ((homeLoad straddleReached straddleMap.pa straddleRow.op.size).2.core _).l1 := congrArg some hl1

end Sys2Proof.Machine
end

section
/-! PROOFS. A card that its work leaves held at a page, on a machine on which a ring has a packet in flight that is complete: CARD_COMPLETE finishes the packet
too (R343), where the statement has the card's own change alone. -/

namespace Sys2Proof.Machine

/-- The packets in flight of a ring in the state an outcome goes on in. -/
def flightAfter (o : Host.Outcome State Fault Refusal) (k : Nat) : Option (List InFlight) :=
  match o with
  | .next s => (tblGet s.rings k).map CmdRing.flight
  | _ => none

theorem exec_cardComplete (i : Nat) (s : State) :
    exec (.cardComplete i) s = .next (if s.trust.halted then s else settleRings (completeCard s i)) := rfl

theorem eq_of_fst_eq {α β γ : Type} {p : α × β × γ} {x : α} (h : p.1 = x) : p = (x, p.2.1, p.2.2) := by subst h; rfl

/-! ## The machine: one started card, one ring -/

/-- COPY of one byte from address 0 to address 0, which no page of context 0 maps: LEN, CNT1 and CNT2 are 1. -/
def unmappedCard : Card :=
  { id := 0, bits := BitVec.ofNat 2048 (2 ^ (8 * 0x20) + 2 ^ (8 * 0x24) + 2 ^ (8 * 0x28)), ctx := 0, core := 0, team := none, ring := none, ticket := 1,
    status := 1, started := true, pins := [], after := [], afterLoops := [], spbase := 0, spsize := 0, row := 0, got := [], put := 0 }

/-- A LAUNCH packet whose launch has ended. -/
def endedPacket : InFlight := { seq := 1, kind := 1, notify := false, launch := some 0, card := none, mslot := none }

def endedRing : CmdRing :=
  { ctx := 0, rcb := 0x30000, base := 0x41000, size := 4096, maxprio := 47, comp := 0x30040, notifyq := 0x30080, caps := [], endpoint := 7, wptr := 0,
    rptr := 0, seq := 0, status := 0, detail := 0, flight := [endedPacket], busy := .none, entries := [], compRptr := 0, compWptr := 0, compBase := 0x32000,
    compSize := 4096 }

def heldCardS : State := { State.reset with cards := [unmappedCard], rings := [(0, endedRing)] }

/-- What the card's work comes to: the card is held at the page of address 0. -/
theorem runCard_unmappedCard : (runCard heldCardS unmappedCard).1 = .fault (accessOf 0 needR) := by decide +kernel

/-- CARD_COMPLETE takes the packet out of the ring. -/
theorem flightAfter_cardComplete : flightAfter (exec (.cardComplete 0) heldCardS) 0 = some [] := by decide +kernel

/-- The card's own change leaves it there. -/
theorem flightAfter_updCard :
    flightAfter (.next (updCard (runCard heldCardS unmappedCard).2.2 0 (fun _ => (runCard heldCardS unmappedCard).2.1))) 0 = some [endedPacket] := by
  decide +kernel

/-! ## The statement -/

/-- Refutes O46, in its clause on a card that its work leaves at a page: CARD_COMPLETE also finishes what the rings have complete (R343), and the clause, unlike
the one on a card in its submitter's scratchpad, does not say that there is no ring. The counterexample is a card whose source no page maps, beside a ring with a
packet in flight whose launch has ended. -/
theorem not_cardsAndFlushesRun : ¬ Obligations.CardsAndFlushesRun := by
  unfold Obligations.CardsAndFlushesRun
  intro h
  obtain ⟨hcards, -⟩ := h heldCardS rfl
  obtain ⟨-, hcomplete, -⟩ := hcards 0 unmappedCard rfl
  obtain ⟨-, hfault, -⟩ := hcomplete (runCard heldCardS unmappedCard).2.2 (runCard heldCardS unmappedCard).2.1 rfl rfl
  have hexec := hfault (accessOf 0 needR) (eq_of_fst_eq runCard_unmappedCard)
  have hflight : some [] = some [endedPacket] := by rw [← flightAfter_cardComplete, hexec, flightAfter_updCard]
  simp at hflight

end Sys2Proof.Machine
end

section
/-! PROOFS. Memory instructions at issue: every load, store and atomic is the one body memBody on the row that names it, and its issue ends as its settled
lanes end; a hint is done whatever becomes of its addresses. -/

namespace Sys2Proof.Machine

/-! ## Addresses and accesses -/

/-- The address of R272 is the sum of a 64-bit base and a sign-extended offset. -/
theorem effAddr_eq (a b : Nat) : effAddr a b = (BitVec.ofNat 64 a + (BitVec.ofNat 32 b).signExtend 64).toNat := by
  rw [BitVec.toNat_add, BitVec.toNat_signExtend, BitVec.toNat_ofNat, BitVec.toNat_setWidth, BitVec.toNat_ofNat, BitVec.msb_eq_decide, BitVec.toNat_ofNat]
  unfold effAddr wrapNat sextInt
  by_cases h : b % 2 ^ 32 < 2 ^ 31
  · rw [if_pos h, if_neg (by simpa using h)]
    omega
  · rw [if_neg h, if_pos (by simpa using h)]
    omega

theorem addrOf_eq {x : Issue} {t : Team} {c : Clause} (ht : x.t = t) (hl : x.lit = c.lit) (k : Nat) (a b : Sel) : addrOf x k a b = eaOf t c.lit a b k := by
  unfold addrOf eaOf Issue.val
  rw [effAddr_eq, ht, hl]

theorem localAddr_eq {x : Issue} {t : Team} {c : Clause} (ht : x.t = t) (hl : x.lit = c.lit) (k : Nat) (a b : Sel) :
    localAddr x k a b = localEa t c.lit a b k := by
  unfold localAddr localEa Issue.val
  rw [ht, hl]

theorem accesses_eq {x : Issue} {t : Team} (ht : x.t = t) (ha : x.active = lanesOn t) (once : Bool) (f : Nat → LaneAcc) :
    accesses x once f = accessesOf t once f := by
  unfold accesses accessesOf lowestLane lowestOf
  rw [ht, ha]

theorem readsFlag_eq {x : Issue} {t : Team} {c : Clause} (ht : x.t = t) (hc : t.clause = some c) : readsFlag x = c.reads := by
  simp [readsFlag, ht, hc]

/-! ## A memory instruction is memBody on its row -/

/-- The flag that a row counts on: READS, or none. -/
def rowFlag (c : Clause) (r : MemRow) : Nat := if r.counts then c.reads else 15

/-- The word of a row is issued by a form that is the row's and a body that is memBody on the row's accesses. -/
structure IssuesRow (t : Team) (c : Clause) (r : MemRow) (f : Form) (body : State → Issue → Eff) : Prop where
  word : ∀ s, exec r.instr s = issue r.instr f body s
  late : f.late = r.late
  types : f.types = r.types
  ops : f.ops (modeType t.mode) = r.ops
  lanes : f.allExec = false
  cls : f.cls = if r.counts then 1 else 0
  fresh : r.op.late = none
  effect : ∀ s x, x.t = t → x.lit = c.lit → x.active = lanesOn t → body s x = memBody r.op (rowFlag c r) (accessesOf t r.op.uniform r.lane) s x

section Rows
variable {t : Team} {c : Clause} (hc : t.clause = some c) {d a b : Sel} {i : Instr}
include hc

/-- A load at addresses that are those of a row. -/
theorem issuesRow_load {size regs na : Nat} {addr : Issue → Nat → Nat} {ea : Nat → Nat} (haddr : ∀ x k, x.t = t → x.lit = c.lit → addr x k = ea k)
    (hexec : ∀ s, exec i s = issue i
      { late := true, mem := true, allExec := false, cls := 1, types := anyType, ops := fun _ => [dst d regs, src a na, src b 1] }
      (loadAt d size regs addr) s) :
    ∃ f body, IssuesRow t c
      { instr := i, late := true, types := anyType, ops := [dst d regs, src a na, src b 1], counts := true,
        op := { kind := .load, size := size, dst := d, regs := regs, late := none, uniform := isSreg d },
        lane := fun k => { slot := k, ea := ea k, data := 0, cmp := 0 } } f body := by
  refine ⟨_, _, hexec, rfl, rfl, rfl, rfl, rfl, rfl, fun s x ht hl ha => ?_⟩
  unfold loadAt rowFlag
  simp only [readsFlag_eq ht hc, accesses_eq ht ha, haddr x _ ht hl, if_true]

omit hc in
/-- A store at addresses that are those of a row. -/
theorem issuesRow_store {size regs na : Nat} {addr : Issue → Nat → Nat} {ea : Nat → Nat} (haddr : ∀ x k, x.t = t → x.lit = c.lit → addr x k = ea k)
    (hexec : ∀ s, exec i s = issue i
      { late := false, mem := true, allExec := false, cls := 0, types := anyType, ops := fun _ => [src d regs, src a na, src b 1] }
      (storeAt d size regs (isUniform d && isUniform a && isUniform b) addr) s) :
    ∃ f body, IssuesRow t c
      { instr := i, late := false, types := anyType, ops := [src d regs, src a na, src b 1], counts := false,
        op := { kind := .store, size := size, dst := .zero, regs := regs, late := none, uniform := !isPerLane d && !isPerLane a && !isPerLane b },
        lane := fun k => { slot := k, ea := ea k, data := readVal t c.lit k d regs % 2 ^ (8 * size), cmp := 0 } } f body := by
  refine ⟨_, _, hexec, rfl, rfl, rfl, rfl, rfl, rfl, fun s x ht hl ha => ?_⟩
  unfold storeAt rowFlag isUniform
  simp only [accesses_eq ht ha, haddr x _ ht hl, Issue.val, ht, hl]
  rfl

/-- An atomic that returns the old value. -/
theorem issuesRow_returning {op : Nat} (hexec : ∀ s, exec i s = issue i (atomForm op d a b) (atomBody op d a b) s) :
    ∃ f body, IssuesRow t c
      { instr := i, late := true, types := atomType op, ops := [srcdst d (typeRegs (modeType t.mode)), src a 2, src b 1], counts := true,
        op := { kind := .atomic op (modeType t.mode) true, size := atomSize (modeType t.mode), dst := d, regs := typeRegs (modeType t.mode), late := none,
                uniform := isSreg d },
        lane := fun k => { slot := k, ea := eaOf t c.lit a b k,
                           data := readVal t c.lit k d (typeRegs (modeType t.mode)) % 2 ^ (8 * atomSize (modeType t.mode)), cmp := 0 } } f body := by
  refine ⟨_, _, hexec, rfl, rfl, rfl, rfl, rfl, rfl, fun s x ht hl ha => ?_⟩
  unfold atomBody rowFlag
  simp only [readsFlag_eq ht hc, accesses_eq ht ha, addrOf_eq ht hl, Issue.val, ht, hl, if_true]

/-- ACAS and ACASW: the compare value lies below the operand. -/
theorem issuesRow_comparing {op h w : Nat} {half size : Nat → Nat} (hh : half (modeType t.mode) = h) (hw : size (modeType t.mode) = w)
    (hexec : ∀ s, exec i s = issue i (casForm op half d a b) (casBody op half size d a b) s) :
    ∃ f body, IssuesRow t c
      { instr := i, late := true, types := atomType op, ops := [srcdst d (2 * h), src a 2, src b 1], counts := true,
        op := { kind := .atomic op (modeType t.mode) true, size := w, dst := Sel.plus d h, regs := h, late := none, uniform := isSreg d },
        lane := fun k => { slot := k, ea := eaOf t c.lit a b k, data := readVal t c.lit k (Sel.plus d h) h % 2 ^ (8 * w),
                           cmp := readVal t c.lit k d h % 2 ^ (8 * w) } } f body := by
  subst hh hw
  refine ⟨_, _, hexec, rfl, rfl, rfl, rfl, rfl, rfl, fun s x ht hl ha => ?_⟩
  unfold casBody rowFlag
  simp only [readsFlag_eq ht hc, accesses_eq ht ha, addrOf_eq ht hl, Issue.val, ht, hl, if_true]

omit hc in
/-- An atomic that returns nothing. -/
theorem issuesRow_silent {op : Nat} (hexec : ∀ s, exec i s = issue i (redForm0 op d a b) (redBody0 op d a b) s) :
    ∃ f body, IssuesRow t c
      { instr := i, late := false, types := atomType op, ops := [src d (typeRegs (modeType t.mode)), src a 2, src b 1], counts := false,
        op := { kind := .atomic op (modeType t.mode) false, size := atomSize (modeType t.mode), dst := .zero, regs := typeRegs (modeType t.mode),
                late := none, uniform := !isPerLane d && !isPerLane a && !isPerLane b },
        lane := fun k => { slot := k, ea := eaOf t c.lit a b k,
                           data := readVal t c.lit k d (typeRegs (modeType t.mode)) % 2 ^ (8 * atomSize (modeType t.mode)), cmp := 0 } } f body := by
  refine ⟨_, _, hexec, rfl, rfl, rfl, rfl, rfl, rfl, fun s x ht hl ha => ?_⟩
  unfold redBody0 rowFlag isUniform
  simp only [accesses_eq ht ha, addrOf_eq ht hl, Issue.val, ht, hl]
  rfl

theorem issuesRow_of_loadRows : ∀ r ∈ loadRows t c.lit d a b, ∃ f body, IssuesRow t c r f body := by
  have hea : ∀ (x : Issue) (k : Nat), x.t = t → x.lit = c.lit → addrOf x k a b = eaOf t c.lit a b k := fun x k ht hl => addrOf_eq ht hl k a b
  have hlocal : ∀ (x : Issue) (k : Nat), x.t = t → x.lit = c.lit → localAddr x k a b = localEa t c.lit a b k := fun x k ht hl => localAddr_eq ht hl k a b
  unfold loadRows
  simp only [List.forall_mem_cons]
  exact ⟨issuesRow_load hc hea fun _ => rfl, issuesRow_load hc hea fun _ => rfl, issuesRow_load hc hea fun _ => rfl, issuesRow_load hc hea fun _ => rfl,
    issuesRow_load hc hlocal fun _ => rfl, fun r hr => absurd hr List.not_mem_nil⟩

omit hc in
theorem issuesRow_of_storeRows : ∀ r ∈ storeRows t c.lit d a b, ∃ f body, IssuesRow t c r f body := by
  have hea : ∀ (x : Issue) (k : Nat), x.t = t → x.lit = c.lit → addrOf x k a b = eaOf t c.lit a b k := fun x k ht hl => addrOf_eq ht hl k a b
  have hlocal : ∀ (x : Issue) (k : Nat), x.t = t → x.lit = c.lit → localAddr x k a b = localEa t c.lit a b k := fun x k ht hl => localAddr_eq ht hl k a b
  unfold storeRows
  simp only [List.forall_mem_cons]
  exact ⟨issuesRow_store hea fun _ => rfl, issuesRow_store hea fun _ => rfl, issuesRow_store hea fun _ => rfl, issuesRow_store hea fun _ => rfl,
    issuesRow_store hlocal fun _ => rfl, fun r hr => absurd hr List.not_mem_nil⟩

theorem issuesRow_of_atomicRows : ∀ r ∈ atomicRows t c.lit d a b, ∃ f body, IssuesRow t c r f body := by
  unfold atomicRows
  simp only [List.cons_append, List.nil_append, List.forall_mem_cons]
  exact ⟨issuesRow_returning hc fun _ => rfl, issuesRow_returning hc fun _ => rfl, issuesRow_returning hc fun _ => rfl,
    issuesRow_returning hc fun _ => rfl, issuesRow_returning hc fun _ => rfl, issuesRow_returning hc fun _ => rfl, issuesRow_returning hc fun _ => rfl,
    issuesRow_comparing hc rfl rfl fun _ => rfl, issuesRow_comparing hc rfl rfl fun _ => rfl,
    issuesRow_returning hc fun _ => rfl, issuesRow_returning hc fun _ => rfl, issuesRow_returning hc fun _ => rfl,
    issuesRow_silent fun _ => rfl, issuesRow_silent fun _ => rfl, issuesRow_silent fun _ => rfl, issuesRow_silent fun _ => rfl,
    issuesRow_silent fun _ => rfl, issuesRow_silent fun _ => rfl, issuesRow_silent fun _ => rfl, issuesRow_silent fun _ => rfl,
    issuesRow_silent fun _ => rfl, fun r hr => absurd hr List.not_mem_nil⟩

/-- Every memory instruction of R279 to R287 is memBody on its row. -/
theorem issuesRow_of_mem {r : MemRow} (hr : r ∈ loadRows t c.lit d a b ++ storeRows t c.lit d a b ++ atomicRows t c.lit d a b) :
    ∃ f body, IssuesRow t c r f body := by
  rcases List.mem_append.mp hr with hr | hr
  · rcases List.mem_append.mp hr with hr | hr
    · exact issuesRow_of_loadRows hc r hr
    · exact issuesRow_of_storeRows r hr
  · exact issuesRow_of_atomicRows hc r hr

end Rows

/-- A memory instruction that is ready is memBody on its row, for the lanes it acts on. -/
theorem exec_memRow {s : State} {u : Nat} {t : Team} {c : Clause} {d a b : Sel} {r : MemRow} (h : Issuing s u t c)
    (hr : r ∈ loadRows t c.lit d a b ++ storeRows t c.lit d a b ++ atomicRows t c.lit d a b) (hready : MemReady t c r) :
    r.op.late = none ∧ ∃ x : Issue, x.u = u ∧ x.t = t ∧
      exec r.instr s = finish u (memBody r.op (rowFlag c r) (accessesOf t r.op.uniform r.lane) s x) := by
  obtain ⟨f, body, hrow⟩ := issuesRow_of_mem h.clause hr
  have hactive : (issueOf f u t c).active = lanesOn t := issueOf_active f hrow.lanes u t c
  have hflag : flagCount t (countFlag c f.cls) ≠ 63 := by
    rw [hrow.cls]
    cases hcounts : r.counts with
    | true => exact (hready.flag hcounts).2
    | false => simp [countFlag]
  have hgo : gate r.instr f t c = .go :=
    gate_go (by rw [hrow.late, hrow.types, hrow.ops]; exact hready.legal) (fun _ => hready.free) hflag
  refine ⟨hrow.fresh, issueOf f u t c, issueOf_u f u t c, issueOf_t f u t c, ?_⟩
  rw [hrow.word, issue_go h body hgo, perform_clean (by rw [hrow.ops, hactive]; exact hready.clean),
    hrow.effect s _ (issueOf_t f u t c) (issueOf_lit f u t c) hactive]

/-! ## How the issue ends -/

/-- The trap of R273, check 1: every lane pending, the failing ones faulted. -/
def windowTrap (wf lanes : List LaneAcc) : TrapInfo :=
  { cls := .window, detail := 0, faulted := maskOf (wf.map LaneAcc.slot), pending := maskOf (lanes.map LaneAcc.slot),
    addr := lanes.foldl (fun a l => tblSet a l.slot l.ea) [], clauseLevel := false }

theorem memBody_of_windowFails {s : State} {x : Issue} {op : MemOp} {flag : Nat} {lanes : List LaneAcc} (h : windowFails s x.t op lanes ≠ []) :
    memBody op flag lanes s x = .trap s (windowTrap (windowFails s x.t op lanes) lanes) := if_pos h

theorem memBody_of_windows {s : State} {u : Nat} {t : Team} {c : Clause} {r : MemRow} {x : Issue} (hu : x.u = u) (ht : x.t = t) (hlate : r.op.late = none)
    (hcounts : r.counts = true → c.reads < 12) (h : windowFails s t r.op (accessesOf t r.op.uniform r.lane) = []) :
    memBody r.op (rowFlag c r) (accessesOf t r.op.uniform r.lane) s x =
      settleEnds (settleLanes (settleFrom s u t c r).1 u t (settleFrom s u t c r).2 (accessesOf t r.op.uniform r.lane)) x (settleFrom s u t c r).2 [] := by
  subst hu ht
  unfold memBody settleFrom rowFlag
  rw [if_neg (not_not_intro h)]
  cases hk : r.counts with
  | true =>
    have hne : c.reads ≠ 15 := by have := hcounts hk; omega
    simp only [if_true, if_neg hne]
    rfl
  | false =>
    have hop : { r.op with late := none } = r.op := by rw [← hlate]
    simp only [Bool.false_eq_true, if_false, if_true, hop]

theorem tblSet_tblSet_self {α : Type} (l : Tbl α) (a : Nat) (y z : α) : tblSet (tblSet l a y) a z = tblSet l a z := by
  induction l with
  | nil => simp [tblSet]
  | cons e rest ih =>
    obtain ⟨k, x⟩ := e
    rcases lt_trichotomy a k with hlt | rfl | hgt
    · simp [tblSet, hlt]
    · simp [tblSet]
    · simp [tblSet, hgt.not_gt, hgt.ne', ih]

/-- A team that waits already is not held. -/
theorem holdAt_updTeam {s : State} {u : Nat} {f : Team → Team} (h : ∀ t, (f t).wait ≠ .none) : holdAt (s.updTeam u f) u = s.updTeam u f := by
  cases hu : tblGet s.teams u with
  | none => rw [State.updTeam_of_none hu, holdAt, State.updTeam_of_none hu]
  | some t =>
    rw [State.updTeam_of_some hu, holdAt, State.updTeam_of_some (State.team_setTeam_self s u (f t)), if_neg (h t)]
    unfold State.setTeam
    rw [tblSet_tblSet_self]

section Ends
variable {z : Settle} {x : Issue} {op : MemOp}

theorem settleEnds_done (hp : z.parks = []) (hh : z.helds = []) : settleEnds z x op [] = .done z.s := by simp [settleEnds, hp, hh]

theorem settleEnds_held (hp : z.parks = []) (hh : z.helds ≠ []) : settleEnds z x op [] = .trap z.s (heldTrap z.helds) := by simp [settleEnds, hp, hh]

/-- Parked lanes leave the team waiting at the instruction, with what it needs to settle them again. -/
theorem finish_settleEnds_parks (hp : z.parks ≠ []) :
    ∃ p : Parked, finish x.u (settleEnds z x op []) = .next (z.s.updTeam x.u (fun t => { t with wait := .fault, parked := some p })) ∧ p.lanes = z.parks := by
  have hends : settleEnds z x op [] = .wait (z.s.updTeam x.u (fun t => { t with
      wait := .fault,
      parked := some { op := some op, lanes := z.parks, held := z.helds, cause := z.parks.map Prod.snd, mode := t.mode, active := x.active, marks := [],
                       mask := 0, addr := [] } })) := by
    unfold settleEnds
    rw [if_pos hp]
    rfl
  refine ⟨{ op := some op, lanes := z.parks, held := z.helds, cause := z.parks.map Prod.snd, mode := ((tblGet z.s.teams x.u).getD x.t).mode,
            active := x.active, marks := [], mask := 0, addr := [] }, ?_, rfl⟩
  rw [hends, finish, holdAt_updTeam (fun t => by simp)]
  cases hu : tblGet z.s.teams x.u with
  | none => rw [State.updTeam_of_none hu, State.updTeam_of_none hu]
  | some t => rw [State.updTeam_of_some hu, State.updTeam_of_some hu]; rfl

end Ends

/-- The issue of a memory instruction, by what its lanes come to (R273, R274, R376). -/
theorem exec_memRow_ends {s : State} {u : Nat} {t : Team} {c : Clause} {d a b : Sel} {r : MemRow} (h : Issuing s u t c)
    (hr : r ∈ loadRows t c.lit d a b ++ storeRows t c.lit d a b ++ atomicRows t c.lit d a b) (hready : MemReady t c r) :
    let lanes := accessesOf t r.op.uniform r.lane
    let z := settleLanes (settleFrom s u t c r).1 u t (settleFrom s u t c r).2 lanes
    (windowFails s t r.op lanes = [] → ∃ x : Issue, x.u = u ∧ exec r.instr s = finish u (settleEnds z x (settleFrom s u t c r).2 [])) ∧
    (windowFails s t r.op lanes ≠ [] → exec r.instr s = .next (takeTrap s u (windowTrap (windowFails s t r.op lanes) lanes))) := by
  obtain ⟨hlate, x, hu, ht, hexec⟩ := exec_memRow h hr hready
  refine ⟨fun hw => ⟨x, hu, ?_⟩, fun hw => ?_⟩
  · rw [hexec, memBody_of_windows hu ht hlate (fun hk => (hready.flag hk).1) hw]
  · subst ht
    rw [hexec, memBody_of_windowFails hw]
    rfl

/-! ## Hints -/

section Hints
variable {s : State} {u : Nat} {t : Team} {c : Clause} {a b : Sel} {i : Instr} {res : Bool}

theorem exec_hint (hi : (i, res) ∈ [(Instr.pref a b, false), (.reshint a b, true)]) (s : State) : exec i s = issue i (hintForm a b) (hintBody res a b) s := by
  simp only [List.mem_cons, Prod.mk.injEq, List.not_mem_nil, or_false] at hi
  rcases hi with ⟨rfl, rfl⟩ | ⟨rfl, rfl⟩ <;> rfl

/-- A hint is done with each of its addresses in turn. -/
theorem exec_hint_done (hi : (i, res) ∈ [(Instr.pref a b, false), (.reshint a b, true)]) (h : Issuing s u t c)
    (hlegal : Legal i t false anyType [src a 2, src b 1]) (hclean : Unpoisoned t [src a 2, src b 1] (lanesOn t)) (hfree : slicePending t = false) :
    exec i s = .next (stepOn ((accessesOf t (!isPerLane a && !isPerLane b) (fun k => { slot := k, ea := eaOf t c.lit a b k, data := 0, cmp := 0 })).foldl
      (fun z x => hintLane res u t.cfg z x.ea) s) u) := by
  have hactive : (issueOf (hintForm a b) u t c).active = lanesOn t := issueOf_active _ rfl u t c
  have hgo : gate i (hintForm a b) t c = .go := gate_go hlegal (fun _ => hfree) (by simp [hintForm, plainForm, countFlag])
  rw [exec_hint hi, issue_go h _ hgo, perform_clean (by rw [hactive]; exact hclean)]
  unfold hintBody isUniform
  simp only [accesses_eq (issueOf_t _ u t c) hactive, addrOf_eq (issueOf_t _ u t c) (issueOf_lit _ u t c), issueOf_u, issueOf_t]
  rfl

end Hints

/-- HINTDROP goes up by one and stops at all ones (R98). -/
theorem hintdrop_next (x : BitVec 32) : (if x = 0xFFFFFFFF then x else x + 1) = BitVec.ofNat 32 (min (x.toNat + 1) 0xFFFFFFFF) := by
  apply BitVec.eq_of_toNat_eq
  have hx := x.isLt
  by_cases hmax : x = 0xFFFFFFFF
  · subst hmax; decide
  · have hne : x.toNat ≠ 0xFFFFFFFF := fun h => hmax (BitVec.eq_of_toNat_eq h)
    rw [if_neg hmax, BitVec.toNat_add, BitVec.toNat_ofNat, Nat.min_eq_left (by omega)]
    rfl

theorem hintLane_dropped {z : State} {cfg : TeamCfg} {va : Nat} (h : hintMapping z cfg va = none) (res : Bool) (u : Nat) :
    hintLane res u cfg z va =
      z.setCore cfg.core { z.core cfg.core with hintdrop := BitVec.ofNat 32 (min ((z.core cfg.core).hintdrop.toNat + 1) 0xFFFFFFFF) } := by
  unfold hintLane
  simp only [h]
  unfold dropHint State.updCore
  rw [← hintdrop_next]

/-- RESHINT on a layer that is RESIDENT does no more than translate. -/
theorem hintLane_resident {z : State} {cfg : TeamCfg} {va : Nat} {m : Mapping} (h : hintMapping z cfg va = some m) (hres : layerResident z m.layer = true)
    (u : Nat) : hintLane true u cfg z va = (translate z cfg.core cfg.ctx va needR).2 := by
  unfold hintLane
  simp only [h, hres, if_true, Bool.true_or]
  split <;> rfl

/-! ## The statement -/

/-- Settles O21: the issue of a memory instruction by what its lanes come to, and a hint done address by address. -/
theorem memoryInstructionsSettleTheirLanes : Obligations.MemoryInstructionsSettleTheirLanes := by
  unfold Obligations.MemoryInstructionsSettleTheirLanes
  refine ⟨fun s u t c d a b r h hr hready => ?_, fun s u t c a b i res hi h hlegal hclean hfree =>
    ⟨exec_hint_done hi h hlegal hclean hfree, fun z va => ⟨fun hm => hintLane_dropped hm res u, fun m hm hres => hintLane_resident hm hres u⟩⟩⟩
  obtain ⟨hsettles, hfails⟩ := exec_memRow_ends h hr hready
  refine ⟨fun hw hp hh => ?_, fun hw hp hh => ?_, fun hw hp => ?_, fun hw => ⟨_, hfails hw, rfl, rfl, rfl⟩⟩ <;> obtain ⟨x, rfl, hexec⟩ := hsettles hw
  · rw [hexec, settleEnds_done hp hh]; rfl
  · rw [hexec, settleEnds_held hp hh]; rfl
  · rw [hexec]; exact finish_settleEnds_parks hp

end Sys2Proof.Machine
end

section
/-! PROOFS. Late results (R114, R175, R176): an operation put in flight, and what its completion writes. -/

namespace Sys2Proof.Machine

/-! ## An operation put in flight -/

/-- The operation that startLate puts in flight, before it is given its work. -/
def bareLate (id flag lane : Nat) : LateOp :=
  { id := id, flag := flag, lane := lane, atomic := false, near := false, wait := .none, vwrites := [], swrites := [], mask := none, fpst := 0, came := 0,
    poisoned := [], peers := [], build := none, hbind := none, pop := none }

/-- A team with one more operation in flight, counted on its flag. -/
def withLate (t : Team) (o : LateOp) : Team := raiseFlag { t with late := t.late ++ [o] } o.flag

/-- The lowest lane of a team's EXEC, by which its scheduling orders an operation. -/
theorem startLate_of_some {s : State} {u : Nat} {t : Team} (h : tblGet s.teams u = some t) (flag : Nat) (f : LateOp → LateOp)
    (hf : ∀ o, (f o).flag = o.flag) :
    startLate s u flag f = (s.nextId, ({ s with nextId := s.nextId + 1 } : State).setTeam u (withLate t (f (bareLate s.nextId flag (lowestOf t))))) := by
  have hflag : (f (bareLate s.nextId flag (lowestOf t))).flag = flag := hf _
  unfold startLate takeId withLate
  rw [hflag]
  simp only [h, State.updTeam_of_some (s := { s with nextId := s.nextId + 1 }) h]
  rfl

theorem flagCount_withLate (t : Team) (o : LateOp) (h : flagCount t o.flag ≠ 63) (k : Nat) (hk : k < 12) :
    flagCount (withLate t o) k = if k = o.flag then flagCount t k + 1 else flagCount t k := by
  unfold withLate raiseFlag
  by_cases hf : o.flag < 12
  · rw [dif_pos hf]
    by_cases he : k = o.flag
    · subst he
      have hlt := (t.flags[o.flag]).isLt
      have hne : (t.flags[o.flag]).toNat ≠ 63 := by simpa [flagCount, hf] using h
      simp only [flagCount, hf, dif_pos, Vector.getElem_set_self, BitVec.toNat_add, if_true]
      rw [Nat.mod_eq_of_lt]
      · rfl
      · show (t.flags[o.flag]).toNat + 1 < 64
        omega
    · simp [flagCount, hk, Vector.getElem_set_ne, Ne.symm he, he]
  · have he : k ≠ o.flag := by omega
    rw [dif_neg hf, if_neg he]
    rfl

/-- An operation put in flight and then changed stands last among the team's operations; those of other numbers are as before. -/
theorem lateAdded_updLate {t : Team} {o : LateOp} (h : flagCount t o.flag ≠ 63) {f : LateOp → LateOp} (hid : (f o).id = o.id) (hflag : (f o).flag = o.flag) :
    LateAdded t (updLate (withLate t o) o.id f) (f o) o.id o.flag := by
  have hlate : (updLate (withLate t o) o.id f).late = t.late.map (fun x => if x.id = o.id then f x else x) ++ [f o] := by
    unfold updLate withLate raiseFlag
    split <;> simp
  refine ⟨hid, hflag, by simp [hlate], fun j x hx hne => ?_, by simp [hlate], fun k hk => flagCount_withLate t o h k hk, ?_⟩
  · have hj : j < t.late.length := (List.getElem?_eq_some_iff.mp hx).1
    rw [hlate, List.getElem?_append_left (by simpa using hj), List.getElem?_map, hx]
    simp [hne]
  · unfold updLate withLate raiseFlag
    split <;> rfl

theorem updLate_id (t : Team) (id : Nat) : updLate t id (fun o => o) = t := by simp [updLate]

theorem lateAdded_withLate {t : Team} {o : LateOp} (h : flagCount t o.flag ≠ 63) : LateAdded t (withLate t o) o o.id o.flag := by
  have := lateAdded_updLate h (f := fun o => o) rfl rfl
  rwa [updLate_id] at this

/-! ## The words of a result, as an operation keeps them -/

/-- Words of v registers written, and words of s registers. -/
def writeV (t : Team) (ws : List (Nat × Nat × Word)) : Team := ws.foldl (fun t w => writeWord t w.1 (.v w.2.1) w.2.2) t
def writeS (t : Team) (ws : List (Nat × Word)) : Team := ws.foldl (fun t w => writeWord t 0 (.s w.1) w.2) t

theorem isW_plus (x : Sel) (j : Nat) : isW (Sel.plus x j) = isW x := by cases x <;> rfl

theorem regWrites_snd_of_not_sreg {d : Sel} (h : isSreg d = false) (k n v : Nat) : (regWrites k d n v).2 = [] := by
  induction n generalizing d v with
  | zero => rfl
  | succ n ih =>
    have htail := ih (d := Sel.plus d 1) (by rw [isSreg_plus, h]) (v / 2 ^ 32)
    cases d with
    | s r => simp [isSreg] at h
    | _ => exact htail

theorem regWrites_fst_of_sreg {d : Sel} (h : isSreg d = true) (k n v : Nat) : (regWrites k d n v).1 = [] := by
  induction n generalizing d v with
  | zero => rfl
  | succ n ih =>
    have htail := ih (d := Sel.plus d 1) (by rw [isSreg_plus, h]) (v / 2 ^ 32)
    cases d with
    | s r => exact htail
    | _ => simp [isSreg] at h

/-- The v words of a result are its registers written in the lane. -/
theorem writeV_regWrites {d : Sel} (hw : isW d = false) (hs : isSreg d = false) (t : Team) (k n v : Nat) :
    writeV t (regWrites k d n v).1 = writeVal t k d n v := by
  induction n generalizing t d v with
  | zero => rfl
  | succ n ih =>
    have htail := fun t => ih (d := Sel.plus d 1) (by rw [isW_plus, hw]) (by rw [isSreg_plus, hs]) t (v / 2 ^ 32)
    cases d with
    | s r => simp [isSreg] at hs
    | w r => simp [isW] at hw
    | _ => exact htail _

/-- The s words of a result are its registers written. -/
theorem writeS_regWrites {d : Sel} (hs : isSreg d = true) (t : Team) (k n v : Nat) : writeS t (regWrites k d n v).2 = writeVal t k d n v := by
  induction n generalizing t d v with
  | zero => rfl
  | succ n ih =>
    have htail := fun t => ih (d := Sel.plus d 1) (by rw [isSreg_plus, hs]) t (v / 2 ^ 32)
    cases d with
    | s r => exact htail _
    | _ => simp [isSreg] at hs

/-- Values written lane by lane. -/
def writeVals (t : Team) (d : Sel) (n : Nat) (lanes : List Nat) (val : Nat → Nat) : Team := lanes.foldl (fun u k => writeVal u k d n (val k)) t

theorem writeV_flatMap (t : Team) (lanes : List Nat) (f : Nat → List (Nat × Nat × Word)) :
    writeV t (lanes.flatMap f) = lanes.foldl (fun u k => writeV u (f k)) t := by
  induction lanes generalizing t with
  | nil => rfl
  | cons k rest ih => rw [List.flatMap_cons, List.foldl_cons, ← ih, writeV, List.foldl_append]; rfl

theorem writeS_flatMap (t : Team) (lanes : List Nat) (f : Nat → List (Nat × Word)) :
    writeS t (lanes.flatMap f) = lanes.foldl (fun u k => writeS u (f k)) t := by
  induction lanes generalizing t with
  | nil => rfl
  | cons k rest ih => rw [List.flatMap_cons, List.foldl_cons, ← ih, writeS, List.foldl_append]; rfl

/-- The words that an operation keeps for a result in some lanes are the result written there. -/
theorem writeS_writeV_regWrites {d : Sel} (hw : isW d = false) (n : Nat) (lanes : List Nat) (val : Nat → Nat) (t : Team) :
    writeS (writeV t (lanes.flatMap (fun k => (regWrites k d n (val k)).1))) (lanes.flatMap (fun k => (regWrites k d n (val k)).2)) =
      writeVals t d n lanes val := by
  cases hs : isSreg d with
  | true =>
    have hnone : lanes.flatMap (fun k => (regWrites k d n (val k)).1) = [] := List.flatMap_eq_nil_iff.mpr fun k _ => regWrites_fst_of_sreg hs k n _
    rw [hnone, writeS_flatMap]
    simp only [writeS_regWrites hs]
    rfl
  | false =>
    have hnone : lanes.flatMap (fun k => (regWrites k d n (val k)).2) = [] := List.flatMap_eq_nil_iff.mpr fun k _ => regWrites_snd_of_not_sreg hs k n _
    rw [hnone, writeV_flatMap]
    simp only [writeV_regWrites hw hs]
    rfl

/-! ## What the completion does -/

/-- A team that has given up an operation: the other operations L stay in flight, and the flag is one lower. -/
def withoutLate (L : List LateOp) (flag : Nat) (t : Team) : Team := lowerFlag { t with late := L } flag

theorem writeWord_withoutLate (L : List LateOp) (flag : Nat) (t : Team) (k : Nat) (x : Sel) (w : Word) :
    writeWord (withoutLate L flag t) k x w = withoutLate L flag (writeWord t k x w) := by
  unfold withoutLate lowerFlag
  cases x with
  | s r => by_cases hr : r < 32 <;> by_cases hf : flag < 12 <;> simp [writeWord, hr, hf]
  | _ => by_cases hf : flag < 12 <;> simp [writeWord, hf]

theorem writeVal_withoutLate (L : List LateOp) (flag : Nat) (t : Team) (k : Nat) (d : Sel) (n v : Nat) :
    writeVal (withoutLate L flag t) k d n v = withoutLate L flag (writeVal t k d n v) := by
  induction n generalizing t d v with
  | zero => rfl
  | succ n ih => simp only [writeVal]; rw [writeWord_withoutLate, ih]

theorem writeVals_withoutLate (L : List LateOp) (flag : Nat) (t : Team) (d : Sel) (n : Nat) (lanes : List Nat) (val : Nat → Nat) :
    writeVals (withoutLate L flag t) d n lanes val = withoutLate L flag (writeVals t d n lanes val) := by
  induction lanes generalizing t with
  | nil => rfl
  | cons k rest ih => simp only [writeVals, List.foldl_cons] at ih ⊢; rw [writeVal_withoutLate, ih]

theorem orFpst_withoutLate (L : List LateOp) (flag : Nat) (t : Team) (e : BitVec 5) : orFpst (withoutLate L flag t) e = withoutLate L flag (orFpst t e) := by
  unfold withoutLate lowerFlag
  by_cases hf : flag < 12 <;> simp [orFpst, hf]

theorem writeWord_orFpst (t : Team) (e : BitVec 5) (k : Nat) (x : Sel) (w : Word) : writeWord (orFpst t e) k x w = orFpst (writeWord t k x w) e := by
  cases x with
  | s r => by_cases hr : r < 32 <;> simp [writeWord, orFpst, hr]
  | _ => rfl

theorem writeVal_orFpst (t : Team) (e : BitVec 5) (k : Nat) (d : Sel) (n v : Nat) : writeVal (orFpst t e) k d n v = orFpst (writeVal t k d n v) e := by
  induction n generalizing t d v with
  | zero => rfl
  | succ n ih => simp only [writeVal]; rw [writeWord_orFpst, ih]

/-- The exceptions of the lanes may be ORed in at the end. -/
theorem writeLanes_eq_orFpst (t : Team) (d : Sel) (n : Nat) (lanes : List Nat) (f : Nat → Nat × BitVec 5) (e : BitVec 5) :
    writeLanes (orFpst t e) d n lanes f = orFpst (writeVals t d n lanes (fun k => (f k).1)) (lanes.foldl (fun e k => e ||| (f k).2) e) := by
  induction lanes generalizing t e with
  | nil => rfl
  | cons k rest ih =>
    have hor : orFpst (orFpst (writeVal t k d n (f k).1) e) (f k).2 = orFpst (writeVal t k d n (f k).1) (e ||| (f k).2) := by
      simp [orFpst, BitVec.or_assoc]
    simp only [writeLanes, writeVals, List.foldl_cons] at ih ⊢
    rw [writeVal_orFpst, hor, ih]

theorem orFpst_zero (t : Team) : orFpst t 0 = t := by simp [orFpst]

theorem late_writeVal (t : Team) (k : Nat) (d : Sel) (n v : Nat) : (writeVal t k d n v).late = t.late := by
  induction n generalizing t d v with
  | zero => rfl
  | succ n ih => simp only [writeVal]; rw [ih, writeWord_late]

theorem late_writeVals (t : Team) (d : Sel) (n : Nat) (lanes : List Nat) (val : Nat → Nat) : (writeVals t d n lanes val).late = t.late := by
  induction lanes generalizing t with
  | nil => rfl
  | cons k rest ih => simp only [writeVals, List.foldl_cons] at ih ⊢; rw [ih, late_writeVal]

/-- o keeps a result of n registers from d in some lanes, and its exceptions, and nothing else. -/
structure KeepsResult (o : LateOp) (d : Sel) (n : Nat) (lanes : List Nat) (f : Nat → Nat × BitVec 5) : Prop where
  vwrites : o.vwrites = lanes.flatMap (fun k => (regWrites k d n (f k).1).1)
  swrites : o.swrites = lanes.flatMap (fun k => (regWrites k d n (f k).1).2)
  fpst : o.fpst = lanes.foldl (fun e k => e ||| (f k).2) 0
  mask : o.mask = none
  poisoned : o.poisoned = []
  build : o.build = none

/-- An operation given a result of lanes. -/
def keepResult (d : Sel) (n : Nat) (lanes : List Nat) (f : Nat → Nat × BitVec 5) (o : LateOp) : LateOp :=
  { o with vwrites := lanes.flatMap (fun k => (regWrites k d n (f k).1).1), swrites := lanes.flatMap (fun k => (regWrites k d n (f k).1).2),
           fpst := lanes.foldl (fun e k => e ||| (f k).2) 0 }

theorem keepsResult_keepResult (d : Sel) (n : Nat) (lanes : List Nat) (f : Nat → Nat × BitVec 5) (id flag lane : Nat) :
    KeepsResult (keepResult d n lanes f (bareLate id flag lane)) d n lanes f := ⟨rfl, rfl, rfl, rfl, rfl, rfl⟩

/-- Completion of such an operation is its result written in the lanes. -/
theorem finishLate_of_keepsResult {o : LateOp} {d : Sel} {n : Nat} {lanes : List Nat} {f : Nat → Nat × BitVec 5} (h : KeepsResult o d n lanes f)
    (hw : isW d = false) (t : Team) :
    finishLate t o = writeLanes (withoutLate (t.late.filter (fun x => decide (x.id ≠ o.id))) o.flag t) d n lanes f := by
  have hregs : writeS (writeV t o.vwrites) o.swrites = writeVals t d n lanes (fun k => (f k).1) := by
    rw [h.vwrites, h.swrites]
    exact writeS_writeV_regWrites hw n lanes (fun k => (f k).1) t
  have hfinish : finishLate t o =
      lowerFlag { orFpst (writeS (writeV t o.vwrites) o.swrites) o.fpst with
        late := (orFpst (writeS (writeV t o.vwrites) o.swrites) o.fpst).late.filter (fun x => decide (x.id ≠ o.id)) } o.flag := by
    unfold finishLate arriveMask heldOf
    simp only [h.mask, h.build, h.poisoned, List.map_nil, List.append_nil]
    rfl
  rw [hfinish, hregs, h.fpst, orFpst_late, late_writeVals]
  conv_rhs => rw [← orFpst_zero (withoutLate _ _ t), writeLanes_eq_orFpst, writeVals_withoutLate, orFpst_withoutLate]
  rfl

/-- Such an operation writes its result late. -/
theorem writesLate_of_keepsResult {o : LateOp} {d : Sel} {n : Nat} {lanes : List Nat} {f : Nat → Nat × BitVec 5} (h : KeepsResult o d n lanes f)
    (hw : isW d = false) (hd : RegsExist d n) (hn : lanes.Nodup) (hs : isSreg d = true → lanes.length ≤ 1) :
    WritesLate o d n lanes (fun k => (f k).1) (lanes.foldl (fun e k => e ||| (f k).2) 0) := fun t2 => by
  rw [finishLate_of_keepsResult h hw]
  exact wrote_writeLanes _ hd f lanes hn hs

/-- A late result without exceptions. -/
theorem foldl_or_zero (lanes : List Nat) : lanes.foldl (fun (e : BitVec 5) _ => e ||| 0) 0 = 0 := by
  induction lanes with
  | nil => rfl
  | cons k rest ih => rw [List.foldl_cons, BitVec.or_self, ih]

/-! ## Long-latency destinations (R104) -/

theorem isW_of_opndsOk {budget : Nat} {d : Sel} {n : Nat} {os : List Opnd} (h : opndsOk budget true (dst d n :: os) = true) : isW d = false := by
  cases hw : isW d with
  | false => rfl
  | true => simp [opndsOk, dst, hw] at h

theorem opndOk_of_opndsOk_cons {budget : Nat} {late : Bool} {o : Opnd} {os : List Opnd} (h : opndsOk budget late (o :: os) = true) : opndOk budget o = true :=
  opndOk_of_opndsOk h List.mem_cons_self

/-- AN INSTRUCTION WITH A LATE RESULT: the team goes on to the next word with the operation in flight (R176). -/
theorem completesLate_lateEff {i : Instr} {s : State} {u : Nat} {t : Team} {c : Clause} (h : Issuing s u t c) {d : Sel} {n : Nat} (m : Mask)
    (f : Nat → Nat × BitVec 5) {x : Issue} (ht : x.t = t) (hu : x.u = u) (hexec : exec i s = finish u (lateEff d n m f s x))
    (hflag : flagCount t c.reads ≠ 63) (hw : isW d = false) (hd : RegsExist d n) :
    CompletesLate i s u t c.reads m d n (fun k => (f k).1) ((lanesFor t d m).foldl (fun e k => e ||| (f k).2) 0) := by
  subst ht hu
  have hstart := startLate_of_some h.team c.reads (keepResult d n (lanesFor x.t d m) f) (fun _ => rfl)
  refine ⟨s.nextId + 1, _, _, ?_, Nat.lt_succ_self _, lateAdded_withLate (o := keepResult d n _ f (bareLate s.nextId c.reads (lowestOf x.t))) hflag, rfl,
    writesLate_of_keepsResult (keepsResult_keepResult d n _ f _ _ _) hw hd (nodup_lanesFor _ _ _) (length_lanesFor _ _ _)⟩
  have heff : lateEff d n m f s x = .done (startLate s x.u c.reads (keepResult d n (lanesFor x.t d m) f)).2 := by
    unfold lateEff
    simp only [h.clause, Option.map_some, Option.getD_some]
    rfl
  rw [hexec, heff, hstart]
  rfl

end Sys2Proof.Machine
end

section
/-! PROOFS. What work at home leaves of the teams: recalls, writes and acknowledgments leave them all as they were; whatever is served for a team leaves every
team its configuration. -/

namespace Sys2Proof.Machine

/-! ## The teams left as they were -/

theorem teams_foldl {β : Type} {f : State → β → State} (hf : ∀ s b, (f s b).teams = s.teams) (l : List β) (s : State) : (l.foldl f s).teams = s.teams := by
  induction l generalizing s with
  | nil => rfl
  | cons b rest ih => rw [List.foldl_cons, ih, hf]

@[simp] theorem teams_setL1 (s : State) (c k : Nat) (l : L1Line) : (setL1 s c k l).teams = s.teams := rfl

@[simp] theorem teams_crossLines (s : State) (pa n : Nat) : (crossLines s pa n).teams = s.teams := by
  unfold crossLines
  split <;> rfl

@[simp] theorem teams_recallWord (s : State) (pull : Bool) (w : Nat) : (recallWord s pull w).teams = s.teams := by
  unfold recallWord
  split
  · rfl
  · split <;> rfl

@[simp] theorem teams_recallRange (s : State) (pull : Bool) (pa n : Nat) : (recallRange s pull pa n).teams = s.teams := by
  unfold recallRange
  rw [teams_crossLines, teams_foldl (fun s w => teams_recallWord s pull w)]

@[simp] theorem teams_recallJudged (s : State) (pull : Bool) (pa n : Nat) : (recallJudged s pull pa n).2.teams = s.teams := teams_recallRange s pull pa n

@[simp] theorem teams_homeTake (s : State) (pull : Bool) (pa n : Nat) : (homeTake s pull pa n).2.teams = s.teams := teams_recallRange s pull pa n

@[simp] theorem teams_homeRead (s : State) (pa n : Nat) : (homeRead s pa n).2.teams = s.teams := teams_recallRange s false pa n

@[simp] theorem teams_dropIdle (s : State) (a : Nat) : (dropIdle s a).teams = s.teams := by
  unfold dropIdle
  split <;> rfl

@[simp] theorem teams_homeWriteBytes (s : State) (pa : Nat) (bs : List Byte) : (homeWriteBytes s pa bs).teams = s.teams := by
  have hdrop : ((List.range bs.length).foldl (fun s k => dropIdle s (pa + k)) s).teams = s.teams := teams_foldl (fun s k => teams_dropIdle s (pa + k)) _ s
  unfold homeWriteBytes
  simp only
  split <;> exact hdrop

@[simp] theorem teams_homeWrite (s : State) (pa : Nat) (bs : List Byte) : (homeWrite s pa bs).teams = s.teams := by
  rw [homeWrite, teams_homeWriteBytes, teams_recallRange]

@[simp] theorem teams_invalidateOwn (s : State) (c pa n : Nat) : (invalidateOwn s c pa n).teams = s.teams := by
  have hfold : ((wordsOf pa n).foldl (fun s w => if tblGet s.own w = some c then recallWord s false w else s) s).teams = s.teams :=
    teams_foldl (fun s w => by split <;> simp) _ s
  unfold invalidateOwn
  simp only
  split
  · exact hfold
  · exact hfold

@[simp] theorem teams_drawWords (n : Nat) (s : State) : (drawWords n s).2.teams = s.teams := by
  induction n generalizing s with
  | zero => rfl
  | succ n ih => simp [drawWords, ih]

@[simp] theorem teams_takeHome (s : State) (c w : Nat) (keep : L1Line → BitVec 128) : (takeHome s c w keep).teams = s.teams := by
  unfold takeHome
  split <;> rfl

@[simp] theorem teams_mergeAck (s : State) (c w : Nat) : (mergeAck s c w).teams = s.teams := teams_takeHome s c w _

@[simp] theorem teams_dropStore (s : State) (c w : Nat) : (dropStore s c w).teams = s.teams := by
  unfold dropStore
  split <;> rfl

@[simp] theorem teams_addAck (s : State) (c u w : Nat) : (addAck s c u w).teams = s.teams := rfl

@[simp] theorem teams_discardStore (s : State) (c : Nat) (e : OutEntry) (w : Nat) : (discardStore s c e w).teams = s.teams := by
  unfold discardStore
  split <;> rfl

@[simp] theorem teams_recallOthers (s : State) (c : Nat) (ws : List Nat) : (recallOthers s c ws).teams = s.teams :=
  teams_foldl (fun s w => by split <;> simp) ws s

@[simp] theorem teams_serveAck (s : State) (c : Nat) (a : Ack) : (serveAck s c a).teams = s.teams := by
  unfold serveAck
  split
  · split <;> rfl
  · rfl

@[simp] theorem teams_drainAcks (s : State) (c : Nat) (p : Ack → Bool) : (drainAcks s c p).teams = s.teams :=
  teams_foldl (fun s a => teams_serveAck s c a) _ _

/-! ## Every team's configuration kept -/

/-- Every team of s is one of s1 with the same configuration, and there is no other. -/
def SameCfg (s s1 : State) : Prop := ∀ u, (tblGet s1.teams u).map Team.cfg = (tblGet s.teams u).map Team.cfg

theorem SameCfg.refl (s : State) : SameCfg s s := fun _ => rfl

theorem SameCfg.trans {s s1 s2 : State} (h : SameCfg s s1) (h1 : SameCfg s1 s2) : SameCfg s s2 := fun u => (h1 u).trans (h u)

theorem sameCfg_of_teams {s s1 : State} (h : s1.teams = s.teams) : SameCfg s s1 := fun u => by rw [h]

theorem sameCfg_updCore (s : State) (c : Nat) (f : Core → Core) : SameCfg s (s.updCore c f) := sameCfg_of_teams rfl

theorem sameCfg_updTeam (s : State) (v : Nat) {f : Team → Team} (hf : ∀ t, (f t).cfg = t.cfg) : SameCfg s (s.updTeam v f) := fun u => by
  cases hv : tblGet s.teams v with
  | none => rw [State.updTeam_of_none hv]
  | some t =>
    rw [State.updTeam_of_some hv]
    by_cases hu : u = v
    · subst hu
      rw [State.team_setTeam_self, hv]
      simp [hf]
    · rw [State.team_setTeam_ne s _ hu]

theorem sameCfg_foldl {β : Type} {f : State → β → State} (hf : ∀ s b, SameCfg s (f s b)) (l : List β) (s : State) : SameCfg s (l.foldl f s) := by
  induction l generalizing s with
  | nil => exact SameCfg.refl s
  | cons b rest ih => exact (hf s b).trans (ih (f s b))

/-- The team a state names has the configuration it had. -/
theorem SameCfg.cfg_eq {s s1 : State} (h : SameCfg s s1) {u : Nat} {t t1 : Team} (ht : tblGet s.teams u = some t) (ht1 : tblGet s1.teams u = some t1) :
    t1.cfg = t.cfg := by
  have := h u
  rw [ht, ht1] at this
  simpa using this

theorem sameCfg_holdIntegrity (s : State) (u : Nat) (flag : Option Nat) (store : Bool) (slot va : Nat) : SameCfg s (holdIntegrity s u flag store slot va) :=
  sameCfg_updTeam s u fun _ => rfl

theorem sameCfg_serveAtomLane (u c : Nat) (b : Batch) (s : State) (a : AtomLane) : SameCfg s (serveAtomLane u c b s a) := by
  unfold serveAtomLane
  simp only
  split
  · split
    · exact (sameCfg_of_teams (teams_drawWords b.regs s)).trans (sameCfg_updTeam _ u fun _ => rfl)
    · exact sameCfg_of_teams (teams_drawWords b.regs s)
  · have hread : SameCfg s (homeTake (invalidateOwn s c a.pa b.size) false a.pa b.size).2 := sameCfg_of_teams (by simp)
    split
    · exact hread.trans (sameCfg_updTeam _ u fun _ => rfl)
    · exact hread.trans (sameCfg_holdIntegrity _ _ _ _ _ _)
    · split
      · exact (hread.trans (sameCfg_of_teams (teams_homeWrite _ _ _))).trans (sameCfg_updTeam _ u fun _ => rfl)
      · exact hread.trans (sameCfg_of_teams (teams_homeWrite _ _ _))

theorem sameCfg_serveBatch (s : State) (u c : Nat) (b : Batch) : SameCfg s (serveBatch s u c b) := by
  have hlanes : SameCfg s (b.lanes.foldl (serveAtomLane u c b) s) := sameCfg_foldl (sameCfg_serveAtomLane u c b) b.lanes s
  unfold serveBatch
  simp only
  split
  · exact hlanes.trans (sameCfg_updTeam _ u fun _ => rfl)
  · exact hlanes

theorem sameCfg_serveRegistration (s : State) (c : Nat) (es : List OutEntry) (e : OutEntry) (w : Nat) : SameCfg s (serveRegistration s c es e w) := by
  have hhome : ∀ ws, SameCfg s (crossLines (recallOthers s c ws) (128 * (w / 32)) 128) := fun ws => sameCfg_of_teams (by simp)
  unfold serveRegistration
  simp only
  generalize (if storeCovers es e.instr (w / 32) = true then lineWords (w / 32) else [w]) = ws
  refine (hhome ws).trans ?_
  generalize crossLines (recallOthers s c ws) (128 * (w / 32)) 128 = s0
  split
  · exact (sameCfg_of_teams (teams_dropStore s0 c w)).trans ((sameCfg_holdIntegrity _ _ _ _ _ _).trans (sameCfg_of_teams rfl))
  · split <;> exact sameCfg_of_teams (by simp)

theorem sameCfg_serveWork (s : State) (c : Nat) (es : List OutEntry) (e : OutEntry) : SameCfg s (serveWork s c es e) := by
  unfold serveWork
  split
  · exact sameCfg_serveRegistration s c es e _
  · rename_i pa bs _
    simp only
    have hhome : ∀ a n, SameCfg s (recallJudged (invalidateOwn s c pa bs.length) false a n).2 := fun a n => sameCfg_of_teams (by simp)
    generalize (if storeCovers es e.instr (pa / 128) = true then pa / 128 * 128 else pa) = a
    generalize (if storeCovers es e.instr (pa / 128) = true then 128 else bs.length) = n
    refine (hhome a n).trans ?_
    split
    · exact sameCfg_holdIntegrity _ _ _ _ _ _
    · exact sameCfg_of_teams (by simp)
  · exact SameCfg.refl s
  · exact sameCfg_serveBatch s _ c _

theorem sameCfg_serveStore (c instr p : Nat) (es : List OutEntry) (fuel : Nat) (s : State) : SameCfg s (serveStore c instr p es fuel s) := by
  induction fuel generalizing s with
  | zero => exact SameCfg.refl s
  | succ fuel ih =>
    unfold serveStore
    split
    · exact SameCfg.refl s
    · exact ((sameCfg_updCore s c _).trans (sameCfg_serveWork _ c es _)).trans (ih _)

theorem sameCfg_serveFirst (s : State) (c j : Nat) (x : OutEntry) : SameCfg s (serveFirst s c j x) := by
  unfold serveFirst
  simp only
  split
  · exact sameCfg_serveStore c _ _ _ _ s
  · exact (sameCfg_updCore s c _).trans (sameCfg_serveWork _ c _ x)

theorem sameCfg_serveEntries (c fuel k : Nat) (s : State) : SameCfg s (serveEntries c fuel k s) := by
  induction fuel generalizing k s with
  | zero => exact SameCfg.refl s
  | succ fuel ih =>
    unfold serveEntries
    simp only
    split
    · exact SameCfg.refl s
    · split
      · exact SameCfg.refl s
      · split
        · exact sameCfg_serveFirst s c _ _
        · exact (sameCfg_serveFirst s c _ _).trans (ih _ _)

theorem sameCfg_drainWhere (c : Nat) (p : OutEntry → Bool) (fuel : Nat) (s : State) : SameCfg s (drainWhere c p fuel s) := by
  induction fuel generalizing s with
  | zero => exact SameCfg.refl s
  | succ fuel ih =>
    unfold drainWhere
    split
    · exact SameCfg.refl s
    · exact (sameCfg_serveEntries c _ _ s).trans (ih _)

/-- A team's returning atomics served, their values bound: no configuration has changed. -/
theorem sameCfg_drainReturning (s : State) (u : Nat) (cfg : TeamCfg) : SameCfg s (drainReturning s u cfg) :=
  sameCfg_foldl (fun s c => sameCfg_drainWhere c _ _ s) _ s

end Sys2Proof.Machine
end

section
/-! PROOFS. What R87 accepts: the check of a job card against the statement of R83 to R87, field by field, row by row and region by region; and the windows of
R74 to R76. -/

namespace Sys2Proof.Machine

/-! ## Numbers in fields -/

/-- Sext is the two's complement reading. -/
theorem sextInt_eq_toInt (n x : Nat) (hn : 0 < n) : sextInt n x = (BitVec.ofNat n x).toInt := by
  obtain ⟨k, rfl⟩ : ∃ k, n = k + 1 := ⟨n - 1, by omega⟩
  rw [BitVec.toInt_eq_toNat_cond, BitVec.toNat_ofNat]
  unfold sextInt
  have h2 : 2 ^ (k + 1) = 2 * 2 ^ k := by rw [Nat.pow_succ, Nat.mul_comm]
  rw [Nat.add_sub_cancel]
  have hiff : x % 2 ^ (k + 1) < 2 ^ k ↔ 2 * (x % 2 ^ (k + 1)) < 2 ^ (k + 1) := by omega
  simp only [hiff]

theorem wrapNat_eq_toNat (n : Nat) (x : Int) : wrapNat n x = (BitVec.ofInt n x).toNat := by
  rw [BitVec.toNat_ofInt]
  rfl

/-- Bits of the first doubleword of a number are bits of the number. -/
theorem bits_mod_dword (x hi lo : Nat) (h : hi < 64) : bits (x % 2 ^ 64) hi lo = bitsAt x hi lo := by
  unfold bits bitsAt
  by_cases hlo : lo ≤ hi
  · obtain ⟨k, hk⟩ : ∃ k, 64 = lo + k := ⟨64 - lo, by omega⟩
    rw [hk, Nat.pow_add, Nat.mod_mul_right_div_self, Nat.mod_mod_of_dvd _ (Nat.pow_dvd_pow 2 (by omega))]
  · rw [show hi + 1 - lo = 0 by omega, Nat.pow_zero, Nat.mod_one, Nat.mod_one]

theorem bits_ctl (c : BitVec 2048) (hi lo : Nat) (h : hi < 64) : bits (cardField c 0 8) hi lo = bitsAt c.toNat hi lo := by
  have hfield : cardField c 0 8 = c.toNat % 2 ^ 64 := by simp [cardField]
  rw [hfield, bits_mod_dword _ _ _ h]

/-! ## Coverage by regions (R87) -/

/-- A byte lies in one of the regions. -/
def InRegions (rs : List (Nat × Nat)) (x : Nat) : Prop := ∃ r ∈ rs, r.1 ≤ x ∧ x < r.1 + r.2

/-- The walk from region to region finds exactly the runs that lie in the regions: each step leaves a region behind for good. -/
theorem covered_iff (rs : List (Nat × Nat)) (fuel lo hi : Nat) (h : (rs.filter (fun r => decide (lo < r.1 + r.2))).length < fuel) :
    covered rs fuel lo hi = true ↔ ∀ x, lo ≤ x → x < hi → InRegions rs x := by
  induction fuel generalizing lo with
  | zero => omega
  | succ fuel ih =>
    unfold covered
    by_cases hle : hi ≤ lo
    · rw [if_pos hle]
      exact iff_of_true rfl fun x hlo hhi => by omega
    rw [if_neg hle]
    cases hfind : rs.find? (fun r => decide (r.1 ≤ lo) && decide (lo < r.1 + r.2)) with
    | none =>
      refine iff_of_false (by simp) fun hall => ?_
      obtain ⟨r, hr, hlo, hhi⟩ := hall lo le_rfl (by omega)
      have := List.find?_eq_none.mp hfind r hr
      simp [hlo, hhi] at this
    | some r =>
      have hmem : r ∈ rs := List.mem_of_find?_eq_some hfind
      have hin := List.find?_some hfind
      simp only [Bool.and_eq_true, decide_eq_true_eq] at hin
      obtain ⟨hlo, hhi⟩ := hin
      have hfewer : (rs.filter (fun q => decide (r.1 + r.2 < q.1 + q.2))).length < fuel := by
        have hsub : (rs.filter (fun q => decide (r.1 + r.2 < q.1 + q.2))).Sublist (rs.filter (fun q => decide (lo < q.1 + q.2))) :=
          List.monotone_filter_right rs fun q hq => by simp only [decide_eq_true_eq] at hq ⊢; omega
        rcases Nat.lt_or_eq_of_le hsub.length_le with hlt | heq
        · omega
        · have hr : r ∈ rs.filter (fun q => decide (r.1 + r.2 < q.1 + q.2)) := by
            rw [hsub.eq_of_length heq]
            simp [hmem, hhi]
          simp at hr
      show covered rs fuel (r.1 + r.2) hi = true ↔ _
      rw [ih _ hfewer]
      refine ⟨fun hrest x hx hxhi => ?_, fun hall x hx hxhi => hall x (by omega) hxhi⟩
      by_cases hxr : x < r.1 + r.2
      · exact ⟨r, hmem, by omega, hxr⟩
      · exact hrest x (by omega) hxhi

theorem runCovered_iff (rs : List (Nat × Nat)) (lo n : Nat) : runCovered rs lo n = true ↔ ∀ i, i < n → InRegions rs (lo + i) := by
  unfold runCovered
  rw [covered_iff rs _ lo (lo + n) (Nat.lt_succ_of_le (List.length_filter_le _ _))]
  refine ⟨fun h i hi => h _ (by omega) (by omega), fun h x hlo hhi => ?_⟩
  obtain ⟨i, rfl⟩ : ∃ i, x = lo + i := ⟨x - lo, by omega⟩
  exact h i (by omega)

/-- The regions in use of one side of a card: 0x80 reads, 0xC0 writes. -/
def sideRegions (c : BitVec 2048) (side : Nat) : List (Nat × Nat) :=
  ((List.range 4).map (fun k => cardRegion c (side + 16 * k))).filter (fun r => decide (r.2 ≠ 0))

theorem cardReads_eq (c : BitVec 2048) : cardReads c = sideRegions c 0x80 := rfl
theorem cardWrites_eq (c : BitVec 2048) : cardWrites c = sideRegions c 0xC0 := rfl

theorem mem_sideRegions {c : BitVec 2048} {side : Nat} {r : Nat × Nat} :
    r ∈ sideRegions c side ↔ ∃ j, j < 4 ∧ cardRegion c (side + 16 * j) = r ∧ r.2 ≠ 0 := by
  simp only [sideRegions, List.mem_filter, List.mem_map, List.mem_range, decide_eq_true_eq]
  exact ⟨fun ⟨⟨j, hj, hr⟩, h0⟩ => ⟨j, hj, hr, h0⟩, fun ⟨j, hj, hr, h0⟩ => ⟨⟨j, hj, hr⟩, h0⟩⟩

theorem forall_mem_sideRegions {c : BitVec 2048} {side : Nat} {p : Nat × Nat → Prop} :
    (∀ r ∈ sideRegions c side, p r) ↔ ∀ j, j < 4 → (cardRegion c (side + 16 * j)).2 ≠ 0 → p (cardRegion c (side + 16 * j)) := by
  refine ⟨fun h j hj h0 => h _ (mem_sideRegions.mpr ⟨j, hj, rfl, h0⟩), fun h r hr => ?_⟩
  obtain ⟨j, hj, rfl, h0⟩ := mem_sideRegions.mp hr
  exact h j hj h0

theorem inRegions_sideRegions {c : BitVec 2048} {side x : Nat} :
    InRegions (sideRegions c side) x ↔
      ∃ j, j < 4 ∧ (cardRegion c (side + 16 * j)).1 ≤ x ∧ x < (cardRegion c (side + 16 * j)).1 + (cardRegion c (side + 16 * j)).2 := by
  constructor
  · rintro ⟨r, hr, hlo, hhi⟩
    obtain ⟨j, hj, rfl, -⟩ := mem_sideRegions.mp hr
    exact ⟨j, hj, hlo, hhi⟩
  · rintro ⟨j, hj, hlo, hhi⟩
    exact ⟨_, mem_sideRegions.mpr ⟨j, hj, rfl, by omega⟩, hlo, hhi⟩

theorem cardRow_eq (c : BitVec 2048) (base so1 so2 k1 k2 : Nat) :
    cardRow c (cardField c base 8) so1 so2 k1 k2 =
      (BitVec.ofInt 64 ((cardField c base 8 : Int) + k1 * (BitVec.ofNat 64 (cardField c so1 8)).toInt +
        k2 * (BitVec.ofNat 64 (cardField c so2 8)).toInt)).toNat := by
  unfold cardRow
  rw [wrapNat_eq_toNat, sextInt_eq_toInt 64 _ (by decide), sextInt_eq_toInt 64 _ (by decide)]

/-! ## Places of regions (R76, R87) -/

/-- Where a region's first byte lies, by its window: 0 and its virtual address, or 1 + core and its physical offset. -/
def placeOf (win : Nat → Nat → Win) (r : Nat × Nat) : Option (Nat × Nat) :=
  match win r.1 r.2 with
  | .no => some (0, r.1)
  | .at core off => some (core + 1, off)
  | .malformed => none
  | .out => none

/-- A region whose addresses are those of one window or of none. -/
def RegionWhole (r : Nat × Nat) : Prop :=
  r.1 < 2 ^ 52 ∧ r.1 + r.2 ≤ 2 ^ 52 ∧ (r.1 < 0xFE00000000000 → r.1 + r.2 ≤ 0xFE00000000000)

theorem isWindowVa_iff {va : Nat} (h : va < 2 ^ 52) : isWindowVa va = true ↔ 0xFE00000000000 ≤ va := by
  rw [isWindowVa, Bool.or_eq_true, decide_eq_true_iff, decide_eq_true_iff]
  unfold bits
  omega

theorem bits_high {va : Nat} (h : va < 2 ^ 64) : bits va 63 52 = 0 ↔ va < 2 ^ 52 := by
  simp only [bits]
  omega

theorem placeRegion_eq (win : Nat → Nat → Win) {r : Nat × Nat} (h : r.1 < 2 ^ 64) (p : Place) :
    placeRegion win r = some p ↔ RegionWhole r ∧ placeOf win r = some (p.1, p.2.1) ∧ p.2.2 = r.2 := by
  have hguard : (bits r.1 63 52 ≠ 0 ∨ 2 ^ 52 < r.1 + r.2 ∨ (!isWindowVa r.1 ∧ 0xFE00000000000 < r.1 + r.2)) ↔ ¬ RegionWhole r := by
    unfold RegionWhole
    by_cases hlow : r.1 < 2 ^ 52
    · have hwin := isWindowVa_iff hlow
      rw [Bool.not_eq_true', ← Bool.not_eq_true, hwin]
      have := bits_high h
      omega
    · have := bits_high h
      omega
  obtain ⟨core, off, n⟩ := p
  unfold placeRegion placeOf
  by_cases hwhole : RegionWhole r
  · rw [if_neg (by rw [hguard]; exact not_not_intro hwhole)]
    cases win r.1 r.2 <;> simp [hwhole] <;> grind
  · rw [if_pos (hguard.mpr hwhole)]
    simp [hwhole]

theorem isSome_placeRegion (win : Nat → Nat → Win) {r : Nat × Nat} (h : r.1 < 2 ^ 64) :
    (placeRegion win r).isSome = true ↔ RegionWhole r ∧ (placeOf win r).isSome = true := by
  simp only [Option.isSome_iff_exists]
  constructor
  · rintro ⟨p, hp⟩
    obtain ⟨hwhole, hplace, -⟩ := (placeRegion_eq win h p).mp hp
    exact ⟨hwhole, _, hplace⟩
  · rintro ⟨hwhole, q, hq⟩
    exact ⟨(q.1, q.2, r.2), (placeRegion_eq win h _).mpr ⟨hwhole, hq, rfl⟩⟩

theorem cardRegion_lt (c : BitVec 2048) (off : Nat) : (cardRegion c off).1 < 2 ^ 64 := Nat.mod_lt _ (by decide)

theorem overlaps_eq_false {a b : Place} : overlaps a b = false ↔ (a.1 = b.1 → a.2.1 + a.2.2 ≤ b.2.1 ∨ b.2.1 + b.2.2 ≤ a.2.1) := by
  simp only [overlaps, Bool.and_eq_false_iff, decide_eq_false_iff_not]
  omega

/-! ## The check of R87 -/

theorem cardFieldsOk_iff (c : BitVec 2048) :
    cardFieldsOk c = true ↔
      (bitsAt c.toNat 63 12 = 0 ∧ fieldAt c.toNat 0 1 ≤ 2 ∧ (fieldAt c.toNat 0 1 = 2 → bitsAt c.toNat 10 8 ≠ 0) ∧
        (fieldAt c.toNat 0 1 ≠ 2 → bitsAt c.toNat 11 8 = 0) ∧ (fieldAt c.toNat 0 1 = 1 → fieldAt c.toNat 0x08 8 = 0) ∧
        (fieldAt c.toNat 0 1 ≠ 1 → fieldAt c.toNat 0x18 8 = 0) ∧ fieldAt c.toNat 0x2C 4 = 0 ∧ fieldAt c.toNat 0x60 32 = 0 ∧ fieldAt c.toNat 0x50 8 % 8 = 0 ∧
        ∀ j, j < 8 → fieldAt c.toNat (0x80 + 16 * j + 13) 3 = 0) := by
  unfold cardFieldsOk
  simp only [bits_ctl c _ _ (by decide : 63 < 64), bits_ctl c _ _ (by decide : 10 < 64), bits_ctl c _ _ (by decide : 11 < 64)]
  show _ ↔ (_ ∧ cardKind c ≤ 2 ∧ (cardKind c = 2 → _) ∧ (cardKind c ≠ 2 → _) ∧ (cardKind c = 1 → cardSrc c = 0) ∧ (cardKind c ≠ 1 → cardField c 0x18 8 = 0) ∧
    cardField c 0x2C 4 = 0 ∧ cardField c 0x60 32 = 0 ∧ cardComp c % 8 = 0 ∧ ∀ j, j < 8 → cardField c (0x80 + 16 * j + 13) 3 = 0)
  by_cases h2 : cardKind c = 2 <;> by_cases h1 : cardKind c = 1 <;> simp [h1, h2, and_assoc]

theorem cardCountsOk_iff (c : BitVec 2048) :
    cardCountsOk c = true ↔
      (1 ≤ fieldAt c.toNat 0x20 4 ∧ 1 ≤ fieldAt c.toNat 0x24 4 ∧ 1 ≤ fieldAt c.toNat 0x28 4 ∧
        (fieldAt c.toNat 0 1 = 2 → fieldAt c.toNat 0x28 4 = 1 ∧ fieldAt c.toNat 0x20 4 =
          (bitsAt c.toNat 10 8 + 1) * ((if bitsAt c.toNat 11 11 = 1 then 16 else 32) * (if bitsAt c.toNat 11 11 = 1 then 16 else 32) / 8))) := by
  unfold cardCountsOk cardWidth cardEdge
  simp only [bits_ctl c _ _ (by decide : 10 < 64), bits_ctl c _ _ (by decide : 11 < 64)]
  show _ ↔ (1 ≤ cardLen c ∧ 1 ≤ cardCnt1 c ∧ 1 ≤ cardCnt2 c ∧ (cardKind c = 2 → cardCnt2 c = 1 ∧ cardLen c = _))
  by_cases h2 : cardKind c = 2 <;> simp [h2, and_assoc]

theorem mem_cardRows {c : BitVec 2048} {k : Nat × Nat} : k ∈ cardRows c ↔ k.1 < cardCnt1 c ∧ k.2 < cardCnt2 c := by
  obtain ⟨k1, k2⟩ := k
  simp [cardRows, and_comm]

theorem cardCovered_iff (c : BitVec 2048) :
    cardCovered c = true ↔
      (∀ k1 k2 i, k1 < cardCnt1 c → k2 < cardCnt2 c → i < cardLen c →
        (cardKind c ≠ 1 → InRegions (sideRegions c 0x80) (cardSrcRow c k1 k2 + i)) ∧ InRegions (sideRegions c 0xC0) (cardDstRow c k1 k2 + i)) ∧
      (cardComp c ≠ 0 → ∀ i, i < 8 → InRegions (sideRegions c 0xC0) (cardComp c + i)) := by
  unfold cardCovered
  simp only [Bool.and_eq_true, List.all_eq_true, Bool.or_eq_true, decide_eq_true_eq, runCovered_iff, cardReads_eq, cardWrites_eq]
  refine and_congr ⟨fun h k1 k2 i h1 h2 hi => ?_, fun h k hk => ?_⟩ (by rw [← or_iff_not_imp_left])
  · obtain ⟨hr, hw⟩ := h (k1, k2) (mem_cardRows.mpr ⟨h1, h2⟩)
    exact ⟨fun hk => hr.resolve_left hk i hi, hw i hi⟩
  · obtain ⟨h1, h2⟩ := mem_cardRows.mp hk
    refine ⟨or_iff_not_imp_left.mpr fun hk i hi => (h _ _ i h1 h2 hi).1 hk, fun i hi => (h _ _ i h1 h2 hi).2⟩

theorem isSome_acceptCard (win : Nat → Nat → Win) (c : BitVec 2048) :
    (acceptCard win c).isSome = true ↔
      cardFieldsOk c = true ∧ cardCountsOk c = true ∧ cardCovered c = true ∧ (∀ r ∈ cardReads c, (placeRegion win r).isSome = true) ∧
        (∀ r ∈ cardWrites c, (placeRegion win r).isSome = true) ∧
        ∀ r ∈ cardReads c, ∀ w ∈ cardWrites c, ∀ p q, placeRegion win r = some p → placeRegion win w = some q → overlaps p q = false := by
  have hall : ∀ rs : List (Nat × Nat), (rs.map (placeRegion win)).all Option.isSome = true ↔ ∀ r ∈ rs, (placeRegion win r).isSome = true := fun rs => by
    simp [List.all_map, List.all_eq_true]
  have hany : (((cardReads c).map (placeRegion win)).filterMap id).any (fun r => (((cardWrites c).map (placeRegion win)).filterMap id).any (overlaps r)) = true ↔
      ¬ ∀ r ∈ cardReads c, ∀ w ∈ cardWrites c, ∀ p q, placeRegion win r = some p → placeRegion win w = some q → overlaps p q = false := by
    simp only [List.any_eq_true, List.mem_filterMap, List.mem_map, id, exists_exists_and_eq_and]
    grind
  unfold acceptCard
  simp only
  split
  · rename_i h
    simp only [Bool.and_eq_true, hall] at h
    obtain ⟨⟨⟨⟨hf, hn⟩, hc⟩, hr⟩, hw⟩ := h
    split
    · rename_i ho
      exact iff_of_false (by simp) fun hx => (hany.mp ho) hx.2.2.2.2.2
    · rename_i ho
      exact iff_of_true rfl ⟨hf, hn, hc, hr, hw, by_contra fun hx => ho (hany.mpr hx)⟩
  · rename_i h
    refine iff_of_false (by simp) fun ⟨hf, hn, hc, hr, hw, _⟩ => h ?_
    simp only [Bool.and_eq_true, hall]
    exact ⟨⟨⟨⟨hf, hn⟩, hc⟩, hr⟩, hw⟩

/-- R87 accepts the cards that CardGood describes. -/
theorem cardGood_iff (win : Nat → Nat → Win) (c : BitVec 2048) : CardGood win c ↔ (acceptCard win c).isSome = true := by
  rw [isSome_acceptCard, cardFieldsOk_iff]
  unfold CardGood
  refine and_congr Iff.rfl ?_
  rw [cardCountsOk_iff]
  refine and_congr Iff.rfl ?_
  rw [cardCovered_iff, and_assoc]
  refine and_congr ?_ (and_congr ?_ ?_)
  · simp only [inRegions_sideRegions, cardSrcRow, cardDstRow, cardSrc, cardDst, cardRow_eq]
    exact Iff.rfl
  · simp only [inRegions_sideRegions]
    exact Iff.rfl
  · simp only [cardReads_eq, cardWrites_eq, forall_mem_sideRegions, isSome_placeRegion win (cardRegion_lt c _), placeRegion_eq win (cardRegion_lt c _),
      overlaps_eq_false]
    constructor
    · rintro ⟨hplaced, hapart⟩
      have hside : ∀ side j, side = 0x80 ∨ side = 0xC0 → j < 4 → (cardRegion c (side + 16 * j)).2 ≠ 0 →
          RegionWhole (cardRegion c (side + 16 * j)) ∧ (placeOf win (cardRegion c (side + 16 * j))).isSome = true := fun side j hs hj h0 => by
        obtain ⟨hlt, hend, hwin, hsome⟩ := hplaced side j hs hj h0
        exact ⟨⟨hlt, hend, hwin⟩, hsome⟩
      refine ⟨fun j => hside 0x80 j (.inl rfl), fun j => hside 0xC0 j (.inr rfl), fun i hi h0 j hj h1 p q hp hq he => ?_⟩
      obtain ⟨-, hp, hn⟩ := hp
      obtain ⟨-, hq, hm⟩ := hq
      rw [hn, hm]
      exact hapart i j _ _ hi hj h0 h1 hp hq he
    · rintro ⟨hr, hw, hapart⟩
      refine ⟨fun side j hs hj h0 => ?_, fun i j p q hi hj h0 h1 hp hq he =>
        hapart i hi h0 j hj h1 (p.1, p.2, _) (q.1, q.2, _) ⟨(hr i hi h0).1, hp, rfl⟩ ⟨(hw j hj h1).1, hq, rfl⟩ he⟩
      have hside : RegionWhole (cardRegion c (side + 16 * j)) ∧ (placeOf win (cardRegion c (side + 16 * j))).isSome = true := by
        rcases hs with rfl | rfl
        · exact hr j hj h0
        · exact hw j hj h0
      obtain ⟨⟨hlt, hend, hwin⟩, hsome⟩ := hside
      exact ⟨hlt, hend, hwin, hsome⟩

/-! ## Windows (R74 to R76) -/

/-- An address is one of a window by its bits 51:44. -/
theorem window_eq_no (s : State) (t : Team) (va n : Nat) : window s t va n = .no ↔ va / 2 ^ 44 % 2 ^ 8 < 0xFE := by
  have h : bits va 51 44 = va / 2 ^ 44 % 2 ^ 8 := rfl
  have hlt : va / 2 ^ 44 % 2 ^ 8 < 2 ^ 8 := Nat.mod_lt _ (by decide)
  unfold window
  rw [h]
  by_cases hff : va / 2 ^ 44 % 2 ^ 8 = 0xFF
  · rw [if_pos hff]
    refine iff_of_false ?_ (by omega)
    split <;> [simp; (split <;> simp)]
  by_cases hfe : va / 2 ^ 44 % 2 ^ 8 = 0xFE
  · rw [if_neg hff, if_pos hfe]
    refine iff_of_false ?_ (by omega)
    split <;> [simp; (simp only; split <;> simp)]
  · rw [if_neg hff, if_neg hfe]
    exact iff_of_true rfl (by omega)

/-- An address of the team's own window, by its offset. -/
theorem ownWindow_iff {va : Nat} (h : va < 2 ^ 64) :
    bits va 51 44 = 0xFF ∧ ¬ (bits va 63 52 ≠ 0 ∨ bits va 43 32 ≠ 0) ↔ va = 0xFF00000000000 + bits va 31 0 := by
  unfold bits
  omega

/-- An address of the cluster's window, by its core and its offset. -/
theorem clusterWindow_iff {va : Nat} (h : va < 2 ^ 64) :
    bits va 51 44 = 0xFE ∧ ¬ (bits va 63 52 ≠ 0 ∨ bits va 43 23 ≠ 0) ↔ va = 0xFE00000000000 + bits va 22 20 * 0x100000 + bits va 19 0 := by
  unfold bits
  omega

/-- The team whose allocation of a core holds n bytes at an offset, as the cluster window needs it. -/
def HoldsBytes (t w : Team) (core p n : Nat) : Prop :=
  w.cfg.core = core ∧ w.saved = false ∧ w.cfg.ctx = t.cfg.ctx ∧ w.cfg.spbase ≤ p ∧ p + n ≤ w.cfg.spbase + w.cfg.spsize

theorem exists_holdsBytes_iff (s : State) (t : Team) (core p n : Nat) :
    s.teams.any (fun ut => decide (ut.2.cfg.core = core) && !ut.2.saved && decide (ut.2.cfg.ctx = t.cfg.ctx) &&
      decide (ut.2.cfg.spbase ≤ p) && decide (p + n ≤ ut.2.cfg.spbase + ut.2.cfg.spsize)) = true ↔ ∃ v w, (v, w) ∈ s.teams ∧ HoldsBytes t w core p n := by
  simp only [List.any_eq_true, Bool.and_eq_true, Bool.not_eq_true', decide_eq_true_eq, Prod.exists, HoldsBytes, and_assoc]

/-- A window access by its window: the team's own, or its cluster's. -/
theorem window_eq_at (s : State) (t : Team) {va : Nat} (h : va < 2 ^ 64) (n core off : Nat) :
    window s t va n = .at core off ↔
      (va = 0xFF00000000000 + bits va 31 0 ∧ bits va 31 0 + n ≤ t.cfg.spsize ∧ core = t.cfg.core ∧ off = t.cfg.spbase + bits va 31 0) ∨
      (va = 0xFE00000000000 + bits va 22 20 * 0x100000 + bits va 19 0 ∧ off = bits va 19 0 ∧ core = t.cfg.core / 8 * 8 + bits va 22 20 ∧
        ∃ v w, (v, w) ∈ s.teams ∧ HoldsBytes t w core off n) := by
  have hown := ownWindow_iff h
  have hcluster := clusterWindow_iff h
  have hteams := exists_holdsBytes_iff s t (t.cfg.core / 8 * 8 + bits va 22 20) (bits va 19 0) n
  unfold window
  by_cases hff : bits va 51 44 = 0xFF
  · have hnot : ¬ va = 0xFE00000000000 + bits va 22 20 * 0x100000 + bits va 19 0 := fun hx => by
      have := (hcluster.mpr hx).1
      omega
    rw [if_pos hff]
    by_cases hmal : bits va 63 52 ≠ 0 ∨ bits va 43 32 ≠ 0
    · have hva : ¬ va = 0xFF00000000000 + bits va 31 0 := fun hx => (hown.mpr hx).2 hmal
      simp [hmal, hnot, hva]
    · have hva : va = 0xFF00000000000 + bits va 31 0 := hown.mp ⟨hff, hmal⟩
      rw [if_neg hmal]
      by_cases hsize : bits va 31 0 + n ≤ t.cfg.spsize
      · simp [hsize, hnot, ← hva, eq_comm]
      · simp [hsize, hnot]
  · have hnot : ¬ va = 0xFF00000000000 + bits va 31 0 := fun hx => hff (hown.mpr hx).1
    rw [if_neg hff]
    by_cases hfe : bits va 51 44 = 0xFE
    · rw [if_pos hfe]
      by_cases hmal : bits va 63 52 ≠ 0 ∨ bits va 43 23 ≠ 0
      · have hva : ¬ va = 0xFE00000000000 + bits va 22 20 * 0x100000 + bits va 19 0 := fun hx => (hcluster.mpr hx).2 hmal
        simp [hmal, hnot, hva]
      · have hva : va = 0xFE00000000000 + bits va 22 20 * 0x100000 + bits va 19 0 := hcluster.mp ⟨hfe, hmal⟩
        rw [if_neg hmal]
        simp only [hnot, false_and, false_or]
        split
        · rename_i hany
          have hex := hteams.mp hany
          constructor
          · intro heq
            obtain ⟨rfl, rfl⟩ := Win.at.inj heq
            exact ⟨hva, rfl, rfl, hex⟩
          · rintro ⟨-, rfl, rfl, -⟩
            rfl
        · rename_i hany
          refine iff_of_false (by simp) ?_
          rintro ⟨-, rfl, rfl, hex⟩
          exact hany (hteams.mpr hex)
    · have hva : ¬ va = 0xFE00000000000 + bits va 22 20 * 0x100000 + bits va 19 0 := fun hx => hfe (hcluster.mpr hx).1
      rw [if_neg hfe]
      simp [hnot, hva]

/-- The window check of R76 passes exactly for the bytes of an allocation. -/
theorem window_eq_at_iff_inScratch (s : State) (t : Team) {va : Nat} (h : va < 2 ^ 64) (n core off : Nat) :
    window s t va n = .at core off ↔ InScratch s t va n core off := by
  rw [window_eq_at s t h]
  unfold InScratch HoldsBytes
  refine or_congr ⟨?_, ?_⟩ ⟨?_, ?_⟩
  · rintro ⟨hva, hsize, hcore, hoff⟩
    exact ⟨bits va 31 0, hva, Nat.mod_lt _ (by decide), hsize, hcore, hoff⟩
  · rintro ⟨o, rfl, ho, hsize, hcore, hoff⟩
    have hbits : bits (0xFF00000000000 + o) 31 0 = o := by unfold bits; omega
    rw [hbits]
    exact ⟨rfl, hsize, hcore, hoff⟩
  · rintro ⟨hva, hoff, hcore, v, w, hmem, hw1, hw2, hw3, hw4, hw5⟩
    exact ⟨bits va 22 20, v, w, by rw [hoff]; exact hva, Nat.mod_lt _ (by decide), by rw [hoff]; exact Nat.mod_lt _ (by decide), hcore, hmem, hw1, hw2, hw3,
      hw4, hw5⟩
  · rintro ⟨k, v, w, rfl, hk, hoff, hcore, hmem, hw1, hw2, hw3, hw4, hw5⟩
    have hcoreBits : bits (0xFE00000000000 + k * 0x100000 + off) 22 20 = k := by unfold bits; omega
    have hoffBits : bits (0xFE00000000000 + k * 0x100000 + off) 19 0 = off := by unfold bits; omega
    rw [hcoreBits, hoffBits]
    exact ⟨rfl, rfl, hcore, v, w, hmem, hw1, hw2, hw3, hw4, hw5⟩

end Sys2Proof.Machine
end

section
/-! PROOFS. CARD, CWAIT and CPOLL: the release and acquire sides where they pass, the card handed over, the wait and the status. -/

namespace Sys2Proof.Machine

/-! ## Sources that no lane poisons -/

/-- Operands that are read lane by lane are no v registers. -/
def NoLaneReads (os : List Opnd) : Prop := ∀ o ∈ os, o.reads = true → ∀ r, o.sel ≠ .v r

theorem unpoisoned_of_noLaneReads {os : List Opnd} (h : NoLaneReads os) (t : Team) (m : Mask) : Unpoisoned t os m := by
  unfold Unpoisoned poisonedLanes
  split
  · rfl
  rw [List.filter_eq_nil_iff.mpr fun k _ => ?_]
  · rfl
  rw [Bool.not_eq_true, List.any_eq_false]
  intro o ho
  cases hsel : o.sel with
  | v r =>
    cases hreads : o.reads with
    | false => simp
    | true => exact absurd hsel (h o ho hreads r)
  | _ => simp

theorem ne_v_of_isUsrc {a : Sel} (h : a.isUsrc = true) (r : Nat) : a ≠ .v r := fun ha => by simp [ha, Sel.isUsrc] at h

/-! ## The release and the acquire side, where they pass (R201, R202) -/

theorem integrityTrap_eq_none {t : Team} {p : HeldIntegrity → Bool} (h : ∀ i ∈ t.integrity, delivers t p i = false) (level : Bool) :
    integrityTrap t p level = none := by
  have hnil : t.integrity.filter (delivers t p) = [] := List.filter_eq_nil_iff.mpr fun i hi => by simp [h i hi]
  simp [integrityTrap, hnil]

theorem releaseThen_of_passes {s s1 : State} {u : Nat} {t : Team} (h : ReleasePasses s u t s1) {x : Issue} (hu : x.u = u) (ht : x.t = t) (k : State → Eff) :
    releaseThen s x k = k s1 := by
  subst hu ht
  obtain ⟨rfl, t1, hteam, hclear⟩ := h
  unfold releaseThen
  simp only [hteam, integrityTrap_eq_none hclear]

theorem acquireThen_of_passes {s s1 : State} {u : Nat} {t : Team} (hteam : tblGet s.teams u = some t) (h : AcquirePasses s u t s1) {x : Issue} (hu : x.u = u)
    (ht : x.t = t) (k : State → Eff) : acquireThen s x k = k s1 := by
  subst hu ht
  obtain ⟨rfl, t1, hteam1, hclear, hqpop⟩ := h
  have hcfg : t1.cfg = x.t.cfg :=
    ((sameCfg_drainReturning s x.u x.t.cfg).trans (sameCfg_updTeam _ x.u (f := surfacePoison) fun _ => rfl)).cfg_eq hteam hteam1
  have hnone : t1.late.any (fun o => match o.wait with
      | .qpop _ => true
      | _ => false) = false := by
    rw [List.any_eq_false]
    intro o ho
    cases hwait : o.wait with
    | qpop pa => exact absurd hwait (hqpop o ho pa)
    | _ => simp
  unfold acquireThen
  simp only [hteam1, integrityTrap_eq_none hclear, hcfg]
  rw [if_neg (by rw [Bool.not_eq_true]; exact hnone)]

/-! ## The card handed over (R293) -/

theorem tblGet_updTeam {s : State} {u : Nat} {t : Team} (h : tblGet s.teams u = some t) (f : Team → Team) : tblGet (s.updTeam u f).teams u = some (f t) := by
  rw [State.updTeam_of_some h, State.team_setTeam_self]

theorem cards_updTeam (s : State) (u : Nat) (f : Team → Team) : (s.updTeam u f).cards = s.cards := by
  unfold State.updTeam
  split <;> rfl

/-- The card as it is accepted, and what its team keeps of it. -/
def newCard (x : Issue) (b : BitVec 2048) (k id : Nat) : Card :=
  { id := id, bits := b, ctx := x.t.cfg.ctx, core := x.t.cfg.core, team := some x.u, ring := none, ticket := k, status := 1, started := false,
    pins := [], after := [], afterLoops := [], spbase := x.t.cfg.spbase, spsize := x.t.cfg.spsize, row := 0, got := [], put := 0 }

def countTicket (k : Nat) (t : Team) : Team :=
  { t with tickets := k, cards := (if t.cards.length < 64 then t.cards else t.cards.drop 1) ++ [{ ticket := k, status := 1 }] }

/-- The state in which a card has been accepted, before its ticket is written. -/
def cardAdded (s : State) (x : Issue) (b : BitVec 2048) (k : Nat) : State := (addCard (takeId s).2 (newCard x b k s.nextId)).updTeam x.u (countTicket k)

theorem submitCard_of_refused {d : Sel} {bs : List Byte} {s : State} {x : Issue}
    (h : ¬ (acceptCard (teamWin s x.t) (BitVec.ofNat 2048 (natOfBytes bs))).isSome = true) : submitCard d bs s x = trapExec .card s x := by
  unfold submitCard
  simp only [Option.not_isSome_iff_eq_none.mp h]

theorem submitCard_of_accepted {d : Sel} {bs : List Byte} {s : State} {x : Issue}
    (h : (acceptCard (teamWin s x.t) (BitVec.ofNat 2048 (natOfBytes bs))).isSome = true) :
    submitCard d bs s x = .done (answerLate (startLate (cardAdded s x (BitVec.ofNat 2048 (natOfBytes bs)) (nextTicket x.t.tickets)) x.u (readsFlag x) id).2
      x.u (startLate (cardAdded s x (BitVec.ofNat 2048 (natOfBytes bs)) (nextTicket x.t.tickets)) x.u (readsFlag x) id).1 d (nextTicket x.t.tickets)) := by
  obtain ⟨places, hplaces⟩ := Option.isSome_iff_exists.mp h
  unfold submitCard
  simp only [hplaces]
  rfl

/-- A late operation and its answer leave the accepted cards, and a team's tickets, as they were. -/
theorem cards_answerLate_startLate (s : State) (u flag id : Nat) (d : Sel) (v : Nat) (f : LateOp → LateOp) :
    (answerLate (startLate s u flag f).2 u id d v).cards = s.cards := by
  unfold answerLate startLate
  rw [cards_updTeam, cards_updTeam]
  rfl

theorem tickets_answerLate_startLate {s : State} {u : Nat} {t : Team} (h : tblGet s.teams u = some t) (flag id : Nat) (d : Sel) (v : Nat)
    (f : LateOp → LateOp) :
    ∃ t1, tblGet (answerLate (startLate s u flag f).2 u id d v).teams u = some t1 ∧ t1.tickets = t.tickets ∧ t1.cards = t.cards := by
  refine ⟨_, tblGet_updTeam (tblGet_updTeam (s := (takeId s).2) h _) _, ?_, ?_⟩
  · unfold bindLate updLate raiseFlag
    split <;> rfl
  · unfold bindLate updLate raiseFlag
    split <;> rfl

/-- What a card handed over adds to the accepted ones, and to its team. -/
theorem cardAdded_adds {s : State} {x : Issue} {t : Team} (h : tblGet s.teams x.u = some t) (b : BitVec 2048) (k : Nat) :
    tblGet (cardAdded s x b k).teams x.u = some (countTicket k t) ∧
      ∃ card, (cardAdded s x b k).cards = s.cards ++ [card] ∧ card.bits = b ∧ card.status = 1 ∧ card.started = false ∧ card.ticket = k ∧ card.team = some x.u :=
  ⟨tblGet_updTeam (s := addCard (takeId s).2 (newCard x b k s.nextId)) h _, _, by rw [cardAdded, cards_updTeam]; rfl, rfl, rfl, rfl, rfl, rfl⟩

/-- The forms by which CARD, CWAIT and CPOLL are checked. -/
def cardForm (d a : Sel) : Form := { plainForm anyType (fun _ => [dst d 1, src a 2]) with late := true, mem := true, cls := 1 }
def cwaitForm (a : Sel) : Form := plainForm anyType (fun _ => [src a 1])
def cpollForm (d a : Sel) : Form := { plainForm anyType (fun _ => [dst d 1, src a 1]) with late := true, cls := 1 }

section Card
variable {s s1 s2 s3 : State} {u : Nat} {t : Team} {c : Clause} {d a : Sel} {bs : List Byte}

/-- CARD, once its release side has passed and its 256 bytes are read, hands over the card. -/
theorem exec_card_reads (h : Issuing s u t c) (hfree : slicePending t = false) (hflag : flagCount t c.reads ≠ 63)
    (hlegal : Legal (.card d a) t true anyType [dst d 1, src a 2]) (hd : isSreg d = true) (hrel : ReleasePasses s u t s1) (hfew : cardsPending s1 u < 64)
    (hcheck : checkRun s1 t (readVal t c.lit 0 a 2) 256 256 needR true = (.ok, s2)) (hread : readRun s2 u t (readVal t c.lit 0 a 2) 256 = (some bs, s3)) :
    ∃ x : Issue, x.u = u ∧ x.t = t ∧ x.exec = lanesExec t ∧ exec (.card d a) s = finish u (submitCard d bs s3 x) := by
  obtain ⟨-, hsrc⟩ := Bool.and_eq_true_iff.mp hlegal.fields
  have hclean : ∀ m, Unpoisoned t [dst d 1, src a 2] m := unpoisoned_of_noLaneReads
    (by simp only [NoLaneReads, List.forall_mem_cons]; exact ⟨fun hx => by simp [dst] at hx, fun _ => ne_v_of_isUsrc hsrc, fun _ hx => by simp at hx⟩) t
  have hgo : gate (.card d a) (cardForm d a) t c = .go := gate_go hlegal (fun _ => hfree) hflag
  refine ⟨issueOf (cardForm d a) u t c, issueOf_u _ u t c, issueOf_t _ u t c, issueOf_exec _ u t c, ?_⟩
  have hissue : exec (.card d a) s = finish u (cardBody d a s (issueOf (cardForm d a) u t c)) := by
    show issue (.card d a) (cardForm d a) (cardBody d a) s = _
    rw [issue_go h _ hgo, perform_clean (hclean _)]
  have hval : (issueOf (cardForm d a) u t c).uval a 2 = readVal t c.lit 0 a 2 := by rw [Issue.uval, issueOf_t, issueOf_lit]
  have hbody : cardBody d a s (issueOf (cardForm d a) u t c) = submitCard d bs s3 (issueOf (cardForm d a) u t c) := by
    unfold cardBody
    rw [hd, releaseThen_of_passes hrel (issueOf_u _ u t c) (issueOf_t _ u t c)]
    simp only [Bool.not_true, Bool.false_eq_true, if_false, issueOf_u, issueOf_t, if_neg (Nat.not_le.mpr hfew), hval, hcheck, laneThen, hread]
  rw [hissue, hbody]

end Card

/-! ## The wait and the status (R294) -/

section Wait
variable {s : State} {u : Nat} {t : Team} {c : Clause} {d a : Sel}

theorem exec_cwait (h : Issuing s u t c) (hlegal : Legal (.cwait a) t false anyType [src a 1]) :
    ∃ x : Issue, x.u = u ∧ x.t = t ∧ x.exec = lanesExec t ∧ x.uval a 1 = readVal t c.lit 0 a 1 ∧ exec (.cwait a) s = finish u (cwaitBody a s x) := by
  have hsrc : a.isUsrc = true := hlegal.fields
  have hclean : ∀ m, Unpoisoned t [src a 1] m := unpoisoned_of_noLaneReads
    (by simp only [NoLaneReads, List.forall_mem_cons]; exact ⟨fun _ => ne_v_of_isUsrc hsrc, fun _ hx => by simp at hx⟩) t
  have hgo : gate (.cwait a) (cwaitForm a) t c = .go :=
    gate_go hlegal (fun hm => by simp [cwaitForm, plainForm] at hm) (by simp [cwaitForm, plainForm, countFlag])
  refine ⟨issueOf (cwaitForm a) u t c, issueOf_u _ u t c, issueOf_t _ u t c, issueOf_exec _ u t c, by rw [Issue.uval, issueOf_t, issueOf_lit], ?_⟩
  show issue (.cwait a) (cwaitForm a) (cwaitBody a) s = _
  rw [issue_go h _ hgo, perform_clean (hclean _)]

/-- A team that waits for nothing yet is held. -/
theorem holdAt_of_ready (h : Issuing s u t c) : holdAt s u = s.setTeam u { t with wait := .held } := by
  rw [holdAt, State.updTeam_of_some h.team, if_pos h.ready]

theorem exec_cpoll (h : Issuing s u t c) (hflag : flagCount t c.reads ≠ 63) (hlegal : Legal (.cpoll d a) t true anyType [dst d 1, src a 1])
    (hclean : Unpoisoned t [dst d 1, src a 1] (lanesOn t)) :
    CompletesLate (.cpoll d a) s u t c.reads (lanesOn t) d 1 (fun _ => cardStatus t (readVal t c.lit 0 a 1)) 0 := by
  obtain ⟨hdst, -⟩ := Bool.and_eq_true_iff.mp hlegal.fields
  have hgo : gate (.cpoll d a) (cpollForm d a) t c = .go := gate_go hlegal (fun hm => by simp [cpollForm, plainForm] at hm) hflag
  have hactive : (issueOf (cpollForm d a) u t c).active = lanesOn t := issueOf_active _ rfl u t c
  have hexec : exec (.cpoll d a) s =
      finish u (lateEff d 1 (lanesOn t) (fun _ => (cardStatus t (readVal t c.lit 0 a 1), 0)) s (issueOf (cpollForm d a) u t c)) := by
    show issue (.cpoll d a) (cpollForm d a) _ s = _
    rw [issue_go h _ hgo, perform_clean (by rw [hactive]; exact hclean), hactive]
    simp only [Issue.uval, issueOf_t, issueOf_lit]
  have := completesLate_lateEff h (lanesOn t) _ (issueOf_t _ u t c) (issueOf_u _ u t c) hexec hflag (isW_of_opndsOk hlegal.operands)
    (regsExist_of_opndOk hdst (by decide) (opndOk_of_opndsOk_cons hlegal.operands))
  rwa [foldl_or_zero] at this

end Wait

/-! ## The statement -/

/-- Settles O27: CARD once its release side has passed, CWAIT and CPOLL by the status, and the windows of a region. -/
theorem cardsAreAcceptedAndAwaited : Obligations.CardsAreAcceptedAndAwaited := by
  unfold Obligations.CardsAreAcceptedAndAwaited
  intro s u t c d a h hfree hflag
  refine ⟨fun s1 s2 s3 bs t3 hlegal hd hrel hfew hcheck hread hteam => ?_, fun hlegal => ?_, fun hlegal hclean => exec_cpoll h hflag hlegal hclean,
    fun va n core off hva => ⟨window_eq_no s t va n, window_eq_at_iff_inScratch s t hva n core off⟩⟩
  · obtain ⟨x, rfl, rfl, hx, hexec⟩ := exec_card_reads h hfree hflag hlegal hd hrel hfew hcheck hread
    simp only [cardGood_iff]
    refine ⟨fun hbad => ?_, fun hgood => ?_⟩
    · rw [hexec, submitCard_of_refused hbad, trapExec, hx]
      rfl
    · obtain ⟨hadded, card, hcards, hbits, hstatus, hstarted, hticket, hcardTeam⟩ :=
        cardAdded_adds hteam (BitVec.ofNat 2048 (natOfBytes bs)) (nextTicket x.t.tickets)
      obtain ⟨t4, hteam4, htickets4, hcards4⟩ := tickets_answerLate_startLate hadded (readsFlag x)
        (startLate (cardAdded s3 x (BitVec.ofNat 2048 (natOfBytes bs)) (nextTicket x.t.tickets)) x.u (readsFlag x) id).1 d (nextTicket x.t.tickets) id
      refine ⟨_, t4, card, by rw [hexec, submitCard_of_accepted hgood]; rfl, hteam4, htickets4, by rw [cards_answerLate_startLate, hcards], hbits, hstatus,
        hstarted, hticket, hcardTeam, ?_⟩
      rw [hcards4]
      exact List.getLast?_concat
  · obtain ⟨x, rfl, rfl, hx, hval, hexec⟩ := exec_cwait h hlegal
    refine ⟨fun hpending => ?_, fun hfaulted => ?_, fun s1 hdone hacq => ?_⟩
    · rw [hexec, cwaitBody, hval, if_pos hpending, finish, holdAt_of_ready h]
    · rw [hexec, cwaitBody, hval, if_neg (by rw [hfaulted]; decide), if_pos hfaulted, hx]
      rfl
    · rw [hexec, cwaitBody, hval, if_neg (by rw [hdone]; decide), if_neg (by rw [hdone]; decide), acquireThen_of_passes h.team hacq rfl rfl]
      rfl

end Sys2Proof.Machine
end

section
/-! PROOFS. Block floating-point values (R97, R131): a small mantissa times a power of two is an FP32 value, which rounding gives exactly and which no other
finite encoding has. -/

namespace Sys2Proof.Machine

/-! ## Magnitudes are in the order of their encodings (R122) -/

theorem two_zpow_pos (k : Int) : (0 : ℚ) < (2 : ℚ) ^ k := zpow_pos (by norm_num) k

/-- Below the binade that follows. -/
theorem magnitude_lt (f : FpFmt) (c : Nat) : magnitude f c < (2 : ℚ) ^ f.fb * (2 : ℚ) ^ (f.qmin + ((c / 2 ^ f.fb : Nat) : Int)) := by
  unfold magnitude
  split
  · rename_i h
    have hc : c < 2 ^ f.fb := (Nat.div_eq_zero_iff_lt (by positivity)).mp h
    rw [h, Nat.cast_zero, add_zero]
    exact mul_lt_mul_of_pos_right (by exact_mod_cast hc) (two_zpow_pos _)
  · have hr : c % 2 ^ f.fb < 2 ^ f.fb := Nat.mod_lt _ (by positivity)
    have hstep : (2 : ℚ) ^ (f.qmin + ((c / 2 ^ f.fb : Nat) : Int)) = 2 * (2 : ℚ) ^ (f.qmin + ((c / 2 ^ f.fb : Nat) : Int) - 1) := by
      rw [← zpow_one_add₀ (by norm_num)]
      ring_nf
    rw [hstep, ← mul_assoc]
    refine mul_lt_mul_of_pos_right ?_ (two_zpow_pos _)
    have : ((2 ^ f.fb + c % 2 ^ f.fb : Nat) : ℚ) < ((2 ^ f.fb * 2 : Nat) : ℚ) := by exact_mod_cast (by omega)
    simpa using this

/-- At or above the start of its binade. -/
theorem le_magnitude (f : FpFmt) {c : Nat} (h : c / 2 ^ f.fb ≠ 0) :
    (2 : ℚ) ^ f.fb * (2 : ℚ) ^ (f.qmin + ((c / 2 ^ f.fb : Nat) : Int) - 1) ≤ magnitude f c := by
  unfold magnitude
  rw [if_neg h]
  refine mul_le_mul_of_nonneg_right ?_ (two_zpow_pos _).le
  push_cast
  exact le_add_of_nonneg_right (by positivity)

theorem magnitude_strictMono (f : FpFmt) : StrictMono (magnitude f) := by
  intro c d hcd
  have hc := Nat.div_add_mod c (2 ^ f.fb)
  have hd := Nat.div_add_mod d (2 ^ f.fb)
  rcases Nat.lt_or_eq_of_le (Nat.div_le_div_right (c := 2 ^ f.fb) hcd.le) with hlt | heq
  · have hstep : ((c / 2 ^ f.fb : Nat) : Int) + 1 ≤ ((d / 2 ^ f.fb : Nat) : Int) := by exact_mod_cast hlt
    have hexp : f.qmin + ((c / 2 ^ f.fb : Nat) : Int) ≤ f.qmin + ((d / 2 ^ f.fb : Nat) : Int) - 1 := by linarith
    calc magnitude f c < (2 : ℚ) ^ f.fb * (2 : ℚ) ^ (f.qmin + ((c / 2 ^ f.fb : Nat) : Int)) := magnitude_lt f c
      _ ≤ (2 : ℚ) ^ f.fb * (2 : ℚ) ^ (f.qmin + ((d / 2 ^ f.fb : Nat) : Int) - 1) :=
        mul_le_mul_of_nonneg_left (zpow_le_zpow_right₀ (by norm_num) hexp) (by positivity)
      _ ≤ magnitude f d := le_magnitude f (Nat.zero_lt_of_lt hlt).ne'
  · have hr : c % 2 ^ f.fb < d % 2 ^ f.fb := by rw [heq] at hc; omega
    unfold magnitude
    rw [heq]
    split
    · exact mul_lt_mul_of_pos_right (by exact_mod_cast hcd) (two_zpow_pos _)
    · exact mul_lt_mul_of_pos_right (by exact_mod_cast Nat.add_lt_add_left hr _) (two_zpow_pos _)

theorem magnitude_zero (f : FpFmt) : magnitude f 0 = 0 := by simp [magnitude]

theorem magnitude_nonneg (f : FpFmt) (c : Nat) : 0 ≤ magnitude f c := by
  rw [← magnitude_zero f]
  exact (magnitude_strictMono f).monotone (Nat.zero_le c)

/-- A finite encoding is determined by its value, unless that is zero. -/
theorem eq_of_valueOf {f : FpFmt} {x code : Nat} {neg : Bool} (hx : Finite f x) (hcode : magnitude f code ≠ 0)
    (h : valueOf f x = if neg then -magnitude f code else magnitude f code) : x = fpSign f neg + code := by
  obtain ⟨hlt, -⟩ := hx
  have hpos : 0 < magnitude f code := lt_of_le_of_ne (magnitude_nonneg f code) hcode.symm
  have hnn := magnitude_nonneg f (x % f.signBit)
  unfold valueOf at h
  unfold fpSign
  by_cases hs : f.signBit ≤ x
  · have hmod : x % f.signBit = x - f.signBit := by rw [Nat.mod_eq_sub_mod hs, Nat.mod_eq_of_lt (by omega)]
    rw [if_pos hs] at h
    cases neg with
    | false =>
      simp only [Bool.false_eq_true, if_false] at h
      linarith
    | true =>
      simp only [if_true] at h ⊢
      have := (magnitude_strictMono f).injective (neg_injective h)
      omega
  · have hmod : x % f.signBit = x := Nat.mod_eq_of_lt (by omega)
    rw [if_neg hs] at h
    cases neg with
    | false =>
      simp only [Bool.false_eq_true, if_false] at h ⊢
      have := (magnitude_strictMono f).injective h
      omega
    | true =>
      simp only [if_true] at h
      linarith

/-! ## Rounding gives a value that FP32 has -/

theorem log2_mul_two_pow {m : Nat} (hm : m ≠ 0) (k : Nat) : Nat.log2 (m * 2 ^ k) = Nat.log2 m + k := by
  have hlow := Nat.log2_self_le hm
  have hhigh := Nat.lt_log2_self (n := m)
  refine (Nat.log2_eq_iff (by positivity)).mpr ⟨?_, ?_⟩
  · rw [Nat.pow_add]
    exact Nat.mul_le_mul_right _ hlow
  · rw [show Nat.log2 m + k + 1 = (Nat.log2 m + 1) + k by omega, Nat.pow_add]
    exact Nat.mul_lt_mul_of_pos_right hhigh (by positivity)

/-- The encoding of a significand n at the exponent q, whose first binade is the subnormals'. -/
theorem magnitude_code {n : Nat} {q : Nat} (h : (q = 0 ∧ n < 2 ^ 24) ∨ (2 ^ 23 ≤ n ∧ n < 2 ^ 24)) :
    magnitude fmtFp32 (q * 2 ^ 23 + n) = n * (2 : ℚ) ^ ((q : Int) - 149) := by
  have hq : fmtFp32.qmin = -149 := by decide
  have hfb : fmtFp32.fb = 23 := rfl
  unfold magnitude
  rw [hq, hfb]
  by_cases hn : n < 2 ^ 23
  · obtain ⟨rfl, -⟩ := h.resolve_right (by omega)
    rw [if_pos (by omega)]
    simp
  · have hdiv : (q * 2 ^ 23 + n) / 2 ^ 23 = q + 1 := by omega
    have hmod : 2 ^ 23 + (q * 2 ^ 23 + n) % 2 ^ 23 = n := by omega
    rw [if_neg (by omega), hdiv, hmod]
    congr 2
    push_cast
    ring

theorem splitAt_exact {m : Nat} {e q : Int} (h : q ≤ e) : splitAt m e false q = (m * 2 ^ (e - q).toNat, 0) := by simp [splitAt, h]

/-- The exponent at which FP32 holds a magnitude whose top bit has the weight 2^top. -/
def fp32Quantum (top : Int) : Int := if top - 23 < -149 then -149 else top - 23

/-- Rounding at an exponent that divides the value gives the multiple itself. -/
theorem fpRound_of_dvd {m : Nat} {e : Int} (htop : e + Nat.log2 m ≤ 127) (hq : fp32Quantum (e + Nat.log2 m) ≤ e) (neg : Bool)
    (hfits : (fp32Quantum (e + Nat.log2 m) + 149).toNat * 2 ^ 23 + m * 2 ^ (e - fp32Quantum (e + Nat.log2 m)).toNat < fmtFp32.infBits) :
    (fpRound fmtFp32 0 neg m e false).1 =
      fpSign fmtFp32 neg + ((fp32Quantum (e + Nat.log2 m) + 149).toNat * 2 ^ 23 + m * 2 ^ (e - fp32Quantum (e + Nat.log2 m)).toNat) := by
  have hqmin : fmtFp32.qmin = -149 := by decide
  have hbias : (fmtFp32.bias : Int) = 127 := by decide
  have hquantum : (if e + (Nat.log2 m : Int) - (fmtFp32.fb : Int) < fmtFp32.qmin then fmtFp32.qmin else e + (Nat.log2 m : Int) - (fmtFp32.fb : Int)) =
      fp32Quantum (e + Nat.log2 m) := by rw [hqmin]; rfl
  have hup : ∀ odd, roundsUp 0 neg odd 0 = false := fun odd => rfl
  unfold fpRound
  simp only [hbias, hquantum, splitAt_exact hq, hup, if_neg (show ¬ (127 + 1 : Int) < e + Nat.log2 m by omega), Bool.false_eq_true, if_false, add_zero]
  rw [hqmin, show ∀ q : Int, q - -149 = q + 149 by intro q; omega, show fmtFp32.fb = 23 from rfl, if_neg (Nat.not_le.mpr hfits)]

/-- m × 2^e with at most 24 bits, and within the exponents of FP32, is rounded to itself. -/
theorem fpRound_exact {m : Nat} {e : Int} (hm : m ≠ 0) (hlog : Nat.log2 m ≤ 23) (he : -149 ≤ e) (htop : e + Nat.log2 m ≤ 127) (neg : Bool) :
    ∃ code, code < fmtFp32.infBits ∧ magnitude fmtFp32 code = m * (2 : ℚ) ^ e ∧ (fpRound fmtFp32 0 neg m e false).1 = fpSign fmtFp32 neg + code := by
  obtain ⟨q, hq⟩ : ∃ q : Nat, fp32Quantum (e + Nat.log2 m) = (q : Int) - 149 := by
    refine ⟨(fp32Quantum (e + Nat.log2 m) + 149).toNat, ?_⟩
    unfold fp32Quantum
    split <;> omega
  obtain ⟨k, hk⟩ : ∃ k : Nat, e = (q : Int) - 149 + k := by
    refine ⟨(e - ((q : Int) - 149)).toNat, ?_⟩
    unfold fp32Quantum at hq
    split at hq <;> omega
  have hn : m * 2 ^ k ≠ 0 := Nat.mul_ne_zero hm (by positivity)
  have hbits := log2_mul_two_pow hm k
  have hrange : (q = 0 ∧ m * 2 ^ k < 2 ^ 24) ∨ (2 ^ 23 ≤ m * 2 ^ k ∧ m * 2 ^ k < 2 ^ 24) := by
    have hlt : m * 2 ^ k < 2 ^ 24 := (Nat.log2_lt hn).mp (by unfold fp32Quantum at hq; split at hq <;> omega)
    unfold fp32Quantum at hq
    split at hq
    · exact .inl ⟨by omega, hlt⟩
    · exact .inr ⟨(Nat.le_log2 hn).mp (by omega), hlt⟩
  have hqle : q ≤ 253 := by unfold fp32Quantum at hq; split at hq <;> omega
  have hcode : (fp32Quantum (e + Nat.log2 m) + 149).toNat * 2 ^ 23 + m * 2 ^ (e - fp32Quantum (e + Nat.log2 m)).toNat = q * 2 ^ 23 + m * 2 ^ k := by
    rw [hq, show ((q : Int) - 149 + 149).toNat = q by omega, show (e - ((q : Int) - 149)).toNat = k by omega]
  have hfits : q * 2 ^ 23 + m * 2 ^ k < fmtFp32.infBits := by
    rw [show fmtFp32.infBits = 255 * 2 ^ 23 by decide]
    omega
  refine ⟨_, hfits, ?_, ?_⟩
  · rw [magnitude_code hrange, hk, zpow_add₀ (by norm_num)]
    push_cast
    rw [zpow_natCast]
    ring
  · rw [fpRound_of_dvd htop (by omega) neg (by rw [hcode]; exact hfits), hcode]

/-- The value of a block floating-point element (R97): exact, whatever its width and its exponent. -/
theorem bfpValue_eq {w E : Nat} {m : Int} (hw : 1 ≤ w) (hw8 : w ≤ 8) (hE : E < 0xFF) (hlow : -(2 : Int) ^ (w - 1) ≤ m) (hhigh : m < (2 : Int) ^ (w - 1)) (hm : m ≠ 0)
    {v : Nat} (hfin : Finite fmtFp32 v) (hv : valueOf fmtFp32 v = (m : ℚ) * (2 : ℚ) ^ ((E : Int) - 127 - ((w : Int) - 1))) : bfpValue w E m = v := by
  have habs : m.natAbs ≤ 2 ^ (w - 1) := by
    have hcast : ((2 ^ (w - 1) : Nat) : Int) = (2 : Int) ^ (w - 1) := by push_cast; rfl
    omega
  have hne : m.natAbs ≠ 0 := Int.natAbs_ne_zero.mpr hm
  have hlog : Nat.log2 m.natAbs ≤ w - 1 := by
    by_contra hgt
    have := (Nat.le_log2 hne).mp (show w ≤ Nat.log2 m.natAbs by omega)
    have hpow : 2 ^ w = 2 * 2 ^ (w - 1) := by rw [← Nat.pow_succ', Nat.succ_eq_add_one, Nat.sub_add_cancel hw]
    have : 0 < 2 ^ (w - 1) := by positivity
    omega
  obtain ⟨code, -, hmag, hround⟩ := fpRound_exact (e := (E : Int) - 127 - ((w : Int) - 1)) hne (by omega) (by omega) (by omega) (decide (m < 0))
  have hcast : ((m.natAbs : Nat) : ℚ) = |(m : ℚ)| := by rw [Nat.cast_natAbs, Int.cast_abs]
  rw [hcast] at hmag
  unfold bfpValue
  rw [if_neg (by omega), if_neg hm, hround]
  refine (eq_of_valueOf hfin ?_ ?_).symm
  · rw [hmag]
    exact mul_ne_zero (abs_ne_zero.mpr (by exact_mod_cast hm)) (two_zpow_pos _).ne'
  · rw [hv, hmag]
    by_cases hneg : m < 0
    · rw [decide_eq_true hneg, if_pos rfl, abs_of_neg (by exact_mod_cast hneg)]
      ring
    · rw [decide_eq_false hneg, if_neg (by decide), abs_of_nonneg (by exact_mod_cast not_lt.mp hneg)]

end Sys2Proof.Machine
end

section
/-! PROOFS. Handles (R93 to R95, R291): which descriptors are accepted, and HBIND by its checks in their order. -/

namespace Sys2Proof.Machine

/-! ## The descriptor (R93 to R95) -/

theorem bits_descCtl (d : BitVec 512) (hi lo : Nat) (h : hi < 64) : bits (descField d 0 8) hi lo = bitsAt d.toNat hi lo := by
  have hfield : descField d 0 8 = d.toNat % 2 ^ 64 := by simp [descField]
  rw [hfield, bits_mod_dword _ _ _ h]

theorem descField_lt (d : BitVec 512) (off n : Nat) : descField d off n < 2 ^ (8 * n) := Nat.mod_lt _ (by positivity)

/-- An address below the windows. -/
theorem placed_eq {a : Nat} (h : a < 2 ^ 64) : (decide (bits a 63 52 = 0) && !isWindowVa a) = decide (a < 0xFE00000000000) := by
  rw [Bool.eq_iff_iff, Bool.and_eq_true, decide_eq_true_iff, decide_eq_true_iff, bits_high h, Bool.not_eq_true', ← Bool.not_eq_true]
  constructor
  · rintro ⟨hlow, hwin⟩
    rw [isWindowVa_iff hlow] at hwin
    omega
  · intro hlt
    have hlow : a < 2 ^ 52 := by omega
    exact ⟨hlow, by rw [isWindowVa_iff hlow]; omega⟩

/-- Three words are zero where their twelve bytes are. -/
theorem three_words_eq_zero (x : Nat) : x % 2 ^ 32 = 0 ∧ x / 2 ^ 32 % 2 ^ 32 = 0 ∧ x / 2 ^ 64 % 2 ^ 32 = 0 ↔ x % 2 ^ 96 = 0 := by omega

theorem strides_eq_zero (d : BitVec 512) :
    ((List.range 3).map (fun k => descStr d (k + 1))).all (fun x => decide (x = 0)) = true ↔ fieldAt d.toNat 0x28 12 = 0 := by
  have h2 : descStr d 2 = d.toNat / 2 ^ (8 * 0x28) / 2 ^ 32 % 2 ^ 32 := by rw [Nat.div_div_eq_div_mul, ← Nat.pow_add]; rfl
  have h3 : descStr d 3 = d.toNat / 2 ^ (8 * 0x28) / 2 ^ 64 % 2 ^ 32 := by rw [Nat.div_div_eq_div_mul, ← Nat.pow_add]; rfl
  have hrange : List.range 3 = [0, 1, 2] := rfl
  simp only [hrange, List.map_cons, List.map_nil, List.all_cons, List.all_nil, Bool.and_true, Bool.and_eq_true, decide_eq_true_eq, h2, h3]
  exact three_words_eq_zero _

theorem extents_ne_zero (d : BitVec 512) :
    ((List.range 4).map (descExt d)).all (fun x => decide (x ≠ 0)) = true ↔ ∀ k, k < 4 → fieldAt d.toNat (0x18 + 4 * k) 4 ≠ 0 := by
  simp only [List.all_eq_true, List.mem_map, List.mem_range, decide_eq_true_eq, forall_exists_index, and_imp, forall_apply_eq_imp_iff₂]
  exact Iff.rfl

/-- R95 accepts the descriptors that HandleGood describes. -/
theorem handleGood_iff (d : BitVec 512) : HandleGood d ↔ handleOk d = true := by
  have hfmt : descFormat d = bitsAt d.toNat 3 0 := rfl
  have hdims : descDims d = 2 ↔ bitsAt d.toNat 11 10 = 1 := by
    show bitsAt d.toNat 11 10 + 1 = 2 ↔ _
    omega
  have hprod : ((List.range 4).map (descExt d)).foldl (fun p x => p * x) 1 = descExt d 0 * descExt d 1 * descExt d 2 * descExt d 3 := by
    show 1 * descExt d 0 * descExt d 1 * descExt d 2 * descExt d 3 = _
    rw [Nat.one_mul]
  have hbase : (decide (bits (descBase d) 63 52 = 0) && !isWindowVa (descBase d)) = decide (descBase d < 0xFE00000000000) :=
    placed_eq (descField_lt d 0x08 8)
  have haux : (decide (bits (descAux d) 63 52 = 0) && !isWindowVa (descAux d)) = decide (descAux d < 0xFE00000000000) :=
    placed_eq (descField_lt d 0x10 8)
  have hgood : HandleGood d ↔ bitsAt d.toNat 63 16 = 0 ∧ bitsAt d.toNat 8 8 = 0 ∧ bitsAt d.toNat 5 4 = 0 ∧ descField d 0x34 12 = 0 ∧
      bitsAt d.toNat 3 0 ≤ 2 ∧ (bitsAt d.toNat 3 0 ≠ 2 → bitsAt d.toNat 15 12 = 0) ∧ (bitsAt d.toNat 3 0 = 0 → descAux d = 0) ∧
      (bitsAt d.toNat 3 0 ≠ 0 → fieldAt d.toNat 0x28 12 = 0) ∧ (∀ k, k < 4 → fieldAt d.toNat (0x18 + 4 * k) 4 ≠ 0) ∧
      descExt d 0 * descExt d 1 * descExt d 2 * descExt d 3 ≤ 2 ^ 32 - 1 ∧ descBase d < 0xFE00000000000 ∧ descAux d < 0xFE00000000000 ∧
      (bitsAt d.toNat 3 0 = 2 → bitsAt d.toNat 11 10 = 1 ∧ bitsAt d.toNat 7 6 = 2 ∧ bitsAt d.toNat 15 13 ≠ 0 ∧
        descExt d 0 % (if bitsAt d.toNat 12 12 = 1 then 16 else 32) = 0 ∧ descExt d 1 % (if bitsAt d.toNat 12 12 = 1 then 16 else 32) = 0) := Iff.rfl
  rw [hgood]
  unfold handleOk
  simp only [bits_descCtl d _ _ (by decide : 63 < 64), bits_descCtl d _ _ (by decide : 8 < 64), bits_descCtl d _ _ (by decide : 5 < 64),
    bits_descCtl d _ _ (by decide : 15 < 64), bits_descCtl d _ _ (by decide : 12 < 64), bits_descCtl d _ _ (by decide : 7 < 64), hfmt, hprod,
    hbase, haux]
  simp only [Bool.and_eq_true, Bool.or_eq_true, decide_eq_true_eq, strides_eq_zero, extents_ne_zero, hdims,
    Decidable.imp_iff_not_or, ne_eq, Decidable.not_not, and_assoc]
  constructor
  · rintro ⟨h1, h2, h3, h4, h5, h6⟩
    exact ⟨h1, h2, h3, h5, h4, h6⟩
  · rintro ⟨h1, h2, h3, h5, h4, h6⟩
    exact ⟨h1, h2, h3, h4, h5, h6⟩

end Sys2Proof.Machine
end

section
/-! PROOFS. HBIND (R291): the slot, the alignment, the read and the descriptor, judged in this order, and the slot it writes. -/

namespace Sys2Proof.Machine

/-! ## Handle slots -/

theorem handleOf_setHandle_self (t : Team) {k : Nat} (hk : k < 16) (d : BitVec 512) : handleOf (setHandle t k d) k = some d := by
  simp [handleOf, setHandle, hk]

theorem handleOf_setHandle_ne (t : Team) {k j : Nat} (hne : j ≠ k) (d : BitVec 512) : handleOf (setHandle t k d) j = handleOf t j := by
  unfold handleOf setHandle
  by_cases hk : k < 16
  · by_cases hj : j < 16
    · simp [hk, hj, Vector.getElem_set_ne, hne.symm]
    · simp [hj]
  · simp [hk]

theorem handleOf_withLate (t : Team) (o : LateOp) (k : Nat) : handleOf (withLate t o) k = handleOf t k := by
  have hhandles : (withLate t o).handles = t.handles := by unfold withLate raiseFlag; split <;> rfl
  unfold handleOf
  rw [hhandles]

theorem late_withLate (t : Team) (o : LateOp) : (withLate t o).late = t.late ++ [o] := by
  unfold withLate raiseFlag
  split <;> rfl

theorem late_setHandle (t : Team) (k : Nat) (d : BitVec 512) : (setHandle t k d).late = t.late := by
  unfold setHandle
  split <;> rfl

theorem handleOf_of_le {k : Nat} (hk : 16 ≤ k) (t : Team) : handleOf t k = none := dif_neg (Nat.not_lt.mpr hk)

/-! ## The body of HBIND -/

/-- The operation that counts a binding on its flag. -/
def bindOp (k : Nat) (o : LateOp) : LateOp := { o with hbind := some k }

section Body
variable {s s1 s2 : State} {x : Issue} {a b : Sel} {bs : List Byte}

theorem hbindBody_slot (hk : 16 ≤ x.uval a 1) : hbindBody a b s x = trapExec .illegalOp s x := if_pos hk

theorem hbindBody_align (hk : x.uval a 1 < 16) (hva : x.uval b 2 % 64 ≠ 0) : hbindBody a b s x = trapExec .align s x := by
  unfold hbindBody
  rw [if_neg (Nat.not_le.mpr hk), if_pos hva]

theorem hbindBody_read (hk : x.uval a 1 < 16) (hva : x.uval b 2 % 64 = 0) (hcheck : checkRun s x.t (x.uval b 2) 64 1 needR false = (.ok, s1))
    (hread : readRun s1 x.u x.t (x.uval b 2) 64 = (some bs, s2)) :
    (handleOk (BitVec.ofNat 512 (natOfBytes bs)) = false → hbindBody a b s x = trapExec .illegalOp s2 x) ∧
    (handleOk (BitVec.ofNat 512 (natOfBytes bs)) = true → handleOf x.t (x.uval a 1) = none →
      hbindBody a b s x = .done (startLate (s2.updTeam x.u (fun t => setHandle t (x.uval a 1) (BitVec.ofNat 512 (natOfBytes bs)))) x.u (othersFlag x)
        (bindOp (x.uval a 1))).2) := by
  unfold hbindBody
  rw [if_neg (Nat.not_le.mpr hk), if_neg (not_not_intro hva)]
  simp only [hcheck, descEnds, hread]
  refine ⟨fun hbad => by simp [hbad], fun hgood hfree => ?_⟩
  simp only [hgood, hfree, Bool.not_true, Bool.false_eq_true, if_false, Option.isSome_none]
  rfl

end Body

/-- What a binding leaves of its team: the slot holds the descriptor, the other slots are as before, and one more operation is in flight. -/
theorem bound_team {s : State} {u k flag : Nat} {t : Team} (ht : tblGet s.teams u = some t) (hk : k < 16) (d : BitVec 512) :
    ∃ t3, tblGet (startLate (s.updTeam u (fun t => setHandle t k d)) u flag (bindOp k)).2.teams u = some t3 ∧ handleOf t3 k = some d ∧
      (∀ j, j ≠ k → handleOf t3 j = handleOf t j) ∧ ∃ o, t3.late = t.late ++ [o] ∧ o.hbind = some k ∧ o.flag = flag := by
  have hset : tblGet (s.updTeam u (fun t => setHandle t k d)).teams u = some (setHandle t k d) := tblGet_updTeam ht _
  rw [startLate_of_some hset flag (bindOp k) fun _ => rfl]
  refine ⟨_, State.team_setTeam_self _ _ _, ?_, fun j hj => ?_, _,
    (late_withLate _ _).trans (congrArg (· ++ _) (late_setHandle t k d)), rfl, rfl⟩
  · rw [handleOf_withLate, handleOf_setHandle_self t hk]
  · rw [handleOf_withLate, handleOf_setHandle_ne t hj]

/-! ## HBIND issued -/

/-- The form by which HBIND is checked. -/
def hbindForm (a b : Sel) : Form := { plainForm anyType (fun _ => [src a 1, src b 2]) with late := true, mem := true, cls := 2 }

section Issued
variable {s : State} {u : Nat} {t : Team} {c : Clause} {a b : Sel}

theorem exec_hbind (h : Issuing s u t c) (hlegal : Legal (.hbind a b) t true anyType [src a 1, src b 2]) (hfree : slicePending t = false)
    (hflag : flagCount t c.others ≠ 63) :
    ∃ x : Issue, x.u = u ∧ x.t = t ∧ x.exec = lanesExec t ∧ x.uval a 1 = readVal t c.lit 0 a 1 ∧ x.uval b 2 = readVal t c.lit 0 b 2 ∧
      exec (.hbind a b) s = finish u (hbindBody a b s x) := by
  obtain ⟨ha, hb⟩ := Bool.and_eq_true_iff.mp hlegal.fields
  have hclean : ∀ m, Unpoisoned t [src a 1, src b 2] m := unpoisoned_of_noLaneReads
    (by simp only [NoLaneReads, List.forall_mem_cons]; exact ⟨fun _ => ne_v_of_isUsrc ha, fun _ => ne_v_of_isUsrc hb, fun _ hx => by simp at hx⟩) t
  have hgo : gate (.hbind a b) (hbindForm a b) t c = .go := gate_go hlegal (fun _ => hfree) hflag
  refine ⟨issueOf (hbindForm a b) u t c, issueOf_u _ u t c, issueOf_t _ u t c, issueOf_exec _ u t c, by rw [Issue.uval, issueOf_t, issueOf_lit],
    by rw [Issue.uval, issueOf_t, issueOf_lit], ?_⟩
  show issue (.hbind a b) (hbindForm a b) (hbindBody a b) s = _
  rw [issue_go h _ hgo, perform_clean (hclean _)]

theorem othersFlag_eq {x : Issue} {c : Clause} (hc : x.t.clause = some c) : othersFlag x = c.others := by simp [othersFlag, hc]

theorem exec_hbind_settles (h : Issuing s u t c) (hlegal : Legal (.hbind a b) t true anyType [src a 1, src b 2]) (hfree : slicePending t = false)
    (hflag : flagCount t c.others ≠ 63) :
    let k := readVal t c.lit 0 a 1
    let va := readVal t c.lit 0 b 2
    (16 ≤ k → Traps (.hbind a b) s u .illegalOp (lanesExec t)) ∧ (k < 16 → va % 64 ≠ 0 → Traps (.hbind a b) s u .align (lanesExec t)) ∧
    (∀ s1 s2 bs, k < 16 → va % 64 = 0 → checkRun s t va 64 1 needR false = (.ok, s1) → readRun s1 u t va 64 = (some bs, s2) →
      let d : BitVec 512 := BitVec.ofNat 512 (natOfBytes bs)
      (¬ HandleGood d → exec (.hbind a b) s = .next (takeTrap s2 u (trapOf .illegalOp (lanesExec t)))) ∧
      (HandleGood d → handleOf t k = none →
        exec (.hbind a b) s = .next (stepOn (startLate (s2.updTeam u (fun t => setHandle t k d)) u c.others (bindOp k)).2 u))) := by
  intro k va
  obtain ⟨x, rfl, rfl, hx, hk, hva, hexec⟩ := exec_hbind h hlegal hfree hflag
  refine ⟨fun hslot => ?_, fun hslot halign => ?_, fun s1 s2 bs hslot halign hcheck hread => ?_⟩
  · unfold Traps
    rw [hexec, hbindBody_slot (by rw [hk]; exact hslot), trapExec, hx]
    rfl
  · unfold Traps
    rw [hexec, hbindBody_align (by rw [hk]; exact hslot) (by rw [hva]; exact halign), trapExec, hx]
    rfl
  · obtain ⟨hbad, hgood⟩ := hbindBody_read (a := a) (b := b) (by rw [hk]; exact hslot) (by rw [hva]; exact halign) (by rw [hva]; exact hcheck)
      (by rw [hva]; exact hread)
    refine ⟨fun hd => ?_, fun hd hnone => ?_⟩
    · rw [handleGood_iff, Bool.not_eq_true] at hd
      rw [hexec, hbad hd, trapExec, hx]
      rfl
    · rw [hexec, hgood ((handleGood_iff _).mp hd) (by rw [hk]; exact hnone), hk, othersFlag_eq h.clause]
      rfl

end Issued

end Sys2Proof.Machine
end

section
/-! PROOFS. The element that a lane fetches (R96, R97), from the reads that serve it: by the descriptor's format, and the coordinates that its index names. -/

namespace Sys2Proof.Machine

/-! ## Coordinates (R96) -/

/-- Coordinates as a lane's captured data. -/
def packed (c : Nat × Nat × Nat × Nat) : Nat := c.1 + 2 ^ 32 * c.2.1 + 2 ^ 64 * c.2.2.1 + 2 ^ 96 * c.2.2.2

/-- Coordinates of 32 bits each. -/
def InWords (c : Nat × Nat × Nat × Nat) : Prop := c.1 < 2 ^ 32 ∧ c.2.1 < 2 ^ 32 ∧ c.2.2.1 < 2 ^ 32 ∧ c.2.2.2 < 2 ^ 32

theorem packed_lt {c : Nat × Nat × Nat × Nat} (h : InWords c) : packed c < 2 ^ 128 := by
  obtain ⟨h0, h1, h2, h3⟩ := h
  unfold packed
  omega

theorem packed_coords {c : Nat × Nat × Nat × Nat} (h : InWords c) :
    packed c / 2 ^ (32 * 0) % 2 ^ 32 = c.1 ∧ packed c / 2 ^ (32 * 1) % 2 ^ 32 = c.2.1 ∧ packed c / 2 ^ (32 * 2) % 2 ^ 32 = c.2.2.1 ∧
      packed c / 2 ^ (32 * 3) % 2 ^ 32 = c.2.2.2 := by
  obtain ⟨h0, h1, h2, h3⟩ := h
  unfold packed
  refine ⟨?_, ?_, ?_, ?_⟩ <;> omega

theorem HandleGood.product {d : BitVec 512} (h : HandleGood d) : descExt d 0 * descExt d 1 * descExt d 2 * descExt d 3 ≤ 2 ^ 32 - 1 := by
  obtain ⟨-, -, -, -, -, -, -, -, -, hproduct, -⟩ := h
  exact hproduct

theorem HandleGood.format {d : BitVec 512} (h : HandleGood d) : descFormat d ≤ 2 := by
  obtain ⟨-, -, -, -, hformat, -⟩ := h
  exact hformat

/-- The coordinates of a linear index, dimension 0 fastest, and those of two coordinates. -/
def linearCoords (d : BitVec 512) (l : Nat) : Nat × Nat × Nat × Nat :=
  (l % descExt d 0, l / descExt d 0 % descExt d 1, l / (descExt d 0 * descExt d 1) % descExt d 2, l / (descExt d 0 * descExt d 1 * descExt d 2))
def pairCoords (l : Nat) : Nat × Nat × Nat × Nat := (l % 2 ^ 32, l / 2 ^ 32 % 2 ^ 32, 0, 0)

/-- The indices inside the extents. -/
def Inside (d : BitVec 512) (two : Bool) (l : Nat) : Prop :=
  if two then l % 2 ^ 32 < descExt d 0 ∧ l / 2 ^ 32 % 2 ^ 32 < descExt d 1 else l < descExt d 0 * descExt d 1 * descExt d 2 * descExt d 3

def coordsAt (d : BitVec 512) (two : Bool) (l : Nat) : Nat × Nat × Nat × Nat := if two then pairCoords l else linearCoords d l

theorem fetchPlace_of_inside {d : BitVec 512} {two : Bool} {l : Nat} (h : Inside d two l) : fetchPlace d two l = some (coordsAt d two l) := by
  cases two with
  | true => exact if_pos h
  | false => exact if_pos h

theorem fetchPlace_of_outside {d : BitVec 512} {two : Bool} {l : Nat} (h : ¬ Inside d two l) : fetchPlace d two l = none := by
  cases two with
  | true => exact if_neg h
  | false => exact if_neg h

theorem fetchIndex_of_inside {d : BitVec 512} {two : Bool} {l : Nat} (h : Inside d two l) : fetchIndex d two l = packed (coordsAt d two l) := by
  cases two with
  | true => exact if_pos h
  | false =>
    have hlinear : fetchIndex d false l = packed (l % descExt d 0, l / descExt d 0 % descExt d 1, l / descExt d 0 / descExt d 1 % descExt d 2,
      l / descExt d 0 / descExt d 1 / descExt d 2) := if_pos h
    rw [hlinear, Nat.div_div_eq_div_mul, Nat.div_div_eq_div_mul]
    rfl

theorem fetchIndex_of_outside {d : BitVec 512} {two : Bool} {l : Nat} (h : ¬ Inside d two l) : fetchIndex d two l = 2 ^ 128 := by
  cases two with
  | true => exact if_neg h
  | false => exact if_neg h

theorem inWords_coordsAt {d : BitVec 512} (hd : HandleGood d) {two : Bool} {l : Nat} (h : Inside d two l) : InWords (coordsAt d two l) := by
  cases two with
  | true => exact ⟨Nat.mod_lt l (by decide), Nat.mod_lt (l / 2 ^ 32) (by decide), Nat.two_pow_pos 32, Nat.two_pow_pos 32⟩
  | false =>
    have hl : l < descExt d 0 * descExt d 1 * descExt d 2 * descExt d 3 := h
    have hle : ∀ x, x ≤ l → x < 2 ^ 32 := fun x hx => by have := hd.product; omega
    exact ⟨hle _ (Nat.mod_le _ _), hle _ ((Nat.mod_le _ _).trans (Nat.div_le_self _ _)), hle _ ((Nat.mod_le _ _).trans (Nat.div_le_self _ _)),
      hle _ (Nat.div_le_self _ _)⟩

/-- A lane's captured data is its coordinates, of 32 bits each. -/
theorem fetchIndex_of_place {d : BitVec 512} (hd : HandleGood d) {two : Bool} {l : Nat} {c : Nat × Nat × Nat × Nat} (hc : fetchPlace d two l = some c) :
    fetchIndex d two l = packed c ∧ InWords c := by
  by_cases h : Inside d two l
  · rw [fetchPlace_of_inside h] at hc
    obtain rfl := Option.some.inj hc
    exact ⟨fetchIndex_of_inside h, inWords_coordsAt hd h⟩
  · rw [fetchPlace_of_outside h] at hc
    exact absurd hc (by simp)

/-- An index outside the extents is marked. -/
theorem fetchIndex_of_noPlace {d : BitVec 512} {two : Bool} {l : Nat} (hc : fetchPlace d two l = none) : fetchIndex d two l = 2 ^ 128 := by
  by_cases h : Inside d two l
  · rw [fetchPlace_of_inside h] at hc
    exact absurd hc (by simp)
  · exact fetchIndex_of_outside h

/-! ## Elements extended to their registers (R96) -/

theorem descEsize_pos (d : BitVec 512) : 0 < descEsize d := by unfold descEsize; positivity

theorem extendElem_eq (d : BitVec 512) (x : Nat) :
    extendElem d x = if bitsAt d.toNat 9 9 = 1 ∧ 2 ^ bitsAt d.toNat 7 6 < 4 then ((BitVec.ofNat (8 * 2 ^ bitsAt d.toNat 7 6) x).signExtend 32).toNat else x := by
  have hpos : 0 < 8 * 2 ^ bitsAt d.toNat 7 6 := by positivity
  have hcond : (descEsize d < 4 ∧ descSign d = true) = (bitsAt d.toNat 9 9 = 1 ∧ 2 ^ bitsAt d.toNat 7 6 < 4) := by
    rw [and_comm, descSign, decide_eq_true_iff]
    rfl
  have hvalue : wrapNat 32 (sextInt (8 * descEsize d) x) = ((BitVec.ofNat (8 * 2 ^ bitsAt d.toNat 7 6) x).signExtend 32).toNat := by
    rw [BitVec.signExtend, ← wrapNat_eq_toNat, ← sextInt_eq_toInt _ _ hpos]
    rfl
  unfold extendElem
  simp only [hcond, hvalue]

/-! ## Reads that are served -/

/-- A read of a lane that is served as it stands: it gives x and changes nothing. -/
def FetchServed (z : State) (cfg : TeamCfg) (va n x : Nat) : Prop := ∃ m : Mapping, m.peer = none ∧ fetchBytes z cfg va n = ((.ok m, some x), z)

/-- A read that finds its bytes, through no peer's page, is what a lane goes on with. -/
theorem fetchThen_of_bytes {z z1 : State} {cfg : TeamCfg} {va n x : Nat} {m : Mapping} (hpeer : m.peer = none)
    (hbytes : fetchBytes z cfg va n = ((.ok m, some x), z1)) (k : Nat → State → FetchRes × State) : fetchThen z cfg va n k = k x z1 := by
  unfold fetchThen
  simp only [hbytes, hpeer, Option.isSome_none, Bool.false_eq_true, if_false]

theorem fetchThen_served {z : State} {cfg : TeamCfg} {va n x : Nat} (h : FetchServed z cfg va n x) (k : Nat → State → FetchRes × State) :
    fetchThen z cfg va n k = k x z := by
  obtain ⟨m, hpeer, hbytes⟩ := h
  exact fetchThen_of_bytes hpeer hbytes k

theorem natOfBytes_singleton (b : Byte) : natOfBytes [b] = b.toNat := by simp [natOfBytes]

/-- The fetch cache serves a read as long as its core is as it was. -/
theorem fetchServed_of_cached {s z : State} {t : Team} {va n x : Nat} (h : FetchCached s t va n x) (hcore : z.core t.cfg.core = s.core t.cfg.core) :
    FetchServed z t.cfg va n x := by
  obtain ⟨hva, halign, l, hfind, rfl⟩ := h
  have hlow : va < 2 ^ 52 := by omega
  have hplain : ¬ (2 ^ 52 ≤ va ∨ isWindowVa va = true) := by rw [isWindowVa_iff hlow]; omega
  refine ⟨{ pa := 0, r := true, w := false, policy := .direct, peer := none, layer := none, record := none }, rfl, ?_⟩
  unfold fetchBytes
  simp only [hcore, hfind]
  rw [if_neg hplain, if_neg (not_not_intro halign)]

theorem lt_of_fetchCached_byte {s : State} {t : Team} {va x : Nat} (h : FetchCached s t va 1 x) : x < 2 ^ 8 := by
  obtain ⟨-, -, l, -, rfl⟩ := h
  rw [List.range_one, List.map_singleton, natOfBytes_singleton]
  exact BitVec.isLt _

/-! ## The element of a format (R97) -/

/-- Whether a bit of a number is set, as the fetch unit looks at it. -/
theorem div_mod_two_eq_zero (x j : Nat) : x / 2 ^ j % 2 = 0 ↔ x.testBit j = false := by
  rw [Nat.testBit_eq_decide_div_mod_eq, decide_eq_false_iff_not]
  omega

theorem div_mod_two_eq {x y j k : Nat} (h : x.testBit j = y.testBit k) : x / 2 ^ j % 2 = y / 2 ^ k % 2 := by
  rw [Nat.testBit_eq_decide_div_mod_eq, Nat.testBit_eq_decide_div_mod_eq, decide_eq_decide] at h
  omega

/-- The number that a mantissa stands for, in its range. -/
theorem sextInt_mantissa {w m : Nat} (hw : 0 < w) (hm : m < 2 ^ w) :
    sextInt w m = (BitVec.ofNat w m).toInt ∧ -(2 : Int) ^ (w - 1) ≤ sextInt w m ∧ sextInt w m < (2 : Int) ^ (w - 1) ∧ (sextInt w m = 0 ↔ m = 0) := by
  have hint := sextInt_eq_toInt w m hw
  refine ⟨hint, by rw [hint]; exact BitVec.le_toInt _, by rw [hint]; exact BitVec.toInt_lt, ?_⟩
  have hpos : 0 < 2 ^ (w - 1) := Nat.two_pow_pos _
  unfold sextInt
  rw [Nat.mod_eq_of_lt hm]
  split <;> omega

/-- The address of an element of a DENSE handle. -/
def denseAt (d : BitVec 512) (c : Nat × Nat × Nat × Nat) : Nat :=
  descBase d + descEsize d * (c.1 + c.2.1 * descStr d 1 + c.2.2.1 * descStr d 2 + c.2.2.2 * descStr d 3)

/-- The place of an element in its bitmaps: 128 of them to a chunk. -/
def chunkPlace (d : BitVec 512) (c : Nat × Nat × Nat × Nat) : Nat := c.1 + descExt d 0 * (c.2.1 + descExt d 1 * (c.2.2.1 + descExt d 2 * c.2.2.2))

/-- The edge of a tile, the tile of an element and its place in it, and the width of a mantissa. -/
def tileEdge (d : BitVec 512) : Nat := if bits d.toNat 12 12 = 1 then 16 else 32
def tileOf (d : BitVec 512) (c : Nat × Nat × Nat × Nat) : Nat := c.2.1 / tileEdge d * (descExt d 0 / tileEdge d) + c.1 / tileEdge d
def tilePlace (d : BitVec 512) (c : Nat × Nat × Nat × Nat) : Nat := c.2.1 % tileEdge d * tileEdge d + c.1 % tileEdge d
def planeCount (d : BitVec 512) : Nat := bits d.toNat 15 13 + 1

section Element
variable {z : State} {cfg : TeamCfg} {d : BitVec 512} {c : Nat × Nat × Nat × Nat} {v : Nat} {R : Nat → Nat → Nat → Prop}

/-! What ElementIs says, by the format. -/

theorem ElementIs.dense (he : ElementIs R d c v) (hfmt : descFormat d = 0) : ∃ x, R (denseAt d c) (descEsize d) x ∧ v = extendElem d x := by
  obtain ⟨hdense, -, -⟩ := he
  obtain ⟨x, hx, hv⟩ := hdense hfmt
  exact ⟨x, hx, by rw [extendElem_eq]; exact hv⟩

theorem ElementIs.chunk (he : ElementIs R d c v) (hfmt : descFormat d = 1) :
    ∃ o m, R (descAux d + 4 * (chunkPlace d c / 128)) 4 o ∧ R (descBase d + 16 * o) 16 m ∧ (m.testBit (chunkPlace d c % 128) = false → v = 0) ∧
      (m.testBit (chunkPlace d c % 128) = true →
        ∃ x, R (descBase d + 16 * o + 16 + descEsize d * ((List.range (chunkPlace d c % 128)).filter (fun i => m.testBit i)).length) (descEsize d) x ∧
          v = extendElem d x) := by
  obtain ⟨-, hchunk, -⟩ := he
  obtain ⟨o, m, ho, hm, hclear, hset⟩ := hchunk hfmt
  refine ⟨o, m, ho, hm, hclear, fun hone => ?_⟩
  obtain ⟨x, hx, hv⟩ := hset hone
  exact ⟨x, hx, by rw [extendElem_eq]; exact hv⟩

theorem ElementIs.planes (he : ElementIs R d c v) (hfmt : descFormat d = 2) :
    ∃ m E, m < 2 ^ planeCount d ∧
      (∀ q, q < planeCount d → ∃ y, R (descBase d + tileOf d c * planeCount d * (tileEdge d * tileEdge d / 8) + q * (tileEdge d * tileEdge d / 8) +
        tilePlace d c / 8) 1 y ∧ m.testBit q = y.testBit (tilePlace d c % 8)) ∧
      R (descAux d + tileOf d c) 1 E ∧ (E = 0xFF → v = fmtFp32.nan) ∧ (E ≠ 0xFF → m = 0 → v = 0) ∧
      (E ≠ 0xFF → m ≠ 0 → Finite fmtFp32 v ∧
        valueOf fmtFp32 v = ((BitVec.ofNat (planeCount d) m).toInt : ℚ) * (2 : ℚ) ^ ((E : Int) - 127 - ((planeCount d : Int) - 1))) := by
  obtain ⟨-, -, hplanes⟩ := he
  exact hplanes hfmt

/-! The fetch unit's reads, by the format. -/

theorem fetchElem_outside (z : State) (cfg : TeamCfg) (d : BitVec 512) : fetchElem z cfg d (2 ^ 128) = fetched 0 z := by
  unfold fetchElem
  exact if_pos le_rfl

theorem fetchElem_dense (hc : InWords c) (hfmt : descFormat d = 0) :
    fetchElem z cfg d (packed c) = fetchThen z cfg (denseAt d c) (descEsize d) (fun x s => fetched (extendElem d x) s) := by
  obtain ⟨h0, h1, h2, h3⟩ := packed_coords hc
  unfold fetchElem
  simp only [h0, h1, h2, h3]
  rw [if_neg (Nat.not_le.mpr (packed_lt hc)), if_pos hfmt]
  rfl

theorem fetchElem_chunk (hc : InWords c) (hfmt : descFormat d = 1) :
    fetchElem z cfg d (packed c) = fetchThen z cfg (descAux d + 4 * (chunkPlace d c / 128)) 4 (fun o s =>
      fetchThen s cfg (descBase d + 16 * o) 16 (fun m s =>
        if m.testBit (chunkPlace d c % 128) = false then fetched 0 s
        else fetchThen s cfg (descBase d + 16 * o + 16 + descEsize d * ((List.range (chunkPlace d c % 128)).filter (fun i => m.testBit i)).length)
          (descEsize d) (fun x s => fetched (extendElem d x) s))) := by
  obtain ⟨h0, h1, h2, h3⟩ := packed_coords hc
  unfold fetchElem
  simp only [h0, h1, h2, h3]
  rw [if_neg (Nat.not_le.mpr (packed_lt hc)), if_neg (by rw [hfmt]; decide), if_pos hfmt]
  simp only [div_mod_two_eq_zero, ← Nat.testBit_eq_decide_div_mod_eq]
  rfl

/-- How a fetch through planes goes on, its mantissa read. -/
def planesEnd (cfg : TeamCfg) (d : BitVec 512) (c : Nat × Nat × Nat × Nat) (r : FetchRes × State) : FetchRes × State :=
  match r.1.res, r.1.val with
  | .done, some m =>
    let x := fetchThen r.2 cfg (descAux d + tileOf d c) 1 (fun ex s => fetched (bfpValue (planeCount d) ex (sextInt (planeCount d) m)) s)
    ({ x.1 with peers := r.1.peers ++ x.1.peers }, x.2)
  | _, _ => r

theorem fetchElem_planes (hc : InWords c) (hfmt : descFormat d = 2) :
    fetchElem z cfg d (packed c) = planesEnd cfg d c (fetchPlanes cfg (descBase d + tileOf d c * planeCount d * (tileEdge d * tileEdge d / 8))
      (tileEdge d * tileEdge d / 8) (tilePlace d c) (planeCount d) 0 0 z) := by
  obtain ⟨h0, h1, h2, h3⟩ := packed_coords hc
  unfold fetchElem
  simp only [h0, h1, h2, h3]
  rw [if_neg (Nat.not_le.mpr (packed_lt hc)), if_neg (by rw [hfmt]; decide), if_neg (by rw [hfmt]; decide)]
  rfl

/-! The element, where every read is served. -/

variable (hserved : ∀ a n x, R a n x → FetchServed z cfg a n x)
include hserved

theorem fetchElem_of_dense (hc : InWords c) (hfmt : descFormat d = 0) (he : ElementIs R d c v) : fetchElem z cfg d (packed c) = fetched v z := by
  obtain ⟨x, hx, rfl⟩ := he.dense hfmt
  rw [fetchElem_dense hc hfmt, fetchThen_served (hserved _ _ _ hx)]

theorem fetchElem_of_chunk (hc : InWords c) (hfmt : descFormat d = 1) (he : ElementIs R d c v) : fetchElem z cfg d (packed c) = fetched v z := by
  obtain ⟨o, m, ho, hm, hclear, hset⟩ := he.chunk hfmt
  rw [fetchElem_chunk hc hfmt, fetchThen_served (hserved _ _ _ ho), fetchThen_served (hserved _ _ _ hm)]
  cases hbit : m.testBit (chunkPlace d c % 128) with
  | false => rw [if_pos rfl, hclear hbit]
  | true =>
    obtain ⟨x, hx, rfl⟩ := hset hbit
    rw [if_neg (by decide), fetchThen_served (hserved _ _ _ hx)]

/-- The planes of a mantissa, read one after another, add up to it. -/
theorem fetchPlanes_eq (base pb b m n q acc : Nat) (h : ∀ j, j < n → ∃ y, R (base + (q + j) * pb + b / 8) 1 y ∧ m.testBit (q + j) = y.testBit (b % 8)) :
    fetchPlanes cfg base pb b n q acc z = fetched (acc + m / 2 ^ q % 2 ^ n * 2 ^ q) z := by
  induction n generalizing q acc with
  | zero => simp [fetchPlanes, Nat.mod_one]
  | succ n ih =>
    obtain ⟨y, hy, hbit⟩ := h 0 (Nat.succ_pos n)
    have hrest : ∀ j, j < n → ∃ y, R (base + (q + 1 + j) * pb + b / 8) 1 y ∧ m.testBit (q + 1 + j) = y.testBit (b % 8) := fun j hj => by
      have := h (j + 1) (Nat.succ_lt_succ hj)
      rwa [Nat.add_comm j 1, ← Nat.add_assoc] at this
    have hsplit : m / 2 ^ q % 2 ^ (n + 1) = m / 2 ^ q % 2 + 2 * (m / 2 ^ (q + 1) % 2 ^ n) := by
      rw [Nat.pow_succ', Nat.mod_mul, Nat.div_div_eq_div_mul, ← Nat.pow_succ]
    have hlow : y / 2 ^ (b % 8) % 2 = m / 2 ^ q % 2 := (div_mod_two_eq hbit).symm
    rw [Nat.add_zero] at hy
    rw [fetchPlanes, fetchThen_served (hserved _ _ _ hy), ih (q + 1) _ hrest, hlow, hsplit]
    congr 1
    ring

theorem fetchElem_of_planes (hbyte : ∀ a x, R a 1 x → x < 2 ^ 8) (hc : InWords c) (hfmt : descFormat d = 2) (he : ElementIs R d c v) :
    fetchElem z cfg d (packed c) = fetched v z := by
  obtain ⟨m, E, hm, hbits, hE, hnan, hzero, hvalue⟩ := he.planes hfmt
  have hpos : 0 < planeCount d := Nat.succ_pos _
  have hw : planeCount d ≤ 8 := Nat.succ_le_of_lt (Nat.mod_lt _ (by decide))
  have hmantissa := fetchPlanes_eq hserved (descBase d + tileOf d c * planeCount d * (tileEdge d * tileEdge d / 8)) (tileEdge d * tileEdge d / 8)
    (tilePlace d c) m (planeCount d) 0 0 (by simpa only [Nat.zero_add] using hbits)
  rw [Nat.pow_zero, Nat.div_one, Nat.mul_one, Nat.zero_add, Nat.mod_eq_of_lt hm] at hmantissa
  obtain ⟨hint, hlow, hhigh, hnull⟩ := sextInt_mantissa hpos hm
  have hresult : bfpValue (planeCount d) E (sextInt (planeCount d) m) = v := by
    by_cases hmax : E = 0xFF
    · rw [hnan hmax, bfpValue, if_pos hmax]
    by_cases hnil : m = 0
    · rw [hzero hmax hnil, bfpValue, if_neg hmax, if_pos (hnull.mpr hnil)]
    · obtain ⟨hfin, hv⟩ := hvalue hmax hnil
      rw [← hint] at hv
      exact bfpValue_eq hpos hw (by have := hbyte _ _ hE; omega) hlow hhigh (fun h => hnil (hnull.mp h)) hfin hv
  have hend : planesEnd cfg d c (fetched m z) = fetched v z := by
    simp only [planesEnd, fetched, fetchThen_served (hserved _ _ _ hE), hresult, List.nil_append]
  rw [fetchElem_planes hc hfmt, hmantissa, hend]

/-- Where every read is served, a lane gets the element of its coordinates. -/
theorem fetchElem_of_element (hbyte : ∀ a x, R a 1 x → x < 2 ^ 8) (hd : HandleGood d) (hc : InWords c) (he : ElementIs R d c v) :
    fetchElem z cfg d (packed c) = fetched v z := by
  have hformat : descFormat d = 0 ∨ descFormat d = 1 ∨ descFormat d = 2 := by have := hd.format; omega
  rcases hformat with hfmt | hfmt | hfmt
  · exact fetchElem_of_dense hserved hc hfmt he
  · exact fetchElem_of_chunk hserved hc hfmt he
  · exact fetchElem_of_planes hserved hbyte hc hfmt he

/-- What a lane of an index gets, 0 outside the extents. -/
theorem fetchElem_of_fetchIs (hbyte : ∀ a x, R a 1 x → x < 2 ^ 8) (hd : HandleGood d) {two : Bool} {l : Nat} (h : FetchIs R d two l v) :
    fetchElem z cfg d (fetchIndex d two l) = fetched v z := by
  unfold FetchIs at h
  cases hplace : fetchPlace d two l with
  | none =>
    rw [hplace] at h
    rw [fetchIndex_of_noPlace hplace, fetchElem_outside, h]
  | some c =>
    rw [hplace] at h
    obtain ⟨hindex, hc⟩ := fetchIndex_of_place hd hplace
    rw [hindex]
    exact fetchElem_of_element hserved hbyte hd hc h

end Element

end Sys2Proof.Machine
end

section
/-! PROOFS. FETCH and FETCH2 at issue (R292): through a bound slot they are a memory instruction of the kind fetch; lanes whose elements are found leave their
values with the operation in flight. -/

namespace Sys2Proof.Machine

/-! ## A fetch as a memory instruction -/

/-- The registers of an element of a handle. -/
def fetchRegs (h : BitVec 512) : Nat := if descEsize h = 8 then 2 else 1

/-- The access of a fetch, and of each of its lanes. -/
def fetchOp (h : BitVec 512) (d : Sel) (late : Option Nat) : MemOp :=
  { kind := .fetch h, size := descEsize h, dst := d, regs := fetchRegs h, late := late, uniform := isSreg d }

def fetchLane (t : Team) (lit : Word) (h : BitVec 512) (two : Bool) (b : Sel) (nb j : Nat) : LaneAcc :=
  { slot := j, ea := descBase h, data := fetchIndex h two (readVal t lit j b nb), cmp := 0 }

section Body
variable {s : State} {u : Nat} {t : Team} {c : Clause} {d a b : Sel} {i : Instr} {two : Bool} {nb : Nat} {h : BitVec 512} {x : Issue} {k : Nat}

theorem fetchBody_unbound (hk : 16 ≤ x.uval a 1 ∨ handleOf x.t (x.uval a 1) = none) : fetchBody two d a b s x = trapExec .illegalOp s x := by
  have hnone : (if 16 ≤ x.uval a 1 then none else handleOf x.t (x.uval a 1)) = none := by
    split
    · rfl
    · exact hk.resolve_left ‹_›
  unfold fetchBody
  simp only [hnone]

/-- A slot with no binding in progress is not waited for. -/
theorem waitBind_idle (hteam : tblGet s.teams u = some t) (hidle : ∀ o ∈ t.late, o.hbind ≠ some k) : waitBind s u k = s := by
  have hnone : t.late.find? (fun o => decide (o.hbind = some k)) = none := List.find?_eq_none.mpr fun o ho => by simpa using hidle o ho
  unfold waitBind
  simp only [hteam, hnone]

theorem windowFails_fetch (s : State) (t : Team) (late : Option Nat) (lanes : List LaneAcc) : windowFails s t (fetchOp h d late) lanes = [] :=
  List.filter_eq_nil_iff.mpr fun _ _ => by simp [fetchOp]

/-- Through a bound slot FETCH and FETCH2 settle their lanes, the operation counted on READS. -/
theorem fetchBody_bound (hx : Issuing s x.u x.t c) (hk : x.uval a 1 < 16) (hbound : handleOf x.t (x.uval a 1) = some h)
    (hidle : ∀ o ∈ x.t.late, o.hbind ≠ some (x.uval a 1)) (hdst : opndOk x.t.cfg.budget (dst d (fetchRegs h)) = true) (hreads : c.reads < 12)
    (hactive : x.active = lanesOn x.t) (hlit : x.lit = c.lit) (hnb : nb = if two then 2 else 1) :
    let lanes := accessesOf x.t (isSreg d) (fetchLane x.t c.lit h two b nb)
    fetchBody two d a b s x = settleEnds
      (settleLanes (startLate s x.u c.reads (laneLate s x.t (fetchOp h d (some s.nextId)) lanes)).2 x.u x.t (fetchOp h d (some s.nextId)) lanes) x
      (fetchOp h d (some s.nextId)) [] := by
  intro lanes
  have hlanes : accesses x (isSreg d) (fun j => { slot := j, ea := descBase h, data := fetchIndex h two (x.val j b (if two then 2 else 1)), cmp := 0 }) = lanes := by
    rw [accesses_eq rfl hactive]
    unfold Issue.val
    rw [hlit, ← hnb]
    rfl
  have hmem : memBody (fetchOp h d none) c.reads lanes s x = settleEnds
      (settleLanes (startLate s x.u c.reads (laneLate s x.t (fetchOp h d (some s.nextId)) lanes)).2 x.u x.t (fetchOp h d (some s.nextId)) lanes) x
      (fetchOp h d (some s.nextId)) [] := by
    unfold memBody
    rw [if_neg (not_not_intro (windowFails_fetch s x.t none lanes)), if_neg (show ¬ c.reads = 15 by omega)]
    rfl
  have hsome : (if 16 ≤ x.uval a 1 then none else handleOf x.t (x.uval a 1)) = some h := by rw [if_neg (Nat.not_le.mpr hk), hbound]
  unfold fetchBody
  simp only [hsome, waitBind_idle hx.team hidle, hx.team]
  rw [← hmem, ← hlanes, ← readsFlag_eq (x := x) rfl hx.clause]
  have hok : (!opndOk x.t.cfg.budget (dst d (fetchRegs h))) = false := by rw [hdst]; rfl
  exact if_neg (by rw [Bool.not_eq_true]; exact hok)

/-! ## FETCH and FETCH2 issued -/

theorem fetch_row (hi : (i, two, nb) ∈ [(Instr.fetch d a b, false, 1), (.fetch2 d a b, true, 2)]) :
    (∀ s, exec i s = issue i (fetchForm two d a b) (fetchBody two d a b) s) ∧ nb = (if two then 2 else 1) ∧ (i.wellFormed = true → d.isDst = true) := by
  simp only [List.mem_cons, Prod.mk.injEq, List.not_mem_nil, or_false] at hi
  rcases hi with ⟨rfl, rfl, rfl⟩ | ⟨rfl, rfl, rfl⟩
  · exact ⟨fun _ => rfl, rfl, fun hwf => (Bool.and_eq_true_iff.mp (Bool.and_eq_true_iff.mp hwf).1).1⟩
  · exact ⟨fun _ => rfl, rfl, fun hwf => (Bool.and_eq_true_iff.mp (Bool.and_eq_true_iff.mp hwf).1).1⟩

theorem exec_fetch (h : Issuing s u t c) (hi : (i, two, nb) ∈ [(Instr.fetch d a b, false, 1), (.fetch2 d a b, true, 2)])
    (hlegal : Legal i t true anyType [dst d 1, src a 1, src b nb]) (hclean : Unpoisoned t [dst d 1, src a 1, src b nb] (lanesOn t))
    (hfree : slicePending t = false) (hflag : flagCount t c.reads ≠ 63) :
    ∃ x : Issue, x.u = u ∧ x.t = t ∧ x.exec = lanesExec t ∧ x.active = lanesOn t ∧ x.lit = c.lit ∧ x.uval a 1 = readVal t c.lit 0 a 1 ∧
      exec i s = finish u (fetchBody two d a b s x) := by
  obtain ⟨hexec, rfl, -⟩ := fetch_row hi
  have hgo : gate i (fetchForm two d a b) t c = .go := gate_go hlegal (fun _ => hfree) hflag
  have hactive : (issueOf (fetchForm two d a b) u t c).active = lanesOn t := issueOf_active _ rfl u t c
  refine ⟨issueOf (fetchForm two d a b) u t c, issueOf_u _ u t c, issueOf_t _ u t c, issueOf_exec _ u t c, hactive, issueOf_lit _ u t c,
    by rw [Issue.uval, issueOf_t, issueOf_lit], ?_⟩
  rw [hexec, issue_go h _ hgo, perform_clean (by rw [hactive]; exact hclean)]

end Body

/-! ## Lanes whose elements are found -/

theorem updTeam_setTeam (s : State) (u : Nat) (t : Team) (f : Team → Team) : (s.setTeam u t).updTeam u f = s.setTeam u (f t) := by
  rw [State.updTeam_of_some (State.team_setTeam_self s u t)]
  unfold State.setTeam
  rw [tblSet_tblSet_self]

/-- A lane that has its element leaves it with the operation. -/
theorem settleLane_fetched {z : Settle} {u : Nat} {t : Team} {h : BitVec 512} {d : Sel} {x : LaneAcc} {v : Nat} {s1 : State}
    (hfetch : fetchElem z.s t.cfg h x.data = fetched v s1) (id instr : Nat) :
    settleLane u t (fetchOp h d (some id)) instr z x = { z with s := s1.updTeam u (fun t => bindLate t id x.slot d (fetchRegs h) v) } := by
  unfold settleLane
  simp only [fetchOp, hfetch, fetched, bindLane, List.foldl_nil]

/-- Lanes that have their elements, the machine left as it is. -/
theorem settleLanes_fetched {u : Nat} {t : Team} {h : BitVec 512} {d : Sel} (instr id : Nat) {val : Nat → Nat} {s : State} (lanes : List LaneAcc)
    (hfetch : ∀ x ∈ lanes, ∀ T, fetchElem (s.setTeam u T) t.cfg h x.data = fetched (val x.slot) (s.setTeam u T)) (T : Team) :
    lanes.foldl (settleLane u t (fetchOp h d (some id)) instr) { s := s.setTeam u T, atoms := [], parks := [], helds := [] } =
      { s := s.setTeam u (lanes.foldl (fun T x => bindLate T id x.slot d (fetchRegs h) (val x.slot)) T), atoms := [], parks := [], helds := [] } := by
  induction lanes generalizing T with
  | nil => rfl
  | cons x rest ih =>
    rw [List.foldl_cons, settleLane_fetched (z := { s := s.setTeam u T, atoms := [], parks := [], helds := [] }) (hfetch x List.mem_cons_self T)]
    simp only [updTeam_setTeam]
    rw [ih (fun y hy => hfetch y (List.mem_cons_of_mem x hy))]
    rfl

/-! ## The values bound to an operation -/

/-- An operation with the results of some slots added. -/
def addResults (d : Sel) (n : Nat) (slots : List Nat) (val : Nat → Nat) (o : LateOp) : LateOp :=
  { o with vwrites := o.vwrites ++ slots.flatMap (fun k => (regWrites k d n (val k)).1),
           swrites := o.swrites ++ slots.flatMap (fun k => (regWrites k d n (val k)).2) }

theorem updLate_updLate (T : Team) (id : Nat) {f : LateOp → LateOp} (hf : ∀ o, (f o).id = o.id) (g : LateOp → LateOp) :
    updLate (updLate T id f) id g = updLate T id (fun o => g (f o)) := by
  unfold updLate
  simp only [List.map_map]
  congr 1
  refine List.map_congr_left fun o _ => ?_
  by_cases ho : o.id = id
  · simp [ho, hf]
  · simp [ho]

theorem foldl_bindLate (d : Sel) (n id : Nat) (val : Nat → Nat) (lanes : List LaneAcc) (T : Team) :
    lanes.foldl (fun T x => bindLate T id x.slot d n (val x.slot)) T = updLate T id (addResults d n (lanes.map LaneAcc.slot) val) := by
  induction lanes generalizing T with
  | nil => simp [addResults, updLate]
  | cons x rest ih =>
    have hbind : bindLate T id x.slot d n (val x.slot) = updLate T id (addResults d n [x.slot] val) := by
      refine congrArg (updLate T id) (funext fun o => ?_)
      simp [addResults]
    rw [List.foldl_cons, ih, hbind, updLate_updLate T id (f := addResults d n [x.slot] val) (fun _ => rfl)]
    refine congrArg (updLate T id) (funext fun o => ?_)
    simp [addResults]

/-- The words of an s destination do not depend on the lane. -/
theorem regWrites_snd_lane (j k : Nat) (d : Sel) (n v : Nat) : (regWrites j d n v).2 = (regWrites k d n v).2 := by
  induction n generalizing d v with
  | zero => rfl
  | succ n ih =>
    unfold regWrites
    cases d <;> simp only [ih]

/-- An operation that has been given nothing, with the results of a fetch's lanes added, keeps them as the instruction's result. -/
theorem keepsResult_addResults (t : Team) (d : Sel) (n : Nat) {f : Nat → LaneAcc} (hf : ∀ j, (f j).slot = j) (val : Nat → Nat) {o : LateOp}
    (hv : o.vwrites = []) (hs : o.swrites = []) (hfpst : o.fpst = 0) (hmask : o.mask = none) (hpoison : o.poisoned = []) (hbuild : o.build = none) :
    KeepsResult (addResults d n ((accessesOf t (isSreg d) f).map LaneAcc.slot) val o) d n (lanesFor t d (lanesOn t))
      (fun j => (val (if isSreg d then lowestOf t else j), 0)) := by
  cases hd : isSreg d with
  | true =>
    have hslots : (accessesOf t true f).map LaneAcc.slot = [lowestOf t] := by simp [accessesOf, hf]
    have hlanes : lanesFor t d (lanesOn t) = [0] := by simp [lanesFor, hd]
    rw [hslots, hlanes]
    refine ⟨?_, ?_, hfpst.trans (foldl_or_zero [0]).symm, hmask, hpoison, hbuild⟩
    · simp [addResults, hv, regWrites_fst_of_sreg hd]
    · simp [addResults, hs, regWrites_snd_lane (lowestOf t) 0]
  | false =>
    have hslots : (accessesOf t false f).map LaneAcc.slot = slotsOf t.cfg.capacity (lanesOn t) := by
      simp [accessesOf, Function.comp_def, hf]
    have hlanes : lanesFor t d (lanesOn t) = slotsOf t.cfg.capacity (lanesOn t) := by simp [lanesFor, hd]
    rw [hslots, hlanes]
    refine ⟨by simp [addResults, hv], by simp [addResults, hs], ?_, hmask, hpoison, hbuild⟩
    rw [foldl_or_zero]
    exact hfpst

end Sys2Proof.Machine
end

section
/-! PROOFS. A fetch that its core's fetch cache serves (R92, R96, R292): each lane's element is found and written late. -/

namespace Sys2Proof.Machine

/-! ## Where a fetch's lanes are settled -/

/-- The operation of a fetch put in flight. -/
def fetchLate (s : State) (t : Team) (c : Clause) (op : MemOp) (lanes : List LaneAcc) : LateOp :=
  laneLate s t op lanes (bareLate s.nextId c.reads (lowestOf t))

theorem settleLanes_fetch (s : State) (u : Nat) (t : Team) (h : BitVec 512) (d : Sel) (late : Option Nat) (lanes : List LaneAcc) :
    settleLanes s u t (fetchOp h d late) lanes =
      lanes.foldl (settleLane u t (fetchOp h d late) (takeId s).1) { s := (takeId s).2, atoms := [], parks := [], helds := [] } := rfl

/-- The state before the lanes of a fetch are settled: the operation in flight, its two numbers given out. -/
theorem takeId_startLate {s : State} {u : Nat} {t : Team} {c : Clause} (h : Issuing s u t c) (op : MemOp) (lanes : List LaneAcc) :
    (takeId (startLate s u c.reads (laneLate s t op lanes)).2).2 =
      ({ s with nextId := s.nextId + 2 } : State).setTeam u (withLate t (fetchLate s t c op lanes)) := by
  rw [startLate_of_some h.team c.reads (laneLate s t op lanes) fun _ => rfl]
  rfl

/-- The values of a fetch's lanes, bound to its operation, are its late result. -/
theorem writesLate_of_fetch {s : State} {t : Team} {c : Clause} (hflag : flagCount t c.reads ≠ 63) {d : Sel} {n : Nat} (hw : isW d = false) (hd : RegsExist d n)
    (op : MemOp) {f : Nat → LaneAcc} (hf : ∀ j, (f j).slot = j) (val : Nat → Nat) :
    ∃ o, LateAdded t (updLate (withLate t (fetchLate s t c op (accessesOf t (isSreg d) f))) s.nextId
        (addResults d n ((accessesOf t (isSreg d) f).map LaneAcc.slot) val)) o s.nextId c.reads ∧ o.wait = .none ∧
      WritesLate o d n (lanesFor t d (lanesOn t)) (fun j => val (if isSreg d then lowestOf t else j)) 0 := by
  have hkeeps := keepsResult_addResults t d n hf val (o := fetchLate s t c op (accessesOf t (isSreg d) f)) rfl rfl rfl rfl rfl rfl
  have hwrites := writesLate_of_keepsResult hkeeps hw hd (nodup_lanesFor _ _ _) (length_lanesFor _ _ _)
  rw [foldl_or_zero] at hwrites
  exact ⟨_, lateAdded_updLate (o := fetchLate s t c op (accessesOf t (isSreg d) f)) hflag rfl rfl, rfl, hwrites⟩

section Fetch
variable {s : State} {u : Nat} {t : Team} {c : Clause} {d a b : Sel} {i : Instr} {two : Bool} {nb : Nat} {h : BitVec 512}

/-- What a FETCH or FETCH2 through a bound slot rests on. -/
structure FetchReady (s : State) (u : Nat) (t : Team) (c : Clause) (d a b : Sel) (i : Instr) (two : Bool) (nb : Nat) (h : BitVec 512) : Prop where
  issuing : Issuing s u t c
  row : (i, two, nb) ∈ [(Instr.fetch d a b, false, 1), (.fetch2 d a b, true, 2)]
  legal : Legal i t true anyType [dst d 1, src a 1, src b nb]
  clean : Unpoisoned t [dst d 1, src a 1, src b nb] (lanesOn t)
  free : slicePending t = false
  reads : c.reads < 12
  flag : flagCount t c.reads ≠ 63
  slot : readVal t c.lit 0 a 1 < 16
  bound : handleOf t (readVal t c.lit 0 a 1) = some h
  idle : ∀ o ∈ t.late, o.hbind ≠ some (readVal t c.lit 0 a 1)
  regs : opndOk t.cfg.budget (dst d (fetchRegs h)) = true

theorem FetchReady.isW (hr : FetchReady s u t c d a b i two nb h) : isW d = false := isW_of_opndsOk hr.legal.operands

theorem FetchReady.regsExist (hr : FetchReady s u t c d a b i two nb h) : RegsExist d (fetchRegs h) := by
  obtain ⟨-, -, hdst⟩ := fetch_row hr.row
  refine regsExist_of_opndOk (hdst hr.legal.fields) ?_ hr.regs
  unfold fetchRegs
  split <;> decide

/-- The lanes of a fetch. -/
def fetchLanes (t : Team) (c : Clause) (h : BitVec 512) (d b : Sel) (two : Bool) (nb : Nat) : List LaneAcc :=
  accessesOf t (isSreg d) (fetchLane t c.lit h two b nb)

/-- A lane of a fetch has its index as its data. -/
theorem data_of_mem_fetchLanes {x : LaneAcc} (hx : x ∈ fetchLanes t c h d b two nb) : x.data = fetchIndex h two (readVal t c.lit x.slot b nb) := by
  unfold fetchLanes accessesOf at hx
  split at hx
  · rw [List.mem_singleton.mp hx]
    rfl
  · obtain ⟨j, -, rfl⟩ := List.mem_map.mp hx
    rfl

/-- How a fetch through a bound slot ends is how its settled lanes end. -/
theorem exec_fetch_ends (hr : FetchReady s u t c d a b i two nb h) :
    ∃ x : Issue, x.u = u ∧ exec i s = finish u (settleEnds
      (settleLanes (startLate s u c.reads (laneLate s t (fetchOp h d (some s.nextId)) (fetchLanes t c h d b two nb))).2 u t (fetchOp h d (some s.nextId))
        (fetchLanes t c h d b two nb)) x (fetchOp h d (some s.nextId)) []) := by
  obtain ⟨-, hnb, -⟩ := fetch_row hr.row
  obtain ⟨x, rfl, rfl, -, hactive, hlit, hk, hexec⟩ := exec_fetch hr.issuing hr.row hr.legal hr.clean hr.free hr.flag
  refine ⟨x, rfl, ?_⟩
  rw [hexec, fetchBody_bound hr.issuing (by rw [hk]; exact hr.slot) (by rw [hk]; exact hr.bound) (by rw [hk]; exact hr.idle) hr.regs hr.reads hactive hlit hnb]
  rfl

theorem exec_fetch_done (hr : FetchReady s u t c d a b i two nb h) {z : Settle}
    (hz : settleLanes (startLate s u c.reads (laneLate s t (fetchOp h d (some s.nextId)) (fetchLanes t c h d b two nb))).2 u t (fetchOp h d (some s.nextId))
      (fetchLanes t c h d b two nb) = z) (hp : z.parks = []) (hh : z.helds = []) : exec i s = .next (stepOn z.s u) := by
  subst hz
  obtain ⟨x, rfl, hexec⟩ := exec_fetch_ends hr
  rw [hexec, settleEnds_done hp hh]
  rfl

/-- A FETCH or FETCH2 that the fetch cache serves. -/
theorem exec_fetch_cached (hr : FetchReady s u t c d a b i two nb h) (hd : HandleGood h) {val : Nat → Nat}
    (hval : ∀ x ∈ fetchLanes t c h d b two nb, FetchIs (FetchCached s t) h two (readVal t c.lit x.slot b nb) (val x.slot)) :
    CompletesLate i s u t c.reads (lanesOn t) d (fetchRegs h) (fun j => val (if isSreg d then lowestOf t else j)) 0 := by
  have hfetch : ∀ x ∈ fetchLanes t c h d b two nb, ∀ T, fetchElem (({ s with nextId := s.nextId + 2 } : State).setTeam u T) t.cfg h x.data =
      fetched (val x.slot) (({ s with nextId := s.nextId + 2 } : State).setTeam u T) := fun x hx T => by
    rw [data_of_mem_fetchLanes hx]
    exact fetchElem_of_fetchIs (fun _ _ _ hc => fetchServed_of_cached hc rfl) (fun _ _ hc => lt_of_fetchCached_byte hc) hd (hval x hx)
  have hsettled := settleLanes_fetched (t := t) (d := d) (takeId (startLate s u c.reads (laneLate s t (fetchOp h d (some s.nextId))
    (fetchLanes t c h d b two nb))).2).1 s.nextId _ hfetch (withLate t (fetchLate s t c (fetchOp h d (some s.nextId)) (fetchLanes t c h d b two nb)))
  rw [← takeId_startLate hr.issuing, ← settleLanes_fetch, foldl_bindLate] at hsettled
  obtain ⟨o, hadded, hwait, hwrites⟩ := writesLate_of_fetch (s := s) hr.flag hr.isW hr.regsExist (fetchOp h d (some s.nextId))
    (f := fetchLane t c.lit h two b nb) (fun _ => rfl) val
  exact ⟨s.nextId + 2, _, o, exec_fetch_done hr hsettled rfl rfl, by omega, hadded, hwait, hwrites⟩

end Fetch

end Sys2Proof.Machine
end

section
/-! PROOFS. A fetch that misses (R92, R292): its line taken at home, what its core had under way there before, and kept in the fetch cache. -/

namespace Sys2Proof.Machine

/-! ## Translation leaves the teams as they were -/

@[simp] theorem teams_recordFault (s : State) (cl ctx va : Nat) (n : Need) (cause : Nat) : (recordFault s cl ctx va n cause).teams = s.teams := by
  unfold recordFault
  simp only
  split
  · rfl
  · split <;> rfl

@[simp] theorem teams_walkFrom (va : Nat) (levels : List (Nat × Nat × Nat)) (table : Nat) (s : State) : (walkFrom va levels table s).2.teams = s.teams := by
  induction levels generalizing table s with
  | nil => rfl
  | cons level rest ih =>
    unfold walkFrom
    simp only
    split
    · rfl
    split
    · rfl
    split
    · simp
    split
    · split <;> simp
    split
    · simp
    · rw [ih, teams_homeRead]

@[simp] theorem teams_walk (s : State) (ctx va : Nat) : (walk s ctx va).2.teams = s.teams := by
  unfold walk
  split
  · rfl
  · exact teams_walkFrom _ _ _ _

@[simp] theorem teams_installTlb (s : State) (cl : Nat) (e : TlbEntry) : (installTlb s cl e).teams = s.teams := rfl

@[simp] theorem teams_walkFor (s : State) (cl ctx va : Nat) (n : Need) : (walkFor s cl ctx va n).2.teams = s.teams := by
  have hmark : ∀ (e e' pa : Nat) (z : State), (if e' = e then z else homeWrite z pa (bytesOf 8 e')).teams = z.teams := fun e e' pa z => by split <;> simp
  unfold walkFor
  simp only
  split
  · simp
  · simp
  · split
    · simp
    · simp
    · simp
    · simp only
      rw [apply_ite State.teams, teams_installTlb, ite_self, hmark, teams_walk]

@[simp] theorem teams_settleWindow (s : State) (pa : Nat) : (settleWindow s pa).teams = s.teams := by
  unfold settleWindow
  split <;> rfl

@[simp] theorem teams_settled (r : Tr × State) : (settled r).2.teams = r.2.teams := by
  unfold settled
  split
  · simp only
    split <;> simp
  · rfl

@[simp] theorem teams_translate (s : State) (core ctx va : Nat) (n : Need) : (translate s core ctx va n).2.teams = s.teams := by
  unfold translate
  simp only
  split
  · split
    · split <;> simp
    · simp
  · split
    · rw [teams_settled]
      split
      · rw [teams_walkFor]
        rfl
      · rfl
    · simp

/-- An access that is translated leaves the teams as they were. -/
theorem teams_of_reach {s s1 : State} {cfg : TeamCfg} {va : Nat} {n : Need} {atomic : Bool} {m : Mapping} (h : reach s cfg va n atomic = (.ok m, s1)) :
    s1.teams = s.teams := by
  rw [← teams_translate s cfg.core cfg.ctx va n]
  unfold reach at h
  simp only at h
  split at h
  case h_4 =>
    split at h
    · simp at h
    · split at h
      · simp at h
      · simp at h
      · rw [(Prod.mk.inj h).2]
  all_goals simp at h

/-! ## A line with nothing under way -/

theorem findIx_eq_none {α : Type} {p : α → Bool} {l : List α} (h : ∀ x ∈ l, p x = false) : findIx p l = none := by
  induction l with
  | nil => rfl
  | cons x rest ih => simp [findIx, h x List.mem_cons_self, ih fun y hy => h y (List.mem_cons_of_mem x hy)]

theorem drainWhere_of_none {s : State} {c : Nat} {p : OutEntry → Bool} (h : ∀ e ∈ (s.core c).out, p e = false) (fuel : Nat) : drainWhere c p fuel s = s := by
  cases fuel with
  | zero => rfl
  | succ fuel => rw [drainWhere, findIx_eq_none h]

theorem teams_drainLine {s : State} {c p : Nat} (h : NothingOut s c p) : (drainLine s c p).teams = s.teams := by
  unfold drainLine
  rw [teams_drainAcks, drainWhere_of_none fun e he => decide_eq_false (h e he)]

/-! ## The bytes of a line -/

theorem natOfBytes_lt (bs : List Byte) : natOfBytes bs < 2 ^ (8 * bs.length) := by
  induction bs with
  | nil => simp [natOfBytes]
  | cons b rest ih =>
    have hb := b.isLt
    rw [natOfBytes, List.length_cons, Nat.mul_succ, Nat.pow_add]
    omega

theorem natOfBytes_byte (bs : List Byte) (k : Nat) : natOfBytes bs / 2 ^ (8 * k) % 2 ^ 8 = (nthD bs k 0).toNat := by
  induction bs generalizing k with
  | nil => simp [natOfBytes, nthD]
  | cons b rest ih =>
    have hb := b.isLt
    cases k with
    | zero =>
      rw [natOfBytes]
      show (b.toNat + 256 * natOfBytes rest) / 2 ^ 0 % 2 ^ 8 = b.toNat
      omega
    | succ k =>
      have hnext : (b.toNat + 256 * natOfBytes rest) / 2 ^ 8 = natOfBytes rest := by omega
      rw [natOfBytes, Nat.mul_succ, Nat.add_comm (8 * k), Nat.pow_add, ← Nat.div_div_eq_div_mul, hnext, ih]
      rfl

/-- The bytes of a line as a register holds them. -/
theorem lineByte_natOfBytes {bs : List Byte} (h : bs.length = 128) (k : Nat) : lineByte (BitVec.ofNat 1024 (natOfBytes bs)) k = nthD bs k 0 := by
  have hlt : natOfBytes bs < 2 ^ 1024 := by have := natOfBytes_lt bs; rwa [h] at this
  apply BitVec.eq_of_toNat_eq
  rw [← natOfBytes_byte, lineByte, BitVec.toNat_setWidth, BitVec.toNat_ushiftRight, BitVec.toNat_ofNat, Nat.mod_eq_of_lt hlt, Nat.shiftRight_eq_div_pow]

/-- A run of bytes of a line, taken byte by byte. -/
theorem map_lineByte_eq {bs : List Byte} (h : bs.length = 128) {o n : Nat} (hfit : o + n ≤ 128) :
    (List.range n).map (fun i => lineByte (BitVec.ofNat 1024 (natOfBytes bs)) (o + i)) = (bs.drop o).take n := by
  apply List.ext_getElem
  · simp; omega
  · intro i hi _
    have hi' : i < n := by simpa using hi
    simp only [List.getElem_map, List.getElem_range, List.getElem_take, List.getElem_drop, lineByte_natOfBytes h]
    rw [nthD, List.getElem?_eq_getElem (by omega)]
    rfl

/-! ## A line taken at home -/

theorem length_homeTake {s s1 : State} {pull : Bool} {pa n : Nat} {bs : List Byte} (h : homeTake s pull pa n = (some bs, s1)) : bs.length = n := by
  unfold homeTake at h
  simp only [Prod.mk.injEq] at h
  obtain ⟨hbs, -⟩ := h
  split at hbs
  · exact absurd hbs (by simp)
  · rw [← Option.some.inj hbs]
    simp [homeBytes]

theorem recallWord_of_unowned {s : State} {w : Nat} (h : tblGet s.own w = none) (pull : Bool) : recallWord s pull w = s := by
  unfold recallWord
  rw [h]

theorem wordsOf_line {pa : Nat} (h : pa % 128 = 0) : wordsOf pa 128 = (List.range 32).map (fun k => pa / 4 + k) := by
  have hcount : (pa + 128 - 1) / 4 - pa / 4 + 1 = 32 := by omega
  unfold wordsOf
  rw [if_neg (by decide), hcount]

theorem foldl_recallWord_of_unowned {s : State} (pull : Bool) (ws : List Nat) (h : ∀ w ∈ ws, tblGet s.own w = none) :
    ws.foldl (fun s w => recallWord s pull w) s = s := by
  induction ws with
  | nil => rfl
  | cons w rest ih =>
    rw [List.foldl_cons, recallWord_of_unowned (h w List.mem_cons_self)]
    exact ih fun y hy => h y (List.mem_cons_of_mem w hy)

theorem homeByte_crossLines (s : State) (pa n a : Nat) : homeByte (crossLines s pa n) a = homeByte s a := by
  unfold crossLines
  split <;> rfl

/-- A line that no core owns a word of, and of plain bytes, is taken as memory holds it. -/
theorem homeTake_plain {s s1 : State} {pull : Bool} {pa : Nat} {bs : List Byte} (hpa : pa % 128 = 0) (h : homeTake s pull pa 128 = (some bs, s1))
    (hown : ∀ w, w < 32 → tblGet s.own (pa / 4 + w) = none) (hplain : PlainBytes s pa 128) : bs = Memory.reads s.mem pa 128 := by
  have hrecall : recallRange s pull pa 128 = crossLines s pa 128 := by
    unfold recallRange
    rw [wordsOf_line hpa, foldl_recallWord_of_unowned]
    intro w hw
    obtain ⟨k, hk, rfl⟩ := List.mem_map.mp hw
    exact hown k (List.mem_range.mp hk)
  unfold homeTake recallJudged at h
  simp only [hrecall, Prod.mk.injEq] at h
  obtain ⟨hbs, -⟩ := h
  split at hbs
  · exact absurd hbs (by simp)
  rw [← Option.some.inj hbs]
  refine List.map_congr_left fun k hk => ?_
  rw [homeByte_crossLines, homeByte, hplain k (List.mem_range.mp hk)]

/-! ## The read that misses -/

/-- A line as the fetch cache keeps it. -/
def keptLine (cfg : TeamCfg) (va : Nat) (m : Mapping) (bs : List Byte) : RawLine :=
  { vline := va / 128, ctx := cfg.ctx, pline := m.pa / 128, data := BitVec.ofNat 1024 (natOfBytes bs) }

theorem fetchBytes_miss {z s1 s2 : State} {cfg : TeamCfg} {va n : Nat} {m : Mapping} {bs : List Byte} (hva : va < 0xFE00000000000) (halign : va % n = 0)
    (hfit : va % 128 + n ≤ 128) (hmiss : ∀ l ∈ (z.core cfg.core).fetchLines, ¬ (l.vline = va / 128 ∧ l.ctx = cfg.ctx))
    (hreach : reach z cfg va needFetch false = (.ok m, s1)) (hpeer : m.peer = none) (hrecord : m.record = none)
    (htake : homeTake (drainLine s1 (l1Core cfg va) (m.pa / 128)) false (m.pa / 128 * 128) 128 = (some bs, s2)) :
    fetchBytes z cfg va n = ((.ok m, some (natOfBytes ((bs.drop (va % 128)).take n))), keepFetch s2 cfg.core (keptLine cfg va m bs)) := by
  have hlow : va < 2 ^ 52 := by omega
  have hplain : ¬ (2 ^ 52 ≤ va ∨ isWindowVa va = true) := by rw [isWindowVa_iff hlow]; omega
  have hfind : (z.core cfg.core).fetchLines.find? (fun l => decide (l.vline = va / 128) && decide (l.ctx = cfg.ctx)) = none :=
    List.find?_eq_none.mpr fun l hl => by
      have := hmiss l hl
      simpa using this
  unfold fetchBytes
  simp only [hfind, hreach, hrecord, hpeer, Option.isSome_none, htake]
  rw [if_neg hplain, if_neg (not_not_intro halign), ← map_lineByte_eq (length_homeTake htake) hfit]
  rfl

theorem mem_fetchLines_keepFetch (s : State) (core : Nat) (l : RawLine) : l ∈ ((keepFetch s core l).core core).fetchLines := by
  unfold keepFetch State.updCore
  rw [State.core_setCore_self]
  simp

section Fetch
variable {s : State} {u : Nat} {t : Team} {c : Clause} {d a b : Sel} {i : Instr} {two : Bool} {nb : Nat} {h : BitVec 512}

theorem core_updTeam (s : State) (u : Nat) (f : Team → Team) (k : Nat) : (s.updTeam u f).core k = s.core k := by
  unfold State.updTeam
  split <;> rfl

/-- A size of an element divides a line. -/
theorem fits_line {va : Nat} (d : BitVec 512) (h : va % descEsize d = 0) : va % 128 + descEsize d ≤ 128 := by
  have hsize : bits d.toNat 7 6 < 4 := Nat.mod_lt _ (by decide)
  obtain ⟨k, hk⟩ : ∃ k, bits d.toNat 7 6 = k := ⟨_, rfl⟩
  unfold descEsize at h ⊢
  rw [hk] at h hsize ⊢
  interval_cases k <;> omega

/-- A fetch of one lane of a DENSE handle that misses. -/
theorem exec_fetch_miss (hr : FetchReady s u t c d a b i two nb h) (hd : HandleGood h) (hfmt : descFormat h = 0) {x : LaneAcc}
    (hlane : fetchLanes t c h d b two nb = [x]) {cs : Nat × Nat × Nat × Nat} (hplace : fetchPlace h two (readVal t c.lit x.slot b nb) = some cs)
    {va v : Nat} {m : Mapping} {s1 s2 : State} {bs : List Byte}
    (helement : ElementIs (fun a w y => a = va ∧ w = descEsize h ∧ y = natOfBytes ((bs.drop (va % 128)).take w)) h cs v)
    (hva : va < 0xFE00000000000) (halign : va % descEsize h = 0)
    (hmiss : ∀ l ∈ (s.core t.cfg.core).fetchLines, ¬ (l.vline = va / 128 ∧ l.ctx = t.cfg.ctx))
    (hreach : reach (takeId (startLate s u c.reads (laneLate s t (fetchOp h d (some s.nextId)) [x])).2).2 t.cfg va needFetch false = (.ok m, s1))
    (hpeer : m.peer = none) (hrecord : m.record = none) (hout : NothingOut s1 (l1Core t.cfg va) (m.pa / 128))
    (htake : homeTake (drainLine s1 (l1Core t.cfg va) (m.pa / 128)) false (m.pa / 128 * 128) 128 = (some bs, s2)) :
    ∃ s3 t3 o l, exec i s = .next (stepOn s3 u) ∧ tblGet s3.teams u = some t3 ∧ LateAdded t t3 o s.nextId c.reads ∧ o.wait = .none ∧
      WritesLate o d (fetchRegs h) (lanesFor t d (lanesOn t)) (fun _ => v) 0 ∧ l ∈ (s3.core t.cfg.core).fetchLines ∧ l.vline = va / 128 ∧
      l.ctx = t.cfg.ctx ∧ l.pline = m.pa / 128 ∧ ∀ k, k < 128 → lineByte l.data k = nthD bs k 0 := by
  obtain ⟨hindex, hc⟩ := fetchIndex_of_place hd hplace
  obtain ⟨y, ⟨hat, -, rfl⟩, hv⟩ := helement.dense hfmt
  have hdata : x.data = packed cs := by rw [data_of_mem_fetchLanes (x := x) (by rw [hlane]; exact List.mem_singleton_self x), hindex]
  have htakeId := takeId_startLate hr.issuing (fetchOp h d (some s.nextId)) [x]
  have hbytes := fetchBytes_miss hva halign (fits_line h halign) (by rw [htakeId]; exact hmiss) hreach hpeer hrecord htake
  have hfetch : fetchElem (takeId (startLate s u c.reads (laneLate s t (fetchOp h d (some s.nextId)) [x])).2).2 t.cfg h x.data =
      fetched v (keepFetch s2 t.cfg.core (keptLine t.cfg va m bs)) := by
    rw [hdata, fetchElem_dense hc hfmt, hat, fetchThen_of_bytes hpeer hbytes, ← hv]
  have hteam : tblGet (keepFetch s2 t.cfg.core (keptLine t.cfg va m bs)).teams u = some (withLate t (fetchLate s t c (fetchOp h d (some s.nextId)) [x])) := by
    have hteams : s2.teams = (takeId (startLate s u c.reads (laneLate s t (fetchOp h d (some s.nextId)) [x])).2).2.teams := by
      have hstate : s2 = (homeTake (drainLine s1 (l1Core t.cfg va) (m.pa / 128)) false (m.pa / 128 * 128) 128).2 := by rw [htake]
      rw [hstate, teams_homeTake, teams_drainLine hout, teams_of_reach hreach]
    show tblGet s2.teams u = _
    rw [hteams, htakeId, State.team_setTeam_self]
  have hsettled : settleLanes (startLate s u c.reads (laneLate s t (fetchOp h d (some s.nextId)) (fetchLanes t c h d b two nb))).2 u t
      (fetchOp h d (some s.nextId)) (fetchLanes t c h d b two nb) =
      { s := (keepFetch s2 t.cfg.core (keptLine t.cfg va m bs)).updTeam u (fun T => bindLate T s.nextId x.slot d (fetchRegs h) v),
        atoms := [], parks := [], helds := [] } := by
    rw [hlane, settleLanes_fetch, List.foldl_cons, settleLane_fetched (by exact hfetch)]
    rfl
  have hbind := foldl_bindLate d (fetchRegs h) s.nextId (fun _ => v) [x] (withLate t (fetchLate s t c (fetchOp h d (some s.nextId)) [x]))
  obtain ⟨o, hadded, hwait, hwrites⟩ := writesLate_of_fetch (s := s) hr.flag hr.isW hr.regsExist (fetchOp h d (some s.nextId))
    (f := fetchLane t c.lit h two b nb) (fun _ => rfl) (fun _ => v)
  refine ⟨_, _, o, keptLine t.cfg va m bs, exec_fetch_done hr hsettled rfl rfl, tblGet_updTeam hteam _, ?_, hwait, hwrites, ?_, rfl, rfl, rfl,
    fun k _ => lineByte_natOfBytes (length_homeTake htake) k⟩
  · have hadded' : LateAdded t (updLate (withLate t (fetchLate s t c (fetchOp h d (some s.nextId)) (fetchLanes t c h d b two nb))) s.nextId
        (addResults d (fetchRegs h) ((fetchLanes t c h d b two nb).map LaneAcc.slot) (fun _ => v))) o s.nextId c.reads := hadded
    rw [hlane, ← hbind] at hadded'
    exact hadded'
  · rw [core_updTeam]
    exact mem_fetchLines_keepFetch _ _ _

end Fetch

end Sys2Proof.Machine
end

section
/-! PROOFS. HBIND, FETCH and FETCH2: the statement. -/

namespace Sys2Proof.Machine

section Fetch
variable {s : State} {u : Nat} {t : Team} {c : Clause} {d a b : Sel} {i : Instr} {two : Bool} {nb : Nat}

/-- Through a slot that holds no handle FETCH and FETCH2 trap. -/
theorem traps_fetch_unbound (h : Issuing s u t c) (hi : (i, two, nb) ∈ [(Instr.fetch d a b, false, 1), (.fetch2 d a b, true, 2)])
    (hlegal : Legal i t true anyType [dst d 1, src a 1, src b nb]) (hclean : Unpoisoned t [dst d 1, src a 1, src b nb] (lanesOn t))
    (hfree : slicePending t = false) (hflag : flagCount t c.reads ≠ 63)
    (hk : 16 ≤ readVal t c.lit 0 a 1 ∨ handleOf t (readVal t c.lit 0 a 1) = none) : Traps i s u .illegalOp (lanesExec t) := by
  obtain ⟨x, rfl, rfl, hx, -, -, hslot, hexec⟩ := exec_fetch h hi hlegal hclean hfree hflag
  unfold Traps
  rw [hexec, fetchBody_unbound (by rw [hslot]; exact hk), trapExec, hx]
  rfl

end Fetch

/-- The format of a descriptor is its low four bits. -/
theorem descFormat_eq_zero {h : BitVec 512} (hfmt : h.toNat % 16 = 0) : descFormat h = 0 := by
  show h.toNat / 2 ^ 0 % 2 ^ 4 = 0
  omega

/-- Settles O26: HBIND by its checks in their order, FETCH and FETCH2 by their slot, by the lanes that the fetch cache serves and by the one that misses. -/
theorem handlesBindAndFetch : Obligations.HandlesBindAndFetch := by
  unfold Obligations.HandlesBindAndFetch
  refine ⟨fun s u t c a b h hlegal hfree hflag => ?_, fun s u t c d a b i two nb hi h hlegal hclean hfree hreads hflag => ?_⟩
  · obtain ⟨hslot, halign, hread⟩ := exec_hbind_settles h hlegal hfree hflag
    refine ⟨hslot, halign, fun s1 s2 bs hk hva hcheck hrun => ?_⟩
    obtain ⟨hbad, hgood⟩ := hread s1 s2 bs hk hva hcheck hrun
    exact ⟨hbad, fun hd hnone => ⟨_, hgood hd hnone, fun t2 ht2 => bound_team ht2 hk _⟩⟩
  · refine ⟨fun hk => traps_fetch_unbound h hi hlegal hclean hfree hflag hk, ?_⟩
    intro hd hk hbound hidle n hregs op lanes s0 z index
    have hr : FetchReady s u t c d a b i two nb hd := ⟨h, hi, hlegal, hclean, hfree, hreads, hflag, hk, hbound, hidle, hregs⟩
    refine ⟨fun hp hh => exec_fetch_done hr rfl hp hh, fun val hgood hval => exec_fetch_cached hr hgood hval, ?_⟩
    intro x cs va m s1 bs s2 v hgood hfmt hlane hplace helement hva halign hmiss hreach hpeer hrecord _ hout y line htake
    have hlane' : fetchLanes t c hd d b two nb = [x] := hlane
    refine ⟨fun hown hplain => homeTake_plain (Nat.mul_mod_left _ _) htake hown hplain, ?_⟩
    refine exec_fetch_miss hr hgood (descFormat_eq_zero hfmt) hlane' hplace helement hva halign hmiss ?_ hpeer hrecord hout htake
    rw [← hlane']
    exact hreach

end Sys2Proof.Machine
end

section
/-! PROOFS. What an operand reads (R105, R218, R220): the special operands, the literal, and the groups of registers. -/

namespace Sys2Proof.Machine

/-- A selector that is no register and, in a 64-bit position, no literal reads as one word, zero-extended (R220). -/
theorem readVal_word (t : Team) (lit : Word) (k : Nat) {x : Sel} {n : Nat} (hx : isReg x = false) (hl : ¬ (x = .lit ∧ n = 2)) :
    readVal t lit k x n = (readWord t lit k x).toNat := by
  simp [readVal, hx, hl]

/-- The literal in a 64-bit position is sign-extended (R220). -/
theorem readVal_lit_pair (t : Team) (lit : Word) (k : Nat) : readVal t lit k .lit 2 = (lit.signExtend 64).toNat := by
  have hlt : lit.toNat < 2 ^ 32 := lit.isLt
  have hval : readVal t lit k .lit 2 = wrapNat 64 (sextInt 32 lit.toNat) := rfl
  rw [hval, BitVec.signExtend, BitVec.toNat_ofInt]
  unfold wrapNat sextInt
  rw [BitVec.toInt_eq_toNat_cond, Nat.mod_eq_of_lt hlt]
  congr 2
  split <;> split <;> omega

/-- A register of a lane, as an instruction reads it that reads the team's registers x. -/
theorem readWord_eq_regOf {t x : Team} (hs : sregsOf t = x.sregs) (hv : vregsOf t = x.vregs) (hw : t.wregs = x.wregs) (lit : Word) (k : Nat) {r : Sel}
    (hr : isReg r = true) : readWord t lit k r = regOf x k r := by
  cases r with
  | v n => simp [readWord, regOf, hv]
  | s n => simp [readWord, regOf, hs]
  | w n => simp [readWord, regOf, hw]
  | _ => simp [isReg, isVorW, isSreg] at hr

theorem isReg_plus (x : Sel) (j : Nat) : isReg (Sel.plus x j) = isReg x := by cases x <;> rfl

/-- A group of registers reads as its registers, the lowest least significant (R220). -/
theorem readRegs_eq_numOf {t x : Team} (hs : sregsOf t = x.sregs) (hv : vregsOf t = x.vregs) (hw : t.wregs = x.wregs) (lit : Word) (k : Nat) (n : Nat) {r : Sel}
    (hr : isReg r = true) : readRegs t lit k r n = numOf x k r n := by
  induction n generalizing r with
  | zero => rfl
  | succ n ih => rw [readRegs, numOf, readWord_eq_regOf hs hv hw lit k hr, ih (by rw [isReg_plus, hr])]

theorem readVal_reg {t x : Team} (hs : sregsOf t = x.sregs) (hv : vregsOf t = x.vregs) (hw : t.wregs = x.wregs) (lit : Word) (k n : Nat) {r : Sel}
    (hr : isReg r = true) : readVal t lit k r n = numOf x k r n := by
  simp [readVal, hr, readRegs_eq_numOf hs hv hw lit k n hr]

/-- Settles O1: a special operand is one word, the literal sign-extended, a register group its registers; captured registers stand in for the team's. -/
theorem operandsReadAsR220Says : Obligations.OperandsReadAsR220Says := by
  unfold Obligations.OperandsReadAsR220Says
  refine fun t lit k => ⟨fun n _ => ?_, ?_, readVal_lit_pair t lit k, fun r n hr hc => ?_, fun r n x hr hc => ?_⟩
  · have special (x : Sel) (hx : isReg x = false) (hl : x ≠ .lit) : readVal t lit k x n = (readWord t lit k x).toNat :=
      readVal_word t lit k hx fun h => hl h.1
    refine ⟨?_, ?_, ?_, ?_, ?_, ?_, ?_⟩ <;> rw [special _ rfl (by simp)] <;> simp [readWord]
  · rw [readVal_word t lit k rfl (by simp)]
    rfl
  · exact readVal_reg (sregsOf_fresh hc) (vregsOf_fresh hc) rfl lit k n hr
  · have hs : sregsOf t = x.sregs := by simp [sregsOf, hc]
    have hv : vregsOf t = x.vregs := by simp [vregsOf, hc]
    exact readVal_reg (x := { t with sregs := x.sregs, vregs := x.vregs }) hs hv rfl lit k n hr

end Sys2Proof.Machine
end

section
/-! PROOFS. MODE and the special registers (R112, R241, R242): which values SETMODE accepts, what RDSR reads, what WRSR writes. -/

namespace Sys2Proof.Machine

/-! ## Legal MODE values (R112) -/

/-- A field of a word, by its bits' numbers. -/
theorem bits_toNat_eq_extractLsb (m : Word) {hi lo : Nat} (h : lo ≤ hi) : bits m.toNat hi lo = (m.extractLsb hi lo).toNat := by
  rw [BitVec.extractLsb_toNat, Nat.shiftRight_eq_div_pow, bits, Nat.sub_add_comm h]

/-- The values that SETMODE accepts, by the fields of MODE. -/
theorem modeLegal_iff (m : Word) : modeLegal m = true ↔
    (m.extractLsb 3 0).toNat ≤ 13 ∧ (m.extractLsb 6 4).toNat ≤ 4 ∧ (m.extractLsb 15 13).toNat ≠ 0 ∧ (m.extractLsb 31 19).toNat = 0 ∧
      ¬ (m.getLsbD 12 = true ∧ (m.extractLsb 11 9).toNat = 0) := by
  simp only [modeLegal, modeType, modeRnd, modeBfpw, modeGneg, modeGuard, bits_toNat_eq_extractLsb m (by omega : 0 ≤ 3),
    bits_toNat_eq_extractLsb m (by omega : 4 ≤ 6), bits_toNat_eq_extractLsb m (by omega : 13 ≤ 15), bits_toNat_eq_extractLsb m (by omega : 19 ≤ 31),
    bits_toNat_eq_extractLsb m (by omega : 9 ≤ 11), Bool.and_eq_true, Bool.not_eq_true', Bool.and_eq_false_iff, decide_eq_true_eq, decide_eq_false_iff_not]
  cases m.getLsbD 12 <;> simp [and_assoc]

/-! ## Instructions that act at issue on uniform sources -/

/-- What a plain instruction sees at issue. -/
theorem issueOf_plain (types : Nat → Bool) (ops : Nat → List Opnd) (u : Nat) (t : Team) (c : Clause) :
    issueOf (plainForm types ops) u t c = issueOfTeam u t c.lit := by
  unfold issueOf issueOfTeam lanesOn lanesExec plainForm
  cases t.retry <;> rfl

/-- A plain instruction that has passed its checks and reads no v register lane by lane is its body. -/
theorem issue_plain {s : State} {u : Nat} {t : Team} {c : Clause} (h : Issuing s u t c) {i : Instr} {ops : List Opnd} (body : State → Issue → Eff)
    (hl : Legal i t false anyType ops) (hc : NoLaneReads ops) :
    issue i (plainForm anyType (fun _ => ops)) body s = finish u (body s (issueOfTeam u t c.lit)) := by
  rw [issue_go h body (gate_go hl (by simp [plainForm]) (by simp [countFlag, plainForm])), perform_clean (unpoisoned_of_noLaneReads hc t _), issueOf_plain]

theorem noLaneReads_src {a : Sel} (h : a.isUsrc = true) (n : Nat) : NoLaneReads [src a n] := by
  simpa [NoLaneReads, src] using ne_v_of_isUsrc h

theorem noLaneReads_dst_src {a : Sel} (h : a.isUsrc = true) (d : Sel) (k n : Nat) : NoLaneReads [dst d k, src a n] := by
  simpa [NoLaneReads, src, dst] using ne_v_of_isUsrc h

theorem noLaneReads_src_src {a b : Sel} (ha : a.isUsrc = true) (hb : b.isUsrc = true) (k n : Nat) : NoLaneReads [src a k, src b n] := by
  simpa [NoLaneReads, src] using ⟨ne_v_of_isUsrc ha, ne_v_of_isUsrc hb⟩

section Issued
variable {s : State} {u : Nat} {t : Team} {c : Clause} (h : Issuing s u t c) {d a b : Sel}
include h

theorem exec_setmode (hl : Legal (.setmode a) t false anyType [src a 1]) :
    exec (.setmode a) s = finish u (if modeLegal (BitVec.ofNat 32 (readVal t c.lit 0 a 1)) = true then
      .done (s.setTeam u { t with mode := BitVec.ofNat 32 (readVal t c.lit 0 a 1) }) else .trap s (trapOf .illegalMode (lanesExec t))) :=
  issue_plain h (setmodeBody a) hl (noLaneReads_src hl.fields 1)

theorem exec_rdsr (hl : Legal (.rdsr d a) t false anyType [dst d 1, src a 1]) :
    exec (.rdsr d a) s = finish u (rdsrBody d a s (issueOfTeam u t c.lit)) := by
  obtain ⟨-, ha⟩ : d.isDst = true ∧ a.isUsrc = true := by simpa [Instr.wellFormed] using hl.fields
  exact issue_plain h (rdsrBody d a) hl (noLaneReads_dst_src ha d 1 1)

theorem exec_wrsr (hl : Legal (.wrsr a b) t false anyType [src a 1, src b 1]) :
    exec (.wrsr a b) s = finish u (if readVal t c.lit 0 a 1 = 0 then .done (s.setTeam u { t with fpst := BitVec.ofNat 5 (readVal t c.lit 0 b 1) })
      else if readVal t c.lit 0 a 1 = 5 then .done (s.setCore t.cfg.core { s.core t.cfg.core with hintdrop := BitVec.ofNat 32 (readVal t c.lit 0 b 1) })
      else .trap s (trapOf .illegalOp (lanesExec t))) := by
  obtain ⟨ha, hb⟩ : a.isUsrc = true ∧ b.isUsrc = true := by simpa [Instr.wellFormed] using hl.fields
  exact issue_plain h (wrsrBody a b) hl (noLaneReads_src_src ha hb 1 1)

end Issued

/-! ## RDSR (R242) -/

/-- The special registers that the table lists: their footprint and their value. -/
theorem specialTable_spec {s : State} {t : Team} {k v n : Nat} (h : (k, v, n) ∈ specialTable s t) :
    specialRegs k = some n ∧ specialVal s t k = v ∧ k ≠ 6 ∧ n ∣ 8 := by
  simp only [specialTable, List.mem_cons, List.not_mem_nil, or_false, Prod.mk.injEq] at h
  rcases h with ⟨rfl, rfl, rfl⟩ | ⟨rfl, rfl, rfl⟩ | ⟨rfl, rfl, rfl⟩ | ⟨rfl, rfl, rfl⟩ | ⟨rfl, rfl, rfl⟩ | ⟨rfl, rfl, rfl⟩ |
      ⟨rfl, rfl, rfl⟩ <;>
    exact ⟨rfl, rfl, by decide, by decide⟩

/-- CYCLE never falls, and nothing else of the machine changes but the free values drawn (log 7). -/
theorem advanceCycle_eq (s : State) (c : Nat) : ∃ y : BitVec 64, (s.core c).cycle ≤ y ∧
    advanceCycle s c = { s.setCore c { s.core c with cycle := y } with fresh := s.fresh + 1 } := by
  refine ⟨_, ?_, rfl⟩
  have hlt := (s.core c).cycle.isLt
  rw [BitVec.le_def, BitVec.toNat_ofNat]
  split <;> rw [Nat.mod_eq_of_lt (by omega)] <;> omega

/-- RDSR of a register of n registers whose group exists: the value, read in the state after CYCLE's advance where it is CYCLE, in every lane. -/
theorem rdsrBody_reads {d a : Sel} {s : State} {x : Issue} {n : Nat} (hn : specialRegs (x.uval a 1) = some n)
    (hd : opndOk x.t.cfg.budget (dst d n) = true) :
    rdsrBody d a s x = laneEff d n x.active (fun _ => (specialVal (if x.uval a 1 = 6 then advanceCycle s x.t.cfg.core else s) x.t (x.uval a 1), 0))
      (if x.uval a 1 = 6 then advanceCycle s x.t.cfg.core else s) x := by
  simp [rdsrBody, hn, hd]

theorem rdsrBody_traps {d a : Sel} {s : State} {x : Issue}
    (h : ∀ n, specialRegs (x.uval a 1) = some n → opndOk x.t.cfg.budget (dst d n) = false) : rdsrBody d a s x = trapExec .illegalOp s x := by
  unfold rdsrBody
  split
  · rfl
  · next n hn => simp [h n hn]

/-- The team's result of a plain instruction without exceptions. -/
theorem laneEff_wrote {s : State} {u : Nat} {t : Team} (lit : Word) {d : Sel} {n : Nat} (hd : RegsExist d n) (val : Nat → Nat) :
    ∃ t1, finish u (laneEff d n (lanesOn t) (fun k => (val k, 0)) s (issueOfTeam u t lit)) = .next (stepOn (s.setTeam u t1) u) ∧
      Wrote t t1 d n (lanesFor t d (lanesOn t)) val 0 := by
  obtain ⟨t1, hfin, hw⟩ := lane_result (s := s) d n (lanesOn t) (fun k => (val k, 0)) hd (issueOfTeam u t lit) rfl rfl
  exact ⟨t1, hfin, foldl_or_zero (lanesFor t d (lanesOn t)) ▸ hw⟩

section Rdsr
variable {s : State} {u : Nat} {t : Team} {c : Clause} (h : Issuing s u t c) {d a : Sel} (hl : Legal (.rdsr d a) t false anyType [dst d 1, src a 1])
include h hl

/-- RDSR of a register whose group exists. -/
theorem exec_rdsr_reads {n : Nat} (hn : specialRegs (readVal t c.lit 0 a 1) = some n) (h8 : n ∣ 8) (hd : opndOk t.cfg.budget (dst d n) = true) {s1 : State}
    (hs : (if readVal t c.lit 0 a 1 = 6 then advanceCycle s t.cfg.core else s) = s1) :
    ∃ t1, exec (.rdsr d a) s = .next (stepOn (s1.setTeam u t1) u) ∧
      Wrote t t1 d n (lanesFor t d (lanesOn t)) (fun _ => specialVal s1 t (readVal t c.lit 0 a 1)) 0 := by
  obtain ⟨hdst, -⟩ : d.isDst = true ∧ a.isUsrc = true := by simpa [Instr.wellFormed] using hl.fields
  rw [exec_rdsr h hl, rdsrBody_reads (x := issueOfTeam u t c.lit) hn hd]
  subst hs
  exact laneEff_wrote c.lit (regsExist_of_opndOk hdst h8 hd) _

/-- RDSR of a number that names no register, or one whose group does not exist, is ILLEGAL_OP. -/
theorem exec_rdsr_traps (hn : ∀ n, specialRegs (readVal t c.lit 0 a 1) = some n → opndOk t.cfg.budget (dst d n) = false) :
    Traps (.rdsr d a) s u .illegalOp (lanesExec t) := by
  unfold Traps
  rw [exec_rdsr h hl, rdsrBody_traps (x := issueOfTeam u t c.lit) hn]
  rfl

end Rdsr

/-! ## The statement -/

/-- Settles O3: SETMODE by the legal values of MODE, RDSR by the table of special registers, WRSR by the two that can be written. -/
theorem modeAndSpecialRegisters : Obligations.ModeAndSpecialRegisters := by
  unfold Obligations.ModeAndSpecialRegisters
  refine ⟨fun s u t c a h hl => ?_, fun s u t c d a b h => ⟨fun hl => ⟨?_, ?_, ?_, ?_⟩, fun hl => ⟨?_, ?_, ?_⟩⟩⟩
  · have hexec := exec_setmode h hl
    refine ⟨fun hm => ?_, fun hm => ?_⟩
    · rw [hexec, if_pos ((modeLegal_iff _).mpr hm)]
      rfl
    · unfold Traps
      rw [hexec, if_neg (mt (modeLegal_iff _).mp hm)]
      rfl
  · intro k v n hmem hk hd
    obtain ⟨hregs, hval, hne, h8⟩ := specialTable_spec hmem
    subst hk
    obtain ⟨t1, hnext, hw⟩ := exec_rdsr_reads h hl hregs h8 hd (if_neg hne)
    rw [hval] at hw
    exact ⟨t1, hnext, hw⟩
  · intro hk hd
    obtain ⟨y, hle, hadv⟩ := advanceCycle_eq s t.cfg.core
    obtain ⟨t1, hnext, hw⟩ := exec_rdsr_reads h hl (n := 2) (by rw [hk]; rfl) (by decide) hd ((if_pos hk).trans hadv)
    have hval : specialVal { s.setCore t.cfg.core { s.core t.cfg.core with cycle := y } with fresh := s.fresh + 1 } t (readVal t c.lit 0 a 1) = y.toNat := by
      rw [hk]
      exact congrArg (fun x : Core => x.cycle.toNat) (State.core_setCore_self s t.cfg.core { s.core t.cfg.core with cycle := y })
    rw [hval] at hw
    exact ⟨y, hle, t1, hnext, hw⟩
  · intro hk
    exact exec_rdsr_traps h hl fun n hn => by simp [specialRegs, hk] at hn
  · intro hk hd
    refine exec_rdsr_traps h hl fun n hn => ?_
    have h2 : specialRegs (readVal t c.lit 0 a 1) = some 2 := by rcases hk with hk | hk <;> rw [hk] <;> rfl
    rw [h2, Option.some.injEq] at hn
    rw [← hn, hd]
  · intro hk
    rw [exec_wrsr h hl, if_pos hk]
    rfl
  · intro hk
    rw [exec_wrsr h hl, if_neg (by omega), if_pos hk]
    rfl
  · intro h0 h5
    unfold Traps
    rw [exec_wrsr h hl, if_neg h0, if_neg h5]
    rfl

end Sys2Proof.Machine
end

section
/-! PROOFS. What work at home leaves as it was: the launches, the numbers given out, every core's scratchpad and sequencer, and of every team all but the values
and the INTEGRITY that its operations bring. -/

namespace Sys2Proof.Machine

/-! ## What is kept -/

/-- What work at home leaves of a core. -/
def coreKept (x : Core) : List Host.Cell × List MLoop := (x.scratch, x.sequencer)

/-- s1 has the teams of s, as far as f sees them, with its launches, its numbers given out, and its cores' scratchpads and sequencers. -/
structure Keeps {α : Type} (f : Team → α) (s s1 : State) : Prop where
  teams : ∀ u, (tblGet s1.teams u).map f = (tblGet s.teams u).map f
  cores : ∀ c, coreKept (s1.core c) = coreKept (s.core c)
  launches : s1.launches = s.launches
  lastCore : s1.lastCore = s.lastCore
  nextId : s1.nextId = s.nextId

/-- A team but for its operations in flight and the INTEGRITY held for it. -/
def unserved (t : Team) : Team := { t with late := [], integrity := [] }

section Rules
variable {α : Type} {f : Team → α}

theorem Keeps.refl (s : State) : Keeps f s s := ⟨fun _ => rfl, fun _ => rfl, rfl, rfl, rfl⟩

theorem Keeps.trans {s s1 s2 : State} (h : Keeps f s s1) (h1 : Keeps f s1 s2) : Keeps f s s2 :=
  ⟨fun u => (h1.teams u).trans (h.teams u), fun c => (h1.cores c).trans (h.cores c), h1.launches.trans h.launches, h1.lastCore.trans h.lastCore,
    h1.nextId.trans h.nextId⟩

/-- Two steps, the later one first. -/
theorem Keeps.after {s s1 s2 : State} (h1 : Keeps f s1 s2) (h : Keeps f s s1) : Keeps f s s2 := h.trans h1

/-- The fields that Keeps speaks of. -/
def keptFields (s : State) : Tbl Team × Tbl Core × Tbl Launch × Option Nat × Nat := (s.teams, s.cores, s.launches, s.lastCore, s.nextId)

theorem keeps_of_fields {s s1 : State} (h : keptFields s1 = keptFields s) : Keeps f s s1 := by
  simp only [keptFields, Prod.mk.injEq] at h
  obtain ⟨hteams, hcores, hlaunches, hlast, hnext⟩ := h
  exact ⟨fun u => by rw [hteams], fun c => by rw [State.core, State.core, hcores], hlaunches, hlast, hnext⟩

theorem keeps_updCore (s : State) (c : Nat) {g : Core → Core} (hg : ∀ x, coreKept (g x) = coreKept x) : Keeps f s (s.updCore c g) := by
  refine ⟨fun _ => rfl, fun d => ?_, rfl, rfl, rfl⟩
  by_cases hd : d = c
  · subst hd
    rw [State.updCore, State.core_setCore_self, hg]
  · rw [State.updCore, State.core_setCore_ne s _ hd]

theorem keeps_updTeam (s : State) (v : Nat) {g : Team → Team} (hg : ∀ t, f (g t) = f t) : Keeps f s (s.updTeam v g) := by
  cases hv : tblGet s.teams v with
  | none => rw [State.updTeam_of_none hv]; exact Keeps.refl s
  | some t =>
    rw [State.updTeam_of_some hv]
    refine ⟨fun u => ?_, fun _ => rfl, rfl, rfl, rfl⟩
    by_cases hu : u = v
    · subst hu
      rw [State.team_setTeam_self, hv]
      simp [hg]
    · rw [State.team_setTeam_ne s _ hu]

theorem keeps_foldl {β : Type} {g : State → β → State} (hg : ∀ s b, Keeps f s (g s b)) (l : List β) (s : State) : Keeps f s (l.foldl g s) := by
  induction l generalizing s with
  | nil => exact Keeps.refl s
  | cons b rest ih => exact (hg s b).trans (ih (g s b))

/-- The same where the fold carries a value beside the state. -/
theorem keeps_foldl_snd {β γ : Type} {g : γ × State → β → γ × State} (hg : ∀ r b, Keeps f r.2 (g r b).2) (l : List β) (r : γ × State) :
    Keeps f r.2 (l.foldl g r).2 := by
  induction l generalizing r with
  | nil => exact Keeps.refl _
  | cons b rest ih => exact (hg r b).trans (ih (g r b))

/-- Either branch of a choice. -/
theorem keeps_ite (p : Prop) [Decidable p] {s a b : State} (ha : Keeps f s a) (hb : Keeps f s b) : Keeps f s (if p then a else b) := by
  split
  · exact ha
  · exact hb

theorem Keeps.team_none {s s1 : State} (h : Keeps f s s1) {u : Nat} (hu : tblGet s.teams u = none) : tblGet s1.teams u = none := by
  simpa [hu] using h.teams u

theorem Keeps.team_some {s s1 : State} (h : Keeps f s s1) {u : Nat} {t : Team} (hu : tblGet s.teams u = some t) :
    ∃ t1, tblGet s1.teams u = some t1 ∧ f t1 = f t := by
  simpa [hu] using h.teams u

end Rules

/-! ## Accesses at home (R31 to R34, R43, R410) -/

section Home
variable {α : Type} {f : Team → α}

theorem keeps_setL1 (s : State) (c k : Nat) (l : L1Line) : Keeps f s (setL1 s c k l) := keeps_updCore s c fun _ => rfl

theorem keeps_crossLines (s : State) (pa n : Nat) : Keeps f s (crossLines s pa n) := keeps_ite _ (keeps_of_fields rfl) (Keeps.refl s)

theorem keeps_recallWord (s : State) (pull : Bool) (w : Nat) : Keeps f s (recallWord s pull w) := by
  unfold recallWord
  split
  · exact Keeps.refl s
  · simp only
    split
    · exact keeps_of_fields rfl
    · exact Keeps.after (keeps_setL1 _ _ _ _) (keeps_of_fields rfl)

theorem keeps_recallRange (s : State) (pull : Bool) (pa n : Nat) : Keeps f s (recallRange s pull pa n) :=
  (keeps_foldl (fun s w => keeps_recallWord s pull w) _ s).trans (keeps_crossLines _ pa n)

theorem keeps_homeTake (s : State) (pull : Bool) (pa n : Nat) : Keeps f s (homeTake s pull pa n).2 := keeps_recallRange s pull pa n

theorem keeps_homeRead (s : State) (pa n : Nat) : Keeps f s (homeRead s pa n).2 := keeps_recallRange s false pa n

theorem keeps_dropIdle (s : State) (a : Nat) : Keeps f s (dropIdle s a) := by
  unfold dropIdle
  split
  · exact keeps_of_fields rfl
  · exact Keeps.refl s

theorem keeps_homeWriteBytes (s : State) (pa : Nat) (bs : List Byte) : Keeps f s (homeWriteBytes s pa bs) := by
  have hdrop : Keeps f s ((List.range bs.length).foldl (fun s k => dropIdle s (pa + k)) s) := keeps_foldl (fun s k => keeps_dropIdle s (pa + k)) _ s
  unfold homeWriteBytes
  simp only
  split <;> exact hdrop.trans (keeps_of_fields rfl)

theorem keeps_homeWrite (s : State) (pa : Nat) (bs : List Byte) : Keeps f s (homeWrite s pa bs) :=
  (keeps_recallRange s false pa bs.length).trans (keeps_homeWriteBytes _ pa bs)

theorem keeps_invalidateOwn (s : State) (c pa n : Nat) : Keeps f s (invalidateOwn s c pa n) := by
  have hfold : Keeps f s ((wordsOf pa n).foldl (fun s w => if tblGet s.own w = some c then recallWord s false w else s) s) :=
    keeps_foldl (fun s w => keeps_ite _ (keeps_recallWord s false w) (Keeps.refl s)) _ s
  unfold invalidateOwn
  simp only
  split
  · exact hfold
  · exact hfold.trans (keeps_setL1 _ _ _ _)

theorem keeps_drawWords (n : Nat) (s : State) : Keeps f s (drawWords n s).2 := by
  induction n generalizing s with
  | zero => exact Keeps.refl s
  | succ n ih => exact Keeps.after (ih (drawWord s).2) (keeps_of_fields rfl)

theorem keeps_takeHome (s : State) (c w : Nat) (keep : L1Line → BitVec 128) : Keeps f s (takeHome s c w keep) := by
  unfold takeHome
  split
  · exact Keeps.refl s
  · exact keeps_setL1 _ _ _ _

theorem keeps_dropStore (s : State) (c w : Nat) : Keeps f s (dropStore s c w) := by
  unfold dropStore
  split
  · exact Keeps.refl s
  · exact keeps_setL1 _ _ _ _

theorem keeps_addAck (s : State) (c u w : Nat) : Keeps f s (addAck s c u w) := keeps_updCore s c fun _ => rfl

theorem keeps_discardStore (s : State) (c : Nat) (e : OutEntry) (w : Nat) : Keeps f s (discardStore s c e w) := by
  unfold discardStore
  split
  · exact Keeps.refl s
  · exact Keeps.after (keeps_updCore _ c fun _ => rfl) (keeps_of_fields rfl)

theorem keeps_recallOthers (s : State) (c : Nat) (ws : List Nat) : Keeps f s (recallOthers s c ws) :=
  keeps_foldl (fun s w => keeps_ite _ (Keeps.refl s) (keeps_recallWord s false w)) ws s

theorem keeps_serveAck (s : State) (c : Nat) (a : Ack) : Keeps f s (serveAck s c a) := by
  unfold serveAck
  split
  · split
    · exact keeps_setL1 _ _ _ _
    · exact Keeps.refl s
  · exact Keeps.refl s

theorem keeps_drainAcks (s : State) (c : Nat) (p : Ack → Bool) : Keeps f s (drainAcks s c p) :=
  Keeps.after (keeps_foldl (fun s a => keeps_serveAck s c a) _ _) (keeps_updCore s c fun _ => rfl)

end Home

/-! ## Work served for a team (R32, R39, R40, R63) -/

theorem keeps_holdIntegrity (s : State) (u : Nat) (flag : Option Nat) (store : Bool) (slot va : Nat) :
    Keeps unserved s (holdIntegrity s u flag store slot va) := keeps_updTeam s u fun _ => rfl

theorem keeps_serveAtomLane (u c : Nat) (b : Batch) (s : State) (a : AtomLane) : Keeps unserved s (serveAtomLane u c b s a) := by
  unfold serveAtomLane
  simp only
  split
  · split
    · exact (keeps_drawWords b.regs s).trans (keeps_updTeam _ u fun _ => rfl)
    · exact keeps_drawWords b.regs s
  · have hread : Keeps unserved s (homeTake (invalidateOwn s c a.pa b.size) false a.pa b.size).2 :=
      (keeps_invalidateOwn s c a.pa b.size).trans (keeps_homeTake _ false a.pa b.size)
    split
    · exact hread.trans (keeps_updTeam _ u fun _ => rfl)
    · exact hread.trans (keeps_holdIntegrity _ _ _ _ _ _)
    · split
      · exact (hread.trans (keeps_homeWrite _ _ _)).trans (keeps_updTeam _ u fun _ => rfl)
      · exact hread.trans (keeps_homeWrite _ _ _)

theorem keeps_serveBatch (s : State) (u c : Nat) (b : Batch) : Keeps unserved s (serveBatch s u c b) := by
  have hlanes : Keeps unserved s (b.lanes.foldl (serveAtomLane u c b) s) := keeps_foldl (keeps_serveAtomLane u c b) b.lanes s
  unfold serveBatch
  simp only
  split
  · exact hlanes.trans (keeps_updTeam _ u fun _ => rfl)
  · exact hlanes

theorem keeps_serveRegistration (s : State) (c : Nat) (es : List OutEntry) (e : OutEntry) (w : Nat) :
    Keeps unserved s (serveRegistration s c es e w) := by
  have hhome : ∀ ws, Keeps unserved s (crossLines (recallOthers s c ws) (128 * (w / 32)) 128) := fun ws =>
    (keeps_recallOthers s c ws).trans (keeps_crossLines _ _ _)
  unfold serveRegistration
  simp only
  generalize (if storeCovers es e.instr (w / 32) = true then lineWords (w / 32) else [w]) = ws
  refine (hhome ws).trans ?_
  generalize crossLines (recallOthers s c ws) (128 * (w / 32)) 128 = s0
  split
  · exact ((keeps_dropStore s0 c w).trans (keeps_holdIntegrity _ _ _ _ _ _)).trans (keeps_addAck _ _ _ _)
  · have hidle : Keeps unserved s0 (dropIdle { s0 with poison := s0.poison.filter (fun l => decide (l ≠ w / 32)) } (4 * w)) :=
      Keeps.after (keeps_dropIdle _ _) (keeps_of_fields rfl)
    refine hidle.trans ?_
    split
    · exact ((keeps_discardStore _ c e w).trans (keeps_dropStore _ c w)).trans (keeps_addAck _ _ _ _)
    · exact Keeps.after (keeps_addAck _ _ _ _) ((keeps_takeHome _ c w L1Line.dirty).trans (keeps_of_fields rfl))

theorem keeps_serveWork (s : State) (c : Nat) (es : List OutEntry) (e : OutEntry) : Keeps unserved s (serveWork s c es e) := by
  unfold serveWork
  split
  · exact keeps_serveRegistration s c es e _
  · rename_i pa bs _
    simp only
    have hhome : ∀ a n, Keeps unserved s (recallJudged (invalidateOwn s c pa bs.length) false a n).2 := fun a n =>
      (keeps_invalidateOwn s c pa bs.length).trans (keeps_recallRange _ false a n)
    generalize (if storeCovers es e.instr (pa / 128) = true then pa / 128 * 128 else pa) = a
    generalize (if storeCovers es e.instr (pa / 128) = true then 128 else bs.length) = n
    refine (hhome a n).trans ?_
    split
    · exact keeps_holdIntegrity _ _ _ _ _ _
    · exact Keeps.after (keeps_homeWriteBytes _ pa bs) (keeps_of_fields rfl)
  · exact Keeps.refl s
  · exact keeps_serveBatch s _ c _

/-- An entry taken out of its queue and served. -/
theorem keeps_serveTaken (s : State) (c j : Nat) (es : List OutEntry) (x : OutEntry) :
    Keeps unserved s (serveWork (s.updCore c (fun y => { y with out := dropNth y.out j })) c es x) :=
  Keeps.after (keeps_serveWork _ c es x) (keeps_updCore s c fun _ => rfl)

theorem keeps_serveStore (c instr p : Nat) (es : List OutEntry) (fuel : Nat) (s : State) : Keeps unserved s (serveStore c instr p es fuel s) := by
  induction fuel generalizing s with
  | zero => exact Keeps.refl s
  | succ fuel ih =>
    unfold serveStore
    split
    · exact Keeps.refl s
    · exact (keeps_serveTaken s c _ es _).trans (ih _)

theorem keeps_serveFirst (s : State) (c j : Nat) (x : OutEntry) : Keeps unserved s (serveFirst s c j x) := by
  unfold serveFirst
  simp only
  split
  · exact keeps_serveStore c _ _ _ _ s
  · exact keeps_serveTaken s c j _ x

theorem keeps_serveEntries (c fuel k : Nat) (s : State) : Keeps unserved s (serveEntries c fuel k s) := by
  induction fuel generalizing k s with
  | zero => exact Keeps.refl s
  | succ fuel ih =>
    unfold serveEntries
    simp only
    split
    · exact Keeps.refl s
    · split
      · exact Keeps.refl s
      · split
        · exact keeps_serveFirst s c _ _
        · exact (keeps_serveFirst s c _ _).trans (ih _ _)

theorem keeps_drainWhere (c : Nat) (p : OutEntry → Bool) (fuel : Nat) (s : State) : Keeps unserved s (drainWhere c p fuel s) := by
  induction fuel generalizing s with
  | zero => exact Keeps.refl s
  | succ fuel ih =>
    unfold drainWhere
    split
    · exact Keeps.refl s
    · exact (keeps_serveEntries c _ _ s).trans (ih _)

theorem keeps_drainLine (s : State) (c p : Nat) : Keeps unserved s (drainLine s c p) := (keeps_drainWhere c _ _ s).trans (keeps_drainAcks _ c _)

/-! ## Lines that leave a first level, and the acquire of a team (R35, R51, R52, R350) -/

theorem keeps_evictLine (s : State) (c k : Nat) : Keeps unserved s (evictLine s c k) := by
  unfold evictLine
  split
  · exact Keeps.refl s
  · rename_i l _
    have hback : Keeps unserved (drainLine s c l.pline) ((List.range 32).foldl (fun s i =>
        if tblGet s.own (32 * l.pline + i) = some c then recallWord s false (32 * l.pline + i) else s) (drainLine s c l.pline)) :=
      keeps_foldl (fun s i => keeps_ite _ (keeps_recallWord s false _) (Keeps.refl s)) _ _
    exact ((keeps_drainLine s c l.pline).trans hback).trans (keeps_updCore _ c fun _ => rfl)

theorem keeps_writeBack (core n : Nat) (s : State) : Keeps unserved s (writeBack core n s) := by
  induction n generalizing s with
  | zero => exact Keeps.refl s
  | succ n ih =>
    unfold writeBack
    split
    · exact Keeps.refl s
    · exact (keeps_evictLine s core 0).trans (ih _)

theorem keeps_emptyCluster (s : State) (cl : Nat) : Keeps unserved s (emptyCluster s cl) := keeps_foldl (fun s k => keeps_writeBack (8 * cl + k) _ s) _ s

theorem keeps_acquireCore (s : State) (c : Nat) : Keeps unserved s (acquireCore s c) := by
  have hmixed : Keeps unserved s (settleMixed s c) := keeps_foldl (fun s p => keeps_drainLine s c p) _ s
  unfold acquireCore
  exact Keeps.after (keeps_updCore _ c fun _ => rfl) hmixed

theorem keeps_acquireTeam (s : State) (cfg : TeamCfg) : Keeps unserved s (acquireTeam s cfg) := keeps_foldl keeps_acquireCore _ s

end Sys2Proof.Machine
end

section
/-! PROOFS. What the Sconce's own accesses leave as it was: its walks, its writes through a context, and the completion entries of command rings. -/

namespace Sys2Proof.Machine

section Translation
variable {α : Type} {f : Team → α}

/-! ## Translation (R53, R59, R66, R69) -/

theorem keeps_recordFault (s : State) (cl ctx va : Nat) (n : Need) (cause : Nat) : Keeps f s (recordFault s cl ctx va n cause) := by
  unfold recordFault
  simp only
  split
  · exact keeps_of_fields rfl
  · split
    · exact keeps_of_fields rfl
    · exact Keeps.refl s

theorem keeps_walkFrom (va : Nat) (levels : List (Nat × Nat × Nat)) (table : Nat) (s : State) : Keeps f s (walkFrom va levels table s).2 := by
  induction levels generalizing table s with
  | nil => exact Keeps.refl s
  | cons level rest ih =>
    obtain ⟨number, low, ib⟩ := level
    have hread : Keeps f s (homeRead s (table + 8 * (va / 2 ^ low % 2 ^ ib)) 8).2 := keeps_homeRead s _ 8
    unfold walkFrom
    simp only
    generalize homeRead s (table + 8 * (va / 2 ^ low % 2 ^ ib)) 8 = r at hread ⊢
    split
    · exact Keeps.refl s
    split
    · exact Keeps.refl s
    split
    · exact hread
    split
    · split <;> exact hread
    split
    · exact hread
    · exact hread.trans (ih _ _)

theorem keeps_walk (s : State) (ctx va : Nat) : Keeps f s (walk s ctx va).2 := by
  unfold walk
  split
  · exact Keeps.refl s
  · exact keeps_walkFrom _ _ _ _

theorem keeps_walkFor (s : State) (cl ctx va : Nat) (n : Need) : Keeps f s (walkFor s cl ctx va n).2 := by
  have hwalk : Keeps f s (walk s ctx va).2 := keeps_walk s ctx va
  unfold walkFor
  simp only
  generalize walk s ctx va = w at hwalk ⊢
  split
  · exact hwalk.trans (keeps_recordFault _ _ _ _ _ _)
  · exact hwalk
  · split
    · exact hwalk.trans (keeps_recordFault _ _ _ _ _ _)
    · exact hwalk
    · exact hwalk
    · have hmark (e e' pa : Nat) : Keeps f s (if e' = e then w.2 else homeWrite w.2 pa (bytesOf 8 e')) :=
        keeps_ite _ hwalk (hwalk.trans (keeps_homeWrite _ _ _))
      exact keeps_ite _ ((hmark _ _ _).trans (keeps_of_fields rfl)) (hmark _ _ _)

theorem keeps_settled (r : Tr × State) : Keeps f r.2 (settled r).2 := by
  unfold settled settleWindow
  split
  · simp only
    split
    · exact Keeps.refl _
    · exact keeps_ite _ (keeps_of_fields rfl) (Keeps.refl _)
  · exact Keeps.refl _

theorem keeps_translate (s : State) (core ctx va : Nat) (n : Need) : Keeps f s (translate s core ctx va n).2 := by
  unfold translate
  simp only
  split
  · split
    · split
      · exact keeps_recordFault _ _ _ _ _ _
      · exact Keeps.refl s
    · exact keeps_recordFault _ _ _ _ _ _
  · split
    · refine Keeps.after (keeps_settled _) ?_
      split
      · exact Keeps.after (keeps_walkFor _ _ _ _ _) (keeps_of_fields rfl)
      · exact Keeps.refl s
    · exact Keeps.after (keeps_settled _) (keeps_walkFor _ _ _ _ _)

/-! ## The Sconce's accesses (R345, R394) -/

theorem keeps_updLayer (s : State) (ms k : Nat) (g : Layer → Layer) : Keeps f s (updLayer s ms k g) := by
  unfold updLayer
  split
  · exact Keeps.refl s
  · split
    · exact Keeps.refl s
    · exact keeps_of_fields rfl

theorem keeps_requestLayer (s : State) (ms k : Nat) (demand : Bool) : Keeps f s (requestLayer s ms k demand) := by
  unfold requestLayer
  split
  · exact Keeps.refl s
  split
  · exact Keeps.refl s
  split
  · exact Keeps.refl s
  split
  · exact (keeps_updLayer s ms k _).trans (keeps_of_fields rfl)
  split
  · exact keeps_of_fields rfl
  · exact Keeps.refl s

theorem keeps_noteAsk (s : State) (who : Option Asker) (ctx : Nat) (a : Access) : Keeps f s (noteAsk s who ctx a) := by
  unfold noteAsk
  split
  · exact Keeps.refl s
  · exact keeps_ite _ (Keeps.refl s) (keeps_of_fields rfl)

theorem keeps_sconceReach (s : State) (who : Option Asker) (ctx va : Nat) (need : Need) : Keeps f s (sconceReach s who ctx va need).2 := by
  have htr : Keeps f s (translate s sconceCore ctx va need).2 := keeps_translate s sconceCore ctx va need
  have hdrop : Keeps f s (dropAsk (translate s sconceCore ctx va need).2 who ctx (accessOf va need)) := htr.trans (keeps_of_fields rfl)
  unfold sconceReach
  simp only
  split
  · exact Keeps.refl s
  split
  · exact keeps_of_fields rfl
  split
  · exact htr.trans (keeps_noteAsk _ _ _ _)
  · exact hdrop
  · split
    · exact hdrop.trans (keeps_requestLayer _ _ _ _)
    · exact hdrop
    · exact hdrop

theorem keeps_sconceCheck (s : State) (who : Option Asker) (ctx va n : Nat) (need : Need) : Keeps f s (sconceCheck s who ctx va n need).2 :=
  keeps_foldl_snd (fun r p => by
    split
    · exact keeps_sconceReach _ _ _ _ _
    · exact Keeps.refl _) _ (_, s)

theorem keeps_arriveWrite (s : State) (pa : Nat) (bs : List Byte) : Keeps f s (arriveWrite s pa bs) := by
  unfold arriveWrite
  exact keeps_ite _ ((keeps_homeWrite s pa bs).trans (keeps_of_fields rfl)) (keeps_homeWrite s pa bs)

theorem keeps_putNow (s : State) (ctx va : Nat) (bs : List Byte) : Keeps f s (putNow s ctx va bs) := by
  refine keeps_foldl_snd (fun r p => ?_) _ (bs, s)
  have hreach : Keeps f r.2 (sconceReach r.2 none ctx p.1 needW).2 := keeps_sconceReach _ _ _ _ _
  simp only
  split
  · split
    · exact hreach
    · exact hreach.trans (keeps_arriveWrite _ _ _)
  · exact hreach

theorem keeps_peersRefuse (s : State) (ctx : Nat) (ps : List (Nat × Nat)) : Keeps f s (peersRefuse s ctx ps).2 := by
  refine keeps_foldl_snd (fun r p => ?_) _ (false, s)
  have hreach : Keeps f r.2 (sconceReach r.2 none ctx p.1 needW).2 := keeps_sconceReach _ _ _ _ _
  simp only
  split
  · split
    · exact hreach.trans (keeps_of_fields rfl)
    · exact hreach
  · exact hreach

theorem keeps_putRun (s : State) (ctx va : Nat) (bs : List Byte) : Keeps f s (putRun s ctx va bs).2 := by
  have hpeers : Keeps f s (peersRefuse s ctx (linePieces va bs.length)).2 := keeps_peersRefuse _ _ _
  unfold putRun
  simp only
  split
  · exact hpeers
  · exact hpeers.trans (keeps_putNow _ _ _ _)

theorem keeps_sconcePut (s : State) (ctx va : Nat) (bs : List Byte) : Keeps f s (sconcePut s ctx va bs) := by
  have hcheck : Keeps f s (sconceCheck s (some (.put ctx)) ctx va bs.length needW).2 := keeps_sconceCheck _ _ _ _ _ _
  unfold sconcePut
  simp only
  split
  · exact keeps_of_fields rfl
  split
  · exact hcheck.trans (keeps_of_fields rfl)
  · exact hcheck.trans (keeps_putRun _ _ _ _)
  · exact hcheck

/-! ## Completion entries, and packets that end (R343, R345, R366) -/

theorem keeps_updRing1 (s : State) (k : Nat) (g : CmdRing → CmdRing) : Keeps f s (updRing1 s k g) := by
  unfold updRing1
  split
  · exact keeps_of_fields rfl
  · exact Keeps.refl s

theorem keeps_flushEntries (k n : Nat) (s : State) : Keeps f s (flushEntries k n s) := by
  induction n generalizing s with
  | zero => exact Keeps.refl s
  | succ n ih =>
    unfold flushEntries
    split
    · exact Keeps.refl s
    split
    · exact Keeps.refl s
    simp only
    split
    · exact Keeps.refl s
    · exact (((keeps_sconcePut s _ _ _).trans (keeps_sconcePut _ _ _ _)).trans (keeps_updRing1 _ _ _)).trans (ih _)

theorem keeps_pushEntry (s : State) (k : Nat) (e : Entry) : Keeps f s (pushEntry s k e) := by
  unfold pushEntry
  simp only
  split
  · exact (keeps_updRing1 s k _).trans (keeps_flushEntries _ _ _)
  · exact keeps_updRing1 s k _

theorem keeps_layerFlagsOut (s : State) (ms : Nat) : Keeps f s (layerFlagsOut s ms) := by
  unfold layerFlagsOut
  split
  · exact Keeps.refl s
  · exact Keeps.after (keeps_foldl (fun s lp => keeps_homeWrite s _ _) _ _) (keeps_of_fields rfl)

theorem keeps_finishFlight (s : State) (k : Nat) (x : InFlight) : Keeps f s (finishFlight s k x) := by
  unfold finishFlight
  extract_lets s1 s2
  have hcard : Keeps f s s1 := by
    simp only [s1]
    split
    · split
      · exact keeps_ite _ (keeps_pushEntry _ _ _) (Keeps.refl s)
      · exact Keeps.refl s
    · exact Keeps.refl s
  have hslot : Keeps f s s2 := by
    simp only [s2]
    split
    · exact (hcard.trans (keeps_layerFlagsOut _ _)).trans (keeps_of_fields rfl)
    · exact hcard
  exact keeps_ite _ (hslot.trans (keeps_pushEntry _ _ _)) hslot

theorem keeps_settleRing (s : State) (k : Nat) : Keeps f s (settleRing s k) := by
  unfold settleRing
  split
  · exact Keeps.refl s
  · exact (keeps_updRing1 s k _).trans (keeps_foldl (fun s x => keeps_finishFlight s k x) _ _)

/-- Every ring's completed packets finished: nothing of the teams and their launches changes. -/
theorem keeps_settleRings (s : State) : Keeps f s (settleRings s) := keeps_foldl keeps_settleRing _ s

end Translation

end Sys2Proof.Machine
end

section
/-! PROOFS. Clauses begin, late results arrive, traps are entered, scores halve (R114, R146, R172, R174, R176, R332, R355 to R357). -/

namespace Sys2Proof.Machine

/-- A step without an instruction word, on a device that runs (R411). -/
theorem next_of_running {s : State} (h : s.trust.halted = false) (s1 : State) :
    (.next (if s.trust.halted then s else s1) : Host.Outcome State Fault Refusal) = .next s1 := by
  rw [h]; rfl

/-! ## The start of a clause (R172, R174, R356) -/

theorem exec_clauseStart {s : State} (h : s.trust.halted = false) (u : Nat) : exec (.clauseStart u) s = .next (startClause s u) := next_of_running h _

/-- A clause that is fetched whole has its header at the position, and its next word to issue is the first. -/
theorem fetchClause_ok {s s2 : State} {cfg : TeamCfg} {pc : Nat} {c : Clause} {mem : Bool} (h : fetchClause s cfg pc = (.ok c mem, s2)) :
    c.header = pc ∧ c.idx = 1 := by
  have hfst : (fetchClause s cfg pc).1 = .ok c mem := by rw [h]
  revert hfst
  fun_cases fetchClause s cfg pc <;> simp only [ClauseRes.ok.injEq, reduceCtorEq, false_implies] <;> rintro ⟨rfl, -⟩ <;> exact ⟨rfl, rfl⟩

/-- A team that waits for nothing, or is held at an instruction, and is not saved may be given the issue slot. -/
theorem mayStart {t : Team} (hs : t.saved = false) (hw : t.wait = .none ∨ t.wait = .held) : ¬ ((t.wait ≠ .none ∧ t.wait ≠ .held) ∨ t.saved = true) := by
  rcases hw with hw | hw <;> simp [hw, hs]

section Start
variable {s : State} {u : Nat} {t : Team} (ht : tblGet s.teams u = some t) (hs : t.saved = false) (hw : t.wait = .none ∨ t.wait = .held)
include ht hs hw

theorem startClause_not_chosen {t0 : Team} (ht0 : tblGet (settlePlaces s t.cfg.core).teams u = some t0)
    (h : t0.active = false ∨ chosen (settlePlaces s t.cfg.core) u t0 = false) : startClause s u = settlePlaces s t.cfg.core := by
  have hno : (!t0.active || !chosen (settlePlaces s t.cfg.core) u t0) = true := by
    rcases h with h | h <;> simp [h]
  unfold startClause
  simp only [ht, if_neg (mayStart hs hw), ht0, if_pos hno]

/-- A team that its core's issue logic chooses, no place being due, goes on in its clause or begins one. -/
theorem startClause_chosen (ha : t.active = true) (hp : settlePlaces s t.cfg.core = s) (hc : chosen s u t = true) : startClause s u =
    if t.clause.isSome then { s.setTeam u { t with wait := .none } with cur := some u } else arriveThen s u t (fun s t => startAt s u t) := by
  have hyes : ¬ (!t.active || !chosen s u t) = true := by simp [ha, hc]
  unfold startClause
  simp only [ht, if_neg (mayStart hs hw), hp, if_neg hyes, State.updTeam_of_some ht]

end Start

theorem waitingFaults_of_no_integrity {t : Team} (h : t.integrity = []) (w : Nat) : waitingFaults t w = none := by
  simp [waitingFaults, integrityTrap, h]

/-- A clause whose header is there, whose WAIT flags are zero and which opens with no wait is fetched and begun. -/
theorem startAt_begins {s s1 s2 : State} {u : Nat} {t : Team} {h : Word} {c : Clause} {mem : Bool} (hword : codeWord s t.cfg t.pc = (.ok h, s1))
    (hheader : isHeader h = true) (hclear : waitClear t (hdrWait h) = true) (hi : t.integrity = []) (hopen : openingWaits s1 t = false)
    (hfetch : fetchClause s1 t.cfg t.pc = (.ok c mem, s2)) (hpermit : mem = false ∨ t.permit = true ∨ permitFor s2 u t = true) :
    startAt s u t = beginClause s2 u c mem := by
  have hgo : (mem && !t.permit && !permitFor s2 u t) = false := by
    rcases hpermit with h | h | h <;> simp [h]
  unfold startAt fetchAndBegin
  simp [hword, hheader, hclear, waitingFaults_of_no_integrity hi, hopen, hfetch, hgo]

/-! ## Late results (R114, R146, R176) -/

theorem exec_lateResult {s : State} (h : s.trust.halted = false) (u : Nat) (p : LatePart) : exec (.lateResult u p) s = .next (lateArrives s u p) :=
  next_of_running h _

theorem exec_ringTableBuilt {s : State} (h : s.trust.halted = false) (u k : Nat) : exec (.ringTableBuilt u k) s = .next (buildDone s u k) := next_of_running h _

/-- What arrives of a ready operation of a team that is not saved. -/
theorem landLate_ready {s : State} {u : Nat} {t : Team} {o : LateOp} (ht : tblGet s.teams u = some t)
    (ho : t.late.find? (fun x => decide (x.id = o.id)) = some o) (hr : lateReady t o = true) (hs : t.saved = false) (f : Team → LateOp → Team) :
    landLate s u o.id f = s.setTeam u (f t o) := by
  rw [landLate, State.updTeam_of_some ht]
  simp [ho, hr, hs]

/-- Where one operation builds a ring slot's table, the end of the build is its completion. -/
theorem buildDone_eq {s : State} {u : Nat} {t : Team} {o : LateOp} {k : Nat} (ht : tblGet s.teams u = some t) (ho : o ∈ t.late) (hk : o.build = some k)
    (hone : ∀ x ∈ t.late, x.build = some k → x.id = o.id) : buildDone s u k = completeLate s u o.id := by
  obtain ⟨x, hx⟩ : ∃ x, t.late.find? (fun x => decide (x.build = some k)) = some x :=
    Option.isSome_iff_exists.mp (List.find?_isSome.mpr ⟨o, ho, by simp [hk]⟩)
  have hid : x.id = o.id := hone x (List.mem_of_find?_eq_some hx) (by simpa using List.find?_some hx)
  simp [buildDone, ht, hx, hid]

/-- Words of v registers written change the v registers and their poison alone. -/
theorem writeV_frame (t : Team) (ws : List (Nat × Nat × Word)) : ∃ v p, writeV t ws = { t with vregs := v, poisonV := p } := by
  induction ws generalizing t with
  | nil => exact ⟨t.vregs, t.poisonV, rfl⟩
  | cons w rest ih =>
    obtain ⟨v, p, h⟩ := ih (writeWord t w.1 (.v w.2.1) w.2.2)
    exact ⟨v, p, h⟩

/-- A v register holds the last word that was written to it, else what it held. -/
theorem regOf_writeV (t : Team) {ws : List (Nat × Nat × Word)} (hws : ∀ w ∈ ws, w.2.1 < 192) (k : Nat) {r : Nat} (hr : r < 192) :
    regOf (writeV t ws) k (.v r) =
      ((ws.filter (fun w => decide (w.1 = k) && decide (w.2.1 = r))).getLast?.map (fun w => w.2.2)).getD (regOf t k (.v r)) := by
  induction ws generalizing t with
  | nil => rfl
  | cons w rest ih =>
    have hw : w.2.1 < 192 := hws w List.mem_cons_self
    have hd : (Sel.v w.2.1).isDst = true := by simpa [Sel.isDst] using hw
    have hrest := ih (writeWord t w.1 (.v w.2.1) w.2.2) fun x hx => hws x (List.mem_cons_of_mem w hx)
    rw [show writeV t (w :: rest) = writeV (writeWord t w.1 (.v w.2.1) w.2.2) rest from rfl, hrest]
    by_cases hhit : w.1 = k ∧ w.2.1 = r
    · obtain ⟨rfl, rfl⟩ := hhit
      rw [regOf_writeWord_self t w.1 hd, List.filter_cons_of_pos (by simp), List.getLast?_cons]
      cases (rest.filter (fun x => decide (x.1 = w.1) && decide (x.2.1 = w.2.1))).getLast? <;> rfl
    · rw [List.filter_cons_of_neg (by simpa using hhit), regOf_writeWord_other t hd (by simpa [Sel.isDst] using hr)]
      exact fun he => ⟨rfl, fun hk => hhit ⟨hk.symm, (Sel.v.inj he).symm⟩⟩

/-- Lanes of an operation without mask bits arrive (R176): their registers are written, and the operation keeps the rest. -/
theorem arriveLanes_eq {t : Team} {o : LateOp} (h : o.mask = none) (lanes : Mask) : arriveLanes t o lanes =
    updLate (writeV t (o.vwrites.filter (fun w => lanes.getLsbD w.1))) o.id
      (fun x => { x with vwrites := x.vwrites.filter (fun w => !lanes.getLsbD w.1), came := x.came ||| lanes }) := by
  unfold arriveLanes arriveMask
  rw [h]
  rfl

/-- The words of a register among those of some lanes. -/
theorem filter_lanes (ws : List (Nat × Nat × Word)) (lanes : Mask) (k r : Nat) :
    (ws.filter (fun w => lanes.getLsbD w.1)).filter (fun w => decide (w.1 = k) && decide (w.2.1 = r)) =
      if lanes.getLsbD k then ws.filter (fun w => decide (w.1 = k) && decide (w.2.1 = r)) else [] := by
  rw [List.filter_filter]
  cases hk : lanes.getLsbD k with
  | true =>
    refine List.filter_congr fun w _ => ?_
    by_cases hw : w.1 = k <;> simp [hw, hk]
  | false =>
    rw [if_neg (by simp), List.filter_eq_nil_iff]
    intro w _
    by_cases hw : w.1 = k <;> simp [hw, hk]

/-! ## Traps that waited (R332), scores (R357) -/

theorem exec_trapEntry {s : State} (h : s.trust.halted = false) (u : Nat) : exec (.trapEntry u) s = .next (enterPending s u) := next_of_running h _

theorem exec_scoreHalving {s : State} (h : s.trust.halted = false) (c : Nat) : exec (.scoreHalving c) s = .next (halveScores s c) := next_of_running h _

/-- Cores with no such entry have none served. -/
theorem foldl_drainWhere_of_none {s : State} {p : OutEntry → Bool} {cs : List Nat} (h : ∀ c ∈ cs, ∀ e ∈ (s.core c).out, p e = false) :
    cs.foldl (fun s c => drainWhere c p (s.core c).out.length s) s = s := by
  induction cs with
  | nil => rfl
  | cons c rest ih =>
    rw [List.foldl_cons, drainWhere_of_none (h c List.mem_cons_self)]
    exact ih fun c' hc' => h c' (List.mem_cons_of_mem c hc')

/-- A quiet team has no returning atomic under way. -/
theorem drainReturning_of_quiet {s : State} {u : Nat} {t : Team} (h : Quiet s u t) : drainReturning s u t.cfg = s := by
  refine foldl_drainWhere_of_none fun c hc e he => ?_
  cases hwork : e.work with
  | batch b =>
    by_cases hteam : e.team = u
    · simp [h.batches c hc e he hteam b hwork]
    · simp [hteam]
  | _ => simp

theorem drainFlags_of_quiet {s : State} {u : Nat} {t : Team} (ht : tblGet s.teams u = some t) (h : Quiet s u t) : drainFlags s u = s := by
  unfold drainFlags
  simp only [ht, drainReturning_of_quiet h]
  simp [completeAll, ht, h.late]

theorem enterPending_of_quiet {s : State} {u : Nat} {t : Team} (ht : tblGet s.teams u = some t) (h : Quiet s u t) {i : TrapInfo} (hi : t.pendTrap = some i) :
    enterPending s u = enterTrap s u i := by
  unfold enterPending
  simp [drainFlags_of_quiet ht h, ht, hi, h.flags]

/-- A table whose entries are changed in place. -/
theorem tblGet_map {α : Type} (l : Tbl α) (g : Nat × α → Nat × α) (hg : ∀ e, (g e).1 = e.1) (k : Nat) :
    tblGet (l.map g) k = (tblGet l k).map (fun x => (g (k, x)).2) := by
  induction l with
  | nil => rfl
  | cons e rest ih =>
    obtain ⟨j, x⟩ := e
    have hcons : tblGet (g (j, x) :: rest.map g) k = if (g (j, x)).1 = k then some (g (j, x)).2 else tblGet (rest.map g) k := rfl
    rw [List.map_cons, hcons, hg, ih, tblGet]
    by_cases hjk : j = k
    · subst hjk; simp
    · simp [hjk]

theorem team_halveScores {s : State} {u : Nat} {t : Team} (ht : tblGet s.teams u = some t) (c : Nat) :
    tblGet (halveScores s c).teams u = some (if t.cfg.core = c then { t with score := t.score / 2 } else t) := by
  unfold halveScores
  rw [tblGet_map _ _ (fun e => by split <;> rfl), ht]
  simp only [Option.map_some]
  split <;> rfl

/-! ## The statement -/

/-- Settles O41: the start of a clause by the issue logic and the fetch, late results whole and by lanes, the trap that waited, the scores. -/
theorem clausesBeginAndResultsArrive : Obligations.ClausesBeginAndResultsArrive := by
  unfold Obligations.ClausesBeginAndResultsArrive
  intro s u t hrun ht
  refine ⟨fun hs hw t0 ht0 h => ?_, fun hs ha hp hc => ⟨fun hw hin => ?_, ?_⟩, fun o ho hr hs => ⟨?_, fun lanes hm hv => ?_, fun k hk hone => ?_⟩,
    fun i hi hq => ?_, fun c => ⟨halveScores s c, exec_scoreHalving hrun c, rfl, team_halveScores ht c⟩⟩
  · rw [exec_clauseStart hrun, startClause_not_chosen ht hs hw ht0 h]
  · rw [exec_clauseStart hrun, startClause_chosen ht hs hw ha hp hc, if_pos hin]
  · intro h s1 c mem s2 hw hnone harr hword hheader hclear hi hopen hfetch hpermit s3
    obtain ⟨hpc, hidx⟩ := fetchClause_ok hfetch
    refine ⟨hpc, hidx, ?_⟩
    rw [exec_clauseStart hrun, startClause_chosen ht hs (.inl hw) ha hp hc, hnone, if_neg (by simp), arriveThen, if_neg (by simp [harr]),
      startAt_begins hword hheader hclear hi hopen hfetch hpermit, beginClause, hpc]
  · rw [exec_lateResult hrun]
    exact congrArg Host.Outcome.next (landLate_ready ht ho hr hs finishLate)
  · have hland := landLate_ready ht ho hr hs (fun t o => arriveLanes t o lanes)
    rw [arriveLanes_eq hm] at hland
    obtain ⟨v, p, hframe⟩ := writeV_frame t (o.vwrites.filter (fun w => lanes.getLsbD w.1))
    refine ⟨_, (exec_lateResult hrun u _).trans (congrArg Host.Outcome.next hland), fun k r hk => ?_, ?_⟩
    · refine (regOf_writeV t (fun w hw => hv w (List.mem_of_mem_filter hw)) k hk).trans ?_
      rw [filter_lanes]
      cases lanes.getLsbD k with
      | true =>
        simp only [if_true]
        cases (o.vwrites.filter (fun w => decide (w.1 = k) && decide (w.2.1 = r))).getLast? <;> rfl
      | false => rfl
    · rw [hframe]
      exact ⟨rfl, rfl, rfl, rfl, rfl⟩
  · rw [exec_ringTableBuilt hrun, buildDone_eq ht (List.mem_of_find?_eq_some ho) hk hone]
    exact congrArg Host.Outcome.next (landLate_ready ht ho hr hs finishLate)
  · rw [exec_trapEntry hrun, enterPending_of_quiet ht hq hi]

end Sys2Proof.Machine
end

section
/-! PROOFS. The life of a team (R117, R118, R349, R351, R358 to R360, R384): placed, retired, halted, saved and restored. -/

namespace Sys2Proof.Machine

/-! ## The steps, on a device that runs -/

section Running
variable {s : State} (h : s.trust.halted = false)
include h

theorem exec_teamPlace : exec .teamPlace s = .next (placeTeam s) := next_of_running h _
theorem exec_teamRetire (u : Nat) : exec (.teamRetire u) s = .next (retireTeam s u) := next_of_running h _
theorem exec_teamHalt (u : Nat) : exec (.teamHalt u) s = .next (finishHalt s u) := next_of_running h _
theorem exec_teamSave (u : Nat) : exec (.teamSave u) s = .next (saveTeam s u) := next_of_running h _
theorem exec_teamRestore (u : Nat) : exec (.teamRestore u) s = .next (restoreTeam s u) := next_of_running h _

end Running

/-! ## Placement (R117, R349) -/

theorem keeps_claimCluster (s : State) (id : Nat) (l : Launch) (core : Nat) : Keeps unserved s (claimCluster s id l core) :=
  keeps_ite _ (keeps_emptyCluster s (core / 8)) (Keeps.refl s)

/-- A team is what its kept part says, with what is in flight and held for it. -/
theorem eq_of_unserved {t t1 : Team} (h : unserved t1 = unserved t) : t1 = { t with late := t1.late, integrity := t1.integrity } := by
  have hrest : ({ unserved t1 with late := t1.late, integrity := t1.integrity } : Team) = { unserved t with late := t1.late, integrity := t1.integrity } := by
    rw [h]
  exact hrest

/-- A team put on a core: it is the team of R117, but for what the acquire before its first instruction may hold for it; its launch counts it, and its
allocation is zero. -/
theorem putTeam_places (s : State) (id : Nat) (l : Launch) (core base : Nat) :
    (∃ late integrity, tblGet (putTeam s id l core base).teams s.nextId =
      some { newTeam id l core base s.nextId with late := late, integrity := integrity }) ∧
    (putTeam s id l core base).lastCore = some core ∧ tblGet (putTeam s id l core base).launches id = some { l with placed := l.placed + 1 } ∧
    ∀ p, base ≤ p → p < base + scratchSize l.scratch → Memory.read ((putTeam s id l core base).core core).scratch p = 0 := by
  let z : State := s.updCore core (fun c => { c with
    scratch := Memory.zero c.scratch base (scratchSize l.scratch),
    poisonScratch := c.poisonScratch.filter (fun w => !(decide (base ≤ 4 * w) && decide (4 * w < base + scratchSize l.scratch))) })
  let put : State := { z with
    nextId := s.nextId + 1, teams := tblSet s.teams s.nextId (newTeam id l core base s.nextId),
    areas := tblSet s.areas s.nextId { launch := id, ctx := l.ctx, record := none }, launches := tblSet s.launches id { l with placed := l.placed + 1 },
    lastCore := some core }
  have hkeeps : Keeps unserved put (putTeam s id l core base) := keeps_acquireTeam put (newTeam id l core base s.nextId).cfg
  refine ⟨?_, hkeeps.lastCore, by rw [hkeeps.launches]; exact tblGet_tblSet_self _ _ _, fun p hlo hhi => ?_⟩
  · obtain ⟨t0, ht0, hrest⟩ := hkeeps.team_some (u := s.nextId) (tblGet_tblSet_self _ _ _)
    exact ⟨t0.late, t0.integrity, ht0.trans (congrArg some (eq_of_unserved hrest))⟩
  · have hscratch : ((putTeam s id l core base).core core).scratch = (z.core core).scratch := congrArg Prod.fst (hkeeps.cores core)
    have hz : (z.core core).scratch = Memory.zero (s.core core).scratch base (scratchSize l.scratch) :=
      congrArg Core.scratch (State.core_setCore_self s core _)
    rw [hscratch, hz, Memory.read_zero, if_pos ⟨hlo, hhi⟩]

/-- The registers in which a team finds its launch (R117). -/
theorem sregs_newTeam (id : Nat) (l : Launch) (core base order : Nat) :
    (newTeam id l core base order).sregs[0] = BitVec.ofNat 32 l.args ∧ (newTeam id l core base order).sregs[1] = BitVec.ofNat 32 (l.args / 2 ^ 32) ∧
    (newTeam id l core base order).sregs[2] = BitVec.ofNat 32 l.teams ∧ (newTeam id l core base order).sregs[3] = BitVec.ofNat 32 l.lanes ∧
    ∀ (k : Nat) (hk : k < 32), 4 ≤ k → (newTeam id l core base order).sregs[k] = 0 := by
  refine ⟨by simp [newTeam], by simp [newTeam], by simp [newTeam], by simp [newTeam], fun k hk h4 => ?_⟩
  simp [newTeam, show 0 ≠ k by omega, show 1 ≠ k by omega, show 2 ≠ k by omega, show 3 ≠ k by omega]

theorem placeTeam_of_place {s : State} {id core base : Nat} {l : Launch}
    (h : (launchOrder s).findSome? (fun l => (placeFor s l.1 l.2).map (fun p => (l.1, p))) = some (id, core, base, l)) :
    placeTeam s = putTeam (claimCluster s id l core) id l core base := by
  unfold placeTeam
  simp only [h]

/-! ## The end of a team (R118, R384) -/

/-- A launch that ends brings back no team. -/
theorem endLaunch_team_none {s : State} {u : Nat} (h : tblGet s.teams u = none) (id : Nat) (l : Launch) : tblGet (endLaunch s id l).teams u = none :=
  (keeps_foldl keeps_emptyCluster l.clusters s).team_none h

/-- A team removed is gone. -/
theorem team_removeTeam (s : State) (u : Nat) (t : Team) : tblGet (removeTeam s u t).teams u = none := by
  unfold removeTeam
  extract_lets s0 s1 s2 s3
  have hgone : tblGet s3.teams u = none := tblGet_tblErase_self _ _
  split
  · exact hgone
  · extract_lets l1
    split
    · exact endLaunch_team_none hgone _ _
    · exact hgone

theorem out_updCore (s : State) (c d : Nat) {g : Core → Core} (hg : ∀ x, (g x).out = x.out) : ((s.updCore c g).core d).out = (s.core d).out := by
  by_cases hd : d = c
  · subst hd
    rw [State.updCore, State.core_setCore_self, hg]
  · rw [State.updCore, State.core_setCore_ne s _ hd]

theorem out_serveAck (s : State) (c : Nat) (a : Ack) (d : Nat) : ((serveAck s c a).core d).out = (s.core d).out := by
  unfold serveAck
  split
  · split
    · exact out_updCore s c d fun _ => rfl
    · rfl
  · rfl

/-- Acknowledgments leave the outbound queues as they were. -/
theorem out_drainAcks (s : State) (c : Nat) (p : Ack → Bool) (d : Nat) : ((drainAcks s c p).core d).out = (s.core d).out := by
  have hfold : ∀ (as : List Ack) (z : State), ((as.foldl (fun s a => serveAck s c a) z).core d).out = (z.core d).out := by
    intro as
    induction as with
    | nil => exact fun _ => rfl
    | cons a rest ih => exact fun z => (ih _).trans (out_serveAck z c a d)
  exact (hfold _ _).trans (out_updCore s c d fun _ => rfl)

/-- Where a team has nothing outbound, what it waits for at a release changes no team. -/
theorem teams_drainTeam {s : State} {u : Nat} {cfg : TeamCfg} (h : ∀ c ∈ teamCores cfg, ∀ e ∈ (s.core c).out, e.team ≠ u) :
    (drainTeam s u cfg).teams = s.teams := by
  unfold drainTeam
  generalize teamCores cfg = cs at h
  induction cs generalizing s with
  | nil => rfl
  | cons c rest ih =>
    rw [List.foldl_cons, drainWhere_of_none fun e he => decide_eq_false (h c List.mem_cons_self e he)]
    refine (ih fun d hd e he => ?_).trans (teams_drainAcks s c _)
    rw [out_drainAcks] at he
    exact h d (List.mem_cons_of_mem c hd) e he

theorem retirementTrap_of_no_integrity {t : Team} (h : t.integrity = []) : retirementTrap t = none := by
  simp [retirementTrap, integrityTrap, h]

/-- The withdrawal of the requests of a team that has none changes neither it nor the cores. -/
theorem withdraw_eq {s : State} {u : Nat} {t : Team} (ht : tblGet s.teams u = some t) (h : t.late = []) :
    ∃ z : State, withdraw s u = z.setTeam u t ∧ z.cores = s.cores := by
  have hsame : withdrawLate t = t := by simp [withdrawLate, h]
  have hupd (z : State) (hz : z.teams = s.teams) : z.updTeam u withdrawLate = z.setTeam u t := by
    rw [State.updTeam_of_some (by rw [hz, ht]), hsame]
  refine ⟨{ withdrawQueues s u with
    locks := (withdrawQueues s u).locks.map (fun l => (l.1, { l.2 with waiters := l.2.waiters.filter (fun w => decide (w.1 ≠ u)) })) }, ?_, rfl⟩
  exact hupd _ rfl

/-- A retiring team with nothing under way is removed. -/
theorem retireTeam_of_quiet {s : State} {u : Nat} {t : Team} (ht : tblGet s.teams u = some t) (hw : t.wait = .retiring) (hq : Quiet s u t)
    (hout : ∀ c ∈ teamCores t.cfg, ∀ e ∈ (s.core c).out, e.team ≠ u) : ∃ s1, retireTeam s u = settleRings (removeTeam s1 u t) := by
  obtain ⟨z, hz, hcores⟩ := withdraw_eq ht hq.late
  have hcore (c : Nat) : (z.setTeam u t).core c = s.core c := by rw [State.core, State.core, State.setTeam_cores, hcores]
  have hqz : Quiet (z.setTeam u t) u t := ⟨hq.flags, hq.late, hq.integrity, by simpa only [hcore] using hq.batches⟩
  have hteam : tblGet (drainTeam (z.setTeam u t) u t.cfg).teams u = some t := by
    rw [teams_drainTeam (by simpa only [hcore] using hout), State.team_setTeam_self]
  refine ⟨drainTeam (z.setTeam u t) u t.cfg, ?_⟩
  unfold retireTeam
  simp [ht, hw, hz, drainFlags_of_quiet (State.team_setTeam_self z u t) hqz, hteam, hq.flags, retirementTrap_of_no_integrity hq.integrity]

/-- A halting team is removed once what it has sent is home, and its entry goes to its ring (R345, R384). -/
theorem finishHalt_eq {s : State} {u : Nat} {t : Team} {c1 c2 pc : Nat} {d : Word} {l : Launch} (ht : tblGet s.teams u = some t)
    (hhalt : t.halt = some (c1, c2, d, pc)) (hl : tblGet (drainTeam s u t.cfg).launches t.cfg.launch = some l) :
    finishHalt s u = settleRings (pushEntry (removeTeam (drainTeam s u t.cfg) u t) l.ring
      { seq := l.seq, kind := 1, cls := c1, cls2 := c2, type := 1, teamid := t.cfg.teamid, core := t.cfg.core, detail := d.toNat, pc := pc }) := by
  unfold finishHalt
  simp [ht, hhalt, hl]

/-! ## Saves (R351, R358, R360) -/

theorem keeps_writeSaveArea {α : Type} {f : Team → α} (s : State) (t : Team) : Keeps f s (writeSaveArea s t) := by
  refine Keeps.after (keeps_foldl_snd (fun r p => ?_) _ (drawBytes s (saveBytes t))) (keeps_of_fields rfl)
  exact keeps_ite _ (Keeps.refl _) (keeps_putRun _ _ _ _)

/-- Nothing stops in a sequencer that holds no MLOOP of the team. -/
theorem stopLoops_of_none {s : State} {u : Nat} {t : Team} (h : ∀ l ∈ (s.core t.cfg.core).sequencer, l.team ≠ u) : stopLoops s u t = s := by
  have hnone : (s.core t.cfg.core).sequencer.filter (fun l => decide (l.team = u)) = [] := List.filter_eq_nil_iff.mpr fun l hl => by simp [h l hl]
  unfold stopLoops
  simp only [hnone]

/-- A team saved with nothing in the sequencer: it is in the state it was in, out of its core, and no longer holds the issue slot. -/
theorem saveNow_saves {s : State} {u : Nat} {t : Team} (ht : tblGet s.teams u = some t) (h : ∀ l ∈ (s.core t.cfg.core).sequencer, l.team ≠ u) (hold : Bool) :
    (saveNow s u t hold).cur ≠ some u ∧ ∃ bytes bad, tblGet (saveNow s u t hold).teams u =
      some { t with saved := true, hold := hold, active := false, permit := false, savedScratch := bytes, savedPoison := bad } := by
  have hkeeps : Keeps id s (writeSaveArea s t) := keeps_writeSaveArea s t
  have hseq : ((writeSaveArea s t).core t.cfg.core).sequencer = (s.core t.cfg.core).sequencer := congrArg Prod.snd (hkeeps.cores t.cfg.core)
  obtain ⟨t1, ht1, hsame⟩ := hkeeps.team_some ht
  obtain rfl : t1 = t := hsame
  have hstop : stopLoops (writeSaveArea s t1) u t1 = writeSaveArea s t1 := stopLoops_of_none (by rw [hseq]; exact h)
  unfold saveNow
  simp only [hstop, State.updTeam_of_some ht1]
  refine ⟨?_, _, _, State.team_setTeam_self _ _ _⟩
  split
  · exact (Option.some_ne_none u).symm
  · assumption

/-- The SAVE_TEAM messages that name a team. -/
def saveAsks (s : State) (t : Team) : List Waiting := s.waiting.filter (fun w => isSaveMsg w.msg && namesTeam s w.msg t)

/-- The answer to a message without a payload. -/
def answerTo (m : UrfelMsg) (status : Nat) : OutMsg :=
  { dest := m.sender, op := m.op, sub := m.sub, ctx := m.ctx, tag := m.tag, status := status, length := 0, addr := m.addr, payload := [] }

/-- Messages answered: their answers are sent, and the teams, the issue slot and the messages that wait are as before. -/
theorem answers_frame (ws : List Waiting) (status : Nat) (s : State) :
    (ws.foldl (fun s w => answerMsg s w.msg status []) s).teams = s.teams ∧ (ws.foldl (fun s w => answerMsg s w.msg status []) s).cur = s.cur ∧
    (ws.foldl (fun s w => answerMsg s w.msg status []) s).waiting = s.waiting ∧
    (ws.foldl (fun s w => answerMsg s w.msg status []) s).sent = s.sent ++ ws.map (fun w => answerTo w.msg status) := by
  induction ws generalizing s with
  | nil => simp
  | cons w rest ih =>
    obtain ⟨hteams, hcur, hwaiting, hsent⟩ := ih (answerMsg s w.msg status [])
    refine ⟨hteams, hcur, hwaiting, hsent.trans ?_⟩
    rw [List.map_cons, List.append_cons]
    rfl

section Save
variable {s : State} {u : Nat} {t : Team} (ht : tblGet s.teams u = some t) (hp : savePoint t = true)
  (hask : saveAsks s t ≠ [] ∨ (wantedSaves s).head? = some u) (hq : Quiet s u t) (hseq : ∀ l ∈ (s.core t.cfg.core).sequencer, l.team ≠ u)
  (hread : allocationRead s u t = false)
include ht hp hask hq hread

/-- A quiet team at a place where a save may take it, which the distributor or a message wants saved, is saved and its messages are answered. -/
theorem saveTeam_eq : saveTeam s u =
    (saveAsks s t).foldl (fun s w => answerMsg s w.msg stOk [])
      { saveNow s u t ((saveAsks s t).any (fun w => decide (msgField w.msg 8 1 % 2 = 1))) with
        waiting := (saveNow s u t ((saveAsks s t).any (fun w => decide (msgField w.msg 8 1 % 2 = 1)))).waiting.filter
          (fun w => !(saveAsks s t).contains w) } := by
  have hwanted : (savePoint t && (decide (saveAsks s t ≠ []) || decide ((wantedSaves s).head? = some u))) = true := by
    rcases hask with h | h <;> simp [hp, h]
  have hgo : (flagsSaved t && !allocationRead s u t) = true := by simp [flagsSaved, hq.late, hread]
  unfold saveTeam
  simp only [ht, drainFlags_of_quiet ht hq]
  exact (if_pos hwanted).trans (if_pos hgo)

include hseq

theorem saveTeam_saves : (saveTeam s u).cur ≠ some u ∧
    (∃ bytes bad, tblGet (saveTeam s u).teams u = some { t with
      saved := true, hold := (saveAsks s t).any (fun w => decide (msgField w.msg 8 1 % 2 = 1)), active := false, permit := false,
      savedScratch := bytes, savedPoison := bad }) ∧
    ∀ w ∈ saveAsks s t, w ∉ (saveTeam s u).waiting ∧ answerTo w.msg stOk ∈ (saveTeam s u).sent := by
  rw [saveTeam_eq ht hp hask hq hread]
  obtain ⟨hcur, hteam⟩ := saveNow_saves ht hseq ((saveAsks s t).any (fun w => decide (msgField w.msg 8 1 % 2 = 1)))
  generalize saveNow s u t ((saveAsks s t).any (fun w => decide (msgField w.msg 8 1 % 2 = 1))) = z at hcur hteam ⊢
  obtain ⟨hteams, hcur1, hwaiting, hsent⟩ :=
    answers_frame (saveAsks s t) stOk { z with waiting := z.waiting.filter (fun w => !(saveAsks s t).contains w) }
  rw [hteams, hcur1, hwaiting, hsent]
  refine ⟨hcur, hteam, fun w hw => ⟨fun hstill => ?_, List.mem_append_right _ (List.mem_map_of_mem hw)⟩⟩
  simpa [hw] using (List.mem_filter.mp hstill).2

end Save

theorem not_saved_of_savePoint {t : Team} (h : savePoint t = true) : t.saved = false := by
  cases hs : t.saved with
  | false => rfl
  | true => simp [savePoint, hs] at h

/-- A team saved and then given back what the save took from it. -/
theorem saved_team_restored {t : Team} (h : t.saved = false) (hold : Bool) (bytes : List Host.Cell) (bad : List Nat) :
    ({ ({ t with saved := true, hold := hold, active := false, permit := false, savedScratch := bytes, savedPoison := bad } : Team) with
        saved := false, hold := t.hold, active := t.active, permit := t.permit, savedScratch := t.savedScratch, savedPoison := t.savedPoison } : Team) = t := by
  rw [← h]

/-! ## Restores (R359) -/

/-- A saved team with nothing in flight that waits for nothing comes back as it was saved. -/
theorem restoreTeam_restores {s : State} {u : Nat} {t : Team} (ht : tblGet s.teams u = some t) (hc : canReturn s t = true) (hl : t.late = [])
    (hw : t.wait = .none) :
    tblGet (restoreTeam s u).teams u =
      some { t with saved := false, score := 0, stopped := [], savedScratch := [], savedPoison := [], order := s.nextId } ∧
    (restoreTeam s u).mem = s.mem ∧
    ((restoreTeam s u).core t.cfg.core).sequencer = (s.core t.cfg.core).sequencer ++ t.stopped := by
  have hresume (z : State) (t1 : Team) (hl1 : t1.late = []) (hw1 : t1.wait = .none) : resumeTeam z u t1 = z := by
    simp [resumeTeam, hl1, hw1]
  unfold restoreTeam
  simp only [ht, if_pos hc]
  rw [hresume]
  · refine ⟨State.team_setTeam_self _ _ _, rfl, ?_⟩
    rw [State.core_setTeam, State.updCore, State.core_setCore_self]
    rfl
  · exact hl
  · exact hw

/-! ## The statement -/

/-- Settles O42: the team placed, the team that retires, the one that halts, the saves for the distributor and for messages, the restore. -/
theorem teamsArePlacedSavedAndRetired : Obligations.TeamsArePlacedSavedAndRetired := by
  unfold Obligations.TeamsArePlacedSavedAndRetired
  intro s hrun
  refine ⟨fun id core base l hplace => ?_, fun u t ht => ⟨fun hw hq hout => ?_, ?_,
    fun hp hwant hnomsg hq hseq hread => ?_, ?_, fun hc hl hw => ?_⟩⟩
  · obtain ⟨⟨late, integrity, hteam⟩, hlast, hlaunch, hzero⟩ := putTeam_places (claimCluster s id l core) id l core base
    rw [(keeps_claimCluster s id l core).nextId] at hteam
    obtain ⟨h0, h1, h2, h3, h4⟩ := sregs_newTeam id l core base s.nextId
    exact ⟨_, _, (exec_teamPlace hrun).trans (congrArg Host.Outcome.next (placeTeam_of_place hplace)), hteam, hlast, hlaunch, rfl, rfl, rfl, rfl, rfl, rfl, rfl,
      rfl, rfl, rfl, rfl, rfl, rfl, rfl, rfl, rfl, rfl, fun k hk => Vector.getElem_replicate hk, h0, h1, h2, h3, h4, hzero⟩
  · obtain ⟨s1, hs1⟩ := retireTeam_of_quiet ht hw hq hout
    refine ⟨_, exec_teamRetire hrun u, ?_⟩
    rw [hs1]
    exact (keeps_settleRings (f := id) _).team_none (team_removeTeam s1 u t)
  · intro c1 c2 d pc l hhalt s1 hl
    rw [exec_teamHalt hrun, finishHalt_eq ht hhalt hl]
    exact ⟨rfl, team_removeTeam s1 u t⟩
  · have hnone : saveAsks s t = [] := List.filter_eq_nil_iff.mpr fun w hw => by simp [hnomsg w hw]
    obtain ⟨hcur, ⟨bytes, bad, hteam⟩, -⟩ := saveTeam_saves ht hp (.inr hwant) hq hseq hread
    rw [hnone] at hteam
    exact ⟨_, _, exec_teamSave hrun u, hteam, rfl, rfl, rfl, rfl, hcur, saved_team_restored (not_saved_of_savePoint hp) _ _ _⟩
  · intro asks hp hsome hq hseq hread
    have hmem (w : Waiting) : w ∈ saveAsks s t ↔ w ∈ s.waiting ∧ asks w := by simp [saveAsks, asks]
    have hask : saveAsks s t ≠ [] := by
      obtain ⟨w, hw⟩ := hsome
      exact List.ne_nil_of_mem ((hmem w).mpr hw)
    obtain ⟨-, ⟨bytes, bad, hteam⟩, hanswered⟩ := saveTeam_saves ht hp (.inl hask) hq hseq hread
    refine ⟨_, _, exec_teamSave hrun u, hteam, rfl, ?_, fun w hw hasks => ?_⟩
    · simp only [List.any_eq_true, hmem, decide_eq_true_eq, and_assoc]
    · obtain ⟨hgone, hsent⟩ := hanswered w ((hmem w).mpr ⟨hw, hasks⟩)
      exact ⟨hgone, _, hsent, rfl, rfl, rfl, rfl, rfl⟩
  · exact ⟨_, exec_teamRestore hrun u, restoreTeam_restores ht hc hl hw⟩

end Sys2Proof.Machine
end

section
/-! PROOFS. Cross-lane instructions at issue (R266, R269, R385): an instruction that reads its span and no v register lane by lane is its body; with an s destination
it is ILLEGAL_OP, with any other its result in every lane. -/

namespace Sys2Proof.Machine

/-! ## Plain instructions at issue -/

section Plain
variable {s : State} {u : Nat} {t : Team} {c : Clause} {i : Instr} {types : Nat → Bool} {ops : Nat → List Opnd}
  {body : State → Issue → Eff}

/-- A plain instruction of any TYPEs that has passed its checks and reads no poisoned register lane by lane is its body. -/
theorem issue_plainForm (h : Issuing s u t c) (hl : Legal i t false types (ops (modeType t.mode))) (hp : Unpoisoned t (ops (modeType t.mode)) (lanesOn t)) :
    issue i (plainForm types ops) body s = finish u (body s (issueOfTeam u t c.lit)) := by
  rw [issue_go h body (gate_go hl (by simp [plainForm]) (by simp [countFlag, plainForm])), perform_clean, issueOf_plain]
  rwa [issueOf_plain]

/-- Where check 3 passes and the body would refuse an s destination, or where check 3 refuses, the instruction is ILLEGAL_OP with EXEC pending. -/
theorem traps_illegalOp (h : Issuing s u t c) (hexec : exec i s = issue i (plainForm types ops) body s) (hw : i.wellFormed = true) (hty : types (modeType t.mode) = true)
    (hretry : t.retry = none) (hp : Unpoisoned t (ops (modeType t.mode)) (lanesOn t))
    (hbody : body s (issueOfTeam u t c.lit) = trapExec .illegalOp s (issueOfTeam u t c.lit)) : Traps i s u .illegalOp t.exec := by
  unfold Traps
  rw [hexec]
  cases hops : opndsOk t.cfg.budget false (ops (modeType t.mode)) with
  | false => exact issue_trap h body (gate_illegalOp (.inr hops))
  | true =>
    rw [issue_plainForm h ⟨hw, hops, hty⟩ hp, hbody]
    simp [trapExec, finish, issueOfTeam, lanesExec, hretry]

/-- An instruction whose body is a result in every lane it acts on completes with that result. -/
theorem completes_of_laneEff {d : Sel} {n : Nat} {f : Nat → Nat × BitVec 5} (hd : RegsExist d n) (hs : isSreg d = false)
    {lit : Word} (hexec : exec i s = finish u (laneEff d n (lanesOn t) f s (issueOfTeam u t lit))) :
    Completes i s u t (lanesOn t) d n (fun k => (f k).1) (flagsOf (slotsOf t.cfg.capacity (lanesOn t)) (fun k => (f k).2)) := by
  obtain ⟨t1, hfinish, hwrote⟩ := lane_result (s := s) d n (lanesOn t) f hd (issueOfTeam u t lit) rfl rfl
  have hlanes : lanesFor t d (lanesOn t) = slotsOf t.cfg.capacity (lanesOn t) := if_neg (by simp [hs])
  exact ⟨t1, hexec.trans hfinish, hlanes ▸ hwrote⟩

end Plain

/-- The operands of a cross-lane instruction, none of them read lane by lane. -/
theorem noLaneReads_across (d a : Sel) (m n : Nat) : NoLaneReads [dst d m, across a n] := by simp [NoLaneReads, dst, across]

theorem noLaneReads_across_across (d a b : Sel) (m n p : Nat) : NoLaneReads [dst d m, across a n, across b p] := by simp [NoLaneReads, dst, across]

theorem typeRegs_dvd (ty : Nat) : typeRegs ty ∣ 8 := by
  unfold typeRegs
  split <;> decide

/-! ## The effect of a cross-lane instruction (R266) -/

section Cross
variable {d a : Sel} {n na : Nat} {reads : Issue → Nat → List Nat} {f : Issue → Nat → Nat × BitVec 5} {s : State} {x : Issue}

theorem crossEff_sreg (hs : isSreg d = true) : crossEff d n a na reads f s x = trapExec .illegalOp s x := if_pos hs

/-- With no poison among the ACTIVE lanes every lane gets its result. -/
theorem crossEff_clean (hs : isSreg d = false) (hp : Unpoisoned x.t [src a na] x.whole) : crossEff d n a na reads f s x = laneEff d n x.active (f x) s x := by
  have hall : x.active &&& ~~~ (0 : Mask) = x.active := by
    rw [show (0 : Mask) = 0#1024 from rfl, BitVec.not_zero, BitVec.and_allOnes]
  unfold Unpoisoned at hp
  unfold crossEff
  simp only [hs, Bool.false_eq_true, if_false, hp, if_true, withPoison, hall]

end Cross

/-! ## The ring of a ringset TYPE (R145, R269) -/

theorem modeRingThen_ready {body : Ring → State → Issue → Eff} {s : State} {x : Issue} {r : Ring}
    (h : RingReady x.t (modeRing x.t.mode) (modeType x.t.mode - 11) r) : modeRingThen body s x = body r s x := by
  obtain ⟨hslot, hform, hbuilt⟩ := h
  unfold modeRingThen ringThen
  simp [hslot, hform, hbuilt, formOfType]

theorem perhapsRing_worksIn {body : Option Ring → State → Issue → Eff} {s : State} {x : Issue} {ring : Option Ring} (h : WorksIn x.t ring) :
    perhapsRing body s x = body ring s x := by
  obtain ⟨hring, hnone⟩ := h
  unfold perhapsRing
  cases hty : isRingType (modeType x.t.mode) with
  | true =>
    obtain ⟨r, rfl, hready⟩ := hring hty
    exact modeRingThen_ready hready
  | false => rw [hnone hty]; rfl

/-! ## The inputs of a span -/

/-- Spanlane e's input is its operand, and the identity where it is not ACTIVE (R130). -/
theorem spanInputs_eq (n : Node) (a : Sel) (u : Nat) (t : Team) (lit : Word) (k : Nat) :
    spanInputs n a (issueOfTeam u t lit) k =
      (List.range t.cfg.span).map (spanRead t lit (activeMask t) a (typeRegs (modeType t.mode)) (identity n t.mode) k) := by
  refine List.map_congr_left fun e _ => ?_
  exact if_congr (by rw [Bool.and_eq_true, decide_eq_true_iff]; rfl) rfl rfl

end Sys2Proof.Machine
end

section
/-! PROOFS. The tree of R129: level by level it is the two halves of its inputs, each folded, and one node above them. -/

namespace Sys2Proof.Machine

variable (op : Nat → Nat → Nat × BitVec 5)

/-- A level of the tree over two runs of inputs, the first of an even length, is the level over each. -/
theorem foldLevel_append (m : Nat) (l r : List Nat) (h : l.length = 2 * m) :
    foldLevel op (l ++ r) = ((foldLevel op l).1 ++ (foldLevel op r).1, (foldLevel op l).2 ||| (foldLevel op r).2) := by
  induction m generalizing l with
  | zero =>
    obtain rfl : l = [] := List.eq_nil_of_length_eq_zero (by omega)
    simp [foldLevel]
  | succ m ih =>
    obtain _ | ⟨x, _ | ⟨y, rest⟩⟩ := l
    · simp at h
    · simp at h; omega
    · have hrest := ih rest (by simp only [List.length_cons] at h; omega)
      simp only [List.cons_append, foldLevel, hrest, BitVec.or_assoc]

theorem length_foldLevel (m : Nat) (l : List Nat) (h : l.length = 2 * m) : (foldLevel op l).1.length = m := by
  induction m generalizing l with
  | zero =>
    obtain rfl : l = [] := List.eq_nil_of_length_eq_zero (by omega)
    rfl
  | succ m ih =>
    obtain _ | ⟨x, _ | ⟨y, rest⟩⟩ := l
    · simp at h
    · simp at h; omega
    · simp only [foldLevel, List.length_cons]
      rw [ih rest (by simp only [List.length_cons] at h; omega)]

/-- Exceptions gathered before the tree are in its exceptions, and leave its result. -/
theorem foldTree_flags (j : Nat) (l : List Nat) (e : BitVec 5) : foldTree op j l e = ((foldTree op j l 0).1, e ||| (foldTree op j l 0).2) := by
  induction j generalizing l e with
  | zero => simp [foldTree]
  | succ j ih =>
    simp only [foldTree]
    rw [ih _ (e ||| _), ih _ (0 ||| _)]
    simp [BitVec.or_assoc]

/-- The tree over twice as many inputs: the trees of the two halves, and one node. -/
theorem foldTree_append (j : Nat) (l r : List Nat) (hl : l.length = 2 ^ j) (hr : r.length = 2 ^ j) :
    foldTree op (j + 1) (l ++ r) 0 =
      ((op (foldTree op j l 0).1 (foldTree op j r 0).1).1,
        (foldTree op j l 0).2 ||| (foldTree op j r 0).2 ||| (op (foldTree op j l 0).1 (foldTree op j r 0).1).2) := by
  induction j generalizing l r with
  | zero =>
    obtain ⟨x, rfl⟩ := List.length_eq_one_iff.mp hl
    obtain ⟨y, rfl⟩ := List.length_eq_one_iff.mp hr
    simp [foldTree, foldLevel]
  | succ j ih =>
    rw [Nat.pow_succ, Nat.mul_comm] at hl hr
    rw [foldTree, foldLevel_append op _ l r hl, foldTree_flags, ih _ _ (length_foldLevel op _ l hl) (length_foldLevel op _ r hr)]
    simp only [foldTree]
    rw [foldTree_flags op j _ (0 ||| (foldLevel op l).2), foldTree_flags op j _ (0 ||| (foldLevel op r).2)]
    simp only [Prod.mk.injEq, true_and]
    ac_rfl

/-- The tree of R129 over 2^j inputs is the one of the statement. -/
theorem foldTree_eq_treeOf (j : Nat) (f : Nat → Nat) : foldTree op j ((List.range (2 ^ j)).map f) 0 = treeOf op j f := by
  induction j generalizing f with
  | zero => rfl
  | succ j ih =>
    have hsplit : (List.range (2 ^ (j + 1))).map f = (List.range (2 ^ j)).map f ++ (List.range (2 ^ j)).map (fun i => f (2 ^ j + i)) := by
      rw [Nat.pow_succ, Nat.mul_two, List.range_add, List.map_append, List.map_map]
      rfl
    rw [hsplit, foldTree_append op j _ _ (by simp) (by simp), ih, ih]
    rfl

end Sys2Proof.Machine
end

section
/-! PROOFS. Values and their elements (R119, R234): what a joined value holds, and the element functions of the integer TYPEs on numbers. -/

namespace Sys2Proof.Machine

/-! ## Joined elements -/

theorem elemOf_lt (ty e x : Nat) : elemOf ty e x < 2 ^ elemWidth ty := Nat.mod_lt _ (by positivity)

theorem joinElems_lt (ty : Nat) (es : List Nat) : joinElems ty es < 2 ^ (elemWidth ty * es.length) := by
  induction es with
  | nil => simp [joinElems]
  | cons x rest ih =>
    have hx : x % 2 ^ elemWidth ty < 2 ^ elemWidth ty := Nat.mod_lt _ (by positivity)
    rw [joinElems, List.length_cons, Nat.mul_succ, Nat.add_comm (elemWidth ty * _), Nat.pow_add]
    calc x % 2 ^ elemWidth ty + 2 ^ elemWidth ty * joinElems ty rest
        < 2 ^ elemWidth ty * (joinElems ty rest + 1) := by rw [Nat.mul_succ]; omega
      _ ≤ 2 ^ elemWidth ty * 2 ^ (elemWidth ty * rest.length) := Nat.mul_le_mul_left _ ih

theorem elemOf_joinElems (ty : Nat) (es : List Nat) (e : Nat) (h : e < es.length) : elemOf ty e (joinElems ty es) = es[e] % 2 ^ elemWidth ty := by
  induction es generalizing e with
  | nil => simp at h
  | cons x rest ih =>
    have hx : x % 2 ^ elemWidth ty < 2 ^ elemWidth ty := Nat.mod_lt _ (by positivity)
    cases e with
    | zero => simp [elemOf, joinElems]
    | succ e =>
      rw [List.getElem_cons_succ, ← ih e (by simpa using h), elemOf, elemOf, joinElems, Nat.mul_succ, Nat.add_comm (elemWidth ty * e), Nat.pow_add,
        ← Nat.div_div_eq_div_mul, Nat.add_mul_div_left _ _ (by positivity), Nat.div_eq_of_lt hx, Nat.zero_add]

/-- A value joined from one element for each of its TYPE's holds them. -/
theorem holds_joinElems {ty : Nat} {es : List Nat} (h : es.length = elemCount ty) {f : Nat → Nat}
    (hf : ∀ e (he : e < es.length), es[e] % 2 ^ elemWidth ty = f e) : Holds ty (joinElems ty es) f :=
  ⟨h ▸ joinElems_lt ty es, fun e he => (elemOf_joinElems ty es e (h ▸ he)).trans (hf e (h ▸ he))⟩

theorem holds_fillElems {ty v : Nat} (h : v < 2 ^ elemWidth ty) : Holds ty (fillElems ty v) (fun _ => v) :=
  holds_joinElems (by simp) fun e he => by simp [Nat.mod_eq_of_lt h]

theorem holds_mapElems (ty : Nat) (g : Nat → Nat × BitVec 5) : Holds ty (mapElems ty g).1 (fun e => (g e).1 % 2 ^ elemWidth ty) :=
  holds_joinElems (by simp) fun e he => by simp

theorem mapElems_flags (ty : Nat) (g : Nat → Nat × BitVec 5) : (mapElems ty g).2 = flagsOf (List.range (elemCount ty)) (fun e => (g e).2) := by
  simp [mapElems, flagsOf, List.foldl_map]

theorem holds_zero (ty : Nat) : Holds ty 0 (fun _ => 0) := ⟨by positivity, fun e _ => by simp [elemOf]⟩

theorem Holds.congr {ty v : Nat} {f g : Nat → Nat} (h : Holds ty v f) (hfg : ∀ e, e < elemCount ty → f e = g e) : Holds ty v g :=
  ⟨h.1, fun e he => (h.2 e he).trans (hfg e he)⟩

/-! ## Integer elements as numbers (R234) -/

theorem elemWidth_pos (ty : Nat) : 0 < elemWidth ty := by
  unfold elemWidth
  split_ifs <;> decide

theorem isSigned_iff (ty : Nat) : isSigned ty = true ↔ ty = 0 ∨ ty = 2 ∨ ty = 4 := by simp [isSigned, or_assoc]

theorem elemInt_eq_numberOf {ty x : Nat} (h : x < 2 ^ elemWidth ty) : elemInt ty x = numberOf ty x := by
  unfold elemInt numberOf
  simp only [isSigned_iff, sextInt_eq_toInt _ _ (elemWidth_pos ty), BitVec.toNat_ofNat, Nat.mod_eq_of_lt h]

theorem elemMin_eq_leastOf (ty : Nat) : elemMin ty = leastOf ty := by
  unfold elemMin leastOf
  simp only [isSigned_iff]
  push_cast
  rfl

theorem elemMax_eq_greatestOf (ty : Nat) : elemMax ty = greatestOf ty := by
  unfold elemMax greatestOf
  simp only [isSigned_iff]
  push_cast
  rfl

theorem wrapNat_elem (ty : Nat) (r : Int) : wrapNat (elemWidth ty) r = wrapped ty r := wrapNat_eq_toNat _ _

theorem wrapped_lt (ty : Nat) (r : Int) : wrapped ty r < 2 ^ elemWidth ty := BitVec.isLt _

/-- Clamped to the range of the TYPE. -/
theorem perhapsClamped_eq (ty : Nat) (sat : Bool) (r : Int) :
    perhapsClamped ty sat r = wrapped ty (if sat then max (leastOf ty) (min (greatestOf ty) r) else r) := by
  unfold perhapsClamped leastOf greatestOf
  split_ifs <;> rfl

theorem leastOf_le_greatestOf (ty : Nat) : leastOf ty ≤ greatestOf ty := by
  have h1 : (0 : Int) < 2 ^ (elemWidth ty - 1) := by positivity
  have h2 : (0 : Int) < 2 ^ elemWidth ty := by positivity
  unfold leastOf greatestOf
  split_ifs <;> omega

/-- A result below the range is its least element, one above it its greatest, any other itself. -/
theorem clamp_eq (ty : Nat) (r : Int) :
    (if r < elemMin ty then elemMin ty else if elemMax ty < r then elemMax ty else r) = max (leastOf ty) (min (greatestOf ty) r) := by
  have h := leastOf_le_greatestOf ty
  rw [elemMin_eq_leastOf, elemMax_eq_greatestOf]
  split_ifs <;> omega

theorem elemResult_eq (ty : Nat) (sat : Bool) (r : Int) : elemResult ty sat r = perhapsClamped ty sat r := by
  rw [elemResult, clamp_eq, wrapNat_elem, perhapsClamped_eq]

/-- An element is the pattern of its number. -/
theorem wrapped_numberOf {ty x : Nat} (h : x < 2 ^ elemWidth ty) : wrapped ty (numberOf ty x) = x := by
  unfold wrapped numberOf
  split_ifs
  · rw [BitVec.ofInt_toInt, BitVec.toNat_ofNat, Nat.mod_eq_of_lt h]
  · rw [BitVec.ofInt_natCast, BitVec.ofNat_toNat, BitVec.setWidth_eq, BitVec.toNat_ofNat, Nat.mod_eq_of_lt h]

section Elements
variable {ty x y : Nat} (hx : x < 2 ^ elemWidth ty) (hy : y < 2 ^ elemWidth ty) (sat : Bool)
include hx hy

theorem addE_eq : addE ty sat x y = perhapsClamped ty sat (numberOf ty x + numberOf ty y) := by
  rw [addE, elemResult_eq, elemInt_eq_numberOf hx, elemInt_eq_numberOf hy]

theorem minE_eq : minE ty sat x y = wrapped ty (min (numberOf ty x) (numberOf ty y)) := by
  rw [minE, elemInt_eq_numberOf hx, elemInt_eq_numberOf hy]
  split
  next h => rw [min_eq_left h, wrapped_numberOf hx]
  next h => rw [min_eq_right (not_le.mp h).le, wrapped_numberOf hy]

theorem maxE_eq : maxE ty sat x y = wrapped ty (max (numberOf ty x) (numberOf ty y)) := by
  rw [maxE, elemInt_eq_numberOf hx, elemInt_eq_numberOf hy]
  split
  next h => rw [max_eq_right h, wrapped_numberOf hy]
  next h => rw [max_eq_left (not_le.mp h).le, wrapped_numberOf hx]

theorem andE_eq : andE ty sat x y = (BitVec.ofNat (elemWidth ty) x &&& BitVec.ofNat (elemWidth ty) y).toNat := by
  rw [andE, BitVec.toNat_and, BitVec.toNat_ofNat, BitVec.toNat_ofNat, Nat.mod_eq_of_lt hx, Nat.mod_eq_of_lt hy]

theorem orE_eq : orE ty sat x y = (BitVec.ofNat (elemWidth ty) x ||| BitVec.ofNat (elemWidth ty) y).toNat := by
  rw [orE, BitVec.toNat_or, BitVec.toNat_ofNat, BitVec.toNat_ofNat, Nat.mod_eq_of_lt hx, Nat.mod_eq_of_lt hy]

end Elements

/-- An operation on elements that gives elements. -/
theorem holds_intBin {ty : Nat} {g h : Nat → Nat → Nat} (hgh : ∀ x y, x < 2 ^ elemWidth ty → y < 2 ^ elemWidth ty → g x y = h x y)
    (hlt : ∀ x y, x < 2 ^ elemWidth ty → y < 2 ^ elemWidth ty → h x y < 2 ^ elemWidth ty) (x y : Nat) :
    Holds ty (intBin ty g x y) (fun e => h (elemOf ty e x) (elemOf ty e y)) :=
  (holds_mapElems ty _).congr fun e _ => by
    rw [hgh _ _ (elemOf_lt ty e x) (elemOf_lt ty e y), Nat.mod_eq_of_lt (hlt _ _ (elemOf_lt ty e x) (elemOf_lt ty e y))]

end Sys2Proof.Machine
end

section
/-! PROOFS. The span reductions and SCANADD (R129, R130, R269): the statement. -/

namespace Sys2Proof.Machine

/-! ## Types -/

theorem not_isFpType_of_isIntType {ty : Nat} (h : isIntType ty = true) : isFpType ty = false := by
  simp only [isIntType, isFpType, decide_eq_true_eq, Bool.and_eq_false_iff, decide_eq_false_iff_not] at h ⊢
  omega

theorem not_isRingType_of_isIntType {ty : Nat} (h : isIntType ty = true) : isRingType ty = false := by
  simp only [isIntType, isRingType, decide_eq_true_eq, Bool.and_eq_false_iff, decide_eq_false_iff_not] at h ⊢
  omega

theorem not_isIntType_of_isFpType {ty : Nat} (h : isFpType ty = true) : isIntType ty = false := by
  simp only [isIntType, isFpType, Bool.and_eq_true, decide_eq_true_eq, decide_eq_false_iff_not] at h ⊢
  omega

theorem not_isFpType_of_isRingType {ty : Nat} (h : isRingType ty = true) : isFpType ty = false := by
  simp only [isRingType, isFpType, Bool.and_eq_true, decide_eq_true_eq, Bool.and_eq_false_iff, decide_eq_false_iff_not] at h ⊢
  omega

theorem not_isIntType_of_isRingType {ty : Nat} (h : isRingType ty = true) : isIntType ty = false := by
  simp only [isRingType, isIntType, Bool.and_eq_true, decide_eq_true_eq, decide_eq_false_iff_not] at h ⊢
  omega

/-! ## Identities and nodes by TYPE (R130) -/

/-- Under an integer TYPE. -/
theorem identity_integer {mode : Word} (h : isIntType (modeType mode) = true) {n : Node} {v : Nat} (hn : (n, v) ∈ integerIdentities (modeType mode)) :
    Holds (modeType mode) (identity n mode) (fun _ => v) := by
  have hfp := not_isFpType_of_isIntType h
  have hring := not_isRingType_of_isIntType h
  simp only [integerIdentities, List.mem_cons, List.not_mem_nil, or_false, Prod.mk.injEq] at hn
  rcases hn with ⟨rfl, rfl⟩ | ⟨rfl, rfl⟩ | ⟨rfl, rfl⟩ | ⟨rfl, rfl⟩ | ⟨rfl, rfl⟩
  · simpa [identity, hfp, hring] using holds_zero _
  · simpa [identity, hfp, wrapNat_elem, elemMax_eq_greatestOf] using holds_fillElems (wrapped_lt _ _)
  · simpa [identity, hfp, wrapNat_elem, elemMin_eq_leastOf] using holds_fillElems (wrapped_lt _ _)
  · exact holds_fillElems (Nat.sub_lt (by positivity) Nat.one_pos)
  · exact holds_zero _

theorem nodeOp_integer {mode : Word} (h : isIntType (modeType mode) = true) {n : Node} {g : Nat → Bool → Nat → Nat → Nat} (hn : (n, g) ∈ integerNodes)
    (ring : Option Ring) (x y : Nat) : (nodeOp n mode ring x y).2 = 0 ∧
      Holds (modeType mode) (nodeOp n mode ring x y).1
        (fun e => g (modeType mode) (mode.getLsbD 8) (elemOf (modeType mode) e x) (elemOf (modeType mode) e y)) := by
  have hfp := not_isFpType_of_isIntType h
  have hring := not_isRingType_of_isIntType h
  simp only [integerNodes, List.mem_cons, List.not_mem_nil, or_false, Prod.mk.injEq] at hn
  rcases hn with ⟨rfl, rfl⟩ | ⟨rfl, rfl⟩ | ⟨rfl, rfl⟩ | ⟨rfl, rfl⟩ | ⟨rfl, rfl⟩
  · simp only [nodeOp, hfp, hring, Bool.false_eq_true, if_false, true_and]
    exact holds_intBin (fun x y hx hy => addE_eq hx hy _) (fun x y _ _ => wrapped_lt _ _) x y
  · simpa [nodeOp, hfp] using holds_intBin (fun x y hx hy => minE_eq hx hy _) (fun x y _ _ => wrapped_lt _ _) x y
  · simpa [nodeOp, hfp] using holds_intBin (fun x y hx hy => maxE_eq hx hy _) (fun x y _ _ => wrapped_lt _ _) x y
  · exact ⟨rfl, holds_intBin (fun x y hx hy => andE_eq hx hy _) (fun x y _ _ => BitVec.isLt _) x y⟩
  · exact ⟨rfl, holds_intBin (fun x y hx hy => orE_eq hx hy _) (fun x y _ _ => BitVec.isLt _) x y⟩

/-- The encodings of a floating-point TYPE fill its elements. -/
theorem signBit_fmtOfType {ty : Nat} (h : isFpType ty = true) : 2 * (fmtOfType ty).signBit = 2 ^ elemWidth ty := by
  simp only [isFpType, Bool.and_eq_true, decide_eq_true_eq] at h
  obtain ⟨hlow, hhigh⟩ := h
  interval_cases ty <;> decide

theorem infBits_lt_signBit (f : FpFmt) : f.infBits < f.signBit := by
  rw [FpFmt.infBits, FpFmt.signBit, Nat.pow_add]
  exact Nat.mul_lt_mul_of_pos_right (Nat.sub_lt (by positivity) Nat.one_pos) (by positivity)

theorem identity_float {mode : Word} (h : isFpType (modeType mode) = true) {n : Node} {v : Nat}
    (hn : (n, v) ∈ floatIdentities (fmtOfType (modeType mode)) (modeRnd mode)) : Holds (modeType mode) (identity n mode) (fun _ => v) := by
  have hwidth := signBit_fmtOfType h
  have hinf := infBits_lt_signBit (fmtOfType (modeType mode))
  simp only [floatIdentities, List.mem_cons, List.not_mem_nil, or_false, Prod.mk.injEq] at hn
  rcases hn with ⟨rfl, rfl⟩ | ⟨rfl, rfl⟩ | ⟨rfl, rfl⟩ <;> simp only [identity, h, if_true] <;> refine holds_fillElems ?_
  · split <;> omega
  · omega
  · omega

theorem nodeOp_float {mode : Word} (h : isFpType (modeType mode) = true) {n : Node} {g : FpFmt → Word → Nat → Nat → Nat × BitVec 5} (hn : (n, g) ∈ floatNodes)
    (ring : Option Ring) (x y : Nat) :
    nodeOp n mode ring x y =
      mapElems (modeType mode) (fun e => g (fmtOfType (modeType mode)) mode (elemOf (modeType mode) e x) (elemOf (modeType mode) e y)) := by
  simp only [floatNodes, List.mem_cons, List.not_mem_nil, or_false, Prod.mk.injEq] at hn
  rcases hn with ⟨rfl, rfl⟩ | ⟨rfl, rfl⟩ | ⟨rfl, rfl⟩ <;> simp only [nodeOp, h, if_true]

theorem identity_ring {mode : Word} (h : isRingType (modeType mode) = true) :
    identity .add mode = (if modeType mode - 11 = 0 then 0x0100 else if modeType mode - 11 = 1 then 0x00010000 else 0x0080) ∧
    identity .union mode = (if modeType mode - 11 = 2 then 0xFF01 else 0) := by
  have hfp := not_isFpType_of_isRingType h
  have hrange : 11 ≤ modeType mode ∧ modeType mode ≤ 13 := by simpa [isRingType] using h
  have h0 : modeType mode = tRs16 ↔ modeType mode - 11 = 0 := by rw [tRs16]; omega
  have h1 : modeType mode = tRs32 ↔ modeType mode - 11 = 1 := by rw [tRs32]; omega
  have h2 : modeType mode = tRc16 ↔ modeType mode - 11 = 2 := by rw [tRc16]; omega
  simp only [identity, hfp, h, ringZero, h0, h1, h2, Bool.false_eq_true, if_false, if_true, and_self]

theorem nodeOp_add_ring {mode : Word} (h : isRingType (modeType mode) = true) {r : Ring} (hform : r.form = modeType mode - 11) (x y : Nat) :
    nodeOp .add mode (some r) x y =
      (elemOfPos (modeType mode - 11) (rsBin realAdd r (elemPos (modeType mode - 11) x) (elemPos (modeType mode - 11) y)), 0) := by
  simp only [nodeOp, not_isFpType_of_isRingType h, h, Bool.false_eq_true, if_false, if_true, hform, rsBin]

/-! ## The instructions -/

/-- The body of a reduction under the operands of its span. -/
theorem exec_reduction {d a : Sel} {i : Instr} {n : Node} (hi : (i, n) ∈ reductions d a) (s : State) :
    exec i s = issue i (redForm n d a) (redBody n d a) s := by
  simp only [reductions, List.mem_cons, List.not_mem_nil, or_false, Prod.mk.injEq] at hi
  rcases hi with ⟨rfl, rfl⟩ | ⟨rfl, rfl⟩ | ⟨rfl, rfl⟩ | ⟨rfl, rfl⟩ | ⟨rfl, rfl⟩ <;> rfl

theorem isDst_of_reduction {d a : Sel} {i : Instr} {n : Node} (hi : (i, n) ∈ reductions d a) (hw : i.wellFormed = true) : d.isDst = true := by
  simp only [reductions, List.mem_cons, List.not_mem_nil, or_false, Prod.mk.injEq] at hi
  rcases hi with ⟨rfl, rfl⟩ | ⟨rfl, rfl⟩ | ⟨rfl, rfl⟩ | ⟨rfl, rfl⟩ | ⟨rfl, rfl⟩ <;> exact ((Bool.and_eq_true _ _).mp hw).1

section Issued
variable {s : State} {u : Nat} {t : Team} {c : Clause} (h : Issuing s u t c) {d a : Sel}
include h

theorem reduction_completes {ring : Option Ring} {j : Nat} (hring : WorksIn t ring) (hd : isSreg d = false) (hspan : t.cfg.span = 2 ^ j)
    (hp : Unpoisoned t [src a (typeRegs (modeType t.mode))] (activeMask t)) {i : Instr} {n : Node} (hi : (i, n) ∈ reductions d a)
    (hl : Legal i t false (nodeType n) [dst d (typeRegs (modeType t.mode)), across a (typeRegs (modeType t.mode))]) :
    let r (k : Nat) : Nat × BitVec 5 :=
      treeOf (nodeOp n t.mode ring) j (fun e => spanRead t c.lit (activeMask t) a (typeRegs (modeType t.mode)) (identity n t.mode) k e)
    Completes i s u t (lanesOn t) d (typeRegs (modeType t.mode)) (fun k => (r k).1)
      (flagsOf (slotsOf t.cfg.capacity (lanesOn t)) (fun k => (r k).2)) := by
  intro r
  refine completes_of_laneEff (lit := c.lit) (regsExist_of_opndOk (isDst_of_reduction hi hl.fields) (typeRegs_dvd _) (opndOk_of_opndsOk_cons hl.operands)) hd ?_
  have htree (k : Nat) : foldTree (nodeOp n t.mode ring) (Nat.log2 t.cfg.span) (spanInputs n a (issueOfTeam u t c.lit) k) 0 = r k := by
    rw [spanInputs_eq, hspan, Nat.log2_two_pow, foldTree_eq_treeOf]
  have hbody : redBody n d a s (issueOfTeam u t c.lit) = laneEff d (typeRegs (modeType t.mode)) (lanesOn t) r s (issueOfTeam u t c.lit) := by
    unfold redBody
    rw [if_neg (by simp [hd]), perhapsRing_worksIn hring, crossEff_clean hd hp]
    exact congrArg (fun f => laneEff d _ _ f s _) (funext htree)
  rw [exec_reduction hi, redForm, issue_plainForm h hl (unpoisoned_of_noLaneReads (noLaneReads_across _ _ _ _) _ _), hbody]

theorem scanadd_completes (hd : isSreg d = false) (hp : Unpoisoned t [src a (typeRegs (modeType t.mode))] (activeMask t)) (hspan : 0 < t.cfg.span)
    (hl : Legal (.scanadd d a) t false (fun ty => decide (ty ≤ 10)) [dst d (typeRegs (modeType t.mode)), across a (typeRegs (modeType t.mode))]) :
    let r (k : Nat) : Nat × BitVec 5 := foldRow (nodeOp .add t.mode none) (identity .add t.mode, 0)
      ((List.range (k % t.cfg.span + 1)).map (fun e => spanRead t c.lit (activeMask t) a (typeRegs (modeType t.mode)) (identity .add t.mode) k e))
    Completes (.scanadd d a) s u t (lanesOn t) d (typeRegs (modeType t.mode)) (fun k => (r k).1)
      (flagsOf (slotsOf t.cfg.capacity (lanesOn t)) (fun k => (r k).2)) := by
  intro r
  have hdst : d.isDst = true := ((Bool.and_eq_true _ _).mp hl.fields).1
  refine completes_of_laneEff (lit := c.lit) (regsExist_of_opndOk hdst (typeRegs_dvd _) (opndOk_of_opndsOk_cons hl.operands)) hd ?_
  have hrow (k : Nat) : (spanInputs .add a (issueOfTeam u t c.lit) k).take (k % t.cfg.span + 1) =
      (List.range (k % t.cfg.span + 1)).map (fun e => spanRead t c.lit (activeMask t) a (typeRegs (modeType t.mode)) (identity .add t.mode) k e) := by
    rw [spanInputs_eq, ← List.map_take, List.take_range, Nat.min_eq_left (Nat.mod_lt _ hspan)]
  have hbody : scanBody d a s (issueOfTeam u t c.lit) = laneEff d (typeRegs (modeType t.mode)) (lanesOn t) r s (issueOfTeam u t c.lit) := by
    unfold scanBody
    rw [crossEff_clean hd hp]
    exact congrArg (fun f => laneEff d _ _ f s _) (funext fun k => congrArg (foldRow _ _) (hrow k))
  have hexec : exec (.scanadd d a) s = issue (.scanadd d a)
    (plainForm (fun ty => decide (ty ≤ 10)) (fun ty => [dst d (typeRegs ty), across a (typeRegs ty)])) (scanBody d a) s := rfl
  rw [hexec, issue_plainForm h hl (unpoisoned_of_noLaneReads (noLaneReads_across _ _ _ _) _ _), hbody]

/-- An s destination of a reduction or of SCANADD (R266). -/
theorem reduction_sreg_traps {i : Instr} {types : Nat → Bool}
    (hi : (i, types) ∈ (.scanadd d a, fun ty => decide (ty ≤ 10)) :: (reductions d a).map (fun p => (p.1, nodeType p.2))) (hw : i.wellFormed = true)
    (hretry : t.retry = none) (hty : types (modeType t.mode) = true) (hd : isSreg d = true) : Traps i s u .illegalOp t.exec := by
  have hclean (m n : Nat) : Unpoisoned t [dst d m, across a n] (lanesOn t) := unpoisoned_of_noLaneReads (noLaneReads_across d a m n) _ _
  rcases List.mem_cons.mp hi with heq | hmem
  · obtain ⟨rfl, rfl⟩ := Prod.mk.inj heq
    exact traps_illegalOp (ops := fun ty => [dst d (typeRegs ty), across a (typeRegs ty)]) (body := scanBody d a) h rfl hw hty hretry (hclean _ _)
      (crossEff_sreg hd)
  · obtain ⟨⟨i, n⟩, hred, heq⟩ := List.mem_map.mp hmem
    obtain ⟨rfl, rfl⟩ := Prod.mk.inj heq
    exact traps_illegalOp (ops := fun ty => [dst d (typeRegs ty), across a (typeRegs ty)]) (body := redBody n d a) h (exec_reduction hred s) hw hty hretry
      (hclean _ _) (if_pos hd)

end Issued

/-- Settles O19: the tree by halves, the row of SCANADD, and the identities and nodes by the kinds of TYPE. -/
theorem reductionsFollowTheTree : Obligations.ReductionsFollowTheTree := by
  unfold Obligations.ReductionsFollowTheTree
  refine ⟨fun s u t c d a ring j h hring hd hspan => ?_, fun s u t c d a i types hi h hw hretry hty hd => reduction_sreg_traps h hi hw hretry hty hd,
    fun mode ring x y => ⟨fun hint => ⟨fun n v => identity_integer hint, fun n g hn => nodeOp_integer hint hn ring x y⟩,
      fun hfp => ⟨fun n v => identity_float hfp, fun n g hn => ?_⟩, fun hring => ?_⟩⟩
  · exact fun hp => ⟨fun i g hi hl => reduction_completes h hring hd hspan hp hi hl,
      fun hl => scanadd_completes h hd hp (hspan ▸ Nat.two_pow_pos j) hl⟩
  · rw [nodeOp_float hfp hn]
    exact ⟨mapElems_flags _ _, holds_mapElems _ _⟩
  · obtain ⟨hadd, hunion⟩ := identity_ring hring
    exact ⟨hadd, hunion, fun r hr hform => hr ▸ nodeOp_add_ring hring hform x y, rfl⟩

end Sys2Proof.Machine
end

section
/-! PROOFS. ISECT on a team whose span is wider than R100 allows: the model packs the two spanlanes of an output with OR, the statement adds them, and from spanlane
256 on the two differ. -/

namespace Sys2Proof.Machine

/-- n registers from d in a lane of a team, in the state an outcome goes on in. -/
def registersAfter (o : Host.Outcome State Fault Refusal) (u k : Nat) (d : Sel) (n : Nat) : Option Nat :=
  match o with
  | .next s => (tblGet s.teams u).map (fun t => numOf t k d n)
  | _ => none

theorem vregs_popEntry (t : Team) : (popEntry t).vregs = t.vregs := by
  unfold popEntry
  split <;> rfl

theorem vregs_arriveHw (n : Nat) (t : Team) : (arriveHw n t).vregs = t.vregs := by
  induction n generalizing t with
  | zero => rfl
  | succ n ih =>
    rw [arriveHw]
    split
    · rw [ih, vregs_popEntry]
    · rfl

/-- Going on to the next word leaves the v registers. -/
theorem vregs_stepTeam (t : Team) : (stepTeam t).vregs = t.vregs := by
  unfold stepTeam
  cases t.clause with
  | none => rfl
  | some c =>
    dsimp only
    split_ifs
    · rfl
    · exact vregs_arriveHw _ _
    · rfl
    · exact vregs_arriveHw _ _

theorem numOf_stepTeam (t : Team) (k r n : Nat) : numOf (stepTeam t) k (.v r) n = numOf t k (.v r) n :=
  numOf_congr fun j _ => congrArg (wordGet · (192 * k + (r + j))) (vregs_stepTeam t)

theorem registersAfter_stepOn (s : State) (u : Nat) (t : Team) (k r n : Nat) :
    registersAfter (.next (stepOn (s.setTeam u t) u)) u k (.v r) n = some (numOf t k (.v r) n) := by
  unfold registersAfter stepOn
  dsimp only
  rw [State.updTeam_of_some (State.team_setTeam_self s u t), State.team_setTeam_self, Option.map_some, numOf_stepTeam]

/-! ## The machine: a span of 512 lanes, of which lanes 1 and 256 are ACTIVE -/

def wideClause : Clause := { header := 0x1000, words := [0], idx := 1, reads := 0, others := 1, target := [] }

/-- Team 256 of its launch. -/
def wideTeam : Team :=
  { newTeam 0 { ring := 0, seq := 0, ctx := 0, entry := 0x1000, args := 0, handler := none, fsbase := 0, fssize := 0, savebase := 0, teams := 257, lanes := 512,
                capacity := 512, span := 512, budget := 16, scratch := 0, rings := 0, prio := 0, fuse := false, model := none, placed := 256, ended := 0,
                clusters := [] } 0 0 0 with clause := some wideClause, exec := slotMask 1 ||| slotMask 256 }

def wideS : State := { State.reset with teams := [(0, wideTeam)], cur := some 0 }

/-- ISECT of the lists 1, 256 (the lanes' own numbers) and 256, 256 (the team's): its one output has the spanlanes 256 and 1 as its sources. -/
def wideIsect : Instr := .isect (.v 0) .laneid .teamid

theorem wide_issuing : Issuing wideS 0 wideTeam wideClause := ⟨rfl, rfl, rfl, rfl, rfl⟩

theorem wide_legal : Legal wideIsect wideTeam false anyType [dst (.v 0) 2, across .laneid 1, across .teamid 1] :=
  ⟨by decide +kernel, by decide +kernel, rfl⟩

theorem wide_unpoisoned : Unpoisoned wideTeam [src .laneid 1, src .teamid 1] (activeMask wideTeam) := by unfold Unpoisoned; decide +kernel

theorem wide_lane : 1 ∈ lanesFor wideTeam (.v 0) (lanesOn wideTeam) := by decide +kernel

/-- The model's source word of the output is 256 ||| 1 <<< 8. -/
theorem wide_registers : registersAfter (exec wideIsect wideS) 0 1 (.v 0) 2 = some (256 + 2 ^ 32 * (2 + 2 ^ 8 * 1 + 2 ^ 16 * 1)) := by decide +kernel

/-- Refutes O20, in its clause on ISECT: nothing there bounds the span, and for the spanlanes 256 and 1 as an output's sources the model's word is
256 ||| 1 <<< 8 = 256, the statement's 256 + 2 ^ 8 = 512. The counterexample is a team whose span is 512, where R100 allows 16, 32 and 64. -/
theorem not_spanListsAndEqualValues : ¬ Obligations.SpanListsAndEqualValues := by
  unfold Obligations.SpanListsAndEqualValues
  rintro ⟨-, hlists, -⟩
  obtain ⟨hisect, -, -⟩ := hlists _ _ _ _ (.v 0) .laneid .teamid wide_issuing rfl
  obtain ⟨t1, hexec, hwrote⟩ := hisect wide_legal wide_unpoisoned
  have hmodel := wide_registers
  rw [wideIsect, hexec, registersAfter_stepOn, hwrote.value 1 wide_lane, Option.some_inj] at hmodel
  revert hmodel
  decide +kernel

end Sys2Proof.Machine
end

section
/-! PROOFS. RoundTo (R123): rounding an exact magnitude, given by its leading bits and whether more follow, is rounding once in the sense of the statements. The
magnitude is any number of an ordered field, so that roots are covered too. -/

namespace Sys2Proof.Machine

/-! ## Formats (R122) -/

/-- A format has an exponent of two bits and a fraction of one at least. -/
structure FpFmt.Sized (f : FpFmt) : Prop where
  exponent : 2 ≤ f.eb
  fraction : 1 ≤ f.fb

theorem sized_of_mem_formats {f : FpFmt} (h : f ∈ formats) : f.Sized := by
  simp only [formats, List.mem_cons, List.not_mem_nil, or_false] at h
  rcases h with rfl | rfl | rfl | rfl <;> exact ⟨by decide, by decide⟩

theorem FpFmt.Sized.two_pow_eb {f : FpFmt} (h : f.Sized) : 2 ^ f.eb = 2 * f.bias + 2 := by
  have hpow : 2 ^ f.eb = 2 * 2 ^ (f.eb - 1) := by rw [← Nat.pow_succ', Nat.succ_eq_add_one, Nat.sub_add_cancel (by have := h.exponent; omega)]
  have : 0 < 2 ^ (f.eb - 1) := by positivity
  rw [FpFmt.bias]
  omega

theorem FpFmt.Sized.infBits_eq {f : FpFmt} (h : f.Sized) : f.infBits = (2 * f.bias + 1) * 2 ^ f.fb := by
  rw [FpFmt.infBits, h.two_pow_eb]
  rfl

theorem FpFmt.Sized.bias_pos {f : FpFmt} (h : f.Sized) : 1 ≤ f.bias := by
  have : 2 ^ 1 ≤ 2 ^ (f.eb - 1) := Nat.pow_le_pow_right (by decide) (by have := h.exponent; omega)
  rw [FpFmt.bias]
  omega

theorem FpFmt.Sized.even_two_pow_fb {f : FpFmt} (h : f.Sized) : 2 ^ f.fb % 2 = 0 := by
  obtain ⟨k, hk⟩ := Nat.exists_eq_add_of_le h.fraction
  rw [hk, Nat.pow_add]
  omega

/-- The encoding of a significand n at the exponent qmin + j, whose first binade is the subnormals'; 2^(fb + 1) is the first of the next binade. -/
theorem magnitude_significand (f : FpFmt) {j n : Nat} (h : j = 0 ∨ 2 ^ f.fb ≤ n) (hn : n ≤ 2 ^ (f.fb + 1)) :
    magnitude f (j * 2 ^ f.fb + n) = n * (2 : ℚ) ^ (f.qmin + j) := by
  have hpos : 0 < 2 ^ f.fb := by positivity
  rw [Nat.pow_succ] at hn
  unfold magnitude
  rcases Nat.lt_or_ge n (2 ^ f.fb) with hlow | hhigh
  · obtain rfl : j = 0 := h.resolve_right (by omega)
    rw [Nat.zero_mul, Nat.zero_add, if_pos (Nat.div_eq_of_lt hlow)]
    simp
  · have hsum : j * 2 ^ f.fb + n = n - 2 ^ f.fb + (j + 1) * 2 ^ f.fb := by rw [Nat.succ_mul]; omega
    rw [hsum]
    rcases Nat.lt_or_ge n (2 ^ f.fb * 2) with hlt | hge
    · rw [Nat.add_mul_div_right _ _ hpos, Nat.add_mul_mod_self_right, Nat.div_eq_of_lt (by omega), Nat.mod_eq_of_lt (by omega), if_neg (by omega),
        show 2 ^ f.fb + (n - 2 ^ f.fb) = n by omega]
      congr 2
      push_cast
      ring
    · obtain rfl : n = 2 ^ f.fb * 2 := by omega
      rw [show 2 ^ f.fb * 2 - 2 ^ f.fb + (j + 1) * 2 ^ f.fb = (j + 2) * 2 ^ f.fb by rw [Nat.add_mul, Nat.add_mul]; omega, Nat.mul_div_cancel _ hpos,
        Nat.mul_mod_left, if_neg (by omega), show f.qmin + ((j + 2 : Nat) : Int) - 1 = f.qmin + j + 1 by push_cast; ring, zpow_add_one₀ (by norm_num)]
      push_cast
      ring

/-! ## Where a magnitude lies between two multiples of a power of two -/

section Field
variable {K : Type} [Field K] [LinearOrder K] [IsStrictOrderedRing K]

theorem two_zpow_pos' (k : Int) : (0 : K) < (2 : K) ^ k := zpow_pos (by norm_num) k

/-- w lies at or above n, below n + 1: 0 on n, 1 below the midpoint, 2 on it, 3 above it. -/
def LiesAt (w : K) (n pos : Nat) : Prop :=
  (pos = 0 ∧ w = n) ∨ (pos = 1 ∧ n < w ∧ w < n + 1 / 2) ∨ (pos = 2 ∧ w = n + 1 / 2) ∨ (pos = 3 ∧ n + 1 / 2 < w ∧ w < n + 1)

section Position
variable {w : K} {n pos : Nat} (h : LiesAt w n pos)
include h

theorem LiesAt.le : (n : K) ≤ w := by
  rcases h with ⟨-, h⟩ | ⟨-, h, -⟩ | ⟨-, h⟩ | ⟨-, h, -⟩ <;> linarith

theorem LiesAt.lt : w < n + 1 := by
  rcases h with ⟨-, h⟩ | ⟨-, -, h⟩ | ⟨-, h⟩ | ⟨-, -, h⟩ <;> linarith

omit [IsStrictOrderedRing K] in
theorem LiesAt.pos_le : pos ≤ 3 := by
  rcases h with ⟨h, -⟩ | ⟨h, -⟩ | ⟨h, -⟩ | ⟨h, -⟩ <;> omega

theorem LiesAt.exact_iff : w = n ↔ pos = 0 := by
  rcases h with ⟨rfl, h⟩ | ⟨rfl, h, -⟩ | ⟨rfl, h⟩ | ⟨rfl, h, -⟩
  · simp [h]
  · simp [h.ne']
  · simp [h]
  · simp only [OfNat.ofNat_ne_zero, iff_false]
    linarith

theorem LiesAt.half_iff : w = n + 1 / 2 ↔ pos = 2 := by
  rcases h with ⟨rfl, h⟩ | ⟨rfl, -, h⟩ | ⟨rfl, h⟩ | ⟨rfl, h, -⟩
  · simp [h]
  · simp [-one_div, h.ne]
  · simp [h]
  · simp [-one_div, h.ne']

theorem LiesAt.above_iff : n + 1 / 2 < w ↔ pos = 3 := by
  rcases h with ⟨rfl, h⟩ | ⟨rfl, -, h⟩ | ⟨rfl, h⟩ | ⟨rfl, h, -⟩
  · simp [h]
  · simp [-one_div, h.le]
  · simp [h]
  · simp [-one_div, h]

end Position

/-- The integer a number lies above is determined by the number. -/
theorem LiesAt.le_iff {w : K} {n pos : Nat} (h : LiesAt w n pos) (k : Nat) : (k : K) ≤ w ↔ k ≤ n := by
  constructor
  · intro hk
    have : (k : K) < ((n + 1 : Nat) : K) := by push_cast; exact hk.trans_lt h.lt
    exact Nat.lt_succ_iff.mp (by exact_mod_cast this)
  · exact fun hk => le_trans (by exact_mod_cast hk) h.le

section Scaled
variable {V : K} {q : Int} {n pos : Nat} (h : LiesAt (V * 2 ^ (-q)) n pos)

theorem scaled_lt_iff (V x : K) (q : Int) : V < x * 2 ^ q ↔ V * 2 ^ (-q) < x := by
  rw [zpow_neg, ← div_eq_mul_inv, div_lt_iff₀ (two_zpow_pos' q)]

theorem lt_scaled_iff (V x : K) (q : Int) : x * 2 ^ q < V ↔ x < V * 2 ^ (-q) := by
  rw [zpow_neg, ← div_eq_mul_inv, lt_div_iff₀ (two_zpow_pos' q)]

theorem scaled_eq_iff (V x : K) (q : Int) : V = x * 2 ^ q ↔ V * 2 ^ (-q) = x := by
  rw [zpow_neg, ← div_eq_mul_inv, div_eq_iff (two_zpow_pos' q).ne']

include h

theorem LiesAt.scaled_lt : V < (n + 1) * 2 ^ q := (scaled_lt_iff _ _ _).mpr h.lt

theorem LiesAt.scaled_le_iff (k : Nat) : k * 2 ^ q ≤ V ↔ k ≤ n := by
  rw [← h.le_iff, ← not_lt, scaled_lt_iff, not_lt]

theorem LiesAt.scaled_exact_iff : V = n * 2 ^ q ↔ pos = 0 := (scaled_eq_iff _ _ _).trans h.exact_iff

theorem LiesAt.scaled_half_iff : V = (n + 1 / 2) * 2 ^ q ↔ pos = 2 := (scaled_eq_iff _ _ _).trans h.half_iff

theorem LiesAt.scaled_above_iff : (n + 1 / 2) * 2 ^ q < V ↔ pos = 3 := (lt_scaled_iff _ _ _).trans h.above_iff

end Scaled

/-- The model's test of a position is the one of R123. -/
theorem roundsUp_iff {rnd n pos : Nat} {neg : Bool} {N exact above half : Prop} (hrnd : rnd ≤ 4) (hpos : pos ≤ 3) (hneg : neg = true ↔ N)
    (hexact : exact ↔ pos = 0) (habove : above ↔ pos = 3) (hhalf : half ↔ pos = 2) :
    roundsUp rnd neg (decide (n % 2 = 1)) pos = true ↔ goesUp rnd N n exact above half := by
  unfold goesUp roundsUp
  rw [hexact, habove, hhalf, ← hneg]
  interval_cases rnd <;> simp
  omega

/-- V is m × 2^e, or lies between that and the next multiple of 2^e when more bits follow. -/
def LeadingBits (V : K) (m : Nat) (e : Int) (sticky : Bool) : Prop :=
  if sticky then (m : K) * 2 ^ e < V ∧ V < (m + 1) * 2 ^ e else V = m * 2 ^ e

/-- The remainder of an exact division by 2^k, against half of 2^k. -/
theorem liesAt_of_remainder {x δ : K} {d r H : Nat} (hH : 1 ≤ H) (hr : r < 2 * H) (hx : x * (2 * H) = 2 * H * d + (r + δ)) (h0 : 0 ≤ δ) (h1 : δ < 1) :
    LiesAt x d (if r = 0 then (if δ = 0 then 0 else 1) else if r < H then 1 else if r = H then (if δ = 0 then 2 else 3) else 3) := by
  have hHK : (1 : K) ≤ H := by exact_mod_cast hH
  have hx' : x = d + (r + δ) / (2 * H) := by field_simp; linarith
  have hlt {a : K} : x < d + a ↔ r + δ < a * (2 * H) := by rw [hx', add_lt_add_iff_left, div_lt_iff₀ (by linarith)]
  have hgt {a : K} : d + a < x ↔ a * (2 * H) < r + δ := by rw [hx', add_lt_add_iff_left, lt_div_iff₀ (by linarith)]
  have heq {a : K} : x = d + a ↔ r + δ = a * (2 * H) := by rw [hx', add_right_inj, div_eq_iff (by linarith)]
  have hpos : (d : K) < x ↔ 0 < r + δ := by simpa using hgt (a := 0)
  split_ifs with hr0 hδ hrH hrH' hδ
  · exact .inl ⟨rfl, by simpa [hr0, hδ] using heq (a := 0)⟩
  · have : 0 < δ := lt_of_le_of_ne h0 (Ne.symm hδ)
    refine .inr (.inl ⟨rfl, hpos.mpr ?_, hlt.mpr ?_⟩) <;> simp only [hr0, Nat.cast_zero] <;> linarith
  · have h1r : (1 : K) ≤ r := by exact_mod_cast Nat.one_le_iff_ne_zero.mpr hr0
    have hr1 : (r : K) + 1 ≤ H := by exact_mod_cast hrH
    exact .inr (.inl ⟨rfl, hpos.mpr (by linarith), hlt.mpr (by linarith)⟩)
  · exact .inr (.inr (.inl ⟨rfl, heq.mpr (by rw [hrH', hδ]; ring)⟩))
  · have : 0 < δ := lt_of_le_of_ne h0 (Ne.symm hδ)
    refine .inr (.inr (.inr ⟨rfl, hgt.mpr ?_, hlt.mpr ?_⟩)) <;> rw [hrH'] <;> linarith
  · have hHr : (H : K) + 1 ≤ r := by exact_mod_cast (by omega : H + 1 ≤ r)
    have hr2 : (r : K) + 1 ≤ 2 * H := by exact_mod_cast hr
    exact .inr (.inr (.inr ⟨rfl, hgt.mpr (by linarith), hlt.mpr (by linarith)⟩))

/-- splitAt gives the multiple of 2^q at or below a magnitude, and where it lies above; bits that follow must lie below 2^q. -/
theorem liesAt_splitAt {V : K} {m : Nat} {e q : Int} {sticky : Bool} (h : LeadingBits V m e sticky) (hq : sticky = true → e < q) :
    LiesAt (V * 2 ^ (-q)) (splitAt m e sticky q).1 (splitAt m e sticky q).2 := by
  obtain ⟨δ, hV, h0, h1, hδ⟩ : ∃ δ : K, V = (m + δ) * 2 ^ e ∧ 0 ≤ δ ∧ δ < 1 ∧ (δ = 0 ↔ sticky = false) := by
    have hpow := two_zpow_pos' (K := K) e
    refine ⟨V / 2 ^ e - m, by field_simp; ring, ?_⟩
    unfold LeadingBits at h
    cases sticky with
    | false =>
      simp only [Bool.false_eq_true, if_false] at h
      rw [h, mul_div_cancel_right₀ _ hpow.ne', sub_self]
      simp
    | true =>
      simp only [if_true] at h
      have hlow := (lt_div_iff₀ hpow).mpr h.1
      have hhigh := (div_lt_iff₀ hpow).mpr h.2
      exact ⟨by linarith, by linarith, by simp only [Bool.true_eq_false, iff_false]; linarith⟩
  rw [hV, mul_assoc, ← zpow_add₀ (by norm_num), ← sub_eq_add_neg]
  unfold splitAt
  split
  next hle =>
    obtain rfl : sticky = false := by
      cases hs : sticky with
      | false => rfl
      | true => exact absurd (hq hs) (by omega)
    obtain ⟨k, hk⟩ := Int.eq_ofNat_of_zero_le (sub_nonneg.mpr hle)
    rw [hδ.mpr rfl, hk]
    exact .inl ⟨rfl, by push_cast; rw [Int.toNat_natCast, add_zero, zpow_natCast]⟩
  next hgt =>
    obtain ⟨k, hk⟩ : ∃ k : Nat, q - e = ((k + 1 : Nat) : Int) := ⟨(q - e - 1).toNat, by push_cast; omega⟩
    have hscale (y : K) : y * 2 ^ (e - q) * (2 * (2 ^ k : Nat)) = y := by
      rw [show e - q = -((k + 1 : Nat) : Int) by omega, zpow_neg, zpow_natCast, pow_succ', Nat.cast_pow, Nat.cast_ofNat]
      field_simp
    have hpow : 2 ^ (k + 1) = 2 * 2 ^ k := Nat.pow_succ'
    rw [hk, Int.toNat_natCast]
    dsimp only
    split
    next hsmall =>
      have hm : m < 2 ^ k := lt_of_lt_of_le Nat.lt_log2_self (Nat.pow_le_pow_right (by decide) (by omega))
      have hlies := liesAt_of_remainder (d := 0) (Nat.one_le_two_pow (n := k)) (by omega : m < 2 * 2 ^ k)
        (by rw [hscale]; simp : ((m : K) + δ) * 2 ^ (e - q) * (2 * (2 ^ k : Nat)) = 2 * (2 ^ k : Nat) * (0 : Nat) + (m + δ)) h0 h1
      simp only [if_pos hm, hδ] at hlies
      cases sticky <;> by_cases hm0 : m = 0 <;> simpa [hm0] using hlies
    next hbig =>
      have hr : m % 2 ^ (k + 1) < 2 * 2 ^ k := hpow ▸ Nat.mod_lt _ (by positivity)
      have hdiv : (m : K) = 2 * (2 ^ k : Nat) * ((m / 2 ^ (k + 1) : Nat) : K) + ((m % 2 ^ (k + 1) : Nat) : K) := by
        have := Nat.div_add_mod m (2 ^ (k + 1))
        rw [hpow] at this ⊢
        exact_mod_cast this.symm
      have hlies := liesAt_of_remainder (d := m / 2 ^ (k + 1)) (Nat.one_le_two_pow (n := k)) hr
        (by rw [hscale]; conv_lhs => rw [hdiv]
            ring : ((m : K) + δ) * 2 ^ (e - q) * (2 * (2 ^ k : Nat)) = _ + (((m % 2 ^ (k + 1) : Nat) : K) + δ)) h0 h1
      simp only [hδ] at hlies
      rw [Nat.add_sub_cancel]
      cases sticky <;> simpa using hlies

end Field

end Sys2Proof.Machine
end

section
/-! PROOFS. fpRound (R123, R128) is RoundTo: the neighbours, the choice between them, overflow, and tininess after rounding. -/

namespace Sys2Proof.Machine

/-! ## fpRound, part by part -/

/-- The exponent of the last bit kept of a magnitude whose top bit weighs 2^top. -/
def quantum (f : FpFmt) (top : Int) : Int := if top - f.fb < f.qmin then f.qmin else top - f.fb

theorem quantum_spec (f : FpFmt) (top : Int) : f.qmin ≤ quantum f top ∧ top - f.fb ≤ quantum f top ∧ (quantum f top = f.qmin ∨ quantum f top = top - f.fb) := by
  unfold quantum
  split <;> omega

/-- One more where a significand rounds up. -/
def roundingUp (rnd : Nat) (neg : Bool) (s : Nat × Nat) : Nat := if roundsUp rnd neg (decide (s.1 % 2 = 1)) s.2 then 1 else 0

/-- The magnitude that overflow gives: infinity, or the largest finite one under a rounding toward zero. -/
def overflowMag (f : FpFmt) (rnd : Nat) (neg : Bool) : Nat :=
  if rnd = 1 ∨ (rnd = 2 ∧ neg) ∨ (rnd = 3 ∧ !neg) then f.infBits - 1 else f.infBits

/-- Tininess after rounding (R128): rounded to fb + 1 bits, the magnitude lies below the least normal number. -/
def roundsTiny (f : FpFmt) (rnd : Nat) (neg : Bool) (m : Nat) (e : Int) (sticky : Bool) : Bool :=
  let qu := e + (Nat.log2 m : Int) - f.fb
  let su := splitAt m e sticky qu
  decide (qu < f.qmin) && !(decide (qu + 1 = f.qmin) && decide (su.1 + roundingUp rnd neg su = 2 ^ (f.fb + 1)))

/-- The encoding of the significand kept, and what rounding adds to it. -/
def keptCode (f : FpFmt) (m : Nat) (e : Int) (sticky : Bool) : Nat :=
  (quantum f (e + Nat.log2 m) - f.qmin).toNat * 2 ^ f.fb + (splitAt m e sticky (quantum f (e + Nat.log2 m))).1

theorem keptCode_mod_two {f : FpFmt} (hf : f.Sized) (m : Nat) (e : Int) (sticky : Bool) :
    keptCode f m e sticky % 2 = (splitAt m e sticky (quantum f (e + Nat.log2 m))).1 % 2 := by
  rw [keptCode, Nat.add_mod, Nat.mul_mod, hf.even_two_pow_fb]
  simp

theorem fpRound_eq (f : FpFmt) (rnd : Nat) (neg : Bool) (m : Nat) (e : Int) (sticky : Bool) :
    fpRound f rnd neg m e sticky =
      let s := splitAt m e sticky (quantum f (e + Nat.log2 m))
      let code := keptCode f m e sticky + roundingUp rnd neg s
      if (f.bias : Int) + 1 < e + Nat.log2 m ∨ f.infBits ≤ code then (fpSign f neg + overflowMag f rnd neg, fpOF ||| fpNX)
      else (fpSign f neg + code, (if s.2 = 0 then 0 else fpNX) ||| (if s.2 ≠ 0 ∧ roundsTiny f rnd neg m e sticky then fpUF else 0)) := by
  have hovf : (if rnd = 1 ∨ (rnd = 2 ∧ neg) ∨ (rnd = 3 ∧ !neg) then fpSign f neg + (f.infBits - 1) else fpSign f neg + f.infBits) =
      fpSign f neg + overflowMag f rnd neg := (apply_ite (fpSign f neg + ·) _ _ _).symm
  unfold fpRound
  dsimp only
  rw [hovf]
  by_cases htop : (f.bias : Int) + 1 < e + Nat.log2 m
  · rw [if_pos htop, if_pos (.inl htop)]
  · rw [if_neg htop]
    simp only [htop, false_or, keptCode, Nat.add_assoc]
    rfl

theorem roundsUp_pos_ne {rnd pos : Nat} {neg odd : Bool} (h : roundsUp rnd neg odd pos = true) : pos ≠ 0 := by
  rintro rfl
  unfold roundsUp at h
  split_ifs at h <;> simp at h

/-- A rounding away from zero overflows to infinity. -/
theorem overflowMag_of_roundsUp {f : FpFmt} {rnd pos : Nat} {neg odd : Bool} (h : roundsUp rnd neg odd pos = true) : overflowMag f rnd neg = f.infBits := by
  unfold overflowMag
  rw [if_neg]
  rintro (rfl | ⟨rfl, hn⟩ | ⟨rfl, hn⟩)
  · simp [roundsUp] at h
  · simp [roundsUp, hn] at h
  · simp only [Bool.not_eq_true'] at hn
    simp [roundsUp, hn] at h

/-- The exceptions of a result that does not overflow. -/
theorem inexact_flags (a b : Prop) [Decidable a] [Decidable b] :
    let e : BitVec 5 := (if a then 0 else fpNX) ||| (if b then fpUF else 0)
    (e &&& fpNX ≠ 0 ↔ ¬ a) ∧ e &&& fpOF = 0 ∧ (e &&& fpUF ≠ 0 ↔ b) ∧ e &&& (fpNV ||| fpDZ) = 0 := by
  by_cases ha : a <;> by_cases hb : b <;> simp only [ha, hb, if_true, if_false] <;> decide

/-- A magnitude whose significand kept has a finite encoding: the result is that encoding or the next one, infinity where that is the next. -/
theorem fpRound_of_fits {f : FpFmt} {rnd : Nat} {neg : Bool} {m : Nat} {e : Int} {sticky : Bool} (htop : ¬ (f.bias : Int) + 1 < e + Nat.log2 m)
    (hcode : keptCode f m e sticky < f.infBits) (htiny : f.infBits ≤ keptCode f m e sticky + 1 → roundsTiny f rnd neg m e sticky = false) :
    let s := splitAt m e sticky (quantum f (e + Nat.log2 m))
    let r := fpRound f rnd neg m e sticky
    r.1 = fpSign f neg + (keptCode f m e sticky + roundingUp rnd neg s) ∧ (r.2 &&& fpNX ≠ 0 ↔ ¬ s.2 = 0) ∧
      (r.2 &&& fpOF ≠ 0 ↔ r.1 = fpSign f neg + f.infBits) ∧ (r.2 &&& fpUF ≠ 0 ↔ ¬ s.2 = 0 ∧ roundsTiny f rnd neg m e sticky = true) ∧
      r.2 &&& (fpNV ||| fpDZ) = 0 := by
  dsimp only
  rw [fpRound_eq]
  dsimp only
  generalize splitAt m e sticky (quantum f (e + Nat.log2 m)) = s
  by_cases hover : f.infBits ≤ keptCode f m e sticky + roundingUp rnd neg s
  · have hup : roundsUp rnd neg (decide (s.1 % 2 = 1)) s.2 = true := by
      by_contra hno
      rw [roundingUp, if_neg hno] at hover
      omega
    have hone : roundingUp rnd neg s = 1 := if_pos hup
    rw [if_pos (.inr hover), overflowMag_of_roundsUp hup, htiny (hone ▸ hover), hone]
    dsimp only
    exact ⟨by omega, iff_of_true (by decide) (roundsUp_pos_ne hup), iff_of_true (by decide) rfl, iff_of_false (by decide) (by simp), by decide⟩
  · rw [if_neg (by simp [htop, hover])]
    obtain ⟨hnx, hof, huf, hrest⟩ := inexact_flags (s.2 = 0) (s.2 ≠ 0 ∧ roundsTiny f rnd neg m e sticky = true)
    exact ⟨rfl, hnx, iff_of_false (not_not.mpr hof) (by omega), huf, hrest⟩

section Field
variable {K : Type} [Field K] [LinearOrder K] [IsStrictOrderedRing K]

/-! ## The significand kept -/

/-- The top bit of a magnitude. -/
theorem LeadingBits.top {V : K} {m : Nat} {e : Int} {sticky : Bool} (h : LeadingBits V m e sticky) (hm : m ≠ 0) :
    2 ^ (e + Nat.log2 m) ≤ V ∧ V < 2 ^ (e + Nat.log2 m + 1) := by
  have hpow := two_zpow_pos' (K := K) e
  have hlow : ((2 ^ Nat.log2 m : Nat) : K) ≤ m := by exact_mod_cast Nat.log2_self_le hm
  have hhigh : (m : K) + 1 ≤ ((2 ^ (Nat.log2 m + 1) : Nat) : K) := by exact_mod_cast Nat.lt_log2_self
  have hV : (m : K) * 2 ^ e ≤ V ∧ V < (m + 1) * 2 ^ e := by
    unfold LeadingBits at h
    cases sticky with
    | false =>
      simp only [Bool.false_eq_true, if_false] at h
      rw [h]
      exact ⟨le_rfl, mul_lt_mul_of_pos_right (by linarith) hpow⟩
    | true => exact ⟨h.1.le, h.2⟩
  have hsum (k : Nat) : (2 : K) ^ (e + k) = ((2 ^ k : Nat) : K) * 2 ^ e := by rw [zpow_add₀ (by norm_num), zpow_natCast, mul_comm, Nat.cast_pow, Nat.cast_ofNat]
  have hnext : e + (Nat.log2 m : Int) + 1 = e + ((Nat.log2 m + 1 : Nat) : Int) := by push_cast; ring
  rw [hnext, hsum, hsum]
  exact ⟨(mul_le_mul_of_nonneg_right hlow hpow.le).trans hV.1, hV.2.trans_le (mul_le_mul_of_nonneg_right hhigh hpow.le)⟩

section Kept
variable {f : FpFmt} {V : K} {top : Int} {n pos : Nat} (hlow : 2 ^ top ≤ V) (hhigh : V < 2 ^ (top + 1))

include hhigh in
/-- A multiple of 2^q at or below V has fb + 1 bits, where q is at most fb below the top. -/
theorem significand_lt {q : Int} (hq : top - f.fb ≤ q) (h : LiesAt (V * 2 ^ (-q)) n pos) : n < 2 ^ (f.fb + 1) := by
  have hV : V * 2 ^ (-q) < ((2 ^ (f.fb + 1) : Nat) : K) := by
    calc V * 2 ^ (-q) < 2 ^ (top + 1) * 2 ^ (-q) := mul_lt_mul_of_pos_right hhigh (two_zpow_pos' _)
      _ = 2 ^ (top + 1 + -q) := (zpow_add₀ (by norm_num) _ _).symm
      _ ≤ 2 ^ ((f.fb + 1 : Nat) : Int) := zpow_le_zpow_right₀ (by norm_num) (by push_cast; omega)
      _ = ((2 ^ (f.fb + 1) : Nat) : K) := by rw [zpow_natCast, Nat.cast_pow, Nat.cast_ofNat]
  exact_mod_cast h.le.trans_lt hV

include hlow in
/-- Where q lies fb below the top it has all of them. -/
theorem le_significand {q : Int} (hq : q = top - f.fb) (h : LiesAt (V * 2 ^ (-q)) n pos) : 2 ^ f.fb ≤ n := by
  refine (h.le_iff _).mp ?_
  calc ((2 ^ f.fb : Nat) : K) = 2 ^ (top + -q) := by rw [hq, show top + -(top - (f.fb : Int)) = (f.fb : Int) by ring, zpow_natCast, Nat.cast_pow, Nat.cast_ofNat]
    _ = 2 ^ top * 2 ^ (-q) := zpow_add₀ (by norm_num) _ _
    _ ≤ V * 2 ^ (-q) := mul_le_mul_of_nonneg_right hlow (two_zpow_pos' _).le

/-- The encodings of the significand kept and of the next one. -/
theorem magnitude_kept (hn : n < 2 ^ (f.fb + 1)) (hbinade : (quantum f top - f.qmin).toNat = 0 ∨ 2 ^ f.fb ≤ n) :
    ((magnitude f ((quantum f top - f.qmin).toNat * 2 ^ f.fb + n) : ℚ) : K) = n * 2 ^ quantum f top ∧
    ((magnitude f ((quantum f top - f.qmin).toNat * 2 ^ f.fb + n + 1) : ℚ) : K) = (n + 1) * 2 ^ quantum f top := by
  have hexp : f.qmin + ((quantum f top - f.qmin).toNat : Int) = quantum f top := by have := quantum_spec f top; omega
  rw [Nat.add_assoc, magnitude_significand f hbinade hn.le, magnitude_significand f (hbinade.imp id (by omega)) (by omega), hexp]
  push_cast
  exact ⟨rfl, rfl⟩

end Kept

/-- The first magnitude that no finite encoding has, and the least normal number. -/
theorem magnitude_infBits {f : FpFmt} (hf : f.Sized) : ((magnitude f f.infBits : ℚ) : K) = 2 ^ ((f.bias : Int) + 1) := by
  have h := magnitude_significand f (j := 2 * f.bias) (n := 2 ^ f.fb) (.inr le_rfl) (Nat.pow_le_pow_right (by decide) (by omega))
  rw [hf.infBits_eq, Nat.succ_mul, h, Rat.cast_mul, Rat.cast_natCast, Rat.cast_zpow, Rat.cast_ofNat, Nat.cast_pow, Nat.cast_ofNat, ← zpow_natCast,
    ← zpow_add₀ (by norm_num), FpFmt.qmin]
  congr 1
  push_cast
  ring

theorem magnitude_normal (f : FpFmt) : magnitude f (2 ^ f.fb) = 2 ^ f.fb * (2 : ℚ) ^ f.qmin := by
  have h := magnitude_significand f (j := 0) (n := 2 ^ f.fb) (.inl rfl) (Nat.pow_le_pow_right (by decide) (by omega))
  simpa using h

/-! ## Tininess (R128) -/

/-- The greatest magnitude of fb + 1 bits below the least normal number, and the midpoint of the two. -/
def underNormal (f : FpFmt) : ℚ := magnitude f (2 ^ f.fb) - (2 : ℚ) ^ f.qmin / 2
def halfNormal (f : FpFmt) : ℚ := (underNormal f + magnitude f (2 ^ f.fb)) / 2

section Units
variable (f : FpFmt)

theorem two_zpow_qmin : (2 : K) ^ f.qmin = 2 * 2 ^ (f.qmin - 1) := by
  rw [← zpow_one_add₀ (by norm_num)]
  congr 1
  ring

/-- The least normal number and the two below it, in units of half the least subnormal one. -/
theorem normal_eq : ((magnitude f (2 ^ f.fb) : ℚ) : K) = ((2 ^ (f.fb + 1) : Nat) : K) * 2 ^ (f.qmin - 1) := by
  rw [magnitude_normal]
  push_cast
  rw [two_zpow_qmin]
  ring

theorem underNormal_eq : ((underNormal f : ℚ) : K) = ((2 ^ (f.fb + 1) - 1 : Nat) : K) * 2 ^ (f.qmin - 1) := by
  rw [Nat.cast_sub Nat.one_le_two_pow, sub_mul, ← normal_eq, underNormal]
  push_cast
  rw [two_zpow_qmin]
  ring

theorem halfNormal_eq : ((halfNormal f : ℚ) : K) = (((2 ^ (f.fb + 1) - 1 : Nat) : K) + 1 / 2) * 2 ^ (f.qmin - 1) := by
  have hcast : ((halfNormal f : ℚ) : K) = (underNormal f + ((magnitude f (2 ^ f.fb) : ℚ) : K)) / 2 := by rw [halfNormal]; push_cast; rfl
  rw [hcast, underNormal_eq, normal_eq, Nat.cast_sub Nat.one_le_two_pow]
  ring

theorem normal_eq_zpow : ((magnitude f (2 ^ f.fb) : ℚ) : K) = 2 ^ (f.fb + f.qmin) := by
  rw [magnitude_normal, zpow_add₀ (by norm_num), zpow_natCast]
  push_cast
  rfl

theorem underNormal_lt_normal : ((underNormal f : ℚ) : K) < ((magnitude f (2 ^ f.fb) : ℚ) : K) := by
  rw [underNormal_eq, normal_eq]
  exact mul_lt_mul_of_pos_right (by exact_mod_cast Nat.sub_lt (by positivity) Nat.one_pos) (two_zpow_pos' _)

end Units

section Tininess
variable {f : FpFmt} {rnd m : Nat} {neg sticky : Bool} {e : Int} {V : K} (hm : m ≠ 0) (hV : LeadingBits V m e sticky)
include hm hV

/-- At or above the least normal number a magnitude is not tiny. -/
theorem roundsTiny_of_normal (h : ((magnitude f (2 ^ f.fb) : ℚ) : K) ≤ V) : roundsTiny f rnd neg m e sticky = false := by
  have hlt : (2 : K) ^ (f.fb + f.qmin) < 2 ^ (e + Nat.log2 m + 1) := normal_eq_zpow (K := K) f ▸ h.trans_lt (hV.top hm).2
  have := (zpow_lt_zpow_iff_right₀ (by norm_num : (1 : K) < 2)).mp hlt
  simp only [roundsTiny, Bool.and_eq_false_iff, decide_eq_false_iff_not]
  exact .inl (by omega)

/-- Below half of it a magnitude is tiny. -/
theorem lt_underNormal (h : e + (Nat.log2 m : Int) - f.fb + 1 < f.qmin) : V < ((underNormal f : ℚ) : K) := by
  have hnat : 2 ^ f.fb ≤ 2 ^ (f.fb + 1) - 1 := by rw [Nat.pow_succ]; have := Nat.one_le_two_pow (n := f.fb); omega
  calc V < 2 ^ (e + Nat.log2 m + 1) := (hV.top hm).2
    _ ≤ 2 ^ (f.fb + (f.qmin - 1)) := zpow_le_zpow_right₀ (by norm_num) (by omega)
    _ = ((2 ^ f.fb : Nat) : K) * 2 ^ (f.qmin - 1) := by rw [zpow_add₀ (by norm_num), zpow_natCast, Nat.cast_pow, Nat.cast_ofNat]
    _ ≤ underNormal f := by
      rw [underNormal_eq]
      exact mul_le_mul_of_nonneg_right (by exact_mod_cast hnat) (two_zpow_pos' _).le

/-- In the binade below it a magnitude is tiny unless it rounds up from the last of its fb + 1 bits. -/
theorem roundsTiny_of_binade (hrnd : rnd ≤ 4) {N : Prop} (hneg : neg = true ↔ N) (hq : e + (Nat.log2 m : Int) - f.fb = f.qmin - 1)
    (hsticky : sticky = true → e < f.qmin - 1) :
    roundsTiny f rnd neg m e sticky = true ↔ ¬ ((underNormal f : ℚ) : K) ≤ V ∨
      ¬ goesUp rnd N 1 (V = ((underNormal f : ℚ) : K)) (((halfNormal f : ℚ) : K) < V) (V = ((halfNormal f : ℚ) : K)) := by
  have hlies := liesAt_splitAt hV hsticky
  have hbits := significand_lt (hV.top hm).2 hq.le hlies
  have htiny : roundsTiny f rnd neg m e sticky = true ↔
      ¬ (splitAt m e sticky (f.qmin - 1)).1 + roundingUp rnd neg (splitAt m e sticky (f.qmin - 1)) = 2 ^ (f.fb + 1) := by
    have hlt : f.qmin - 1 < f.qmin := by omega
    have heq : f.qmin - 1 + 1 = f.qmin := by omega
    simp only [roundsTiny, hq, hlt, heq, decide_true, Bool.true_and, Bool.not_eq_true', decide_eq_false_iff_not]
  rw [htiny, underNormal_eq, hlies.scaled_le_iff, halfNormal_eq]
  generalize splitAt m e sticky (f.qmin - 1) = su at hlies hbits ⊢
  by_cases hlast : su.1 = 2 ^ (f.fb + 1) - 1
  · have hodd : su.1 % 2 = 1 := by rw [hlast, Nat.pow_succ]; have := Nat.one_le_two_pow (n := f.fb); omega
    rw [← hlast, ← roundsUp_iff (n := 1) hrnd hlies.pos_le hneg hlies.scaled_exact_iff hlies.scaled_above_iff hlies.scaled_half_iff]
    have hdecide : decide (su.1 % 2 = 1) = decide (1 % 2 = 1) := by rw [hodd]
    have := Nat.one_le_two_pow (n := f.fb + 1)
    simp only [roundingUp, hdecide, le_refl, not_true_eq_false, false_or]
    rw [not_iff_not]
    split
    next hup => exact iff_of_true (by omega) hup
    next hup => exact iff_of_false (by omega) hup
  · have hne : ¬ su.1 + roundingUp rnd neg su = 2 ^ (f.fb + 1) := by
      unfold roundingUp
      split <;> omega
    simp only [hne, not_false_eq_true, true_iff]
    exact .inl (by omega)

/-- The model's tininess is that of R128. -/
theorem roundsTiny_iff (hrnd : rnd ≤ 4) {N : Prop} (hneg : neg = true ↔ N) (hsticky : sticky = true → e < e + (Nat.log2 m : Int) - f.fb) :
    roundsTiny f rnd neg m e sticky = true ↔ ¬ ((underNormal f : ℚ) : K) ≤ V ∨ (¬ ((magnitude f (2 ^ f.fb) : ℚ) : K) ≤ V ∧
      ¬ goesUp rnd N 1 (V = ((underNormal f : ℚ) : K)) (((halfNormal f : ℚ) : K) < V) (V = ((halfNormal f : ℚ) : K))) := by
  have hlt := underNormal_lt_normal (K := K) f
  rcases lt_trichotomy (e + (Nat.log2 m : Int) - f.fb + 1) f.qmin with hsub | heq | hnorm
  · have htiny : roundsTiny f rnd neg m e sticky = true := by
      simp only [roundsTiny, Bool.and_eq_true, decide_eq_true_eq, Bool.not_eq_true', Bool.and_eq_false_iff, decide_eq_false_iff_not]
      exact ⟨by omega, .inl (by omega)⟩
    simp only [htiny, true_iff]
    exact .inl (not_le.mpr (lt_underNormal hm hV hsub))
  · have hq : e + (Nat.log2 m : Int) - f.fb = f.qmin - 1 := by omega
    have hVn : ¬ ((magnitude f (2 ^ f.fb) : ℚ) : K) ≤ V := by
      rw [normal_eq_zpow, not_le]
      exact (hV.top hm).2.trans_eq (by congr 1; omega)
    rw [roundsTiny_of_binade hm hV hrnd hneg hq (hq ▸ hsticky)]
    simp only [hVn, not_false_eq_true, true_and]
  · have hVn : ((magnitude f (2 ^ f.fb) : ℚ) : K) ≤ V := by
      rw [normal_eq_zpow]
      exact (zpow_le_zpow_right₀ (by norm_num) (by omega)).trans (hV.top hm).1
    simp [roundsTiny_of_normal hm hV hVn, hVn, hlt.le.trans hVn]

end Tininess

/-! ## RoundTo (R123) -/

section Rounding
variable {f : FpFmt} {rnd m : Nat} {neg sticky : Bool} {e : Int} {V : K} (hf : f.Sized) (hrnd : rnd ≤ 4) (hm : m ≠ 0) (hV : LeadingBits V m e sticky)
  (hsticky : sticky = true → e < e + (Nat.log2 m : Int) - f.fb)
include hm hV

/-- From the next power of two on, the significand kept is beyond the finite encodings, or the exponent is. -/
theorem keptCode_overflows (hf : f.Sized) (h : ((magnitude f f.infBits : ℚ) : K) ≤ V) (hsticky : sticky = true → e < e + (Nat.log2 m : Int) - f.fb) :
    f.infBits ≤ keptCode f m e sticky := by
  have hbias := hf.bias_pos
  have htop : (f.bias : Int) + 1 ≤ e + Nat.log2 m := by
    have hlt : (2 : K) ^ ((f.bias : Int) + 1) < 2 ^ (e + Nat.log2 m + 1) := magnitude_infBits (K := K) hf ▸ h.trans_lt (hV.top hm).2
    have := (zpow_lt_zpow_iff_right₀ (by norm_num : (1 : K) < 2)).mp hlt
    omega
  have hqmin : f.qmin = 1 - f.bias - f.fb := rfl
  have hq : quantum f (e + Nat.log2 m) = e + Nat.log2 m - f.fb := by
    rw [quantum, if_neg (by omega)]
  have hlies := liesAt_splitAt (q := quantum f (e + Nat.log2 m)) hV (fun hs => hq ▸ hsticky hs)
  have hbits := le_significand (hV.top hm).1 hq hlies
  have hj : 2 * f.bias ≤ (quantum f (e + Nat.log2 m) - f.qmin).toNat := by omega
  have := Nat.mul_le_mul_right (2 ^ f.fb) hj
  rw [hf.infBits_eq, Nat.succ_mul, keptCode]
  omega

include hsticky

/-- The significand kept and the next one are the neighbours of the magnitude. -/
theorem magnitude_keptCode :
    let q := quantum f (e + Nat.log2 m)
    let s := splitAt m e sticky q
    ((magnitude f (keptCode f m e sticky) : ℚ) : K) = s.1 * 2 ^ q ∧ ((magnitude f (keptCode f m e sticky + 1) : ℚ) : K) = (s.1 + 1) * 2 ^ q ∧
      LiesAt (V * 2 ^ (-q)) s.1 s.2 := by
  intro q s
  obtain ⟨-, hqtop, hqeq⟩ := quantum_spec f (e + Nat.log2 m)
  have hlies := liesAt_splitAt (q := q) hV (fun hs => (hsticky hs).trans_le hqtop)
  obtain ⟨h0, h1⟩ := magnitude_kept (K := K) (significand_lt (hV.top hm).2 hqtop hlies)
    (hqeq.imp (fun h => by rw [h]; simp) (fun h => le_significand (hV.top hm).1 h hlies))
  exact ⟨h0, h1, hlies⟩

include hf hrnd

/-- fpRound rounds once a magnitude that is known by what lies below it and what equals it. -/
theorem rounded_fpRound {N : Prop} [Decidable N] (hneg : neg = true ↔ N) {below at_ : ℚ → Prop} (hbelow : ∀ x, 0 ≤ x → (below x ↔ (x : K) < V))
    (hat : ∀ x, 0 ≤ x → (at_ x ↔ V = (x : K))) : Rounded f rnd N below at_ (fpRound f rnd neg m e sticky) := by
  have hle (x : ℚ) (hx : 0 ≤ x) : below x ∨ at_ x ↔ (x : K) ≤ V := by rw [hbelow x hx, hat x hx, le_iff_lt_or_eq, eq_comm (a := V)]
  have hM := magnitude_nonneg f
  have hsign : fpSign f neg = if N then f.signBit else 0 := by
    unfold fpSign
    exact if_congr hneg rfl rfl
  have hovf : overflowMag f rnd neg = if rnd = 1 ∨ (rnd = 2 ∧ N) ∨ (rnd = 3 ∧ ¬ N) then f.infBits - 1 else f.infBits :=
    if_congr (by rw [← hneg, Bool.not_eq_true', Bool.not_eq_true]) rfl rfl
  obtain ⟨h0, h1, hlies⟩ := magnitude_keptCode hm hV hsticky
  unfold Rounded
  simp only [hle _ (hM _)]
  refine ⟨fun hover => ?_, fun hfits => ?_⟩
  · have hcode := keptCode_overflows hm hV hf hover hsticky
    rw [fpRound_eq]
    dsimp only
    rw [if_pos (.inr (hcode.trans (Nat.le_add_right _ _))), hsign, hovf]
  · have hkept : ((magnitude f (keptCode f m e sticky) : ℚ) : K) ≤ V := h0 ▸ (hlies.scaled_le_iff _).mpr le_rfl
    have hcode : keptCode f m e sticky < f.infBits := by
      have hlt := hkept.trans_lt (not_le.mp hfits)
      exact (magnitude_strictMono f).lt_iff_lt.mp (by exact_mod_cast hlt)
    have hhalf : (((magnitude f (keptCode f m e sticky) + magnitude f (keptCode f m e sticky + 1)) / 2 : ℚ) : K) =
        ((splitAt m e sticky (quantum f (e + Nat.log2 m))).1 + 1 / 2) * 2 ^ quantum f (e + Nat.log2 m) := by
      push_cast
      rw [h0, h1]
      ring
    have hmid := div_nonneg (add_nonneg (hM (keptCode f m e sticky)) (hM (keptCode f m e sticky + 1))) (zero_le_two (α := ℚ))
    have hexact : at_ (magnitude f (keptCode f m e sticky)) ↔ _ := (hat _ (hM _)).trans (h0 ▸ hlies.scaled_exact_iff)
    have hup := roundsUp_iff (n := keptCode f m e sticky) hrnd hlies.pos_le hneg hexact
      ((hbelow _ hmid).trans (hhalf ▸ hlies.scaled_above_iff)) ((hat _ hmid).trans (hhalf ▸ hlies.scaled_half_iff))
    have htiny := roundsTiny_iff hm hV hrnd hneg hsticky
    have hu0 : 0 ≤ underNormal f := by
      rw [← Rat.cast_nonneg (K := K), underNormal_eq]
      positivity
    have hh0 : 0 ≤ halfNormal f := div_nonneg (add_nonneg hu0 (hM _)) zero_le_two
    rw [← hle _ hu0, ← hat _ hu0, ← hbelow _ hh0, ← hat _ hh0] at htiny
    rw [keptCode_mod_two hf] at hup
    have htop : ¬ (f.bias : Int) + 1 < e + Nat.log2 m := fun h => hfits <| by
      rw [magnitude_infBits hf]
      exact (zpow_le_zpow_right₀ (by norm_num) h.le).trans (hV.top hm).1
    have hlast (h : f.infBits ≤ keptCode f m e sticky + 1) : roundsTiny f rnd neg m e sticky = false := by
      have hnormal : 2 ^ f.fb ≤ keptCode f m e sticky := by
        have := Nat.mul_le_mul_right (2 ^ f.fb) (by have := hf.bias_pos; omega : 2 ≤ 2 * f.bias + 1)
        rw [← hf.infBits_eq] at this
        have := Nat.one_le_two_pow (n := f.fb)
        omega
      refine roundsTiny_of_normal hm hV (le_trans ?_ hkept)
      exact_mod_cast (magnitude_strictMono f).monotone hnormal
    obtain ⟨hmag, hnx, hof, huf, hrest⟩ := fpRound_of_fits (rnd := rnd) (neg := neg) htop hcode hlast
    rw [hsign] at hmag hof
    refine ⟨_, hcode, hkept, not_le.mpr (h1 ▸ hlies.scaled_lt), fun hgoes => ?_, fun hstays => ?_, ?_, hof, ?_, hrest⟩
    · rw [hmag, roundingUp, if_pos (hup.mpr hgoes)]
    · rw [hmag, roundingUp, if_neg (mt hup.mp hstays), Nat.add_zero]
    · rw [hnx, hexact]
    · rw [huf, htiny, hexact]
      rfl

end Rounding

end Field

end Sys2Proof.Machine
end

section
/-! PROOFS. Encodings and their values (R122 to R125): what decoding gives, FTZ, signs, and signalling NaNs. -/

namespace Sys2Proof.Machine

section Encoding
variable {f : FpFmt}

/-! ## Fields -/

theorem signBit_eq (f : FpFmt) : f.signBit = 2 ^ f.fb * 2 ^ f.eb := by rw [FpFmt.signBit, Nat.add_comm, Nat.pow_add]

theorem signBit_pos (f : FpFmt) : 0 < f.signBit := by rw [FpFmt.signBit]; positivity

theorem exponentField_eq (f : FpFmt) (x : Nat) : x / 2 ^ f.fb % 2 ^ f.eb = x % f.signBit / 2 ^ f.fb := by
  rw [signBit_eq, Nat.mod_mul_right_div_self]

theorem fractionField_eq (f : FpFmt) (x : Nat) : x % 2 ^ f.fb = x % f.signBit % 2 ^ f.fb := by
  rw [signBit_eq, Nat.mod_mul_right_mod]

/-- The sign field of an encoding. -/
theorem signField_iff {x : Nat} (hx : x < 2 * f.signBit) : x / f.signBit % 2 = 1 ↔ f.signBit ≤ x := by
  rcases Nat.lt_or_ge x f.signBit with h | h
  · rw [Nat.div_eq_of_lt h]
    simp [h]
  · have hdiv : x / f.signBit = 1 := Nat.div_eq_of_lt_le (by omega) (by omega)
    simp [hdiv, h]

theorem signField_eq_negOf {x : Nat} (hx : x < 2 * f.signBit) : decide (x / f.signBit % 2 = 1) = negOf f x := decide_eq_decide.mpr (signField_iff hx)

/-- An encoding is its sign with its magnitude. -/
theorem fpSign_add_mod {x : Nat} (hx : x < 2 * f.signBit) : fpSign f (negOf f x) + x % f.signBit = x := by
  unfold fpSign negOf
  by_cases h : f.signBit ≤ x
  · rw [decide_eq_true h, if_pos rfl, Nat.mod_eq_sub_mod h, Nat.mod_eq_of_lt (by omega)]
    omega
  · rw [decide_eq_false h, if_neg (by decide), Nat.zero_add, Nat.mod_eq_of_lt (by omega)]

theorem negOf_fpSign_add (n : Bool) {c : Nat} (hc : c < f.signBit) : negOf f (fpSign f n + c) = n := by
  unfold negOf fpSign
  cases n <;> simp [hc]

theorem fpSign_add_mod_signBit (n : Bool) {c : Nat} (hc : c < f.signBit) : (fpSign f n + c) % f.signBit = c := by
  unfold fpSign
  cases n <;> simp [Nat.mod_eq_of_lt hc]

theorem fpSign_add_lt (n : Bool) {c : Nat} (hc : c < f.signBit) : fpSign f n + c < 2 * f.signBit := by
  unfold fpSign
  cases n <;> simp <;> omega

theorem nan_lt_signBit (hf : f.Sized) : f.nan < f.signBit := by
  have hpow : 2 ^ f.fb = 2 * 2 ^ (f.fb - 1) := by rw [← Nat.pow_succ', Nat.succ_eq_add_one, Nat.sub_add_cancel hf.fraction]
  have hsign : f.signBit = (2 * f.bias + 2) * 2 ^ f.fb := by rw [signBit_eq, Nat.mul_comm, hf.two_pow_eb]
  have : 0 < 2 ^ (f.fb - 1) := by positivity
  rw [FpFmt.nan, hf.infBits_eq, hsign, Nat.add_mul, Nat.add_mul]
  omega

/-- The exponent field is all ones from infinity on. -/
theorem exponentField_max_iff {c : Nat} (hc : c < f.signBit) : c / 2 ^ f.fb = 2 ^ f.eb - 1 ↔ f.infBits ≤ c := by
  have hlt : c / 2 ^ f.fb < 2 ^ f.eb := Nat.div_lt_of_lt_mul (signBit_eq f ▸ hc)
  rw [FpFmt.infBits, ← Nat.le_div_iff_mul_le (by positivity)]
  omega

/-! ## Decoding (R122) -/

/-- What an encoding stands for, by its kind; a finite one is m × 2^e with its sign. -/
inductive Decodes (f : FpFmt) (x : Nat) : FpVal → Prop
  | nan : NanCode f x → Decodes f x (.nan (decide (x % f.signBit < f.infBits + 2 ^ (f.fb - 1))))
  | inf : InfCode f x → Decodes f x (.inf (negOf f x))
  | fin (m : Nat) (e : Int) : x % f.signBit < f.infBits → magnitude f (x % f.signBit) = m * 2 ^ e → (m = 0 ↔ ZeroCode f x) → m < 2 ^ (f.fb + 1) →
      f.qmin ≤ e → Decodes f x (.fin (negOf f x) m e)

theorem decodes {x : Nat} (hx : x < 2 * f.signBit) : Decodes f x (fpDecode f x) := by
  have hc : x % f.signBit < f.signBit := Nat.mod_lt _ (signBit_pos f)
  have hfrac : x % f.signBit % 2 ^ f.fb < 2 ^ f.fb := Nat.mod_lt _ (by positivity)
  have hsplit := Nat.div_add_mod' (x % f.signBit) (2 ^ f.fb)
  unfold fpDecode
  simp only [signField_eq_negOf hx, exponentField_eq, fractionField_eq f x, exponentField_max_iff hc]
  split
  next hinf =>
    have hval : f.infBits + x % f.signBit % 2 ^ f.fb = x % f.signBit := by
      rw [(exponentField_max_iff hc).mpr hinf] at hsplit
      exact hsplit
    split
    next h0 => exact .inf (by rw [InfCode]; omega)
    next h0 =>
      have hsig : x % f.signBit % 2 ^ f.fb < 2 ^ (f.fb - 1) ↔ x % f.signBit < f.infBits + 2 ^ (f.fb - 1) := by omega
      simp only [hsig]
      exact .nan (by rw [NanCode]; omega)
  next hfin =>
    split
    next h0 =>
      rw [h0, Nat.zero_mul, Nat.zero_add] at hsplit
      rw [hsplit]
      refine .fin _ _ (by omega) ?_ Iff.rfl (by rw [Nat.pow_succ]; omega) le_rfl
      rw [magnitude, if_pos h0]
    next h0 =>
      have hpow : 0 < 2 ^ f.fb := by positivity
      have hne : x % f.signBit ≠ 0 := fun h => h0 (by rw [h, Nat.zero_div])
      have hexp : (1 : Int) ≤ ((x % f.signBit / 2 ^ f.fb : Nat) : Int) := by exact_mod_cast Nat.one_le_iff_ne_zero.mpr h0
      refine .fin _ _ (by omega) ?_ (iff_of_false (by omega) hne) (by rw [Nat.pow_succ]; omega) (by linarith)
      rw [magnitude, if_neg h0, Nat.add_comm (2 ^ f.fb)]

/-- The value of a finite encoding. -/
theorem valueOf_eq (f : FpFmt) (x : Nat) : valueOf f x = if negOf f x then -magnitude f (x % f.signBit) else magnitude f (x % f.signBit) := by
  unfold valueOf negOf
  simp only [decide_eq_true_eq]

theorem decode_of_finite {x : Nat} (hx : Finite f x) :
    ∃ m e, fpDecode f x = .fin (negOf f x) m e ∧ valueOf f x = (if negOf f x then -((m : ℚ) * 2 ^ e) else (m : ℚ) * 2 ^ e) ∧
      m < 2 ^ (f.fb + 1) ∧ f.qmin ≤ e := by
  obtain ⟨hlt, hfin⟩ := hx
  have h := decodes hlt
  revert h
  generalize fpDecode f x = X
  rintro (h | h | ⟨m, e, -, hmag, -, hm, he⟩)
  · exact absurd h (by rw [NanCode]; omega)
  · exact absurd h (by rw [InfCode]; omega)
  · exact ⟨m, e, rfl, by rw [valueOf_eq, hmag], hm, he⟩

theorem decode_of_inf {x : Nat} (hx : x < 2 * f.signBit) (h : InfCode f x) : fpDecode f x = .inf (negOf f x) := by
  have hd := decodes hx
  revert hd
  generalize fpDecode f x = X
  rintro (h' | h' | ⟨m, e, h', -, -, -, -⟩)
  · exact absurd h' (by rw [NanCode, h]; omega)
  · rfl
  · exact absurd h' (by rw [h]; omega)

theorem isNan_decode_iff {x : Nat} (hx : x < 2 * f.signBit) : isNan (fpDecode f x) = true ↔ NanCode f x := by
  have hd := decodes hx
  revert hd
  generalize fpDecode f x = X
  rintro (h | h | ⟨m, e, h, -, -, -, -⟩)
  · exact iff_of_true rfl h
  · exact iff_of_false (by simp [isNan]) (by rw [NanCode, h]; omega)
  · exact iff_of_false (by simp [isNan]) (by rw [NanCode]; omega)

/-! ## Signalling NaNs (R125) -/

/-- A signalling NaN. -/
def isSignalling (f : FpFmt) (x : Nat) : Bool := decide (f.infBits < x % f.signBit) && decide (x % f.signBit < f.infBits + 2 ^ (f.fb - 1))

theorem sigNV_decode {x : Nat} (hx : x < 2 * f.signBit) : sigNV (fpDecode f x) = if isSignalling f x then fpNV else 0 := by
  have hd := decodes hx
  revert hd
  generalize fpDecode f x = X
  rintro (h | h | ⟨m, e, h, -, -, -, -⟩)
  · rw [isSignalling, decide_eq_true h, Bool.true_and]
    cases decide (x % f.signBit < f.infBits + 2 ^ (f.fb - 1)) <;> rfl
  · rw [isSignalling, decide_eq_false (by rw [h]; omega)]
    rfl
  · rw [isSignalling, decide_eq_false (by omega)]
    rfl

/-- The invalid bit of a list of sources is that of each of them. -/
theorem nvOf_cons {x : Nat} (hx : x < 2 * f.signBit) (xs : List Nat) : nvOf f (x :: xs) = sigNV (fpDecode f x) ||| nvOf f xs := by
  have hany : nvOf f (x :: xs) = if (isSignalling f x || xs.any (isSignalling f)) = true then fpNV else 0 := rfl
  have hrest : nvOf f xs = if xs.any (isSignalling f) = true then fpNV else 0 := rfl
  rw [sigNV_decode hx, hany, hrest]
  cases isSignalling f x <;> cases xs.any (isSignalling f) <;> rfl

theorem nvOf_two {x y : Nat} (hx : x < 2 * f.signBit) (hy : y < 2 * f.signBit) : nvOf f [x, y] = sigNV (fpDecode f x) ||| sigNV (fpDecode f y) := by
  simp [nvOf_cons hx, nvOf_cons hy, show nvOf f [] = 0 from rfl]

theorem sigNV_eq (X : FpVal) : sigNV X = 0 ∨ sigNV X = fpNV := by
  rcases X with (_ | _) | _ | _
  · exact .inl rfl
  · exact .inr rfl
  · exact .inl rfl
  · exact .inl rfl

/-! ## FTZ (R124) -/

theorem fpIsSub_eq {x : Nat} : fpIsSub f x = subCode f x := by
  have hpow : 0 < 2 ^ f.fb := by positivity
  unfold fpIsSub subCode
  rw [exponentField_eq, fractionField_eq, Bool.eq_iff_iff]
  simp only [Bool.and_eq_true, decide_eq_true_eq, Nat.div_eq_zero_iff_lt hpow]
  constructor
  · rintro ⟨hlt, hne⟩
    rw [Nat.mod_eq_of_lt hlt] at hne
    exact ⟨Nat.pos_of_ne_zero hne, hlt⟩
  · rintro ⟨hpos, hlt⟩
    exact ⟨hlt, by rw [Nat.mod_eq_of_lt hlt]; omega⟩

theorem fpZeroOf_eq {x : Nat} (hx : x < 2 * f.signBit) : fpZeroOf f x = fpSign f (negOf f x) := by
  unfold fpZeroOf fpSign negOf
  simp only [signField_iff hx, decide_eq_true_eq]

theorem fpFlush_eq (ftz : Bool) {x : Nat} (hx : x < 2 * f.signBit) : fpFlush ftz f x = flushed ftz f x := by
  rw [fpFlush, flushed, fpIsSub_eq, fpZeroOf_eq hx]

theorem fpFlushOut_eq (ftz : Bool) {r : Nat × BitVec 5} (hr : r.1 < 2 * f.signBit) : fpFlushOut ftz f r = flushedResult ftz f r := by
  rw [fpFlushOut, flushedResult, fpIsSub_eq, fpZeroOf_eq hr, BitVec.or_assoc]

theorem flushed_lt (ftz : Bool) {x : Nat} (hx : x < 2 * f.signBit) : flushed ftz f x < 2 * f.signBit := by
  unfold flushed
  split
  · exact fpSign_add_lt (c := 0) _ (signBit_pos f)
  · exact hx

/-! ## The other sign -/

section Flip
variable {x : Nat}

theorem flip_mod (f : FpFmt) (x : Nat) : (x ^^^ f.signBit) % f.signBit = x % f.signBit := by
  rw [FpFmt.signBit, Nat.xor_mod_two_pow, Nat.mod_self, Nat.xor_zero]

theorem flip_lt (hx : x < 2 * f.signBit) : x ^^^ f.signBit < 2 * f.signBit := by
  rw [FpFmt.signBit, ← Nat.pow_succ'] at hx ⊢
  exact Nat.xor_lt_two_pow hx (Nat.pow_lt_pow_right (by decide) (Nat.lt_succ_self _))

theorem negOf_flip (hx : x < 2 * f.signBit) : negOf f (x ^^^ f.signBit) = !negOf f x := by
  have hfield : (x ^^^ f.signBit) / f.signBit % 2 = 1 ↔ ¬ x / f.signBit % 2 = 1 := by
    rw [FpFmt.signBit, Nat.xor_div_two_pow, Nat.div_self (by positivity), Nat.xor_mod_two_eq_one]
    simp
  rw [signField_iff (flip_lt hx), signField_iff hx] at hfield
  unfold negOf
  rw [decide_eq_decide.mpr hfield, decide_not]

theorem fpSign_flip (n : Bool) : fpSign f (!n) = fpSign f n ^^^ f.signBit := by
  cases n <;> simp [fpSign]

theorem decode_flip (hx : x < 2 * f.signBit) : fpDecode f (x ^^^ f.signBit) = fpNegV (fpDecode f x) := by
  unfold fpDecode
  simp only [signField_eq_negOf (flip_lt hx), signField_eq_negOf hx, exponentField_eq, fractionField_eq f (x ^^^ f.signBit), fractionField_eq f x, flip_mod,
    negOf_flip hx]
  split_ifs <;> rfl

theorem flushed_flip (ftz : Bool) (hx : x < 2 * f.signBit) : flushed ftz f (x ^^^ f.signBit) = flushed ftz f x ^^^ f.signBit := by
  have hsub : subCode f (x ^^^ f.signBit) = subCode f x := by unfold subCode; rw [flip_mod]
  unfold flushed
  rw [hsub, negOf_flip hx, fpSign_flip]
  split <;> rfl

end Flip

end Encoding

end Sys2Proof.Machine
end

section
/-! PROOFS. Sums, products, fused sums and quotients (R123, R125, R253, R255): the exact value of finite operands rounded once, NaNs and infinities, the sizes of
results, and FTZ. -/

namespace Sys2Proof.Machine

/-! ## Finite values as rational numbers -/

/-- The number that a sign, a significand and an exponent stand for. -/
def finVal (neg : Bool) (m : Nat) (e : Int) : ℚ := if neg then -((m : ℚ) * 2 ^ e) else (m : ℚ) * 2 ^ e

theorem finVal_eq_zero_iff (n : Bool) (m : Nat) (e : Int) : finVal n m e = 0 ↔ m = 0 := by
  have := (two_zpow_pos e).ne'
  unfold finVal
  cases n <;> simp [this]

theorem finVal_lt_zero_iff {n : Bool} {m : Nat} {e : Int} (hm : m ≠ 0) : n = true ↔ finVal n m e < 0 := by
  have hpos : (0 : ℚ) < (m : ℚ) * 2 ^ e := mul_pos (by exact_mod_cast Nat.pos_of_ne_zero hm) (two_zpow_pos e)
  unfold finVal
  cases n
  · simpa using hpos.le
  · simpa using hpos

theorem abs_finVal (n : Bool) (m : Nat) (e : Int) : |finVal n m e| = (m : ℚ) * 2 ^ e := by
  have hnn : (0 : ℚ) ≤ (m : ℚ) * 2 ^ e := mul_nonneg (Nat.cast_nonneg m) (two_zpow_pos e).le
  unfold finVal
  cases n <;> simp [abs_of_nonneg hnn, -abs_mul]

theorem finVal_mul (n1 n2 : Bool) (m1 m2 : Nat) (e1 e2 : Int) : finVal n1 m1 e1 * finVal n2 m2 e2 = finVal (n1 != n2) (m1 * m2) (e1 + e2) := by
  unfold finVal
  rw [zpow_add₀ (by norm_num)]
  cases n1 <;> cases n2 <;> simp <;> ring

/-- A finite value as an integer at an exponent at most its own. -/
theorem scaled_eq (n : Bool) (m : Nat) {e e0 : Int} (h : e0 ≤ e) : (scaled n m e e0 : ℚ) * 2 ^ e0 = finVal n m e := by
  have hpow : (2 : ℚ) ^ e = ((2 ^ (e - e0).toNat : Nat) : ℚ) * 2 ^ e0 := by
    rw [Nat.cast_pow, Nat.cast_ofNat, ← zpow_natCast, Int.toNat_of_nonneg (sub_nonneg.mpr h), ← zpow_add₀ (by norm_num), sub_add_cancel]
  unfold scaled finVal
  rw [hpow]
  cases n <;> simp <;> ring

theorem sumExact_eq (n1 n2 : Bool) (m1 m2 : Nat) (e1 e2 : Int) :
    ((sumExact n1 m1 e1 n2 m2 e2).1 : ℚ) * 2 ^ (sumExact n1 m1 e1 n2 m2 e2).2 = finVal n1 m1 e1 + finVal n2 m2 e2 := by
  unfold sumExact
  dsimp only
  rw [Int.cast_add, add_mul]
  split
  next h => rw [scaled_eq _ _ le_rfl, scaled_eq _ _ h]
  next h => rw [scaled_eq _ _ (not_le.mp h).le, scaled_eq _ _ le_rfl]

/-! ## Rounding exact values -/

section Exact
variable {f : FpFmt} {rnd : Nat} (hf : f.Sized) (hrnd : rnd ≤ 4)
include hf hrnd

/-- A number whose magnitude starts with the bits of m, rounded. -/
theorem roundsTo_fpRound {q : ℚ} {neg sticky : Bool} {m : Nat} {e : Int} (hm : m ≠ 0) (hneg : neg = true ↔ q < 0) (hq : LeadingBits |q| m e sticky)
    (hsticky : sticky = true → e < e + (Nat.log2 m : Int) - f.fb) : RoundsTo f rnd q (fpRound f rnd neg m e sticky) :=
  rounded_fpRound hf hrnd hm hq hsticky hneg (fun x _ => by rw [Rat.cast_id]) (fun x _ => by rw [Rat.cast_id, eq_comm])

theorem roundsTo_finVal {n : Bool} {m : Nat} {e : Int} (hm : m ≠ 0) : RoundsTo f rnd (finVal n m e) (fpRound f rnd n m e false) :=
  roundsTo_fpRound hf hrnd hm (finVal_lt_zero_iff hm) (abs_finVal n m e) (fun h => absurd h (by decide))

theorem fpRoundZ_rounds {n : Bool} {m : Nat} {e : Int} (z : Bool) (h : finVal n m e ≠ 0) : RoundsTo f rnd (finVal n m e) (fpRoundZ f rnd z n m e false) := by
  have hm : m ≠ 0 := mt (finVal_eq_zero_iff n m e).mpr h
  rw [fpRoundZ, if_neg hm]
  exact roundsTo_finVal hf hrnd hm

theorem fpRoundInt_rounds {v e : Int} (z : Bool) (h : (v : ℚ) * 2 ^ e ≠ 0) : RoundsTo f rnd ((v : ℚ) * 2 ^ e) (fpRoundInt f rnd z v e) := by
  have hval : finVal (decide (v < 0)) v.natAbs e = (v : ℚ) * 2 ^ e := by
    unfold finVal
    rw [Nat.cast_natAbs, Int.cast_abs]
    by_cases hv : v < 0
    · rw [decide_eq_true hv, if_pos rfl, abs_of_neg (by exact_mod_cast hv)]
      ring
    · rw [decide_eq_false hv, if_neg (by decide), abs_of_nonneg (by exact_mod_cast not_lt.mp hv)]
  rw [← hval] at h ⊢
  exact fpRoundZ_rounds hf hrnd z h

end Exact

theorem fpRoundZ_zero (f : FpFmt) (rnd : Nat) (z n : Bool) (e : Int) : fpRoundZ f rnd z n 0 e false = (fpSign f z, 0) := rfl

theorem fpRoundInt_zero {v e : Int} (f : FpFmt) (rnd : Nat) (z : Bool) (h : (v : ℚ) * 2 ^ e = 0) : fpRoundInt f rnd z v e = (fpSign f z, 0) := by
  have hv : v = 0 := by exact_mod_cast (mul_eq_zero.mp h).resolve_right (two_zpow_pos e).ne'
  rw [hv]
  rfl

theorem fpSign_zeroSumNeg (f : FpFmt) (rnd : Nat) : fpSign f (zeroSumNeg rnd) = if rnd = 3 then f.signBit else 0 := by
  unfold fpSign zeroSumNeg
  simp only [decide_eq_true_eq]

/-! ## Finite operands -/

/-- A finite encoding decodes to its value. -/
theorem decode_finVal {f : FpFmt} {x : Nat} (hx : Finite f x) :
    ∃ m e, fpDecode f x = .fin (negOf f x) m e ∧ valueOf f x = finVal (negOf f x) m e ∧ m < 2 ^ (f.fb + 1) ∧ f.qmin ≤ e := decode_of_finite hx

section Finite
variable {f : FpFmt} {rnd x y z : Nat} (hx : Finite f x) (hy : Finite f y)
include hx hy

theorem fpAddV_finite : ∃ v e : Int, (v : ℚ) * 2 ^ e = valueOf f x + valueOf f y ∧ fpAddV f rnd (fpDecode f x) (fpDecode f y) =
    fpRoundInt f rnd (if valueOf f x = 0 ∧ valueOf f y = 0 ∧ negOf f x = negOf f y then negOf f x else zeroSumNeg rnd) v e := by
  obtain ⟨m1, e1, hX, hvx, -⟩ := decode_finVal hx
  obtain ⟨m2, e2, hY, hvy, -⟩ := decode_finVal hy
  refine ⟨_, _, (sumExact_eq _ _ m1 m2 e1 e2).trans (by rw [hvx, hvy]), ?_⟩
  rw [hX, hY, hvx, hvy]
  simp only [finVal_eq_zero_iff]
  rfl

theorem fpMulV_finite : ∃ m e, finVal (negOf f x != negOf f y) m e = valueOf f x * valueOf f y ∧ fpMulV f rnd (fpDecode f x) (fpDecode f y) =
    fpRoundZ f rnd (negOf f x != negOf f y) (negOf f x != negOf f y) m e false := by
  obtain ⟨m1, e1, hX, hvx, -⟩ := decode_finVal hx
  obtain ⟨m2, e2, hY, hvy, -⟩ := decode_finVal hy
  refine ⟨m1 * m2, e1 + e2, by rw [hvx, hvy, finVal_mul], ?_⟩
  rw [hX, hY]
  rfl

theorem fpFmaV_finite (hz : Finite f z) : ∃ v e : Int, (v : ℚ) * 2 ^ e = valueOf f x * valueOf f y + valueOf f z ∧
    fpFmaV f rnd (fpDecode f x) (fpDecode f y) (fpDecode f z) =
      fpRoundInt f rnd (if valueOf f x * valueOf f y = 0 ∧ valueOf f z = 0 ∧ (negOf f x != negOf f y) = negOf f z then negOf f z else zeroSumNeg rnd) v e := by
  obtain ⟨m1, e1, hX, hvx, -⟩ := decode_finVal hx
  obtain ⟨m2, e2, hY, hvy, -⟩ := decode_finVal hy
  obtain ⟨m3, e3, hZ, hvz, -⟩ := decode_finVal hz
  refine ⟨_, _, (sumExact_eq (negOf f x != negOf f y) _ (m1 * m2) m3 (e1 + e2) e3).trans (by rw [hvx, hvy, hvz, finVal_mul]), ?_⟩
  rw [hX, hY, hZ, hvx, hvy, hvz, finVal_mul]
  simp only [finVal_eq_zero_iff]
  rfl

omit hx hy in
/-- The quotient of two significands with 120 bits more, and whether it is exact. -/
theorem leadingBits_div {m1 m2 : Nat} (hm : m2 ≠ 0) (e1 e2 : Int) :
    LeadingBits ((m1 : ℚ) * 2 ^ e1 / (m2 * 2 ^ e2)) (m1 * 2 ^ 120 / m2) (e1 - e2 - 120) (decide (m1 * 2 ^ 120 % m2 ≠ 0)) := by
  have hpow := two_zpow_pos (e1 - e2 - 120)
  have hm2 : (0 : ℚ) < m2 := by exact_mod_cast Nat.pos_of_ne_zero hm
  have hexp : (2 : ℚ) ^ e1 = 2 ^ 120 * 2 ^ (e1 - e2 - 120) * 2 ^ e2 := by
    rw [← zpow_natCast, ← zpow_add₀ (by norm_num), ← zpow_add₀ (by norm_num)]
    congr 1
    push_cast
    ring
  have hV : (m1 : ℚ) * 2 ^ e1 / (m2 * 2 ^ e2) = ((m1 * 2 ^ 120 : Nat) : ℚ) / m2 * 2 ^ (e1 - e2 - 120) := by
    have := (two_zpow_pos e2).ne'
    rw [hexp]
    push_cast
    field_simp
    norm_num
  have hdiv := Nat.div_add_mod (m1 * 2 ^ 120) m2
  have hmod := Nat.mod_lt (m1 * 2 ^ 120) (Nat.pos_of_ne_zero hm)
  rw [hV]
  generalize m1 * 2 ^ 120 = N at hdiv hmod ⊢
  unfold LeadingBits
  by_cases hr : N % m2 = 0
  · rw [if_neg (by simp [hr]), Nat.cast_div (Nat.dvd_of_mod_eq_zero hr) hm2.ne']
  · rw [if_pos (by simp [hr]), mul_lt_mul_iff_left₀ hpow, mul_lt_mul_iff_left₀ hpow, lt_div_iff₀ hm2, div_lt_iff₀ hm2]
    constructor
    · exact_mod_cast (by rw [Nat.mul_comm]; omega : N / m2 * m2 < N)
    · exact_mod_cast (by rw [Nat.mul_comm, Nat.mul_succ]; omega : N < (N / m2 + 1) * m2)

theorem fpDivV_finite (hf : f.Sized) (hfb : f.fb ≤ 52) (hrnd : rnd ≤ 4) (hx0 : valueOf f x ≠ 0) (hy0 : valueOf f y ≠ 0) :
    RoundsTo f rnd (valueOf f x / valueOf f y) (fpDivV f rnd (fpDecode f x) (fpDecode f y)) := by
  obtain ⟨m1, e1, hX, hvx, -⟩ := decode_finVal hx
  obtain ⟨m2, e2, hY, hvy, hm2, -⟩ := decode_finVal hy
  rw [hvx, Ne, finVal_eq_zero_iff] at hx0
  rw [hvy, Ne, finVal_eq_zero_iff] at hy0
  -- the quotient has more bits than the format keeps
  have hbits : 2 ^ (f.fb + 1) ≤ m1 * 2 ^ 120 / m2 := by
    rw [Nat.le_div_iff_mul_le (Nat.pos_of_ne_zero hy0)]
    have hpow : 2 ^ (f.fb + 1) ≤ 2 ^ 53 := Nat.pow_le_pow_right (by decide) (by omega)
    calc 2 ^ (f.fb + 1) * m2 ≤ 2 ^ 53 * 2 ^ 53 := Nat.mul_le_mul hpow (hm2.le.trans hpow)
      _ ≤ 2 ^ 120 := by decide
      _ ≤ m1 * 2 ^ 120 := Nat.le_mul_of_pos_left _ (Nat.pos_of_ne_zero hx0)
  have hquot : m1 * 2 ^ 120 / m2 ≠ 0 := (lt_of_lt_of_le (by positivity) hbits).ne'
  have hneg : (negOf f x != negOf f y) = true ↔ finVal (negOf f x) m1 e1 / finVal (negOf f y) m2 e2 < 0 := by
    rw [div_neg_iff, ← mul_neg_iff, finVal_mul]
    exact finVal_lt_zero_iff (Nat.mul_ne_zero hx0 hy0)
  have habs : |finVal (negOf f x) m1 e1 / finVal (negOf f y) m2 e2| = (m1 : ℚ) * 2 ^ e1 / (m2 * 2 ^ e2) := by rw [abs_div, abs_finVal, abs_finVal]
  have hdiv : fpDivV f rnd (fpDecode f x) (fpDecode f y) =
      fpRound f rnd (negOf f x != negOf f y) (m1 * 2 ^ 120 / m2) (e1 - e2 - 120) (decide (m1 * 2 ^ 120 % m2 ≠ 0)) := by
    rw [hX, hY]
    simp only [fpDivV, if_neg hx0, if_neg hy0]
  rw [hvx, hvy, hdiv]
  exact roundsTo_fpRound hf hrnd hquot hneg (habs ▸ leadingBits_div hy0 e1 e2) (fun _ => by have := (Nat.le_log2 hquot).mpr hbits; omega)

end Finite

/-! ## NaNs and infinities (R125, R253) -/

/-- An infinity; a value that is a zero; the sign of a value that is no NaN. -/
def isInf : FpVal → Bool
  | .nan _ => false
  | .inf _ => true
  | .fin _ _ _ => false
def isZero : FpVal → Bool
  | .nan _ => false
  | .inf _ => false
  | .fin _ m _ => decide (m = 0)
def signOf : FpVal → Bool
  | .nan _ => false
  | .inf n => n
  | .fin n _ _ => n

theorem isNan_iff {X : FpVal} : isNan X = true ↔ ∃ s, X = .nan s := by cases X <;> simp [isNan]
theorem isInf_iff {X : FpVal} : isInf X = true ↔ ∃ n, X = .inf n := by cases X <;> simp [isInf]

section Special
variable {f : FpFmt} {rnd : Nat} {X Y Z : FpVal}

theorem fpAddV_nan (h : isNan X = true ∨ isNan Y = true) : fpAddV f rnd X Y = (f.nan, sigNV X ||| sigNV Y) := by
  rcases h with h | h <;> obtain ⟨s, rfl⟩ := isNan_iff.mp h
  · rfl
  · cases X <;> rfl

theorem fpMulV_nan (h : isNan X = true ∨ isNan Y = true) : fpMulV f rnd X Y = (f.nan, sigNV X ||| sigNV Y) := by
  rcases h with h | h <;> obtain ⟨s, rfl⟩ := isNan_iff.mp h
  · rfl
  · cases X <;> rfl

theorem fpAddV_inf_left (hX : isInf X = true) (hY : isNan Y = false) :
    fpAddV f rnd X Y = if isInf Y = true ∧ (signOf X != signOf Y) = true then (f.nan, fpNV) else (fpSign f (signOf X) + f.infBits, 0) := by
  obtain ⟨a, rfl⟩ := isInf_iff.mp hX
  cases Y with
  | nan s => simp [isNan] at hY
  | inf b => cases a <;> cases b <;> rfl
  | fin n m e => rfl

theorem fpAddV_inf_right (hX : isNan X = false) (hX' : isInf X = false) (hY : isInf Y = true) :
    fpAddV f rnd X Y = (fpSign f (signOf Y) + f.infBits, 0) := by
  obtain ⟨b, rfl⟩ := isInf_iff.mp hY
  cases X with
  | nan s => simp [isNan] at hX
  | inf a => simp [isInf] at hX'
  | fin n m e => rfl

theorem fpMulV_inf (hX : isNan X = false) (hY : isNan Y = false) (h : isInf X = true ∨ isInf Y = true) :
    fpMulV f rnd X Y = if isZero X = true ∨ isZero Y = true then (f.nan, fpNV) else (fpSign f (signOf X != signOf Y) + f.infBits, 0) := by
  cases X with
  | nan s => simp [isNan] at hX
  | inf a =>
    cases Y with
    | nan s => simp [isNan] at hY
    | inf b => rfl
    | fin n m e => simp [fpMulV, isZero, signOf]
  | fin n m e =>
    obtain ⟨b, rfl⟩ := isInf_iff.mp (h.resolve_left (by simp [isInf]))
    simp [fpMulV, isZero, signOf]

/-- 0 × ∞ is invalid whatever the addend is. -/
theorem fpFmaV_zeroInf (h : (isInf X = true ∧ isZero Y = true) ∨ (isZero X = true ∧ isInf Y = true)) : fpFmaV f rnd X Y Z = (f.nan, fpNV) := by
  have hflags : fpNV ||| (0 ||| 0 ||| sigNV Z) = fpNV := by rcases sigNV_eq Z with h | h <;> rw [h] <;> rfl
  rcases h with ⟨hX, hY⟩ | ⟨hX, hY⟩
  · obtain ⟨a, rfl⟩ := isInf_iff.mp hX
    cases Y with
    | nan s => simp [isZero] at hY
    | inf b => simp [isZero] at hY
    | fin n m e =>
      obtain rfl : m = 0 := of_decide_eq_true hY
      exact congrArg (Prod.mk f.nan) hflags
  · obtain ⟨b, rfl⟩ := isInf_iff.mp hY
    cases X with
    | nan s => simp [isZero] at hX
    | inf a => simp [isZero] at hX
    | fin n m e =>
      obtain rfl : m = 0 := of_decide_eq_true hX
      exact congrArg (Prod.mk f.nan) hflags

section Valid
variable (hbad : ¬ ((isInf X = true ∧ isZero Y = true) ∨ (isZero X = true ∧ isInf Y = true)))
include hbad

theorem fpFmaV_nan (h : isNan X = true ∨ isNan Y = true ∨ isNan Z = true) : fpFmaV f rnd X Y Z = (f.nan, sigNV X ||| sigNV Y ||| sigNV Z) := by
  rcases h with h | h | h <;> obtain ⟨s, rfl⟩ := isNan_iff.mp h
  · rfl
  · cases X <;> rfl
  · cases X with
    | nan s => rfl
    | inf a =>
      cases Y with
      | nan s => rfl
      | inf b => rfl
      | fin n m e =>
        have hm : m ≠ 0 := by simpa [isInf, isZero] using hbad
        simp [fpFmaV, hm]
    | fin n m e =>
      cases Y with
      | nan s => rfl
      | inf b =>
        have hm : m ≠ 0 := by simpa [isInf, isZero] using hbad
        simp [fpFmaV, hm]
      | fin n2 m2 e2 => rfl

/-- An infinite product is the result with its sign. -/
theorem fpFmaV_inf_fin (hX : isNan X = false) (hY : isNan Y = false) (h : isInf X = true ∨ isInf Y = true) (n : Bool) (m : Nat) (e : Int) :
    fpFmaV f rnd X Y (.fin n m e) = (fpSign f (signOf X != signOf Y) + f.infBits, 0) := by
  cases X with
  | nan s => simp [isNan] at hX
  | inf a =>
    cases Y with
    | nan s => simp [isNan] at hY
    | inf b => rfl
    | fin n2 m2 e2 =>
      have hm : m2 ≠ 0 := by simpa [isInf, isZero] using hbad
      simp [fpFmaV, hm, signOf]
  | fin n1 m1 e1 =>
    obtain ⟨b, rfl⟩ := isInf_iff.mp (h.resolve_left (by simp [isInf]))
    have hm : m1 ≠ 0 := by simpa [isInf, isZero] using hbad
    simp [fpFmaV, hm, signOf]

/-- With an infinite addend it must have the same sign. -/
theorem fpFmaV_inf_inf (hX : isNan X = false) (hY : isNan Y = false) (h : isInf X = true ∨ isInf Y = true) (n : Bool) :
    fpFmaV f rnd X Y (.inf n) = if n = (signOf X != signOf Y) then (fpSign f n + f.infBits, 0) else (f.nan, fpNV) := by
  cases X with
  | nan s => simp [isNan] at hX
  | inf a =>
    cases Y with
    | nan s => simp [isNan] at hY
    | inf b => rfl
    | fin n2 m2 e2 =>
      have hm : m2 ≠ 0 := by simpa [isInf, isZero] using hbad
      simp only [fpFmaV, hm, decide_false, Bool.false_eq_true, if_false]
      rfl
  | fin n1 m1 e1 =>
    obtain ⟨b, rfl⟩ := isInf_iff.mp (h.resolve_left (by simp [isInf]))
    have hm : m1 ≠ 0 := by simpa [isInf, isZero] using hbad
    simp only [fpFmaV, hm, decide_false, Bool.false_eq_true, if_false]
    rfl

theorem fpFmaV_inf (hX : isNan X = false) (hY : isNan Y = false) (hZ : isNan Z = false) (h : isInf X = true ∨ isInf Y = true) :
    fpFmaV f rnd X Y Z = if isInf Z = true ∧ signOf Z ≠ (signOf X != signOf Y) then (f.nan, fpNV) else (fpSign f (signOf X != signOf Y) + f.infBits, 0) := by
  cases Z with
  | nan s => simp [isNan] at hZ
  | inf n =>
    rw [fpFmaV_inf_inf hbad hX hY h]
    by_cases hn : n = (signOf X != signOf Y)
    · simp [isInf, signOf, hn]
    · rw [if_neg hn, if_pos ⟨rfl, hn⟩]
  | fin n m e => rw [fpFmaV_inf_fin hbad hX hY h, if_neg (by simp [isInf])]

end Valid

/-- An infinite addend of a finite product. -/
theorem fpFmaV_inf_addend (hX : isNan X = false) (hX' : isInf X = false) (hY : isNan Y = false) (hY' : isInf Y = false) (hZ : isInf Z = true) :
    fpFmaV f rnd X Y Z = (fpSign f (signOf Z) + f.infBits, 0) := by
  obtain ⟨n, rfl⟩ := isInf_iff.mp hZ
  cases X with
  | nan s => simp [isNan] at hX
  | inf a => simp [isInf] at hX'
  | fin n1 m1 e1 =>
    cases Y with
    | nan s => simp [isNan] at hY
    | inf b => simp [isInf] at hY'
    | fin n2 m2 e2 => rfl

end Special

/-! ## The sizes of results -/

section Sizes
variable {f : FpFmt} (hf : f.Sized) (rnd : Nat) (X Y Z : FpVal)

theorem infBits_le_nan (f : FpFmt) : f.infBits ≤ f.nan := Nat.le_add_right _ _

theorem overflowMag_le (f : FpFmt) (rnd : Nat) (neg : Bool) : overflowMag f rnd neg ≤ f.infBits := by
  unfold overflowMag
  split <;> omega

/-- A result of rounding is a signed encoding up to infinity. -/
theorem fpRound_lt (f : FpFmt) (rnd : Nat) (neg : Bool) (m : Nat) (e : Int) (sticky : Bool) : (fpRound f rnd neg m e sticky).1 < 2 * f.signBit := by
  have hinf := infBits_lt_signBit f
  rw [fpRound_eq]
  dsimp only
  split
  · exact fpSign_add_lt _ ((overflowMag_le f rnd neg).trans_lt hinf)
  next h => exact fpSign_add_lt _ (by omega)

theorem fpSign_lt (f : FpFmt) (n : Bool) : fpSign f n < 2 * f.signBit := fpSign_add_lt (c := 0) n (signBit_pos f)

theorem fpSign_add_inf_lt (f : FpFmt) (n : Bool) : fpSign f n + f.infBits < 2 * f.signBit := fpSign_add_lt n (infBits_lt_signBit f)

theorem fpRoundZ_lt (f : FpFmt) (rnd : Nat) (z neg : Bool) (m : Nat) (e : Int) (sticky : Bool) : (fpRoundZ f rnd z neg m e sticky).1 < 2 * f.signBit := by
  unfold fpRoundZ
  split
  · exact fpSign_lt f z
  · exact fpRound_lt f rnd neg m e sticky

include hf

theorem nan_lt : f.nan < 2 * f.signBit := by have := nan_lt_signBit hf; omega

theorem fpAddV_lt : (fpAddV f rnd X Y).1 < 2 * f.signBit := by
  cases X with
  | nan s => exact nan_lt hf
  | inf a =>
    cases Y with
    | nan s => exact nan_lt hf
    | inf b =>
      unfold fpAddV
      dsimp only
      split
      · exact fpSign_add_inf_lt f a
      · exact nan_lt hf
    | fin n m e => exact fpSign_add_inf_lt f a
  | fin n1 m1 e1 =>
    cases Y with
    | nan s => exact nan_lt hf
    | inf b => exact fpSign_add_inf_lt f b
    | fin n2 m2 e2 => exact fpRoundZ_lt _ _ _ _ _ _ _

theorem fpMulV_lt : (fpMulV f rnd X Y).1 < 2 * f.signBit := by
  cases X with
  | nan s => exact nan_lt hf
  | inf a =>
    cases Y with
    | nan s => exact nan_lt hf
    | inf b => exact fpSign_add_inf_lt f _
    | fin n m e =>
      unfold fpMulV
      dsimp only
      split
      · exact nan_lt hf
      · exact fpSign_add_inf_lt f _
  | fin n1 m1 e1 =>
    cases Y with
    | nan s => exact nan_lt hf
    | inf b =>
      unfold fpMulV
      dsimp only
      split
      · exact nan_lt hf
      · exact fpSign_add_inf_lt f _
    | fin n2 m2 e2 => exact fpRoundZ_lt _ _ _ _ _ _ _

theorem fpDivV_lt : (fpDivV f rnd X Y).1 < 2 * f.signBit := by
  cases X with
  | nan s => exact nan_lt hf
  | inf a =>
    cases Y with
    | nan s => exact nan_lt hf
    | inf b => exact nan_lt hf
    | fin n m e => exact fpSign_add_inf_lt f _
  | fin n1 m1 e1 =>
    cases Y with
    | nan s => exact nan_lt hf
    | inf b => exact fpSign_lt f _
    | fin n2 m2 e2 =>
      unfold fpDivV
      dsimp only
      split_ifs
      · exact nan_lt hf
      · exact fpSign_add_inf_lt f _
      · exact fpSign_lt f _
      · exact fpRound_lt f rnd _ _ _ _

theorem fpFmaV_lt : (fpFmaV f rnd X Y Z).1 < 2 * f.signBit := by
  by_cases hbad : (isInf X = true ∧ isZero Y = true) ∨ (isZero X = true ∧ isInf Y = true)
  · rw [fpFmaV_zeroInf hbad]
    exact nan_lt hf
  by_cases hnan : isNan X = true ∨ isNan Y = true ∨ isNan Z = true
  · rw [fpFmaV_nan hbad hnan]
    exact nan_lt hf
  simp only [not_or, Bool.not_eq_true] at hnan
  obtain ⟨hX, hY, hZ⟩ := hnan
  by_cases hinf : isInf X = true ∨ isInf Y = true
  · rw [fpFmaV_inf hbad hX hY hZ hinf]
    split
    · exact nan_lt hf
    · exact fpSign_add_inf_lt f _
  simp only [not_or, Bool.not_eq_true] at hinf
  obtain ⟨hX', hY'⟩ := hinf
  cases hZ' : isInf Z with
  | true =>
    rw [fpFmaV_inf_addend hX hX' hY hY' hZ']
    exact fpSign_add_inf_lt f _
  | false =>
    cases X with
    | nan s => simp [isNan] at hX
    | inf a => simp [isInf] at hX'
    | fin n1 m1 e1 =>
      cases Y with
      | nan s => simp [isNan] at hY
      | inf b => simp [isInf] at hY'
      | fin n2 m2 e2 =>
        cases Z with
        | nan s => simp [isNan] at hZ
        | inf b => simp [isInf] at hZ'
        | fin n3 m3 e3 => exact fpRoundZ_lt _ _ _ _ _ _ _

end Sizes

end Sys2Proof.Machine
end

section
/-! PROOFS. Sums, products, fused sums and quotients on encodings: the statement (R123 to R125, R253). -/

namespace Sys2Proof.Machine

theorem fb_le_of_mem_formats {f : FpFmt} (h : f ∈ formats) : f.fb ≤ 52 := by
  simp only [formats, List.mem_cons, List.not_mem_nil, or_false] at h
  rcases h with rfl | rfl | rfl | rfl <;> decide

/-! ## Finite operands -/

section Finite
variable {f : FpFmt} {rnd x y z : Nat} (hf : f.Sized) (hrnd : rnd ≤ 4) (hx : Finite f x) (hy : Finite f y)
include hx hy

/-- A zero sum of opposite signs; of two negative numbers; of two others. -/
theorem fpAddV_zero (h : valueOf f x + valueOf f y = 0) :
    ((f.signBit ≤ x ↔ ¬ f.signBit ≤ y) → fpAddV f rnd (fpDecode f x) (fpDecode f y) = (if rnd = 3 then f.signBit else 0, 0)) ∧
    (f.signBit ≤ x → f.signBit ≤ y → fpAddV f rnd (fpDecode f x) (fpDecode f y) = (f.signBit, 0)) ∧
    (¬ f.signBit ≤ x → ¬ f.signBit ≤ y → fpAddV f rnd (fpDecode f x) (fpDecode f y) = (0, 0)) := by
  obtain ⟨v, e, hval, hadd⟩ := fpAddV_finite (rnd := rnd) hx hy
  have hmx := magnitude_nonneg f (x % f.signBit)
  have hmy := magnitude_nonneg f (y % f.signBit)
  rw [hadd, fpRoundInt_zero f rnd _ (hval.trans h)]
  refine ⟨fun hsigns => ?_, fun hnx hny => ?_, fun hnx hny => ?_⟩
  · have hne : negOf f x ≠ negOf f y := fun heq => by
      have := decide_eq_decide.mp heq
      tauto
    rw [if_neg (fun hz => hne hz.2.2), fpSign_zeroSumNeg]
  · have hzero : valueOf f x = 0 ∧ valueOf f y = 0 := by
      rw [valueOf, valueOf, if_pos hnx, if_pos hny] at h ⊢
      constructor <;> linarith
    have hsign : negOf f x = true ∧ negOf f y = true := ⟨decide_eq_true hnx, decide_eq_true hny⟩
    rw [if_pos ⟨hzero.1, hzero.2, hsign.1.trans hsign.2.symm⟩, hsign.1]
    rfl
  · have hzero : valueOf f x = 0 ∧ valueOf f y = 0 := by
      rw [valueOf, valueOf, if_neg hnx, if_neg hny] at h ⊢
      constructor <;> linarith
    have hsign : negOf f x = false ∧ negOf f y = false := ⟨decide_eq_false hnx, decide_eq_false hny⟩
    rw [if_pos ⟨hzero.1, hzero.2, hsign.1.trans hsign.2.symm⟩, hsign.1]
    rfl

theorem fpMulV_zero (h : valueOf f x * valueOf f y = 0) :
    fpMulV f rnd (fpDecode f x) (fpDecode f y) = (fpSign f (negOf f x != negOf f y), 0) := by
  obtain ⟨m, e, hval, hmul⟩ := fpMulV_finite (rnd := rnd) hx hy
  obtain rfl : m = 0 := (finVal_eq_zero_iff _ _ _).mp (hval.trans h)
  rw [hmul, fpRoundZ_zero]

theorem fpFmaV_zero (hz : Finite f z) (h : valueOf f x * valueOf f y + valueOf f z = 0) :
    fpFmaV f rnd (fpDecode f x) (fpDecode f y) (fpDecode f z) =
      (if valueOf f z = 0 ∧ (negOf f x != negOf f y) = negOf f z then fpSign f (negOf f x != negOf f y) else if rnd = 3 then f.signBit else 0, 0) := by
  obtain ⟨v, e, hval, hfma⟩ := fpFmaV_finite (rnd := rnd) hx hy hz
  have hprod : valueOf f z = 0 → valueOf f x * valueOf f y = 0 := fun hz0 => by rwa [hz0, add_zero] at h
  rw [hfma, fpRoundInt_zero f rnd _ (hval.trans h)]
  by_cases hc : valueOf f z = 0 ∧ (negOf f x != negOf f y) = negOf f z
  · rw [if_pos ⟨hprod hc.1, hc⟩, if_pos hc, hc.2]
  · rw [if_neg (fun hp => hc hp.2), if_neg hc, fpSign_zeroSumNeg]

include hf hrnd

theorem fpAddV_rounds (h : valueOf f x + valueOf f y ≠ 0) : RoundsTo f rnd (valueOf f x + valueOf f y) (fpAddV f rnd (fpDecode f x) (fpDecode f y)) := by
  obtain ⟨v, e, hval, hadd⟩ := fpAddV_finite (rnd := rnd) hx hy
  rw [hadd, ← hval]
  exact fpRoundInt_rounds hf hrnd _ (hval ▸ h)

theorem fpMulV_rounds (h : valueOf f x * valueOf f y ≠ 0) : RoundsTo f rnd (valueOf f x * valueOf f y) (fpMulV f rnd (fpDecode f x) (fpDecode f y)) := by
  obtain ⟨m, e, hval, hmul⟩ := fpMulV_finite (rnd := rnd) hx hy
  rw [hmul, ← hval]
  exact fpRoundZ_rounds hf hrnd _ (hval ▸ h)

theorem fpFmaV_rounds (hz : Finite f z) (h : valueOf f x * valueOf f y + valueOf f z ≠ 0) :
    RoundsTo f rnd (valueOf f x * valueOf f y + valueOf f z) (fpFmaV f rnd (fpDecode f x) (fpDecode f y) (fpDecode f z)) := by
  obtain ⟨v, e, hval, hfma⟩ := fpFmaV_finite (rnd := rnd) hx hy hz
  rw [hfma, ← hval]
  exact fpRoundInt_rounds hf hrnd _ (hval ▸ h)

end Finite

/-! ## NaNs and infinities -/

section Special
variable {f : FpFmt} {rnd x y z : Nat} (hx : x < 2 * f.signBit) (hy : y < 2 * f.signBit) (hz : z < 2 * f.signBit)
include hx

theorem isInf_decode_iff : isInf (fpDecode f x) = true ↔ InfCode f x := by
  have hd := decodes hx
  revert hd
  generalize fpDecode f x = X
  rintro (h | h | ⟨m, e, h, -, -, -, -⟩)
  · exact iff_of_false (by simp [isInf]) (by rw [InfCode]; omega)
  · exact iff_of_true rfl h
  · exact iff_of_false (by simp [isInf]) (by rw [InfCode]; omega)

theorem isZero_decode_iff (hf : f.Sized) : isZero (fpDecode f x) = true ↔ ZeroCode f x := by
  have hinf : 0 < f.infBits := by rw [hf.infBits_eq]; positivity
  have hd := decodes hx
  revert hd
  generalize fpDecode f x = X
  rintro (h | h | ⟨m, e, h, -, hm, -, -⟩)
  · exact iff_of_false (by simp [isZero]) (by rw [ZeroCode]; omega)
  · exact iff_of_false (by simp [isZero]) (by rw [ZeroCode, h]; omega)
  · exact decide_eq_true_iff.trans hm

theorem signOf_decode (h : ¬ NanCode f x) : signOf (fpDecode f x) = negOf f x := by
  have hd := decodes hx
  revert hd
  generalize fpDecode f x = X
  rintro (h' | h' | ⟨m, e, h', -, -, -, -⟩)
  · exact absurd h' h
  · rfl
  · rfl

theorem not_isNan_decode (h : ¬ NanCode f x) : isNan (fpDecode f x) = false := by rwa [← Bool.not_eq_true, isNan_decode_iff hx]

omit hx in
theorem not_nanCode_of_infCode (h : InfCode f x) : ¬ NanCode f x := by rw [NanCode, h]; exact lt_irrefl _

theorem fpSign_add_infBits (h : InfCode f x) : fpSign f (negOf f x) + f.infBits = x := by rw [← h, fpSign_add_mod hx]

include hy

theorem fpAddV_infCode (hnx : ¬ NanCode f x) (hny : ¬ NanCode f y) :
    (InfCode f x → fpAddV f rnd (fpDecode f x) (fpDecode f y) =
      if InfCode f y ∧ (negOf f x != negOf f y) = true then (f.nan, fpNV) else (x, 0)) ∧
    (¬ InfCode f x → InfCode f y → fpAddV f rnd (fpDecode f x) (fpDecode f y) = (y, 0)) := by
  refine ⟨fun hinf => ?_, fun hfin hinf => ?_⟩
  · rw [fpAddV_inf_left ((isInf_decode_iff hx).mpr hinf) (not_isNan_decode hy hny), signOf_decode hx hnx, signOf_decode hy hny, fpSign_add_infBits hx hinf]
    exact if_congr (and_congr_left' (isInf_decode_iff hy)) rfl rfl
  · rw [fpAddV_inf_right (not_isNan_decode hx hnx) (Bool.not_eq_true _ ▸ mt (isInf_decode_iff hx).mp hfin) ((isInf_decode_iff hy).mpr hinf),
      signOf_decode hy hny, fpSign_add_infBits hy hinf]

theorem fpMulV_infCode (hf : f.Sized) (hnx : ¬ NanCode f x) (hny : ¬ NanCode f y) (hinf : InfCode f x ∨ InfCode f y) :
    fpMulV f rnd (fpDecode f x) (fpDecode f y) =
      if ZeroCode f x ∨ ZeroCode f y then (f.nan, fpNV) else (fpSign f (negOf f x != negOf f y) + f.infBits, 0) := by
  rw [fpMulV_inf (not_isNan_decode hx hnx) (not_isNan_decode hy hny) (hinf.imp (isInf_decode_iff hx).mpr (isInf_decode_iff hy).mpr), signOf_decode hx hnx,
    signOf_decode hy hny]
  exact if_congr (or_congr (isZero_decode_iff hx hf) (isZero_decode_iff hy hf)) rfl rfl

theorem zeroInf_decode_iff (hf : f.Sized) :
    (isInf (fpDecode f x) = true ∧ isZero (fpDecode f y) = true) ∨ (isZero (fpDecode f x) = true ∧ isInf (fpDecode f y) = true) ↔
      (InfCode f x ∧ ZeroCode f y) ∨ (ZeroCode f x ∧ InfCode f y) := by
  rw [isInf_decode_iff hx, isInf_decode_iff hy, isZero_decode_iff hx hf, isZero_decode_iff hy hf]

include hz

theorem fpFmaV_nanCode (hf : f.Sized) (hbad : ¬ ((InfCode f x ∧ ZeroCode f y) ∨ (ZeroCode f x ∧ InfCode f y)))
    (hnan : NanCode f x ∨ NanCode f y ∨ NanCode f z) :
    fpFmaV f rnd (fpDecode f x) (fpDecode f y) (fpDecode f z) = (f.nan, nvOf f [x, y, z]) := by
  rw [fpFmaV_nan (mt (zeroInf_decode_iff hx hy hf).mp hbad)
    (hnan.imp (isNan_decode_iff hx).mpr (Or.imp (isNan_decode_iff hy).mpr (isNan_decode_iff hz).mpr)), nvOf_cons hx, nvOf_two hy hz, BitVec.or_assoc]

theorem fpFmaV_infCode (hf : f.Sized) (hbad : ¬ ((InfCode f x ∧ ZeroCode f y) ∨ (ZeroCode f x ∧ InfCode f y)))
    (hnx : ¬ NanCode f x) (hny : ¬ NanCode f y) (hnz : ¬ NanCode f z) :
    (InfCode f x ∨ InfCode f y → fpFmaV f rnd (fpDecode f x) (fpDecode f y) (fpDecode f z) =
      if InfCode f z ∧ negOf f z ≠ (negOf f x != negOf f y) then (f.nan, fpNV) else (fpSign f (negOf f x != negOf f y) + f.infBits, 0)) ∧
    (¬ InfCode f x → ¬ InfCode f y → InfCode f z → fpFmaV f rnd (fpDecode f x) (fpDecode f y) (fpDecode f z) = (z, 0)) := by
  refine ⟨fun hinf => ?_, fun hfx hfy hinf => ?_⟩
  · rw [fpFmaV_inf (mt (zeroInf_decode_iff hx hy hf).mp hbad) (not_isNan_decode hx hnx) (not_isNan_decode hy hny) (not_isNan_decode hz hnz)
      (hinf.imp (isInf_decode_iff hx).mpr (isInf_decode_iff hy).mpr), signOf_decode hx hnx, signOf_decode hy hny, signOf_decode hz hnz]
    exact if_congr (and_congr_left' (isInf_decode_iff hz)) rfl rfl
  · rw [fpFmaV_inf_addend (not_isNan_decode hx hnx) (Bool.not_eq_true _ ▸ mt (isInf_decode_iff hx).mp hfx) (not_isNan_decode hy hny)
      (Bool.not_eq_true _ ▸ mt (isInf_decode_iff hy).mp hfy) ((isInf_decode_iff hz).mpr hinf), signOf_decode hz hnz, fpSign_add_infBits hz hinf]

end Special

/-! ## Under MODE (R124, R252) -/

section Mode
variable {f : FpFmt} (mode : Word) {x y z : Nat} (hx : x < 2 * f.signBit)
include hx

theorem fpUn_eq {op : FpFmt → Nat → FpVal → Nat × BitVec 5} (hop : ∀ r a, (op f r a).1 < 2 * f.signBit) :
    fpUn op f mode x = flushedResult (modeFtz mode) f (op f (modeRnd mode) (fpDecode f (flushed (modeFtz mode) f x))) := by
  rw [fpUn, fpFlushOut_eq _ (hop _ _), fpFlush_eq _ hx]

theorem fpBin_eq (hy : y < 2 * f.signBit) {op : FpFmt → Nat → FpVal → FpVal → Nat × BitVec 5} (hop : ∀ r a b, (op f r a b).1 < 2 * f.signBit) :
    fpBin op f mode x y =
      flushedResult (modeFtz mode) f (op f (modeRnd mode) (fpDecode f (flushed (modeFtz mode) f x)) (fpDecode f (flushed (modeFtz mode) f y))) := by
  rw [fpBin, fpFlushOut_eq _ (hop _ _ _), fpFlush_eq _ hx, fpFlush_eq _ hy]

theorem fpFmaE_eq (hf : f.Sized) (hy : y < 2 * f.signBit) (hz : z < 2 * f.signBit) : fpFmaE false f mode x y z =
    flushedResult (modeFtz mode) f (fpFmaV f (modeRnd mode) (fpDecode f (flushed (modeFtz mode) f x)) (fpDecode f (flushed (modeFtz mode) f y))
      (fpDecode f (flushed (modeFtz mode) f z))) := by
  rw [← fpFlush_eq _ hx, ← fpFlush_eq _ hy, ← fpFlush_eq _ hz]
  exact fpFlushOut_eq _ (fpFmaV_lt hf _ _ _ _)

/-- FNMA is FMA with the other sign of its first source. -/
theorem fpFmaE_negate (y z : Nat) : fpFmaE true f mode x y z = fpFmaE false f mode (x ^^^ f.signBit) y z := by
  have hflip : fpDecode f (fpFlush (modeFtz mode) f (x ^^^ f.signBit)) = fpNegV (fpDecode f (fpFlush (modeFtz mode) f x)) := by
    rw [fpFlush_eq _ (flip_lt hx), fpFlush_eq _ hx, flushed_flip _ hx, decode_flip (flushed_lt _ hx)]
  unfold fpFmaE
  simp only [if_true, Bool.false_eq_true, if_false, hflip]

end Mode

/-- Settles O7: finite operands by their exact values, NaNs and infinities by kind, and MODE's FTZ around the operation. -/
theorem floatArithmeticRoundsOnce : Obligations.FloatArithmeticRoundsOnce := by
  unfold Obligations.FloatArithmeticRoundsOnce
  refine ⟨fun f rnd x y z hmem hrnd hx hy hz => ?_, fun f rnd x y z hmem hrnd hx hy hz => ?_, fun f mode x y z hmem hx hy hz => ?_⟩ <;>
    have hf := sized_of_mem_formats hmem
  · exact ⟨fpAddV_rounds hf hrnd hx hy, fpAddV_zero hx hy, fpMulV_rounds hf hrnd hx hy, fpMulV_zero hx hy, fpFmaV_rounds hf hrnd hx hy hz,
      fpFmaV_zero hx hy hz, fpDivV_finite hx hy hf (fb_le_of_mem_formats hmem) hrnd⟩
  · refine ⟨fun hnan => ?_, fun hnx hny => ?_, ?_, fun hbad => fpFmaV_zeroInf ((zeroInf_decode_iff hx hy hf).mpr hbad), fpFmaV_nanCode hx hy hz hf,
      fpFmaV_infCode hx hy hz hf⟩
    · have hnan' := hnan.imp (isNan_decode_iff hx).mpr (isNan_decode_iff hy).mpr
      rw [nvOf_two hx hy]
      exact ⟨fpAddV_nan hnan', fpMulV_nan hnan'⟩
    · obtain ⟨hleft, hright⟩ := fpAddV_infCode (rnd := rnd) hx hy hnx hny
      exact ⟨hleft, hright, fpMulV_infCode hx hy hf hnx hny⟩
    · rw [fpSubV, decode_flip hy]
  · exact ⟨fun op hop => fpBin_eq mode hx hy hop, fun op hop => fpUn_eq mode hx hop,
      fun r a b => ⟨fpAddV_lt hf r a b, fpAddV_lt hf r a (fpNegV b), fpMulV_lt hf r a b, fpDivV_lt hf r a b⟩, fpFmaE_eq mode hx hf hy hz,
      fpFmaE_negate mode hx y z⟩

end Sys2Proof.Machine
end

section
/-! PROOFS. Rounding to an integer (R123, R127): the neighbours of an exact value, the choice between them, and the clamping of an integer TYPE. -/

namespace Sys2Proof.Machine

/-- A finite value rounded to an integer under RND: the integer below its magnitude or the next one, with its sign. -/
structure RoundsToInt (rnd : Nat) (v : ℚ) (k : Int) : Prop where
  up : goesUp rnd (v < 0) ⌊|v|⌋₊ (|v| = ⌊|v|⌋₊) ((⌊|v|⌋₊ : ℚ) + 1 / 2 < |v|) (|v| = (⌊|v|⌋₊ : ℚ) + 1 / 2) → |k| = ⌊|v|⌋₊ + 1
  stays : ¬ goesUp rnd (v < 0) ⌊|v|⌋₊ (|v| = ⌊|v|⌋₊) ((⌊|v|⌋₊ : ℚ) + 1 / 2 < |v|) (|v| = (⌊|v|⌋₊ : ℚ) + 1 / 2) → |k| = ⌊|v|⌋₊
  neg : v < 0 → k ≤ 0
  nonneg : 0 ≤ v → 0 ≤ k

/-- The magnitude r with the sign of v. -/
def withSign (v : ℚ) (r : Nat) : Int := if v < 0 then -(r : Int) else (r : Int)

theorem abs_withSign (v : ℚ) (r : Nat) : |withSign v r| = r := by
  unfold withSign
  split <;> simp

theorem withSign_nonpos {v : ℚ} (h : v < 0) (r : Nat) : withSign v r ≤ 0 := by
  rw [withSign, if_pos h]
  omega

theorem withSign_nonneg {v : ℚ} (h : 0 ≤ v) (r : Nat) : 0 ≤ withSign v r := by
  rw [withSign, if_neg (not_lt.mpr h)]
  omega

/-- The integer with the sign of v is v where its magnitude is. -/
theorem withSign_eq_iff (v : ℚ) (r : Nat) : ((withSign v r : Int) : ℚ) = v ↔ |v| = r := by
  unfold withSign
  split
  next h => rw [abs_of_neg h, Int.cast_neg, Int.cast_natCast, neg_eq_iff_eq_neg, eq_comm]
  next h => rw [abs_of_nonneg (not_lt.mp h), Int.cast_natCast, eq_comm]

theorem roundsToInt_withSign {rnd r : Nat} {v : ℚ}
    (hup : goesUp rnd (v < 0) ⌊|v|⌋₊ (|v| = ⌊|v|⌋₊) ((⌊|v|⌋₊ : ℚ) + 1 / 2 < |v|) (|v| = (⌊|v|⌋₊ : ℚ) + 1 / 2) → r = ⌊|v|⌋₊ + 1)
    (hstays : ¬ goesUp rnd (v < 0) ⌊|v|⌋₊ (|v| = ⌊|v|⌋₊) ((⌊|v|⌋₊ : ℚ) + 1 / 2 < |v|) (|v| = (⌊|v|⌋₊ : ℚ) + 1 / 2) → r = ⌊|v|⌋₊) :
    RoundsToInt rnd v (withSign v r) :=
  ⟨fun h => by rw [abs_withSign, hup h]; push_cast; rfl, fun h => by rw [abs_withSign, hstays h], fun h => withSign_nonpos h r,
    fun h => withSign_nonneg h r⟩

/-- Some integer is the rounded value, at least as far from 0 as the integer part. -/
theorem exists_roundsToInt (rnd : Nat) (v : ℚ) : ∃ r, ⌊|v|⌋₊ ≤ r ∧ RoundsToInt rnd v (withSign v r) := by
  by_cases h : goesUp rnd (v < 0) ⌊|v|⌋₊ (|v| = ⌊|v|⌋₊) ((⌊|v|⌋₊ : ℚ) + 1 / 2 < |v|) (|v| = (⌊|v|⌋₊ : ℚ) + 1 / 2)
  · exact ⟨_, Nat.le_succ _, roundsToInt_withSign (fun _ => rfl) (fun hn => absurd h hn)⟩
  · exact ⟨_, le_rfl, roundsToInt_withSign (fun hy => absurd hy h) (fun _ => rfl)⟩

section Rounding
variable {rnd : Nat}

/-- A magnitude rounded up by its position is no integer, and does not reach the next one. -/
theorem eq_rounded_iff {w : ℚ} {n : Bool} {s : Nat × Nat} (h : LiesAt w s.1 s.2) : w = ((s.1 + roundingUp rnd n s : Nat) : ℚ) ↔ s.2 = 0 := by
  rw [← h.exact_iff]
  unfold roundingUp
  split
  next hup =>
    have hne : w ≠ s.1 := mt h.exact_iff.mp (roundsUp_pos_ne hup)
    have hlt := h.lt
    push_cast
    exact iff_of_false hlt.ne hne
  next => simp

/-- The model's rounding to an integer. -/
theorem roundIntegral_rounds (hrnd : rnd ≤ 4) (n : Bool) (m : Nat) (e : Int) :
    RoundsToInt rnd (finVal n m e) (withSign (finVal n m e) (roundIntegral rnd n m e).1) ∧
    (((withSign (finVal n m e) (roundIntegral rnd n m e).1 : Int) : ℚ) = finVal n m e ↔ (roundIntegral rnd n m e).2 = 0) ∧
    (if n then -((roundIntegral rnd n m e).1 : Int) else ((roundIntegral rnd n m e).1 : Int)) =
      withSign (finVal n m e) (roundIntegral rnd n m e).1 := by
  have hlies : LiesAt |finVal n m e| (splitAt m e false 0).1 (splitAt m e false 0).2 := by
    have h := liesAt_splitAt (q := 0) (sticky := false) (abs_finVal n m e) (fun h => absurd h (by decide))
    simpa using h
  have hfloor : ⌊|finVal n m e|⌋₊ = (splitAt m e false 0).1 := (Nat.floor_eq_iff (abs_nonneg _)).mpr ⟨hlies.le, hlies.lt⟩
  have hr : roundIntegral rnd n m e = ((splitAt m e false 0).1 + roundingUp rnd n (splitAt m e false 0), (splitAt m e false 0).2) := rfl
  -- the sign of a zero does not matter: a zero is exact, and is not rounded up
  have hzero (hm : m = 0) : splitAt m e false 0 = (0, 0) := by
    have hval : finVal n m e = 0 := (finVal_eq_zero_iff n m e).mpr hm
    have h0 : (splitAt m e false 0).1 = 0 := by rw [← hfloor, hval, abs_zero, Nat.floor_zero]
    exact Prod.ext h0 (hlies.exact_iff.mp (by rw [h0, hval, abs_zero, Nat.cast_zero]))
  have hup : roundingUp rnd n (splitAt m e false 0) = roundingUp rnd (decide (finVal n m e < 0)) (splitAt m e false 0) := by
    by_cases hm : m = 0
    · rw [hzero hm, roundingUp, roundingUp, if_neg fun h => roundsUp_pos_ne h rfl, if_neg fun h => roundsUp_pos_ne h rfl]
    · have hn : decide (finVal n m e < 0) = n := by rw [Bool.eq_iff_iff, decide_eq_true_iff, finVal_lt_zero_iff hm]
      rw [hn]
  have hgoes := roundsUp_iff (n := (splitAt m e false 0).1) hrnd hlies.pos_le (decide_eq_true_iff (p := finVal n m e < 0)) hlies.exact_iff hlies.above_iff
    hlies.half_iff
  refine ⟨roundsToInt_withSign ?_ ?_, ?_, ?_⟩
  · rw [hfloor, ← hgoes, hr, hup]
    exact fun h => by rw [roundingUp, if_pos h]
  · rw [hfloor, ← hgoes, hr, hup]
    exact fun h => by rw [roundingUp, if_neg h, Nat.add_zero]
  · rw [withSign_eq_iff, hr]
    exact eq_rounded_iff hlies
  · by_cases hm : m = 0
    · rw [hr, hzero hm, roundingUp, if_neg fun h => roundsUp_pos_ne h rfl]
      simp [withSign]
    · exact if_congr (finVal_lt_zero_iff hm) rfl rfl

end Rounding

/-! ## To the range of an integer TYPE (R127) -/

/-- The value clamped to a range, and its exceptions. -/
theorem fpToInt_inRange {rnd : Nat} (hrnd : rnd ≤ 4) {lo hi : Int} (hlo : lo ≤ 0) (hhi : 0 ≤ hi) (hlow : -(2 : Int) ^ 80 < lo) (hhigh : hi < (2 : Int) ^ 80)
    (n : Bool) (m : Nat) (e : Int) : ∃ k : Int, RoundsToInt rnd (finVal n m e) k ∧ fpToInt rnd lo hi (.fin n m e) =
      (max lo (min hi k), if k < lo ∨ hi < k then fpNV else if (k : ℚ) = finVal n m e then 0 else fpNX) := by
  by_cases hbig : 80 < e + (Nat.log2 m : Int) ∧ m ≠ 0
  · obtain ⟨r, hr, hround⟩ := exists_roundsToInt rnd (finVal n m e)
    obtain ⟨htop, -⟩ := LeadingBits.top (sticky := false) (abs_finVal n m e) hbig.2
    have hle : (2 : Int) ^ 80 ≤ r := by
      have hfloor : 2 ^ 80 ≤ ⌊|finVal n m e|⌋₊ := Nat.le_floor <| by
        have hpow : ((2 ^ 80 : Nat) : ℚ) = (2 : ℚ) ^ (80 : Int) := by norm_num
        rw [hpow]
        exact le_trans (zpow_le_zpow_right₀ (by norm_num) (by omega)) htop
      exact_mod_cast hfloor.trans hr
    refine ⟨_, hround, ?_⟩
    simp only [fpToInt, if_pos hbig, withSign, ← finVal_lt_zero_iff (n := n) (e := e) hbig.2]
    cases n with
    | true =>
      simp only [if_true]
      rw [if_pos (by omega), max_eq_left (by omega)]
    | false =>
      simp only [Bool.false_eq_true, if_false]
      rw [if_pos (by omega), min_eq_left (by omega), max_eq_right (by omega)]
  · obtain ⟨hround, hexact, hsign⟩ := roundIntegral_rounds hrnd n m e
    refine ⟨_, hround, ?_⟩
    simp only [fpToInt, if_neg hbig, hsign, hexact]
    generalize withSign (finVal n m e) (roundIntegral rnd n m e).1 = k
    rcases lt_or_ge k lo with hk | hk
    · rw [if_pos hk, if_pos (.inl hk), max_eq_left (by omega)]
    rcases lt_or_ge hi k with hk' | hk'
    · rw [if_neg (by omega), if_pos hk', if_pos (.inr hk'), min_eq_left hk'.le, max_eq_right (by omega)]
    · rw [if_neg (by omega), if_neg (by omega), if_neg (show ¬ (k < lo ∨ hi < k) by omega), min_eq_right hk', max_eq_right hk]

theorem elemWidth_le (ty : Nat) : elemWidth ty ≤ 64 := by
  unfold elemWidth
  split_ifs <;> decide

/-- The range of an integer TYPE holds 0 and lies far within 80 bits. -/
theorem range_spec (ty : Nat) : leastOf ty ≤ 0 ∧ 0 ≤ greatestOf ty ∧ -(2 : Int) ^ 80 < leastOf ty ∧ greatestOf ty < (2 : Int) ^ 80 := by
  have hw := elemWidth_le ty
  have h1 : (2 : Int) ^ (elemWidth ty - 1) ≤ 2 ^ 64 := pow_le_pow_right₀ (by norm_num) (by omega)
  have h2 : (2 : Int) ^ elemWidth ty ≤ 2 ^ 64 := pow_le_pow_right₀ (by norm_num) hw
  have h1' : (0 : Int) < 2 ^ (elemWidth ty - 1) := by positivity
  have h2' : (0 : Int) < 2 ^ elemWidth ty := by positivity
  unfold leastOf greatestOf
  split_ifs <;> omega

end Sys2Proof.Machine
end

section
/-! PROOFS. Conversions to integers and to floating-point formats (R127, R257 to R259). -/

namespace Sys2Proof.Machine

theorem fmtOfType_mem_formats (ty : Nat) : fmtOfType ty ∈ formats := by
  unfold fmtOfType
  split_ifs <;> decide

theorem sized_fmtOfType (ty : Nat) : (fmtOfType ty).Sized := sized_of_mem_formats (fmtOfType_mem_formats ty)

/-! ## FTZ and results that are no subnormal -/

section Results
variable {f : FpFmt} (hf : f.Sized) (ftz n : Bool)

theorem flushedResult_of_not_subCode {r : Nat × BitVec 5} (h : subCode f r.1 = false) : flushedResult ftz f r = r := by
  rw [flushedResult, h, Bool.and_false]
  rfl

theorem flushedResult_zero (fl : BitVec 5) : flushedResult ftz f (fpSign f n, fl) = (fpSign f n, fl) :=
  flushedResult_of_not_subCode ftz (by simp [subCode, show fpSign f n % f.signBit = 0 from fpSign_add_mod_signBit n (signBit_pos f)])

include hf

/-- An encoding from the infinity's up is no subnormal. -/
theorem subCode_of_infBits_le {c : Nat} (hc : f.infBits ≤ c % f.signBit) : subCode f c = false := by
  have hnormal : 2 ^ f.fb ≤ f.infBits := by
    rw [hf.infBits_eq]
    exact Nat.le_mul_of_pos_left _ (by omega)
  have : decide (c % f.signBit < 2 ^ f.fb) = false := decide_eq_false (by omega)
  rw [subCode, this, Bool.and_false]

theorem flushedResult_inf (fl : BitVec 5) : flushedResult ftz f (fpSign f n + f.infBits, fl) = (fpSign f n + f.infBits, fl) :=
  flushedResult_of_not_subCode ftz (subCode_of_infBits_le hf (fpSign_add_mod_signBit n (infBits_lt_signBit f)).ge)

theorem flushedResult_nan (fl : BitVec 5) : flushedResult ftz f (f.nan, fl) = (f.nan, fl) := by
  have hnan : f.nan % f.signBit = f.nan := Nat.mod_eq_of_lt (nan_lt_signBit hf)
  exact flushedResult_of_not_subCode ftz (subCode_of_infBits_le hf (by rw [hnan]; exact Nat.le_add_right _ _))

end Results

/-! ## From an integer -/

section FromInt
variable {mode : Word} (ring : Option Ring) (v : Int)

theorem cvtInt_int (hty : isIntType (modeType mode) = true) : cvtInt mode ring v = (perhapsClamped (modeType mode) (modeSat mode) v, 0) := by
  simp only [cvtInt, hty, if_true, elemResult_eq]

theorem cvtInt_fp_eq (hty : isFpType (modeType mode) = true) : cvtInt mode ring v = fpRoundInt (fmtOfType (modeType mode)) (modeRnd mode) false v 0 := by
  simp only [cvtInt, not_isIntType_of_isFpType hty, hty, Bool.false_eq_true, if_false, if_true]

theorem cvtInt_fp (hrnd : modeRnd mode ≤ 4) (hty : isFpType (modeType mode) = true) :
    (v = 0 → cvtInt mode ring v = (0, 0)) ∧ (v ≠ 0 → RoundsTo (fmtOfType (modeType mode)) (modeRnd mode) (v : ℚ) (cvtInt mode ring v)) := by
  rw [cvtInt_fp_eq ring v hty]
  have hscale : (v : ℚ) * 2 ^ (0 : Int) = v := by rw [zpow_zero, mul_one]
  refine ⟨fun hv => ?_, fun hv => ?_⟩
  · rw [hv]
    rfl
  · have hne : (v : ℚ) ≠ 0 := Int.cast_ne_zero.mpr hv
    rw [← hscale] at hne ⊢
    exact fpRoundInt_rounds (sized_fmtOfType _) hrnd false hne

end FromInt

/-! ## From a floating-point value -/

theorem fpConvV_lt {f : FpFmt} (hf : f.Sized) (rnd : Nat) (v : FpVal) : (fpConvV f rnd v).1 < 2 * f.signBit := by
  cases v with
  | nan s => exact nan_lt hf
  | inf n => exact fpSign_add_inf_lt f n
  | fin n m e => exact fpRoundZ_lt f rnd n n m e false

theorem wrapped_zero (ty : Nat) : wrapped ty 0 = 0 := by simp [wrapped]

/-- A zero decodes to the finite value with mantissa 0. -/
theorem decode_of_zero {f : FpFmt} (hf : f.Sized) {x : Nat} (hx : x < 2 * f.signBit) (h : ZeroCode f x) : ∃ e, fpDecode f x = .fin (negOf f x) 0 e := by
  have hinf : 0 < f.infBits := by rw [hf.infBits_eq]; positivity
  have hfin : Finite f x := ⟨hx, by rw [h]; exact hinf⟩
  obtain ⟨m, e, hdec, -, -, -⟩ := decode_finVal hfin
  have hzero := (isZero_decode_iff hx hf).mpr h
  rw [hdec] at hzero
  have hm : m = 0 := by simpa [isZero] using hzero
  exact ⟨e, by rw [hdec, hm]⟩

section FromFp
variable {f : FpFmt} {mode : Word} (ring : Option Ring) {x : Nat} (hx : x < 2 * f.signBit)
include hx

theorem cvtFp_int_eq (hty : isIntType (modeType mode) = true) :
    cvtFp f mode ring x =
      (wrapped (modeType mode) (fpToInt (modeRnd mode) (leastOf (modeType mode)) (greatestOf (modeType mode)) (fpDecode f (flushed (modeFtz mode) f x))).1,
        (fpToInt (modeRnd mode) (leastOf (modeType mode)) (greatestOf (modeType mode)) (fpDecode f (flushed (modeFtz mode) f x))).2) := by
  simp only [cvtFp, hty, if_true, fpFlush_eq _ hx, elemMin_eq_leastOf, elemMax_eq_greatestOf, wrapNat_elem]

theorem cvtFp_fp_eq (hty : isFpType (modeType mode) = true) :
    cvtFp f mode ring x = flushedResult (modeFtz mode) (fmtOfType (modeType mode))
      (fpConvV (fmtOfType (modeType mode)) (modeRnd mode) (fpDecode f (flushed (modeFtz mode) f x))) := by
  simp only [cvtFp, not_isIntType_of_isFpType hty, hty, Bool.false_eq_true, if_false, if_true, fpFlush_eq _ hx]
  exact fpFlushOut_eq _ (fpConvV_lt (sized_fmtOfType _) _ _)

section ToInt
variable (hty : isIntType (modeType mode) = true)
include hty

theorem cvtFp_int_nan (hX : NanCode f (flushed (modeFtz mode) f x)) : cvtFp f mode ring x = (0, fpNV) := by
  obtain ⟨s, hs⟩ := isNan_iff.mp ((isNan_decode_iff (flushed_lt _ hx)).mpr hX)
  rw [cvtFp_int_eq ring hx hty, hs, fpToInt]
  exact congrArg (·, fpNV) (wrapped_zero _)

theorem cvtFp_int_inf (hX : InfCode f (flushed (modeFtz mode) f x)) : cvtFp f mode ring x =
    (wrapped (modeType mode) (if negOf f (flushed (modeFtz mode) f x) then leastOf (modeType mode) else greatestOf (modeType mode)), fpNV) := by
  rw [cvtFp_int_eq ring hx hty, decode_of_inf (flushed_lt _ hx) hX, fpToInt]

theorem cvtFp_int_finite (hrnd : modeRnd mode ≤ 4) (hX : Finite f (flushed (modeFtz mode) f x)) :
    ∃ k : Int, RoundsToInt (modeRnd mode) (valueOf f (flushed (modeFtz mode) f x)) k ∧ cvtFp f mode ring x =
      (perhapsClamped (modeType mode) true k, if k < leastOf (modeType mode) ∨ greatestOf (modeType mode) < k then fpNV
        else if (k : ℚ) = valueOf f (flushed (modeFtz mode) f x) then 0 else fpNX) := by
  obtain ⟨m, e, hdec, hval, -, -⟩ := decode_finVal hX
  obtain ⟨hlo, hhi, hlow, hhigh⟩ := range_spec (modeType mode)
  obtain ⟨k, hround, heq⟩ := fpToInt_inRange hrnd hlo hhi hlow hhigh (negOf f (flushed (modeFtz mode) f x)) m e
  rw [← hval] at hround heq
  exact ⟨k, hround, by rw [cvtFp_int_eq ring hx hty, hdec, heq, perhapsClamped_eq, if_pos rfl]⟩

end ToInt

section ToFp
variable (hty : isFpType (modeType mode) = true)
include hty

theorem cvtFp_fp_nan (hX : NanCode f (flushed (modeFtz mode) f x)) :
    cvtFp f mode ring x = ((fmtOfType (modeType mode)).nan, nvOf f [flushed (modeFtz mode) f x]) := by
  have hlt := flushed_lt (modeFtz mode) hx
  obtain ⟨s, hs⟩ := isNan_iff.mp ((isNan_decode_iff hlt).mpr hX)
  have hconv : fpConvV (fmtOfType (modeType mode)) (modeRnd mode) (.nan s) = ((fmtOfType (modeType mode)).nan, sigNV (.nan s)) := by cases s <;> rfl
  rw [cvtFp_fp_eq ring hx hty, hs, hconv, flushedResult_nan (sized_fmtOfType _), nvOf_cons hlt, hs]
  exact congrArg _ (BitVec.or_zero).symm

theorem cvtFp_fp_inf (hX : InfCode f (flushed (modeFtz mode) f x)) : cvtFp f mode ring x =
    (fpSign (fmtOfType (modeType mode)) (negOf f (flushed (modeFtz mode) f x)) + (fmtOfType (modeType mode)).infBits, 0) := by
  rw [cvtFp_fp_eq ring hx hty, decode_of_inf (flushed_lt _ hx) hX, fpConvV, flushedResult_inf (sized_fmtOfType _)]

theorem cvtFp_fp_zero (hf : f.Sized) (hX : ZeroCode f (flushed (modeFtz mode) f x)) :
    cvtFp f mode ring x = (fpSign (fmtOfType (modeType mode)) (negOf f (flushed (modeFtz mode) f x)), 0) := by
  obtain ⟨e, he⟩ := decode_of_zero hf (flushed_lt _ hx) hX
  rw [cvtFp_fp_eq ring hx hty, he, fpConvV, fpRoundZ_zero, flushedResult_zero]

theorem cvtFp_fp_finite (hrnd : modeRnd mode ≤ 4) (hX : Finite f (flushed (modeFtz mode) f x)) (hne : valueOf f (flushed (modeFtz mode) f x) ≠ 0) :
    ∃ r, RoundsTo (fmtOfType (modeType mode)) (modeRnd mode) (valueOf f (flushed (modeFtz mode) f x)) r ∧
      cvtFp f mode ring x = flushedResult (modeFtz mode) (fmtOfType (modeType mode)) r := by
  obtain ⟨m, e, hdec, hval, -, -⟩ := decode_finVal hX
  rw [hval] at hne ⊢
  exact ⟨_, fpRoundZ_rounds (sized_fmtOfType _) hrnd _ hne, by rw [cvtFp_fp_eq ring hx hty, hdec, fpConvV]⟩

end ToFp

end FromFp

/-! ## PACK2 (R259) -/

section Pack2
variable {mode : Word} (hty : modeType mode = 7 ∨ modeType mode = 8)
include hty

theorem pack2Val_eq (a b : Nat) : pack2Val mode a b = mapElems (modeType mode) (fun e => cvtFp fmtFp32 mode none (if e = 0 then a else b)) := by
  have hfp : isFpType (modeType mode) = true := by rcases hty with h | h <;> rw [h] <;> rfl
  simp only [pack2Val, cvtFp, not_isIntType_of_isFpType hfp, hfp, Bool.false_eq_true, if_false, if_true]

theorem packed_elems : elemCount (modeType mode) = 2 ∧ elemWidth (modeType mode) = 16 := by
  rcases hty with h | h <;> rw [h] <;> decide

theorem holds_pack2Val (a b : Nat) : Holds (modeType mode) (pack2Val mode a b).1
    (fun e => (if e = 0 then (cvtFp fmtFp32 mode none a).1 else (cvtFp fmtFp32 mode none b).1) % 2 ^ 16) := by
  have hwidth := (packed_elems hty).2
  rw [pack2Val_eq hty]
  refine (holds_mapElems _ _).congr fun e _ => ?_
  rw [hwidth]
  split <;> rfl

theorem pack2Val_flags (a b : Nat) : (pack2Val mode a b).2 = (cvtFp fmtFp32 mode none a).2 ||| (cvtFp fmtFp32 mode none b).2 := by
  have hcount := (packed_elems hty).1
  rw [pack2Val_eq hty, mapElems_flags, hcount]
  simp [flagsOf, List.range_succ]

end Pack2

end Sys2Proof.Machine
end

section
/-! PROOFS. The position of an exact value in a ring (R135, R148): points as numbers, the arcs between them, and the element of one position. -/

namespace Sys2Proof.Machine

/-! ## Fractions -/

/-- The number that a numerator and a denominator stand for. -/
def ratOf (a : Rat2) : ℚ := (a.1 : ℚ) / (a.2 : ℚ)

theorem ratLt_iff {a b : Rat2} (ha : 0 < a.2) (hb : 0 < b.2) : ratLt a b = true ↔ ratOf a < ratOf b := by
  have ha' : (0 : ℚ) < a.2 := Nat.cast_pos.mpr ha
  have hb' : (0 : ℚ) < b.2 := Nat.cast_pos.mpr hb
  rw [ratLt, decide_eq_true_iff, ratOf, ratOf, div_lt_div_iff₀ ha' hb']
  exact_mod_cast Iff.rfl

theorem ratEq_iff {a b : Rat2} (ha : 0 < a.2) (hb : 0 < b.2) : ratEq a b = true ↔ ratOf a = ratOf b := by
  have ha' : (a.2 : ℚ) ≠ 0 := Nat.cast_ne_zero.mpr ha.ne'
  have hb' : (b.2 : ℚ) ≠ 0 := Nat.cast_ne_zero.mpr hb.ne'
  rw [ratEq, decide_eq_true_iff, ratOf, ratOf, div_eq_div_iff ha' hb']
  exact_mod_cast Iff.rfl

theorem ratOf_int (v : Int) : ratOf (v, 1) = v := by simp [ratOf]

/-! ## Points -/

theorem pointVal_pos (w : Nat) : 0 < (pointVal w).2 := by
  unfold pointVal
  split
  · exact Nat.two_pow_pos 149
  · exact Nat.one_pos

/-- A finite point stands for its value. -/
theorem ratOf_pointVal {w : Nat} (hw : Finite fmtFp32 w) : ratOf (pointVal w) = valueOf fmtFp32 w := by
  obtain ⟨m, e, hdec, hval, -, he⟩ := decode_finVal hw
  have he' : -149 ≤ e := he
  have hscale : (2 : ℚ) ^ e * 2 ^ 149 = 2 ^ (e + 149).toNat := by
    rw [← zpow_natCast, ← zpow_natCast, ← zpow_add₀ two_ne_zero, Int.toNat_of_nonneg (by omega)]
    rfl
  have hnum : pointVal w = ((if negOf fmtFp32 w then -((m * 2 ^ (e + 149).toNat : Nat) : Int) else ((m * 2 ^ (e + 149).toNat : Nat) : Int)), 2 ^ 149) := by
    rw [pointVal, hdec]
    rfl
  have hden : ((2 ^ 149 : Nat) : ℚ) ≠ 0 := Nat.cast_ne_zero.mpr (Nat.two_pow_pos 149).ne'
  rw [hval, hnum, ratOf, div_eq_iff hden, finVal]
  push_cast
  rw [← hscale]
  split_ifs <;> ring

theorem finite_point {w : Word} (h : bits w.toNat 30 23 ≠ 255) : Finite fmtFp32 w.toNat := by
  have hw := w.isLt
  have hsign : fmtFp32.signBit = 2 ^ 31 := by decide
  have hinf : fmtFp32.infBits = 255 * 2 ^ 23 := by decide
  rw [bits] at h
  rw [Finite, hsign, hinf]
  omega

section Ring
variable {form : Nat} {ps : List Word} (hps : pointsValid form ps = true)

theorem ringK_pos (form : Nat) : 8 ≤ ringK form := by
  unfold ringK
  split_ifs <;> decide

include hps

/-- Valid points are finite and ascend. -/
theorem pointsValid_spec : (∀ i, 1 ≤ i → i < ringK form → ratOf (ringPoint ps i) = pointOf ps i) ∧
    ∀ i, 1 ≤ i → i + 1 < ringK form → pointOf ps i < pointOf ps (i + 1) := by
  simp only [pointsValid, Bool.and_eq_true, decide_eq_true_iff, List.all_eq_true, List.mem_range] at hps
  obtain ⟨⟨⟨hlen, hfin⟩, hasc⟩, -⟩ := hps
  have hval (i : Nat) (h1 : 1 ≤ i) (hi : i < ringK form) : ratOf (ringPoint ps i) = pointOf ps i := by
    have hlt : i - 1 < ps.length := by omega
    have hget : nthD ps (i - 1) 0 = ps[i - 1] := by rw [nthD, List.getElem?_eq_getElem hlt, Option.getD_some]
    exact ratOf_pointVal (by rw [hget]; exact finite_point (hfin _ (List.getElem_mem hlt)))
  refine ⟨hval, fun i h1 hi => ?_⟩
  have hlt := hasc (i - 1) (by omega)
  rw [ratLt_iff (pointVal_pos _) (pointVal_pos _), Nat.sub_add_cancel h1] at hlt
  rw [← hval i h1 (by omega), ← hval (i + 1) (by omega) hi]
  exact hlt

theorem pointOf_lt {i j : Nat} (h1 : 1 ≤ i) (hij : i < j) (hj : j < ringK form) : pointOf ps i < pointOf ps j := by
  obtain ⟨-, hasc⟩ := pointsValid_spec hps
  induction j, hij using Nat.le_induction with
  | base => exact hasc i h1 hj
  | succ j hle ih => exact (ih (by omega)).trans (hasc j (by omega) hj)

end Ring

/-! ## The position of a number (R135) -/

section Position
variable {form : Nat} {ps : List Word} {k l : Nat} {x : ℚ}

theorem atPosition_even (h : k % 2 = 0) : AtPosition form ps k (some (x : ℝ)) ↔ k ≠ 0 ∧ x = pointOf ps (k / 2) := by
  rw [AtPosition, if_pos h, Rat.cast_inj]

theorem atPosition_odd (h : ¬ k % 2 = 0) : AtPosition form ps k (some (x : ℝ)) ↔
    (k = 1 ∨ pointOf ps (k / 2) < x) ∧ (k = ringN form - 1 ∨ x < pointOf ps (k / 2 + 1)) := by
  rw [AtPosition, if_neg h, Rat.cast_lt, Rat.cast_lt]

/-- A number lies at most at the point that ends its position. -/
theorem AtPosition.le (h : AtPosition form ps k (some (x : ℝ))) (hk : k ≠ ringN form - 1) :
    x ≤ pointOf ps ((k + 1) / 2) ∧ (¬ k % 2 = 0 → x < pointOf ps ((k + 1) / 2)) := by
  by_cases hpar : k % 2 = 0
  · obtain ⟨-, hx⟩ := (atPosition_even hpar).mp h
    rw [show (k + 1) / 2 = k / 2 by omega]
    exact ⟨hx.le, fun hn => absurd hpar hn⟩
  · obtain ⟨-, hx⟩ := (atPosition_odd hpar).mp h
    rw [show (k + 1) / 2 = k / 2 + 1 by omega]
    have hlt := hx.resolve_left hk
    exact ⟨hlt.le, fun _ => hlt⟩

/-- A number lies at least at the point that begins its position. -/
theorem AtPosition.ge (h : AtPosition form ps k (some (x : ℝ))) (hk : k ≠ 1) :
    pointOf ps (k / 2) ≤ x ∧ (¬ k % 2 = 0 → pointOf ps (k / 2) < x) := by
  by_cases hpar : k % 2 = 0
  · obtain ⟨-, hx⟩ := (atPosition_even hpar).mp h
    exact ⟨hx.ge, fun hn => absurd hpar hn⟩
  · obtain ⟨hx, -⟩ := (atPosition_odd hpar).mp h
    have hlt := hx.resolve_left hk
    exact ⟨hlt.le, fun _ => hlt⟩

theorem ringN_eq (form : Nat) : ringN form = 2 * ringK form := rfl

variable (hps : pointsValid form ps = true)
include hps

/-- No number lies at two positions. -/
theorem AtPosition.not_later (h1 : 1 ≤ k) (hlt : k < l) (hl : l < ringN form) (hk : AtPosition form ps k (some (x : ℝ))) :
    ¬ AtPosition form ps l (some (x : ℝ)) := by
  intro hl'
  rw [ringN_eq] at hl
  obtain ⟨hle, hsltk⟩ := hk.le (by rw [ringN_eq]; omega)
  obtain ⟨hge, hsltl⟩ := hl'.ge (by omega)
  rcases Nat.lt_or_ge ((k + 1) / 2) (l / 2) with h | h
  · exact absurd (pointOf_lt hps (by omega) h (by omega)) (not_lt.mpr (hge.trans hle))
  · have heq : (k + 1) / 2 = l / 2 := by omega
    rw [heq] at hle hsltk
    by_cases hpar : k % 2 = 0
    · exact absurd (hsltl (by omega)) (not_lt.mpr hle)
    · exact absurd (hsltk hpar) (not_lt.mpr hge)

theorem AtPosition.unique (h1 : 1 ≤ k) (hk : k < ringN form) (h1' : 1 ≤ l) (hl : l < ringN form) (hat : AtPosition form ps k (some (x : ℝ)))
    (hat' : AtPosition form ps l (some (x : ℝ))) : l = k := by
  rcases Nat.lt_trichotomy k l with h | h | h
  · exact absurd hat' (AtPosition.not_later hps h1 h hl hat)
  · exact h.symm
  · exact absurd hat (AtPosition.not_later hps h1' h hk hat')

omit hps in
/-- A number lies at one of the positions up to point j, or above point j. -/
theorem exists_atPosition_or_lt (x : ℚ) : ∀ j, j < ringK form →
    (∃ k, 1 ≤ k ∧ k ≤ 2 * j ∧ AtPosition form ps k (some (x : ℝ))) ∨ (j = 0 ∨ pointOf ps j < x)
  | 0, _ => .inr (.inl rfl)
  | j + 1, hj => by
    rcases exists_atPosition_or_lt x j (by omega) with ⟨k, h1, hk, hat⟩ | hlow
    · exact .inl ⟨k, h1, by omega, hat⟩
    have hhalf : (2 * j + 1) / 2 = j := by omega
    rcases lt_trichotomy x (pointOf ps (j + 1)) with h | h | h
    · refine .inl ⟨2 * j + 1, by omega, by omega, (atPosition_odd (by omega)).mpr ⟨hlow.imp (by omega) fun h => by rwa [hhalf], .inr ?_⟩⟩
      rwa [hhalf]
    · exact .inl ⟨2 * (j + 1), by omega, le_rfl, (atPosition_even (by omega)).mpr ⟨by omega, by rwa [Nat.mul_div_cancel_left _ two_pos]⟩⟩
    · exact .inr (.inr h)

omit hps in
theorem exists_atPosition (form : Nat) (ps : List Word) (x : ℚ) : ∃ k, 1 ≤ k ∧ k < ringN form ∧ AtPosition form ps k (some (x : ℝ)) := by
  have hK := ringK_pos form
  have hN := ringN_eq form
  rcases exists_atPosition_or_lt (form := form) (ps := ps) x (ringK form - 1) (by omega) with ⟨k, h1, hk, hat⟩ | hlow
  · exact ⟨k, h1, by omega, hat⟩
  · have hhalf : (ringN form - 1) / 2 = ringK form - 1 := by omega
    exact ⟨ringN form - 1, by omega, by omega, (atPosition_odd (by omega)).mpr ⟨.inr (by rw [hhalf]; exact hlow.resolve_left (by omega)), .inl rfl⟩⟩

end Position

/-! ## The element that holds a number (R138, R148) -/

theorem hasPos_eq_testBit (p k : Nat) : hasPos p k = p.testBit k := by rw [hasPos, Nat.testBit_eq_decide_div_mod_eq]

/-- The one member of a list for which a condition holds. -/
theorem filter_eq_singleton {l : List Nat} (hl : l.Nodup) {a : Nat} (ha : a ∈ l) {p : Nat → Bool} (hp : ∀ b ∈ l, p b = true ↔ b = a) : l.filter p = [a] := by
  have hcongr : l.filter p = l.filter (· == a) := List.filter_congr fun b hb => by rw [Bool.eq_iff_iff, hp b hb, beq_iff_eq]
  rw [hcongr, List.filter_beq, List.count_eq_one_of_mem hl ha]
  rfl

theorem posList_two_pow {n k : Nat} (hk : k < n) : posList n (2 ^ k) = [k] :=
  filter_eq_singleton List.nodup_range (List.mem_range.mpr hk) fun b _ => by rw [hasPos_eq_testBit, Nat.testBit_two_pow, decide_eq_true_iff, eq_comm]

/-- The hull of one position is the run of that position. -/
theorem hullRun_two_pow {n k : Nat} (hn : 1 < n) (hk : k < n) : hullRun n (2 ^ k) = some (k, 0) := by
  have hprev : (k + n - 1) % n ≠ k := by
    rcases Nat.eq_zero_or_pos k with rfl | hpos
    · rw [Nat.zero_add, Nat.mod_eq_of_lt (by omega)]
      omega
    · rw [show k + n - 1 = (k - 1) + n by omega, Nat.add_mod_right, Nat.mod_eq_of_lt (by omega)]
      omega
  have hstart : hasPos (2 ^ k) ((k + n - 1) % n) = false := by
    rw [hasPos_eq_testBit, Nat.testBit_two_pow, decide_eq_false_iff_not]
    exact fun h => hprev h.symm
  simp [hullRun, hullRuns, posList_two_pow hk, hstart]

/-- No run of the whole line has a first position. -/
theorem hullRun_all {n : Nat} (hn : 0 < n) : hullRun n (2 ^ n - 1) = some (0, n - 1) := by
  have hruns : hullRuns n (2 ^ n - 1) = [] := by
    have hnone : (posList n (2 ^ n - 1)).filter (fun k => !hasPos (2 ^ n - 1) ((k + n - 1) % n)) = [] := List.filter_eq_nil_iff.mpr fun k _ => by
      rw [hasPos_eq_testBit, Nat.testBit_two_pow_sub_one, decide_eq_true (Nat.mod_lt _ hn)]
      decide
    rw [hullRuns, hnone]
    rfl
  have hne : 2 ^ n - 1 ≠ 0 := by
    have := Nat.one_lt_two_pow hn.ne'
    omega
  rw [hullRun, if_neg hne, hruns]

theorem elemOfPos_two_pow {form k : Nat} (hk : k < ringN form) : elemOfPos form (2 ^ k) = oneAt form k := by
  unfold elemOfPos oneAt
  split
  next h2 =>
    subst h2
    have hk' : k < 256 := hk
    rw [hullRun_two_pow (by decide) hk']
    simp
  next => rfl

theorem elemOfPos_all (form : Nat) : elemOfPos form (allPos form) = if form = 2 then 0xFF00 else 2 ^ ringN form - 1 := by
  unfold elemOfPos allPos
  split
  next h2 =>
    subst h2
    rw [show ringN 2 = 256 from rfl, hullRun_all (by decide)]
    rfl
  next => rfl

section Locate
variable {form : Nat} {ps : List Word} (hps : pointsValid form ps = true) {y : Rat2} (hy : 0 < y.2)
include hps hy

/-- The interval of one number meets the position at which the number lies, and no other. -/
theorem meets_number {k : Nat} (h1 : 1 ≤ k) (hk : k < ringN form) :
    meets ps (ringN form) { lo := some (y, true), hi := some (y, true) } k = true ↔ AtPosition form ps k (some ((ratOf y : ℚ) : ℝ)) := by
  obtain ⟨hpoint, -⟩ := pointsValid_spec hps
  rw [ringN_eq] at hk
  have hp (i : Nat) : 0 < (ringPoint ps i).2 := pointVal_pos _
  by_cases hpar : k % 2 = 0
  · have hval := hpoint (k / 2) (by omega) (by omega)
    simp only [meets, if_pos hpar, aboveLo, belowHi, Bool.true_and, Bool.and_eq_true, Bool.or_eq_true, ratLt_iff hy (hp _), ratLt_iff (hp _) hy,
      ratEq_iff hy (hp _), hval, atPosition_even hpar, ← le_iff_lt_or_eq]
    exact ⟨fun ⟨hle, hge⟩ => ⟨by omega, le_antisymm hle (hge.elim le_of_lt Eq.ge)⟩, fun ⟨_, heq⟩ => ⟨heq.le, .inr heq⟩⟩
  · rw [atPosition_odd hpar, ringN_eq]
    simp only [meets, if_neg hpar, loBelow, hiAbove, Bool.and_eq_true]
    refine and_comm.trans (and_congr ?_ ?_)
    · by_cases hfirst : k = 1
      · simp [hfirst]
      · simp [hfirst, ratLt_iff (hp _) hy, hpoint (k / 2) (by omega) (by omega)]
    · by_cases hlast : k = 2 * ringK form - 1
      · simp [hlast]
      · simp [hlast, ratLt_iff hy (hp _), hpoint (k / 2 + 1) (by omega) (by omega)]

/-- The cover of a number is the position at which it lies. -/
theorem locate_spec : ∃ k, k < ringN form ∧ AtPosition form ps k (some ((ratOf y : ℚ) : ℝ)) ∧ locate form ps y = 2 ^ k := by
  obtain ⟨k, h1, hk, hat⟩ := exists_atPosition form ps (ratOf y)
  refine ⟨k, hk, hat, ?_⟩
  have hfilter : ((List.range (ringN form - 1)).map (fun k => k + 1)).filter
      (fun k => [({ lo := some (y, true), hi := some (y, true) } : Iv)].any (fun v => meets ps (ringN form) v k)) = [k] := by
    refine filter_eq_singleton (List.nodup_range.map (add_left_injective 1)) (List.mem_map.mpr ⟨k - 1, List.mem_range.mpr (by omega), by omega⟩) fun b hb => ?_
    obtain ⟨i, hi, rfl⟩ := List.mem_map.mp hb
    have hi' := List.mem_range.mp hi
    rw [List.any_cons, List.any_nil, Bool.or_false, meets_number hps hy (by omega) (by omega)]
    exact ⟨fun h => AtPosition.unique hps h1 hk (by omega) (by omega) hat h, fun h => h ▸ hat⟩
  simp only [locate, coverPos, Bool.false_eq_true, if_false, List.nil_append, hfilter]
  simp [posOf]

theorem elemOfPos_locate : ∃ k, k < ringN form ∧ AtPosition form ps k (some ((ratOf y : ℚ) : ℝ)) ∧ elemOfPos form (locate form ps y) = oneAt form k := by
  obtain ⟨k, hk, hat, hloc⟩ := locate_spec hps hy
  exact ⟨k, hk, hat, by rw [hloc, elemOfPos_two_pow hk]⟩

end Locate

/-- A finite value as a fraction. -/
theorem exists_fraction (form : Nat) (ps : List Word) (n : Bool) (m : Nat) (e : Int) :
    ∃ y : Rat2, 0 < y.2 ∧ ratOf y = finVal n m e ∧ locateFp form ps (.fin n m e) = locate form ps y := by
  have hsigned : (((if n then -(m : Int) else (m : Int)) : Int) : ℚ) * 2 ^ e = finVal n m e := by
    rw [finVal]
    split_ifs <;> push_cast <;> ring
  refine ⟨_, ?_, ?_, rfl⟩
  · split
    · exact Nat.one_pos
    · exact Nat.two_pow_pos _
  · rw [← hsigned, ratOf]
    split
    next h =>
      obtain ⟨j, rfl⟩ := Int.eq_ofNat_of_zero_le h
      simp
    next h =>
      obtain ⟨j, hj⟩ := Int.eq_ofNat_of_zero_le (show 0 ≤ -e by omega)
      rw [show e = -(j : Int) by omega]
      simp [div_eq_mul_inv]

/-! ## Conversions to a ringset -/

section ToRing
variable {mode : Word} {q : Ring} (hty : isRingType (modeType mode) = true) (hps : pointsValid q.form q.points = true)
include hty

theorem cvtInt_ring_eq (v : Int) : cvtInt mode (some q) v = (elemOfPos q.form (locate q.form q.points (v, 1)), 0) := by
  simp only [cvtInt, not_isIntType_of_isRingType hty, not_isFpType_of_isRingType hty, Bool.false_eq_true, if_false]

theorem cvtFp_ring_eq {f : FpFmt} {x : Nat} (hx : x < 2 * f.signBit) : cvtFp f mode (some q) x =
    (elemOfPos q.form (locateFp q.form q.points (fpDecode f (flushed (modeFtz mode) f x))), 0) := by
  simp only [cvtFp, not_isIntType_of_isRingType hty, not_isFpType_of_isRingType hty, Bool.false_eq_true, if_false, fpFlush_eq _ hx]

theorem cvtFp_ring_nan {f : FpFmt} {x : Nat} (hx : x < 2 * f.signBit) (hX : NanCode f (flushed (modeFtz mode) f x)) :
    cvtFp f mode (some q) x = (if q.form = 2 then 0xFF00 else 2 ^ ringN q.form - 1, 0) := by
  obtain ⟨s, hs⟩ := isNan_iff.mp ((isNan_decode_iff (flushed_lt _ hx)).mpr hX)
  rw [cvtFp_ring_eq hty hx, hs, locateFp, elemOfPos_all]

theorem cvtFp_ring_inf {f : FpFmt} {x : Nat} (hx : x < 2 * f.signBit) (hX : InfCode f (flushed (modeFtz mode) f x)) :
    cvtFp f mode (some q) x = (oneAt q.form 0, 0) := by
  have hN : 0 < ringN q.form := by
    have := ringK_pos q.form
    rw [ringN_eq]
    omega
  rw [cvtFp_ring_eq hty hx, decode_of_inf (flushed_lt _ hx) hX, locateFp, ← elemOfPos_two_pow hN, pow_zero]

include hps

theorem cvtInt_ring (v : Int) : ∃ k, k < ringN q.form ∧ AtPosition q.form q.points k (some (v : ℝ)) ∧ cvtInt mode (some q) v = (oneAt q.form k, 0) := by
  obtain ⟨k, hk, hat, helem⟩ := elemOfPos_locate hps (y := (v, 1)) Nat.one_pos
  rw [ratOf_int, Rat.cast_intCast] at hat
  exact ⟨k, hk, hat, by rw [cvtInt_ring_eq hty, helem]⟩

theorem cvtFp_ring_finite {f : FpFmt} {x : Nat} (hx : x < 2 * f.signBit) (hX : Finite f (flushed (modeFtz mode) f x)) :
    ∃ k, k < ringN q.form ∧ AtPosition q.form q.points k (some ((valueOf f (flushed (modeFtz mode) f x) : ℚ) : ℝ)) ∧
      cvtFp f mode (some q) x = (oneAt q.form k, 0) := by
  obtain ⟨m, e, hdec, hval, -, -⟩ := decode_finVal hX
  obtain ⟨y, hy, hfrac, hloc⟩ := exists_fraction q.form q.points (negOf f (flushed (modeFtz mode) f x)) m e
  obtain ⟨k, hk, hat, helem⟩ := elemOfPos_locate hps hy
  rw [hfrac, ← hval] at hat
  exact ⟨k, hk, hat, by rw [cvtFp_ring_eq hty hx, hdec, hloc, helem]⟩

end ToRing

/-- Settles O9: each source kind against each kind of TYPE; the integer's neighbours, the rounding of O7 and the arcs of the ring give the values. -/
theorem conversionsRoundAndSaturate : Obligations.ConversionsRoundAndSaturate := by
  unfold Obligations.ConversionsRoundAndSaturate
  refine ⟨fun mode ring v hrnd => ⟨cvtInt_int ring v, cvtInt_fp ring v hrnd, ?_⟩, fun f mode ring x hmem hrnd hx => ⟨fun hty => ?_, fun hty => ?_, ?_⟩,
    fun mode a b hty => ⟨holds_pack2Val hty a b, pack2Val_flags hty a b⟩⟩
  · rintro q hty rfl - hps
    exact cvtInt_ring hty hps v
  · refine ⟨cvtFp_int_nan ring hx hty, cvtFp_int_inf ring hx hty, fun hX => ?_⟩
    obtain ⟨k, ⟨hup, hstays, hneg, hnonneg⟩, heq⟩ := cvtFp_int_finite ring hx hty hrnd hX
    exact ⟨k, fun h => by exact_mod_cast hup h, fun h => by exact_mod_cast hstays h, hneg, hnonneg, by rw [heq], by rw [heq]⟩
  · exact ⟨cvtFp_fp_nan ring hx hty, cvtFp_fp_inf ring hx hty, cvtFp_fp_zero ring hx hty (sized_of_mem_formats hmem), cvtFp_fp_finite ring hx hty hrnd⟩
  · rintro q hty rfl - hps
    exact ⟨cvtFp_ring_nan hty hx, cvtFp_ring_inf hty hx, cvtFp_ring_finite hty hps hx⟩

end Sys2Proof.Machine
end
